-- ==== Sys2Proof/Word.lean ====
section
/-! DEFINITION. The word types: bytes, 32-bit and 64-bit words (spec 02 R22, 00 R3). -/
namespace Sys2Proof

/-- A byte of memory. -/
abbrev Byte := BitVec 8
/-- A 64-bit register, address or data word. -/
abbrev Word := BitVec 64
/-- A 32-bit word. -/
abbrev Word32 := BitVec 32

end Sys2Proof
end

