-- ==== Sys2Proof/Config.lean ====
section
/-! DEFINITION. What one panel fixes and what the spec leaves open: the free values are opaque constants, so that
nothing can be proved of any particular value (R131, R383, R385, R440, R443). -/
namespace Sys2Proof.Config

/-- A free 64-bit value for each value of the step counter `State.fresh` (log 6). -/
opaque freeWord : Nat → Word

/-- The approximation that the special-function unit proposes for function `fn` (0 frcp, 1 frsq, 2 fexp2, 3 flog2, 4 fsin, 5 fcos,
6 ftanh) on the f32 bits `x`: free, and taken only when it lies within the bound of R131 (log 7). -/
opaque special : (fn x : Nat) → BitVec 32

/-- Whether the paired issues of a checked instruction disagree (R368), and whether the two computations of a checked block
sum of the matrix array do (R341): hardware errors, free for each value of the counter (log 15). -/
opaque laneMismatch : Nat → Bool
opaque arrayMismatch : Nat → Bool

/-- Ticks of the 600 MHz reference that a step takes (log 6). -/
opaque stepTicks : Nat → Nat

/-- What die d's counter reads above die 60's (R383, log 6), and the error of its calibration in sr.toff, reduced to the bound of R383. -/
opaque clockOffset : Nat → Word
opaque calibration : Nat → Nat

/-- Bytes of a save frame, by save number and offset: the layout belongs to the device (R369, log 11). -/
opaque frameByte : Nat → Nat → Byte

/-- SHA3-512 of a byte string, 64 bytes (R440, log 9). -/
opaque sha3 : List Byte → List Byte

/-- Whether a ML-DSA-87 signature over a digest verifies under a key (R440, R441, log 9). -/
opaque mldsaVerify : (key digest sig : List Byte) → Bool

/-- The device's ML-DSA-87 signature over a digest (R443, log 9). -/
opaque mldsaSign : List Byte → List Byte

/-- The fused data of port die 0: serial number, identity key, the key for images and the digest fused for it, and digests of the factory images (R442,
R443, log 9). -/
opaque serial : List Byte
opaque identityKey : List Byte
opaque fuseKey : List Byte
opaque fuseDigest : List Byte
opaque romDigest : List Byte
opaque imageDigest : Nat → List Byte

/-- The factory's Sorboing image: its version, and the signature over its digest (R442, log 9). -/
opaque factoryVersion : Nat
opaque factorySig : List Byte

/-- The sandbox that the service runs on a hart from its region's bring-up on: reduced to 0, none, or a group of 1 to 8 on its port die (R432, log 73). -/
opaque sandboxGroup : Nat → Nat

/-- The service's choice of a home die for a page, reduced to the dies in service (R440, log 10). -/
opaque serviceDie : Nat → Nat

/-- The cores of a die that are out of service at bring-up, by die and word of sr.tmask: bit j for core 64 × word + j (R401, log 58). -/
opaque outOfService : Nat → Nat → Word

/-- The service's choice of the virtual addresses of a context's ring and doorbell, reduced to a range (R434, R440, log 10). -/
opaque serviceVA : Nat → Nat

/-- Bytes by which the largest body that the service accepts exceeds the largest legal one (R440, R441, log 10). -/
opaque maxBody : Nat

end Sys2Proof.Config
end

