-- ==== Sys2Proof/Syntax.lean ====
section
/-! DEFINITION. The instructions and device events: one constructor of `Instr` for each row of
spec/opcode_table.json. Encoded instructions carry their decoded operands; the rows that are events
of the device (spec 95) carry the names of the objects they act on. -/
namespace Sys2Proof

/-- Type codes of the T field (R59). `cc cd ce cf` are the codes C to F. -/
inductive Ty where
  | s8 | s16 | s32 | s64 | n8 | n16 | n32 | n64 | f16 | bf16 | f32 | f64 | cc | cd | ce | cf
  deriving DecidableEq, Repr

/-- The guard of an instruction: predicate PG, inverted when PN is 1 (R23). -/
structure Guard where
  pred : BitVec 4
  neg : Bool
  deriving DecidableEq, Repr

/-- Crossbar patterns (R48, R189). -/
inductive Pattern where
  | none | rot (n : BitVec 5) | bcast (n : BitVec 5) | bfly (n : BitVec 5) | mirror
  deriving DecidableEq, Repr

/-- A source field: its number, its uniform bit, its last-use bit, its pattern and its A96 modifiers (R48, R49, R51). -/
structure Src where
  num : BitVec 7
  uni : Bool
  last : Bool
  pat : Pattern
  neg : Bool
  abs : Bool
  deriving DecidableEq, Repr

/-- A destination field. -/
structure Dst where
  num : BitVec 7
  uni : Bool
  deriving DecidableEq, Repr

/-- The length and what bits [95:64] or [127:64] hold: A64, A96 with its mask, I96, Q128 (R48 to R53). -/
inductive Ext where
  | a64 | a96 (sem : BitVec 8) | i96 (imm : BitVec 32) | q128 (imm : BitVec 64)
  deriving DecidableEq, Repr

/-- The A64 family of formats (R48 to R53). A field that the opcode does not use is zero. -/
structure AForm where
  g : Guard
  ms : Bool
  ty : Ty
  d : Dst
  a : Src
  b : Src
  c : Src
  ext : Ext
  deriving DecidableEq, Repr

/-- Rounding modes (R78). -/
inductive RM where
  | rne | rtz | rdn | rup | rna
  deriving DecidableEq, Repr

/-- Float formats, as coded by SF (R124, R75). -/
inductive FFmt where
  | f16 | bf16 | f32 | f64
  deriving DecidableEq, Repr

/-- Conditions of `cmp` (R116). -/
inductive Cond where
  | eq | ne | lt | le | gt | ge | tst | ntst
  deriving DecidableEq, Repr

/-- Conditions of `fcmp` (R127). -/
inductive FCond where
  | eq | ne | lt | le | gt | ge | un | ord
  deriving DecidableEq, Repr

/-- Kinds of `dot` (R134). -/
inductive DotKind where
  | h4 | h6 | i8 | bf
  deriving DecidableEq, Repr

/-- Sizes and extensions of memory accesses, SZ (R54). -/
inductive MSize where
  | z8 | z16 | z32 | z64 | s8 | s16 | s32
  deriving DecidableEq, Repr

/-- Orders, OR (R54). -/
inductive MOrd where
  | plain | acq | rel | ar
  deriving DecidableEq, Repr

/-- Operations of `amo` (R154). -/
inductive AmoOp where
  | add | smin | smax | nmin | nmax | and | or | xor | swap | fadd
  deriving DecidableEq, Repr

/-- Kinds of `pref` (R153). -/
inductive PrefKind where
  | rd | wr | l2
  deriving DecidableEq, Repr

/-- Operations of `bamo` (R266). -/
inductive BamoOp where
  | add | min | max | and | or | xor | swap
  deriving DecidableEq, Repr

/-- Conditions of `bwait` (R268). -/
inductive BwaitCond where
  | eq | ne | ge | lt | any
  deriving DecidableEq, Repr

/-- Operations of `scan`, `red` and `hret` (R196, R218). -/
inductive RedOp where
  | add | min | max | and | or | xor
  deriving DecidableEq, Repr

/-- Modes of `shfl` (R193). -/
inductive ShflMode where
  | idx | up | down | xor
  deriving DecidableEq, Repr

/-- Modes of `vote` (R194). -/
inductive VoteMode where
  | any | all | uni | ballot
  deriving DecidableEq, Repr

/-- Selectors of `id` (R199). -/
inductive IdSel where
  | fslot | wslot | weave | block | core | die | cluster | nfib | active
  | coord (l : BitVec 3) | ext (l : BitVec 3)
  deriving DecidableEq, Repr

/-- Formats of a transposing copy, FMT (R316). -/
inductive CpFmt where
  | bytes | hs4 | hs6 | i8 | b9
  deriving DecidableEq, Repr

/-- How `mm.rd` reads entries, SK (R339). -/
inductive RdSrc where
  | f | i | q
  deriving DecidableEq, Repr

/-- What `mm.rd` writes, OF (R339). -/
inductive RdOut where
  | f32 | bf16 | s32
  deriving DecidableEq, Repr

/-- Kinds of `fence` (R289). -/
inductive FenceKind where
  | acq | rel | full
  deriving DecidableEq, Repr

/-- M64 and M96 (R54, R55): `la lb ld` are the last-use bits; `off` is the byte offset, sign-extended to 32 bits in M64. -/
structure MForm where
  g : Guard
  ms : Bool
  d : BitVec 7
  a : BitVec 7
  b : BitVec 7
  scope : BitVec 4
  ord : MOrd
  nb : Bool
  la : Bool
  lb : Bool
  ld : Bool
  wide : Bool
  off : BitVec 32
  deriving DecidableEq, Repr

/-- The fields of `ldl` and `stl` (R56): `buf` is BUF when BN = 1. -/
structure LForm where
  g : Guard
  ms : Bool
  d : BitVec 7
  a : BitVec 7
  b : BitVec 7
  buf : Option (BitVec 4)
  nb : Bool
  la : Bool
  lb : Bool
  ld : Bool
  wide : Bool
  off : BitVec 32
  deriving DecidableEq, Repr

/-- The head of an engine command (R58, R309): guard, the barrier it arrives at, and its s registers. -/
structure EForm where
  g : Guard
  bar : Option (BitVec 4)
  a : BitVec 7
  b : BitVec 7
  c : BitVec 7
  deriving DecidableEq, Repr

/-- The fields of `recruit` (R209). -/
structure RecruitForm where
  g : Guard
  d : BitVec 7
  a : BitVec 7
  la : Bool
  k : BitVec 5
  shr : BitVec 7
  body : BitVec 32
  deriving DecidableEq, Repr

/-- A memory request of a RISC-V hart (R288), by the address that the hart issues: a physical one on port die 0, a guest's elsewhere (R432). -/
inductive HartOp where
  | load (pa size : Nat) | store (pa size : Nat) (v : Word) | amo (op : AmoOp) (pa size : Nat) (v : Word) | fence
  deriving DecidableEq, Repr

/-- What a scrub read of a line finds (R419, R421). -/
inductive ScrubResult where
  | clean | corrected | uncorrectable
  deriving DecidableEq, Repr

/-- The two engines of a block (R311). -/
inductive Engine where
  | copy | array
  deriving DecidableEq, Repr

/-- The header of a Uzoide message but for its TYPE, which the row of the message names (R437). -/
structure UzHdr where
  magic : BitVec 16
  major : Byte
  minor : Byte
  status : BitVec 16
  session : Word
  req : Word
  len : BitVec 32
  zero : BitVec 32
  deriving DecidableEq, Repr

/-- A Uzoide message: its header and the bytes that follow it (R437). -/
structure UzMsg where
  h : UzHdr
  body : List Byte
  deriving DecidableEq, Repr

/-- Where a message arrives: an Ultra Ethernet port, or the management port (R442, R443). -/
inductive Source where
  | port (p : BitVec 5)
  | mgmt
  deriving DecidableEq, Repr

/-- A message and where it arrives. -/
structure UzIn where
  src : Source
  m : UzMsg
  deriving DecidableEq, Repr

/-- Body of a CONTEXT_CREATE request (R440). -/
structure CtxReq where
  session : Nat
  flags : BitVec 16
  ringlog : Nat
  frames : Nat
  key : List Byte
  deriving DecidableEq, Repr

/-- Body of a MAP request (R440). -/
structure MapReq where
  session : Nat
  ctx : Nat
  va : Nat
  size : Nat
  op : Nat
  perm : BitVec 8
  pgsz : Nat
  home : Nat
  share : Nat
  deriving DecidableEq, Repr

/-- Body of a MODULE_LOAD request (R440). -/
structure ModReq where
  session : Nat
  ctx : Nat
  va : Nat
  siglen : Nat
  image : List Byte
  sig : List Byte
  deriving DecidableEq, Repr

/-- Body of an FW_UPDATE request (R441). -/
structure FwReq where
  session : Nat
  target : Nat
  version : Nat
  image : List Byte
  sig : List Byte
  deriving DecidableEq, Repr

/-- Where a relaunch event comes from: the block it belongs to and the core that reports it, its own or, for a helper weave, a
neighbour (R363). -/
structure Reporter where
  uid : Nat
  core : Nat
  deriving DecidableEq, Repr

/-- One constructor for each row of spec/opcode_table.json, in the table's order. -/
inductive Instr where
  -- clause headers and nop
  | clause (wait : BitVec 12) (seta setb : BitVec 4) (zero : BitVec 42)
  | nop (wide : Bool)
  -- integer, logic and predicate instructions (spec 05)
  | add (f : AForm) (uns sat : Bool)
  | sub (f : AForm) (uns sat : Bool)
  | mul (f : AForm) (uns sat : Bool)
  | mad (f : AForm) (uns sat : Bool)
  | mulhi (f : AForm) (uns : Bool)
  | div (f : AForm) (uns : Bool)
  | rem (f : AForm) (uns : Bool)
  | abs (f : AForm) (sat : Bool)
  | min (f : AForm) (uns : Bool)
  | max (f : AForm) (uns : Bool)
  | and (f : AForm)
  | or (f : AForm)
  | xor (f : AForm)
  | andn (f : AForm)
  | orn (f : AForm)
  | shl (f : AForm) (sat : Bool)
  | shr (f : AForm)
  | sar (f : AForm)
  | rol (f : AForm)
  | ror (f : AForm)
  | clz (f : AForm)
  | ctz (f : AForm)
  | popc (f : AForm)
  | brev (f : AForm)
  | bfx (f : AForm)
  | bfi (f : AForm)
  | ext (f : AForm)
  | mov (f : AForm)
  | movi (f : AForm)
  | movq (f : AForm)
  | sel (f : AForm) (np : Bool)
  | lea (f : AForm) (sh : BitVec 4)
  | cmp (f : AForm) (orr : Bool) (cond : Cond)
  | plog (f : AForm) (lut : BitVec 4)
  | pmov (f : AForm) (dir : Bool)
  | movx (f : AForm)
  | movxw (f : AForm)
  -- floating-point instructions (spec 06)
  | fadd (f : AForm) (rm : RM)
  | fsub (f : AForm) (rm : RM)
  | fmul (f : AForm) (rm : RM)
  | ffma (f : AForm) (rm : RM)
  | fmin (f : AForm)
  | fmax (f : AForm)
  | fminx (f : AForm)
  | fmaxx (f : AForm)
  | fcmp (f : AForm) (orr : Bool) (cond : FCond)
  | fclass (f : AForm)
  | fcvt (f : AForm) (sf : FFmt) (rm : RM)
  | fcvti (f : AForm) (sf : FFmt) (rm : RM)
  | icvtf (f : AForm) (nat w64 : Bool) (rm : RM)
  | frnd (f : AForm) (x : Bool) (rm : RM)
  | fsqrt (f : AForm) (rm : RM)
  | fdiv (f : AForm) (rm : RM)
  | frcp (f : AForm)
  | frsq (f : AForm)
  | fexp2 (f : AForm)
  | flog2 (f : AForm)
  | fsin (f : AForm)
  | fcos (f : AForm)
  | ftanh (f : AForm)
  | dot (f : AForm) (kind : DotKind) (rm : RM)
  | qz (f : AForm)
  | dq (f : AForm) (rm : RM)
  | pack (f : AForm) (rm : RM)
  | unpk (f : AForm) (hi : Bool)
  -- control flow and memory (spec 07)
  | bra (g : Guard) (off : BitVec 32)
  | call (g : Guard) (link : BitVec 7) (off : BitVec 32)
  | brx (f : AForm)
  | ret (f : AForm)
  | trap (f : AForm)
  | brk (g : Guard)
  | mcall (g : Guard) (n : BitVec 6)
  | ld (m : MForm) (sz : MSize)
  | st (m : MForm) (sz : MSize)
  | pref (m : MForm) (kind : PrefKind)
  | amo (m : MForm) (op : AmoOp)
  | cas (m : MForm) (sz : MSize)
  | cstore (m : MForm) (sz : MSize)
  | ldl (l : LForm) (sz : MSize)
  | stl (l : LForm) (sz : MSize)
  -- bound registers (spec 12)
  | bind (m : MForm) (sz : MSize)
  | unbind (g : Guard) (d : BitVec 7)
  | bsync (g : Guard)
  | bwait (f : AForm) (cond : BwaitCond)
  | bamo (f : AForm) (op : BamoOp)
  | bcas (f : AForm)
  -- fences (spec 13)
  | fence (g : Guard) (kind : FenceKind) (scope : BitVec 4)
  | fenceOwn (g : Guard)
  | fenceFar (g : Guard) (scope : BitVec 4)
  -- the parallel layer (spec 09)
  | shfl (f : AForm) (mode : ShflMode)
  | vote (f : AForm) (mode : VoteMode)
  | matchBits (f : AForm)
  | matchf (f : AForm)
  | scan (f : AForm) (op : RedOp) (exc sat : Bool) (rm : RM)
  | red (f : AForm) (op : RedOp) (sat : Bool) (rm : RM)
  | fork (g : Guard) (s d : BitVec 7) (off : BitVec 32)
  | fend (g : Guard)
  | id (f : AForm) (sel : IdSel)
  | launch (f : AForm)
  | barArrive (f : AForm) (rd : Bool) (n : BitVec 4)
  | barWait (f : AForm) (n : BitVec 4)
  | barSync (f : AForm) (n : BitVec 4)
  | yield (g : Guard)
  | join (g : Guard)
  | qpush (f : AForm) (nb : Bool)
  | qpop (f : AForm) (nb : Bool)
  -- recruitment (spec 10)
  | recruit (r : RecruitForm)
  | hwork (f : AForm)
  | hret (f : AForm) (op : RedOp)
  | hend (g : Guard)
  -- traps and system instructions (spec 18), migration and trees (spec 20)
  | tret (g : Guard)
  | sysr (f : AForm) (ax : Bool)
  | sysw (f : AForm) (ax : Bool)
  | tread (f : AForm)
  | icinv (f : AForm) (all : Bool)
  | mcdef (f : AForm)
  | migrate (f : AForm)
  | tarr (f : AForm) (rd : Bool) (tree : Bool)
  | twait (f : AForm) (tree : Bool)
  -- the sequencer and its engines (spec 15, 16)
  | spush (f : AForm) (nb : Bool)
  | spop (f : AForm) (nb : Bool)
  | lbmapSwap (g : Guard) (d a : BitVec 4)
  | lbmapSet (g : Guard) (d : BitVec 4) (b : BitVec 7)
  | cpIn (e : EForm) (db : BitVec 4) (keep : Bool) (fmt : CpFmt) (doff : BitVec 16) (k128 : BitVec 8)
  | cpOut (e : EForm) (sb : BitVec 4) (pair : Bool) (soff : BitVec 16) (scope : BitVec 4)
  | cpPeer (e : EForm) (sb tb : BitVec 4) (soff toff : BitVec 16) (scope : BitVec 4) (keep : Bool)
  | cpFill (e : EForm) (db : BitVec 4) (keep glb : Bool) (doff : BitVec 16) (scope : BitVec 4)
  | pub (g : Guard) (bar : Option (BitVec 4)) (a : BitVec 7) (scope : BitVec 4)
  | gNode (g : Guard) (n : BitVec 6) (cnt : BitVec 6) (bar : Option (BitVec 4))
  | gEdge (g : Guard) (x y : BitVec 6)
  | gRun (g : Guard) (bar : Option (BitVec 4))
  | gReset (g : Guard)
  | mm (e : EForm) (abuf bbuf : BitVec 4) (aoff boff : BitVec 12) (tile : BitVec 2) (ow tri ia : Bool)
  | mmClr (g : Guard) (bar : Option (BitVec 4)) (tile : BitVec 2)
  | mmLd (g : Guard) (bar : Option (BitVec 4)) (sb : BitVec 4) (tile : BitVec 2) (lk : Bool) (soff : BitVec 12)
  | mmRd (g : Guard) (bar : Option (BitVec 4)) (db : BitVec 4) (keep : Bool) (tile : BitVec 2) (sk : RdSrc) (ofmt : RdOut) (doff : BitVec 12)
  -- events of the machine (spec 95)
  | operationCompletion (uid op : Nat)
  | watchdog
  | weaveDemote (uid widx : Nat)
  | weavePromote (core : Nat)
  | launchReady (ctx queue : Nat)
  | blockPlacement (die : Nat)
  | preemption (die : Nat)
  | launchCompletion (ctx lid : Nat)
  | trapEntry (uid : Nat)
  | recordCompletion (ctx seq : Nat)
  | breakpointMatch (n : BitVec 2)
  | helperStart (uid pool : Nat)
  | releaseRequest (uid widx : Nat)
  | recruiterResume (uid pool : Nat)
  | push (core line : Nat)
  | missRequest (core line : Nat) (own : Bool)
  | dataReply (core line : Nat)
  | probe (core line : Nat)
  | writeBack (core line : Nat)
  | collapse (line : Nat)
  | zoneReview (zone : Nat)
  | replWrite (zone : Nat) (v : Word)
  | translationWalk (ctx die vpn : Nat)
  | commandStart (uid : Nat) (e : Engine)
  | commandCompletion (uid cmd : Nat)
  | commandError (uid cmd : Nat) (inner : BitVec 8)
  | seqctlEnd (uid : Nat)
  | relaunchEvent (src : Reporter) (cause : BitVec 8) (addr aux : Word)
  | remoteRefusal (src : Reporter) (pa sq : Nat)
  | save (core frame : Nat)
  | restore (die core frame : Nat)
  | retire (core : Nat)
  | returnToService (core : Nat)
  | dieReset (die : Nat)
  | drainDeadline (die : Nat)
  | dieReturn (die : Nat)
  | sliceRetire (die n : Nat)
  | invalidation (die ctx page : Nat) (all : Bool)
  | registerWrite (die off : Nat) (v : Word)
  | messageArrival (uid widx : Nat)
  | messageRetry (uid widx : Nat)
  | handlerStart (core : Nat)
  | migrationArrival (uid : Nat)
  | treeReport (tree : Bool) (die : Nat)
  | absenceNotice (tree : Bool) (uid : Nat)
  | presenceNotice (tree : Bool) (uid : Nat)
  | roundComplete (tree : Bool)
  | treeRelease (tree : Bool) (die : Nat)
  | scrub (line : Nat) (r : ScrubResult)
  | stepBoundary
  | droopAlarm (r : Nat)
  | droopRecovery (r : Nat)
  | holdExpiry (r : Nat)
  -- the service and the outside world (spec 24)
  -- where arguments give a body in parts, the body is the parts one after another
  | sessionOpen (src : Source) (m : UzMsg)
  | contextCreate (r : UzIn)
  | contextDestroy (src : Source) (m : UzMsg)
  | moduleLoad (r : UzIn)
  | map (r : UzIn)
  | put (src : Source) (h : UzHdr) (fields data : List Byte)
  | get (src : Source) (h : UzHdr) (fields more : List Byte)
  | launchRequest (src : Source) (h : UzHdr) (ctx record more : List Byte)
  | quote (src : Source) (m : UzMsg)
  | faultReply (src : Source) (h : UzHdr) (fields more : List Byte)
  | fwUpdate (r : UzIn)
  | rmaWriteReceive (ctx va : Nat) (data : List Byte)
  | sandboxEnd (id : Nat)
  | boot
  | fullService
  | illegalInstruction (g : Guard) (len : Nat)
  | sessionClose (session : Nat)
  | regionBringUp (r : Nat)
  | hartAccess (hart : Nat) (op : HartOp)
  | unsupportedFeatureRequest (port : Nat)
  | reservedTypeRequest (r : UzIn) (ty : BitVec 16)
  deriving DecidableEq, Repr

end Sys2Proof
end

