-- ==== Sys2Proof/WellFormed.lean ====
section
/-! DEFINITION. Which instruction terms have an encoding: the field rules of R48 to R59, R61 (check 3)
and of each opcode's own description. A term that is not well formed is an illegal instruction. -/
namespace Sys2Proof

/-- The T code of a type (R59). -/
def Ty.code : Ty → Nat
  | .s8 => 0 | .s16 => 1 | .s32 => 2 | .s64 => 3 | .n8 => 4 | .n16 => 5 | .n32 => 6 | .n64 => 7
  | .f16 => 8 | .bf16 => 9 | .f32 => 10 | .f64 => 11 | .cc => 12 | .cd => 13 | .ce => 14 | .cf => 15

/-- The type of a T code. -/
def Ty.ofCode : Nat → Ty
  | 0 => .s8 | 1 => .s16 | 2 => .s32 | 3 => .s64 | 4 => .n8 | 5 => .n16 | 6 => .n32 | 7 => .n64
  | 8 => .f16 | 9 => .bf16 | 10 => .f32 | 11 => .f64 | 12 => .cc | 13 => .cd | 14 => .ce | _ => .cf

/-- The number of SEM bits that a type uses (R51): `fl` selects the float column of R59. -/
def Ty.semBits (fl : Bool) : Ty → Nat
  | .cc => if fl then 4 else 8
  | .cd => 4
  | .ce => 2
  | .cf => 8
  | _ => 1

/-- How an opcode uses a register field (R49, R54). -/
inductive Use where
  /-- not used: zero, with its UC, LU, pattern and modifier bits -/
  | none
  /-- a source register, w or k -/
  | src
  /-- a source register that may not be uniform -/
  | srcW
  /-- a source register with neither a UC nor an LU bit -/
  | srcBare
  /-- a destination register, w or k -/
  | dst
  /-- a destination register that may not be uniform -/
  | dstW
  /-- a predicate, 0 to 15 -/
  | pred
  /-- a number below the limit -/
  | num (lim : Nat)
  deriving DecidableEq, Repr

/-- What the opcode map and the opcode's chapter say of one operation of the A64 family (R60, R96, R123, R444). -/
structure Shape where
  op : Nat
  d : Use := .none
  a : Use := .none
  b : Use := .none
  c : Use := .none
  /-- accepted T codes -/
  ty : Nat → Bool
  a64 : Bool := true
  a96 : Bool := false
  i96 : Bool := false
  q128 : Bool := false
  /-- crossbar patterns may stand on its w sources (R444) -/
  pat : Bool := false
  /-- T codes C to E name float types (R59) -/
  fl : Bool := false
  /-- long-latency (R27) -/
  ll : Bool := false
  fibre : Bool := true
  seq : Bool := false
  /-- the A96 mask must be 0xFF whatever the type (R123) -/
  full : Bool := false

namespace Use
def isSrc : Use → Bool
  | .src | .srcW | .srcBare => true
  | _ => false
def isDst : Use → Bool
  | .dst | .dstW => true
  | _ => false
def uniOk : Use → Bool
  | .src | .dst => true
  | _ => false
end Use

/-- A zero source field. -/
def Src.zero : Src := ⟨0, false, false, .none, false, false⟩
/-- A zero destination field. -/
def Dst.zero : Dst := ⟨0, false⟩

/-- Pattern amounts (R189). -/
def Pattern.ok : Pattern → Bool
  | .none => true
  | .rot n => n != 0
  | .bcast _ => true
  | .bfly n => n != 0
  | .mirror => true

/-- A source field under its use; `pat` says whether a pattern may stand, `mods` whether A96 modifiers may. -/
def Src.ok (u : Use) (pat mods : Bool) (s : Src) : Bool :=
  match u with
  | .src | .srcW =>
    (!s.uni || (decide (u = .src) && decide (s.num.toNat < 32)))
      && (decide (s.pat = .none) || (pat && !s.uni && s.pat.ok))
      && (mods || (!s.neg && !s.abs))
  | .srcBare => !s.uni && !s.last && s.pat = .none && !s.neg && !s.abs
  | .pred => s.num.toNat < 16 && !s.uni && !s.last && s.pat = .none && !s.neg && !s.abs
  | .num l => s.num.toNat < l && !s.uni && !s.last && s.pat = .none && !s.neg && !s.abs
  | _ => decide (s = Src.zero)

/-- A destination field under its use. -/
def Dst.ok (u : Use) (d : Dst) : Bool :=
  match u with
  | .dst => !d.uni || d.num.toNat < 32
  | .dstW => !d.uni
  | .pred => d.num.toNat < 16 && !d.uni
  | .num l => d.num.toNat < l && !d.uni
  | _ => decide (d = Dst.zero)

/-- The mask rule of R51. -/
def semOk (fl : Bool) (ty : Ty) (sem : BitVec 8) : Bool :=
  let n := ty.semBits fl
  if n = 1 then sem = 0xFF else sem.toNat < 2 ^ n && sem != 0

/-- Immediates of the 16-bit float formats have zero upper bits (R52). -/
def immOk (fl : Bool) (ty : Ty) (imm : BitVec 32) : Bool :=
  match ty with
  | .f16 | .bf16 => imm.toNat < 65536
  | .cc | .cd => !fl || imm.toNat < 65536
  | _ => true

/-- The rules that every form of the A64 family obeys (R48 to R53, R59, R444). -/
def AForm.ok (sh : Shape) (f : AForm) : Bool :=
  let mods := match f.ext with | .a96 _ => true | _ => false
  let noB := match f.ext with | .i96 _ | .q128 _ => true | _ => false
  let noC := match f.ext with | .q128 _ => true | _ => false
  sh.ty f.ty.code
    && (!f.ms || sh.ll)
    && f.d.ok sh.d
    && f.a.ok sh.a sh.pat mods
    && f.b.ok (if noB then .none else sh.b) (sh.pat && mods) mods
    && f.c.ok (if noC then .none else sh.c) (sh.pat && mods) mods
    && (decide (f.a.pat = .none) || (!f.d.uni && !f.a.uni && !f.b.uni && !f.c.uni))
    && (match f.ext with
        | .a64 => sh.a64
        | .a96 sem => sh.a96 && (if sh.full then sem == 0xFF else semOk sh.fl f.ty sem)
        | .i96 imm => sh.i96 && immOk sh.fl f.ty imm
        | .q128 _ => sh.q128)

namespace TySet
def int (n : Nat) : Bool := n < 8
def intP (n : Nat) : Bool := n < 8 || (12 ≤ n && n ≤ 14)
def any (n : Nat) : Bool := n < 16
def toE (n : Nat) : Bool := n < 15
def flt (n : Nat) : Bool := 8 ≤ n && n ≤ 14
def scf (n : Nat) : Bool := 8 ≤ n && n ≤ 11
def apx (n : Nat) : Bool := flt n && n != 11
def bw (n : Nat) : Bool := n == 2 || n == 3 || n == 6 || n == 7
def pk (n : Nat) : Bool := 12 ≤ n && n ≤ 14
def q64 (n : Nat) : Bool := n == 3 || n == 7 || n == 11 || (12 ≤ n && n < 16)
def only (k n : Nat) : Bool := n == k
end TySet

namespace Shape
open TySet
/-- `D, A, B` integer operations with immediate form, on both sides. -/
def alu3 (op : Nat) (t : Nat → Bool) : Shape :=
  { op, d := .dst, a := .src, b := .src, ty := t, a96 := true, i96 := true, pat := true, seq := true }
/-- `D, A, B, C` integer operations. -/
def alu4 (op : Nat) (t : Nat → Bool) : Shape := { alu3 op t with c := .src }
/-- `D, A` integer operations without an immediate form. -/
def alu2 (op : Nat) (t : Nat → Bool) : Shape :=
  { op, d := .dst, a := .src, ty := t, a96 := true, pat := true, seq := true }
/-- `D, A, B` float operations with an immediate form. -/
def flt3 (op : Nat) : Shape :=
  { op, d := .dst, a := .src, b := .src, ty := flt, a96 := true, i96 := true, pat := true, fl := true }
/-- `D, A` float conversions. -/
def cvt (op : Nat) (t : Nat → Bool) : Shape :=
  { op, d := .dst, a := .src, ty := t, a96 := true, pat := true, fl := true }
/-- Special functions of one source (R130). -/
def spec1 (op : Nat) (t : Nat → Bool) : Shape :=
  { op, d := .dst, a := .src, ty := t, pat := true, fl := true, ll := true }
/-- `D, A, B` of `qz dq pack` and, with C, `dot`. -/
def vec3 (op : Nat) (t : Nat → Bool) : Shape :=
  { op, d := .dst, a := .src, b := .src, ty := t, a96 := true, pat := true, fl := true }
/-- The cross-fibre instructions (R192). -/
def cross (op : Nat) (d a : Use) (t : Nat → Bool) : Shape := { op, d, a, ty := t, a96 := true }
/-- Instructions with no operand field but the guard. -/
def bare (op : Nat) : Shape := { op, ty := only 0 }
/-- Engine commands and the other E128 forms: sequencer only (R58). -/
def eng (op : Nat) (a b c : Use) : Shape :=
  { op, a, b, c, ty := only 0, a64 := false, q128 := true, fibre := false, seq := true }
end Shape

open Shape TySet in
/-- The shape of each operation encoded in the A64 family; `none` for the other formats and for events. `trap wA` takes A with its UC and LU bits, of which
R143 does not say whether they may be set (log 50), and `mcdef` its registers without (R361). -/
def Instr.shape : Instr → Option Shape
  | .add .. => some (alu3 0x01 intP)
  | .sub .. => some (alu3 0x02 intP)
  | .mul .. => some (alu3 0x03 intP)
  | .mulhi .. => some (alu3 0x04 intP)
  | .mad .. => some (alu4 0x05 intP)
  | .div .. => some (alu3 0x06 intP)
  | .rem .. => some (alu3 0x07 intP)
  | .abs .. => some (alu2 0x08 intP)
  | .min .. => some (alu3 0x09 intP)
  | .max .. => some (alu3 0x0A intP)
  | .and .. => some (alu3 0x0B any)
  | .or .. => some (alu3 0x0C any)
  | .xor .. => some (alu3 0x0D any)
  | .andn .. => some (alu3 0x0E any)
  | .orn .. => some (alu3 0x0F any)
  | .shl .. => some (alu3 0x10 intP)
  | .shr .. => some (alu3 0x11 intP)
  | .sar .. => some (alu3 0x12 intP)
  | .rol .. => some (alu3 0x13 intP)
  | .ror .. => some (alu3 0x14 intP)
  | .clz .. => some (alu2 0x15 intP)
  | .ctz .. => some (alu2 0x16 intP)
  | .popc .. => some (alu2 0x17 intP)
  | .brev .. => some (alu2 0x18 intP)
  | .bfx .. => some (alu3 0x19 int)
  | .bfi .. => some (alu4 0x1A int)
  | .ext .. => some (alu4 0x1B int)
  | .sel .. => some { alu3 0x1C any with c := .pred }
  | .mov .. => some (alu2 0x1D any)
  | .movi .. => some { op := 0x1E, d := .dst, b := .src, ty := toE, a64 := false, i96 := true, seq := true }
  | .movq .. => some { op := 0x1F, d := .dst, ty := q64, a64 := false, q128 := true, seq := true }
  | .lea .. => some (alu3 0x20 bw)
  | .cmp .. => some { alu3 0x21 int with d := .pred, c := .pred }
  | .plog .. => some { op := 0x22, d := .pred, a := .pred, b := .pred, ty := only 0, seq := true }
  | .pmov _ dir => some (if dir then { op := 0x23, a := .src, ty := only 0, pat := true, seq := true }
      else { op := 0x23, d := .dst, ty := only 0, seq := true })
  | .movx .. => some { op := 0x24, d := .dstW, a := .src, ty := only 7, pat := true }
  | .movxw .. => some { op := 0x25, a := .src, b := .src, ty := only 7, pat := true }
  | .fadd .. => some (flt3 0x30)
  | .fsub .. => some (flt3 0x31)
  | .fmul .. => some (flt3 0x32)
  | .ffma .. => some { flt3 0x33 with c := .src }
  | .fmin .. => some (flt3 0x34)
  | .fmax .. => some (flt3 0x35)
  | .fminx .. => some (flt3 0x36)
  | .fmaxx .. => some (flt3 0x37)
  | .fcmp .. => some { flt3 0x38 with d := .pred, c := .pred, ty := scf }
  | .fclass .. => some { op := 0x39, d := .dst, a := .src, ty := scf, pat := true, fl := true }
  | .fcvt .. => some (cvt 0x3A scf)
  | .fcvti .. => some (cvt 0x3B int)
  | .icvtf .. => some (cvt 0x3C scf)
  | .frnd .. => some (cvt 0x3D flt)
  | .fsqrt .. => some (spec1 0x3E flt)
  | .fdiv .. => some { spec1 0x3F flt with b := .src }
  | .frcp .. => some (spec1 0x40 apx)
  | .frsq .. => some (spec1 0x41 apx)
  | .fexp2 .. => some (spec1 0x42 apx)
  | .flog2 .. => some (spec1 0x43 apx)
  | .fsin .. => some (spec1 0x44 apx)
  | .fcos .. => some (spec1 0x45 apx)
  | .ftanh .. => some (spec1 0x46 apx)
  | .dot _ k _ => some { vec3 0x47 (only (if k = .bf then 10 else 2)) with c := .src }
  | .qz .. => some (vec3 0x48 (only 14))
  | .dq .. => some (vec3 0x49 (only 14))
  | .pack .. => some (vec3 0x4A pk)
  | .unpk .. => some { cvt 0x4B pk with full := true }
  | .unbind .. => some { bare 0x59 with d := .dstW }
  | .bsync .. => some (bare 0x5A)
  | .bwait .. => some { op := 0x5B, d := .dstW, b := .src, ty := bw, i96 := true }
  | .bamo .. => some { op := 0x5C, d := .dstW, b := .src, ty := bw, i96 := true, ll := true }
  | .bcas .. => some { op := 0x5D, d := .dstW, a := .pred, b := .src, c := .src, ty := bw, ll := true }
  | .shfl .. => some { cross 0x70 .dst .src any with b := .src }
  | .vote _ m => some (cross 0x71 (if m = .ballot then .dst else .pred) .pred (only 0))
  | .matchBits .. => some (cross 0x72 .dst .src (fun n => n < 8 || 12 ≤ n))
  | .matchf .. => some (cross 0x73 .dst .src scf)
  | .scan f o _ _ _ => some { cross 0x74 .dst .src toE with
      c := if o = .add && scf f.ty.code then .num 5 else .none }
  | .red f o _ _ => some { cross 0x75 .dst .src toE with
      c := if o = .add && scf f.ty.code then .num 5 else .none }
  | .brx .. => some { bare 0x81 with a := .src, seq := true }
  | .ret .. => some { bare 0x83 with a := .src, seq := true }
  | .yield .. => some (bare 0x84)
  | .join .. => some (bare 0x85)
  | .trap f => some { op := 0x86, a := (match f.ext with | .i96 _ => .none | _ => .src), b := (match f.ext with | .i96 _ => .src | _ => .none), ty := only 6, i96 := true, seq := true }
  | .brk .. => some { bare 0x87 with seq := true }
  | .mcall .. => some { bare 0x88 with c := .num 64 }
  | .tret .. => some { bare 0x89 with seq := true }
  | .fend .. => some (bare 0x91)
  | .id .. => some { op := 0x92, d := .dst, ty := only 7, seq := true }
  | .launch .. => some { op := 0x93, d := .pred, a := .src, b := .src, ty := only 0, seq := true }
  | .recruit .. => some { op := 0x94, d := .dstW, a := .srcW, ty := only 6, a64 := false, q128 := true }
  | .hwork .. => some { op := 0x95, d := .dstW, c := .pred, ty := only 7 }
  | .hret .. => some { op := 0x96, d := .num 32, a := .srcW, ty := fun n => n < 8 || n == 10 || n == 11 }
  | .hend .. => some (bare 0x97)
  | .migrate .. => some { op := 0x98, d := .pred, a := .src, ty := only 7 }
  | .barArrive _ rd _ => some { bare 0xA0 with d := if rd then .dst else .none, b := .src, c := .num 16, seq := true }
  | .barWait .. => some { bare 0xA0 with a := .src, c := .num 16, seq := true }
  | .barSync .. => some { bare 0xA0 with b := .src, c := .num 16, seq := true }
  | .qpush _ nb => some { op := 0xA1, d := if nb then .pred else .none, a := .src, ty := only 7 }
  | .qpop _ nb => some { op := 0xA2, d := .dst, c := if nb then .pred else .none, ty := only 7, ll := true }
  | .tarr _ rd _ => some { bare 0xA3 with d := if rd then .dstW else .none, c := .num 2 }
  | .twait .. => some { bare 0xA4 with a := .src, c := .num 2 }
  | .sysr _ ax => some { op := 0xB0, d := .dst, a := if ax then .src else .none, c := .num 128, ty := only 7, i96 := true, seq := true }
  | .sysw _ ax => some { op := 0xB1, a := if ax then .src else .none, b := .src, c := .num 128, ty := only 7, i96 := true, seq := true }
  | .icinv _ all => some { op := 0xB2, a := if all then .none else .src, ty := only 7, seq := true }
  | .mcdef .. => some { op := 0xB3, a := .srcBare, b := .srcBare, c := .num 64, ty := only 7, seq := true }
  | .tread .. => some { op := 0xB4, d := .dstW, ty := only 7, seq := true }
  | .spush _ nb => some { op := 0xC0, d := if nb then .pred else .none, a := .srcW, ty := only 7, fibre := false, seq := true }
  | .spop _ nb => some { op := 0xC1, d := .dstW, c := if nb then .pred else .none, ty := only 7, ll := true, fibre := false, seq := true }
  | .lbmapSwap .. => some { bare 0xC2 with d := .num 16, a := .num 16, fibre := false, seq := true }
  | .lbmapSet .. => some { bare 0xC2 with d := .num 16, b := .srcW, fibre := false, seq := true }
  | .cpIn .. => some (eng 0xC3 .srcW .srcW .srcW)
  | .cpOut .. => some (eng 0xC4 .srcW .srcW .srcW)
  | .cpPeer .. => some (eng 0xC5 .srcW .srcW .srcW)
  | .cpFill .. => some (eng 0xC6 .srcW .srcW .srcW)
  | .gNode .. => some (eng 0xC7 .none .none .none)
  | .gEdge .. => some { bare 0xC8 with d := .num 64, a := .num 64, fibre := false, seq := true }
  | .gRun .. => some { bare 0xC9 with fibre := false, seq := true }
  | .gReset .. => some { bare 0xCA with fibre := false, seq := true }
  | .pub .. => some { bare 0xCB with a := .srcW, c := .num 10, fibre := false, seq := true }
  | .mm .. => some (eng 0xCC .srcW .srcW .srcW)
  | .mmRd .. => some (eng 0xCD .none .none .none)
  | .mmClr .. => some { bare 0xCE with c := .num 4, fibre := false, seq := true }
  | .mmLd .. => some (eng 0xCF .none .none .none)
  | _ => none

/-- The instruction's A64-family form, for the constructors that carry one whole. -/
def Instr.aform : Instr → Option AForm
  | .add f _ _ | .sub f _ _ | .mul f _ _ | .mad f _ _ | .mulhi f _ | .div f _ | .rem f _ | .abs f _ | .min f _ | .max f _
  | .and f | .or f | .xor f | .andn f | .orn f | .shl f _ | .shr f | .sar f | .rol f | .ror f | .clz f | .ctz f
  | .popc f | .brev f | .bfx f | .bfi f | .ext f | .mov f | .movi f | .movq f | .sel f _ | .lea f _ | .cmp f _ _
  | .plog f _ | .pmov f _ | .movx f | .movxw f | .fadd f _ | .fsub f _ | .fmul f _ | .ffma f _ | .fmin f | .fmax f
  | .fminx f | .fmaxx f | .fcmp f _ _ | .fclass f | .fcvt f _ _ | .fcvti f _ _ | .icvtf f _ _ _ | .frnd f _ _
  | .fsqrt f _ | .fdiv f _ | .frcp f | .frsq f | .fexp2 f | .flog2 f | .fsin f | .fcos f | .ftanh f | .dot f _ _
  | .qz f | .dq f _ | .pack f _ | .unpk f _ | .brx f | .ret f | .trap f | .bwait f _ | .bamo f _ | .bcas f
  | .shfl f _ | .vote f _ | .matchBits f | .matchf f | .scan f _ _ _ _ | .red f _ _ _ | .id f _ | .launch f
  | .barArrive f _ _ | .barWait f _ | .barSync f _ | .qpush f _ | .qpop f _ | .hwork f | .hret f _ | .sysr f _
  | .sysw f _ | .tread f | .icinv f _ | .mcdef f | .migrate f | .tarr f _ _ | .twait f _ | .spush f _ | .spop f _ => some f
  | _ => none

/-- UNS stands only with a packed type (R97). -/
def unsOk (f : AForm) (uns : Bool) : Bool := !uns || 12 ≤ f.ty.code

def Src.noMods (s : Src) : Bool := !s.neg && !s.abs

/-- The pair of R135: the register above must exist. -/
def Src.pairOk (s : Src) : Bool := if s.uni then s.num.toNat < 31 else s.num.toNat < 127

/-- The SAT and RM rules of `scan` and `red` (R196). -/
def redOk (f : AForm) (op : RedOp) (sat : Bool) (rm : RM) : Bool :=
  let fl := TySet.scf f.ty.code
  (!fl || decide (op = .add) || decide (op = .min) || decide (op = .max))
    && (!sat || (decide (op = .add) && !fl))
    && (decide (rm = .rne) || (decide (op = .add) && fl))

/-- The rules of single opcodes that their modifiers and operands obey together. -/
def Instr.modsOk : Instr → Bool
  | .add f u _ | .sub f u _ | .mul f u _ | .mad f u _ | .mulhi f u | .div f u | .rem f u | .min f u | .max f u => unsOk f u
  | .dot f k rm => f.a.noMods && f.b.noMods && (decide (k = .bf) || decide (rm = .rne))
      && (decide (k ≠ .h6) || (f.a.pairOk && f.b.pairOk))
  | .qz f => f.b.noMods
  | .dq f _ => f.a.noMods && f.b.noMods
  | .scan f op _ sat rm => redOk f op sat rm && f.c.num == (match rm with
      | .rne => 0 | .rtz => 1 | .rdn => 2 | .rup => 3 | .rna => 4)
  | .red f op sat rm => redOk f op sat rm && f.c.num == (match rm with
      | .rne => 0 | .rtz => 1 | .rdn => 2 | .rup => 3 | .rna => 4)
  | .vote f _ | .shfl f _ | .matchBits f | .matchf f => f.a.pat = .none
  | .hret f op => f.d.num != 0 && (f.ty.code < 8 || decide (op = .add) || decide (op = .min) || decide (op = .max))
  | .barArrive f _ n | .barWait f n | .barSync f n => f.c.num.toNat == n.toNat
  | .tarr f _ t | .twait f t => f.c.num.toNat == t.toNat
  | _ => true

/-- The offset of an M64 encoding fits 13 signed bits (R54); an M96 offset is any 32 bits (R55). -/
def offOk (wide : Bool) (off : BitVec 32) : Bool := wide || ((off.setWidth 13).signExtend 32 == off)

/-- The rules of the M formats (R54, R148): `ords` the allowed orders, `nbOk` whether bit 47 may be set, `bReg`
whether B is read as a register, `bPred` whether it names a predicate, `dData` whether D is store data. -/
def MForm.ok (m : MForm) (ords : MOrd → Bool) (nbOk bReg bPred dData ll : Bool) : Bool :=
  ords m.ord && m.scope.toNat < 10 && (nbOk || !m.nb) && (!m.ms || ll)
    && (!m.lb || (bReg && !bPred)) && (!m.ld || dData) && (!bPred || m.b.toNat < 16) && offOk m.wide m.off

/-- Orders of loads, and of stores (R148). -/
def MOrd.loadOk : MOrd → Bool
  | .plain | .acq => true
  | _ => false
def MOrd.storeOk : MOrd → Bool
  | .plain | .rel => true
  | _ => false
def MSize.storeOk : MSize → Bool
  | .z8 | .z16 | .z32 | .z64 => true
  | _ => false

/-- The rules of `ldl` and `stl` (R56, R158, R160). -/
def LForm.ok (l : LForm) (st : Bool) : Bool :=
  (l.buf.isNone || l.a == 0) && (!l.la || l.buf.isNone) && (st || !l.nb) && (!l.ms || !st)
    && (!l.nb || l.b.toNat < 16) && (!l.lb || (!l.nb && l.b != 0)) && (!l.ld || st) && offOk l.wide l.off

/-- Branch offsets keep bits [18:16] of the word zero (R57). -/
def brOk (off : BitVec 32) : Bool := off.toNat % 8 == 0

/-- The command fields of E128 forms that must be zero together (R316 to R320). -/
def Instr.cmdOk : Instr → Bool
  | .cpIn e _ _ fmt _ k => (decide (fmt = .bytes) == (k == 0))
      && (decide (fmt = .hs4) || decide (fmt = .hs6) || e.c == 0)
  | .cpOut e _ pair _ sc => sc.toNat < 10 && (pair || e.c == 0)
  | .cpPeer _ _ _ _ _ sc _ => sc.toNat < 10
  | .cpFill e db keep glb doff sc =>
      if glb then !keep && db == 0 && doff == 0 && sc.toNat < 10 else sc == 0 && e.a == 0
  | .mm e _ _ _ _ _ _ tri _ => tri || (e.b == 0 && e.c == 0)
  | .pub _ _ _ sc => sc.toNat < 10
  | _ => true

/-- An instruction term that has an encoding. Events of the device have none. -/
def Instr.wf (i : Instr) : Bool :=
  match i with
  | .clause .. | .nop _ | .lbmapSwap .. | .lbmapSet .. | .gNode .. | .gEdge .. | .gRun .. | .gReset _ | .mmClr ..
  | .mmLd .. | .mmRd .. | .unbind .. | .bsync _ | .yield _ | .join _ | .brk _ | .mcall .. | .tret _ | .fend _
  | .hend _ | .fenceOwn _ => true
  | .bra _ off | .call _ _ off | .fork _ _ _ off => brOk off
  | .ld m _ => m.ok MOrd.loadOk true (m.b != 0) m.nb false true
  | .st m sz => m.ok MOrd.storeOk false (m.b != 0) false true false && sz.storeOk
  | .pref m _ => m.ok (fun o => decide (o = .plain)) false (m.b != 0) false false false && m.scope == 0 && m.d == 0
  | .amo m _ => m.ok (fun _ => true) true (m.b != 0) false false true
  | .cas m sz => m.ok (fun _ => true) false (m.b != 0) false false true && (decide (sz = .z32) || decide (sz = .z64))
      && m.b.toNat < 127
  | .cstore m sz => m.ok MOrd.storeOk false (m.b != 0) false false true && sz.storeOk
  | .bind m sz => m.ok MOrd.loadOk false false true false true
      && (decide (sz = .z32) || decide (sz = .z64) || decide (sz = .s32))
  | .ldl l _ => l.ok false
  | .stl l sz => l.ok true && sz.storeOk
  | .fence _ _ sc => sc.toNat < 10
  | .fenceFar _ sc => 2 ≤ sc.toNat && sc.toNat < 10
  | .recruit r => r.k != 0 && r.shr.toNat ≤ 112 && r.body.toNat % 8 == 0
  | .cpIn .. | .cpOut .. | .cpPeer .. | .cpFill .. | .mm .. | .pub .. => i.cmdOk
  | _ => match i.shape, i.aform with
    | some sh, some f => f.ok sh && i.modsOk
    | _, _ => false

end Sys2Proof
end

