-- ==== Sys2Proof/Decode.lean ====
section
/-! DEFINITION. Decoding and encoding: the bit layouts of R42 to R58, the opcode map of R60 and the FN codes of each
opcode. `decode` is total: a word that is the encoding of no well-formed instruction is rejected. -/
namespace Sys2Proof

/-! ### Bit layouts -/

/-- The value of consecutive fields, the first in the lowest bits: each entry is (width, value). -/
def packBits : List (Nat × Nat) → Nat
  | [] => 0
  | (w, v) :: r => v % 2 ^ w + 2 ^ w * packBits r

/-- The fields of the given widths, the first from the lowest bits. -/
def unpackBits : List Nat → Nat → List Nat
  | [], _ => []
  | w :: r, x => x % 2 ^ w :: unpackBits r (x / 2 ^ w)

def bit (b : Bool) : Nat := if b then 1 else 0
def isOne (n : Nat) : Bool := n == 1

/-! ### Codes of the modifiers -/

def RM.code : RM → Nat
  | .rne => 0 | .rtz => 1 | .rdn => 2 | .rup => 3 | .rna => 4
def RM.ofCode : Nat → RM
  | 0 => .rne | 1 => .rtz | 2 => .rdn | 3 => .rup | _ => .rna
def FFmt.code : FFmt → Nat
  | .f16 => 0 | .bf16 => 1 | .f32 => 2 | .f64 => 3
def FFmt.ofCode : Nat → FFmt
  | 0 => .f16 | 1 => .bf16 | 2 => .f32 | _ => .f64
def Cond.code : Cond → Nat
  | .eq => 0 | .ne => 1 | .lt => 2 | .le => 3 | .gt => 4 | .ge => 5 | .tst => 6 | .ntst => 7
def Cond.ofCode : Nat → Cond
  | 0 => .eq | 1 => .ne | 2 => .lt | 3 => .le | 4 => .gt | 5 => .ge | 6 => .tst | _ => .ntst
def FCond.code : FCond → Nat
  | .eq => 0 | .ne => 1 | .lt => 2 | .le => 3 | .gt => 4 | .ge => 5 | .un => 6 | .ord => 7
def FCond.ofCode : Nat → FCond
  | 0 => .eq | 1 => .ne | 2 => .lt | 3 => .le | 4 => .gt | 5 => .ge | 6 => .un | _ => .ord
def DotKind.code : DotKind → Nat
  | .h4 => 0 | .h6 => 1 | .i8 => 2 | .bf => 3
def DotKind.ofCode : Nat → DotKind
  | 0 => .h4 | 1 => .h6 | 2 => .i8 | _ => .bf
def MSize.code : MSize → Nat
  | .z8 => 0 | .z16 => 1 | .z32 => 2 | .z64 => 3 | .s8 => 4 | .s16 => 5 | .s32 => 6
def MSize.ofCode : Nat → MSize
  | 0 => .z8 | 1 => .z16 | 2 => .z32 | 3 => .z64 | 4 => .s8 | 5 => .s16 | _ => .s32
def MOrd.code : MOrd → Nat
  | .plain => 0 | .acq => 1 | .rel => 2 | .ar => 3
def MOrd.ofCode : Nat → MOrd
  | 0 => .plain | 1 => .acq | 2 => .rel | _ => .ar
def AmoOp.code : AmoOp → Nat
  | .add => 0 | .smin => 1 | .smax => 2 | .nmin => 3 | .nmax => 4 | .and => 5 | .or => 6 | .xor => 7 | .swap => 8 | .fadd => 9
def AmoOp.ofCode : Nat → AmoOp
  | 0 => .add | 1 => .smin | 2 => .smax | 3 => .nmin | 4 => .nmax | 5 => .and | 6 => .or | 7 => .xor | 8 => .swap | _ => .fadd
def PrefKind.code : PrefKind → Nat
  | .rd => 0 | .wr => 1 | .l2 => 2
def PrefKind.ofCode : Nat → PrefKind
  | 0 => .rd | 1 => .wr | _ => .l2
def BamoOp.code : BamoOp → Nat
  | .add => 0 | .min => 1 | .max => 2 | .and => 3 | .or => 4 | .xor => 5 | .swap => 6
def BamoOp.ofCode : Nat → BamoOp
  | 0 => .add | 1 => .min | 2 => .max | 3 => .and | 4 => .or | 5 => .xor | _ => .swap
def BwaitCond.code : BwaitCond → Nat
  | .eq => 0 | .ne => 1 | .ge => 2 | .lt => 3 | .any => 4
def BwaitCond.ofCode : Nat → BwaitCond
  | 0 => .eq | 1 => .ne | 2 => .ge | 3 => .lt | _ => .any
def RedOp.code : RedOp → Nat
  | .add => 0 | .min => 1 | .max => 2 | .and => 3 | .or => 4 | .xor => 5
def RedOp.ofCode : Nat → RedOp
  | 0 => .add | 1 => .min | 2 => .max | 3 => .and | 4 => .or | _ => .xor
def ShflMode.code : ShflMode → Nat
  | .idx => 0 | .up => 1 | .down => 2 | .xor => 3
def ShflMode.ofCode : Nat → ShflMode
  | 0 => .idx | 1 => .up | 2 => .down | _ => .xor
def VoteMode.code : VoteMode → Nat
  | .any => 0 | .all => 1 | .uni => 2 | .ballot => 3
def VoteMode.ofCode : Nat → VoteMode
  | 0 => .any | 1 => .all | 2 => .uni | _ => .ballot
def CpFmt.code : CpFmt → Nat
  | .bytes => 0 | .hs4 => 1 | .hs6 => 2 | .i8 => 3 | .b9 => 4
def CpFmt.ofCode : Nat → CpFmt
  | 0 => .bytes | 1 => .hs4 | 2 => .hs6 | 3 => .i8 | _ => .b9
def RdSrc.code : RdSrc → Nat
  | .f => 0 | .i => 1 | .q => 2
def RdSrc.ofCode : Nat → RdSrc
  | 0 => .f | 1 => .i | _ => .q
def RdOut.code : RdOut → Nat
  | .f32 => 0 | .bf16 => 1 | .s32 => 2
def RdOut.ofCode : Nat → RdOut
  | 0 => .f32 | 1 => .bf16 | _ => .s32
def FenceKind.code : FenceKind → Nat
  | .acq => 1 | .rel => 2 | .full => 3
def FenceKind.ofCode : Nat → FenceKind
  | 1 => .acq | 2 => .rel | _ => .full
def IdSel.code : IdSel → Nat
  | .fslot => 0 | .wslot => 1 | .weave => 2 | .block => 3 | .core => 4 | .die => 5 | .cluster => 6 | .nfib => 7 | .active => 8
  | .coord l => 16 + l.toNat | .ext l => 24 + l.toNat
def IdSel.ofCode (n : Nat) : IdSel :=
  if 24 ≤ n then .ext (BitVec.ofNat 3 n) else if 16 ≤ n then .coord (BitVec.ofNat 3 n) else
    match n with
    | 0 => .fslot | 1 => .wslot | 2 => .weave | 3 => .block | 4 => .core | 5 => .die | 6 => .cluster | 7 => .nfib | _ => .active
/-- BV and BAR of R309. -/
def barCode : Option (BitVec 4) → Nat
  | none => 0
  | some n => 16 + n.toNat
def barOf (n : Nat) : Option (BitVec 4) := if 16 ≤ n then some (BitVec.ofNat 4 n) else none

/-- XP and its amount (R48, R189). -/
def Pattern.code : Pattern → Nat × Nat
  | .none => (0, 0) | .rot n => (1, n.toNat) | .bcast n => (2, n.toNat) | .bfly n => (3, n.toNat) | .mirror => (4, 0)
def Pattern.ofCode (xp xn : Nat) : Pattern :=
  match xp with
  | 1 => .rot (BitVec.ofNat 5 xn) | 2 => .bcast (BitVec.ofNat 5 xn) | 3 => .bfly (BitVec.ofNat 5 xn) | 4 => .mirror | _ => .none

/-! ### The layouts as views of an instruction -/

/-- The M64 and M96 fields (R54, R55). -/
structure MRaw where
  g : Guard
  ms : Bool
  d : BitVec 7
  a : BitVec 7
  b : BitVec 7
  sz : BitVec 4
  sc : BitVec 4
  ord : BitVec 2
  nb : Bool
  la : Bool
  lb : Bool
  ld : Bool
  wide : Bool
  off : BitVec 32
  deriving DecidableEq, Repr

/-- An instruction by its layout: the header, the A64 family with OP and FN (without IF), the M formats, B64. -/
inductive Layout where
  | h (wait : BitVec 12) (seta setb : BitVec 4) (zero : BitVec 42)
  | nop (wide : Bool)
  | a (op fn : Nat) (iff : Bool) (f : AForm)
  | m (op : Nat) (r : MRaw)
  | b (op : Nat) (g : Guard) (off : BitVec 32) (func : BitVec 16)
  deriving DecidableEq, Repr

/-- OPs whose 96-bit encodings use bit 63 as IF (R52, R60). -/
def hasIF (op : Nat) : Bool :=
  (1 ≤ op && op ≤ 0x14 && op != 8) || (0x19 ≤ op && op ≤ 0x1C) || op == 0x20 || op == 0x21 || (0x30 ≤ op && op ≤ 0x38)

/-- OPs whose 96-bit encodings are I96 only (R60). -/
def onlyI96 (op : Nat) : Bool := op == 0x1E || op == 0x5B || op == 0x5C || op == 0x86 || op == 0xB0 || op == 0xB1

/-- A form of the A64 family without modifiers and last-use bits. -/
def plainForm (g : Guard) (ty : Ty) (d a b c : BitVec 7) (ext : Ext) : AForm :=
  let s (n : BitVec 7) : Src := ⟨n, false, false, .none, false, false⟩
  { g, ms := false, ty, d := ⟨d, false⟩, a := s a, b := s b, c := s c, ext }

/-- The form of an E128 command: its command fields are bits [127:64] (R58). -/
def engForm (g : Guard) (a b c : BitVec 7) (cmd : Nat) : AForm :=
  plainForm g .s8 0 a b c (.q128 (BitVec.ofNat 64 cmd))

/-- The M fields of a memory form. -/
def MForm.raw (m : MForm) (sz : Nat) : MRaw :=
  { g := m.g, ms := m.ms, d := m.d, a := m.a, b := m.b, sz := BitVec.ofNat 4 sz, sc := m.scope, ord := BitVec.ofNat 2 m.ord.code,
    nb := m.nb, la := m.la, lb := m.lb, ld := m.ld, wide := m.wide, off := m.off }
def LForm.raw (l : LForm) (sz : Nat) : MRaw :=
  { g := l.g, ms := l.ms, d := l.d, a := l.a, b := l.b, sz := BitVec.ofNat 4 sz, sc := l.buf.getD 0,
    ord := if l.buf.isSome then 2 else 0, nb := l.nb, la := l.la, lb := l.lb, ld := l.ld, wide := l.wide, off := l.off }
def fenceRaw (g : Guard) (ord : Nat) (scope : BitVec 4) : MRaw :=
  { g, ms := false, d := 0, a := 0, b := 0, sz := 0, sc := scope, ord := BitVec.ofNat 2 ord, nb := false, la := false,
    lb := false, ld := false, wide := false, off := 0 }
def MRaw.mform (r : MRaw) : MForm :=
  { g := r.g, ms := r.ms, d := r.d, a := r.a, b := r.b, scope := r.sc, ord := MOrd.ofCode r.ord.toNat, nb := r.nb, la := r.la,
    lb := r.lb, ld := r.ld, wide := r.wide, off := r.off }
def MRaw.lform (r : MRaw) : LForm :=
  { g := r.g, ms := r.ms, d := r.d, a := r.a, b := r.b, buf := if r.ord = 2 then some r.sc else none, nb := r.nb, la := r.la,
    lb := r.lb, ld := r.ld, wide := r.wide, off := r.off }

/-- The layout and codes of each instruction; events have none. `abs` has no UNS bit, though R103 speaks of a packed element under it: R97 makes the bit
zero (log 50). -/
def Instr.layout (i : Instr) : Option Layout :=
  let A (op fn : Nat) (f : AForm) : Option Layout :=
    some (.a op fn (match f.ext with | .i96 _ => hasIF op | _ => false) f)
  let u (b : Bool) : Nat := 2 * bit b
  match i with
  | .clause w sa sb z => some (.h w sa sb z)
  | .nop w => some (.nop w)
  | .add f uns sat => A 0x01 (u uns + bit sat) f
  | .sub f uns sat => A 0x02 (u uns + bit sat) f
  | .mul f uns sat => A 0x03 (u uns + bit sat) f
  | .mulhi f uns => A 0x04 (u uns) f
  | .mad f uns sat => A 0x05 (u uns + bit sat) f
  | .div f uns => A 0x06 (u uns) f
  | .rem f uns => A 0x07 (u uns) f
  | .abs f sat => A 0x08 (bit sat) f
  | .min f uns => A 0x09 (u uns) f
  | .max f uns => A 0x0A (u uns) f
  | .and f => A 0x0B 0 f
  | .or f => A 0x0C 0 f
  | .xor f => A 0x0D 0 f
  | .andn f => A 0x0E 0 f
  | .orn f => A 0x0F 0 f
  | .shl f sat => A 0x10 (bit sat) f
  | .shr f => A 0x11 0 f
  | .sar f => A 0x12 0 f
  | .rol f => A 0x13 0 f
  | .ror f => A 0x14 0 f
  | .clz f => A 0x15 0 f
  | .ctz f => A 0x16 0 f
  | .popc f => A 0x17 0 f
  | .brev f => A 0x18 0 f
  | .bfx f => A 0x19 0 f
  | .bfi f => A 0x1A 0 f
  | .ext f => A 0x1B 0 f
  | .sel f np => A 0x1C (bit np) f
  | .mov f => A 0x1D 0 f
  | .movi f => A 0x1E 0 f
  | .movq f => A 0x1F 0 f
  | .lea f sh => A 0x20 sh.toNat f
  | .cmp f orr c => A 0x21 (8 * bit orr + c.code) f
  | .plog f lut => A 0x22 lut.toNat f
  | .pmov f dir => A 0x23 (bit dir) f
  | .movx f => A 0x24 0 f
  | .movxw f => A 0x25 0 f
  | .fadd f rm => A 0x30 rm.code f
  | .fsub f rm => A 0x31 rm.code f
  | .fmul f rm => A 0x32 rm.code f
  | .ffma f rm => A 0x33 rm.code f
  | .fmin f => A 0x34 0 f
  | .fmax f => A 0x35 0 f
  | .fminx f => A 0x36 0 f
  | .fmaxx f => A 0x37 0 f
  | .fcmp f orr c => A 0x38 (8 * bit orr + c.code) f
  | .fclass f => A 0x39 0 f
  | .fcvt f sf rm => A 0x3A (8 * sf.code + rm.code) f
  | .fcvti f sf rm => A 0x3B (8 * sf.code + rm.code) f
  | .icvtf f nat w64 rm => A 0x3C (16 * bit nat + 8 * bit w64 + rm.code) f
  | .frnd f x rm => A 0x3D (8 * bit x + rm.code) f
  | .fsqrt f rm => A 0x3E rm.code f
  | .fdiv f rm => A 0x3F rm.code f
  | .frcp f => A 0x40 0 f
  | .frsq f => A 0x41 0 f
  | .fexp2 f => A 0x42 0 f
  | .flog2 f => A 0x43 0 f
  | .fsin f => A 0x44 0 f
  | .fcos f => A 0x45 0 f
  | .ftanh f => A 0x46 0 f
  | .dot f k rm => A 0x47 (8 * k.code + rm.code) f
  | .qz f => A 0x48 0 f
  | .dq f rm => A 0x49 rm.code f
  | .pack f rm => A 0x4A rm.code f
  | .unpk f hi => A 0x4B (bit hi) f
  | .ld m sz => some (.m 0x50 (m.raw sz.code))
  | .st m sz => some (.m 0x51 (m.raw sz.code))
  | .ldl l sz => some (.m 0x52 (l.raw sz.code))
  | .stl l sz => some (.m 0x53 (l.raw sz.code))
  | .pref m k => some (.m 0x54 (m.raw k.code))
  | .amo m op => some (.m 0x55 (m.raw op.code))
  | .cas m sz => some (.m 0x56 (m.raw sz.code))
  | .cstore m sz => some (.m 0x57 (m.raw sz.code))
  | .bind m sz => some (.m 0x58 (m.raw sz.code))
  | .unbind g d => A 0x59 0 (plainForm g .s8 d 0 0 0 .a64)
  | .bsync g => A 0x5A 0 (plainForm g .s8 0 0 0 0 .a64)
  | .bwait f c => A 0x5B c.code f
  | .bamo f op => A 0x5C op.code f
  | .bcas f => A 0x5D 0 f
  | .fence g k sc => some (.m 0x5E (fenceRaw g k.code sc))
  | .fenceOwn g => some (.m 0x5F (fenceRaw g 0 0))
  | .fenceFar g sc => some (.m 0x60 (fenceRaw g 0 sc))
  | .shfl f m => A 0x70 m.code f
  | .vote f m => A 0x71 m.code f
  | .matchBits f => A 0x72 0 f
  | .matchf f => A 0x73 0 f
  | .scan f op exc sat _ => A 0x74 (4 * op.code + 2 * bit exc + bit sat) f
  | .red f op sat _ => A 0x75 (4 * op.code + bit sat) f
  | .bra g off => some (.b 0x80 g off 0)
  | .brx f => A 0x81 0 f
  | .call g l off => some (.b 0x82 g off (BitVec.ofNat 16 l.toNat))
  | .ret f => A 0x83 0 f
  | .yield g => A 0x84 0 (plainForm g .s8 0 0 0 0 .a64)
  | .join g => A 0x85 0 (plainForm g .s8 0 0 0 0 .a64)
  | .trap f => A 0x86 0 f
  | .brk g => A 0x87 0 (plainForm g .s8 0 0 0 0 .a64)
  | .mcall g n => A 0x88 0 (plainForm g .s8 0 0 0 (n.setWidth 7) .a64)
  | .tret g => A 0x89 0 (plainForm g .s8 0 0 0 0 .a64)
  | .fork g s d off => some (.b 0x90 g off (BitVec.ofNat 16 (128 * s.toNat + d.toNat)))
  | .fend g => A 0x91 0 (plainForm g .s8 0 0 0 0 .a64)
  | .id f sl => A 0x92 sl.code f
  | .launch f => A 0x93 0 f
  | .recruit r => A 0x94 0 { plainForm r.g .n32 r.d r.a 0 0 (.q128 (BitVec.ofNat 64
      (packBits [(5, r.k.toNat), (7, r.shr.toNat), (20, 0), (32, r.body.toNat)]))) with
      a := ⟨r.a, false, r.la, .none, false, false⟩ }
  | .hwork f => A 0x95 0 f
  | .hret f op => A 0x96 (4 * op.code) f
  | .hend g => A 0x97 0 (plainForm g .s8 0 0 0 0 .a64)
  | .migrate f => A 0x98 0 f
  | .barArrive f rd _ => A 0xA0 (4 * bit rd) f
  | .barWait f _ => A 0xA0 1 f
  | .barSync f _ => A 0xA0 2 f
  | .qpush f nb => A 0xA1 (bit nb) f
  | .qpop f nb => A 0xA2 (bit nb) f
  | .tarr f rd _ => A 0xA3 (4 * bit rd) f
  | .twait f _ => A 0xA4 0 f
  | .sysr f ax => A 0xB0 (bit ax) f
  | .sysw f ax => A 0xB1 (bit ax) f
  | .icinv f all => A 0xB2 (bit all) f
  | .mcdef f => A 0xB3 0 f
  | .tread f => A 0xB4 0 f
  | .spush f nb => A 0xC0 (bit nb) f
  | .spop f nb => A 0xC1 (bit nb) f
  | .lbmapSwap g d a => A 0xC2 0 (plainForm g .s8 (d.setWidth 7) (a.setWidth 7) 0 0 .a64)
  | .lbmapSet g d b => A 0xC2 1 (plainForm g .s8 (d.setWidth 7) 0 b 0 .a64)
  | .cpIn e db keep fmt doff k => A 0xC3 (barCode e.bar) (engForm e.g e.a e.b e.c
      (packBits [(32, 0), (8, k.toNat), (16, doff.toNat), (3, fmt.code), (1, bit keep), (4, db.toNat)]))
  | .cpOut e sb pair soff sc => A 0xC4 (barCode e.bar) (engForm e.g e.a e.b e.c
      (packBits [(36, 0), (4, sc.toNat), (16, soff.toNat), (3, 0), (1, bit pair), (4, sb.toNat)]))
  | .cpPeer e sb tb soff toff sc keep => A 0xC5 (barCode e.bar) (engForm e.g e.a e.b e.c
      (packBits [(19, 0), (1, bit keep), (4, sc.toNat), (16, toff.toNat), (16, soff.toNat), (4, tb.toNat), (4, sb.toNat)]))
  | .cpFill e db keep glb doff sc => A 0xC6 (barCode e.bar) (engForm e.g e.a e.b e.c
      (packBits [(36, 0), (4, sc.toNat), (16, doff.toNat), (2, 0), (1, bit glb), (1, bit keep), (4, db.toNat)]))
  | .gNode g n cnt bar => A 0xC7 0 (engForm g 0 0 0
      (packBits [(47, 0), (4, barCode bar % 16), (1, barCode bar / 16), (6, cnt.toNat), (6, n.toNat)]))
  | .gEdge g x y => A 0xC8 0 (plainForm g .s8 (x.setWidth 7) (y.setWidth 7) 0 0 .a64)
  | .gRun g bar => A 0xC9 (barCode bar) (plainForm g .s8 0 0 0 0 .a64)
  | .gReset g => A 0xCA 0 (plainForm g .s8 0 0 0 0 .a64)
  | .pub g bar a sc => A 0xCB (barCode bar) (plainForm g .s8 0 a 0 (sc.setWidth 7) .a64)
  | .mm e ab bb ao bo t ow tri ia => A 0xCC (barCode e.bar) (engForm e.g e.a e.b e.c
      (packBits [(27, 0), (1, bit ia), (1, bit tri), (1, bit ow), (2, t.toNat), (12, bo.toNat), (12, ao.toNat), (4, bb.toNat), (4, ab.toNat)]))
  | .mmRd g bar db keep t sk o doff => A 0xCD (barCode bar) (engForm g 0 0 0
      (packBits [(41, 0), (12, doff.toNat), (2, o.code), (2, sk.code), (2, t.toNat), (1, bit keep), (4, db.toNat)]))
  | .mmClr g bar t => A 0xCE (barCode bar) (plainForm g .s8 0 0 0 (t.setWidth 7) .a64)
  | .mmLd g bar sb t lk soff => A 0xCF (barCode bar) (engForm g 0 0 0
      (packBits [(45, 0), (12, soff.toNat), (1, bit lk), (2, t.toNat), (4, sb.toNat)]))
  | _ => none

/-! ### From a layout to bits -/

/-- The A64 fields of a form (R48). -/
def aWord (len op fn : Nat) (iff : Bool) (f : AForm) : Nat :=
  let xp := f.a.pat.code
  let xn := if xp.1 = 0 then bit f.a.uni + 2 * bit f.b.uni + 4 * bit f.c.uni + 8 * bit f.d.uni else xp.2
  packBits [(2, len), (8, op), (4, f.g.pred.toNat), (1, bit f.g.neg), (1, bit f.ms), (7, f.d.num.toNat), (7, f.a.num.toNat),
    (7, f.b.num.toNat), (7, f.c.num.toNat), (4, f.ty.code), (3, bit f.a.last + 2 * bit f.b.last + 4 * bit f.c.last), (3, xp.1),
    (5, xn), (5, fn + 16 * bit iff)]

/-- Bits [95:64] of an A96 form (R51). -/
def a96Word (sem : BitVec 8) (f : AForm) : Nat :=
  packBits [(3, f.b.pat.code.1), (5, f.b.pat.code.2), (3, f.c.pat.code.1), (5, f.c.pat.code.2), (8, sem.toNat), (1, bit f.a.neg),
    (1, bit f.b.neg), (1, bit f.c.neg), (1, bit f.a.abs), (1, bit f.b.abs), (1, bit f.c.abs), (2, 0)]

/-- The M64 fields (R54). -/
def mWord (len op off13 : Nat) (r : MRaw) : Nat :=
  packBits [(2, len), (8, op), (4, r.g.pred.toNat), (1, bit r.g.neg), (1, bit r.ms), (7, r.d.toNat), (7, r.a.toNat), (7, r.b.toNat),
    (4, r.sz.toNat), (4, r.sc.toNat), (2, r.ord.toNat), (1, bit r.nb), (3, bit r.la + 2 * bit r.lb + 4 * bit r.ld), (13, off13)]

/-- Length in bytes, and bits. -/
def Layout.bits : Layout → Nat × Nat
  | .h w sa sb z => (8, packBits [(2, 3), (12, w.toNat), (4, sa.toNat), (4, sb.toNat), (42, z.toNat)])
  | .nop false => (8, 0)
  | .nop true => (12, 1)
  | .a op fn iff f =>
    match f.ext with
    | .a64 => (8, aWord 0 op fn iff f)
    | .a96 sem => (12, aWord 1 op fn iff f + 2 ^ 64 * a96Word sem f)
    | .i96 imm => (12, aWord 1 op fn iff f + 2 ^ 64 * imm.toNat)
    | .q128 imm => (16, aWord 2 op fn iff f + 2 ^ 64 * imm.toNat)
  | .m op r => if r.wide then (12, mWord 1 op 0 r + 2 ^ 64 * r.off.toNat) else (8, mWord 0 op (r.off.toNat % 2 ^ 13) r)
  | .b op g off func => (8, packBits [(2, 0), (8, op), (4, g.pred.toNat), (1, bit g.neg), (1, 0), (32, off.toNat), (16, func.toNat)])

/-- The encoding of an instruction: its length in bytes and its bits; `none` for a term without an encoding. -/
def encode (i : Instr) : Option (Nat × Nat) :=
  if i.wf then i.layout.map Layout.bits else none

/-! ### From bits to a layout -/

/-- The length in bytes that bits [1:0] give (R42). -/
def lenOf (w : Nat) : Nat := match w % 4 with | 0 => 8 | 1 => 12 | 2 => 16 | _ => 8

/-- The opcode's format class: 0 the A64 family, 1 an M format, 2 B64. -/
def formatOf (op : Nat) : Nat :=
  if (0x50 ≤ op && op ≤ 0x58) || (0x5E ≤ op && op ≤ 0x60) then 1
  else if op == 0x80 || op == 0x82 || op == 0x90 then 2 else 0

def guardOf (pg pn : Nat) : Guard := ⟨BitVec.ofNat 4 pg, isOne pn⟩

/-- The A64 family's fields of a word. -/
def aLayout (w : Nat) : Option Layout :=
  match unpackBits [2, 8, 4, 1, 1, 7, 7, 7, 7, 4, 3, 3, 5, 5] w,
      unpackBits [3, 5, 3, 5, 8, 1, 1, 1, 1, 1, 1] (w / 2 ^ 64) with
  | [len, op, pg, pn, ms, d, a, b, c, t, lu, xp, xn, fn], [xpb, xnb, xpc, xnc, sem, na, nb, nc, aa, ab, ac] =>
    let i96 := len == 1 && (onlyI96 op || (hasIF op && decide (16 ≤ fn)))
    let a96 := len == 1 && !i96
    let uc (k : Nat) : Bool := xp == 0 && isOne (xn / 2 ^ k % 2)
    let src (n k : Nat) (p : Pattern) (ng ab : Nat) : Src :=
      ⟨BitVec.ofNat 7 n, uc k, isOne (lu / 2 ^ k % 2), p, a96 && isOne ng, a96 && isOne ab⟩
    let pat (x n : Nat) : Pattern := if a96 then Pattern.ofCode x n else .none
    let ext : Ext :=
      match len with
      | 0 => .a64
      | 1 => if i96 then .i96 (BitVec.ofNat 32 (w / 2 ^ 64)) else .a96 (BitVec.ofNat 8 sem)
      | _ => .q128 (BitVec.ofNat 64 (w / 2 ^ 64))
    some (.a op (if hasIF op then fn % 16 else fn) (hasIF op && decide (16 ≤ fn))
      { g := guardOf pg pn, ms := isOne ms, ty := Ty.ofCode t, d := ⟨BitVec.ofNat 7 d, uc 3⟩,
        a := src a 0 (Pattern.ofCode xp xn) na aa, b := src b 1 (pat xpb xnb) nb ab, c := src c 2 (pat xpc xnc) nc ac, ext })
  | _, _ => none

/-- The M fields of a word. -/
def mLayout (w : Nat) : Option Layout :=
  match unpackBits [2, 8, 4, 1, 1, 7, 7, 7, 4, 4, 2, 1, 3, 13] w with
  | [len, op, pg, pn, ms, d, a, b, sz, sc, ord, nb, lu, off13] =>
    let r : MRaw :=
      { g := guardOf pg pn, ms := isOne ms, d := BitVec.ofNat 7 d, a := BitVec.ofNat 7 a, b := BitVec.ofNat 7 b,
        sz := BitVec.ofNat 4 sz, sc := BitVec.ofNat 4 sc, ord := BitVec.ofNat 2 ord, nb := isOne nb, la := isOne (lu % 2),
        lb := isOne (lu / 2 % 2), ld := isOne (lu / 4), wide := len == 1,
        off := if len == 1 then BitVec.ofNat 32 (w / 2 ^ 64) else (BitVec.ofNat 13 off13).signExtend 32 }
    some (.m op r)
  | _ => none

/-- The B64 fields of a word. -/
def bLayout (w : Nat) : Option Layout :=
  match unpackBits [2, 8, 4, 1, 1, 32, 16] w with
  | [_, op, pg, pn, _, off, func] => some (.b op (guardOf pg pn) (BitVec.ofNat 32 off) (BitVec.ofNat 16 func))
  | _ => none

/-- The layout that a word's LEN and OP select (R42, R60). -/
def layoutOf (w : Nat) : Option Layout :=
  if w % 4 = 3 then
    match unpackBits [2, 12, 4, 4, 42] w with
    | [_, wt, sa, sb, z] => some (.h (BitVec.ofNat 12 wt) (BitVec.ofNat 4 sa) (BitVec.ofNat 4 sb) (BitVec.ofNat 42 z))
    | _ => none
  else
    let op := w / 4 % 256
    if op = 0 then some (.nop (w % 4 == 1))
    else match formatOf op with
      | 0 => aLayout w
      | 1 => mLayout w
      | _ => bLayout w

/-! ### From a layout to an instruction -/

/-- The E128 head of a command form. -/
def AForm.eform (f : AForm) (fn : Nat) : EForm := ⟨f.g, barOf fn, f.a.num, f.b.num, f.c.num⟩

/-- Bits [127:64] of a 128-bit form. -/
def AForm.cmdBits (f : AForm) : Nat := match f.ext with | .q128 x => x.toNat | _ => 0

/-- The instruction of an A64-family layout. -/
def ofA (op fn : Nat) (f : AForm) : Option Instr :=
  let b (k : Nat) : Bool := isOne (fn / 2 ^ k % 2)
  let lo3 := fn % 8
  match op with
  | 0x01 => some (.add f (b 1) (b 0))
  | 0x02 => some (.sub f (b 1) (b 0))
  | 0x03 => some (.mul f (b 1) (b 0))
  | 0x04 => some (.mulhi f (b 1))
  | 0x05 => some (.mad f (b 1) (b 0))
  | 0x06 => some (.div f (b 1))
  | 0x07 => some (.rem f (b 1))
  | 0x08 => some (.abs f (b 0))
  | 0x09 => some (.min f (b 1))
  | 0x0A => some (.max f (b 1))
  | 0x0B => some (.and f)
  | 0x0C => some (.or f)
  | 0x0D => some (.xor f)
  | 0x0E => some (.andn f)
  | 0x0F => some (.orn f)
  | 0x10 => some (.shl f (b 0))
  | 0x11 => some (.shr f)
  | 0x12 => some (.sar f)
  | 0x13 => some (.rol f)
  | 0x14 => some (.ror f)
  | 0x15 => some (.clz f)
  | 0x16 => some (.ctz f)
  | 0x17 => some (.popc f)
  | 0x18 => some (.brev f)
  | 0x19 => some (.bfx f)
  | 0x1A => some (.bfi f)
  | 0x1B => some (.ext f)
  | 0x1C => some (.sel f (b 0))
  | 0x1D => some (.mov f)
  | 0x1E => some (.movi f)
  | 0x1F => some (.movq f)
  | 0x20 => some (.lea f (BitVec.ofNat 4 fn))
  | 0x21 => some (.cmp f (b 3) (Cond.ofCode lo3))
  | 0x22 => some (.plog f (BitVec.ofNat 4 fn))
  | 0x23 => some (.pmov f (b 0))
  | 0x24 => some (.movx f)
  | 0x25 => some (.movxw f)
  | 0x30 => some (.fadd f (RM.ofCode lo3))
  | 0x31 => some (.fsub f (RM.ofCode lo3))
  | 0x32 => some (.fmul f (RM.ofCode lo3))
  | 0x33 => some (.ffma f (RM.ofCode lo3))
  | 0x34 => some (.fmin f)
  | 0x35 => some (.fmax f)
  | 0x36 => some (.fminx f)
  | 0x37 => some (.fmaxx f)
  | 0x38 => some (.fcmp f (b 3) (FCond.ofCode lo3))
  | 0x39 => some (.fclass f)
  | 0x3A => some (.fcvt f (FFmt.ofCode (fn / 8)) (RM.ofCode lo3))
  | 0x3B => some (.fcvti f (FFmt.ofCode (fn / 8)) (RM.ofCode lo3))
  | 0x3C => some (.icvtf f (b 4) (b 3) (RM.ofCode lo3))
  | 0x3D => some (.frnd f (b 3) (RM.ofCode lo3))
  | 0x3E => some (.fsqrt f (RM.ofCode lo3))
  | 0x3F => some (.fdiv f (RM.ofCode lo3))
  | 0x40 => some (.frcp f)
  | 0x41 => some (.frsq f)
  | 0x42 => some (.fexp2 f)
  | 0x43 => some (.flog2 f)
  | 0x44 => some (.fsin f)
  | 0x45 => some (.fcos f)
  | 0x46 => some (.ftanh f)
  | 0x47 => some (.dot f (DotKind.ofCode (fn / 8)) (RM.ofCode lo3))
  | 0x48 => some (.qz f)
  | 0x49 => some (.dq f (RM.ofCode lo3))
  | 0x4A => some (.pack f (RM.ofCode lo3))
  | 0x4B => some (.unpk f (b 0))
  | 0x59 => some (.unbind f.g f.d.num)
  | 0x5A => some (.bsync f.g)
  | 0x5B => some (.bwait f (BwaitCond.ofCode lo3))
  | 0x5C => some (.bamo f (BamoOp.ofCode lo3))
  | 0x5D => some (.bcas f)
  | 0x70 => some (.shfl f (ShflMode.ofCode (fn % 4)))
  | 0x71 => some (.vote f (VoteMode.ofCode (fn % 4)))
  | 0x72 => some (.matchBits f)
  | 0x73 => some (.matchf f)
  | 0x74 => some (.scan f (RedOp.ofCode (fn / 4)) (b 1) (b 0) (RM.ofCode f.c.num.toNat))
  | 0x75 => some (.red f (RedOp.ofCode (fn / 4)) (b 0) (RM.ofCode f.c.num.toNat))
  | 0x81 => some (.brx f)
  | 0x83 => some (.ret f)
  | 0x84 => some (.yield f.g)
  | 0x85 => some (.join f.g)
  | 0x86 => some (.trap f)
  | 0x87 => some (.brk f.g)
  | 0x88 => some (.mcall f.g (f.c.num.setWidth 6))
  | 0x89 => some (.tret f.g)
  | 0x91 => some (.fend f.g)
  | 0x92 => some (.id f (IdSel.ofCode fn))
  | 0x93 => some (.launch f)
  | 0x94 =>
    match unpackBits [5, 7, 20, 32] f.cmdBits with
    | [k, shr, _, body] => some (.recruit ⟨f.g, f.d.num, f.a.num, f.a.last, BitVec.ofNat 5 k, BitVec.ofNat 7 shr, BitVec.ofNat 32 body⟩)
    | _ => none
  | 0x95 => some (.hwork f)
  | 0x96 => some (.hret f (RedOp.ofCode (fn / 4)))
  | 0x97 => some (.hend f.g)
  | 0x98 => some (.migrate f)
  | 0xA0 =>
    match fn % 4 with
    | 0 => some (.barArrive f (b 2) (f.c.num.setWidth 4))
    | 1 => some (.barWait f (f.c.num.setWidth 4))
    | _ => some (.barSync f (f.c.num.setWidth 4))
  | 0xA1 => some (.qpush f (b 0))
  | 0xA2 => some (.qpop f (b 0))
  | 0xA3 => some (.tarr f (b 2) (f.c.num.toNat == 1))
  | 0xA4 => some (.twait f (f.c.num.toNat == 1))
  | 0xB0 => some (.sysr f (b 0))
  | 0xB1 => some (.sysw f (b 0))
  | 0xB2 => some (.icinv f (b 0))
  | 0xB3 => some (.mcdef f)
  | 0xB4 => some (.tread f)
  | 0xC0 => some (.spush f (b 0))
  | 0xC1 => some (.spop f (b 0))
  | 0xC2 => if b 0 then some (.lbmapSet f.g (f.d.num.setWidth 4) f.b.num)
      else some (.lbmapSwap f.g (f.d.num.setWidth 4) (f.a.num.setWidth 4))
  | 0xC3 =>
    match unpackBits [32, 8, 16, 3, 1, 4] f.cmdBits with
    | [_, k, doff, fmt, keep, db] => some (.cpIn (f.eform fn) (BitVec.ofNat 4 db) (isOne keep) (CpFmt.ofCode fmt)
        (BitVec.ofNat 16 doff) (BitVec.ofNat 8 k))
    | _ => none
  | 0xC4 =>
    match unpackBits [36, 4, 16, 3, 1, 4] f.cmdBits with
    | [_, sc, soff, _, pair, sb] => some (.cpOut (f.eform fn) (BitVec.ofNat 4 sb) (isOne pair) (BitVec.ofNat 16 soff) (BitVec.ofNat 4 sc))
    | _ => none
  | 0xC5 =>
    match unpackBits [19, 1, 4, 16, 16, 4, 4] f.cmdBits with
    | [_, keep, sc, toff, soff, tb, sb] => some (.cpPeer (f.eform fn) (BitVec.ofNat 4 sb) (BitVec.ofNat 4 tb) (BitVec.ofNat 16 soff)
        (BitVec.ofNat 16 toff) (BitVec.ofNat 4 sc) (isOne keep))
    | _ => none
  | 0xC6 =>
    match unpackBits [36, 4, 16, 2, 1, 1, 4] f.cmdBits with
    | [_, sc, doff, _, glb, keep, db] => some (.cpFill (f.eform fn) (BitVec.ofNat 4 db) (isOne keep) (isOne glb) (BitVec.ofNat 16 doff)
        (BitVec.ofNat 4 sc))
    | _ => none
  | 0xC7 =>
    match unpackBits [47, 4, 1, 6, 6] f.cmdBits with
    | [_, bar, bv, cnt, n] => some (.gNode f.g (BitVec.ofNat 6 n) (BitVec.ofNat 6 cnt) (barOf (16 * bv + bar)))
    | _ => none
  | 0xC8 => some (.gEdge f.g (f.d.num.setWidth 6) (f.a.num.setWidth 6))
  | 0xC9 => some (.gRun f.g (barOf fn))
  | 0xCA => some (.gReset f.g)
  | 0xCB => some (.pub f.g (barOf fn) f.a.num (f.c.num.setWidth 4))
  | 0xCC =>
    match unpackBits [27, 1, 1, 1, 2, 12, 12, 4, 4] f.cmdBits with
    | [_, ia, tri, ow, t, bo, ao, bb, ab] => some (.mm (f.eform fn) (BitVec.ofNat 4 ab) (BitVec.ofNat 4 bb) (BitVec.ofNat 12 ao)
        (BitVec.ofNat 12 bo) (BitVec.ofNat 2 t) (isOne ow) (isOne tri) (isOne ia))
    | _ => none
  | 0xCD =>
    match unpackBits [41, 12, 2, 2, 2, 1, 4] f.cmdBits with
    | [_, doff, o, sk, t, keep, db] => some (.mmRd f.g (barOf fn) (BitVec.ofNat 4 db) (isOne keep) (BitVec.ofNat 2 t) (RdSrc.ofCode sk)
        (RdOut.ofCode o) (BitVec.ofNat 12 doff))
    | _ => none
  | 0xCE => some (.mmClr f.g (barOf fn) (f.c.num.setWidth 2))
  | 0xCF =>
    match unpackBits [45, 12, 1, 2, 4] f.cmdBits with
    | [_, soff, lk, t, sb] => some (.mmLd f.g (barOf fn) (BitVec.ofNat 4 sb) (BitVec.ofNat 2 t) (isOne lk) (BitVec.ofNat 12 soff))
    | _ => none
  | _ => none

/-- The instruction of an M layout. -/
def ofM (op : Nat) (r : MRaw) : Option Instr :=
  let sz := MSize.ofCode r.sz.toNat
  match op with
  | 0x50 => some (.ld r.mform sz)
  | 0x51 => some (.st r.mform sz)
  | 0x52 => some (.ldl r.lform sz)
  | 0x53 => some (.stl r.lform sz)
  | 0x54 => some (.pref r.mform (PrefKind.ofCode r.sz.toNat))
  | 0x55 => some (.amo r.mform (AmoOp.ofCode r.sz.toNat))
  | 0x56 => some (.cas r.mform sz)
  | 0x57 => some (.cstore r.mform sz)
  | 0x58 => some (.bind r.mform sz)
  | 0x5E => some (.fence r.g (FenceKind.ofCode r.ord.toNat) r.sc)
  | 0x5F => some (.fenceOwn r.g)
  | 0x60 => some (.fenceFar r.g r.sc)
  | _ => none

/-- The instruction of a B64 layout. -/
def ofB (op : Nat) (g : Guard) (off : BitVec 32) (func : BitVec 16) : Option Instr :=
  match op with
  | 0x80 => some (.bra g off)
  | 0x82 => some (.call g (func.setWidth 7) off)
  | 0x90 => some (.fork g ((func >>> 7).setWidth 7) (func.setWidth 7) off)
  | _ => none

/-- The instruction that a layout names. -/
def Layout.instr : Layout → Option Instr
  | .h w sa sb z => some (.clause w sa sb z)
  | .nop w => some (.nop w)
  | .a op fn _ f => ofA op fn f
  | .m op r => ofM op r
  | .b op g off func => ofB op g off func

/-- The decoder: the bits above the length that LEN gives are ignored. A word that is not the encoding of the
instruction its fields name (a reserved code, a nonzero zero field, a value outside its limits) is rejected (R61, check 3). -/
def decode (w : Nat) : Option Instr :=
  let v := w % 2 ^ (8 * lenOf w)
  match (layoutOf v).bind Layout.instr with
  | some i => if encode i = some (lenOf w, v) then some i else none
  | none => none

/-- The guard of any word: PG and PN stand at the same place in every format (R61). -/
def guardBits (w : Nat) : Guard := guardOf (w / 2 ^ 10 % 16) (w / 2 ^ 14 % 2)

/-- The instruction that the decoder reads from an instruction of `nbits` bits. -/
def decodeTableWord (nbits w : Nat) : Option Instr := decode (w % 2 ^ nbits)

end Sys2Proof
end

