-- ==== Sys2Proof/Machine/State.lean ====
section
/-! DEFINITION. The state of the panel as plain data: every register and table the spec names, the reasons a step can
stop, and the state after reset. Sparse tables are lists of (key, value) pairs; an absent key has the value the field's
comment names. -/
namespace Sys2Proof.Machine

/-- Why a step stops. Both are safe: they stand where nothing can happen, never where the spec gives an effect. -/
inductive Fault where
  /-- an instruction was executed while no fibre or stream is in focus to issue it; raised by every instruction; safe -/
  | noAgent
  /-- an event was executed in a state in which it cannot occur (no such object, or nothing is due); raised by events; safe -/
  | notEnabled (event : String)
  deriving DecidableEq, Repr

/-- Why a step is refused. -/
inductive Refusal where
  /-- an instruction that the model gives no meaning; raised by `exec`; safe -/
  | notModelled (mnemonic : String)
  deriving DecidableEq, Repr

/-- A sparse table: keys in rising order, absent keys at the value the field's comment names. -/
abbrev Map (α : Type) := List (Nat × α)

/-- Memory: bytes by physical address, in rising address order, none equal to zero (log 2). -/
abbrev Memory := List Host.Cell

/-! ### Fibres and streams -/

/-- A register that is not clean (R24). -/
inductive WReg where
  | live (v : Word)
  | dead
  deriving DecidableEq, Repr

/-- Who issues: a fibre of a weave of a block, or the block's sequencer stream. -/
inductive Actor where
  | fib (uid widx slot : Nat)
  | seq (uid : Nat)
  deriving DecidableEq, Repr

/-- The register in which a long-latency result lands. -/
inductive PDst where
  | w (n : Nat) | k (n : Nat) | s (n : Nat) | none
  /-- a result for wn that a later write discards at its landing, before which wn takes no push (R31, R260) -/
  | gone (n : Nat)
  deriving DecidableEq, Repr

/-- An outstanding long-latency result of one fibre or stream (R31), in program order. -/
structure Pend where
  op : Nat
  /-- the mark that counts it; 15 for none (R30) -/
  mark : Nat
  dst : PDst
  val : Word
  /-- predicate result of `bcas` -/
  pred : Option (BitVec 4 × Bool)
  /-- a result of `bind`, `bamo` or `bcas` in its own register is not a store (R262) -/
  own : Bool
  /-- flags that the completion sets (R82) -/
  flags : BitVec 5
  /-- the virtual address, when the result proves poisoned (R149) -/
  poison : Option Word
  pc : Word
  /-- the operation has completed -/
  done : Bool
  deriving DecidableEq, Repr

/-- A binding of a fibre register (R255, R256, R276). -/
structure Binding where
  pa : Nat
  va : Word
  wide : Bool
  sext : Bool
  pending : Option Word
  /-- the pending value comes from a poisoned line (R275) -/
  poison : Bool
  slot : Nat
  /-- the table entry comes from the common remainder (R255) -/
  rest : Bool
  /-- the sequence numbers of the buffered stores to the word that it read at its registration (R258, R261) -/
  read : List Nat
  deriving DecidableEq, Repr

/-- The trap registers of a fibre or stream (R353). -/
structure TrapRegs where
  poison : Bool
  seq : Nat
  inTrap : Bool
  side : Bool
  setb : BitVec 4
  seta : BitVec 4
  stepv : Bool
  step : BitVec 5
  inner : BitVec 8
  cause : BitVec 8
  xpc : Word
  xfpc : Word
  xaddr : Word
  xaux : Word
  /-- the resume point is an entry whose first word has still to be checked (R34) -/
  entry : Bool
  deriving DecidableEq, Repr

/-- A staged contribution of an iteration (R218). -/
structure Contribution where
  op : RedOp
  ty : Ty
  k : BitVec 5
  val : Word
  deriving DecidableEq, Repr

/-- The record that a held iteration waits for, and what its failure puts into the recruiter's record (R221, R222, R352). -/
structure HeldRec where
  seq : Nat
  inner : BitVec 8
  addr : Word
  slot : Nat
  core : Nat
  rpc : Word
  mask : Nat
  deriving DecidableEq, Repr

/-- An iteration pool of a recruiter (R216). -/
structure Pool where
  n : Nat
  u : Nat
  p : Nat
  /-- held indices: `none` claimable, else waiting for that record -/
  held : Map (Option HeldRec)
  /-- records that await completion for helpers that held no iteration (R221, R222) -/
  idle : List HeldRec
  /-- committed, not yet applied -/
  committed : Map (List Contribution)
  /-- helpers not yet released -/
  helpers : Nat
  /-- entry of the helpers -/
  body : Word
  shr : Nat
  /-- the shared registers as they stood at `recruit` (R213): value and whether the register was dead -/
  shared : Map (Word × Bool)
  /-- destination of `recruit` -/
  dst : Nat
  /-- the recruiter is suspended at `recruit` -/
  waiting : Bool
  deriving DecidableEq, Repr

/-- A macro that a batch is inside (R146): operations, next step, fibres that execute it. -/
structure MacRun where
  ops : List Word
  step : Nat
  part : List Nat
  deriving DecidableEq, Repr

/-- The element store that a trapped `cstore` at `pc` replays after the return: its address, its value, and the count for D (R157). -/
structure Replay where
  pc : Word
  va : Word
  val : Word
  n : Nat
  deriving DecidableEq, Repr

/-- What a fibre is (R161, R212, R390). -/
inductive FKind where
  | block
  | helper (recWeave recSlot num : Nat)
  | handler (n : Nat)
  deriving DecidableEq, Repr

/-- The state of one fibre (R22). Its PC is its batch's. -/
structure Fibre where
  kind : FKind
  /-- block fibre slot; 1,024 plus the helper number; 2,048 plus the handler number (R39) -/
  fslot : Nat
  /-- absent: clean -/
  regs : Map WReg
  /-- registers among `regs` that are spilled to the spill area, not the lent ways (R185) -/
  spilt : List Nat
  preds : BitVec 16
  pend : List Pend
  binds : Map Binding
  bfull : Bool
  blost : Bool
  tr : TrapRegs
  faults : Nat
  grant : Nat
  forced : Nat
  pool : Option Pool
  /-- the current iteration and its staged contributions -/
  cur : Option (Nat × List Contribution)
  /-- a release is requested of this helper (R223) -/
  release : Bool
  /-- the assembly buffer of active messages (R387) -/
  asm : Option (Map Word)
  replay : Option Replay
  /-- the macro call that a trap interrupted (R146, R354) -/
  smac : Option MacRun
  deriving DecidableEq, Repr

/-- What a suspended batch or stream waits for. -/
inductive Wait where
  /-- a block barrier: (weave slot, token) of each participant (R202) -/
  | bar (b : Nat) (toks : List (Nat × Nat))
  /-- `bwait`: register, condition, type, (weave slot, operand), slots latched (R268) -/
  | bwait (reg : Nat) (cond : BwaitCond) (ty : Ty) (vs : List (Nat × Word)) (latched : List Nat)
  /-- a queue operation: whether it has been performed, when it issued, its elements and participants (R205, R307); a pop also holds its register D,
  whose result is still to land, and the slots in which its removal met a poisoned value, with the address (R206, R275) -/
  | qpush (ok : Bool) (at_ : Nat) (vals : List Word) (part : List Nat)
  | qpop (ok : Bool) (at_ : Nat) (vals : List Word) (part : List Nat) (n : Nat) (own : Option Nat) (bad : List (Nat × Word))
  /-- a command whose engine queue is full (R309), or `lbmap` and `g.reset` behind running commands -/
  | engine
  /-- a tree round: (weave slot, token) (R399) -/
  | twait (tree : Bool) (toks : List (Nat × Nat))
  /-- helpers granted and not yet started; `succ` marks the batch that succeeds its recruiter's (R212) -/
  | start (succ : Bool)
  /-- `recruit`: participants that wait for a pool entry, in order, and the rest of the batch's state (R210) -/
  | recruit (todo : List Nat)
  /-- `hwork`: participants still to be served (R217) -/
  | hwork (pd : BitVec 4) (wi : Nat) (todo : List Nat)
  /-- a record that awaits completion (R352) -/
  | record (seq : Nat)
  /-- `fence.far` is held until its targets have stopped: their linear indices, one for each participant that names another, and the slots whose refresh
  has met a poisoned value, with its address, which trap once it is done (R275, R291) -/
  | far (request : Nat) (targets : List Nat) (bad : List (Nat × Word))
  /-- a sending store is held until its messages are answered (R389): slots and lengths still to send, the outcome predicate of `.nb`,
  the time of the latest refusal, the store's place among the sends of its core, and the panel time of the latest sending -/
  | send (todo : List (Nat × Nat)) (pred : Option (BitVec 4)) (retry : Option Nat) (stamp sent : Nat)
  /-- a held barrier completion (R428): the region, the stretched regions for whose alarms it is held, and since when -/
  | hold (region : Nat) (srcs : List Nat) (since : Nat)
  /-- `migrate` on its way (R395) -/
  | migrate (core : Nat)
  deriving DecidableEq, Repr

/-- A batch is runnable, parked at a `join`, suspended, or woken: runnable again with its wait satisfied. -/
inductive BState where
  | run
  | parked
  | wait (w : Wait)
  | woke (w : Wait)
  deriving DecidableEq, Repr

/-- A batch: fibres of one weave at one PC (R162). -/
structure Batch where
  members : List Nat
  pc : Word
  /-- an entry or a transfer target: the word at `pc` must be a clause header (R34) -/
  entry : Bool
  seta : BitVec 4
  setb : BitVec 4
  /-- taken backward transfers (R184) -/
  wd : Nat
  mac : Option MacRun
  /-- the next instruction or step is not matched by a breakpoint register (R347, R354) -/
  skipBkp : Bool
  /-- stopped at a clause header (R291, R369) -/
  stopped : Bool
  /-- released from a `join` under single step, whose trap is due (R356) -/
  stepDue : Bool
  /-- alarms after which the batch has met a barrier completion: the stretched region and the number of its alarm (R428) -/
  met : List (Nat × Nat)
  state : BState
  deriving DecidableEq, Repr

inductive WKind where
  | block | helper | handler
  deriving DecidableEq, Repr

/-- A store in a store buffer (R362): sequence number, physical address, bytes, the fibre that made it as (weave, slot), none for the stream, and
whether that is a helper. -/
structure SEntry where
  seq : Nat
  pa : Nat
  data : List Byte
  who : Option (Nat × Nat)
  helper : Bool
  deriving DecidableEq, Repr

/-- A weave (R161). -/
structure Weave where
  kind : WKind
  core : Nat
  /-- weave slot on the core; 32 for the landing slot -/
  wslot : Nat
  active : Bool
  k : Map Word
  marks : Map Nat
  fpflags : BitVec 5
  deadSlot : Nat
  deadReg : Nat
  deadDR : Bool
  deadPc : Word
  /-- V and BLOCK of sr.fartgt -/
  fartgt : BitVec 33
  ss : Bool
  lfsr : BitVec 32
  batches : List Batch
  /-- index into `batches` of the current batch -/
  cur : Option Nat
  fibres : Map Fibre
  /-- store buffer of a helper weave on a neighbour core (R225) -/
  sbuf : List SEntry
  /-- time of the last issue, of entry to the pending set, and of the weave's arrival on its core -/
  lastIssue : Nat
  lastMove : Nat
  arrived : Nat
  deriving DecidableEq, Repr

inductive SState where
  | run
  | wait (w : Wait)
  | woke (w : Wait)
  | ended
  deriving DecidableEq, Repr

/-- The sequencer stream of a block (R303). -/
structure Stream where
  pc : Word
  entry : Bool
  s : Map Word
  preds : BitVec 16
  marks : Map Nat
  seta : BitVec 4
  setb : BitVec 4
  pend : List Pend
  fartgt : BitVec 33
  ss : Bool
  tr : TrapRegs
  state : SState
  /-- stopped at a clause header (R291, R369) -/
  stopped : Bool
  /-- the stream ends once its outstanding results have landed (R306) -/
  ending : Bool
  /-- the node that the next command is captured into (R325) -/
  capture : Option (Nat × Nat × Option (BitVec 4))
  /-- command errors that raise trap 0x12 before the next instruction: inner cause, the command's address (R313) -/
  cmdErr : List (BitVec 8 × Word)
  deriving DecidableEq, Repr

/-! ### Blocks -/

/-- The fields of a kernel header (R32). -/
structure Hdr where
  regs : Nat
  binds : Nat
  helpers : Nat
  bars : Nat
  macs : Nat
  fibres : Nat
  lstore : Nat
  shadow : Nat
  entry : Nat
  seqEntry : Nat
  trapEntry : Nat
  macTable : Nat
  /-- sizes of lb0 to lb15 in slots -/
  bufs : List Nat
  handlers : List Nat
  deriving DecidableEq, Repr

/-- A block barrier (R201). -/
structure Barrier where
  p : BitVec 32
  arr : Nat
  e : Option Nat
  deriving DecidableEq, Repr

/-- An engine command with the register values read at issue (R309). -/
structure Cmd where
  id : Nat
  ins : Instr
  ra : Word
  rb : Word
  rc : Word
  node : Option Nat
  bar : Option (BitVec 4)
  /-- the address of the command instruction -/
  pc : Word
  deriving DecidableEq, Repr

/-- A running command: the names it resolved at its start (R311), the target block and the shadow run (R230). -/
structure Running where
  cmd : Cmd
  /-- start slots of the source buffers as resolved -/
  srcs : List Nat
  /-- local slots that the command still reads -/
  reads : List Nat
  target : Nat
  /-- destination buffer and first slot of its shadow run in the target block; none for a global destination, or after an error at the start -/
  run : Option (Nat × Nat)
  /-- cycles of R336 for an `mm` -/
  cycles : Nat
  deriving DecidableEq, Repr

inductive NodeSt where
  | defined | waiting | running | complete | error
  deriving DecidableEq, Repr

/-- A graph node that is defined (R324); its successors are kept apart, since a redefinition keeps them. -/
structure Node where
  cmd : Cmd
  init : Nat
  cnt : Nat
  bar : Option (BitVec 4)
  st : NodeSt
  deriving DecidableEq, Repr

/-- A message in flight to, or queued at, a core (R388 to R390), with the index and launch record of its sender and its deadline field, none where it
carries none or its capped flag is set (R384). -/
structure Msg where
  src : Nat
  sender : Nat
  ctx : Nat
  idx : Nat
  record : Word
  field : Option Nat
  hdrVA : Word
  words : List Word
  deriving DecidableEq, Repr

/-- A block resident on a core, or saved in a frame. -/
structure Block where
  ctx : Nat
  lid : Nat
  /-- linear block index -/
  idx : Nat
  core : Nat
  landing : Bool
  hdrVA : Word
  argsVA : Word
  hdr : Hdr
  /-- launch flags and fields (R163, R164) -/
  prio : Nat
  gang : Bool
  chk : Bool
  hlp : Bool
  msg : Bool
  seed : BitVec 32
  wdog : Nat
  spill : Nat
  record : Word
  /-- SCOPE, DOM and EXT of levels 0 to 7 as declared -/
  levels : List (Nat × Nat × Nat)
  /-- absolute deadline in ticks of panel time; `none` without one -/
  deadline : Option Nat
  placedAt : Nat
  /-- 0 to 31 the block's weaves; 32 to 63 handler weaves; from 64 helper weaves -/
  weaves : Map Weave
  stream : Option Stream
  bars : Map Barrier
  sq : List Word
  fq : List Word
  lstore : Map Byte
  /-- physical local-store slots held, by local slot (R228) -/
  slots : List Nat
  /-- START of lb0 to lb15 -/
  starts : Map Nat
  /-- local slots in the shadow pool -/
  pool : List Nat
  /-- entries of a0 to a3 that are not zero: key 1,024 × tile + 32 × row + column -/
  tiles : Map (BitVec 32)
  cpReady : List Cmd
  mmReady : List Cmd
  running : List Running
  nextCmd : Nat
  graph : Map Node
  edges : Map (List Nat)
  /-- a run is in progress, and the barrier it arrives at -/
  grun : Option (Option (BitVec 4))
  gDone : Nat
  gExtra : Bool
  gErr : Bool
  gDir : Bool
  gEnode : Nat
  gInner : BitVec 8
  mLast : Nat
  mRetry : Nat
  mInf : Bool
  mNan : Bool
  bkp : Map Word
  relaunches : Nat
  wopen : Bool
  cretry : Nat
  stseq : BitVec 32
  notgt : Nat
  refused : Nat
  handled : Nat
  sbuf : List SEntry
  /-- outstanding long-latency operations: (operation, weave or none for the stream, mark) -/
  ops : Map (Option Nat × Nat)
  /-- local slots that an outstanding `ldl` has resolved to, by operation (R230) -/
  lreads : Map (List Nat)
  /-- arrived in the current round of t0, t1 -/
  arr0 : Bool
  arr1 : Bool
  /-- the die controller asks the block to stop at clause boundaries (R369) -/
  stop : Bool
  /-- the fence.far requests that ask it to stop: the block of each, and its stamp (R291) -/
  farStop : List (Nat × Nat)
  /-- a save has begun: its frame, and why: 0 a command of the service, 1 pre-emption, 2 retirement (R369, R370, R175) -/
  saving : Option (Nat × Nat)
  /-- messages held for the block while it is saved (R390) -/
  msgs : List Msg
  deriving DecidableEq, Repr

/-! ### Cores, dies, homes -/

/-- The state of a line in an L1 (R235). A line in S or E is in B while its core holds a binding on it. -/
inductive LineSt where
  | m | e | s
  deriving DecidableEq, Repr

/-- What marks a packet of a block with a deadline: context, linear index, core and launch record of its source, and the deadline field, which the packets
that it causes inherit (R384, R386). -/
structure Packet where
  ctx : Nat
  idx : Nat
  core : Nat
  record : Word
  field : Nat
  deriving DecidableEq, Repr

/-- A miss entry (R248): the line, the block that waits, the slice that the request goes to as 32 × die + slice (R241, R247), whether ownership is
asked, whether the reply has left that slice, probes held, the operations that wait for the reply, and the mark of the request, which its reply
inherits (R384). -/
structure Miss where
  line : Nat
  uid : Nat
  dest : Nat
  own : Bool
  replied : Bool
  held : Nat
  ops : List Nat
  pkt : Option Packet
  deriving DecidableEq, Repr

/-- A translation held in a TLB (R252): the leaf's physical page, its size in bytes and its permissions. -/
structure Tlb where
  ctx : Nat
  va : Nat
  size : Nat
  pa : Nat
  r : Bool
  w : Bool
  x : Bool
  /-- the leaf's D bit was set when it was read -/
  d : Bool
  deriving DecidableEq, Repr

/-- An entry of a core's control store (R145). -/
structure MacEntry where
  hdrVA : Word
  ctx : Nat
  n : Nat
  ops : List Word
  deriving DecidableEq, Repr

/-- A core (R161, R176, R234, R252, R255). -/
structure Core where
  /-- 256-byte lines in the L1, most recently used first -/
  l1 : List (Nat × LineSt)
  /-- micro-TLB, newest first -/
  utlb : List Tlb
  /-- 64-byte lines in the instruction cache and their bytes -/
  icache : Map (List Byte)
  macs : Map MacEntry
  inq : List Msg
  /-- miss entries in the order of their requests -/
  misses : List Miss
  retired : Bool
  /-- the core has issued since it last held no weave (R425) -/
  started : Bool
  /-- registers spilled to the lent ways: (block, weave, slot, register) (R185) -/
  lent : List (Nat × Nat × Nat × Nat)
  /-- time of the latest pre-emption on the core (R175) -/
  preemptAt : Option Nat
  deriving DecidableEq, Repr

/-- A zone of 2 MiB (R240 to R245). -/
structure Zone where
  tag : Option Nat
  deg : Nat
  ceil : Nat
  floor : Nat
  holders : List Nat
  fill : Nat
  hit : Nat
  fwd : Nat
  coll : Nat
  dchg : Nat
  /-- counts of the window: dies that read, reads, ownership requests, collapses, hits -/
  readers : List Nat
  reads : Nat
  owns : Nat
  wcoll : Nat
  whit : Nat
  wfwd : Nat
  /-- windows of R243 that had passed at the latest review -/
  reviewed : Nat
  deriving DecidableEq, Repr

/-- An entry of a die's error log (R370). -/
structure ElogEntry where
  pa : Nat
  ctx : Nat
  src : Nat
  seq : Nat
  deriving DecidableEq, Repr

/-- A channel status register (R422). -/
structure Chan where
  corr : Nat
  uncorr : Nat
  ovf : Bool
  deriving DecidableEq, Repr

/-- A segment of a chive tree on a die (R400): whether it has reported the current round. -/
structure Seg where
  reported : Bool
  rounds : Nat
  deriving DecidableEq, Repr

/-- A compute die. -/
structure Die where
  /-- bucket tables: entries that differ from b mod 16 (R238) -/
  homeB : Map Nat
  replB : Map Nat
  fill : Nat
  hit : Nat
  fwd : Nat
  coll : Nat
  dchg : Nat
  tlb : List Tlb
  dcarg : Word
  dcres : Nat
  /-- a controller command in progress: command, core index or slice, DCARG when it was written (R370, R402) -/
  dcbusy : Option (Nat × Nat × Nat)
  elcount : Nat
  elog : List ElogEntry
  inval : Word
  invalBusy : Bool
  drtime : Nat
  drpois : Nat
  drforced : Bool
  drstate : Nat
  slthr : Nat
  slret : BitVec 32
  slcerr : Map Nat
  chthr : Nat
  /-- channel groups adopted, in order: (die that homed them, side) (R406) -/
  adopted : List (Nat × Nat)
  tmask : Map Word
  seg0 : Seg
  seg1 : Seg
  /-- time of the latest placement of each launch on the die: ((context, launch), time) -/
  lastPlace : List ((Nat × Nat) × Nat)
  /-- die reset under way: the time the drain began -/
  drainAt : Nat
  deriving DecidableEq, Repr

/-- The root of a tree (R397): rounds completed, dies whose report it has seen, absent members. -/
structure Root where
  rounds : Nat
  seen : List Nat
  absent : List Nat
  /-- when the latest round completed, a time of `State.clock` (R400, R426) -/
  doneAt : Nat
  deriving DecidableEq, Repr

/-- The registers of a power region (R424 to R428). -/
structure Region where
  limit : Nat
  defer : Nat
  last : Nat
  alarms : Nat
  hold : Bool
  stretch : Bool
  holdcap : Nat
  /-- LIMIT and HOLDCAP as written, taking effect at the next step boundary -/
  limitNext : Nat
  holdcapNext : Nat
  starts : Nat
  /-- cores that wait to start -/
  queue : List Nat
  holdAt : Nat
  /-- droop alarms so far, which number them (R428) -/
  droops : Nat
  /-- when the stretch in progress began, and the stretches that have ended, each from and to, in units of `State.clock` (R426) -/
  stretchAt : Nat
  stretched : List (Nat × Nat)
  up : Bool
  deriving DecidableEq, Repr

/-! ### Contexts and the service -/

inductive LaunchSt where
  | queued | waiting | ready | done
  deriving DecidableEq, Repr

/-- A level descriptor (R165). -/
structure Level where
  ext : Nat
  dom : Nat
  scope : Nat
  gang : Bool
  mask : Nat
  deriving DecidableEq, Repr

/-- A launch in a queue (R163 to R171). -/
structure Launch where
  lid : Nat
  queue : Nat
  record : Word
  kernel : Word
  args : Word
  flags : BitVec 16
  budget : Nat
  seed : BitVec 32
  wdog : Nat
  done : Nat
  spill : Nat
  depcount : Nat
  depflag : Nat
  levels : List Level
  /-- the bits of the level descriptors that must be zero are zero -/
  zeroBits : Bool
  /-- placement masks read at readiness, by level: permitted instances -/
  masks : Map (List Nat)
  hdr : Option Hdr
  macs : List (List Word)
  state : LaunchSt
  /-- when it became ready (R172) -/
  readyAt : Nat
  deadline : Option Nat
  total : Nat
  next : Nat
  /-- blocks to place again, in order: (index, relaunch count, cluster to avoid plus 1) -/
  again : List (Nat × Nat × Nat)
  /-- (index, core): cores that reported an event for a block and have not been returned to service since (R363) -/
  barred : List (Nat × Nat)
  ended : Nat
  killed : Nat
  /-- domain instances chosen: ((level, instance), domain instance) -/
  chosen : List ((Nat × Nat) × Nat)
  deriving DecidableEq, Repr

/-- A context (R434) and its registers. -/
structure Ctx where
  root : Nat
  flags : BitVec 16
  ring : Nat
  ringLog : Nat
  bell : Nat
  pool : Nat
  frames : Nat
  reject : Nat
  /-- the next record's number -/
  seq : Nat
  /-- records that await completion -/
  awaited : List Nat
  relaunch : Nat
  closed : Nat
  forced : Nat
  late : Nat
  session : Nat
  key : List Byte
  ringVA : Nat
  bellVA : Nat
  launches : List Launch
  nextLid : Nat
  deriving DecidableEq, Repr

/-- A block saved in a frame (R369). -/
structure Frame where
  /-- number of the save, which selects the device's bytes -/
  save : Nat
  ctx : Nat
  /-- the state word shows a saved block -/
  saved : Bool
  /-- bytes of the frame written since the save -/
  touched : Bool
  /-- bytes written since the save -/
  cells : Map Byte
  block : Option Block
  uid : Nat
  /-- why the block was saved, as in Block.saving -/
  why : Nat
  deriving DecidableEq, Repr

/-- A Uzoide session (R437, R438). -/
structure Session where
  mgmt : Bool
  major : Nat
  minor : Nat
  deriving DecidableEq, Repr

/-- A sandbox: port die, harts, the root of its second-stage table, and the physical pages that it maps (R432). -/
structure Sandbox where
  port : Nat
  harts : List Nat
  root : Nat
  pages : List Nat
  deriving DecidableEq, Repr

/-- What the service and the port dies send (R430 to R443). -/
inductive OutMsg where
  /-- a Uzoide message of a TYPE -/
  | uz (type : Nat) (m : UzMsg)
  | portNack (port : Nat)
  | rmaDone (ctx : Nat) (ok : Bool)
  | hartReply (hart : Nat) (v : Option Word)
  deriving DecidableEq, Repr

/-- The service's own state. -/
structure Service where
  /-- port die 0 has booted -/
  booted : Bool
  /-- 0 down, 1 reduced, 2 full (R442) -/
  mode : Nat
  regionsUp : Nat
  sessions : Map Session
  nextSession : Nat
  /-- bytes of each die's range given out so far, in whole zones (log 10) -/
  alloc : Map Nat
  /-- next free page for the translation tables of each context, in a zone of its own (log 10) -/
  tables : Map Nat
  sandboxes : Map Sandbox
  rollback : Nat
  /-- firmware by target: version, image, signature -/
  staged : Map (Nat × List Byte × List Byte)
  running : Map (Nat × List Byte × List Byte)
  deriving DecidableEq, Repr

/-! ### The panel -/

/-- Who issues next: a weave of a block, a block's stream, or nobody. -/
inductive Focus where
  | weave (uid widx : Nat)
  | stream (uid : Nat)
  | none
  deriving DecidableEq, Repr

inductive Turn where
  | event
  | issue
  deriving DecidableEq, Repr

/-- The panel. -/
structure State where
  /-- requests of the outside world and events that wait to happen, in order (log 4) -/
  inbox : List Instr
  turn : Turn
  focus : Focus
  /-- panel time in ticks of the 600 MHz reference (R1, R383) -/
  time : Nat
  /-- core-clock cycles passed where no clock is stretched, in sixths of a cycle (R1): a tick is six sixths in full service and four in reduced
  service -/
  clock : Nat
  /-- free values taken so far (log 6) -/
  fresh : Nat
  mem : Memory
  /-- poisoned 256-byte lines, by line address (R405) -/
  poison : List Nat
  ctxs : Map Ctx
  dies : Map Die
  /-- by global core id; 40,960 + p holds the lines of port die p's cluster cache (R13, R429) -/
  cores : Map Core
  blocks : Map Block
  nextUid : Nat
  nextOp : Nat
  zones : Map Zone
  /-- lines in the home slices: (die, line), most recently used first (R237) -/
  homeLines : List (Nat × Nat)
  /-- lines whose home slice holds data that its channel does not yet hold (R403) -/
  homeDirty : List Nat
  /-- lines in the replica slices: (die, line), most recently used first (R239) -/
  replicas : List (Nat × Nat)
  /-- channel status, by 32 × die + channel slot: the counters belong to the channel (R422) -/
  chans : Map Chan
  /-- forwarded sharers: (holder, line, die) (R241) -/
  sharers : List (Nat × Nat × Nat)
  root0 : Root
  root1 : Root
  regions : Map Region
  /-- step boundaries of R425 that have been passed -/
  steps : Nat
  frames : Map Frame
  saves : Nat
  /-- walks of the step in progress that faulted: die, context, virtual page and cause, which requests that coalesce with one share (R252) -/
  walks : List (Nat × Nat × Nat × BitVec 8)
  /-- replies that the step in progress has delivered after their deadlines, and that its end counts (R386) -/
  lates : List Packet
  service : Service
  out : List OutMsg
  deriving DecidableEq, Repr

/-! ### Reset values -/

/-- The trap registers at a fibre's start (R353; log 1). -/
def TrapRegs.reset : TrapRegs :=
  { poison := false, seq := 0, inTrap := false, side := false, setb := 0, seta := 0, stepv := false, step := 0, inner := 0, cause := 0,
    xpc := 0, xfpc := 0, xaddr := 0, xaux := 0, entry := false }

/-- A barrier at block start (R201). -/
def Barrier.reset : Barrier := ⟨0, 0, none⟩

/-- A core with nothing resident. -/
def Core.reset : Core :=
  { l1 := [], utlb := [], icache := [], macs := [], inq := [], misses := [], retired := false,
    started := false, lent := [], preemptAt := none }

/-- A die after reset (R238, R246, R370, R402; log 1). -/
def Die.reset : Die :=
  { homeB := [], replB := [], fill := 0, hit := 0, fwd := 0, coll := 0, dchg := 0, tlb := [], dcarg := 0, dcres := 0, dcbusy := none,
    elcount := 0, elog := [], inval := 0, invalBusy := false, drtime := 100, drpois := 0, drforced := false, drstate := 0,
    slthr := 1024, slret := 0, slcerr := [], chthr := 4096, adopted := [], tmask := [], seg0 := ⟨false, 0⟩, seg1 := ⟨false, 0⟩,
    lastPlace := [], drainAt := 0 }

/-- A zone never reviewed (R244, R245). -/
def Zone.reset : Zone :=
  { tag := none, deg := 0, ceil := 6, floor := 0, holders := [], fill := 0, hit := 0, fwd := 0, coll := 0, dchg := 0, readers := [],
    reads := 0, owns := 0, wcoll := 0, whit := 0, wfwd := 0, reviewed := 0 }

/-- A power region after reset (R424). -/
def Region.reset : Region :=
  { limit := 256, defer := 0, last := 0, alarms := 0, hold := false, stretch := false, holdcap := 2, limitNext := 256, holdcapNext := 2,
    starts := 0, queue := [], holdAt := 0, droops := 0, stretchAt := 0, stretched := [], up := false }

def Root.reset : Root := ⟨0, [], [], 0⟩

/-- The service before boot (R442). -/
def Service.reset : Service :=
  { booted := false, mode := 0, regionsUp := 0, sessions := [], nextSession := 1, alloc := [], tables := [], sandboxes := [], rollback := 0,
    staged := [], running := [] }

/-- The panel after reset: nothing listed anywhere, so every table entry has its reset value; the service has still to boot. -/
def State.reset : State :=
  { inbox := [], turn := .event, focus := .none, time := 0, clock := 0, fresh := 0, mem := [], poison := [], ctxs := [], dies := [],
    cores := [], blocks := [], nextUid := 1, nextOp := 1, zones := [], homeLines := [], homeDirty := [], replicas := [], chans := [],
    sharers := [], root0 := Root.reset, root1 := Root.reset, regions := [], steps := 0, frames := [], saves := 0, walks := [], lates := [],
    service := Service.reset, out := [] }

end Sys2Proof.Machine
end

