-- ==== Sys2Proof/Machine/Access.lean ====
section
/-! DEFINITION. Access to the parts of the state: sparse tables, blocks, weaves, fibres, cores, dies, zones, and the
free-value counter. -/
namespace Sys2Proof.Machine

/-! ### Sparse tables -/

/-- The entry of a key. -/
def mget {α : Type} : Map α → Nat → Option α
  | [], _ => none
  | (k, v) :: r, n => if k = n then some v else mget r n

/-- The table with the key at `v`, keys kept in rising order. -/
def mput {α : Type} : Map α → Nat → α → Map α
  | [], n, v => [(n, v)]
  | (k, w) :: r, n, v => if n = k then (n, v) :: r else if n < k then (n, v) :: (k, w) :: r else (k, w) :: mput r n v

/-- The table without the key. -/
def mdel {α : Type} : Map α → Nat → Map α
  | [], _ => []
  | (k, w) :: r, n => if k = n then mdel r n else (k, w) :: mdel r n

/-- Changes the entry of a key that is present. -/
def mupd {α : Type} (m : Map α) (n : Nat) (f : α → α) : Map α :=
  match mget m n with
  | some v => mput m n (f v)
  | none => m

/-- Replaces every entry. -/
def mmap {α : Type} (m : Map α) (f : Nat → α → α) : Map α := m.map fun e => (e.1, f e.1 e.2)

/-- A count, absent at zero. -/
def mcount (m : Map Nat) (n : Nat) : Nat := (mget m n).getD 0

/-- Writes a count, absent at zero. -/
def mputCount (m : Map Nat) (n v : Nat) : Map Nat := if v = 0 then mdel m n else mput m n v

/-! ### Blocks, weaves, fibres -/

def State.setBlock (s : State) (uid : Nat) (b : Block) : State := { s with blocks := mput s.blocks uid b }
def State.updBlock (s : State) (uid : Nat) (f : Block → Block) : State := { s with blocks := mupd s.blocks uid f }
def State.block? (s : State) (uid : Nat) : Option Block := mget s.blocks uid

def Block.updWeave (b : Block) (w : Nat) (f : Weave → Weave) : Block := { b with weaves := mupd b.weaves w f }
def Block.updStream (b : Block) (f : Stream → Stream) : Block := { b with stream := b.stream.map f }
def Weave.updFibre (w : Weave) (sl : Nat) (f : Fibre → Fibre) : Weave := { w with fibres := mupd w.fibres sl f }

def State.weave? (s : State) (uid w : Nat) : Option Weave := (s.block? uid).bind fun b => mget b.weaves w
def State.updWeave (s : State) (uid w : Nat) (f : Weave → Weave) : State := s.updBlock uid fun b => b.updWeave w f
def State.fibre? (s : State) (uid w sl : Nat) : Option Fibre := (s.weave? uid w).bind fun v => mget v.fibres sl
def State.updFibre (s : State) (uid w sl : Nat) (f : Fibre → Fibre) : State := s.updWeave uid w fun v => v.updFibre sl f
def State.stream? (s : State) (uid : Nat) : Option Stream := (s.block? uid).bind Block.stream
def State.updStream (s : State) (uid : Nat) (f : Stream → Stream) : State := s.updBlock uid fun b => b.updStream f

/-! ### Cores, dies, zones, regions, contexts -/

def State.core (s : State) (c : Nat) : Core := (mget s.cores c).getD Core.reset
def State.updCore (s : State) (c : Nat) (f : Core → Core) : State := { s with cores := mput s.cores c (f (s.core c)) }
def State.die (s : State) (d : Nat) : Die := (mget s.dies d).getD Die.reset
def State.updDie (s : State) (d : Nat) (f : Die → Die) : State := { s with dies := mput s.dies d (f (s.die d)) }
def State.region (s : State) (r : Nat) : Region := (mget s.regions r).getD Region.reset
def State.updRegion (s : State) (r : Nat) (f : Region → Region) : State := { s with regions := mput s.regions r (f (s.region r)) }
def State.ctx? (s : State) (c : Nat) : Option Ctx := mget s.ctxs c
def State.updCtx (s : State) (c : Nat) (f : Ctx → Ctx) : State := { s with ctxs := mupd s.ctxs c f }
def State.updService (s : State) (f : Service → Service) : State := { s with service := f s.service }
def State.updLaunch (s : State) (c lid : Nat) (f : Launch → Launch) : State :=
  s.updCtx c fun x => { x with launches := x.launches.map fun l => if l.lid = lid then f l else l }
def State.launch? (s : State) (c lid : Nat) : Option Launch := (s.ctx? c).bind fun x => x.launches.find? fun l => l.lid = lid

/-- Posts an event that a step has made due. -/
def State.post (s : State) (i : Instr) : State := { s with inbox := s.inbox ++ [i] }
/-- Sends a message of the service. -/
def State.send (s : State) (m : OutMsg) : State := { s with out := s.out ++ [m] }
/-- Takes one free value. -/
def State.tick (s : State) : State := { s with fresh := s.fresh + 1 }

/-! ### Geometry (R13 to R18) -/

/-- The die of a global core id (R14). -/
def coreDie (c : Nat) : Nat := c / 320
/-- A core lies on a die under reset: no request for an agent there is served (R404). -/
def coreDown (s : State) (c : Nat) : Bool := let st := (s.die (coreDie c)).drstate; 1 ≤ st && st ≤ 3
/-- The core index on its die. -/
def coreIdx (c : Nat) : Nat := c % 320
/-- The compute die that carries a port die (R13). -/
def portDie (p : Nat) : Nat :=
  if p < 8 then p else if p < 16 then 16 * (p - 8) + 15 else if p < 24 then 127 - (p - 16) else 112 - 16 * (p - 24)
/-- The compute die of a cache: of a core's L1, or of the cluster cache of port die c − 40,960 (R429). -/
def cacheDie (c : Nat) : Nat := if c < 40960 then coreDie c else portDie (c - 40960)
/-- The cluster of a core index (R14). -/
def clusterOf (i : Nat) : Nat := (i / 16 / 4) * 4 + (i % 16) / 4
/-- Site column and row of a die: rows of eight dies, even rows at even columns and odd rows at odd columns (R8 of the grid, R14). -/
def dieRow (d : Nat) : Nat := d / 8
def dieCol (d : Nat) : Nat := 2 * (d % 8) + (d / 8) % 2
/-- The power regions of a site and of a die (R18). -/
def siteRegion (col row : Nat) : Nat := 4 * (row / 4) + col / 4
def regionOf (d : Nat) : Nat := siteRegion (dieCol d) (dieRow d)
/-- Difference of naturals without sign. -/
def absDiff (a b : Nat) : Nat := if a ≤ b then b - a else a - b
/-- Bytes of physical memory that a die owns (R16). -/
def dieBytes : Nat := 0x1400000000
/-- The end of panel memory (R17). -/
def panelEnd : Nat := 0xA0000000000

/-! ### Core clocks (R1, R426) -/

/-- Sixths of a cycle in a tick of the 600 MHz reference: a cycle is 1.5 ticks in reduced service (R1). -/
def State.rate (s : State) : Nat := if s.service.mode = 1 then 4 else 6
/-- A span of n cycles, in the sixths of a cycle that `State.clock` counts (R1). -/
def cycles (n : Nat) : Nat := 6 * n
/-- What `State.clock` has counted since t0 while a region's clocks were stretched (R426). -/
def Region.slow (x : Region) (now t0 : Nat) : Nat :=
  x.stretched.foldl (fun n e => n + (e.2 - max e.1 t0)) (if x.stretch then now - max x.stretchAt t0 else 0)
/-- What the clock of die d has counted since t0, a time of `State.clock`: every second edge of a stretch is suppressed (R426). -/
def State.ran (s : State) (d t0 : Nat) : Nat := s.clock - t0 - (s.region (regionOf d)).slow s.clock t0 / 2
/-- The sixths of a cycle since die d's cycle in progress began: in a stretch the edges that occur are the first and each second one after it (R426;
log 97). -/
def State.inCycle (s : State) (d : Nat) : Nat :=
  let x := s.region (regionOf d)
  s.clock % 6 + 6 * (if x.stretch then (s.clock / 6 - x.stretchAt / 6) % 2 else 0)
/-- The whole ticks that had begun at the start of die d's cycle in progress, which in reduced service may lie between two ticks (R1). -/
def State.cycleTime (s : State) (d : Nat) : Nat := s.time - (s.inCycle d + s.rate - 1) / s.rate

/-! ### Zones -/

/-- The die that homes a line: the die that owns the range, or the die that adopted its channel group (R16, R406). -/
def State.homeDie (s : State) (pa : Nat) : Nat :=
  let d := pa / dieBytes
  let g := pa % dieBytes / 256 % 32 / 8
  match s.dies.find? fun e => e.2.adopted.contains (d, g) with
  | some e => e.1
  | none => d

/-- The windows of 65,536 cycles that have ended at the home of a zone (R243). -/
def State.window (s : State) (z : Nat) : Nat := s.ran (s.homeDie (z * 0x200000)) 0 / cycles 65536
/-- A zone; one that nothing has touched has been reviewed up to now. -/
def State.zone (s : State) (z : Nat) : Zone := (mget s.zones z).getD { Zone.reset with reviewed := s.window z }
def State.updZone (s : State) (z : Nat) (f : Zone → Zone) : State := { s with zones := mput s.zones z (f (s.zone z)) }

/-! ### Words and bytes -/

def ofNat64 (n : Nat) : Word := BitVec.ofNat 64 n
/-- The bytes of a natural, little-endian (R3). -/
def toBytes : Nat → Nat → List Byte
  | 0, _ => []
  | k + 1, n => BitVec.ofNat 8 n :: toBytes k (n / 256)
/-- The natural that bytes hold, little-endian (R3). -/
def ofBytes : List Byte → Nat
  | [] => 0
  | b :: r => b.toNat + 256 * ofBytes r
/-- Saturates at a largest value. -/
def satTo (m n : Nat) : Nat := if n ≤ m then n else m
/-- A BitVec field [h:l] as a natural. -/
def fld (w : Word) (lo len : Nat) : Nat := w.toNat / 2 ^ lo % 2 ^ len
/-- A field placed at its position. -/
def at_ (lo v : Nat) : Nat := v * 2 ^ lo
/-- The naturals below n. -/
def upto (n : Nat) : List Nat := List.range n
/-- Inserts into a list kept in rising order without repeats. -/
def insertNat (n : Nat) : List Nat → List Nat
  | [] => [n]
  | k :: r => if n = k then k :: r else if n < k then n :: k :: r else k :: insertNat n r
/-- Sorts naturals, dropping repeats. -/
def sortNat (l : List Nat) : List Nat := l.foldr insertNat []
/-- A 32-bit set as a mask. -/
def maskOf (l : List Nat) : Nat := (sortNat l).foldl (fun a n => a + 2 ^ n) 0

end Sys2Proof.Machine
end

