-- ==== Sys2Proof/Machine/Memory.lean ====
section
/-! DEFINITION. Global memory: bytes in canonical form, the registers in die windows, homes and replicas, translation,
pushes to bound registers, store buffers and their commit points (spec 11, 12, 13, 18, 20). -/
namespace Sys2Proof.Machine

/-! ### Memory as canonical cells -/

/-- The byte at an address: zero where nothing is listed (log 2). -/
def Memory.read : Memory → Nat → Byte
  | [], _ => 0
  | (k, v) :: r, a => if k = a then v else Memory.read r a

/-- The memory without any entry for an address. -/
def Memory.erase : Memory → Nat → Memory
  | [], _ => []
  | (k, v) :: r, a => if k = a then Memory.erase r a else (k, v) :: Memory.erase r a

/-- Writes a byte; writing zero removes the entry. -/
def Memory.write : Memory → Nat → Byte → Memory
  | [], a, v => if v = 0 then [] else [(a, v)]
  | (k, w) :: r, a, v =>
    if a = k then (if v = 0 then Memory.erase r a else (a, v) :: r)
    else if a < k then (if v = 0 then (k, w) :: Memory.erase r a else (a, v) :: (k, w) :: r)
    else (k, w) :: Memory.write r a v

/-- Every listed address is above `lo`, in rising order, and no listed byte is zero. -/
def Memory.wfFrom : Nat → Memory → Bool
  | _, [] => true
  | lo, (k, v) :: r => lo ≤ k && v != 0 && Memory.wfFrom (k + 1) r

/-- The canonical form: equal memories are equal lists. -/
def Memory.wf (m : Memory) : Bool := Memory.wfFrom 0 m

/-- Writes consecutive bytes. -/
def Memory.writeBytes (m : Memory) (a : Nat) : List Byte → Memory
  | [] => m
  | b :: r => Memory.writeBytes (m.write a b) (a + 1) r

/-! ### Die windows (R254) -/

def winBase : Nat := 0xF00000000000
def winSize : Nat := 0x1000000000
def portBase : Nat := 0xF80000000000

/-- The bucket of a line number (R238). -/
def bucketOf (l : Nat) : Nat := (l % 256) ^^^ (l / 2 ^ 8 % 256) ^^^ (l / 2 ^ 16 % 256) ^^^ (l / 2 ^ 24 % 32)
/-- SLICE of a bucket-table entry; at reset bucket b maps to b mod 16 (R238). -/
def sliceOf (t : Map Nat) (b : Nat) : Nat := (mget t b).getD (b % 16)

/-- The die whose controller block holds a region's registers (R424). -/
def regionDie (r : Nat) : Nat := 32 * (r / 4) + 2 * (r % 4)

/-- A channel status register (R422). -/
def chanWord (c : Chan) : Word := ofNat64 (at_ 48 c.uncorr + at_ 16 c.corr + bit c.ovf)
def State.chan (s : State) (k : Nat) : Chan := (mget s.chans k).getD ⟨0, 0, false⟩

/-- Die d still homes its channel slot n: no die has adopted the channel's group (R406). -/
def State.homesChan (s : State) (d n : Nat) : Bool := !s.dies.any fun e => e.2.adopted.contains (d, n / 8)

/-- The 8-byte register at an offset of die d's window that is a multiple of 8; zero where none lies (R370, R402, R422 to R424, R436). -/
def dieReg (s : State) (d off : Nat) : Word :=
  let x := s.die d
  if off = 0x08 then x.dcarg
  else if off = 0x10 then ofNat64 (at_ 8 x.dcres + bit x.dcbusy.isSome)
  else if off = 0x18 then ofNat64 x.elcount
  else if off = 0x20 then ofNat64 x.drtime
  else if off = 0x28 then ofNat64 (at_ 32 x.drpois + at_ 8 (bit x.drforced) + x.drstate)
  else if off = 0x30 then ofNat64 x.slthr
  else if off = 0x38 then x.slret.setWidth 64
  else if off = 0x40 then ofNat64 (x.inval.toNat + at_ 2 (bit x.invalBusy))
  else if 0x1000 ≤ off && off < 0x1800 then
    match x.elog[(off - 0x1000) / 32]? with
    | some e =>
      if off % 32 = 0 then ofNat64 e.pa else if off % 32 = 8 then ofNat64 (at_ 32 e.ctx + at_ 16 e.src)
      else if off % 32 = 16 then ofNat64 e.seq else 0
    | none => 0
  else if 0x2000 ≤ off && off < 0x2100 then ofNat64 (mcount x.slcerr ((off - 0x2000) / 8))
  else if 0x4000 ≤ off && off < 0x4100 then
    if s.homesChan d ((off - 0x4000) / 8) then chanWord (s.chan (32 * d + (off - 0x4000) / 8)) else 0
  else if 0x4100 ≤ off && off < 0x4200 then
    match x.adopted[(off - 0x4100) / 64]? with
    | some (h, g) => chanWord (s.chan (32 * h + 8 * g + (off - 0x4100) / 8 % 8))
    | none => 0
  else if off = 0x4300 then ofNat64 x.chthr
  else if 0x5000 ≤ off && off < 0x5020 && regionDie (regionOf d) = d then
    let r := s.region (regionOf d)
    if off = 0x5000 then ofNat64 r.limitNext
    else if off = 0x5008 then ofNat64 (at_ 32 r.defer + r.last)
    else if off = 0x5010 then ofNat64 (at_ 32 r.alarms + at_ 1 (bit r.hold) + bit r.stretch)
    else ofNat64 r.holdcapNext
  else if 0x101000 ≤ off && off < 0x101028 then
    ofNat64 (([x.fill, x.hit, x.fwd, x.coll, x.dchg][(off - 0x101000) / 8]?).getD 0)
  else if 0x100000 ≤ off && off < 0x100200 then
    let t := if off < 0x100100 then x.homeB else x.replB
    ofNat64 (ofBytes ((upto 8).map fun i => BitVec.ofNat 8 (sliceOf t (off % 256 + i))))
  else 0

/-- A byte of a mapped window. -/
def windowByte (s : State) (pa : Nat) : Byte :=
  if pa < portBase then
    let o := pa - winBase
    (toBytes 8 (dieReg s (o / winSize) (o % winSize / 8 * 8)).toNat)[o % 8]?.getD 0
  else 0

/-! ### Reading physical memory -/

def frameSize : Nat := 1179648

/-- The save frame that holds an address. -/
def State.frameAt (s : State) (pa : Nat) : Option (Nat × Frame) := s.frames.find? fun e => e.1 ≤ pa && pa < e.1 + frameSize

/-- The byte at a physical address (R16, R17, R369). -/
def State.byte (s : State) (pa : Nat) : Byte :=
  if panelEnd ≤ pa then (if winBase ≤ pa then windowByte s pa else 0)
  else match s.frameAt pa with
    | some (base, f) => (mget f.cells pa).getD (Config.frameByte f.save (pa - base))
    | none => s.mem.read pa

/-- n consecutive bytes. -/
def State.bytes (s : State) (pa : Nat) : Nat → List Byte
  | 0 => []
  | k + 1 => s.byte pa :: State.bytes s (pa + 1) k

/-- The little-endian value of n bytes. -/
def State.phys (s : State) (pa n : Nat) : Nat := ofBytes (s.bytes pa n)

/-- The line of an address (R237). -/
def lineOf (pa : Nat) : Nat := pa / 256 * 256

/-- Some byte of the access lies on a poisoned line (R405). -/
def State.poisoned (s : State) (pa n : Nat) : Bool := s.poison.any fun l => l < pa + n && pa < l + 256

/-! ### Homes, caches, replicas -/

/-- Crossings between two dies (R378). -/
def crossings (a b : Nat) : Nat := (absDiff (dieCol a) (dieCol b) + absDiff (dieRow a) (dieRow b)) / 2

/-- The nearest of some dies: fewest crossings, then lowest index (R241). -/
def nearest (d : Nat) : List Nat → Option Nat
  | [] => none
  | h :: r =>
    match nearest d r with
    | none => some h
    | some k => if crossings d h < crossings d k || (crossings d h = crossings d k && h < k) then some h else some k

/-- The degree of a code (R240). -/
def degreeOf : Nat → Nat
  | 0 => 0 | 1 => 1 | 2 => 2 | 3 => 4 | 4 => 8 | 5 => 16 | _ => 127

def zoneOf (pa : Nat) : Nat := pa / 0x200000

/-! ### The L1 caches (R234, R235) -/

/-- The lines that the bytes of a buffer's entries lie on. -/
def bufLines (l : List SEntry) : List Nat := sortNat (l.flatMap fun e => (upto e.data.length).map fun i => lineOf (e.pa + i))

/-- The lines of a block's uncommitted data in the ways of a core, one entry for each buffer that holds the line. -/
def Block.dirtyOn (b : Block) (c : Nat) : List Nat :=
  (if b.core = c then bufLines b.sbuf else []) ++ b.weaves.flatMap fun w => if w.2.core = c then bufLines w.2.sbuf else []

/-- The lines of uncommitted data in the ways of a core (R234). -/
def dirtyLines (s : State) (c : Nat) : List Nat := s.blocks.flatMap fun b => b.2.dirtyOn c

/-- The L1 set of a line: physical address bits [10:8] (R234). -/
def l1Set (line : Nat) : Nat := line / 256 % 8

/-- Ways of a set that lines and uncommitted data share: all 8, or 6 while ways 6 and 7 are lent to spilled registers (R234). -/
def Core.ways (x : Core) : Nat := if x.lent.isEmpty then 8 else 6

/-- Keeps the lines of a set within n ways, where the lines of `busy` take ways of their own: the least recently used line without
uncommitted data goes first (R234). -/
def l1Trim (n : Nat) (busy : List Nat) (set : Nat) (l1 : List (Nat × LineSt)) : List (Nat × LineSt) :=
  let here := l1.filter fun e => l1Set e.1 = set
  let extra := (busy.filter fun x => l1Set x = set && !here.any fun e => e.1 = x).length
  let free := here.filter fun e => !busy.contains e.1
  let go := (free.reverse.take (here.length + extra - n)).map Prod.fst
  l1.filter fun e => !go.contains e.1

/-- The core holds a binding on the line (R235). -/
def boundOn (s : State) (c line : Nat) : Bool :=
  s.blocks.any fun b => b.2.weaves.any fun w => w.2.core = c && w.2.fibres.any fun f => f.2.binds.any fun x => lineOf x.2.pa = line

/-- Some core holds a binding on the line, and so is registered at the home as a bound sharer of it, whether or not its L1 holds it: no L1 holds such
a line in M or E (R235). -/
def boundAny (s : State) (line : Nat) : Bool :=
  s.blocks.any fun b => b.2.weaves.any fun w => w.2.fibres.any fun f => f.2.binds.any fun x => lineOf x.2.pa = line

/-- A probe of a line reaches a core: a clean copy in B takes the new data, is shared and stays, any other goes to I, and a pending miss whose reply
has left the home holds the probe (R235, R249). -/
def Core.probed (x : Core) (line : Nat) (bound : Bool) : Core :=
  { x with l1 := x.l1.filterMap fun e => if e.1 != line then some e else if bound && e.2 != .m then some (line, .s) else none
           misses := x.misses.map fun m => if m.line = line && m.replied then { m with held := m.held + 1 } else m }

/-- The cores that a test selects take a probe. -/
def probeAll (s : State) (line : Nat) (p : Nat → Bool) : State :=
  { s with cores := mmap s.cores fun c x => if p c then x.probed line (boundOn s c line) else x }

/-! ### Home and replica slices (R237 to R242) -/

/-- The slice and the set of a line in the slices that a bucket table governs (R238, R239); which bits of the line number select the set is the
model's choice (log 44). -/
def slicePlace (t : Map Nat) (line : Nat) : Nat × Nat :=
  let l := line % dieBytes / 256
  (sliceOf t (bucketOf l), l % 512)

/-- A line becomes the most recently used one of its set among the lines that one die's slices hold; the line that a set of `ways` ways has no
place for is answered: the least recently used one (log 44). -/
def sliceInstall (t : Map Nat) (ways d line : Nat) (l : List (Nat × Nat)) : List (Nat × Nat) × Option Nat :=
  let rest := l.filter fun e => e != (d, line)
  let set := rest.filter fun e => e.1 = d && slicePlace t e.2 = slicePlace t line
  if set.length < ways then ((d, line) :: rest, none)
  else match set.getLast? with
    | some v => ((d, line) :: rest.filter fun e => e != v, some v.2)
    | none => ((d, line) :: rest, none)

/-- A home slice evicts a line: its copies and replicas are invalidated first, and dirty data goes to the channel. Bound sharers stay registered in an
entry without data; the copies of their cores go with the others, an eviction that is silent to the binding (R235), or a copy could outlive the binding
and have no entry in the directory (R237; log 44). -/
def homeEvict (s : State) (line : Nat) : State :=
  let s := { s with replicas := s.replicas.filter fun r => r.2 != line, sharers := s.sharers.filter fun r => r.2.1 != line
                    homeDirty := s.homeDirty.filter fun l => l != line }
  { s with cores := mmap s.cores fun _ x => x.probed line false }

/-- The home slice of a line serves it (R237). -/
def homeTouch (s : State) (line : Nat) : State :=
  let d := s.homeDie line
  match sliceInstall (s.die d).homeB 12 d line s.homeLines with
  | (l, none) => { s with homeLines := l }
  | (l, some v) => homeEvict { s with homeLines := l } v

/-- Dirty data of a line reaches its home slice, which its channel does not hold yet (R235, R403). -/
def toHome (s : State) (line : Nat) : State :=
  let s := homeTouch s line
  { s with homeDirty := insertNat line s.homeDirty }

/-- Some core that a test selects holds the line dirty. -/
def dirtyIn (s : State) (line : Nat) (p : Nat → Bool) : Bool :=
  s.cores.any fun e => p e.1 && e.2.l1.any fun l => l.1 = line && l.2 = .m

/-- Probes the cores that a test selects; dirty data goes home (R235). -/
def probeIf (s : State) (line : Nat) (p : Nat → Bool) : State :=
  if dirtyIn s line p then toHome (probeAll s line p) line else probeAll s line p

/-- Probes every core but one. -/
def dropL1 (s : State) (line : Nat) (keep : Option Nat) : State := probeIf s line fun c => some c != keep

/-- The owner of a line gives up its ownership, and dirty data goes home (R235). -/
def giveUp (s : State) (line : Nat) : State :=
  let t := { s with cores := mmap s.cores fun _ x =>
      { x with l1 := x.l1.map fun l => if l.1 = line && (l.2 = .m || l.2 = .e) then (line, .s) else l } }
  if dirtyIn s line fun _ => true then toHome t line else t

/-- Changes the lines of a core's L1; a dirty line that it no longer holds dirty is written back (R235). -/
def setL1 (s : State) (c : Nat) (f : List (Nat × LineSt) → List (Nat × LineSt)) : State :=
  let old := (s.core c).l1
  let new := f old
  ((old.filter fun e => e.2 = .m && !new.contains e).map Prod.fst).foldl toHome (s.updCore c fun x => { x with l1 := new })

/-- Installs a line in the L1 of a core as most recently used (R234). -/
def l1Install (s : State) (c line : Nat) (st : LineSt) : State :=
  setL1 s c fun l => l1Trim (s.core c).ways (dirtyLines s c) (l1Set line) ((line, st) :: l.filter fun e => e.1 != line)

/-- Ways 6 and 7 of a core are lent: the lines that the other six cannot hold are written back and leave (R234). -/
def lendWays (s : State) (c : Nat) : State :=
  setL1 s c fun l => (upto 8).foldl (fun l set => l1Trim 6 (dirtyLines s c) set l) l

/-- A die's replica slices hold a line; one that is evicted for capacity leaves its die on the holder list (R239, R241). -/
def replInstall (s : State) (d line : Nat) : State :=
  { s with replicas := (sliceInstall (s.die d).replB 8 d line s.replicas).1 }

/-- A read from die r is counted and served by the home, a replica or a holder (R241). -/
def readServe (s : State) (r line : Nat) : State :=
  let h := s.homeDie line
  let z := zoneOf line
  let s := s.updZone z fun x => { x with reads := x.reads + 1 }
  if h = r then homeTouch s line
  else
    let s := s.updZone z fun x => { x with readers := insertNat r x.readers }
    let x := s.zone z
    let fill (s : State) (d : Nat) : State :=
      replInstall (homeTouch ((s.updDie d fun y => { y with fill := (y.fill + 1) % 2 ^ 64 }).updZone z fun x =>
        { x with fill := satTo 4095 (x.fill + 1) }) line) d line
    if s.replicas.contains (r, line) then
      replInstall ((s.updDie r fun y => { y with hit := (y.hit + 1) % 2 ^ 64 }).updZone z fun x => { x with whit := x.whit + 1 }) r line
    else if x.holders.contains r then fill s r
    else if x.holders.length < degreeOf x.deg then
      fill (s.updZone z fun x => { x with holders := x.holders ++ [r] }) r
    else match nearest r x.holders with
      | none => homeTouch s line
      | some d =>
        let s := if s.replicas.contains (d, line) then replInstall s d line else fill s d
        let s := { s with sharers := (d, line, r) :: s.sharers.filter fun e => e != (d, line, r) }
        (s.updDie d fun y => { y with fwd := (y.fwd + 1) % 2 ^ 64 }).updZone z fun x => { x with wfwd := x.wfwd + 1 }

/-- A read of a line from die r, by whatever agent: an owner gives up its ownership (R235, R241). -/
def readMiss (s : State) (r line : Nat) : State := giveUp (readServe s r line) line

/-- The home slice of a line, as 32 × die + slice (R238). -/
def homePlace (s : State) (line : Nat) : Nat := 32 * s.homeDie line + (slicePlace (s.die (s.homeDie line)).homeB line).1

/-- The slice that a read of a line from die r goes to, as 32 × die + slice with replica slices from 16 (R238, R239, R241). -/
def readPlace (s : State) (r line : Nat) : Nat :=
  let h := s.homeDie line
  let x := s.zone (zoneOf line)
  let home := homePlace s line
  let repl (d : Nat) : Nat := 32 * d + 16 + (slicePlace (s.die d).replB line).1
  if h = r then home
  else if s.replicas.contains (r, line) || x.holders.contains r || x.holders.length < degreeOf x.deg then repl r
  else match nearest r x.holders with
    | none => home
    | some d => repl d

/-! ### Deadline fields (R384) -/

/-- The deadline field of a packet sent now, and the capped flag. -/
def deadlineField (now dl : Nat) : Nat × Bool :=
  if dl ≤ now + 64 * (2 ^ 15 - 1) then (dl / 64 % 2 ^ 16, false) else ((now / 64 + (2 ^ 15 - 1)) % 2 ^ 16, true)

/-- The deadline that a field stands for at a queue, in units of 64 ticks: the value in [now − 2^15, now + 2^15), shifted up by 2^16 to stay
natural. -/
def readField (now f : Nat) : Nat :=
  let lo := now / 64 + 2 ^ 15
  lo + (f + 2 ^ 16 - lo % 2 ^ 16) % 2 ^ 16

/-- The deadline field of a packet sent now, where it carries one and its capped flag is clear. -/
def fieldOf (now : Nat) (dl : Option Nat) : Option Nat := dl.bind fun d => if (deadlineField now d).2 then none else some (deadlineField now d).1

/-- The mark of a packet that an agent of a block on a core sends now (R384). -/
def packetOf (s : State) (uid core : Nat) : Option Packet :=
  (s.block? uid).bind fun b => (fieldOf s.time b.deadline).map fun field => { ctx := b.ctx, idx := b.idx, core, record := b.record, field }

/-! ### Miss entries (R247 to R249) -/

def Core.miss? (x : Core) (line : Nat) : Option Miss := x.misses.find? fun m => m.line = line
def Core.updMiss (x : Core) (line : Nat) (f : Miss → Miss) : Core := { x with misses := x.misses.map fun m => if m.line = line then f m else m }

/-- A core asks for a line: an entry for a request to the slice that R241 or R242 names. -/
def addMiss (s : State) (uid c line : Nat) (own : Bool) : State :=
  let dest := if own then homePlace s line else readPlace s (coreDie c) line
  let pkt := packetOf s uid c
  s.updCore c fun x => { x with misses := x.misses ++ [{ line, uid, dest, own, replied := false, held := 0, ops := [], pkt }] }

/-- The misses of a core to one slice, in order, up to the one for a line: requests and replies keep this order (R247). -/
def missesTo (s : State) (c line : Nat) : List Miss :=
  match (s.core c).miss? line with
  | none => []
  | some m =>
    let l := (s.core c).misses.filter fun x => x.dest = m.dest
    l.take (l.findIdx (fun x => x.line = line) + 1)

/-- A core holds a line, or is to receive it by a reply that no held probe will invalidate (R235, R249). -/
def Core.takesLine (x : Core) (line : Nat) : Bool :=
  x.l1.any (fun l => l.1 = line) || x.misses.any fun m => m.line = line && m.replied && m.held = 0

/-- The state in which a line that a core has read enters its L1: S where there may be copies elsewhere, a bound sharer's among them (R235). -/
def readState (s : State) (c line : Nat) : LineSt :=
  if boundAny s line || s.cores.any (fun e => e.1 != c && e.2.takesLine line) || s.replicas.any (fun r => r.2 = line) then .s else .e

/-- A packet is delivered now after its deadline (R386). -/
def Packet.isLate (x : Packet) (now : Nat) : Bool := 64 * readField now x.field < now + 64 * 2 ^ 16

/-- The reply of a miss arrives: its entry is free, the line is installed, and a probe held meanwhile is then applied (R249). One that comes after its
deadline is counted as the step ends (R386). -/
def deliverReply (s : State) (c line : Nat) : State :=
  match (s.core c).miss? line with
  | none => s
  | some m =>
    if !m.replied then s
    else
      let s := { s with lates := s.lates ++ (m.pkt.filter fun x : Packet => x.isLate s.time).toList }
      let s := s.updCore c fun x => { x with misses := x.misses.filter fun m => m.line != line }
      let s := if (s.core c).l1.any fun e => e.1 = line then s
        else l1Install s c line (readState s c line)
      if m.held = 0 then s else probeIf s line fun x => x = c

/-- The replies up to one arrive, in order. -/
def deliverThrough (s : State) (c line : Nat) : State := (missesTo s c line).foldl (fun s m => deliverReply s c m.line) s

/-- The replies of a line that are on their way to cores arrive. -/
def repliesArrive (s : State) (line : Nat) : State :=
  s.cores.foldl (fun s e => if e.2.misses.any fun m => m.line = line && m.replied then deliverThrough s e.1 line else s) s

/-- The effect of a read by a core on the caches, whose reply comes at once (R234, R235, R241): no value changes. -/
def readTouch (s : State) (c pa : Nat) : State :=
  if panelEnd ≤ pa then s
  else
    let line := lineOf pa
    match (s.core c).l1.find? fun e => e.1 = line with
    | some e => l1Install s c line e.2
    | none =>
      let s := readMiss s (coreDie c) line
      l1Install s c line (readState s c line)

/-- A collapse of a line's replicas, counted once for each holder: each holder invalidates its replica and the L1 copies of its own die and of
the dies it forwarded to, those of the core `keep` apart (R242). -/
def collapseLine (s : State) (line : Nat) (keep : Option Nat) : State :=
  let ds := (s.replicas.filter fun r => r.2 = line).map Prod.fst
  if ds.isEmpty then s
  else
    let fs := (s.sharers.filter fun r => r.2.1 = line).map fun r => r.2.2
    let s := { s with replicas := s.replicas.filter fun r => r.2 != line, sharers := s.sharers.filter fun r => r.2.1 != line }
    let s := probeIf s line fun c => some c != keep && (ds.contains (cacheDie c) || fs.contains (cacheDie c))
    let s := s.updDie (s.homeDie line) fun y => { y with coll := (y.coll + ds.length) % 2 ^ 64 }
    s.updZone (zoneOf line) fun x => { x with coll := satTo 4095 (x.coll + ds.length), wcoll := x.wcoll + ds.length }

/-- A core owns a line, M or E, of which there is no bound sharer (R235). -/
def ownsLine (s : State) (c line : Nat) : Bool := !boundAny s line && (s.core c).l1.any fun e => e.1 = line && e.2 != .s

/-- The home grants ownership of a line: replicas collapse and the other cores are probed (R235, R242). A probe that overtakes a reply of the line is
held until the reply has arrived and is applied then, and the store takes effect only after that (R249), so these replies arrive first. Atomics at the
home and writes of engines and devices count among the zone's ownership requests as stores do, on which R243 is silent (log 74). -/
def serveOwn (s : State) (c : Option Nat) (line : Nat) : State :=
  let s := homeTouch ((repliesArrive s line).updZone (zoneOf line) fun x => { x with owns := x.owns + 1 }) line
  dropL1 (collapseLine s line c) line c

/-- Ownership of a line for a store by a core, or for an agent without an L1 (R235, R242). Where the line has bound sharers the home takes the data and
pushes it, and the storing core's copy is shared with theirs. -/
def ownTouch (s : State) (c : Option Nat) (pa : Nat) : State :=
  if panelEnd ≤ pa then s
  else
    let line := lineOf pa
    let held : Bool := match c with | some c => ownsLine s c line | none => false
    let s := if held then s else serveOwn s c line
    match c with
    | some c => if boundAny s line then toHome (l1Install s c line .s) line else l1Install s c line .m
    | none => toHome s line

/-! ### Pushes to bound registers (R264, R268) -/

/-- The value of a bound word as the binding extends it (R256). -/
def Binding.extend (b : Binding) (v : Nat) : Word :=
  if b.wide then ofNat64 v else if b.sext then (BitVec.ofNat 32 v).signExtend 64 else ofNat64 (v % 2 ^ 32)
def Binding.size (b : Binding) : Nat := if b.wide then 8 else 4

/-- The condition of `bwait` at the width of its type (R268). -/
def bwaitHolds (c : BwaitCond) (ty : Ty) (x v : Word) : Bool :=
  let w := if ty = .s64 || ty = .n64 then 64 else 32
  let a := x.toNat % 2 ^ w
  let b := v.toNat % 2 ^ w
  let lt : Bool := if ty = .s32 || ty = .s64 then
      decide ((BitVec.ofNat w a).toInt < (BitVec.ofNat w b).toInt) else decide (a < b)
  match c with
  | .eq => a = b
  | .ne => a ≠ b
  | .ge => !lt
  | .lt => lt
  | .any => a &&& b != 0

/-- Makes a suspended batch runnable; it is taken at once when no batch is current (R180, log 13): of several that one event wakes, the first (log 69). -/
def Weave.wake (w : Weave) (i : Nat) : Weave :=
  match w.batches[i]? with
  | some b =>
    match b.state with
    | .wait x => { w with batches := w.batches.set i { b with state := .woke x }, cur := some (w.cur.getD i) }
    | _ => w
  | none => w

/-- Latches the participants of suspended `bwait` batches that test register `n` of a slot, and wakes those all latched (R268). -/
def Weave.latch (w : Weave) (slot n : Nat) (x : Word) : Weave :=
  (upto w.batches.length).foldl (fun w i =>
    match w.batches[i]? with
    | some b =>
      match b.state with
      | .wait (.bwait r c ty vs l) =>
        match vs.find? fun e => e.1 = slot with
        | some e =>
          if r = n && bwaitHolds c ty x e.2 then
            let l := insertNat slot l
            let w := { w with batches := w.batches.set i { b with state := .wait (.bwait r c ty vs l) } }
            if vs.all fun e => l.contains e.1 then w.wake i else w
          else w
        | none => w
      | _ => w
    | none => w) w

/-- A buffered store writes a byte of [pa, pa + n). -/
def SEntry.touches (e : SEntry) (pa n : Nat) : Bool := e.pa < pa + n && pa < e.pa + e.data.length

/-- The buffer holds a store to a bound word that follows every push that arrives now, and that the binding already shows: one that its fibre has made
itself, or that it read at its registration (R258, R261). -/
def ownLater (buf : List SEntry) (wx sl : Nat) (b : Binding) : Bool :=
  buf.any fun e => ((e.who = some (wx, sl) && !e.helper) || b.read.contains e.seq) && e.touches b.pa b.size

/-- One fibre's bindings take a push of memory as it now stands over [pa, pa + n), but for words of which they already show a later store that is still
buffered (R261, R264). -/
def Fibre.pushed (s : State) (buf : List SEntry) (wx sl pa n : Nat) (f : Fibre) : Fibre :=
  { f with binds := mmap f.binds fun _ b =>
      if b.pa < pa + n && pa < b.pa + b.size && !ownLater buf wx sl b then
        { b with pending := some (b.extend (s.phys b.pa b.size)), poison := s.poisoned b.pa b.size }
      else b }

/-- A weave's bindings take a push, and waiting `bwait`s test the value (R264, R268). -/
def Weave.pushed (s : State) (buf : List SEntry) (wx pa n : Nat) (w : Weave) : Weave :=
  let hit := w.fibres.flatMap fun f => f.2.binds.filterMap fun b =>
    if b.2.pa < pa + n && pa < b.2.pa + b.2.size then some (f.1, b.1, b.2.extend (s.phys b.2.pa b.2.size)) else none
  if hit.isEmpty then w
  else hit.foldl (fun w h => w.latch h.1 h.2.1 h.2.2) { w with fibres := mmap w.fibres fun sl f => f.pushed s buf wx sl pa n }

/-- Every binding of a changed word takes the value before the store takes effect (R264). -/
def push (s : State) (pa n : Nat) : State :=
  { s with blocks := mmap s.blocks fun _ b => { b with weaves := mmap b.weaves fun k w => w.pushed s b.sbuf k pa n } }

/-- The home marks a line as poisoned; a binding on it takes that at its next refresh (R275, R405). -/
def poisonLine (s : State) (line : Nat) : State :=
  let s := { s with poison := insertNat line s.poison }
  { s with blocks := mmap s.blocks fun _ b => { b with weaves := mmap b.weaves fun k w =>
      { w with fibres := mmap w.fibres fun sl f => f.pushed s b.sbuf k sl line 256 } } }

/-! ### Stores at the home -/

/-- What the bytes of a window register hold that a narrower store leaves alone: nothing for the fields that writing 1 clears. -/
def windowOld (s : State) (d off : Nat) : Word :=
  if (0x4000 ≤ off && off < 0x4200) || off = 0x5008 || off = 0x5010 then 0 else dieReg s d off

/-- The registers of a window that a store touches, each with its new 8 bytes: offset and value. -/
def windowWrites (s : State) (o : Nat) (data : List Byte) : List (Nat × Word) :=
  let d := o / winSize
  let lo := o % winSize / 8
  let n := (o % winSize + data.length + 7) / 8 - lo
  (upto n).map fun i =>
    let off := 8 * (lo + i)
    let old := toBytes 8 (windowOld s d off).toNat
    (off, ofNat64 (ofBytes ((upto 8).map fun k =>
      if o % winSize ≤ off + k && off + k < o % winSize + data.length then data[off + k - o % winSize]?.getD 0 else old[k]?.getD 0)))

/-- Bytes of memory written, with frames marked as touched and windows turned into register writes. -/
def rawWrite (s : State) (pa : Nat) (data : List Byte) : State :=
  if winBase ≤ pa then
    if pa < portBase then
      (windowWrites s (pa - winBase) data).foldl (fun s e => s.post (.registerWrite ((pa - winBase) / winSize) e.1 e.2)) s
    else s
  else if panelEnd ≤ pa then s
  else match s.frameAt pa with
    | some (base, f) => { s with frames := mput s.frames base { f with touched := true, cells := (upto data.length).foldl (fun m i => mput m (pa + i) (data[i]?.getD 0)) f.cells } }
    | none => { s with mem := s.mem.writeBytes pa data }

/-- A store that writes all of a poisoned line clears its mark (R405). -/
def clearPoison (s : State) (pa n : Nat) : State :=
  { s with poison := s.poison.filter fun l => !(pa ≤ l && l + 256 ≤ pa + n) }

/-- A store takes effect at its home: ownership, the bytes, the pushes (R242, R264, R280). -/
def homeWrite (s : State) (c : Option Nat) (pa : Nat) (data : List Byte) : State :=
  let s := clearPoison (rawWrite (ownTouch s c pa) pa data) pa data.length
  push s pa data.length

/-- A write of the device itself, which no context tag guards. -/
def devWrite (s : State) (pa : Nat) (data : List Byte) : State := homeWrite s none pa data

/-- The home's check of the context tag (R367): an untagged zone refuses nothing (log 14). -/
def tagOk (s : State) (ctx pa : Nat) : Bool :=
  panelEnd ≤ pa || (match (s.zone (zoneOf pa)).tag with | some t => t = ctx | none => true)

/-- Appends an error-log entry of a die (R370). -/
def logError (s : State) (d : Nat) (e : ElogEntry) : State :=
  s.updDie d fun x =>
    let i := x.elcount % 64
    { x with elcount := x.elcount + 1, elog := if i < x.elog.length then x.elog.set i e else x.elog ++ [e] }

/-! ### Trap records (R350, R351, R435) -/

/-- The fields of a record (R351). -/
structure Rec where
  block : Nat
  cause : Nat
  inner : Nat
  flags : Nat
  step : Nat
  slot : Nat
  core : Nat
  pc : Word
  rpc : Word
  addr : Word
  aux : Word
  lrec : Nat
  mask : Nat
  deriving DecidableEq, Repr

def recordBytes (seq : Nat) (r : Rec) : List Byte :=
  toBytes 4 seq ++ toBytes 4 r.block ++ toBytes 1 r.cause ++ toBytes 1 r.inner ++ toBytes 1 r.flags ++ toBytes 1 r.step
    ++ toBytes 2 r.slot ++ toBytes 2 r.core ++ toBytes 8 r.pc.toNat ++ toBytes 8 r.rpc.toNat ++ toBytes 8 r.addr.toNat
    ++ toBytes 8 r.aux.toNat ++ toBytes 8 (r.lrec % 2 ^ 48) ++ toBytes 4 r.mask ++ toBytes 4 0

/-- Where record `seq` lies (R350). -/
def Ctx.recAddr (x : Ctx) (seq : Nat) : Nat := x.ring + 64 * (seq % 2 ^ x.ringLog)

/-- The record after `seq`: 1 to 2^31 − 1, then 1 again (R350). -/
def nextSeq (seq : Nat) : Nat := if seq = 2 ^ 31 - 1 then 1 else seq + 1

/-- Sends a message of the service on a session, with the header of R437: its version is the session's, or 0.0 without one. -/
def sendUz (s : State) (session type status : Nat) (req : Word) (body : List Byte) : State :=
  let v := (mget s.service.sessions session).getD ⟨false, 0, 0⟩
  s.send (.uz type ⟨{ magic := 0x5A55, major := BitVec.ofNat 8 v.major, minor := BitVec.ofNat 8 v.minor, status := BitVec.ofNat 16 status,
                      session := ofNat64 session, req, len := BitVec.ofNat 32 body.length, zero := 0 }, body⟩)

/-- The context word with which a body begins (R440). -/
def ctxWord (ctx : Nat) : List Byte := toBytes 8 (ctx % 65536)

/-- Writes a record and rings the doorbell; an awaited record that the ring wraps over completes as a failure (R350, R352, R435).
With `await` the record awaits completion, and the service forwards it to the session in a FAULT message, whose REQ is the record's number (R441; log 10). -/
def writeRecord (s : State) (ctx : Nat) (r : Rec) (await : Bool) : State × Nat :=
  match s.ctx? ctx with
  | none => (s, 0)
  | some x =>
    let q := x.seq
    let s := devWrite s (x.recAddr q) (recordBytes q r)
    let s := devWrite s x.bell (toBytes 8 (s.phys x.bell 8 + 1))
    let s := s.updCtx ctx fun x => { x with seq := nextSeq q }
    let s := (x.awaited.filter fun o => o % 2 ^ x.ringLog = q % 2 ^ x.ringLog).foldl (fun s o => s.post (.recordCompletion ctx o)) s
    if await then
      (sendUz (s.updCtx ctx fun x => { x with awaited := x.awaited ++ [q] }) x.session 0x0B 0 (ofNat64 q) (ctxWord ctx ++ recordBytes q r), q)
    else (s, q)

/-- The FLAGS byte of a record (R351). -/
def recFlags (side helper ctx ended imprecise relaunched double poison : Bool) : Nat :=
  bit side + at_ 1 (bit helper) + at_ 2 (bit ctx) + at_ 3 (bit ended) + at_ 4 (bit imprecise) + at_ 5 (bit relaunched)
    + at_ 6 (bit double) + at_ 7 (bit poison)

/-! ### Deadlines (R384, R386) -/

/-- A packet with a deadline field is delivered now: one that is late is counted, and with late records enabled it is recorded, with BLOCK, CORE
and LREC of its source (R386). PC and RPC of the record are open. -/
def latePacket (s : State) (x : Packet) : State :=
  if !x.isLate s.time then s
  else
    let s := s.updCtx x.ctx fun y => { y with late := satTo 0xFFFFFFFF (y.late + 1) }
    if ((s.ctx? x.ctx).map fun y => y.flags.getLsbD 1).getD false then
      let v := Config.freeWord s.fresh
      (writeRecord s.tick x.ctx
        { block := x.idx, cause := 0x15, inner := 0, flags := recFlags false false false false true false false false, step := 0xFF,
          slot := 0xFFFF, core := x.core, pc := v, rpc := v, addr := 0, aux := ofNat64 x.field, lrec := x.record.toNat, mask := 0 } false).1
    else s

/-- n packets with the same mark are delivered now; without one they carry no deadline, or their capped flag is set. -/
def latePackets (s : State) (p : Option Packet) : Nat → State
  | 0 => s
  | n + 1 =>
    match p with
    | some x => latePackets (latePacket s x) p n
    | none => s

/-- The late replies of a step are counted. -/
def countLates (s : State) : State := s.lates.foldl latePacket { s with lates := [] }

/-- n packets that a block's agents send, or that their requests cause, are delivered now (R384, R386). -/
def lateDelivery (s : State) (uid core n : Nat) : State := latePackets s (packetOf s uid core) n

/-- The probe of a line's owner and its answer. -/
def ownerPackets (s : State) (line : Nat) : Nat := if s.cores.any fun e => e.2.l1.any fun l => l.1 = line && l.2 != .s then 2 else 0

/-- The packets of a read that goes to the home, a replica or a holder: the request and its reply, those by which a holder fills, and a probe of the
owner (R235, R241, R384). -/
def readPackets (s : State) (r line : Nat) : Nat :=
  let x := s.zone (zoneOf line)
  let owner := ownerPackets s line
  if s.homeDie line = r || s.replicas.contains (r, line) || x.holders.contains r || x.holders.length < degreeOf x.deg then 2 + owner
  else match nearest r x.holders with
    | some d => if s.replicas.contains (d, line) then 3 else 5 + owner
    | none => 2 + owner

/-- The packets of a request for ownership: request and reply, and with its acknowledgement each collapse of a holder, probe of another copy, and push
to a core that holds a binding on the line (R235, R242, R264, R384). -/
def ownPackets (s : State) (c : Option Nat) (line : Nat) : Nat :=
  2 + 2 * ((s.replicas.filter fun r => r.2 = line).length
    + (s.cores.filter fun e => some e.1 != c && e.2.l1.any fun l => l.1 = line).length
    + (s.cores.filter fun e => some e.1 != c && boundOn s e.1 line).length)

/-! ### Requests of cores (R241, R247 to R249) -/

/-- The request of a miss is served. Its reply carries the line as it stands until the reply arrives, since no store takes effect before that
(`serveOwn`, R249). Every packet but that reply, which is still on its way, is delivered now (R386). -/
def serveMiss (s : State) (c line : Nat) : State :=
  match (s.core c).miss? line with
  | none => s
  | some m =>
    if m.replied then s
    else
      let s := latePackets s m.pkt ((if m.own then ownPackets s (some c) line else readPackets s (coreDie c) line) - 1)
      let s := if m.own then serveOwn s (some c) line else readMiss s (coreDie c) line
      s.updCore c fun x => x.updMiss line fun m => { m with replied := true }

/-- The misses up to one are served in order. -/
def serveThrough (s : State) (c line : Nat) : State := (missesTo s c line).foldl (fun s m => serveMiss s c m.line) s

/-- A core's next request for a line goes to a slice: the requests that it has pending there, and one that it has pending for the line, are served and
answered before, in their order (R247). -/
def ahead (s : State) (c line dest : Nat) : State :=
  let ds := dest :: ((s.core c).misses.filter fun m => m.line = line).map Miss.dest
  ((s.core c).misses.filter fun m => ds.contains m.dest).foldl (fun s m => deliverReply (serveMiss s c m.line) c m.line) s

/-- The replies that an operation of a block waits for have arrived. -/
def deliverOps (s : State) (op : Nat) : State :=
  s.cores.foldl (fun s e => (e.2.misses.filter fun m => m.ops.contains op).foldl (fun s m => deliverThrough s e.1 m.line) s) s

/-- A load reads a line: a hit in the L1, or a miss whose entry it takes or shares, and whose request is served as it issues (R241, R248, R249). -/
def loadTouch (s : State) (uid c pa op : Nat) : State :=
  let line := lineOf pa
  if panelEnd ≤ pa || (s.core c).l1.any (fun e => e.1 = line) then readTouch s c pa
  else
    let s := if ((s.core c).miss? line).isSome then s else addMiss s uid c line false
    (serveThrough s c line).updCore c fun x => x.updMiss line fun m => { m with ops := if m.ops.contains op then m.ops else m.ops ++ [op] }

/-- An instruction has left a core with more misses than its 32 entries hold: it waits at its point of issue instead (R248). -/
def missesOver (s : State) (c : Nat) : Bool := decide (32 < (s.core c).misses.length)

/-- A core has no free miss entry: an access that needs one for the time of its step waits at its point of issue (R248). -/
def missesFull (s : State) (c : Nat) : Bool := decide (32 ≤ (s.core c).misses.length)

/-- A read of global memory by an agent of a block on core c whose reply comes at once: the caches, and on a miss the packets of its request, behind
the core's earlier ones. -/
def readBy (s : State) (uid c pa : Nat) : State :=
  if panelEnd ≤ pa || (s.core c).l1.any (fun e => e.1 = lineOf pa) then readTouch s c pa
  else
    let s := ahead s c (lineOf pa) (readPlace s (coreDie c) (lineOf pa))
    lateDelivery (readTouch s c pa) uid c (readPackets s (coreDie c) (lineOf pa))

/-- A binding on a word is registered at the home of its line, and an owner gives up its ownership, the binding core itself too (R235, R256). -/
def bindTouch (s : State) (pa : Nat) : State := if panelEnd ≤ pa then s else giveUp s (lineOf pa)

/-- A read of a line for a block from the die of core c that keeps no copy in the L1 (R241, R252, R384). -/
def readThrough (s : State) (uid c pa : Nat) : State :=
  if panelEnd ≤ pa then s
  else readMiss (lateDelivery s uid c (readPackets s (coreDie c) (lineOf pa))) (coreDie c) (lineOf pa)

/-- Such a read by the core itself, behind its earlier requests to the same slice: an instruction fetch, a prefetch into L2 or the copy engine (R247). -/
def coreRead (s : State) (uid c pa : Nat) : State :=
  if panelEnd ≤ pa then s else readThrough (ahead s c (lineOf pa) (readPlace s (coreDie c) (lineOf pa))) uid c pa

/-- An atomic reads its word at the home and writes nothing: an owner supplies the line (R154, R235, R247, R384). -/
def homeRead (s : State) (uid c pa : Nat) : State :=
  if panelEnd ≤ pa then s
  else
    let s := ahead s c (lineOf pa) (homePlace s (lineOf pa))
    giveUp (homeTouch (lateDelivery s uid c (2 + ownerPackets s (lineOf pa))) (lineOf pa)) (lineOf pa)

/-- A store or an atomic of core c asks the home for a line, behind the core's earlier requests to that slice (R247); a line that the L1 named by `l1`
owns needs no request. -/
def storeAhead (s : State) (l1 : Option Nat) (c pa : Nat) : State :=
  if panelEnd ≤ pa || (match l1 with | some c => ownsLine s c (lineOf pa) | none => false) then s
  else ahead s c (lineOf pa) (homePlace s (lineOf pa))

/-- The packets of a store from core c, whose L1 is to own the line where `l1` names it. -/
def writePackets (s : State) (l1 : Option Nat) (pa : Nat) : Nat :=
  if panelEnd ≤ pa || (match l1 with | some c => ownsLine s c (lineOf pa) | none => false) then 0 else ownPackets s l1 (lineOf pa)

/-- The home refuses a write: its die logs it, and the source core raises event 0x13 (R367). -/
def refuseWrite (s : State) (uid c ctx pa seq : Nat) : State :=
  (logError s (s.homeDie pa) ⟨pa, ctx, c, seq⟩).post (.remoteRefusal ⟨uid, c⟩ pa seq)

/-- A write of a block from core c reaches the home, which refuses it when the tag differs (R367); `l1` is the core whose L1 owns the
line, none for an atomic. -/
def blockWrite (s : State) (uid c : Nat) (l1 : Option Nat) (pa seq : Nat) (data : List Byte) : State :=
  match s.block? uid with
  | none => s
  | some b =>
    let s := storeAhead s l1 c pa
    let s := lateDelivery s uid c (writePackets s l1 pa)
    if tagOk s b.ctx pa then homeWrite s l1 pa data else refuseWrite s uid c b.ctx pa seq

/-! ### Store buffers (R225, R362) -/

/-- Which store buffer: the block's, or the one of a helper weave on a neighbour. -/
inductive Buf where
  | block (uid : Nat)
  | weave (uid widx : Nat)
  deriving DecidableEq, Repr

def Buf.uid : Buf → Nat
  | .block u | .weave u _ => u

/-- The buffer's entries, oldest first. -/
def State.buf (s : State) : Buf → List SEntry
  | .block u => ((s.block? u).map Block.sbuf).getD []
  | .weave u w => ((s.weave? u w).map Weave.sbuf).getD []

def State.setBuf (s : State) (q : Buf) (l : List SEntry) : State :=
  match q with
  | .block u => s.updBlock u fun b => { b with sbuf := l }
  | .weave u w => s.updWeave u w fun x => { x with sbuf := l }

/-- The core whose L1 holds the buffer. -/
def State.bufCore (s : State) : Buf → Nat
  | .block u => ((s.block? u).map Block.core).getD 0
  | .weave u w => ((s.weave? u w).map Weave.core).getD 0

/-- The byte of an entry at an address. -/
def SEntry.byteAt (e : SEntry) (pa : Nat) : Option Byte := if e.pa ≤ pa then e.data[pa - e.pa]? else none

/-- The youngest byte that some entries hold at an address. -/
def youngest (l : List SEntry) (pa : Nat) : Option Byte := l.reverse.findSome? fun e => e.byteAt pa

/-- The runs of bytes that are present from an address on. -/
def runsFrom (a : Nat) : List (Option Byte) → List (Nat × List Byte)
  | [] => []
  | none :: r => runsFrom (a + 1) r
  | some b :: r =>
    match runsFrom (a + 1) r with
    | (p, l) :: t => if p = a + 1 then (a, b :: l) :: t else (a, [b]) :: (p, l) :: t
    | [] => [(a, [b])]

/-- What the stores of a buffer leave on a line: the youngest byte of each address, in runs. A value that a later store of the block has
overwritten never takes effect (R280). -/
def lineRuns (l : List SEntry) (line : Nat) : List (Nat × List Byte) := runsFrom line ((upto 256).map fun i => youngest l (line + i))

/-- The stores to one line take effect at its home as one: ownership, the bytes, the pushes (R242, R264, R280, R281). -/
def lineWrite (s : State) (uid c : Nat) (l : List SEntry) (line : Nat) : State :=
  let rs := lineRuns l line
  let s := storeAhead s (some c) c line
  let s := ownTouch (lateDelivery s uid c (writePackets s (some c) line)) (some c) line
  let s := rs.foldl (fun s r => clearPoison (rawWrite s r.1 r.2) r.1 r.2.length) s
  rs.foldl (fun s r => push s r.1 r.2.length) s

/-- Entries take effect at their homes; the home refuses those whose tag differs (R280, R281, R367). -/
def drain (s : State) (uid c : Nat) (l : List SEntry) : State :=
  match s.block? uid with
  | none => s
  | some b =>
    let bad := l.filter fun e => !tagOk s b.ctx e.pa
    let ok := l.filter fun e => tagOk s b.ctx e.pa
    (bufLines ok).foldl (fun s line => lineWrite s uid c ok line)
      (bad.foldl (fun s e => refuseWrite s uid c b.ctx e.pa e.seq) s)

/-- A commit point of a buffer: its stores take effect, and the block's relaunch window closes (R362, R363). -/
def commitBuf (s : State) (q : Buf) : State :=
  let l := s.buf q
  let s := drain (s.setBuf q []) q.uid (s.bufCore q) l
  s.updBlock q.uid fun b => { b with wopen := false }

/-- A forced commit, counted in sr.ctxc (R362, R366). -/
def forcedCommit (s : State) (q : Buf) : State :=
  let ctx := ((s.block? q.uid).map Block.ctx).getD 0
  (commitBuf s q).updCtx ctx fun x => { x with forced := satTo 0xFFFFF (x.forced + 1) }

/-- Uncommitted data leaves no room for a new line: the block's 32 lines on the core, the core's 48, or the six ways of the line's set are full (R234;
log 44 for the set). -/
def bufFull (s : State) (q : Buf) (line : Nat) : Bool :=
  let l := bufLines (s.buf q)
  let all := dirtyLines s (s.bufCore q)
  let mine := ((s.block? q.uid).map fun b => b.dirtyOn (s.bufCore q)).getD []
  !l.contains line && (32 ≤ mine.length || 48 ≤ all.length || 6 ≤ (all.filter fun x => l1Set x = l1Set line).length)

/-- A fibre's own store discards the pushes that precede it to the words it writes: a refresh never moves a register back (R261). -/
def Fibre.discards (f : Fibre) (pa n : Nat) : Fibre :=
  { f with binds := mmap f.binds fun _ b => if b.pa < pa + n && pa < b.pa + b.size then { b with pending := none, poison := false } else b }

/-- A store enters the buffer with the block's next sequence number, and its line takes a way; a store that the limits of R234 leave no room for
commits the buffer first, and where the stores of other blocks still leave none it is committed with it. -/
def bufStore (s : State) (q : Buf) (pa : Nat) (data : List Byte) (who : Option (Nat × Nat)) (helper : Bool) : State :=
  let s := if bufFull s q (lineOf pa) then forcedCommit s q else s
  let full := bufFull s q (lineOf pa)
  let s := match who with | some (w, sl) => s.updFibre q.uid w sl fun f => f.discards pa data.length | none => s
  let s := s.updBlock q.uid fun b => { b with stseq := b.stseq + 1 }
  let n := ((s.block? q.uid).map fun b => b.stseq.toNat).getD 0
  let s := s.setBuf q (s.buf q ++ [⟨n, pa, data, who, helper⟩])
  if full then commitBuf s q
  else setL1 s (s.bufCore q) fun l => l1Trim (s.core (s.bufCore q)).ways (dirtyLines s (s.bufCore q)) (l1Set (lineOf pa)) l

/-- A byte as an agent sees it: the youngest buffered store, else memory, which is also what a reply on its way to its core carries (R249, R281). -/
def seenByte (s : State) (q : Buf) (pa : Nat) : Byte :=
  match youngest (s.buf q) pa with
  | some b => b
  | none => s.byte pa

/-- n bytes as an agent sees them. -/
def seenBytes (s : State) (q : Buf) (pa : Nat) : Nat → List Byte
  | 0 => []
  | k + 1 => seenByte s q pa :: seenBytes s q (pa + 1) k

def seen (s : State) (q : Buf) (pa n : Nat) : Nat := ofBytes (seenBytes s q pa n)

/-- What is left of an entry once younger bytes [pa, pa + n) have taken effect (R280). -/
def SEntry.outside (e : SEntry) (pa n : Nat) : List SEntry :=
  if pa + n ≤ e.pa || e.pa + e.data.length ≤ pa then [e]
  else (if e.pa < pa then [{ e with data := e.data.take (pa - e.pa) }] else [])
    ++ (if pa + n < e.pa + e.data.length then [{ e with pa := pa + n, data := e.data.drop (pa + n - e.pa) }] else [])

/-- What is left of an entry once some younger ones overwrite it. -/
def SEntry.under (e : SEntry) (l : List SEntry) : List SEntry := l.foldl (fun r g => r.flatMap fun y => y.outside g.pa g.data.length) [e]

/-- The part of an entry that a store to [pa, pa + n) overwrites. -/
def SEntry.inside (e : SEntry) (pa n : Nat) : List SEntry :=
  let lo := max e.pa pa
  let hi := min (e.pa + e.data.length) (pa + n)
  if lo < hi then [{ e with pa := lo, data := (e.data.drop (lo - e.pa)).take (hi - lo) }] else []

/-- Takes the entries that `sel` selects out of a buffer: those, and what stays. A byte that a younger store overwrites never takes effect (R280, R281):
an older entry keeps none that a selected one writes, and of a selected one the bytes that a younger entry writes stay behind that entry, as `left` has
them; they come to light should that entry be discarded (R221). -/
def takeOut (sel : SEntry → Bool) (left : SEntry → SEntry) : List SEntry → List SEntry × List SEntry
  | [] => ([], [])
  | e :: r =>
    let x := takeOut sel left r
    if sel e then (e.under x.2 ++ x.1, (x.2.flatMap fun g => (e.inside g.pa g.data.length).map left) ++ x.2) else (x.1, e.under x.1 ++ x.2)

/-- The selected entries of a buffer take effect, and the others wait on. -/
def commitSome (s : State) (q : Buf) (sel : SEntry → Bool) (left : SEntry → SEntry) : State :=
  let x := takeOut sel left (s.buf q)
  drain (s.setBuf q x.2) q.uid (s.bufCore q) x.1

/-- Stores that the buffer holds to any byte of a word take effect, in program order, before an atomic acts on it (R156). -/
def flushWord (s : State) (q : Buf) (pa n : Nat) : State := commitSome s q (fun e => e.touches pa n) id

/-! ### Translation (R250 to R253) -/

inductive Acc where
  | fetch | load | store | rw | line
  deriving DecidableEq, Repr

/-- The outcome of a translation: an address, or the cause of a trap. -/
inductive Tr where
  | ok (pa : Nat)
  | trap (cause : BitVec 8)
  deriving DecidableEq, Repr

/-- Permissions of a leaf for an access (R250, R360). -/
def Tlb.allows (t : Tlb) : Acc → Bool
  | .fetch => t.x
  | .load => t.r
  | .store => t.w
  | .rw => t.r && t.w
  | .line => t.r || t.x

def Acc.writes : Acc → Bool
  | .store | .rw => true
  | _ => false

/-- Bits [63:47] of a virtual address are all equal (R251). -/
def canonicalVA (va : Nat) : Bool := va % 2 ^ 64 / 2 ^ 47 = 0 || va % 2 ^ 64 / 2 ^ 47 = 2 ^ 17 - 1

/-- What a leaf or a fault ends a walk with. -/
inductive Walk where
  | leaf (t : Tlb) (pte : Nat)
  | fault (cause : BitVec 8)
  deriving DecidableEq, Repr

/-- A decoded physical address (R17). -/
def decodedPA (pa : Nat) : Bool := pa < panelEnd || (winBase ≤ pa && pa < 2 ^ 48)

/-- The Sv48 walk from a table at a level, 3 the root (R250, R251): `lvl` levels remain below. A table in the undecoded range gives 0x08, which R17 leaves
open, and so do the bits D, A and U of a pointer to a table, which Sv48 reserves (log 20). -/
def walk (s : State) (ctx va : Nat) : (lvl table : Nat) → Walk
  | lvl, table =>
    let a := table + 8 * (va / 2 ^ (12 + 9 * lvl) % 512)
    if !decodedPA a then .fault 0x08
    else if s.poisoned a 8 then .fault 0x0A
    else
      let p := s.phys a 8
      let b (i : Nat) : Bool := p / 2 ^ i % 2 = 1
      let ppn := p / 2 ^ 10 % 2 ^ 44
      if !b 0 then .fault 0x07
      else if (b 2 && !b 1) || p / 2 ^ 54 % 2 ^ 9 != 0 then .fault 0x08
      else if b 1 || b 3 then
        let napot := b 63
        let size := if napot then 0x10000 else 2 ^ (12 + 9 * lvl)
        let base := if napot then ppn / 16 * 16 * 4096 else ppn * 4096
        if lvl = 3 || (napot && (lvl != 0 || ppn % 16 != 8)) || base % size != 0 || !b 4 then .fault 0x08
        else .leaf { ctx, va := va / size * size, size, pa := base, r := b 1, w := b 2, x := b 3, d := b 7 } a
      else if b 63 || b 4 || b 6 || b 7 then .fault 0x08
      else match lvl with
        | 0 => .fault 0x08
        | l + 1 => walk s ctx va l (ppn * 4096)

/-- The addresses of the table entries that a walk reads. -/
def walkPath (s : State) (va : Nat) : (lvl table : Nat) → List Nat
  | lvl, table =>
    let a := table + 8 * (va / 2 ^ (12 + 9 * lvl) % 512)
    let p := s.phys a 8
    if !decodedPA a then []
    else if s.poisoned a 8 || p % 2 = 0 || p / 2 % 2 = 1 || p / 8 % 2 = 1 then [a]
    else match lvl with
      | 0 => [a]
      | l + 1 => a :: walkPath s va l (p / 2 ^ 10 % 2 ^ 44 * 4096)

/-- A walker of a die reads the tables through the home or a replica (R252); `touch` is how it reads a line. -/
def walkReads (s : State) (ctx va : Nat) (touch : State → Nat → State) : State :=
  match s.ctx? ctx with
  | none => s
  | some x => (walkPath s va 3 x.root).foldl (fun s a => if panelEnd ≤ a then s else touch s a) s

/-- A walk for an access, which sets A, and D for a store, in the leaf (R250). -/
def walkFor (s : State) (ctx va : Nat) (k : Acc) : State × Except (BitVec 8) Tlb :=
  match s.ctx? ctx with
  | none => (s, .error 0x07)
  | some x =>
    match walk s ctx va 3 x.root with
    | .fault c => (s, .error c)
    | .leaf t a =>
      if !t.allows k || !decodedPA (t.pa + va % t.size) then (s, .error 0x08)
      else
        let p := s.phys a 8
        let q := p ||| (64 + 128 * bit k.writes)
        let s := if q = p then s else devWrite s a (toBytes 8 q)
        (s, .ok { t with d := t.d || k.writes })

def tlbHit (ctx va : Nat) (k : Acc) (t : Tlb) : Bool :=
  t.ctx = ctx && t.va ≤ va && va < t.va + t.size && (!k.writes || t.d)

/-- The die TLB takes a translation: 1,024 sets of 8 ways, the set by the virtual page, the newest of a set kept (R252; log 12). -/
def tlbInstall (l : List Tlb) (t : Tlb) : List Tlb :=
  let set (u : Tlb) : Nat := u.va / u.size % 1024
  let rest := l.filter fun u => !(u.ctx = t.ctx && u.va = t.va)
  let old := (rest.filter fun u => set u = set t).drop 7
  t :: rest.filter fun u => !old.contains u

/-- A walk of this step for a page that has faulted serves every request for the page that comes while it runs (R252; log 51). -/
def coalesced (s : State) (d ctx va : Nat) : Option (BitVec 8) :=
  (s.walks.find? fun e => e.1 = d && e.2.1 = ctx && e.2.2.1 = va / 4096).map fun e => e.2.2.2

/-- A walk for an access of a block: its reads, its outcome, and what a fault leaves for the requests that coalesce with it (R251, R252). -/
def walkMiss (s : State) (uid c ctx va : Nat) (k : Acc) : State × Except (BitVec 8) Tlb :=
  match coalesced s (coreDie c) ctx va with
  | some e => (s, .error e)
  | none =>
    match walkFor (walkReads s ctx va fun s a => readThrough s uid c a) ctx va k with
    | (s, .error e) => ({ s with walks := (coreDie c, ctx, va / 4096, e) :: s.walks }, .error e)
    | (s, .ok t) => (s.updDie (coreDie c) fun x => { x with tlb := tlbInstall x.tlb t }, .ok t)

/-- Translation of an access by an agent of a block on core c: micro-TLB, die TLB, walk; a fault installs nothing (R251, R252; log 12). -/
def translate (s : State) (uid c ctx : Nat) (addr : Word) (k : Acc) : State × Tr :=
  let va := addr.toNat
  if !canonicalVA va then (s, .trap 0x08)
  else
    let use (s : State) (t : Tlb) : State × Tr :=
      if t.allows k && decodedPA (t.pa + (va - t.va)) then (s, .ok (t.pa + (va - t.va))) else (s, .trap 0x08)
    match (s.core c).utlb.find? (tlbHit ctx va k) with
    | some t => use s t
    | none =>
      let fillU (s : State) (t : Tlb) : State :=
        s.updCore c fun x => { x with utlb := (t :: x.utlb.filter fun u => !(u.ctx = ctx && u.va = t.va)).take 32 }
      match (s.die (coreDie c)).tlb.find? (tlbHit ctx va k) with
      | some t => use (fillU s t) t
      | none =>
        match walkMiss s uid c ctx va k with
        | (s, .error e) => (s, .trap e)
        | (s, .ok t) => use (fillU s t) t

/-- The leaf of a readable page that no access has used: its A bit is clear, and neither TLB holds it. -/
def unusedLeaf (s : State) (c ctx va : Nat) : Option Tlb :=
  if ((s.core c).utlb ++ (s.die (coreDie c)).tlb).any (tlbHit ctx va .load) || (coalesced s (coreDie c) ctx va).isSome || !canonicalVA va then none
  else (s.ctx? ctx).bind fun x => match walk s ctx va 3 x.root with
    | .fault _ => none
    | .leaf t a => if t.r && decodedPA (t.pa + va % t.size) && s.phys a 8 / 64 % 2 = 0 then some t else none

/-- Translation for a prefetch: the address, and whether the page may be written. It changes no memory (R153), so that its walk leaves a clear A bit
clear, and no TLB keeps such a leaf (R250; log 27). -/
def translateHint (s : State) (uid c ctx : Nat) (addr : Word) : State × Option (Nat × Bool) :=
  let va := addr.toNat
  match unusedLeaf s c ctx va with
  | some t => (walkReads s ctx va fun s a => readThrough s uid c a, some (t.pa + (va - t.va), t.w))
  | none =>
    match translate s uid c ctx addr .load with
    | (s, .trap _) => (s, none)
    | (s, .ok pa) => (s, some (pa, ((s.core c).utlb.find? (tlbHit ctx va .load)).any Tlb.w))

/-- Translation by the dispatchers and the service, through no core's TLB. -/
def devTranslate (s : State) (ctx : Nat) (va : Nat) (k : Acc) : State × Tr :=
  if !canonicalVA va then (s, .trap 0x08)
  else match walkFor s ctx va k with
    | (s, .error e) => (s, .trap e)
    | (s, .ok t) => (s, .ok (t.pa + (va - t.va)))

/-- Reads n bytes at a virtual address page by page, over at most `fuel` pages; `none` when a page cannot be read. -/
def readPages (s : State) (ctx : Nat) : (fuel n va : Nat) → State × Option (List Byte)
  | 0, n, _ => (s, if n = 0 then some [] else none)
  | k + 1, n, va =>
    if n = 0 then (s, some [])
    else
      let m := min n (4096 - va % 4096)
      match devTranslate s ctx va .load with
      | (s, .trap _) => (s, none)
      | (s, .ok pa) =>
        if s.poisoned pa m then (s, none)
        else
          let head := s.bytes pa m
          match readPages s ctx k (n - m) (va + m) with
          | (s, some r) => (s, some (head ++ r))
          | (s, none) => (s, none)

/-- n bytes at a virtual address as the dispatcher reads them. -/
def readVA (s : State) (ctx n va : Nat) : State × Option (List Byte) := readPages s ctx (n / 4096 + 2) n va

end Sys2Proof.Machine
end

