-- ==== Sys2Proof/Machine/Operands.lean ====
section
/-! DEFINITION. Operands: registers, predicates and marks of fibres and of the stream, element types, immediates, A96
modifiers, crossbar patterns, dead reads, last uses and writes to bound registers (spec 02, 03, 04, 09, 12). -/
namespace Sys2Proof.Machine

/-! ### Actors -/

def Actor.uid : Actor → Nat
  | .fib u _ _ => u
  | .seq u => u

/-- The weave slot of a fibre. -/
def Actor.slot : Actor → Nat
  | .fib _ _ sl => sl
  | .seq _ => 0

def State.fib? (s : State) : Actor → Option Fibre
  | .fib u w sl => s.fibre? u w sl
  | .seq _ => none

def State.updFib (s : State) (a : Actor) (f : Fibre → Fibre) : State :=
  match a with
  | .fib u w sl => s.updFibre u w sl f
  | .seq _ => s

/-- The fibre is a helper. -/
def Fibre.isHelper (f : Fibre) : Bool := match f.kind with | .helper .. => true | _ => false
def State.isHelper (s : State) (a : Actor) : Bool := ((s.fib? a).map Fibre.isHelper).getD false

/-- The core on which an actor runs. -/
def State.coreOf (s : State) : Actor → Nat
  | .fib u w _ => ((s.weave? u w).map Weave.core).getD 0
  | .seq u => ((s.block? u).map Block.core).getD 0

def State.ctxOf (s : State) (uid : Nat) : Nat := ((s.block? uid).map Block.ctx).getD 0

/-- The store buffer of an actor: its block's, or the own buffer of a helper weave on a neighbour core (R225). -/
def State.bufOf (s : State) : Actor → Buf
  | .seq u => .block u
  | .fib u w _ =>
    match s.block? u with
    | some b =>
      match mget b.weaves w with
      | some x => if x.kind = .helper && x.core != b.core then .weave u w else .block u
      | none => .block u
    | none => .block u

/-- The recruiter of a helper: its weave, its slot and its state. -/
def State.recruiter? (s : State) (uid : Nat) (f : Fibre) : Option (Nat × Nat × Fibre) :=
  match f.kind with
  | .helper rw rs _ => (s.fibre? uid rw rs).map fun r => (rw, rs, r)
  | _ => none

/-! ### Reading registers (R24, R26, R190, R213) -/

/-- A value read, and where a dead read is recorded: the weave, the fibre slot of R39 and the register. -/
abbrev Read := Word × Option (Nat × Nat × Nat)

/-- Register wn of the fibre in a weave slot: a helper's w16 to w31 are its recruiter's shared range (R213). -/
def State.readW (s : State) (uid w sl n : Nat) : Read :=
  match s.fibre? uid w sl with
  | none => (0, none)
  | some f =>
    if f.isHelper && 16 ≤ n then
      match s.recruiter? uid f with
      | some (rw, _, r) =>
        match r.pool with
        | some p =>
          match mget p.shared (p.shr + n - 16) with
          | some (v, dead) => if dead then (0, some (rw, r.fslot, p.shr + n - 16)) else (v, none)
          | none => (0, none)
        | none => (0, none)
      | none => (0, none)
    else match mget f.regs n with
      | none => (0, none)
      | some (.live v) => (v, none)
      | some .dead => (0, some (w, f.fslot, n))

/-- Uniform register kn of a weave (R188). -/
def State.readK (s : State) (uid w n : Nat) : Word := ((s.weave? uid w).bind fun x => mget x.k n).getD 0

/-- Register sn of the stream. -/
def State.readS (s : State) (uid n : Nat) : Word := ((s.stream? uid).bind fun x => mget x.s n).getD 0

/-- The slot that a crossbar pattern reads (R189). -/
def srcSlot (p : Pattern) (sl : Nat) : Nat :=
  match p with
  | .none => sl
  | .rot n => (sl + n.toNat) % 32
  | .bcast n => n.toNat
  | .bfly n => sl ^^^ n.toNat
  | .mirror => 31 - sl

/-- A source of an actor. -/
def State.readSrc (s : State) (a : Actor) (x : Src) : Read :=
  match a with
  | .seq u => (s.readS u x.num.toNat, none)
  | .fib u w sl => if x.uni then (s.readK u w x.num.toNat, none) else s.readW u w (srcSlot x.pat sl) x.num.toNat

/-- The value of a source. -/
def State.src (s : State) (a : Actor) (x : Src) : Word := (s.readSrc a x).1

/-- A register field without modifiers, as the M formats name it. -/
def plainSrc (n : BitVec 7) (last : Bool) : Src := ⟨n, false, last, .none, false, false⟩

/-- A dead read is recorded unless one stands recorded (R26). -/
def State.noteDead (s : State) (uid : Nat) (pc : Word) : Option (Nat × Nat × Nat) → State
  | none => s
  | some (w, fs, n) => s.updWeave uid w fun x =>
      if x.deadDR then x else { x with deadDR := true, deadSlot := fs, deadReg := n, deadPc := pc }

/-- A last-use bit releases the actor's own register; k registers and bound registers keep (R25). A helper's w16 to w31 belong to
its recruiter and keep (log 16). A crossbar pattern on the source changes which fibre's register is read and not which is released, on which the spec is
silent: the participant's own goes (log 61). -/
def State.release (s : State) (a : Actor) (x : Src) : State :=
  match a with
  | .seq _ => s
  | .fib u w sl =>
    if x.last && !x.uni then
      s.updFibre u w sl fun f =>
        if (mget f.binds x.num.toNat).isSome || (f.isHelper && 16 ≤ x.num.toNat) then f
        else { f with regs := mput f.regs x.num.toNat .dead }
    else s

/-- Sources are read: dead reads are recorded, participant by participant and in each in the order A, B, C (A, B, D in the memory formats); the
spec orders no two sources of one fibre, and which of its dead ones sr.deadrd keeps is the model's choice (log 45). -/
def State.noteAll (s : State) (pc : Word) (acts : List Actor) (srcs : List Src) : State :=
  acts.foldl (fun t a => srcs.foldl (fun t x => t.noteDead a.uid pc (s.readSrc a x).2) t) s

/-- An actor's last uses release. -/
def State.releaseAll (s : State) (a : Actor) (srcs : List Src) : State := srcs.foldl (fun t x => t.release a x) s

/-- Every source of every participant is read, then the last uses release (R25, R95, R190). -/
def State.consume (s : State) (pc : Word) (acts : List Actor) (srcs : List Src) : State :=
  acts.foldl (fun t a => t.releaseAll a srcs) (s.noteAll pc acts srcs)

/-! ### Writing registers (R24, R31, R188, R262) -/

/-- The fibre register whose result is still to land, one that will be discarded among them (R260). -/
def PDst.reg? : PDst → Option Nat
  | .w n | .gone n => some n
  | _ => Option.none
/-- A result that a later instruction overwrites is discarded at its landing (R31). -/
def Pend.drop (p : Pend) : Pend :=
  { p with dst := (match p.dst with | .w n => .gone n | _ => .none), own := false, poison := none }
def clearPend (l : List Pend) (d : PDst) : List Pend := l.map fun p => if p.dst = d then p.drop else p
def clearPendPred (l : List Pend) (n : BitVec 4) : List Pend :=
  l.map fun p => match p.pred with
    | some (k, _) => if k = n then { p with pred := none } else p
    | none => p

/-- The fibre that makes a store, as (weave, slot). -/
def Actor.who : Actor → Option (Nat × Nat)
  | .fib _ w sl => some (w, sl)
  | .seq _ => none

/-- A write to a bound register: a store at the binding's width and a commit point (R262). -/
def boundStore (s : State) (a : Actor) (b : Binding) (n : Nat) (v : Word) : State :=
  let x := b.extend (v.toNat % 2 ^ (8 * b.size))
  let s := s.updFib a fun f =>
    { f with regs := mput f.regs n (.live x), binds := mupd f.binds n fun y => { y with pending := none, poison := false } }
  let q := s.bufOf a
  commitBuf (bufStore s q b.pa (toBytes b.size v.toNat) a.who false) q

/-- A register's spilled copy is given up, since the register is about to be written: a write makes it live in an entry of its own (R24, R185). -/
def State.unspill (s : State) (uid w sl n : Nat) : State :=
  let c := ((s.weave? uid w).map Weave.core).getD 0
  (s.updCore c fun x => { x with lent := x.lent.filter fun e => e != (uid, w, sl, n) }).updFibre uid w sl fun f =>
    { f with spilt := f.spilt.filter fun m => m != n }

/-- Writes wn, or sn. -/
def State.writeW (s : State) (a : Actor) (n : Nat) (v : Word) : State :=
  match a with
  | .seq u => if n = 0 then s else s.updStream u fun x => { x with s := mput x.s n v, pend := clearPend x.pend (.s n) }
  | .fib u w sl =>
    match s.fibre? u w sl with
    | none => s
    | some f =>
      let s := s.updFibre u w sl fun f => { f with pend := clearPend f.pend (.w n) }
      match mget f.binds n with
      | some b => boundStore s a b n v
      | none => s.updFibre u w sl fun f => { f with regs := mput f.regs n (.live v) }

/-- Writes kn; k0 discards (R49). -/
def State.writeK (s : State) (uid w n : Nat) (v : Word) : State :=
  if n = 0 then s
  else s.updWeave uid w fun x =>
    { x with k := mput x.k n v, fibres := mmap x.fibres fun _ f => { f with pend := clearPend f.pend (.k n) } }

/-- Writes a destination field. -/
def State.writeD (s : State) (a : Actor) (d : Dst) (v : Word) : State :=
  match a with
  | .fib u w _ => if d.uni then s.writeK u w d.num.toNat v else s.writeW a d.num.toNat v
  | .seq _ => s.writeW a d.num.toNat v

/-- The value that a destination holds as it is written: zero for a clean or dead register (R51). -/
def State.oldD (s : State) (a : Actor) (d : Dst) : Word := (s.readSrc a ⟨d.num, d.uni, false, .none, false, false⟩).1

/-! ### Predicates (R22) -/

def State.predsOf (s : State) : Actor → BitVec 16
  | .fib u w sl => ((s.fibre? u w sl).map Fibre.preds).getD 0
  | .seq u => ((s.stream? u).map Stream.preds).getD 0

def State.pred (s : State) (a : Actor) (n : Nat) : Bool := n = 0 || (s.predsOf a).getLsbD n

def setBit16 (x : BitVec 16) (n : Nat) (v : Bool) : BitVec 16 := if v then x ||| (1#16 <<< n) else x &&& ~~~(1#16 <<< n)

def State.setPreds (s : State) (a : Actor) (p : BitVec 16) : State :=
  match a with
  | .fib u w sl => s.updFibre u w sl fun f => { f with preds := p }
  | .seq u => s.updStream u fun x => { x with preds := p }

/-- Writes a predicate; a write to p0 is discarded. A predicate result still to land is then discarded (R31). -/
def State.writeP (s : State) (a : Actor) (n : Nat) (v : Bool) : State :=
  if n = 0 then s
  else
    let s := s.setPreds a (setBit16 (s.predsOf a) n v)
    match a with
    | .fib u w sl => s.updFibre u w sl fun f => { f with pend := clearPendPred f.pend (BitVec.ofNat 4 n) }
    | .seq u => s.updStream u fun x => { x with pend := clearPendPred x.pend (BitVec.ofNat 4 n) }

/-- The guard of R23. -/
def State.guard (s : State) (a : Actor) (g : Guard) : Bool := s.pred a g.pred.toNat != g.neg

/-! ### Types and elements (R72, R73, R83) -/

end Sys2Proof.Machine
namespace Sys2Proof

/-- Number of elements and their width in bits; `fl` selects the float column of R59. -/
def Ty.shape (fl : Bool) : Ty → Nat × Nat
  | .s8 | .n8 => (1, 8)
  | .s16 | .n16 | .f16 | .bf16 => (1, 16)
  | .s32 | .n32 | .f32 => (1, 32)
  | .s64 | .n64 | .f64 => (1, 64)
  | .cc => if fl then (4, 16) else (8, 8)
  | .cd => (4, 16)
  | .ce => (2, 32)
  | .cf => (16, 4)

/-- Elements are signed integers: types 0 to 3, and the packed integer types without UNS (R96). -/
def Ty.signed (uns : Bool) : Ty → Bool
  | .s8 | .s16 | .s32 | .s64 => true
  | .cc | .cd | .ce => !uns
  | _ => false

/-- The type is one of the float codes 8 to B, or C to E in a float opcode. -/
def Ty.isFloat (fl : Bool) : Ty → Bool
  | .f16 | .bf16 | .f32 | .f64 => true
  | .cc | .cd | .ce => fl
  | _ => false

def Ty.packed : Ty → Bool
  | .cc | .cd | .ce | .cf => true
  | _ => false

end Sys2Proof
namespace Sys2Proof.Machine

/-- Element i of width w. -/
def elemAt (w : Nat) (v : Nat) (i : Nat) : Nat := v / 2 ^ (w * i) % 2 ^ w

/-- The value of w bits as an integer. -/
def toI (signed : Bool) (w x : Nat) : Int := if signed && 2 ^ (w - 1) ≤ x then (x : Int) - 2 ^ w else x

/-- The low w bits of an integer. -/
def ofI (w : Nat) (x : Int) : Nat := (x % (2 ^ w : Nat)).toNat

/-- `sat()`: the nearest value of the type (R73). -/
def satI (signed : Bool) (w : Nat) (x : Int) : Int :=
  let lo : Int := if signed then -(2 ^ (w - 1) : Nat) else 0
  let hi : Int := if signed then (2 ^ (w - 1) : Nat) - 1 else (2 ^ w : Nat) - 1
  if x < lo then lo else if hi < x then hi else x

/-- Packs elements, element 0 lowest. -/
def packElems (w : Nat) : List Nat → Nat
  | [] => 0
  | e :: r => e + 2 ^ w * packElems w r

/-- A result of the type's width as all 64 bits (R72). -/
def regOf (t : Ty) (x : Nat) : Word :=
  match t with
  | .s8 => (BitVec.ofNat 8 x).signExtend 64
  | .s16 => (BitVec.ofNat 16 x).signExtend 64
  | .s32 => (BitVec.ofNat 32 x).signExtend 64
  | _ => ofNat64 x

end Sys2Proof.Machine
namespace Sys2Proof

/-- The mask bit that governs element i (R51): for h4x16 a bit covers two elements. -/
def Ty.semBit (t : Ty) (sem : BitVec 8) (i : Nat) : Bool :=
  match t with
  | .cf => sem.getLsbD (i / 2)
  | .cc | .cd | .ce => sem.getLsbD i
  | _ => true

def Ext.sem : Ext → BitVec 8
  | .a96 m => m
  | _ => 0xFF

end Sys2Proof
namespace Sys2Proof.Machine

/-! ### Immediates and modifiers (R51, R52) -/

/-- An f32 as an f64, exactly; a NaN keeps its fraction at the top (R112). -/
def widenF32 (x : Nat) : Nat :=
  let sg := x / 2 ^ 31 % 2
  let e := x / 2 ^ 23 % 256
  let f := x % 2 ^ 23
  let body :=
    if e = 255 then 2047 * 2 ^ 52 + f * 2 ^ 29
    else if e = 0 then
      (if f = 0 then 0
       else (Nat.log2 f + 874) * 2 ^ 52 + (f * 2 ^ (52 - Nat.log2 f) - 2 ^ 52))
    else (e + 896) * 2 ^ 52 + f * 2 ^ 29
  sg * 2 ^ 63 + body

/-- IMM32 as the type's value, in the low bits of the type's width and replicated for a packed type (R52). -/
def immOf (fl uns : Bool) (t : Ty) (imm : BitVec 32) : Nat :=
  let (n, w) := t.shape fl
  let e : Nat :=
    if t.isFloat fl then (if t = .f64 then widenF32 imm.toNat else imm.toNat % 2 ^ w)
    else if t.signed uns then ofI w imm.toInt else imm.toNat % 2 ^ w
  packElems w (List.replicate n e)

/-- Absolute value, then negation, of one element (R51). -/
def modElem (flt : Bool) (w : Nat) (ng ab : Bool) (x : Nat) : Nat :=
  if flt then
    let m := x % 2 ^ (w - 1)
    let sg : Bool := !ab && 2 ^ (w - 1) ≤ x
    m + (if sg != ng then 2 ^ (w - 1) else 0)
  else
    let y := if ab && 2 ^ (w - 1) ≤ x then (2 ^ w - x) % 2 ^ w else x
    if ng then (2 ^ w - y) % 2 ^ w else y

/-- The elements of a source after its modifiers. -/
def elemsOf (fl : Bool) (t : Ty) (x : Src) (v : Word) : List Nat :=
  let (n, w) := t.shape fl
  (upto n).map fun i => modElem (t.isFloat fl) w x.neg x.abs (elemAt w v.toNat i)

/-- The elements of an immediate. -/
def immElems (fl uns : Bool) (t : Ty) (imm : BitVec 32) : List Nat :=
  let (n, w) := t.shape fl
  (upto n).map fun i => elemAt w (immOf fl uns t imm) i

/-- Element i of a list of elements. -/
def nth (l : List Nat) (i : Nat) : Nat := l[i]?.getD 0

/-- The register value: selected elements from `r`, the others from the destination's old value (R51, R72). -/
def mergeElems (fl : Bool) (t : Ty) (sem : BitVec 8) (old : Word) (r : List Nat) : Word :=
  let (n, w) := t.shape fl
  if t.packed then ofNat64 (packElems w ((upto n).map fun i => if t.semBit sem i then nth r i else elemAt w old.toNat i))
  else regOf t (nth r 0)

/-! ### Memory sizes -/

end Sys2Proof.Machine
namespace Sys2Proof

def MSize.bytes : MSize → Nat
  | .z8 | .s8 => 1
  | .z16 | .s16 => 2
  | .z32 | .s32 => 4
  | .z64 => 8

end Sys2Proof
namespace Sys2Proof.Machine

/-- A loaded value zero- or sign-extended (R54). -/
def extendLoad (sz : MSize) (x : Nat) : Word :=
  match sz with
  | .s8 => (BitVec.ofNat 8 x).signExtend 64
  | .s16 => (BitVec.ofNat 16 x).signExtend 64
  | .s32 => (BitVec.ofNat 32 x).signExtend 64
  | _ => ofNat64 (x % 2 ^ (8 * sz.bytes))

end Sys2Proof.Machine
end

