-- ==== Sys2Proof/Machine/Flags.lean ====
section
/-! DEFINITION. Flags: the sticky floating-point flags and where they are raised, integer conditions, and how compares and
`plog` combine predicates (R38, R81, R82, R116, R117, R215). -/
namespace Sys2Proof.Machine

/-! ### sr.fpflags: bit 4 NV, 3 DZ, 2 OF, 1 UF, 0 NX (R38) -/

abbrev FFlags := BitVec 5
def FFlags.nv : FFlags := 0x10
def FFlags.dz : FFlags := 0x08
def FFlags.ov : FFlags := 0x04
def FFlags.uf : FFlags := 0x02
def FFlags.nx : FFlags := 0x01

/-- The weave whose flags an actor raises: a helper in its recruiter's block raises its recruiter's weave's (R215). -/
def State.flagWeave (s : State) (uid w sl : Nat) : Nat :=
  match s.weave? uid w with
  | some x =>
    match x.kind, (mget x.fibres sl).map Fibre.kind with
    | .block, some (.helper rw _ _) => rw
    | _, _ => w
  | none => w

/-- Raises flags; the stream never raises any (R82). -/
def State.raise (s : State) (a : Actor) (fl : FFlags) : State :=
  match a with
  | .fib u w sl => s.updWeave u (s.flagWeave u w sl) fun x => { x with fpflags := x.fpflags ||| fl }
  | .seq _ => s

/-! ### Conditions -/

/-- The condition of `cmp` on elements of width w (R116). -/
def condHolds (c : Cond) (signed : Bool) (w a b : Nat) : Bool :=
  let x := toI signed w a
  let y := toI signed w b
  match c with
  | .eq => x = y
  | .ne => x ≠ y
  | .lt => x < y
  | .le => x ≤ y
  | .gt => y < x
  | .ge => y ≤ x
  | .tst => a &&& b != 0
  | .ntst => a &&& b == 0

/-- How a compare combines with its second predicate (R116, R127). -/
def combine (orr c pc : Bool) : Bool := if orr then c || pc else c && pc

/-- The result of `plog` (R117). -/
def plogBit (lut : BitVec 4) (pa pb : Bool) : Bool := lut.getLsbD ((if pa then 1 else 0) + (if pb then 2 else 0))

/-- The larger or smaller of two integers by an order. -/
def minI (x y : Int) : Int := if y < x then y else x
def maxI (x y : Int) : Int := if x < y then y else x

end Sys2Proof.Machine
end

