-- ==== Sys2Proof/Machine/Fields.lean ====
section
/-! DEFINITION. What issue needs to know of an instruction before its own effect: length, guard, side, class, register
fields, and the uses that R35 and R214 limit. -/
namespace Sys2Proof

/-- Length in bytes (R42). -/
def Instr.size (i : Instr) : Nat := (i.layout.map fun l => l.bits.1).getD 8

/-- The guard (R23); `nop` and clause headers have none. -/
def Instr.guard : Instr → Guard
  | .bra g _ | .call g _ _ | .brk g | .mcall g _ | .unbind g _ | .bsync g | .fence g _ _ | .fenceOwn g | .fenceFar g _
  | .fork g _ _ _ | .fend g | .yield g | .join g | .hend g | .tret g | .lbmapSwap g _ _ | .lbmapSet g _ _ | .pub g _ _ _
  | .gNode g _ _ _ | .gEdge g _ _ | .gRun g _ | .gReset g | .mmClr g _ _ | .mmLd g _ _ _ _ _ | .mmRd g _ _ _ _ _ _ _
  | .illegalInstruction g _ => g
  | .ld m _ | .st m _ | .pref m _ | .amo m _ | .cas m _ | .cstore m _ | .bind m _ => m.g
  | .ldl l _ | .stl l _ => l.g
  | .recruit r => r.g
  | .cpIn e _ _ _ _ _ | .cpOut e _ _ _ _ | .cpPeer e _ _ _ _ _ _ | .cpFill e _ _ _ _ _ | .mm e _ _ _ _ _ _ _ _ => e.g
  | i => match i.aform with | some f => f.g | none => ⟨0, false⟩

/-- The MS bit. -/
def Instr.ms : Instr → Bool
  | .ld m _ | .st m _ | .pref m _ | .amo m _ | .cas m _ | .cstore m _ | .bind m _ => m.ms
  | .ldl l _ | .stl l _ => l.ms
  | i => match i.aform with | some f => f.ms | none => false

/-- The long-latency instructions (R27). -/
def Instr.longLat : Instr → Bool
  | .ld .. | .amo .. | .cas .. | .cstore .. | .ldl .. | .bind .. => true
  | i => match i.shape with | some sh => sh.ll | none => false

/-- A long-latency instruction with a result that a mark must track (R30). -/
def Instr.tracked : Instr → Bool
  | .amo m _ | .cas m _ | .cstore m _ => m.d != 0
  | i => i.longLat

/-- Runs on the fibre side, and on the sequencer side (R60). -/
def Instr.onFibre (i : Instr) : Bool :=
  match i.shape with
  | some sh => sh.fibre
  | none => true
def Instr.onSeq : Instr → Bool
  | .clause .. | .nop _ | .ld .. | .st .. | .pref .. | .amo .. | .cas .. | .ldl .. | .stl .. | .fence .. | .fenceOwn _ | .fenceFar ..
  | .bra .. | .call .. | .illegalInstruction .. => true
  | .cstore .. | .bind .. | .fork .. => false
  | i => match i.shape with | some sh => sh.seq | none => false

/-- A register field: its number, whether it is uniform, whether it is a destination. -/
structure RegUse where
  num : Nat
  uni : Bool
  dst : Bool
  deriving DecidableEq, Repr

def srcUse (n : BitVec 7) : RegUse := ⟨n.toNat, false, false⟩
def dstUse (n : BitVec 7) : RegUse := ⟨n.toNat, false, true⟩

/-- The register fields of an A64-family form. -/
def AForm.uses (sh : Shape) (f : AForm) : List RegUse :=
  let imm : Bool := match f.ext with | .i96 _ | .q128 _ => true | _ => false
  let q : Bool := match f.ext with | .q128 _ => true | _ => false
  (if sh.d.isDst then [⟨f.d.num.toNat, f.d.uni, true⟩] else [])
    ++ (if sh.a.isSrc then [⟨f.a.num.toNat, f.a.uni, false⟩] else [])
    ++ (if sh.b.isSrc && !imm then [⟨f.b.num.toNat, f.b.uni, false⟩] else [])
    ++ (if sh.c.isSrc && !q then [⟨f.c.num.toNat, f.c.uni, false⟩] else [])

/-- The register fields that an instruction uses (R49, R54, R135, R155). -/
def Instr.uses : Instr → List RegUse
  | .ld m _ => [dstUse m.d, srcUse m.a] ++ (if m.b != 0 && !m.nb then [srcUse m.b] else [])
  | .st m _ => [srcUse m.d, srcUse m.a] ++ (if m.b != 0 then [srcUse m.b] else [])
  | .pref m _ => [srcUse m.a] ++ (if m.b != 0 then [srcUse m.b] else [])
  | .amo m _ | .cstore m _ => [srcUse m.a, srcUse m.b] ++ (if m.d != 0 then [dstUse m.d] else [])
  | .cas m _ => [srcUse m.a, srcUse m.b, srcUse (m.b + 1)] ++ (if m.d != 0 then [dstUse m.d] else [])
  | .bind m _ => [dstUse m.d, srcUse m.a]
  | .ldl l _ => [dstUse l.d] ++ (if l.buf.isNone then [srcUse l.a] else []) ++ (if l.b != 0 then [srcUse l.b] else [])
  | .stl l _ => [srcUse l.d] ++ (if l.buf.isNone then [srcUse l.a] else [])
      ++ (if l.b != 0 && !l.nb then [srcUse l.b] else [])
  | .call _ l _ => [dstUse l]
  | .fork _ a d _ => [srcUse a, dstUse d]
  | .recruit r => [dstUse r.d, srcUse r.a]
  | .unbind _ d => [dstUse d]
  | .lbmapSet _ _ b => [srcUse b]
  | .pub _ _ a _ => [srcUse a]
  | .cpIn e _ _ _ _ _ | .cpOut e _ _ _ _ | .cpPeer e _ _ _ _ _ _ | .cpFill e _ _ _ _ _ | .mm e _ _ _ _ _ _ _ _ =>
    [srcUse e.a, srcUse e.b, srcUse e.c]
  | .dot f k _ =>
    [⟨f.d.num.toNat, f.d.uni, true⟩, ⟨f.a.num.toNat, f.a.uni, false⟩, ⟨f.b.num.toNat, f.b.uni, false⟩, ⟨f.c.num.toNat, f.c.uni, false⟩]
      ++ (if k = .h6 then [⟨f.a.num.toNat + 1, f.a.uni, false⟩, ⟨f.b.num.toNat + 1, f.b.uni, false⟩] else [])
  | i => match i.shape, i.aform with
    | some sh, some f => f.uses sh
    | _, _ => []

/-- The fibre registers that the instruction names as destinations (R24); the one that `movxw` writes comes from its index. -/
def Instr.dsts : Instr → List Nat
  | .unbind .. => []
  | i => (i.uses.filter fun u => u.dst && !u.uni).map RegUse.num

/-- Some source of the form carries a crossbar pattern (R189). -/
def Instr.patterned (i : Instr) : Bool :=
  match i.aform with
  | some f => f.a.pat != .none || f.b.pat != .none || f.c.pat != .none
  | none => false

/-- The instructions that a helper may not issue, apart from its register uses (R214). -/
def Instr.notForHelper : Instr → Bool
  | .bind .. | .unbind .. | .bsync _ | .bwait .. | .bamo .. | .bcas _ | .recruit _ | .fork .. | .fend _ | .migrate _ | .launch _
  | .qpush .. | .qpop .. | .barArrive .. | .barWait .. | .barSync .. | .tarr .. | .twait .. | .ldl .. | .stl .. | .sysw ..
  | .icinv .. | .mcdef _ => true
  | _ => false

/-- A register use that R214 decides at issue. -/
def Instr.helperRegs (i : Instr) : Bool :=
  i.patterned || i.uses.any fun u => u.uni || 32 ≤ u.num || (u.dst && 16 ≤ u.num)

/-- The barrier, buffer and macro that an instruction names, for the limits of R35. -/
def Instr.barrier : Instr → Option Nat
  | .barArrive _ _ n | .barWait _ n | .barSync _ n => some n.toNat
  | .cpIn e _ _ _ _ _ | .cpOut e _ _ _ _ | .cpPeer e _ _ _ _ _ _ | .cpFill e _ _ _ _ _ | .mm e _ _ _ _ _ _ _ _ => e.bar.map BitVec.toNat
  | .pub _ b _ _ | .gNode _ _ _ b | .gRun _ b | .mmClr _ b _ | .mmLd _ b _ _ _ _ | .mmRd _ b _ _ _ _ _ _ => b.map BitVec.toNat
  | _ => none

/-- The operations a macro may hold (R146): 64-bit encodings of the listed opcodes, or `brk`. -/
def Instr.macroOk : Instr → Bool
  | .nop wide => !wide
  | .ld m _ | .st m _ | .pref m _ => !m.wide
  | .ldl l _ | .stl l _ => !l.wide
  | .brk _ => true
  | i => match i.shape, i.aform with
    | some sh, some f => (match f.ext with | .a64 => true | _ => false)
        && ((1 ≤ sh.op && sh.op ≤ 0x25) || (0x30 ≤ sh.op && sh.op ≤ 0x4B) || (0x70 ≤ sh.op && sh.op ≤ 0x75))
    | _, _ => false

/-- Computes in a lane, so that checked issue pairs it (R368). -/
def Instr.inLane : Instr → Bool
  | .ld .. | .st .. | .pref .. | .amo .. | .cas .. | .cstore .. | .ldl .. | .stl .. | .bind .. => true
  | i => match i.shape with
    | some sh => (1 ≤ sh.op && sh.op ≤ 0x4B) || (0x70 ≤ sh.op && sh.op ≤ 0x75)
    | none => false

/-- A command of the engines (R309). -/
def Instr.isCommand : Instr → Bool
  | .cpIn .. | .cpOut .. | .cpPeer .. | .cpFill .. | .pub .. | .mm .. | .mmRd .. | .mmLd .. | .mmClr .. => true
  | _ => false

end Sys2Proof
end

