-- ==== Sys2Proof/Machine/Batches.lean ====
section
/-! DEFINITION. Batches of a weave: the LFSR, splitting, switch points, parking and merging, and the marks and outstanding
long-latency operations with their landing (R28, R31, R178 to R184, R260). -/
namespace Sys2Proof.Machine

/-! ### The LFSR and the choice of the current batch (R178 to R181) -/

/-- One step: the new value; the bit returned is bit 0 of the old one (R178). -/
def lfsrStep (l : BitVec 32) : BitVec 32 := if l.getLsbD 0 then (l >>> 1) ^^^ 0x80200003#32 else l >>> 1

/-- The lowest slot of a batch. -/
def Batch.low (b : Batch) : Nat := b.members.foldl Nat.min 32
/-- Runnable: neither parked, suspended nor in a trap, which is a batch that awaits its record (R349); a batch that runs its trap routine is runnable
(R180; log 46). -/
def Batch.runnable (b : Batch) : Bool := match b.state with | .run | .woke _ => true | _ => false
def Batch.parked (b : Batch) : Bool := match b.state with | .parked => true | _ => false

def Weave.curBatch (w : Weave) : Option Batch := w.cur.bind fun i => w.batches[i]?

/-- Position in the rotating order that begins after slot `base` (R180). -/
def rotKey (base : Option Nat) (low : Nat) : Nat :=
  match base with
  | some b => (low + 31 - b) % 32
  | none => low

/-- Inserts an index by its key. -/
def insertKey (k : Nat × Nat) : List (Nat × Nat) → List (Nat × Nat)
  | [] => [k]
  | h :: r => if k.1 ≤ h.1 then k :: h :: r else h :: insertKey k r

/-- The runnable batches other than `excl`, in rotating order: their indices. -/
def Weave.runnables (w : Weave) (base excl : Option Nat) : List Nat :=
  ((upto w.batches.length).foldl (fun l i =>
    match w.batches[i]? with
    | some b => if b.runnable && some i != excl then insertKey (rotKey base b.low, i) l else l
    | none => l) []).map Prod.snd

/-- With no runnable batch, the parked batches of the lowest join PC merge and are released past the `join` (R181, R184). -/
def Weave.merge (w : Weave) : Weave :=
  match (w.batches.filter Batch.parked).map fun b => b.pc.toNat with
  | [] => { w with cur := none }
  | p :: ps =>
    let jp := ps.foldl Nat.min p
    let grp := w.batches.filter fun b => b.parked && b.pc.toNat = jp
    let rest := w.batches.filter fun b => !(b.parked && b.pc.toNat = jp)
    match grp with
    | [] => { w with cur := none }
    | g :: _ =>
      let m := sortNat (grp.flatMap Batch.members)
      { w with
        batches := rest ++ [{ g with members := m, pc := g.pc + 8, wd := 0, mac := none, skipBkp := false, stopped := false, entry := false,
                                     stepDue := w.ss, met := (grp.flatMap Batch.met).eraseDups, state := .run }]
        cur := some rest.length }

/-- Draws a successor after the current batch ended, parked or was suspended; `base` is its lowest slot (R180). -/
def Weave.choose (w : Weave) (base : Option Nat) : Weave :=
  match w.runnables base none with
  | [] => w.merge
  | l =>
    let x := lfsrStep w.lfsr
    { w with lfsr := x, cur := some (nth l (x.toNat % l.length)) }

/-- The current batch passes a switch point (R180). -/
def Weave.switch (w : Weave) : Weave :=
  match w.cur, w.curBatch with
  | some i, some b =>
    match w.runnables (some b.low) (some i) with
    | [] => w
    | l =>
      let x := lfsrStep w.lfsr
      { w with lfsr := x, cur := some (nth l (x.toNat % l.length)) }
  | _, _ => w

/-- The batch is held and stays current: at its instruction (R291, R389), or until it starts (R212). -/
def Batch.held (b : Batch) : Bool := match b.state with | .wait (.send ..) | .wait (.far ..) | .wait (.start true) => true | _ => false

/-- A successor is drawn when the current batch cannot run. -/
def Weave.settle (w : Weave) (base : Option Nat) : Weave :=
  match w.curBatch with
  | some b =>
    if b.runnable || b.held then w
    else match w.batches.findIdx? fun y => y.state == .wait (.start true) with
      | some i => { w with cur := some i }
      | none => w.choose (some b.low)
  | none => w.choose base

/-- The batch that holds a slot. -/
def Weave.batchOf (w : Weave) (sl : Nat) : Option (Nat × Batch) :=
  (upto w.batches.length).findSome? fun i =>
    match w.batches[i]? with
    | some b => if b.members.contains sl then some (i, b) else none
    | none => none

/-- Replaces batch i by some batches. The current index follows its batch; it is lost when batch i was current. -/
def Weave.splice (w : Weave) (i : Nat) (bs : List Batch) : Weave :=
  { w with
    batches := w.batches.take i ++ bs ++ w.batches.drop (i + 1)
    cur := w.cur.bind fun c => if c < i then some c else if c = i then none else some (c + bs.length - 1) }

/-- A new batch made runnable at the weave's next switch point, or current when none is (R197, R212). -/
def Weave.addBatch (w : Weave) (b : Batch) : Weave :=
  { w with batches := w.batches ++ [b], cur := some (w.cur.getD w.batches.length) }

/-- A fresh batch at an entry. -/
def Batch.start (m : List Nat) (pc : Word) : Batch :=
  { members := m, pc := pc, entry := true, seta := 15, setb := 15, wd := 0, mac := none, skipBkp := false, stopped := false, stepDue := false,
    met := [], state := .run }

/-- Removes a slot from its batch; an empty batch leaves the weave, and its low slot is returned when it was current. -/
def Weave.leave (w : Weave) (sl : Nat) : Weave :=
  match w.batchOf sl with
  | none => w
  | some (i, b) =>
    let m := b.members.filter fun x => x != sl
    if m.isEmpty then
      let was := w.cur = some i
      let w := w.splice i []
      if was then w.choose (some b.low) else w
    else { w with batches := w.batches.set i { b with members := m } }

/-! ### Marks and outstanding operations (R27 to R31) -/

/-- An issue stamp. -/
def State.stamp (s : State) : State × Nat := ({ s with nextOp := s.nextOp + 1 }, s.nextOp)

def State.marks (s : State) (uid : Nat) (w : Option Nat) : Map Nat :=
  match w with
  | some w => ((s.weave? uid w).map Weave.marks).getD []
  | none => ((s.stream? uid).map Stream.marks).getD []

/-- The count of a mark. -/
def State.markCount (s : State) (uid : Nat) (w : Option Nat) (m : Nat) : Nat := mcount (s.marks uid w) m

def State.setMark (s : State) (uid : Nat) (w : Option Nat) (m n : Nat) : State :=
  match w with
  | some w => s.updWeave uid w fun x => { x with marks := mputCount x.marks m n }
  | none => s.updStream uid fun x => { x with marks := mputCount x.marks m n }

/-- The weave of an actor, or none for the stream. -/
def Actor.weave : Actor → Option Nat
  | .fib _ w _ => some w
  | .seq _ => none

/-- Opens an operation that counts on a mark; 15 counts nowhere (R28, R30). -/
def State.openOp (s : State) (uid : Nat) (w : Option Nat) (mark : Nat) : State × Nat :=
  let s1 := if mark < 12 then s.setMark uid w mark (s.markCount uid w mark + 1) else s
  let s2 := s1.updBlock uid fun b => { b with ops := mput b.ops s.nextOp (w, mark) }
  ({ s2 with nextOp := s.nextOp + 1 }, s.nextOp)

def State.pendOf (s : State) : Actor → List Pend
  | .fib u w sl => ((s.fibre? u w sl).map Fibre.pend).getD []
  | .seq u => ((s.stream? u).map Stream.pend).getD []

def State.updPend (s : State) (a : Actor) (f : List Pend → List Pend) : State :=
  match a with
  | .fib u w sl => s.updFibre u w sl fun x => { x with pend := f x.pend }
  | .seq u => s.updStream u fun x => { x with pend := f x.pend }

/-- An outstanding result: earlier results for the same register are discarded at their landing (R31). -/
def State.addPend (s : State) (a : Actor) (p : Pend) : State :=
  let s := match p.dst, a with
    | .k n, .fib u w _ => s.updWeave u w fun x => { x with fibres := mmap x.fibres fun _ f => { f with pend := clearPend f.pend (.k n) } }
    | .none, _ => s
    | d, _ => s.updPend a fun l => clearPend l d
  let s := match p.pred with
    | some (n, _) => s.updPend a fun l => clearPendPred l n
    | none => s
  s.updPend a fun l => l ++ [p]

/-- An operation completes: the replies it waits for have arrived, its mark falls, its flags are raised, its results may land (R28, R82, R249). -/
def completeOp (s : State) (uid op : Nat) : State :=
  match s.block? uid with
  | none => s
  | some b =>
    match mget b.ops op with
    | none => s
    | some (w, m) =>
      let s := (deliverOps s op).updBlock uid fun b => { b with ops := mdel b.ops op, lreads := mdel b.lreads op }
      let s := if m < 12 then s.setMark uid w m (s.markCount uid w m - 1) else s
      let mark (l : List Pend) : List Pend := l.map fun p => if p.op = op then { p with done := true } else p
      match w with
      | none => s.updStream uid fun x => { x with pend := mark x.pend }
      | some w =>
        let fs := ((s.weave? uid w).map Weave.fibres).getD []
        fs.foldl (fun s e =>
          let a := Actor.fib uid w e.1
          let fl := e.2.pend.foldl (fun (x : FFlags) p => if p.op = op then x ||| p.flags else x) 0
          (s.raise a fl).updPend a mark) s

/-- Writes a result that is not poisoned. -/
def landPend (s : State) (a : Actor) (p : Pend) : State :=
  let s := match p.dst, a with
    | .w n, .fib u w sl =>
      if p.own then s.updFibre u w sl fun f => { f with regs := mput f.regs n (.live p.val) } else s.writeW a n p.val
    | .k n, .fib u w _ => s.writeK u w n p.val
    | .s n, .seq _ => s.writeW a n p.val
    | _, _ => s
  match p.pred with
  | some (n, v) => s.writeP a n.toNat v
  | none => s

/-- Lands the completed results that `sel` selects, in program order; the poisoned ones are returned and keep their destination
(R31, R149). -/
def landSel (s : State) (a : Actor) (sel : Pend → Bool) : State × List Pend :=
  ((s.pendOf a).filter fun p => p.done && sel p).foldl (fun r q =>
    match (r.1.pendOf a).find? fun p => p.op = q.op with
    | none => r
    | some p =>
      let s := r.1.updPend a fun l => l.filter fun x => x.op != p.op
      if p.poison.isSome then (s, r.2 ++ [p]) else (landPend s a p, r.2)) (s, [])

/-- Waits for every outstanding operation of an actor and lands (R31): trap entry, saves, `fend`, `tret`, `recruit`. -/
def flush (s : State) (a : Actor) : State × List Pend :=
  let s := (s.pendOf a).foldl (fun s p => completeOp s a.uid p.op) s
  landSel s a fun _ => true

/-! ### Waking (R180, R202) -/

/-- Wakes the batches and the stream of a block whose wait satisfies a test. -/
def Block.wakeIf (b : Block) (p : Wait → Bool) : Block :=
  { b with
    weaves := mmap b.weaves fun _ w => (upto w.batches.length).foldl (fun w i =>
      match w.batches[i]? with
      | some y => (match y.state with | .wait q => if p q then w.wake i else w | _ => w)
      | none => w) w
    stream := b.stream.map fun x => match x.state with
      | .wait q => if p q then { x with state := .woke q } else x
      | _ => x }
/-- Wakes the batches and the stream of a block whose wait satisfies a test. -/
def wakeIf (s : State) (uid : Nat) (p : Wait → Bool) : State := s.updBlock uid fun b => b.wakeIf p

/-! ### Bindings (R260, R270, R275) -/

/-- Releases a binding; the register stays live with its value. -/
def dropBind (s : State) (a : Actor) (n : Nat) : State := s.updFib a fun f => { f with binds := mdel f.binds n }

/-- Refreshes a fibre's bindings but those of registers whose results have still to land, discarded ones too, and of the registers `own`, in which the
instruction under way has still to land its own; answers the virtual address of the first binding whose pending value is poisoned, which is released.
`quiet` points set LOST and answer none (R260, R275). Of two bindings found
poisoned at one refresh, of which R275 does not speak, both are released, and the lower register's alone gives the trap (log 86). -/
def Fibre.refresh (f : Fibre) (quiet : Bool) (own : List Nat) : Fibre × Option Word :=
  f.binds.foldl (fun r e =>
    if own.contains e.1 || f.pend.any fun p => p.dst.reg? = some e.1 then r
    else match e.2.pending with
      | none => r
      | some v =>
        if e.2.poison then
          let g := { r.1 with binds := mdel r.1.binds e.1 }
          if quiet then ({ g with blost := true }, none) else (g, some (r.2.getD e.2.va))
        else
          ({ r.1 with regs := mput r.1.regs e.1 (.live v), binds := mupd r.1.binds e.1 fun b => { b with pending := none } }, r.2)) (f, none)

/-- Refreshes an actor's bindings but those of some registers. -/
def refreshBut (s : State) (a : Actor) (quiet : Bool) (own : List Nat) : State × Option Word :=
  match s.fib? a with
  | none => (s, none)
  | some f => (s.updFib a fun _ => (f.refresh quiet own).1, (f.refresh quiet own).2)

/-- Refreshes all of an actor's bindings. -/
def refresh (s : State) (a : Actor) (quiet : Bool) : State × Option Word := refreshBut s a quiet []

end Sys2Proof.Machine
end

