-- ==== Sys2Proof/Machine/Ops.lean ====
section
/-! DEFINITION. Shared operations of issue: trap records, taking a trap and the return from one, ending a block, helper
faults, splitting a batch as an instruction ends, and the checks that every instruction passes (spec 18, 08, 10, 03). -/
namespace Sys2Proof.Machine

/-! ### Ending a block (R171, R226, R349) -/

/-- An entry of a core's pools is free: the first batch that waits for one at a `recruit` there is tried again (R210). -/
def poolFreed (s : State) (c : Nat) : State :=
  let l := s.blocks.flatMap fun b => b.2.weaves.flatMap fun w =>
    if w.2.core = c then (upto w.2.batches.length).filterMap fun i =>
      match w.2.batches[i]? with
      | some y => (match y.state with | .wait (.recruit (_ :: _)) => some (b.1, w.1, i) | _ => none)
      | none => none
    else []
  match l with
  | (u, w, i) :: _ => s.updWeave u w fun x => x.wake i
  | [] => s

/-- Some weave is resident on a core. -/
def State.holdsWeave (s : State) (c : Nat) : Bool := s.blocks.any fun b => b.2.weaves.any fun w => w.2.core = c

/-- The cores after a block has left: its spilled registers are gone, and a core that holds no weave starts afresh (R185, R425). -/
def tidyCores (s : State) (uid : Nat) : State :=
  { s with cores := mmap s.cores fun c x =>
      { x with lent := x.lent.filter fun e => e.1 != uid, started := x.started && s.holdsWeave c } }

/-- The cores on which a block's fibres have pools open, one entry for each pool. -/
def Block.openPools (b : Block) : List Nat :=
  b.weaves.flatMap fun w => w.2.fibres.filterMap fun f => if f.2.pool.isSome then some w.2.core else none

/-- Changes a block, on a core or in a frame. -/
def State.updAnywhere (s : State) (uid : Nat) (f : Block → Block) : State :=
  { s.updBlock uid f with frames := mmap s.frames fun _ x => if x.uid = uid then { x with block := x.block.map f } else x }

/-- A block's engines are idle again as to some command: an `lbmap` or `g.reset` that waits behind it looks again, in a saved block too (R315). -/
def wakeEngine (s : State) (uid : Nat) : State := s.updAnywhere uid fun b => b.wakeIf fun q => match q with | .engine => true | _ => false

/-- A block is no longer resident: its helpers, buffers and pools go with it, and its commands write no other block's buffers any more (R315). -/
def unplace (s : State) (uid : Nat) : State :=
  match s.block? uid with
  | none => s
  | some b =>
    let blocks := mmap (mdel s.blocks uid) fun _ y => { y with farStop := y.farStop.filter fun e => e.1 != uid }
    let s := b.openPools.foldl poolFreed (tidyCores { s with blocks } uid)
    b.running.foldl (fun s r => if r.target = uid then s else wakeEngine s r.target) s

/-- A block that is over, or placed again from its start, is no absent member of a tree any more (R397). -/
def leaveRoots (s : State) (uid : Nat) : State :=
  let out (r : Root) : Root := { r with absent := r.absent.filter fun u => u != uid }
  { s with root0 := out s.root0, root1 := out s.root1 }

/-- A block leaves its core with its helpers and its store buffer; the launch counts it. -/
def dropBlock (s : State) (uid : Nat) (f : Launch → Launch) : State :=
  match s.block? uid with
  | none => s
  | some b => (leaveRoots (unplace s uid) uid).updLaunch b.ctx b.lid f

/-- The block is killed: its uncommitted stores are dropped (R364; log 17). -/
def killBlock (s : State) (uid : Nat) : State := dropBlock s uid fun l => { l with killed := l.killed + 1 }

/-- Every fibre and the stream have ended and the engines are idle (R171). -/
def Block.over (b : Block) : Bool :=
  b.weaves.all (fun w => w.2.fibres.isEmpty) && (match b.stream with | some x => x.state == .ended | none => true)
    && b.cpReady.isEmpty && b.mmReady.isEmpty && b.running.isEmpty && b.grun.isNone

/-- Ends a block that is over: block end is a commit point (R171, R362), and a store refused there still kills it (R367). Once every fibre has ended, a stream that waits at a queue finds
so (R307). -/
def tryEnd (s : State) (uid : Nat) : State :=
  match s.block? uid with
  | none => s
  | some b =>
    if b.over then
      let s := commitBuf s (.block uid)
      if s.inbox.any fun i => match i with | .remoteRefusal r _ _ => r.uid = uid | _ => false then s
      else dropBlock s uid fun l => { l with ended := l.ended + 1 }
    else if b.weaves.all fun w => w.2.fibres.isEmpty then
      wakeIf s uid fun q => match q with | .qpush .. | .qpop .. => true | _ => false
    else s

/-! ### Traps (R347 to R349) -/

/-- One actor's trap: cause, inner cause, ADDR, AUX, the instruction, the resume point, and inside a macro the operation that
trapped and the call to resume (R146, R351, R353). -/
structure Trp where
  who : Actor
  cause : BitVec 8
  inner : BitVec 8 := 0
  addr : Word := 0
  aux : Word := 0
  pc : Word := 0
  rpc : Word := 0
  step : Option Nat := none
  rmac : Option MacRun := none
  /-- a trap 0x0D that is no use of R214: misuse of the iteration pool by `hwork` or `hret` (R217, R218, R222) -/
  pool : Bool := false
  deriving DecidableEq, Repr

/-- What a helper's fault puts into its recruiter's record (R222, R351). -/
structure HelperRec where
  slot : Nat
  core : Nat
  rpc : Word
  mask : Nat
  /-- a poisoned result was discarded as the helper landed (R445) -/
  poison : Bool := false
  deriving DecidableEq, Repr

/-- A fault handler is registered: FH of the context's flags (R434). -/
def State.hasFH (s : State) (ctx : Nat) : Bool := ((s.ctx? ctx).map fun x => x.flags.getLsbD 0).getD false

/-- The causes marked context in R347. -/
def ctxCause (c : BitVec 8) : Bool := c == 0x07 || c == 0x08

inductive TrapPath where
  | ctx | routine | kill
  deriving DecidableEq, Repr

/-- The tests of R349 in their order. -/
def trapPath (fh : Bool) (hasRoutine intrap : Bool) (cause : BitVec 8) : TrapPath :=
  if ctxCause cause && fh then .ctx else if hasRoutine && !intrap then .routine else .kill

/-- The address of the trap routine (R32). -/
def Block.trapPC (b : Block) : Word := b.hdrVA + ofNat64 (32 * b.hdr.trapEntry)

/-- The trap registers written at an entry (R353). -/
def TrapRegs.enter (x : TrapRegs) (t : Trp) (seq : Nat) (side poison routine : Bool) (seta setb : BitVec 4) (entry : Bool) : TrapRegs :=
  { poison, seq, inTrap := x.inTrap || routine, side, seta, setb, stepv := t.rmac.isSome,
    step := BitVec.ofNat 5 ((t.rmac.map MacRun.step).getD 0), inner := t.inner, cause := t.cause, xpc := t.rpc, xfpc := t.pc,
    xaddr := t.addr, xaux := t.aux, entry }

/-- Results land and bindings refresh at a trap entry: the state, and the actors one of whose results was poisoned (R349, R445). -/
def trapLand (s : State) (as : List Actor) : State × List Actor :=
  as.foldl (fun r a =>
    let x := flush r.1 a
    ((refresh x.1 a true).1, if x.2.isEmpty then r.2 else r.2 ++ [a])) (s, [])

/-- TAKING A TRAP, fibre side: the trapping fibres form the whole of one batch, which holds the first one's slot; all have one
cause. `noFH` enters as if no handler existed (R352); `hr` describes a helper's fault charged to its recruiter (R349, R222). -/
def takeTrap (s : State) (uid w : Nat) (ts : List Trp) (noFH : Bool) (hr : Option HelperRec) : State :=
  match ts, s.block? uid with
  | [], _ => s
  | _, none => s
  | t :: _, some b0 =>
    let (s, bad) := trapLand s (ts.map Trp.who)
    match s.block? uid with
    | none => s
    | some b =>
      let slot (a : Actor) : Nat := ((s.fib? a).map Fibre.fslot).getD 0
      let intrap := ts.any fun t => ((s.fib? t.who).map fun f => f.tr.inTrap).getD false
      let path := trapPath (s.hasFH b.ctx && !noFH) (b.hdr.trapEntry != 0) intrap t.cause
      let r : Rec :=
        { block := b.idx, cause := t.cause.toNat, inner := t.inner.toNat,
          flags := recFlags false hr.isSome (path == .ctx) (path == .kill) false false (intrap && path == .kill) (!bad.isEmpty || (hr.map HelperRec.poison).getD false),
          step := t.step.getD 0xFF, slot := (hr.map HelperRec.slot).getD (slot t.who),
          core := (hr.map HelperRec.core).getD (s.coreOf t.who), pc := t.pc, rpc := (hr.map HelperRec.rpc).getD t.rpc,
          addr := t.addr, aux := t.aux, lrec := b0.record.toNat,
          mask := (hr.map HelperRec.mask).getD (maskOf (ts.map fun t => t.who.slot)) }
      let (s, seq) := writeRecord s b.ctx r (path == .ctx)
      let bs := ((s.weave? uid w).bind fun x => x.batchOf t.who.slot).map Prod.snd
      let seta := (bs.map Batch.seta).getD 15
      let setb := (bs.map Batch.setb).getD 15
      let entry := (bs.map Batch.entry).getD false
      let s := ts.foldl (fun s t => s.updFib t.who fun f =>
        { f with tr := f.tr.enter t seq false (bad.contains t.who) (path == .routine) seta setb entry, smac := t.rmac }) s
      let set (f : Batch → Batch) : State :=
        s.updWeave uid w fun x =>
          match x.batchOf t.who.slot with
          | some (i, y) =>
            let x := { x with batches := x.batches.set i (f y) }
            if (f y).runnable then { x with cur := some (x.cur.getD i) } else x.settle (some y.low)
          | none => x
      match path with
      | .ctx => set fun y => { y with pc := t.rpc, mac := t.rmac, stopped := false, state := .wait (.record seq) }
      | .routine => set fun y => { y with pc := b.trapPC, mac := none, entry := true, stopped := false, state := .run }
      | .kill => killBlock s uid

/-- TAKING A TRAP, sequencer side. A pending capture is discarded (R325). -/
def takeTrapSeq (s : State) (uid : Nat) (t : Trp) (noFH : Bool) : State :=
  let (s, bad) := trapLand (s.updStream uid fun x => { x with capture := none }) [.seq uid]
  match s.block? uid, s.stream? uid with
  | some b, some x =>
    let path := trapPath (s.hasFH b.ctx && !noFH) (b.hdr.trapEntry != 0) x.tr.inTrap t.cause
    let r : Rec :=
      { block := b.idx, cause := t.cause.toNat, inner := t.inner.toNat,
        flags := recFlags true false (path == .ctx) (path == .kill) false false (x.tr.inTrap && path == .kill) (!bad.isEmpty),
        step := 0xFF, slot := 0xFFFF, core := b.core, pc := t.pc, rpc := t.rpc, addr := t.addr, aux := t.aux,
        lrec := b.record.toNat, mask := 0 }
    let (s, seq) := writeRecord s b.ctx r (path == .ctx)
    let s := s.updStream uid fun x =>
      { x with tr := x.tr.enter t seq true (!bad.isEmpty) (path == .routine) x.seta x.setb x.entry }
    match path with
    | .ctx => s.updStream uid fun x => { x with pc := t.rpc, stopped := false, state := .wait (.record seq) }
    | .routine => s.updStream uid fun x => { x with pc := b.trapPC, entry := true, stopped := false, state := .run }
    | .kill => killBlock s uid
  | _, _ => s

/-! ### Helpers (R220 to R222) -/

/-- The number by which events name a fibre's pool. -/
def poolKey (rw rs : Nat) : Nat := 32 * rw + rs

/-- The uncommitted stores of a helper leave its buffer. -/
def dropHelperStores (s : State) (uid w sl : Nat) : State :=
  let q := s.bufOf (.fib uid w sl)
  s.setBuf q ((s.buf q).filter fun e => !(e.helper && e.who = some (w, sl)))

/-- A core that holds no weave starts afresh (R425). -/
def coreIdle (s : State) (c : Nat) : State := if s.holdsWeave c then s else s.updCore c fun x => { x with started := false }

/-- A helper or handler weave whose fibres are gone leaves its weave slot (R220, R391). -/
def dropIdle (s : State) (uid w : Nat) : State :=
  match s.weave? uid w with
  | some x =>
    if x.kind != .block && x.fibres.isEmpty then coreIdle (s.updBlock uid fun b => { b with weaves := mdel b.weaves w }) x.core else s
  | none => s

/-- A fibre's registers are freed and its slot is idle, once its outstanding operations have completed, whose flags are raised (R82); an open pool
closes with it. Its stores that the block's buffer still holds stay there without an owner, and those in a buffer of its own weave go with the weave:
of the uncommitted stores of a helper that is released without an iteration the spec says nothing (log 78). -/
def dropFibre (s : State) (uid w sl : Nat) : State :=
  let s := (flush s (.fib uid w sl)).1
  let q := s.bufOf (.fib uid w sl)
  let s := s.setBuf q ((s.buf q).map fun e => if e.who = some (w, sl) then { e with who := none } else e)
  let c := ((s.weave? uid w).map Weave.core).getD 0
  let open_ := ((s.fibre? uid w sl).bind Fibre.pool).isSome
  let s := s.updWeave uid w fun x => { x with fibres := mdel x.fibres sl }
  if open_ then poolFreed s c else s

/-- A helper ends: its registers are freed, its pool's count falls, and its recruiter's resumption becomes due with the last one
(R220, R224). -/
def helperGone (s : State) (uid w sl : Nat) : State :=
  match s.fibre? uid w sl with
  | none => s
  | some f =>
    match f.kind with
    | .helper rw rs _ =>
      let s := (dropFibre s uid w sl).updFibre uid rw rs fun r => { r with pool := r.pool.map fun p => { p with helpers := p.helpers - 1 } }
      match (s.fibre? uid rw rs).bind Fibre.pool with
      | some p => if p.helpers = 0 && p.waiting then s.post (.recruiterResume uid (poolKey rw rs)) else s
      | none => s
    | _ => s

/-- The last fibre of a batch that is held at a `fence.far` leaves: its target is no longer asked to stop (R291). -/
def dropFar (s : State) (uid w sl : Nat) : State :=
  match (s.weave? uid w).bind fun x => x.batchOf sl with
  | some (_, b) =>
    (match b.state with
      | .wait (.far id ..) =>
        if b.members.all fun m => m = sl then
          { s with blocks := mmap s.blocks fun _ y => { y with farStop := y.farStop.filter fun e => e != (uid, id) } }
        else s
      | _ => s)
  | none => s

/-- The pool that a fibre works for: its recruiter's, or its own. -/
def poolOwner (w sl : Nat) (f : Fibre) : Nat × Nat :=
  match f.kind with
  | .helper rw rs _ => (rw, rs)
  | _ => (w, sl)

/-- What the claim loop finds. -/
inductive Claim where
  | take (i : Nat) (held : Bool)
  | none
  | close
  | wait
  deriving DecidableEq, Repr

def Pool.claim (p : Pool) (helper : Bool) : Claim :=
  match (p.held.filter fun h => h.2.isNone).map Prod.fst with
  | i :: _ => .take i true
  | [] =>
    if p.u < p.n then (if p.u < p.p + 32 then .take p.u false else .wait)
    else if helper then .none
    else if p.p = p.n then .close
    else .wait

/-- Wakes the batches at `hwork` whose next participant can go on, or has been released. -/
def wakeHwork (s : State) (uid : Nat) : State :=
  match s.block? uid with
  | none => s
  | some b =>
    s.updBlock uid fun _ =>
      { b with weaves := mmap b.weaves fun wi x => (upto x.batches.length).foldl (fun x i =>
          match x.batches[i]? with
          | some y =>
            (match y.state with
              | .wait (.hwork _ _ todo) =>
                (match (todo.find? y.members.contains).bind fun sl => (mget x.fibres sl).map fun f => (f, poolOwner wi sl f) with
                  | some (f, o) =>
                    (match (s.fibre? uid o.1 o.2).bind Fibre.pool with
                      | some p => if p.claim f.isHelper = .wait then x else x.wake i
                      | none => x.wake i)
                  | none => x.wake i)
              | _ => x)
          | none => x) x }

/-- A helper leaves its batch and ends; an empty helper weave is gone, and a participant of an `hwork` that stood behind it is served (R217). -/
def releaseHelper (s : State) (uid w sl : Nat) : State :=
  wakeHwork (dropIdle (helperGone ((dropFar s uid w sl).updWeave uid w fun x => x.leave sl) uid w sl) uid w) uid

/-- Iterations neither committed nor applied: the value of `recruit`'s D (R222, R224). -/
def Pool.left (p : Pool) : Nat := p.n - (p.p + p.committed.length)

/-- The helpers of a recruitment, as (weave, slot). -/
def helpersOf (s : State) (uid rw rs : Nat) : List (Nat × Nat) :=
  match s.block? uid with
  | none => []
  | some b => b.weaves.flatMap fun w => w.2.fibres.filterMap fun f =>
      match f.2.kind with
      | .helper a c _ => if a = rw && c = rs then some (w.1, f.1) else none
      | _ => none

/-- A helper's current iteration is discarded and held: claimable, or waiting for a record; of a helper without one the record alone is kept (R221,
R222). -/
def holdIteration (s : State) (uid w sl : Nat) (wait : Option HeldRec) : State :=
  match s.fibre? uid w sl with
  | none => s
  | some f =>
    let s := dropHelperStores s uid w sl
    match f.kind, f.cur, wait with
    | .helper rw rs _, some (i, _), _ => s.updFibre uid rw rs fun r => { r with pool := r.pool.map fun p => { p with held := mput p.held i wait } }
    | .helper rw rs _, none, some h => s.updFibre uid rw rs fun r => { r with pool := r.pool.map fun p => { p with idle := p.idle ++ [h] } }
    | _, _, _ => s

/-- Splits slot `sl` off its batch, keeping the state of each part. -/
def Weave.splitOff (x : Weave) (sl : Nat) : Weave :=
  match x.batchOf sl with
  | none => x
  | some (i, b) =>
    let rest := b.members.filter fun m => m != sl
    if rest.isEmpty then x
    else
      let keep (p : Nat → Bool) (st : BState) : BState := match st with
        | .wait (.recruit t) => .wait (.recruit (t.filter p))
        | st => st
      { x with batches := x.batches.set i { b with members := rest, state := keep (fun m => m != sl) b.state }
          ++ [{ b with members := [sl], state := keep (fun m => m = sl) b.state }] }

/-- Batches at a `recruit` whose participants have all resumed go on (R210, R224). -/
def recruitReady (s : State) (uid w : Nat) : State :=
  s.updWeave uid w fun x => (upto x.batches.length).foldl (fun x i =>
    match x.batches[i]? with
    | some b =>
      if b.state == .wait (.recruit []) && !(b.members.any fun m => match (mget x.fibres m).bind Fibre.pool with
          | some p => p.waiting
          | none => false)
      then x.wake i else x
    | none => x) x

/-- A helper's fault ends the helpers' part of a recruitment and traps its recruiter at its `recruit` (R222). -/
def recruiterTrap (s : State) (uid rw rs : Nat) (cause inner : BitVec 8) (addr aux : Word) (hr : HelperRec) : State :=
  let s := (helpersOf s uid rw rs).foldl (fun s h => releaseHelper (holdIteration s uid h.1 h.2 none) uid h.1 h.2) s
  match (s.fibre? uid rw rs).bind Fibre.pool with
  | none => s
  | some p =>
    let s := s.updFibre uid rw rs fun f => { f with pool := f.pool.map fun p => { p with helpers := 0, waiting := false } }
    let s := (s.unspill uid rw rs p.dst).writeW (.fib uid rw rs) p.dst (ofNat64 p.left)
    let s := s.updWeave uid rw fun x => x.splitOff rs
    let pc := (((s.weave? uid rw).bind fun x => x.batchOf rs).map fun b => b.2.pc).getD 0
    recruitReady (takeTrap s uid rw [{ who := .fib uid rw rs, cause, inner, addr, aux, pc, rpc := pc + 16 }] false (some hr)) uid rw

/-- A trap in a helper, which first lands its results (R349, R445): recoverable under R221, or not under R222. A helper that an earlier trap of the
same instruction has released takes none. AUX holds its iteration, and 0 where it holds none (log 79). -/
def helperTrap (s : State) (t : Trp) : State :=
  match t.who with
  | .seq _ => s
  | .fib uid w sl =>
    let (s, bad) := flush s t.who
    let poison := !bad.isEmpty
    match s.block? uid, s.fibre? uid w sl with
    | some b, some f =>
      match f.kind with
      | .helper rw rs n =>
        let p := (s.fibre? uid rw rs).bind Fibre.pool
        let held := (p.map fun p => p.held.length).getD 0
        let iter := ofNat64 ((f.cur.map Prod.fst).getD 0)
        let core := s.coreOf t.who
        let recov := (t.cause == 0x07 || t.cause == 0x08 || t.cause == 0x0E) && s.hasFH b.ctx && decide (held < 32)
        if recov then
          let rpc := (((s.weave? uid rw).bind fun x => x.batchOf rs).map fun y => y.2.pc).getD 0
          let r : Rec :=
            { block := b.idx, cause := 0x0C, inner := t.cause.toNat,
              flags := recFlags false true true false false false false poison, step := t.step.getD 0xFF, slot := 1024 + n, core,
              pc := rpc, rpc := t.pc, addr := t.addr, aux := iter, lrec := b.record.toNat, mask := maskOf [sl] }
          let (s, seq) := writeRecord s b.ctx r true
          let s := holdIteration s uid w sl (some ⟨seq, t.cause, t.addr, 1024 + n, core, t.pc, maskOf [sl]⟩)
          let s := s.updFibre uid rw rs fun r => { r with faults := satTo 255 (r.faults + 1) }
          releaseHelper s uid w sl
        else
          let misuse := t.cause == 0x0D && !t.pool
          recruiterTrap s uid rw rs (if misuse then 0x0D else 0x0C) (if misuse then 0 else t.cause) t.addr iter
            { slot := 1024 + n, core, rpc := t.pc, mask := maskOf [sl], poison }
      | _ => s
    | _, _ => s

/-- The traps of a helper batch are taken one at a time in ascending slot order; helpers of several recruiters may stand in one batch (R221, R222). -/
def helperTraps (s : State) (ts : List Trp) : State := ts.foldl helperTrap s

/-- The batch of some slots, without the others that stand in it. -/
def Weave.partOff (x : Weave) (l : List Nat) : Weave :=
  match l.head?.bind x.batchOf with
  | none => x
  | some (i, b) =>
    let rest := b.members.filter fun m => !l.contains m
    if rest.isEmpty then x
    else { x with batches := x.batches.set i { b with members := b.members.filter l.contains } ++ [{ b with members := rest }] }

/-- Enters the traps of one cause: the ordinary fibres as one batch, then the helpers one by one. A fibre that an earlier trap of the same
instruction has released takes none (R221, R222, R348). -/
def enterTraps (s : State) (uid w : Nat) (ts : List Trp) : State :=
  let ts := ts.filter fun t => (s.fib? t.who).isSome
  let own := ts.filter fun t => !s.isHelper t.who
  let t := s.updWeave uid w fun x => x.partOff (own.map fun t => t.who.slot)
  helperTraps (takeTrap t uid w own false none) (ts.filter fun t => s.isHelper t.who)

/-! ### How an instruction ends -/

/-- Where a fibre goes on: PC, marks of the clause, macro call, and whether breakpoints skip its first instruction (R354). -/
structure Target where
  pc : Word
  seta : BitVec 4
  setb : BitVec 4
  mac : Option MacRun
  skip : Bool
  wd0 : Bool
  /-- the word there has still to be checked as an entry (R34) -/
  entry : Bool := false
  deriving DecidableEq, Repr

/-- How the participants of an instruction go on. -/
inductive How where
  /-- to their targets -/
  | go
  /-- the batch is suspended at the instruction -/
  | wait (w : Wait)
  /-- some slots are suspended at the instruction, and the others go on -/
  | part (w : Wait) (l : List Nat)
  /-- the participants park at a `join` -/
  | park
  /-- the batch waits at issue and is tried again -/
  | stall
  /-- the batch stands inside a macro call -/
  | inside (m : MacRun)
  deriving DecidableEq, Repr

/-- An instruction as it issues: the block, the weave and its batch, the PC, the address of the next instruction, the participants,
and the wait that a woken batch or stream has had satisfied. -/
structure Iss where
  uid : Nat
  weave : Option Nat
  pc : Word
  npc : Word
  size : Nat
  acts : List Actor
  batch : List Actor
  seta : BitVec 4
  setb : BitVec 4
  mac : Option MacRun
  wd : Nat
  woke : Option Wait
  /-- slots that are in their trap routine as the instruction issues (R356) -/
  inside : List Nat
  deriving DecidableEq, Repr

/-- What an instruction's own effect leaves to be done. -/
structure Done where
  st : State
  traps : List Trp := []
  /-- transfers: slot and target -/
  moves : List (Nat × Target) := []
  /-- slots that have ended -/
  gone : List Nat := []
  sw : Bool := false
  /-- the transfers are backward ones of R140 where their target is not above the instruction -/
  branch : Bool := false
  wd0 : Bool := false
  /-- a clause header, which single step does not count -/
  hdr : Bool := false
  how : How := .go

/-- A trap whose resume point is the instruction, or the operation of a macro (R146, R347). -/
def Iss.trapHere (k : Iss) (a : Actor) (cause : BitVec 8) (addr aux : Word) : Trp :=
  match k.mac with
  | none => { who := a, cause, addr, aux, pc := k.pc, rpc := k.pc }
  | some m => { who := a, cause, addr, aux, pc := k.pc, rpc := k.pc, step := some m.step, rmac := some m }

/-- A trap whose resume point is the next instruction or operation. -/
def Iss.trapNext (k : Iss) (a : Actor) (cause : BitVec 8) (addr aux : Word) : Trp :=
  match k.mac with
  | none => { who := a, cause, addr, aux, pc := k.pc, rpc := k.npc }
  | some m =>
    if m.step + 1 < m.ops.length then
      { who := a, cause, addr, aux, pc := k.pc, rpc := k.pc, step := some m.step, rmac := some { m with step := m.step + 1 } }
    else { who := a, cause, addr, aux, pc := k.pc, rpc := k.pc + 8, step := some m.step }

/-- Where a fibre goes on when it does not transfer. -/
def Iss.fall (k : Iss) (wd0 : Bool) : Target :=
  match k.mac with
  | none => { pc := k.npc, seta := k.seta, setb := k.setb, mac := none, skip := false, wd0 }
  | some m =>
    if m.step + 1 < m.ops.length then
      { pc := k.pc, seta := k.seta, setb := k.setb, mac := some { m with step := m.step + 1 }, skip := false, wd0 }
    else { pc := k.pc + 8, seta := k.seta, setb := k.setb, mac := none, skip := false, wd0 }

/-- A batch that goes on at a target. -/
def Batch.at (b : Batch) (m : List Nat) (t : Target) (wd : Nat) : Batch :=
  { b with members := m, pc := t.pc, entry := t.entry, seta := t.seta, setb := t.setb, wd := if t.wd0 then 0 else wd, mac := t.mac,
           skipBkp := t.skip, stopped := false, stepDue := false, state := .run }

/-- What tells two targets apart: the PC, the step of a macro call, the marks, and whether the fibre returns from a trap or stays (R179, R354; log 80). -/
def Target.key (t : Target) : Word × Option Nat × BitVec 4 × BitVec 4 × Bool := (t.pc, t.mac.map MacRun.step, t.seta, t.setb, t.skip)

/-- A target for one fibre more, which takes part in the macro call as its own target has it; the call's operations are those of the lowest fibre, and the
word is checked as an entry where that is due for any of them (log 80). -/
def Target.join (t u : Target) (sl : Nat) : Target :=
  let here := (u.mac.map fun m => m.part.contains sl).getD false
  { t with
    entry := t.entry || u.entry
    mac := t.mac.map fun m =>
      if m.part.contains sl = here then m
      else { m with part := if here then m.part ++ [sl] else m.part.filter fun x => x != sl } }

/-- Adds a slot to the group of its target; `moved` marks a target that some fibre transfers to. -/
def addTarget (t : Target) (moved : Bool) (sl : Nat) : List (Target × Bool × List Nat) → List (Target × Bool × List Nat)
  | [] => [(t, moved, [sl])]
  | g :: r => if g.1.key = t.key then (g.1.join t sl, g.2.1 || moved, g.2.2 ++ [sl]) :: r else g :: addTarget t moved sl r

/-- The fibres of a batch that go on, grouped by target, in ascending order of lowest slot (R179). -/
def targets (k : Iss) (d : Done) (slots : List Nat) : List (Target × Bool × List Nat) :=
  slots.foldl (fun l sl =>
    match d.moves.find? fun m => m.1 = sl with
    | some m => addTarget m.2 true sl l
    | none => addTarget (k.fall d.wd0) false sl l) []

/-- The position of the current batch among the parts of a split: two-way with one part falling through takes the transferring part
on 1; other splits take the part at L mod n (R179). A part of a `brx` or `ret` whose target is the next instruction counts as one that transfers, on
which the spec is silent (log 81). -/
def splitPick (l : BitVec 32) (gs : List (Target × Bool × List Nat)) : Nat :=
  match gs with
  | [g, h] =>
    if g.2.1 != h.2.1 then (if l.getLsbD 0 then (if g.2.1 then 0 else 1) else (if g.2.1 then 1 else 0))
    else (lfsrStep l).toNat % 2
  | _ => (lfsrStep l).toNat % gs.length

/-- The causes of some traps, rising. -/
def causesOf (ts : List Trp) : List Nat := sortNat (ts.map fun t => t.cause.toNat)

/-- Inserts a trap by its slot. -/
def insertTrp (t : Trp) : List Trp → List Trp
  | [] => [t]
  | h :: r => if t.who.slot ≤ h.who.slot then t :: h :: r else h :: insertTrp t r

/-- The traps of a cause, in ascending slot order (R349). -/
def trapsOf (ts : List Trp) (c : Nat) : List Trp := (ts.filter fun t => t.cause.toNat = c).foldr insertTrp []

/-- The batches that trapping fibres split off into: one for each cause, helpers apart from ordinary fibres (R221, R348). A fibre whose trap follows its
transfer has made the transfer (R184). -/
def trapParts (s : State) (k : Iss) (b : Batch) (d : Done) : List Batch :=
  (causesOf d.traps).flatMap fun c =>
    let ts := trapsOf d.traps c
    [ts.filter fun t => !s.isHelper t.who, ts.filter fun t => s.isHelper t.who].filterMap fun l =>
      if l.isEmpty then none
      else some { b with members := l.map fun t => t.who.slot, pc := k.pc, mac := k.mac, skipBkp := false, stopped := false, stepDue := false,
                         wd := if d.branch && l.any fun t => t.rpc != k.pc then b.wd + 1 else b.wd, state := .run }

/-- An instruction of a weave ends: trapping fibres split off by cause, the others go on at their targets, switch points and single
step follow (R179, R180, R204, R348, R356). A lone batch that goes on at a `join` without parking counts as released from it, which resets its count of
backward transfers: R184 does not name this case (log 57). -/
def finish (s : State) (k : Iss) (w : Nat) (d : Done) : State :=
  match s.weave? k.uid w with
  | none => s
  | some x =>
    match x.cur, x.curBatch with
    | some i, some b =>
      let stay := b.members.filter fun m => !d.gone.contains m
      let rest := stay.filter fun m => !d.traps.any fun t => t.who.slot = m
      let back := d.branch && d.moves.any fun m => rest.contains m.1 && decide (m.2.pc.toNat ≤ k.pc.toNat)
      let base : Batch := { b with mac := none, skipBkp := false, stopped := false, stepDue := false, entry := false, state := .run }
      let tb := trapParts s k b d
      let acts := k.acts.map Actor.slot
      let gs := targets k d rest
      let cont : List Batch :=
        if rest.isEmpty then []
        else match d.how with
        | .wait q => [{ b with members := rest, skipBkp := false, entry := false, state := .wait q }]
        | .part q l =>
          let p := rest.filter l.contains
          let o := rest.filter fun m => !l.contains m
          let held := if p.isEmpty then [] else [{ b with members := p, skipBkp := false, entry := false, state := .wait q }]
          let on := if o.isEmpty then [] else [b.at o (k.fall d.wd0) b.wd]
          if x.batches.any fun y => y.state == .wait (.start true) then held ++ on else on ++ held
        | .stall => [{ b with members := rest }]
        | .inside m => [{ base with members := rest, mac := some m }]
        | .park =>
          let p := rest.filter acts.contains
          let o := rest.filter fun m => !acts.contains m
          if o.isEmpty then
            (if x.batches.length = 1 && tb.isEmpty then [b.at rest (k.fall true) b.wd] else [{ base with members := p, state := .parked }])
          else if p.isEmpty then [b.at o (k.fall d.wd0) b.wd]
          else [b.at o (k.fall d.wd0) b.wd, { base with members := p, state := .parked }]
        | .go => gs.map fun g =>
          b.at g.2.2 g.1 (if d.branch && g.2.1 && decide (g.1.pc.toNat ≤ k.pc.toNat) then b.wd + 1 else b.wd)
      let split := match d.how with | .go => decide (1 < gs.length) && tb.isEmpty | _ => false
      let x1 := x.splice i (tb ++ cont)
      let x2 : Weave :=
        if split then { x1 with lfsr := lfsrStep x.lfsr, cur := some (i + splitPick x.lfsr gs) }
        else if (tb ++ cont).isEmpty then x1.choose (some b.low)
        else { x1 with cur := some i }
      let x3 := if tb.isEmpty && !split then
          (if (d.sw || back) && k.mac.isNone && !k.acts.isEmpty then x2.switch else x2).settle (some b.low) else x2
      let s := s.updWeave k.uid w fun _ => { x3 with lastIssue := s.clock }
      let s := (causesOf d.traps).foldl (fun s c => enterTraps s k.uid w (trapsOf d.traps c)) s
      let fell := match d.how with
        | .go => gs
        | .part _ l => [(k.fall d.wd0, false, rest.filter fun m => !l.contains m)]
        | .park =>
          let o := rest.filter fun m => !acts.contains m
          if o.isEmpty then (if x.batches.length = 1 && tb.isEmpty then [(k.fall true, false, rest)] else [])
          else [(k.fall d.wd0, false, o)]
        | _ => []
      let s := if x.ss && !d.hdr then
          fell.foldl (fun s g => enterTraps s k.uid w ((g.2.2.filter fun sl => !k.inside.contains sl).map fun sl =>
            { who := .fib k.uid w sl, cause := 0x10, aux := 0x200, pc := k.pc, rpc := g.1.pc, step := k.mac.map MacRun.step, rmac := g.1.mac })) s
        else s
      let s := s.updWeave k.uid w fun x => x.settle (some b.low)
      if d.gone.isEmpty then s else tryEnd (dropIdle s k.uid w) k.uid
    | _, _ => s

/-- An instruction of a stream ends. -/
def finishSeq (s : State) (k : Iss) (d : Done) : State :=
  match d.traps with
  | t :: _ => takeTrapSeq s k.uid t false
  | [] =>
    match d.how with
    | .wait q => s.updStream k.uid fun x => { x with state := .wait q, entry := false }
    | .stall => s
    | _ =>
      let t := match d.moves with | m :: _ => m.2 | [] => k.fall false
      let s := s.updStream k.uid fun x =>
        { x with pc := t.pc, seta := t.seta, setb := t.setb, entry := t.entry, stopped := false,
                 state := match x.state with | .woke _ => .run | st => st }
      match s.stream? k.uid with
      | some x =>
        if x.ss && k.inside.isEmpty then
          takeTrapSeq s k.uid { who := .seq k.uid, cause := 0x10, aux := 0x200, pc := k.pc, rpc := t.pc } false
        else s
      | none => s

/-! ### The checks before an instruction's own effect (R61, R23, R30, R35, R214) -/

/-- An encoding is legal on the sequencer side: s registers below 32, no uniform, last-use or pattern bits, integer types (R49, R98). -/
def seqOk (i : Instr) : Bool :=
  i.onSeq && !i.patterned && i.uses.all (fun u => u.num < 32 && !u.uni)
    && (match i.aform with
        | some f => !f.a.last && !f.b.last && !f.c.last && !f.d.uni
          && (match i.shape with | some sh => sh.op ≥ 0x26 || f.ty.code < 8 | none => true)
        | none => true)
    && (match i with
        | .ld m _ | .st m _ | .pref m _ | .amo m _ | .cas m _ => !m.la && !m.lb && !m.ld
        | .ldl l _ | .stl l _ => !l.la && !l.lb && !l.ld
        | _ => true)

/-- The resource uses beyond the kernel header that check 5 decides (R35); `helper` leaves out the registers. -/
def overLimit (h : Hdr) (helper : Bool) (i : Instr) : Bool :=
  (!helper && (i.uses.any fun u => !u.uni && h.regs ≤ u.num))
    || (match i with
        | .recruit r => !helper && h.regs < r.shr.toNat + 16
        | .mcall _ n => h.macs ≤ n.toNat
        | .mcdef f => h.macs ≤ f.c.num.toNat
        | .ldl l _ | .stl l _ => (match l.buf with | some b => nth h.bufs b.toNat = 0 | none => false)
        | .lbmapSwap _ d a => nth h.bufs d.toNat = 0 || nth h.bufs a.toNat = 0
        | .lbmapSet _ d _ => nth h.bufs d.toNat = 0
        | _ => false)
    || (match i.barrier with | some b => h.bars ≤ b | none => false)

/-- The mark that the instruction selects (R27). -/
def Iss.markOf (k : Iss) (i : Instr) : Nat := (if i.ms then k.setb else k.seta).toNat

/-- Checks 3 to 5 for one participant: the cause of its trap. At check 5 a helper's register use of R214 comes before a use beyond the kernel header in
the same instruction; the spec orders neither (log 63). -/
def issueCheck (s : State) (k : Iss) (i : Instr) (h : Hdr) (a : Actor) : Option (BitVec 8) :=
  let side : Bool := match a with | .fib .. => i.onFibre | .seq _ => seqOk i
  if !i.wf || !side then some 0x01
  else if i.tracked && k.markOf i = 15 then some 0x02
  else
    let helper := s.isHelper a
    if helper && i.helperRegs then some 0x0D
    else if overLimit h (helper || (match a with | .seq _ => true | _ => false)) i then some 0x05
    else if helper && i.notForHelper then some 0x0D
    else none

/-- The context of an issue by the current batch of a weave. -/
def fibIss (s : State) (uid w : Nat) (_x : Weave) (b : Batch) (size : Nat) (g : Guard) : Iss :=
  let all := b.members.map fun sl => Actor.fib uid w sl
  let mine (a : Actor) : Bool := match b.mac with | some m => m.part.contains a.slot | none => true
  { uid, weave := some w, pc := b.pc, npc := b.pc + ofNat64 size, size, acts := all.filter fun a => mine a && s.guard a g,
    batch := all, seta := b.seta, setb := b.setb, mac := b.mac, wd := b.wd,
    woke := match b.state with | .woke q => some q | _ => none
    inside := b.members.filter fun sl => ((s.fibre? uid w sl).map fun f => f.tr.inTrap).getD false }

/-- The context of an issue by a stream. -/
def seqIss (s : State) (uid : Nat) (x : Stream) (size : Nat) (g : Guard) : Iss :=
  { uid, weave := none, pc := x.pc, npc := x.pc + ofNat64 size, size, acts := if s.guard (.seq uid) g then [.seq uid] else [],
    batch := [.seq uid], seta := x.seta, setb := x.setb, mac := none, wd := 0,
    woke := match x.state with | .woke q => some q | _ => none
    inside := if x.tr.inTrap then [0] else [] }

end Sys2Proof.Machine
end

