-- ==== Sys2Proof/Machine/Pressure.lean ====
section
/-! DEFINITION. Physical registers: what a core's blocks hold, and the spill and fill of pending weaves (R173, R185 to R187, R208). -/
namespace Sys2Proof.Machine

/-- Entries of the physical register file of a core. -/
def physRegs : Nat := 12288

def WReg.isLive : WReg → Bool
  | .live _ => true
  | .dead => false

/-- Registers of a fibre whose entry is taken before they are written: those in which a long-latency result is still to land, since the write at its
landing finds an entry whatever has become of the pool, and D of a recruiter that waits (log 75). -/
def Fibre.reserved (f : Fibre) : List Nat :=
  (f.pend.filterMap fun p => match p.dst with | .w n => some n | _ => none)
    ++ (match f.pool with | some p => if p.waiting then [p.dst] else [] | none => [])

/-- Register n of a fibre holds a physical entry: it is live and not spilled, or its entry is reserved. -/
def Fibre.holds (f : Fibre) (n : Nat) : Bool :=
  f.reserved.contains n || (match mget f.regs n with | some (.live _) => !f.spilt.contains n | _ => false)

/-- Registers of a fibre that hold a physical entry. -/
def Fibre.liveRegs (f : Fibre) : Nat :=
  (sortNat (f.reserved ++ (f.regs.filter fun r => r.2.isLive && !f.spilt.contains r.1).map Prod.fst)).length

/-- A helper weave holds 16 entries for each of its helpers, less those that are spilled (R185, R208). -/
def Weave.liveRegs (w : Weave) : Nat :=
  (w.fibres.map fun f => if w.kind == .helper then 16 - f.2.spilt.length else f.2.liveRegs).sum

/-- The reserved share of a block (R173). -/
def Block.reserve (b : Block) : Nat := if b.landing then 0 else b.hdr.fibres * min b.hdr.regs 8

/-- Live registers of a block's weaves on a core; `help` selects the helper weaves or the others. -/
def Block.liveOn (b : Block) (c : Nat) (help : Bool) : Nat :=
  (b.weaves.map fun w => if w.2.core = c && (w.2.kind == .helper) = help then w.2.liveRegs else 0).sum

/-- Registers that a block's weaves on a core hold: on its own core never less than its reserved share, and those of helper weaves beyond it (R173,
R208). -/
def Block.regsOn (b : Block) (c : Nat) : Nat :=
  (if b.core = c then max (b.liveOn c false) b.reserve else b.liveOn c false) + b.liveOn c true

/-- Free entries of a core's file beyond the reserved shares. -/
def State.freeRegs (s : State) (c : Nat) : Nat := physRegs - (s.blocks.map fun b => b.2.regsOn c).sum

/-- A write of n registers by a block's weave on a core finds its entries (R185). -/
def hasRegs (s : State) (uid c n : Nat) : Bool :=
  n ≤ s.freeRegs c ||
    (match s.block? uid with
     | some b => b.core = c && decide (b.liveOn c false + n ≤ b.reserve)
     | none => false)

/-- The instruction writes a register of the actor that holds an entry. -/
def rewrites (s : State) (i : Instr) (a : Actor) : Bool := (s.fib? a).any fun f => i.dsts.any f.holds

/-- The entries that an instruction's writes take: one for each register that a participant writes and that holds none, one for the register that
`movxw` selects, and one for w0 of the child that `fork` starts; and where registers are written that hold one, an entry more, since each such write
takes a fresh entry before it frees the old one (R24, R120, R185, R197; log 75). -/
def regNeed (s : State) (i : Instr) (acts : List Actor) : Nat :=
  (acts.map fun a => match s.fib? a with
    | some f => (i.dsts.filter fun n => !f.holds n).length + (match i with | .movxw _ | .fork .. => 1 | _ => 0)
    | none => 0).sum + bit (acts.any (rewrites s i))

/-- Registers of a fibre that may be spilled: live, in the file, not bound, and no result is to land in them; the shared range of an open recruitment
with helpers is pinned (R185, R213). -/
def Fibre.spillable (f : Fibre) : List Nat :=
  f.regs.filterMap fun r =>
    if r.2.isLive && !f.spilt.contains r.1 && (mget f.binds r.1).isNone && !f.reserved.contains r.1
        && (match f.pool with | some p => p.helpers = 0 || !(p.shr ≤ r.1 && r.1 < p.shr + 16) | none => true) then some r.1
    else none

/-- The place of register n of slot sl of weave w in the spill region of its block; a register of a helper or handler weave has none, and neither has one
of a slot beyond the block's fibres, which `fork` or `recruit` has filled, or beyond its fibre registers (R185, R187). -/
def Block.spillVA (b : Block) (kind : WKind) (w sl n : Nat) : Option Nat :=
  let size := (b.hdr.fibres * b.hdr.regs * 8 + 4095) / 4096 * 4096
  if b.spill = 0 || kind != .block || b.hdr.fibres ≤ 32 * w + sl || b.hdr.regs ≤ n then none
  else some (b.spill + b.idx * size + ((32 * w + sl) * b.hdr.regs + n) * 8)

/-- Registers in the lent ways of a core hold at most 512 entries (R185). -/
def lentRoom (s : State) (c : Nat) : Nat := 512 - (s.core c).lent.length

/-- An event that ends a block waits to happen. -/
def doomed (s : State) (uid : Nat) : Bool := s.inbox.any fun i => match i with | .relaunchEvent r _ _ _ => r.uid = uid | _ => false

/-- Spills one register: to the lent ways, else to the spill area; a page that cannot be written is event 0x14, which ends the block (R187). ADDR of its
record, which R351 wants to be a physical address that does not exist here, is the entry's virtual address (log 62). -/
def spillReg (s : State) (uid w sl n : Nat) : State :=
  match s.block? uid, s.weave? uid w, s.fibre? uid w sl with
  | some b, some x, some f =>
    let out (s : State) : State := s.updFibre uid w sl fun f => { f with spilt := insertNat n f.spilt }
    if 0 < lentRoom s x.core then
      let s := if (s.core x.core).lent.isEmpty then lendWays s x.core else s
      out (s.updCore x.core fun c => { c with lent := (uid, w, sl, n) :: c.lent })
    else match (if doomed s uid then none else b.spillVA x.kind w sl n) with
      | none => s
      | some va =>
        match devTranslate s b.ctx va .store with
        | (s, .ok pa) => out (devWrite s pa (toBytes 8 (f.regs.findSome? (fun r => match r.2 with
            | .live v => if r.1 = n then some v.toNat else none
            | .dead => none) |>.getD 0)))
        | (s, .trap _) => s.post (.relaunchEvent ⟨uid, x.core⟩ 0x14 (ofNat64 va) b.stseq.toNat)
  | _, _, _ => s

/-- A weave has a register that can be spilled, and a place for it (R185). -/
def Weave.canSpill (b : Block) (w : Nat) (x : Weave) (lent : Bool) : Bool :=
  x.fibres.any fun f => f.2.spillable.any fun n => lent || (b.spillVA x.kind w f.1 n).isSome

/-- The pending weaves of a core with registers to spill, but for the one that writes: (last issue, block, weave). -/
def spillCandidates (s : State) (c : Nat) (writer : Option (Nat × Nat)) : List (Nat × Nat × Nat) :=
  s.blocks.flatMap fun b => b.2.weaves.filterMap fun x =>
    if x.2.core = c && !x.2.active && writer != some (b.1, x.1) && x.2.canSpill b.2 x.1 (0 < lentRoom s c) then some (x.2.lastIssue, b.1, x.1) else none

/-- The candidate that issued least recently. -/
def oldest : List (Nat × Nat × Nat) → Option (Nat × Nat × Nat)
  | [] => none
  | h :: r => match oldest r with
    | none => some h
    | some k => if h.1 ≤ k.1 then some h else some k

/-- Spills every register of a weave that can be spilled. -/
def spillWeave (s : State) (uid w : Nat) : State :=
  match s.weave? uid w with
  | none => s
  | some x => x.fibres.foldl (fun s f => f.2.spillable.foldl (fun s n => spillReg s uid w f.1 n) s) s

/-- Makes room for a write of n registers by a weave w of a block, or by one that is still to be formed: the state, and whether the write finds its
entries. It waits when no pending weave has a register to spill (R185), and where a spill has found its page absent, until the event that this raises has
ended that block (R187). -/
def relieve (s : State) (uid : Nat) (w : Option Nat) (c n : Nat) : (fuel : Nat) → State × Bool
  | 0 => (s, hasRegs s uid c n)
  | k + 1 =>
    if hasRegs s uid c n then (s, true)
    else match oldest (spillCandidates s c (w.map fun w => (uid, w))) with
      | none => (s, false)
      | some (_, u, v) =>
        let s := spillWeave s u v
        if doomed s u then (s, hasRegs s uid c n) else relieve s uid w c n k

/-- Fills one register back: its value from the lent ways, or what the spill area holds, poisoned or not, of which the spec says nothing (R186, R187;
log 76). -/
def fillReg (s : State) (uid w sl n : Nat) : State :=
  match s.block? uid, s.weave? uid w, s.fibre? uid w sl with
  | some b, some x, some _ =>
    let back (s : State) : State := s.updFibre uid w sl fun f => { f with spilt := f.spilt.filter fun m => m != n }
    if (s.core x.core).lent.contains (uid, w, sl, n) then
      back (s.updCore x.core fun c => { c with lent := c.lent.filter fun e => e != (uid, w, sl, n) })
    else match b.spillVA x.kind w sl n with
      | none => s
      | some va =>
        match devTranslate s b.ctx va .load with
        | (s, .ok pa) =>
          let v := ofNat64 (s.phys pa 8)
          (back s).updFibre uid w sl fun f => { f with regs := mput f.regs n (.live v) }
        | (s, .trap _) => s.post (.relaunchEvent ⟨uid, x.core⟩ 0x14 (ofNat64 va) b.stseq.toNat)
  | _, _, _ => s

/-- Fills every spilled register of a weave (R186), also where the file has no free entry for them, on which the spec is silent (log 76). -/
def fillWeave (s : State) (uid w : Nat) : State :=
  match s.weave? uid w with
  | none => s
  | some x => x.fibres.foldl (fun s f => f.2.spilt.foldl (fun s n => fillReg s uid w f.1 n) s) s

end Sys2Proof.Machine
end

