-- ==== Sys2Proof/Machine/Issue.lean ====
section
/-! DEFINITION. Issue of an instruction by the batch or stream in focus: checks, physical registers, checked issue, the
instruction's own effect, and its end (R61, R162, R185, R368). -/
namespace Sys2Proof.Machine

/-- The outcome of a step. -/
abbrev Out := Host.Outcome State Fault Refusal

/-- A checked instruction issues twice; a mismatch is retried once, and a second one raises event 0x16 (R368): the state, and whether
the instruction goes on. The event is the core's on which it issues. -/
def checkedIssue (s : State) (uid c : Nat) (on : Bool) : State × Bool :=
  if !on then (s, true)
  else if !Config.laneMismatch s.fresh then (s.tick, true)
  else
    let t := s.tick.updBlock uid fun b => { b with cretry := satTo 255 (b.cretry + 1) }
    if !Config.laneMismatch t.fresh then (t.tick, true)
    else (t.tick.post (.relaunchEvent ⟨uid, c⟩ 0x16 0 0), false)

/-- The actor is in a helper weave (R208, R286, R289). -/
def inHelperWeave (s : State) (a : Actor) : Bool :=
  match a with
  | .fib u w _ => ((s.weave? u w).map fun x => x.kind == .helper).getD false
  | .seq _ => false

/-- A line that a commit of the actor's buffer writes has to be asked of its home. -/
def mustCommit (s : State) (a : Actor) : Bool :=
  let q := s.bufOf a
  (bufLines (s.buf q)).any fun l => decide (l < panelEnd) && !ownsLine s (s.bufCore q) l

/-- A result that `sel` selects would land in a bound register, which is a store at the home (R262). -/
def landsBound (s : State) (a : Actor) (sel : Pend → Bool) : Bool :=
  match s.fib? a with
  | some f => f.pend.any fun p => sel p && !p.own && (match p.dst with | .w n => (mget f.binds n).isSome | _ => false)
  | none => false

/-- The results that land as an instruction issues, apart from clause headers (R31, R210, R268, R269, R354). -/
def landsAt : Instr → Pend → Bool
  | .fend _, _ | .tret _, _ | .recruit _, _ | .hend _, _ => true
  | .unbind _ d, p => p.dst = .w d.toNat
  | .bwait f _, p => p.dst = .w f.d.num.toNat
  | _, _ => false

/-- A commit point of its own (R362): the instruction commits the actor's buffer, whatever else it does. -/
def commitPoint (s : State) (i : Instr) (a : Actor) : Bool :=
  match i with
  | .fence _ kind scope => kind != .acq && (decide (2 ≤ scope.toNat) || (scope != 0 && inHelperWeave s a))
  | .fenceFar .. | .tarr .. | .launch _ | .recruit _ | .hwork _ | .icinv .. => true
  | .hend _ => s.isHelper a
  | _ => false

/-- For an actor the instruction asks a home for a line or for an atomic that nothing else tests: it commits a buffer, acts on or writes a bound word
(R248, R262, R266, R362). -/
def needsEntry (s : State) (i : Instr) (a : Actor) : Bool :=
  let bound (n : Nat) : Bool := ((s.fib? a).bind fun f => mget f.binds n).isSome
  (match i with
    | .bamo .. | .bcas _ => true
    | .movxw _ => ((s.fib? a).map fun f => !f.binds.isEmpty).getD false
    | i => !i.longLat && i.dsts.any bound)
  || (commitPoint s i a && mustCommit s a) || landsBound s a (landsAt i)

/-- The instruction waits at issue for a free miss entry of its core (R248). -/
def entryWaits (s : State) (c : Nat) (i : Instr) (acts : List Actor) : Bool := missesFull s c && acts.any (needsEntry s i)

/-- Issue by the current batch of a weave. -/
def issueFib (i : Instr) (s : State) (uid w : Nat) (blk : Block) (x : Weave) (b : Batch) (body : Iss → State → Done) : State :=
  let k := fibIss s uid w x b i.size i.guard
  if b.entry then finish s k w { st := s, traps := k.batch.map fun a => k.trapHere a 0x04 0 0 }
  else
    let checks := k.acts.map fun a => (a, issueCheck s k i blk.hdr a)
    let bad := checks.filterMap fun c => c.2.map fun e => k.trapHere c.1 e 0 0
    let good := checks.filterMap fun c => if c.2.isNone then some c.1 else none
    if good.isEmpty then finish s k w { st := s, traps := bad }
    else if i.longLat && k.markOf i < 12 && 63 ≤ s.markCount uid (some w) (k.markOf i) then s
    else if entryWaits s x.core i good then s
    else match (if x.kind == .helper then (s, true) else relieve s uid (some w) x.core (regNeed s i good) 64) with
      | (s, false) => s
      | (s, true) =>
        let (s, ok) := checkedIssue s uid x.core (blk.chk && i.inLane)
        if !ok then s
        else
          let k := { k with acts := good }
          let d := body k s
          finish d.st k w { d with traps := bad ++ d.traps }

/-- Issue by a stream. After `g.node` only a command may stand, which is tested once the checks of R61 have passed; a false guard discards the
capture (R325). -/
def issueSeq (i : Instr) (s : State) (uid : Nat) (blk : Block) (x : Stream) (body : Iss → State → Done) : State :=
  let k := seqIss s uid x i.size i.guard
  let a := Actor.seq uid
  if x.entry then takeTrapSeq s uid (k.trapHere a 0x04 0 0) false
  else if k.acts.isEmpty then finishSeq (s.updStream uid fun x => { x with capture := none }) k { st := s }
  else match issueCheck s k i blk.hdr a with
    | some c => takeTrapSeq s uid (k.trapHere a c 0 0) false
    | none =>
      if x.capture.isSome && !i.isCommand then takeTrapSeq s uid (k.trapHere a 0x12 0 0) false
      else if i.longLat && k.markOf i < 12 && 63 ≤ s.markCount uid none (k.markOf i) then s
      else if entryWaits s blk.core i [a] then s
      else
        let d := body k s
        finishSeq d.st k d

/-- Issue of an instruction by the agent in focus; without one nothing can issue. -/
def issue (i : Instr) (s : State) (body : Iss → State → Done) : Out :=
  match s.focus with
  | .none => .fault .noAgent
  | .weave u w =>
    match s.block? u, s.weave? u w with
    | some blk, some x =>
      match x.curBatch with
      | some b => .next (issueFib i s u w blk x b body)
      | none => .fault .noAgent
    | _, _ => .fault .noAgent
  | .stream u =>
    match s.block? u, s.stream? u with
    | some blk, some x => .next (issueSeq i s u blk x body)
    | _, _ => .fault .noAgent

/-- An event that its rule enables. -/
def event (name : String) (r : Option State) : Out :=
  match r with
  | some s => .next s
  | none => .fault (.notEnabled name)

end Sys2Proof.Machine
end

