-- ==== Sys2Proof/Machine/Integer.lean ====
section
/-! DEFINITION. Integer, logic and predicate instructions (spec 05). -/
namespace Sys2Proof.Machine

/-! ### Running an element operation over a batch (R95) -/

/-- The form's B operand is an immediate. -/
def immB (f : AForm) : Bool := match f.ext with | .i96 _ => true | _ => false

/-- The first n source fields that are read as registers. -/
def readsOf (f : AForm) (n : Nat) : List Src :=
  [f.a] ++ (if 2 ≤ n && !immB f then [f.b] else []) ++ (if 3 ≤ n then [f.c] else [])

/-- The elements of operands A, B and C of an actor, B from the immediate where the form has one. -/
def opA (fl : Bool) (f : AForm) (s : State) (a : Actor) : List Nat := elemsOf fl f.ty f.a (s.src a f.a)
def opB (fl uns : Bool) (f : AForm) (s : State) (a : Actor) : List Nat :=
  match f.ext with
  | .i96 imm => immElems fl uns f.ty imm
  | _ => elemsOf fl f.ty f.b (s.src a f.b)
def opC (fl : Bool) (f : AForm) (s : State) (a : Actor) : List Nat := elemsOf fl f.ty f.c (s.src a f.c)

/-- Every source of every participant is read in the state before; then last uses release; then results and flags are written in
ascending slot order. `val` gets the state before, the state at the writes, and the actor. -/
def lane (srcs : List Src) (write : State → Actor → α → State) (val : State → State → Actor → α) : Iss → State → Done :=
  fun k s =>
    let s1 := s.consume k.pc k.acts srcs
    { st := k.acts.foldl (fun t a => write t a (val s s1 a)) s1 }

/-- Writes a register result with its flags (R95, R122). -/
def writeRes (d : Dst) (t : State) (a : Actor) (r : Word × FFlags) : State := (t.writeD a d r.1).raise a r.2
/-- Writes a register result that sets no flag (R73). -/
def writeInt (d : Dst) (t : State) (a : Actor) (r : Word) : State := t.writeD a d r

/-- The result of an integer element operation of n sources: `op w signed a b c` gives the low w bits of an element. -/
def intVal (f : AForm) (n : Nat) (uns : Bool) (op : (w : Nat) → (sg : Bool) → (a b c : Nat) → Nat) (s s1 : State) (a : Actor) : Word :=
  let ea := opA false f s a
  let eb := if 2 ≤ n then opB false uns f s a else []
  let ec := if 3 ≤ n then opC false f s a else []
  mergeElems false f.ty f.ext.sem (s1.oldD a f.d)
    ((upto (f.ty.shape false).1).map fun i => op (f.ty.shape false).2 (f.ty.signed uns) (nth ea i) (nth eb i) (nth ec i))

/-- An integer element operation of n sources. -/
def laneInt (f : AForm) (n : Nat) (uns : Bool) (op : (w : Nat) → (sg : Bool) → (a b c : Nat) → Nat) : Iss → State → Done :=
  lane (readsOf f n) (writeInt f.d) (intVal f n uns op)

/-- The exact result narrowed: clamped with SAT, wrapped without (R73, R100). -/
def narrow (sat sg : Bool) (w : Nat) (x : Int) : Nat := ofI w (if sat then satI sg w x else x)

/-! ### Element operations (R100 to R110) -/

def addE (sat : Bool) (w : Nat) (sg : Bool) (a b _c : Nat) : Nat := narrow sat sg w (toI sg w a + toI sg w b)
def subE (sat : Bool) (w : Nat) (sg : Bool) (a b _c : Nat) : Nat := narrow sat sg w (toI sg w a - toI sg w b)
def mulE (sat : Bool) (w : Nat) (sg : Bool) (a b _c : Nat) : Nat := narrow sat sg w (toI sg w a * toI sg w b)
def madE (sat : Bool) (w : Nat) (sg : Bool) (a b c : Nat) : Nat := narrow sat sg w (toI sg w a * toI sg w b + toI sg w c)
def mulhiE (w : Nat) (sg : Bool) (a b _c : Nat) : Nat := ofI w (toI sg w a * toI sg w b / (2 ^ w : Nat))
/-- Quotient and remainder of R74. -/
def divE (w : Nat) (sg : Bool) (a b _c : Nat) : Nat := if b = 0 then 2 ^ w - 1 else ofI w ((toI sg w a).tdiv (toI sg w b))
def remE (w : Nat) (sg : Bool) (a b _c : Nat) : Nat := if b = 0 then a else ofI w ((toI sg w a).tmod (toI sg w b))
def absE (sat : Bool) (w : Nat) (sg : Bool) (a _b _c : Nat) : Nat := narrow sat sg w (toI sg w a).natAbs
def minE (w : Nat) (sg : Bool) (a b _c : Nat) : Nat := ofI w (minI (toI sg w a) (toI sg w b))
def maxE (w : Nat) (sg : Bool) (a b _c : Nat) : Nat := ofI w (maxI (toI sg w a) (toI sg w b))
/-- Bits that are not set, within w. -/
def notE (w x : Nat) : Nat := 2 ^ w - 1 - x
def shlE (sat : Bool) (w : Nat) (sg : Bool) (a n _c : Nat) : Nat := narrow sat sg w (toI sg w a * (2 ^ min n w : Nat))
def shrE (w : Nat) (_sg : Bool) (a n _c : Nat) : Nat := a / 2 ^ min n w
def sarE (w : Nat) (_sg : Bool) (a n _c : Nat) : Nat := ofI w (toI true w a / (2 ^ min n w : Nat))
def rolE (w : Nat) (_sg : Bool) (a n _c : Nat) : Nat := (a * 2 ^ (n % w)) % 2 ^ w + a / 2 ^ (w - n % w)
def rorE (w : Nat) (_sg : Bool) (a n _c : Nat) : Nat := a / 2 ^ (n % w) + (a * 2 ^ (w - n % w)) % 2 ^ w
def clzE (w : Nat) (_sg : Bool) (a _b _c : Nat) : Nat := if a = 0 then w else w - 1 - Nat.log2 a
/-- Trailing zero bits of a nonzero value, counting at most `fuel`. -/
def ctzFrom : (fuel x : Nat) → Nat
  | 0, _ => 0
  | k + 1, x => if x % 2 = 1 then 0 else 1 + ctzFrom k (x / 2)
def ctzE (w : Nat) (_sg : Bool) (a _b _c : Nat) : Nat := ctzFrom w a
def popcE (w : Nat) (_sg : Bool) (a _b _c : Nat) : Nat := ((upto w).map fun i => a / 2 ^ i % 2).sum
def brevE (w : Nat) (_sg : Bool) (a _b _c : Nat) : Nat := ((upto w).map fun i => a / 2 ^ (w - 1 - i) % 2 * 2 ^ i).sum
/-- Position and length of a control word (R108). For the 8-bit types the word is cut to 8 bits like every source (R72), so its length is 0 and the result
0 (log 50). -/
def bfxE (w : Nat) (sg : Bool) (a b _c : Nat) : Nat :=
  let pos := b % 256
  let len := b / 256 % 256
  if w ≤ pos || len = 0 then 0
  else
    let len := min len (w - pos)
    ofI w (toI sg len (a / 2 ^ pos % 2 ^ len))
/-- Inserts a field (R109). For the 8-bit types the length is 0, so A is written unchanged (log 50). -/
def bfiE (w : Nat) (_sg : Bool) (a b c : Nat) : Nat :=
  let pos := b % 256
  let len := b / 256 % 256
  if w ≤ pos || len = 0 then a
  else
    let len := min len (w - pos)
    a % 2 ^ pos + c % 2 ^ len * 2 ^ pos + a / 2 ^ (pos + len) * 2 ^ (pos + len)
def extE (w : Nat) (_sg : Bool) (a b c : Nat) : Nat := (b * 2 ^ w + a) / 2 ^ (c % w) % 2 ^ w
def leaE (sh w : Nat) (sg : Bool) (a b _c : Nat) : Nat := ofI w (toI sg w a + toI sg w b * (2 ^ sh : Nat))

/-! ### The meanings -/

def execAdd (f : AForm) (uns sat : Bool) (s : State) : Out := issue (.add f uns sat) s (laneInt f 2 uns (addE sat))
def execSub (f : AForm) (uns sat : Bool) (s : State) : Out := issue (.sub f uns sat) s (laneInt f 2 uns (subE sat))
def execMul (f : AForm) (uns sat : Bool) (s : State) : Out := issue (.mul f uns sat) s (laneInt f 2 uns (mulE sat))
def execMad (f : AForm) (uns sat : Bool) (s : State) : Out := issue (.mad f uns sat) s (laneInt f 3 uns (madE sat))
def execMulhi (f : AForm) (uns : Bool) (s : State) : Out := issue (.mulhi f uns) s (laneInt f 2 uns mulhiE)
def execDiv (f : AForm) (uns : Bool) (s : State) : Out := issue (.div f uns) s (laneInt f 2 uns divE)
def execRem (f : AForm) (uns : Bool) (s : State) : Out := issue (.rem f uns) s (laneInt f 2 uns remE)
def execAbs (f : AForm) (sat : Bool) (s : State) : Out := issue (.abs f sat) s (laneInt f 1 false (absE sat))
def execMin (f : AForm) (uns : Bool) (s : State) : Out := issue (.min f uns) s (laneInt f 2 uns minE)
def execMax (f : AForm) (uns : Bool) (s : State) : Out := issue (.max f uns) s (laneInt f 2 uns maxE)
def execAnd (f : AForm) (s : State) : Out := issue (.and f) s (laneInt f 2 false fun _ _ a b _ => a &&& b)
def execOr (f : AForm) (s : State) : Out := issue (.or f) s (laneInt f 2 false fun _ _ a b _ => a ||| b)
def execXor (f : AForm) (s : State) : Out := issue (.xor f) s (laneInt f 2 false fun _ _ a b _ => a ^^^ b)
def execAndn (f : AForm) (s : State) : Out := issue (.andn f) s (laneInt f 2 false fun w _ a b _ => a &&& notE w b)
def execOrn (f : AForm) (s : State) : Out := issue (.orn f) s (laneInt f 2 false fun w _ a b _ => a ||| notE w b)
def execShl (f : AForm) (sat : Bool) (s : State) : Out := issue (.shl f sat) s (laneInt f 2 false (shlE sat))
def execShr (f : AForm) (s : State) : Out := issue (.shr f) s (laneInt f 2 false shrE)
def execSar (f : AForm) (s : State) : Out := issue (.sar f) s (laneInt f 2 false sarE)
def execRol (f : AForm) (s : State) : Out := issue (.rol f) s (laneInt f 2 false rolE)
def execRor (f : AForm) (s : State) : Out := issue (.ror f) s (laneInt f 2 false rorE)
def execClz (f : AForm) (s : State) : Out := issue (.clz f) s (laneInt f 1 false clzE)
def execCtz (f : AForm) (s : State) : Out := issue (.ctz f) s (laneInt f 1 false ctzE)
def execPopc (f : AForm) (s : State) : Out := issue (.popc f) s (laneInt f 1 false popcE)
def execBrev (f : AForm) (s : State) : Out := issue (.brev f) s (laneInt f 1 false brevE)
def execBfx (f : AForm) (s : State) : Out := issue (.bfx f) s (laneInt f 2 false bfxE)
def execBfi (f : AForm) (s : State) : Out := issue (.bfi f) s (laneInt f 3 false bfiE)
def execExt (f : AForm) (s : State) : Out := issue (.ext f) s (laneInt f 3 false extE)
def execMov (f : AForm) (s : State) : Out := issue (.mov f) s (laneInt f 1 false fun _ _ a _ _ => a)
def execLea (f : AForm) (sh : BitVec 4) (s : State) : Out := issue (.lea f sh) s (laneInt f 2 false (leaE sh.toNat))

/-- The immediate of R52 as a register value (R112). -/
def moviVal (f : AForm) (_s _s1 : State) (_a : Actor) : Word :=
  match f.ext with
  | .i96 imm => if f.ty.packed then ofNat64 (immOf false false f.ty imm) else regOf f.ty (immOf false false f.ty imm)
  | _ => 0

/-- `movi` writes the immediate (R112). -/
def execMovi (f : AForm) (s : State) : Out := issue (.movi f) s (lane [] (writeInt f.d) (moviVal f))

/-- IMM64 (R113). -/
def movqVal (f : AForm) (_s _s1 : State) (_a : Actor) : Word := match f.ext with | .q128 v => v | _ => 0

/-- `movq` writes IMM64 (R113). -/
def execMovq (f : AForm) (s : State) : Out := issue (.movq f) s (lane [] (writeInt f.d) (movqVal f))

/-- The selected elements of A or of B (R114). -/
def selVal (f : AForm) (np : Bool) (s s1 : State) (a : Actor) : Word :=
  mergeElems false f.ty f.ext.sem (s1.oldD a f.d)
    (if s.pred a f.c.num.toNat != np then opA false f s a else opB false false f s a)

/-- `sel` takes the whole register from A or B (R114). -/
def execSel (f : AForm) (np : Bool) (s : State) : Out := issue (.sel f np) s (lane (readsOf f 2) (writeInt f.d) (selVal f np))

/-- The condition of `cmp`, combined with pc (R116). -/
def cmpVal (f : AForm) (orr : Bool) (cond : Cond) (s _s1 : State) (a : Actor) : Bool :=
  combine orr (condHolds cond (f.ty.signed false) (f.ty.shape false).2 (nth (opA false f s a) 0) (nth (opB false false f s a) 0))
    (s.pred a f.c.num.toNat)

/-- `cmp` combines its condition with pc into pd (R116). -/
def execCmp (f : AForm) (orr : Bool) (cond : Cond) (s : State) : Out :=
  issue (.cmp f orr cond) s (lane (readsOf f 2) (fun t a v => t.writeP a f.d.num.toNat v) (cmpVal f orr cond))

/-- The bit of LUT that two predicates select (R117). -/
def plogVal (f : AForm) (lut : BitVec 4) (s _s1 : State) (a : Actor) : Bool := plogBit lut (s.pred a f.a.num.toNat) (s.pred a f.b.num.toNat)

/-- `plog` (R117). -/
def execPlog (f : AForm) (lut : BitVec 4) (s : State) : Out :=
  issue (.plog f lut) s (lane [] (fun t a v => t.writeP a f.d.num.toNat v) (plogVal f lut))

/-- The predicate word; p0 reads 1 (R118). -/
def predWord (s _s1 : State) (a : Actor) : Word := (s.predsOf a ||| 1).setWidth 64

/-- Writes p1 to p15 from bits 1 to 15 of a word (R118). -/
def writePreds (t : State) (a : Actor) (v : Word) : State := (List.range' 1 15).foldl (fun t i => t.writeP a i (v.getLsbD i)) t

/-- `pmov` moves the predicate word (R118). -/
def execPmov (f : AForm) (dir : Bool) (s : State) : Out :=
  issue (.pmov f dir) s (if dir then lane [f.a] writePreds fun s _ a => s.src a f.a else lane [] (writeInt f.d) predWord)

/-- The register number that `movx` and `movxw` take from A. -/
def indexOf (s : State) (f : AForm) (a : Actor) : Nat := (s.src a f.a).toNat % 128

/-- An index out of range: the cause of the trap, in a helper 0x0D at or above `lim`, in another fibre 0x05 (R119, R120, R214). -/
def indexTrap (s : State) (uid lim : Nat) (f : AForm) (a : Actor) : Option (BitVec 8) :=
  if s.isHelper a then (if lim ≤ indexOf s f a then some 0x0D else none)
  else match s.block? uid with
    | some b => if b.hdr.regs ≤ indexOf s f a then some 0x05 else none
    | none => none

/-- When an index of some participant is out of range, every participant traps (R119), a helper of a batch of both with the cause of R214. Neither rule
says what such a batch does, nor whether the dead reads of the index, or of B in `movxw`, then set sr.deadrd; none is recorded (log 83). -/
def indexed (lim : Nat) (f : AForm) (body : Iss → State → Done) : Iss → State → Done := fun k s =>
  if k.acts.any fun a => (indexTrap s k.uid lim f a).isSome then
    { st := s, traps := k.acts.map fun a => k.trapHere a (if s.isHelper a then 0x0D else 0x05) 0 0 }
  else body k s

/-- `movx` reads the indexed register like any named source (R119). -/
def execMovx (f : AForm) (s : State) : Out :=
  issue (.movx f) s (indexed 32 f fun k s =>
    let num (a : Actor) : Src := ⟨BitVec.ofNat 7 (indexOf s f a), false, false, .none, false, false⟩
    let s1 := k.acts.foldl (fun t a => (t.noteDead k.uid k.pc (s.readSrc a f.a).2).noteDead k.uid k.pc (s.readSrc a (num a)).2) s
    let s2 := k.acts.foldl (fun t a => t.release a f.a) s1
    { st := k.acts.foldl (fun t a => t.writeD a f.d (s.src a (num a))) s2 })

/-- `movxw` writes the indexed register like any named destination (R120). -/
def execMovxw (f : AForm) (s : State) : Out :=
  issue (.movxw f) s (indexed 16 f (lane [f.a, f.b] (fun t a (v : Nat × Word) => t.writeW a v.1 v.2) fun s _ a =>
    (indexOf s f a, s.src a f.b)))

end Sys2Proof.Machine
end

