-- ==== Sys2Proof/Machine/Fetch.lean ====
section
/-! DEFINITION. Instruction fetch: the instruction caches and the bytes at a PC, and the check of a transfer's target
(R43, R46, R250, R360). -/
namespace Sys2Proof.Machine

/-- The 64-byte line of a physical address in a core's instruction cache, filled from memory on a miss; the cache holds 256 lines
and drops its lowest address first (log 12). -/
def icLine (s : State) (uid c pa : Nat) : State × List Byte :=
  let l := pa / 64
  match mget (s.core c).icache l with
  | some b => (s, b)
  | none =>
    let b := s.bytes (64 * l) 64
    ((coreRead s uid c (64 * l)).updCore c fun x =>
      { x with icache := mput (if 256 ≤ x.icache.length then x.icache.drop 1 else x.icache) l b }, b)

/-- n bytes of code within one line. -/
def icBytes (s : State) (uid c pa n : Nat) : State × List Byte :=
  let (s, b) := icLine s uid c pa
  (s, (b.drop (pa % 64)).take n)

/-- What a fetch finds. -/
inductive Fetched where
  | word (bits : Nat)
  | trap (cause : BitVec 8)
  deriving DecidableEq, Repr

/-- Fetches the instruction at a PC for a block of a context on a core: translation, the fetch-block rule, and its bytes (R43, R61, R250). -/
def fetchAt (s : State) (uid c ctx : Nat) (pc : Word) : State × Fetched :=
  match translate s uid c ctx pc .fetch with
  | (s, .trap e) => (s, .trap e)
  | (s, .ok pa) =>
    let o := pc.toNat % 32
    if 32 < o + 8 then (s, .trap 0x03)
    else
      let (s, b) := icBytes s uid c pa 8
      let w := ofBytes b
      let len := lenOf w
      if 32 < o + len then (s, .trap 0x03)
      else
        let (s, b) := icBytes s uid c pa len
        (s, .word (ofBytes b))

/-- Fetches that lead from s to t need a line that the core's instruction cache does not hold, and the core has no free miss entry: they wait (R248). -/
def fetchWaits (s t : State) (c : Nat) : Bool := missesFull s c && (t.core c).icache.any fun e => (mget (s.core c).icache e.1).isNone

/-- An instruction whose fetch of a target finds no free miss entry waits at its point of issue (R248). -/
def fetchEntry (k : Iss) (s : State) (d : Done) : Done :=
  if k.acts.any fun a => fetchWaits s d.st (s.coreOf a) then { st := s, how := .stall } else d

/-- The check of a transfer's target (R46, R141): the cause of the trap, or none when the target holds a clause header. -/
def targetCheck (s : State) (uid c ctx : Nat) (pc : Word) : State × Option (BitVec 8) :=
  match translate s uid c ctx pc .fetch with
  | (s, .trap e) => (s, some e)
  | (s, .ok pa) =>
    if pc.toNat % 8 ≠ 0 then (s, some 0x04)
    else
      let (s, b) := icBytes s uid c pa 8
      (s, if ofBytes b % 4 = 3 then none else some 0x04)

end Sys2Proof.Machine
end

