-- ==== Sys2Proof/Machine/Control.lean ====
section
/-! DEFINITION. Clause headers, branches, calls, macros, traps, `tret`, `yield` and `join` (spec 02, 07, 09, 18). -/
namespace Sys2Proof.Machine

/-! ### Clause headers (R29, R31, R45) -/

/-- A header's fields are illegal (R29), or it stands where no header may (R45). -/
def badHeader (pc : Word) (seta setb : BitVec 4) (zero : BitVec 42) : Bool :=
  pc.toNat % 8 ≠ 0 || (12 ≤ seta.toNat && seta.toNat ≤ 14) || (12 ≤ setb.toNat && setb.toNat ≤ 14) || (seta = setb && seta != 15)
    || zero != 0

/-- Some mark that the header waits for is set. -/
def marksBusy (s : State) (uid : Nat) (w : Option Nat) (wait : BitVec 12) : Bool :=
  (upto 12).any fun i => wait.getLsbD i && s.markCount uid w i != 0

/-- Lands the results on the named marks (R31). -/
def landMarks (s : State) (a : Actor) (wait : BitVec 12) : State × List Pend := landSel s a fun p => p.mark < 12 && wait.getLsbD p.mark

/-- The trap of a poisoned result at a landing point (R149): the load's PC, the landing point as resume point. -/
def poisonTrap (k : Iss) (a : Actor) (p : Pend) : Trp :=
  { who := a, cause := 0x0A, addr := p.poison.getD 0, pc := p.pc, rpc := k.pc }

/-- A header's own effect once its marks are clear: results land, and the clause begins (R29, R31). Of several poisoned results of one fibre that land at
one header, the first in program order gives the trap 0x0A, and the others are gone with their destinations kept (R149; log 47). -/
def clauseBody (wait : BitVec 12) (seta setb : BitVec 4) : Iss → State → Done := fun k s =>
  let r := k.batch.foldl (fun (r : State × List Trp) a =>
    let x := landMarks r.1 a wait
    (x.1, match x.2 with | p :: _ => r.2 ++ [poisonTrap k a p] | [] => r.2)) (s, [])
  { st := r.1, traps := r.2, hdr := true,
    moves := k.batch.map fun a => (a.slot, { pc := k.npc, seta, setb, mac := none, skip := false, wd0 := false }) }

/-- The die controller or a `fence.far` stops a block at its clause boundaries (R291, R369). -/
def Block.halted (b : Block) : Bool := b.stop || !b.farStop.isEmpty

/-- A batch stops at a clause boundary; the helpers of a block that is to be saved run on until they are released (R226, R369). -/
def Block.haltsAt (b : Block) (helpers : Bool) : Bool := !b.farStop.isEmpty || (b.stop && !(helpers && b.saving.isSome))

/-- A batch has still to reach a clause boundary. -/
def Batch.midClause (b : Batch) : Bool := b.runnable && !b.stopped && !b.entry

/-- The current batch of a halted weave stands still; it gives way to a batch that has still to reach a clause boundary, without a draw, and such
batches at last to one that is held at its instruction (R291, R369; log 24). -/
def Weave.giveWay (w : Weave) : Weave :=
  match w.batches.findIdx? Batch.midClause, w.batches.findIdx? Batch.held with
  | some i, _ => { w with cur := some i }
  | none, some i => { w with cur := some i }
  | none, none => w

/-- The current batch of a weave stands at a clause boundary and stops (R369). -/
def Weave.stopHere (w : Weave) : Weave :=
  Weave.giveWay { w with batches := w.batches.modify (w.cur.getD 0) fun y => { y with stopped := true } }

/-- A clause header (R29). It waits where a result that lands is a store to a bound word and its core has no free miss entry (R248, R262). -/
def execClause (wait : BitVec 12) (seta setb : BitVec 4) (zero : BitVec 42) (s : State) : Out :=
  match s.focus with
  | .none => .fault .noAgent
  | .weave u w =>
    match s.block? u, s.weave? u w with
    | some blk, some x =>
      match x.curBatch with
      | none => .fault .noAgent
      | some b =>
        let k := fibIss s u w x b 8 ⟨0, false⟩
        .next (
          if badHeader b.pc seta setb zero then finish s k w { st := s, traps := k.batch.map fun a => k.trapHere a 0x02 0 0 }
          else if blk.haltsAt (k.acts.any s.isHelper) then
            s.updWeave u w Weave.stopHere
          else if marksBusy s u (some w) wait then s
          else if missesFull s x.core && k.batch.any fun a => landsBound s a fun p => p.mark < 12 && wait.getLsbD p.mark then s
          else
            let d := clauseBody wait seta setb k s
            finish d.st k w d)
    | _, _ => .fault .noAgent
  | .stream u =>
    match s.block? u, s.stream? u with
    | some blk, some x =>
      let k := seqIss s u x 8 ⟨0, false⟩
      .next (
        if badHeader x.pc seta setb zero then takeTrapSeq s u (k.trapHere (.seq u) 0x02 0 0) false
        else if blk.halted then s.updStream u fun x => { x with stopped := true }
        else if marksBusy s u none wait then s
        else
          let d := clauseBody wait seta setb k s
          match d.traps with
          | t :: _ => takeTrapSeq d.st u t false
          | [] => d.st.updStream u fun x => { x with pc := k.npc, seta, setb, entry := false, stopped := false })
    | _, _ => .fault .noAgent

def execNop (wide : Bool) (s : State) : Out := issue (.nop wide) s fun _ s => { st := s }

/-! ### Transfers (R140, R141, R184, R259, R275) -/

/-- Transfers of some actors: target checks, the watchdog, and for backward ones the refresh. `link` runs for each that passes. -/
def transfer (k : Iss) (s : State) (link : State → Actor → State) (l : List (Actor × Word)) : Done :=
  let w := ((s.block? k.uid).map Block.wdog).getD 0
  let ctx := s.ctxOf k.uid
  l.foldl (fun (d : Done) e =>
    let (a, pc) := e
    let (s, bad) := targetCheck d.st k.uid (d.st.coreOf a) ctx pc
    let back := decide (pc.toNat ≤ k.pc.toNat)
    match bad with
    | some c => { d with st := s, traps := d.traps ++ [k.trapHere a c pc 0] }
    | none =>
      if back && w ≠ 0 && 2 ^ w ≤ k.wd && k.weave.isSome then { d with st := s, traps := d.traps ++ [k.trapHere a 0x0E 0 0] }
      else
        let s := link s a
        let (s, p) := if back then refresh s a false else (s, none)
        let t : Target := { pc, seta := k.seta, setb := k.setb, mac := none, skip := false, wd0 := false }
        match p with
        | some v => { d with st := s, traps := d.traps ++ [{ who := a, cause := 0x0A, addr := v, pc := k.pc, rpc := pc }] }
        | none => { d with st := s, moves := d.moves ++ [(a.slot, t)] })
    { st := s, branch := true }

def execBra (g : Guard) (off : BitVec 32) (s : State) : Out :=
  issue (.bra g off) s fun k s => fetchEntry k s (transfer k s (fun s _ => s) (k.acts.map fun a => (a, k.pc + off.signExtend 64)))

/-- `call` writes its link in every fibre that takes it (R141). -/
def execCall (g : Guard) (link : BitVec 7) (off : BitVec 32) (s : State) : Out :=
  issue (.call g link off) s fun k s =>
    fetchEntry k s (transfer k s (fun s a => s.writeW a link.toNat (k.pc + 8)) (k.acts.map fun a => (a, k.pc + off.signExtend 64)))

/-- The transfers of `brx` and `ret`: each fibre's target is its A, and a fibre that traps keeps its last use for the replay. -/
def indirect (f : AForm) : Iss → State → Done := fun k s =>
  fetchEntry k s (transfer k (s.noteAll k.pc k.acts [f.a]) (fun s a => s.release a f.a) (k.acts.map fun a => (a, s.src a f.a)))

def execBrx (f : AForm) (s : State) : Out := issue (.brx f) s (indirect f)
def execRet (f : AForm) (s : State) : Out := issue (.ret f) s (indirect f)

/-! ### Software traps and macros (R143, R146) -/

/-- `trap`: cause 0x0F, the resume point the next instruction, AUX its argument. -/
def execTrap (f : AForm) (s : State) : Out :=
  issue (.trap f) s fun k s =>
    let s1 := s.consume k.pc k.acts (match f.ext with | .i96 _ => [] | _ => [f.a])
    { st := s1, traps := k.acts.map fun a => k.trapNext a 0x0F 0 (match f.ext with
        | .i96 imm => imm.setWidth 64
        | _ => ofNat64 ((s.src a f.a).toNat % 2 ^ 32)) }

def execBrk (g : Guard) (s : State) : Out :=
  issue (.brk g) s fun k s => { st := s, traps := k.acts.map fun a => k.trapNext a 0x10 0 0 }

/-- The operations of a block's macro n in the control store of the block's own core, for a helper on a neighbour core too (R145; log 37). -/
def macroOps (s : State) (uid n : Nat) : List Word :=
  match s.block? uid with
  | none => []
  | some b => (((s.core b.core).macs.find? fun e => e.2.hdrVA = b.hdrVA && e.2.ctx = b.ctx && e.2.n = n).map fun e => e.2.ops).getD []

/-- `mcall` reads the macro in one step; its participants then execute the operations one after another (R146). -/
def execMcall (g : Guard) (n : BitVec 6) (s : State) : Out :=
  issue (.mcall g n) s fun k s =>
    match macroOps s k.uid n.toNat with
    | [] => { st := s }
    | ops => { st := s, how := .inside ⟨ops, 0, k.acts.map Actor.slot⟩ }

/-! ### The return from a trap (R354) -/

def State.trapRegs (s : State) (a : Actor) : TrapRegs :=
  match a with
  | .fib u w sl => ((s.fibre? u w sl).map Fibre.tr).getD TrapRegs.reset
  | .seq u => ((s.stream? u).map Stream.tr).getD TrapRegs.reset

def State.updTrap (s : State) (a : Actor) (f : TrapRegs → TrapRegs) : State :=
  match a with
  | .fib u w sl => s.updFibre u w sl fun x => { x with tr := f x.tr }
  | .seq u => s.updStream u fun x => { x with tr := f x.tr }

/-- RETURNING FROM A TRAP, one participant: the state, and its trap or its target. -/
def trapReturn (s : State) (k : Iss) (a : Actor) : State × Except Trp Target :=
  let x := s.trapRegs a
  if !x.inTrap then (s, .error (k.trapHere a 0x01 0 0))
  else
    let (s, bad) := flush s a
    match bad with
    | p :: _ => (s, .error { who := a, cause := 0x0A, addr := p.poison.getD 0, pc := p.pc, rpc := k.pc })
    | [] =>
      if x.xpc.toNat % 4 ≠ 0 then (s, .error (k.trapHere a 0x04 0 0))
      else
        let s := s.updTrap a fun x => { x with inTrap := false }
        let s := s.updFib a fun f => { f with replay := f.replay.filter fun r => r.pc = x.xpc }
        let s := (refresh s a true).1
        let mac := if x.stepv then (s.fib? a).bind Fibre.smac else none
        (s, .ok { pc := x.xpc, seta := x.seta, setb := x.setb, mac, skip := true, wd0 := true, entry := x.entry })

def execTret (g : Guard) (s : State) : Out :=
  issue (.tret g) s fun k s => k.acts.foldl (fun (d : Done) a =>
    match trapReturn d.st k a with
    | (s, .error t) => { d with st := s, traps := d.traps ++ [t] }
    | (s, .ok t) => { d with st := s, moves := d.moves ++ [(a.slot, t)] }) { st := s }

/-! ### Switching between batches (R204) -/

/-- The participants' bindings refresh; a poisoned one traps with the resume point `here` or the next instruction (R275). -/
def refreshAll (k : Iss) (s : State) (here : Bool) : State × List Trp :=
  k.acts.foldl (fun r a =>
    let (s, p) := refresh r.1 a false
    (s, match p with
      | some v => r.2 ++ [if here then k.trapHere a 0x0A v 0 else k.trapNext a 0x0A v 0]
      | none => r.2)) (s, [])

def execYield (g : Guard) (s : State) : Out :=
  issue (.yield g) s fun k s =>
    let r := refreshAll k s false
    { st := r.1, traps := r.2, sw := true }

/-- The participants of a `join` park (R181, R204). -/
def execJoin (g : Guard) (s : State) : Out :=
  issue (.join g) s fun k s =>
    let r := refreshAll k s false
    { st := r.1, traps := r.2, how := .park }

/-- An instruction rejected by decoding: trap 0x01 in every participant, a `nop` of its length where no guard is true (R60, R61). -/
def execIllegalInstruction (g : Guard) (len : Nat) (s : State) : Out :=
  match s.focus with
  | .none => .fault .noAgent
  | .weave u w =>
    match s.weave? u w with
    | some x =>
      match x.curBatch with
      | none => .fault .noAgent
      | some b =>
        let k := fibIss s u w x b len g
        .next (finish s k w { st := s, traps := (if b.entry then k.batch.map fun a => k.trapHere a 0x04 0 0
                                                else k.acts.map fun a => k.trapHere a 0x01 0 0) })
    | none => .fault .noAgent
  | .stream u =>
    match s.stream? u with
    | some x =>
      let k := seqIss s u x len g
      .next (
        if x.entry then takeTrapSeq s u (k.trapHere (.seq u) 0x04 0 0) false
        else if k.acts.isEmpty then finishSeq (s.updStream u fun x => { x with capture := none }) k { st := s }
        else finishSeq s k { st := s, traps := k.acts.map fun a => k.trapHere a 0x01 0 0 })
    | none => .fault .noAgent

end Sys2Proof.Machine
end

