-- ==== Sys2Proof/Machine/Fp.lean ====
section
/-! DEFINITION. Floating-point arithmetic on bits: exact values, one rounding, the sticky flags, conversions, square root,
quotient, half-step grids (spec 04). -/
namespace Sys2Proof.Machine

/-! ### Formats (R75, R76) -/

structure Fmt where
  ebits : Nat
  fbits : Nat
  deriving DecidableEq, Repr

def fmtF16 : Fmt := ⟨5, 10⟩
def fmtBF16 : Fmt := ⟨8, 7⟩
def fmtF32 : Fmt := ⟨8, 23⟩
def fmtF64 : Fmt := ⟨11, 52⟩

def Fmt.width (f : Fmt) : Nat := 1 + f.ebits + f.fbits
def Fmt.bias (f : Fmt) : Nat := 2 ^ (f.ebits - 1) - 1
/-- Exponent of the unit of the subnormals. -/
def Fmt.qmin (f : Fmt) : Int := 1 - (f.bias : Int) - f.fbits
/-- Infinity without sign. -/
def Fmt.inf (f : Fmt) : Nat := (2 ^ f.ebits - 1) * 2 ^ f.fbits
def Fmt.nan (f : Fmt) : Nat := f.inf + 2 ^ (f.fbits - 1)
def Fmt.signed (f : Fmt) (sg : Bool) (x : Nat) : Nat := if sg then 2 ^ (f.width - 1) + x else x

/-- The format of a float type's elements. -/
def fmtOf : Ty → Fmt
  | .f16 | .cd => fmtF16
  | .bf16 | .cc => fmtBF16
  | .f64 => fmtF64
  | _ => fmtF32

def fmtOfF : FFmt → Fmt
  | .f16 => fmtF16
  | .bf16 => fmtBF16
  | .f32 => fmtF32
  | .f64 => fmtF64

/-- A value: a NaN, an infinity, or sign × m × 2^e. -/
inductive FV where
  | nan (signalling : Bool)
  | inf (neg : Bool)
  | fin (neg : Bool) (m : Nat) (e : Int)
  deriving DecidableEq, Repr

/-- The value of some bits. -/
def Fmt.decode (f : Fmt) (x : Nat) : FV :=
  let sg : Bool := x / 2 ^ (f.width - 1) % 2 = 1
  let e := x / 2 ^ f.fbits % 2 ^ f.ebits
  let m := x % 2 ^ f.fbits
  if e = 2 ^ f.ebits - 1 then (if m = 0 then .inf sg else .nan (decide (m < 2 ^ (f.fbits - 1))))
  else if e = 0 then .fin sg m f.qmin
  else .fin sg (2 ^ f.fbits + m) (f.qmin + e - 1)

def FV.isNaN : FV → Bool
  | .nan _ => true
  | _ => false
def FV.isSig : FV → Bool
  | .nan s => s
  | _ => false
def FV.isZero : FV → Bool
  | .fin _ m _ => m = 0
  | _ => false

/-! ### Rounding (R78, R79, R81) -/

/-- Whether to round a magnitude up: kept value `m`, remainder `r` of `2^k` units, and whether more lies below. -/
def roundUp (rm : RM) (sg : Bool) (m r k : Nat) (sticky : Bool) : Bool :=
  let inexact : Bool := r != 0 || sticky
  let half := 2 ^ k
  match rm with
  | .rtz => false
  | .rdn => sg && inexact
  | .rup => !sg && inexact
  | .rna => half ≤ 2 * r && k != 0
  | .rne => k != 0 && (half < 2 * r || (half = 2 * r && (sticky || m % 2 = 1)))

/-- A magnitude m × 2^e (and more below its last unit when `sticky`) rounded to a multiple of 2^q: the multiple and whether exact. -/
def roundAt (rm : RM) (sg : Bool) (m : Nat) (e q : Int) (sticky : Bool) : Nat × Bool :=
  if q ≤ e then
    let v := m * 2 ^ (e - q).toNat
    (if roundUp rm sg v 0 0 sticky then v + 1 else v, !sticky)
  else
    let k := (q - e).toNat
    let v := m / 2 ^ k
    let r := m % 2 ^ k
    (if roundUp rm sg v r k sticky then v + 1 else v, r = 0 && !sticky)

/-- An overflow's result (R78). -/
def Fmt.overflow (f : Fmt) (rm : RM) (sg : Bool) : Nat :=
  f.signed sg (match rm with
    | .rtz => f.inf - 1
    | .rdn => if sg then f.inf else f.inf - 1
    | .rup => if sg then f.inf - 1 else f.inf
    | _ => f.inf)

/-- The exact value sign × m × 2^e rounded once to a format, with its flags. A value with `sticky` has m ≠ 0 and enough bits in m that
the part below lies under the rounding position. -/
def Fmt.round (f : Fmt) (rm : RM) (sg : Bool) (m : Nat) (e : Int) (sticky : Bool) : Nat × FFlags :=
  if m = 0 then (f.signed sg 0, 0)
  else
    let top : Int := e + Nat.log2 m
    let qn : Int := top - f.fbits
    let q : Int := if qn < f.qmin then f.qmin else qn
    let (v, exact) := roundAt rm sg m e q sticky
    let x := (q - f.qmin).toNat * 2 ^ f.fbits + v
    if f.inf ≤ x then (f.overflow rm sg, FFlags.ov ||| FFlags.nx)
    else
      let tiny : Bool := qn < f.qmin && !(qn + 1 = f.qmin && (roundAt rm sg m e qn sticky).1 = 2 ^ (f.fbits + 1))
      (f.signed sg x, if exact then 0 else if tiny then FFlags.uf ||| FFlags.nx else FFlags.nx)

/-- A NaN result: canonical, NV when an operand signals (R76, R81). -/
def Fmt.nanRes (f : Fmt) (sig : Bool) : Nat × FFlags := (f.nan, if sig then FFlags.nv else 0)
/-- An invalid operation. -/
def Fmt.invalid (f : Fmt) : Nat × FFlags := (f.nan, FFlags.nv)

/-! ### Arithmetic (R77, R90, R125) -/

/-- Signed sum of two finite values at their lower exponent. -/
def finSum (s1 : Bool) (m1 : Nat) (e1 : Int) (s2 : Bool) (m2 : Nat) (e2 : Int) : Int × Int :=
  let e := if e1 ≤ e2 then e1 else e2
  let a : Int := (m1 * 2 ^ (e1 - e).toNat : Nat)
  let b : Int := (m2 * 2 ^ (e2 - e).toNat : Nat)
  ((if s1 then -a else a) + (if s2 then -b else b), e)

/-- Sum of two values, rounded once; an exact zero follows R77. -/
def addV (f : Fmt) (rm : RM) (x y : FV) : Nat × FFlags :=
  if x.isNaN || y.isNaN then f.nanRes (x.isSig || y.isSig)
  else match x, y with
    | .inf a, .inf b => if a = b then (f.signed a f.inf, 0) else f.invalid
    | .inf a, _ => (f.signed a f.inf, 0)
    | _, .inf b => (f.signed b f.inf, 0)
    | .fin s1 m1 e1, .fin s2 m2 e2 =>
      let (v, e) := finSum s1 m1 e1 s2 m2 e2
      if v = 0 then
        (f.signed (if m1 = 0 && m2 = 0 && s1 = s2 then s1 else decide (rm = .rdn)) 0, 0)
      else f.round rm (decide (v < 0)) v.natAbs e false
    | _, _ => f.invalid

def FV.neg : FV → FV
  | .fin s m e => .fin (!s) m e
  | .inf s => .inf (!s)
  | v => v

/-- The exact product; `none` when invalid. -/
def mulV : FV → FV → Option FV
  | .fin s1 m1 e1, .fin s2 m2 e2 => some (.fin (s1 != s2) (m1 * m2) (e1 + e2))
  | .inf a, .inf b => some (.inf (a != b))
  | .inf a, .fin s m _ => if m = 0 then none else some (.inf (a != s))
  | .fin s m _, .inf a => if m = 0 then none else some (.inf (a != s))
  | _, _ => some (.nan false)

def fpAdd (f : Fmt) (rm : RM) (a b : Nat) : Nat × FFlags := addV f rm (f.decode a) (f.decode b)
def fpSub (f : Fmt) (rm : RM) (a b : Nat) : Nat × FFlags := addV f rm (f.decode a) (f.decode b).neg

/-- A value rounded to a format. -/
def roundV (f : Fmt) (rm : RM) : FV → Nat × FFlags
  | .nan s => f.nanRes s
  | .inf s => (f.signed s f.inf, 0)
  | .fin s m e => f.round rm s m e false

def fpMul (f : Fmt) (rm : RM) (a b : Nat) : Nat × FFlags :=
  let x := f.decode a
  let y := f.decode b
  if x.isNaN || y.isNaN then f.nanRes (x.isSig || y.isSig)
  else match mulV x y with
    | none => f.invalid
    | some p => roundV f rm p

/-- a × b + c, rounded once; 0 × Inf is invalid whatever c holds (R81). -/
def fpFma (f : Fmt) (rm : RM) (a b c : Nat) : Nat × FFlags :=
  let x := f.decode a
  let y := f.decode b
  let z := f.decode c
  let sig := x.isSig || y.isSig || z.isSig
  match mulV x y with
  | none => f.invalid
  | some p => if x.isNaN || y.isNaN || z.isNaN then f.nanRes sig else addV f rm p z

/-- Quotient, correctly rounded (R81, R130). -/
def fpDiv (f : Fmt) (rm : RM) (a b : Nat) : Nat × FFlags :=
  let x := f.decode a
  let y := f.decode b
  if x.isNaN || y.isNaN then f.nanRes (x.isSig || y.isSig)
  else match x, y with
    | .inf _, .inf _ => f.invalid
    | .inf s, .fin t _ _ => (f.signed (s != t) f.inf, 0)
    | .fin s _ _, .inf t => (f.signed (s != t) 0, 0)
    | .fin s m e, .fin t n g =>
      if n = 0 then (if m = 0 then f.invalid else (f.signed (s != t) f.inf, FFlags.dz))
      else
        let k := 2 * f.fbits + 8 + Nat.log2 n
        let num := m * 2 ^ k
        f.round rm (s != t) (num / n) (e - g - k) (decide (num % n ≠ 0))
    | _, _ => f.invalid

/-- Integer square root by bits: the largest r with r² ≤ n, from `k` bits. -/
def isqrtFrom (n : Nat) : (k r : Nat) → Nat
  | 0, r => r
  | k + 1, r => let c := r + 2 ^ k; if c * c ≤ n then isqrtFrom n k c else isqrtFrom n k r
def isqrt (n : Nat) : Nat := isqrtFrom n (Nat.log2 n / 2 + 1) 0

/-- Square root, correctly rounded (R77, R81, R130). -/
def fpSqrt (f : Fmt) (rm : RM) (a : Nat) : Nat × FFlags :=
  match f.decode a with
  | .nan s => f.nanRes s
  | .inf s => if s then f.invalid else (f.inf, 0)
  | .fin s m e =>
    if m = 0 then (f.signed s 0, 0)
    else if s then f.invalid
    else
      let k := 2 * f.fbits + 8
      let k := if (e - k) % 2 = 0 then k else k + 1
      let n := m * 2 ^ k
      let r := isqrt n
      f.round rm false r ((e - k) / 2) (decide (r * r ≠ n))

/-! ### Selection and comparison (R126 to R128) -/

/-- Order of two values that are no NaN, −0 below +0 when `zeros`: less, equal, greater as −1, 0, 1. -/
def cmpV (zeros : Bool) (x y : FV) : Int :=
  let key (v : FV) : Int := match v with
    | .inf s => if s then -2 else 2
    | .fin s m _ => if m = 0 then 0 else if s then -1 else 1
    | .nan _ => 0
  let neg (v : FV) : Bool := match v with | .fin s _ _ => s | .inf s => s | .nan _ => false
  if key x != key y then (if key x < key y then -1 else 1)
  else match x, y with
    | .fin s1 m1 e1, .fin s2 m2 e2 =>
      if m1 = 0 && m2 = 0 then (if zeros && s1 != s2 then (if s1 then -1 else 1) else 0)
      else
        let (v, _) := finSum s1 m1 e1 (!s2) m2 e2
        if v < 0 then -1 else if v = 0 then 0 else 1
    | _, _ => if neg x = neg y then 0 else 0

/-- `fmin fmax` (`prop` false) and `fminx fmaxx` (`prop` true); `mx` selects the larger (R126). -/
def fpMinMax (f : Fmt) (mx prop : Bool) (a b : Nat) : Nat × FFlags :=
  let x := f.decode a
  let y := f.decode b
  let fl : FFlags := if x.isSig || y.isSig then FFlags.nv else 0
  if x.isNaN && y.isNaN then (f.nan, fl)
  else if x.isNaN then (if prop then f.nan else b, fl)
  else if y.isNaN then (if prop then f.nan else a, fl)
  else
    let c := cmpV true x y
    (if (if mx then 0 ≤ c else c ≤ 0) then a else b, fl)

/-- The condition of `fcmp` and its flags (R127). -/
def fpCmp (f : Fmt) (c : FCond) (a b : Nat) : Bool × FFlags :=
  let x := f.decode a
  let y := f.decode b
  let un := x.isNaN || y.isNaN
  let signalling : Bool := match c with | .lt | .le | .gt | .ge => true | _ => false
  let fl : FFlags := if (signalling && un) || x.isSig || y.isSig then FFlags.nv else 0
  let o := cmpV false x y
  let r : Bool := match c with
    | .eq => !un && o = 0
    | .ne => un || o ≠ 0
    | .lt => !un && decide (o < 0)
    | .le => !un && decide (o ≤ 0)
    | .gt => !un && decide (0 < o)
    | .ge => !un && decide (0 ≤ o)
    | .un => un
    | .ord => !un
  (r, fl)

/-- The class mask (R128). -/
def fpClass (f : Fmt) (a : Nat) : Nat :=
  match f.decode a with
  | .nan s => if s then 2 ^ 8 else 2 ^ 9
  | .inf s => if s then 1 else 2 ^ 7
  | .fin s m _ =>
    if m = 0 then (if s then 2 ^ 3 else 2 ^ 4)
    else if m < 2 ^ f.fbits then (if s then 2 ^ 2 else 2 ^ 5)
    else if s then 2 else 2 ^ 6

/-! ### Conversions (R80, R129, R138, R139) -/

/-- Between formats. -/
def fpConv (src dst : Fmt) (rm : RM) (a : Nat) : Nat × FFlags :=
  match src.decode a with
  | .fin s m e => if m = 0 then (dst.signed s 0, 0) else dst.round rm s m e false
  | v => roundV dst rm v

/-- To an integer of w bits (R80): the low w bits. -/
def fpToInt (src : Fmt) (signed : Bool) (w : Nat) (rm : RM) (a : Nat) : Nat × FFlags :=
  let lo : Int := if signed then -(2 ^ (w - 1) : Nat) else 0
  let hi : Int := if signed then (2 ^ (w - 1) : Nat) - 1 else (2 ^ w : Nat) - 1
  match src.decode a with
  | .nan _ => (0, FFlags.nv)
  | .inf s => (ofI w (if s then lo else hi), FFlags.nv)
  | .fin s m e =>
    let (v, exact) := roundAt rm s m e 0 false
    let x : Int := if s then -(v : Int) else v
    if x < lo then (ofI w lo, FFlags.nv)
    else if hi < x then (ofI w hi, FFlags.nv)
    else (ofI w x, if exact then 0 else FFlags.nx)

/-- From an integer. -/
def fpOfInt (dst : Fmt) (rm : RM) (x : Int) : Nat × FFlags :=
  if x = 0 then (0, 0) else dst.round rm (decide (x < 0)) x.natAbs 0 false

/-- To an integral value of the format; `x` sets NX when the value changes (R129). -/
def fpRound (f : Fmt) (x : Bool) (rm : RM) (a : Nat) : Nat × FFlags :=
  match f.decode a with
  | .nan s => f.nanRes s
  | .inf _ => (a, 0)
  | .fin s m e =>
    if m = 0 then (a, 0)
    else
      let (v, exact) := roundAt rm s m e 0 false
      ((f.round .rne s v 0 false).1, if x && !exact then FFlags.nx else 0)

/-! ### Dot products and half-step grids (R84, R85, R89, R91, R134 to R137) -/

/-- Twice the value of a half-step code of w bits. -/
def hsOdd (w n : Nat) : Int := 2 * toI true w n + 1

/-- `dot.bf` in its fixed order (R91). -/
def dotBf (rm : RM) (a b : Nat) (c : Nat) : Nat × FFlags :=
  let p (i : Nat) : Option FV × Bool :=
    let x := fmtBF16.decode (elemAt 16 a i)
    let y := fmtBF16.decode (elemAt 16 b i)
    (if x.isNaN || y.isNaN then some (.nan (x.isSig || y.isSig)) else mulV x y, x.isSig || y.isSig)
  let add2 (x y : Option FV) : Nat × FFlags :=
    match x, y with
    | some u, some v => addV fmtF32 rm u v
    | _, _ => fmtF32.invalid
  let s := add2 (p 0).1 (p 1).1
  let t := add2 (p 2).1 (p 3).1
  let u := fpAdd fmtF32 rm s.1 t.1
  let r := fpAdd fmtF32 rm c u.1
  (r.1, s.2 ||| t.2 ||| u.2 ||| r.2)

/-- Sum of integer products of elements. -/
def dotInt (f : Nat → Int) (g : Nat → Int) (n : Nat) : Int := ((upto n).map fun i => f i * g i).foldl (· + ·) 0

/-- Element i of an HS6 plane pair (R85). -/
def hs6Code (lo hi i : Nat) : Nat := elemAt 4 lo i + 16 * elemAt 2 (hi % 2 ^ 32) i

/-- The HS4 code of an f32 under a scale, with its flags (R89). -/
def hs4Quant (x e : Nat) : Nat × FFlags :=
  if e = 255 then (0, FFlags.nv)
  else match fmtF32.decode x with
    | .nan _ => (0, FFlags.nv)
    | .inf s => (if s then 8 else 7, FFlags.nx)
    | .fin s m g =>
      let k : Int := g + 127 - e
      let fl := if 0 ≤ k then m * 2 ^ k.toNat else m / 2 ^ (-k).toNat
      let l := if fl ≤ 7 then fl else 7
      -- the level is l + 1/2; it differs from v unless v = l + 1/2
      let exact : Bool := if 0 ≤ k then false else 2 * m = (2 * l + 1) * 2 ^ (-k).toNat
      (if s then 15 - l else l, if exact then 0 else FFlags.nx)

/-- The f32 value of an HS4 code under a scale (R89). -/
def hs4Dequant (rm : RM) (n e : Nat) : Nat × FFlags :=
  if e = 255 then fmtF32.invalid
  else
    let o := hsOdd 4 n
    fmtF32.round rm (decide (o < 0)) o.natAbs ((e : Int) - 128) false

end Sys2Proof.Machine
end

