-- ==== Sys2Proof/Machine/MemInstr.lean ====
section
/-! DEFINITION. Global memory accesses: `ld st pref amo cas cstore` (spec 07, 11, 13). -/
namespace Sys2Proof.Machine

/-! ### Addresses and checks (R148, R149) -/

end Sys2Proof.Machine
namespace Sys2Proof
open Machine

/-- The sources of an M form that are read as registers: A, B where it is one, D where it is data. -/
def MForm.srcs (m : MForm) (bReg dData : Bool) : List Src :=
  [plainSrc m.a m.la] ++ (if bReg then [plainSrc m.b m.lb] else []) ++ (if dData then [plainSrc m.d m.ld] else [])

def MOrd.isAcq : MOrd → Bool
  | .acq | .ar => true
  | _ => false
def MOrd.isRel : MOrd → Bool
  | .rel | .ar => true
  | _ => false

end Sys2Proof
namespace Sys2Proof.Machine

/-- The effective address, with B as the index where the form has one. -/
def effAddr (s : State) (a : Actor) (m : MForm) (index : Bool) : Word :=
  s.src a (plainSrc m.a false) + (if index && m.b != 0 then s.src a (plainSrc m.b false) else 0) + m.off.signExtend 64

/-- The checks of R149 on an access of n bytes. -/
def checkAccess (s : State) (a : Actor) (va : Word) (n : Nat) (k : Acc) : State × Tr :=
  if va.toNat % n ≠ 0 then (s, .trap 0x06) else translate s a.uid (s.coreOf a) (s.ctxOf a.uid) va k

/-- Wider than the block (R168). -/
def wide (sc : BitVec 4) : Bool := 2 ≤ sc.toNat

/-- A release at a scope field commits the actor's buffer: one that is wider than the block, or, by a helper in a helper weave, one of field 1 or above
(R286). -/
def commits (s : State) (a : Actor) (rel : Bool) (scope : BitVec 4) : Bool := rel && (wide scope || (inHelperWeave s a && scope != 0))

/-- A memory instruction under way: the state, traps, and results to land. -/
structure MAcc where
  st : State
  traps : List Trp := []
  rows : List (Actor × Pend) := []
  /-- an operation was made, whether or not it returns a value -/
  some_ : Bool := false

/-- The operation opens on its mark and its results wait to land (R28, R31). -/
def MAcc.close (m : MAcc) (k : Iss) (mark : Nat) (sw : Bool) : Done :=
  if m.some_ || !m.rows.isEmpty then
    let (s, id) := m.st.openOp k.uid k.weave mark
    { st := m.rows.foldl (fun s r => s.addPend r.1 { r.2 with op := id }) s, traps := m.traps, sw }
  else { st := m.st, traps := m.traps, sw }

/-- The register that an M form's result lands in. -/
def memDst (a : Actor) (d : BitVec 7) : PDst :=
  match a with
  | .fib .. => .w d.toNat
  | .seq _ => .s d.toNat

def memPend (k : Iss) (mark : Nat) (a : Actor) (d : BitVec 7) (v : Word) (poison : Option Word) : Actor × Pend :=
  (a, { op := 0, mark, dst := memDst a d, val := v, pred := none, own := false, flags := 0, poison, pc := k.pc, done := false })

/-- An operation that returns nothing is outstanding all the same: trap entry, saves and `fend` wait for it (R31). -/
def nullPend (k : Iss) (mark : Nat) (a : Actor) : Actor × Pend :=
  (a, { op := 0, mark, dst := .none, val := 0, pred := none, own := false, flags := 0, poison := none, pc := k.pc, done := false })

/-- The result of an operation with D, or its outstanding operation alone where D is 0. -/
def memRow (k : Iss) (mark : Nat) (a : Actor) (d : BitVec 7) (v : Word) (poison : Option Word) : Actor × Pend :=
  if d = 0 then nullPend k mark a else memPend k mark a d v poison

/-- A trap of a participant at the instruction. -/
def MAcc.trap (x : MAcc) (t : Trp) : MAcc := { x with traps := x.traps ++ [t] }
def MAcc.row (x : MAcc) (s : State) (r : Actor × Pend) : MAcc := { x with st := s, rows := x.rows ++ [r] }

/-- The address of a poisoned access. -/
def poisonAt (s : State) (pa n : Nat) (va : Word) : Option Word := if s.poisoned pa n then some va else none

/-! ### Loads (R150) -/

/-- One fibre's load. An acquire refreshes its bindings before it reads memory, whatever it returns (R259). A load of a poisoned line brings a poisoned
result even where the buffer forwards every byte of it, which the spec leaves open (log 60). -/
def loadOne (k : Iss) (m : MForm) (sz : MSize) (mark : Nat) (x : MAcc) (a : Actor) : MAcc :=
  let va := effAddr x.st a m (!m.nb)
  let n := sz.bytes
  let srcs := m.srcs (!m.nb && m.b != 0) false
  let acq (s : State) (go : State → MAcc) : MAcc :=
    match (if m.ord.isAcq then refresh s a false else (s, none)) with
    | (s, some v) => { x with st := s }.trap (k.trapHere a 0x0A v 0)
    | (s, none) => go s
  match checkAccess x.st a va n .load with
  | (s, .trap c) =>
    if m.nb && (c == 0x07 || c == 0x08) then
      acq s fun s => { x with st := s }.row ((s.writeP a m.b.toNat false).releaseAll a srcs) (memPend k mark a m.d 0 none)
    else if c == 0x0A then
      acq s fun s => { x with st := s }.row ((if m.nb then s.writeP a m.b.toNat true else s).releaseAll a srcs) (memPend k mark a m.d 0 (some va))
    else { x with st := s }.trap (k.trapHere a c va 0)
  | (s, .ok pa) =>
    acq s fun s =>
      let s := if m.nb then s.writeP a m.b.toNat true else s
      let v := seen s (s.bufOf a) pa n
      let bad := poisonAt s pa n va
      { x with st := s }.row (loadTouch (s.releaseAll a srcs) a.uid (s.coreOf a) pa x.st.nextOp) (memPend k mark a m.d (extendLoad sz v) bad)

def execLd (m : MForm) (sz : MSize) (s : State) : Out :=
  issue (.ld m sz) s fun k s =>
    let mark := k.markOf (.ld m sz)
    let x := k.acts.foldl (loadOne k m sz mark) { st := s.noteAll k.pc k.acts (m.srcs (!m.nb && m.b != 0) false) }
    if k.acts.any fun a => missesOver x.st (s.coreOf a) then { st := s, how := .stall } else x.close k mark false

/-! ### Stores (R151, R286, R362) -/

/-- A store of an actor enters its buffer; a release that commits makes what stands before it take effect, and then takes effect. -/
def storeAt (s : State) (a : Actor) (pa : Nat) (data : List Byte) (commits : Bool) : State :=
  let q := s.bufOf a
  if commits then commitBuf (bufStore (commitBuf s q) q pa data a.who (s.isHelper a)) q
  else bufStore s q pa data a.who (s.isHelper a)

def storeOne (k : Iss) (m : MForm) (sz : MSize) (x : MAcc) (a : Actor) : MAcc :=
  let va := effAddr x.st a m true
  let v := x.st.src a (plainSrc m.d false)
  match checkAccess x.st a va sz.bytes .store with
  | (s, .trap c) => { x with st := s }.trap (k.trapHere a c va 0)
  | (s, .ok pa) =>
    { x with st := storeAt (s.releaseAll a (m.srcs (m.b != 0) true)) a pa (toBytes sz.bytes v.toNat) (commits s a m.ord.isRel m.scope) }

/-- A store to an address would ask a home for its line. -/
def asksLine (s : State) (a : Actor) (va : Word) (n : Nat) : Bool :=
  match (checkAccess s a va n .store).2 with
  | .ok pa => decide (pa < panelEnd) && !ownsLine s (s.coreOf a) (lineOf pa)
  | .trap _ => false

/-- A store that leads from s to t makes its actor's buffer commit, or takes effect itself in a line that the core does not own, and the core has no
miss entry for the lines' ownership (R234, R248). -/
def commitWaits (m : MForm) (sz : MSize) (s t : State) (a : Actor) : Bool :=
  missesFull s (s.coreOf a)
    && (!(s.buf (s.bufOf a)).isPrefixOf (t.buf (s.bufOf a))
      || (commits s a m.ord.isRel m.scope && asksLine s a (effAddr s a m true) sz.bytes))

def execSt (m : MForm) (sz : MSize) (s : State) : Out :=
  issue (.st m sz) s fun k s =>
    let x := k.acts.foldl (storeOne k m sz) { st := s.noteAll k.pc k.acts (m.srcs (m.b != 0) true) }
    if k.acts.any fun a => commitWaits m sz s x.st a then { st := s, how := .stall } else { st := x.st, traps := x.traps }

/-! ### Prefetches (R153) -/

/-- A prefetch into the L1 takes a miss entry, whose request is still to be served; a line that the core holds well enough, or already waits for,
needs none (R153, R248). -/
def prefLine (s : State) (uid c pa : Nat) (own : Bool) : State :=
  let line := lineOf pa
  if panelEnd ≤ pa then s
  else if (if own then ownsLine s c line else (s.core c).l1.any fun e => e.1 = line) then readTouch s c pa
  else if ((s.core c).miss? line).isSome then s
  else addMiss s uid c line own

/-- One fibre's prefetch, which asks for nothing where its address does not translate (R153). -/
def prefOne (m : MForm) (kind : PrefKind) (s : State) (a : Actor) : State :=
  let va := effAddr s a m true
  let c := s.coreOf a
  let ctx := s.ctxOf a.uid
  let s := s.releaseAll a (m.srcs (m.b != 0) false)
  match translateHint s a.uid c ctx va with
  | (s, none) => s
  | (s, some (pa, writable)) =>
    match kind with
    | .rd => prefLine s a.uid c pa false
    | .wr => if writable then prefLine s a.uid c pa true else s
    | .l2 => coreRead s a.uid c pa

/-- A prefetch that finds no free miss entry waits at its point of issue (R248). -/
def execPref (m : MForm) (kind : PrefKind) (s : State) : Out :=
  issue (.pref m kind) s fun k s =>
    let t := k.acts.foldl (prefOne m kind) (s.noteAll k.pc k.acts (m.srcs (m.b != 0) false))
    if k.acts.any fun a => missesOver t (s.coreOf a) then { st := s, how := .stall } else { st := t }

/-! ### Atomics (R154 to R156, R446) -/

/-- The new value of an `amo` at width w. -/
def amoNew (op : AmoOp) (w old b : Nat) : Nat :=
  match op with
  | .add => (old + b) % 2 ^ w
  | .smin => ofI w (minI (toI true w old) (toI true w b))
  | .smax => ofI w (maxI (toI true w old) (toI true w b))
  | .nmin => min old b
  | .nmax => max old b
  | .and => old &&& b
  | .or => old ||| b
  | .xor => old ^^^ b
  | .swap => b
  | .fadd => (fpAdd (if w = 64 then fmtF64 else fmtF32) .rne old b).1

/-- Before an atomic acts: the window closes, and the buffer commits when the atomic is wider than the block (or releases a helper weave's
own buffer), or else the stores to its word take effect (R156, R286, R363). -/
def beforeAtomic (s : State) (a : Actor) (pa n : Nat) (m : MForm) : State :=
  let q := s.bufOf a
  let s := if wide m.scope || commits s a m.ord.isRel m.scope then commitBuf s q else flushWord s q pa n
  s.updBlock a.uid fun b => { b with wopen := false }

/-- The write of an atomic at the home, through no L1. -/
def atomicWrite (s : State) (a : Actor) (pa n : Nat) (v : Nat) : State :=
  blockWrite s a.uid (s.coreOf a) none pa (((s.block? a.uid).map fun b => b.stseq.toNat).getD 0) (toBytes n v)

/-- An atomic at the home that writes nothing; the home checks its tag all the same (R367). -/
def atomicRead (s : State) (a : Actor) (pa : Nat) : State :=
  if tagOk s (s.ctxOf a.uid) pa then homeRead s a.uid (s.coreOf a) pa
  else refuseWrite s a.uid (s.coreOf a) (s.ctxOf a.uid) pa (((s.block? a.uid).map fun b => b.stseq.toNat).getD 0)

/-- The event of an atomic that returns nothing and meets a poisoned line (R446). -/
def poisonEvent (s : State) (a : Actor) (pa : Nat) : State :=
  s.post (.relaunchEvent ⟨a.uid, s.coreOf a⟩ 0x14 (ofNat64 pa) (((s.block? a.uid).map fun b => b.stseq.toNat).getD 0))

/-- A switch point that an atomic makes for its fibre: its bindings are refreshed, but for the register its result has still to land in (R259,
R260). -/
def MAcc.observe (k : Iss) (d : BitVec 7) (x : MAcc) (a : Actor) : MAcc :=
  match refreshBut x.st a false (if d = 0 then [] else [d.toNat]) with
  | (s, some v) => { x with st := s }.trap (k.trapNext a 0x0A v 0)
  | (s, none) => { x with st := s }

/-- What an atomic does at the home once its address is translated and an acquire has refreshed: `new` gives the word's new value, or none to leave
it. -/
def atomicAct (k : Iss) (m : MForm) (n mark : Nat) (srcs : List Src) (new : Nat → Option Nat) (va : Word) (pa : Nat) (x : MAcc) (a : Actor)
    (s : State) : MAcc :=
  let s := beforeAtomic (s.releaseAll a srcs) a pa n m
  let old := s.phys pa n
  let bad := s.poisoned pa n
  let s := if bad then (if m.d = 0 then poisonEvent (atomicRead s a pa) a pa else atomicRead s a pa)
    else match new old with
      | some v => atomicWrite s a pa n v
      | none => atomicRead s a pa
  { x with some_ := true }.row s (memRow k mark a m.d (ofNat64 old) (if bad then some va else none))

/-- One fibre's `amo` or `cas`: `f` gives the new value of the word, or none to leave it. An acquire refreshes before its operation, and a plain one,
which is a switch point, after it (R259, R275; log 26). -/
def atomicOne (k : Iss) (m : MForm) (n mark : Nat) (srcs : List Src) (f : State → Actor → Nat → Option Nat) (x : MAcc) (a : Actor) : MAcc :=
  let va := effAddr x.st a m false
  let around (s : State) (go : State → MAcc) : MAcc :=
    if m.ord.isAcq then
      match refresh s a false with
      | (s, some v) => { x with st := s }.trap (k.trapHere a 0x0A v 0)
      | (s, none) => go s
    else (go s).observe k m.d a
  match checkAccess x.st a va n .rw with
  | (s, .trap c) =>
    if c == 0x0A && m.d != 0 then around s fun s => x.row (s.releaseAll a srcs) (memPend k mark a m.d 0 (some va))
    else { x with st := s }.trap (k.trapHere a c va 0)
  | (s, .ok pa) => around s (atomicAct k m n mark srcs (f x.st a) va pa x a)

/-- An atomic takes a miss entry on its core; where none is free it waits at its point of issue (R248). -/
def MAcc.atomics (x : MAcc) (s : State) (k : Iss) (mark : Nat) : Done :=
  if x.some_ && k.acts.any fun a => missesFull s (s.coreOf a) then { st := s, how := .stall } else x.close k mark true

/-- The width of an `amo` in bytes. -/
def amoBytes (m : MForm) : Nat := if m.nb then 8 else 4

def execAmo (m : MForm) (op : AmoOp) (s : State) : Out :=
  issue (.amo m op) s fun k s =>
    let mark := k.markOf (.amo m op)
    let n := amoBytes m
    let srcs := m.srcs true false
    let new (s : State) (a : Actor) (old : Nat) : Option Nat :=
      some (amoNew op (8 * n) old ((s.src a (plainSrc m.b false)).toNat % 2 ^ (8 * n)))
    (k.acts.foldl (atomicOne k m n mark srcs new) { st := s.noteAll k.pc k.acts srcs }).atomics s k mark

/-- The last-use bit of B covers the pair (R135, R155). -/
def execCas (m : MForm) (sz : MSize) (s : State) : Out :=
  issue (.cas m sz) s fun k s =>
    let mark := k.markOf (.cas m sz)
    let n := sz.bytes
    let srcs := m.srcs true false ++ [plainSrc (m.b + 1) m.lb]
    let new (s : State) (a : Actor) (old : Nat) : Option Nat :=
      if old = (s.src a (plainSrc m.b false)).toNat % 2 ^ (8 * n) then
        some ((s.src a (plainSrc (m.b + 1) false)).toNat % 2 ^ (8 * n)) else none
    (k.acts.foldl (atomicOne k m n mark srcs new) { st := s.noteAll k.pc k.acts srcs }).atomics s k mark

/-! ### The compacting store (R157) -/

/-- Groups actors by a key, in order of first appearance. -/
def groupBy (key : Actor → Word) : List Actor → List (Word × List Actor)
  | [] => []
  | a :: r =>
    let g := groupBy key r
    let q := key a
    match g.find? fun e => e.1 = q with
    | some e => (q, a :: e.2) :: g.filter fun e => e.1 != q
    | none => (q, [a]) :: g

/-- The element stores of one group: those that pass are made by `store`, the others trap and will be replayed. -/
def elements (k : Iss) (n cnt old : Nat) (val : Actor → Word) (commits : Bool) (x : MAcc) : List (Actor × Nat) → MAcc
  | [] => x
  | (a, i) :: r =>
    let va := ofNat64 (old + i * n)
    match checkAccess x.st a va n .store with
    | (s, .trap c) =>
      let s := s.updFib a fun f => { f with replay := some ⟨k.pc, va, val a, cnt⟩ }
      elements k n cnt old val commits ({ x with st := s }.trap (k.trapHere a c va 0)) r
    | (s, .ok pa) => elements k n cnt old val commits { x with st := storeAt s a pa (toBytes n (val a).toNat) commits } r

/-- One pointer and its fibres. The operation is outstanding for every one of them, a fibre that stops at its element store among them (R31). Where the pointer's old value is not a multiple of the element size, the record's ADDR is the pointer address, which the
spec does not say (log 48). -/
def cstoreGroup (k : Iss) (m : MForm) (n mark : Nat) (val : Actor → Word) (x : MAcc) (g : Word × List Actor) : MAcc :=
  match g.2 with
  | [] => x
  | lead :: _ =>
    let q := g.1
    match checkAccess x.st lead q 8 .rw with
    | (s, .trap c) =>
      if c == 0x0A && m.d != 0 then g.2.foldl (fun x a => (x.row x.st (memPend k mark a m.d 0 (some q))).observe k m.d a) { x with st := s }
      else g.2.foldl (fun x a => x.trap (k.trapHere a c q 0)) { x with st := s }
    | (s, .ok pa) =>
      let s := beforeAtomic s lead pa 8 m
      let old := s.phys pa 8
      if s.poisoned pa 8 then
        let s := atomicRead (g.2.foldl (fun s a => s.releaseAll a (m.srcs true false)) s) lead pa
        g.2.foldl (fun x a => (x.row x.st (memRow k mark a m.d 0 (some q))).observe k m.d a)
          { x with st := if m.d = 0 then poisonEvent s lead pa else s, some_ := true }
      else if old % n ≠ 0 then g.2.foldl (fun x a => x.trap (k.trapHere a 0x06 q 0)) { x with st := atomicRead s lead pa }
      else
        let cnt := g.2.length
        let ranked := g.2.zip (upto cnt)
        let point (s : State) : State := atomicWrite s lead pa 8 ((old + cnt * n) % 2 ^ 64)
        let s := g.2.foldl (fun s a => s.releaseAll a (m.srcs true false)) s
        let x := { x with st := s, some_ := true }
        let before := x.traps
        let x := if m.ord.isRel then
            let x := elements k n cnt old val false x ranked
            let s := if commits x.st lead true m.scope then commitBuf x.st (x.st.bufOf lead) else x.st
            { x with st := point s }
          else elements k n cnt old val false { x with st := point x.st } ranked
        let stopped (a : Actor) : Bool := (x.traps.drop before.length).any fun t => t.who = a
        g.2.foldl (fun x a =>
          if stopped a then x.row x.st (nullPend k mark a)
          else (x.row x.st (memRow k mark a m.d (ofNat64 cnt) none)).observe k m.d a) x

/-- A fibre that stopped at its element store replays only that store (R157). -/
def replayOne (k : Iss) (m : MForm) (n mark : Nat) (x : MAcc) (a : Actor) : MAcc :=
  match (x.st.fib? a).bind Fibre.replay with
  | none => x
  | some r =>
    match checkAccess x.st a r.va n .store with
    | (s, .trap c) => { x with st := s }.trap (k.trapHere a c r.va 0)
    | (s, .ok pa) =>
      let s := storeAt s a pa (toBytes n r.val.toNat) (commits s a m.ord.isRel m.scope)
      let s := s.updFib a fun f => { f with replay := none }
      ({ x with some_ := true }.row s (memRow k mark a m.d (ofNat64 r.n) none)).observe k m.d a

/-- The fibre has an element store to replay at this instruction. -/
def replays (s : State) (k : Iss) (a : Actor) : Bool := ((s.fib? a).bind Fibre.replay).any fun r => r.pc = k.pc

/-- In a batch of both, the fibres that replay an element store make it before the others append (R157 sets no order; log 88). -/
def execCstore (m : MForm) (sz : MSize) (s : State) : Out :=
  issue (.cstore m sz) s fun k s =>
    let mark := k.markOf (.cstore m sz)
    let n := sz.bytes
    let old := k.acts.filter (replays s k)
    let new := k.acts.filter fun a => !replays s k a
    let s1 := s.noteAll k.pc new (m.srcs true false)
    let x := old.foldl (replayOne k m n mark) { st := s1 }
    ((groupBy (fun a => effAddr s a m false) new).foldl (cstoreGroup k m n mark fun a => s.src a (plainSrc m.b false)) x).atomics s k mark

end Sys2Proof.Machine
end

