-- ==== Sys2Proof/Machine/Bound.lean ====
section
/-! DEFINITION. Bound registers: `bind unbind bsync bwait bamo bcas` (spec 12). -/
namespace Sys2Proof.Machine

/-! ### The bind table (R255, R276) -/

/-- Entries that a block reserves (R173, R255). -/
def Block.bindReserve (b : Block) : Nat := if b.landing then 0 else b.hdr.fibres * b.hdr.binds

/-- Bindings of a block's weaves on a core, of one kind of share. -/
def Block.bindsOn (b : Block) (c : Nat) (rest : Bool) : Nat :=
  (b.weaves.map fun w => if w.2.core = c then
    (w.2.fibres.map fun f => (f.2.binds.filter fun e => e.2.rest == rest).length).sum else 0).sum

/-- The common remainder of a core's 512 entries that is still free (R255). -/
def bindRest (s : State) (c : Nat) : Nat :=
  let held := (s.blocks.map fun b => if b.2.core = c then b.2.bindReserve else 0).sum
  512 - held - (s.blocks.map fun b => b.2.bindsOn c true).sum

/-- The share that a fibre's next binding draws on: own (false) or the remainder (true); none when both are in use. -/
def bindShare (s : State) (a : Actor) : Option Bool :=
  match s.block? a.uid, s.fib? a with
  | some b, some f =>
    let own := f.kind == .block && !b.landing
    if own && b.bindsOn b.core false < b.bindReserve then some false
    else if 0 < bindRest s (s.coreOf a) then some true
    else none
  | _, _ => none

/-- The lowest free bind slot of a fibre. -/
def Fibre.freeSlot (f : Fibre) : Nat := ((upto 4).find? fun i => !(f.binds.any fun b => b.2.slot = i)).getD 4

/-! ### `bind` (R257, R258) -/

/-- Checks 2 to 4 of R258. -/
def bindMisuse (b : Block) (f : Fibre) (d : Nat) (va : Word) : Option (BitVec 8) :=
  if b.hdr.binds ≤ f.binds.length then some 0x05
  else if (mget f.binds d).isSome || va.toNat < 0x20000 then some 0x0B
  else none

/-- One participant of a `bind`. Its address is computed, and checks 2 to 8 are made, before its refresh, so that a bound base register gives its value
before it; R258 puts the refresh before the operation alone (log 77). A page walk that meets a poisoned line traps here with 0x0A (log 95). -/
def bindOne (k : Iss) (m : MForm) (sz : MSize) (mark : Nat) (x : MAcc) (a : Actor) : MAcc :=
  match x.st.block? k.uid, x.st.fib? a with
  | some b, some f =>
    let va := effAddr x.st a m false
    let d := m.d.toNat
    match bindMisuse b f d va with
    | some c => x.trap (k.trapHere a c (if c == 0x0B then va else 0) 0)
    | none =>
      match checkAccess x.st a va sz.bytes .rw with
      | (s, .trap c) => { x with st := s }.trap (k.trapHere a c va 0)
      | (s, .ok pa) =>
        if panelEnd ≤ pa then { x with st := s }.trap (k.trapHere a 0x0B va 0)
        else match refresh s a false with
          | (s, some v) => { x with st := s }.trap (k.trapHere a 0x0A v 0)
          | (s, none) =>
            let share := bindShare s a
            let s := s.releaseAll a (m.srcs false false)
            let y : Binding := { pa, va, wide := sz == .z64, sext := sz == .s32, pending := none, poison := false, slot := f.freeSlot,
                                 rest := share.getD false, read := ((s.buf (s.bufOf a)).filter fun e => e.touches pa sz.bytes).map SEntry.seq }
            let v := y.extend (seen s (s.bufOf a) pa sz.bytes)
            let s := match share with
              | some _ =>
                (s.updFib a fun f =>
                  { f with regs := mput f.regs d (.live (s.src a (plainSrc m.d false))), binds := mput f.binds d y }).writeP a m.b.toNat true
              | none => (s.writeP a m.b.toNat false).updFib a fun f => { f with bfull := true }
            let r := memPend k mark a m.d v (poisonAt s pa sz.bytes va)
            let t := loadTouch s a.uid (s.coreOf a) pa x.st.nextOp
            x.row (if share.isSome then bindTouch t pa else t) (a, { r.2 with own := share.isSome })
  | _, _ => x

def execBind (m : MForm) (sz : MSize) (s : State) : Out :=
  issue (.bind m sz) s fun k s =>
    let mark := k.markOf (.bind m sz)
    let x := k.acts.foldl (bindOne k m sz mark) { st := s.noteAll k.pc k.acts (m.srcs false false) }
    if k.acts.any fun a => missesOver x.st (s.coreOf a) then { st := s, how := .stall } else x.close k mark true

/-! ### Shared checks (R265) -/

/-- Waits for a result still to land in a register of an actor and lands it: the state, and the poisoned result (R268, R270). -/
def landReg (s : State) (a : Actor) (n : Nat) : State × Option Pend :=
  let s := ((s.pendOf a).filter fun p => p.dst.reg? = some n).foldl (fun s p => completeOp s a.uid p.op) s
  let (s, bad) := landSel s a fun p => p.dst.reg? = some n
  (s, bad.head?)

/-- The binding that a participant names, of the width of the type where one is given. -/
def bindingOf (s : State) (a : Actor) (n : Nat) (ty : Option Ty) : Option Binding :=
  match (s.fib? a).bind fun f => mget f.binds n with
  | none => none
  | some b =>
    match ty with
    | none => some b
    | some t => if (t.shape false).2 = 8 * b.size then some b else none

/-! ### `unbind` and `bsync` (R269, R270) -/

def unbindOne (k : Iss) (d : Nat) (x : MAcc) (a : Actor) : MAcc :=
  match bindingOf x.st a d none with
  | none => x.trap (k.trapHere a 0x0B 0 0)
  | some _ =>
    match refresh x.st a false with
    | (s, some v) => { x with st := s }.trap (k.trapHere a 0x0A v 0)
    | (s, none) =>
      match landReg s a d with
      | (s, some p) => { x with st := s }.trap (poisonTrap k a p)
      | (s, none) => { x with st := dropBind s a d }

def execUnbind (g : Guard) (d : BitVec 7) (s : State) : Out :=
  issue (.unbind g d) s fun k s =>
    let x := k.acts.foldl (unbindOne k d.toNat) { st := s }
    { st := x.st, traps := x.traps, sw := true }

def execBsync (g : Guard) (s : State) : Out :=
  issue (.bsync g) s fun k s =>
    let r := refreshAll k s false
    { st := r.1, traps := r.2, sw := true }

/-! ### `bamo` and `bcas` (R266, R267) -/

/-- The operand of `bwait` and `bamo`: B, or the immediate. -/
def boundOperand (f : AForm) (s : State) (a : Actor) : Word :=
  match f.ext with
  | .i96 imm => ofNat64 (immOf false false f.ty imm)
  | _ => s.src a f.b

/-- The new value of a `bamo` at the width of its type. -/
def bamoNew (op : BamoOp) (ty : Ty) (old v : Nat) : Nat :=
  let w := (ty.shape false).2
  let sg := ty.signed false
  match op with
  | .add => (old + v) % 2 ^ w
  | .min => ofI w (minI (toI sg w old) (toI sg w v))
  | .max => ofI w (maxI (toI sg w old) (toI sg w v))
  | .and => old &&& v
  | .or => old ||| v
  | .xor => old ^^^ v
  | .swap => v

/-- One participant of an atomic on its bound word: `new` gives the word's new value, none to leave it; `ps` the predicate that shows it. Trap 0x0B has
ADDR 0, also where the register is bound at another width (R265, R351; log 94). -/
def boundAtomic (k : Iss) (f : AForm) (mark : Nat) (srcs : List Src) (new : Nat → Option Nat) (ps : Option (BitVec 4))
    (x : MAcc) (a : Actor) : MAcc :=
  let d := f.d.num.toNat
  match bindingOf x.st a d (some f.ty) with
  | none => x.trap (k.trapHere a 0x0B 0 0)
  | some b =>
    match refresh x.st a false with
    | (s, some v) => { x with st := s }.trap (k.trapHere a 0x0A v 0)
    | (s, none) =>
      let n := b.size
      let s := commitBuf (s.releaseAll a srcs) (s.bufOf a)
      let old := s.phys b.pa n
      let bad := s.poisoned b.pa n
      let w := new old
      let s := match (if bad then none else w) with
        | some v => atomicWrite s a b.pa n v
        | none => atomicRead s a b.pa
      let r := memPend k mark a f.d.num (b.extend (w.getD old)) (if bad then some b.va else none)
      x.row s (a, { r.2 with own := true, pred := if bad then none else ps.map fun p => (p, w.isSome) })

/-- B is read before the refresh, like the operands of `bcas` and `bwait` (log 77). -/
def execBamo (f : AForm) (op : BamoOp) (s : State) : Out :=
  issue (.bamo f op) s fun k s =>
    let mark := k.markOf (.bamo f op)
    let srcs := if immB f then [] else [f.b]
    let w := (f.ty.shape false).2
    (k.acts.foldl (fun x a =>
      boundAtomic k f mark srcs (fun old => some (bamoNew op f.ty old ((boundOperand f s a).toNat % 2 ^ w))) none x a)
      { st := s.noteAll k.pc k.acts srcs }).close k mark true

def execBcas (f : AForm) (s : State) : Out :=
  issue (.bcas f) s fun k s =>
    let mark := k.markOf (.bcas f)
    let w := (f.ty.shape false).2
    (k.acts.foldl (fun x a =>
      boundAtomic k f mark [f.b, f.c] (fun old => if old = (s.src a f.b).toNat % 2 ^ w then some ((s.src a f.c).toNat % 2 ^ w) else none)
        (some (f.a.num.setWidth 4)) x a)
      { st := s.noteAll k.pc k.acts [f.b, f.c] }).close k mark true

/-! ### `bwait` (R268) -/

/-- A participant of a `bwait` waits for the result still to land in its D. -/
def bwaitLand (k : Iss) (f : AForm) (x : MAcc) (a : Actor) : MAcc :=
  match bindingOf x.st a f.d.num.toNat (some f.ty) with
  | none => x.trap (k.trapHere a 0x0B 0 0)
  | some _ =>
    match landReg x.st a f.d.num.toNat with
    | (s, some p) => { x with st := s }.trap (poisonTrap k a p)
    | (s, none) => { x with st := s }

/-- A participant of a `bwait` refreshes its bindings. -/
def bwaitRefresh (k : Iss) (x : MAcc) (a : Actor) : MAcc :=
  match refresh x.st a false with
  | (s, some w) => { x with st := s }.trap (k.trapHere a 0x0A w 0)
  | (s, none) => { x with st := s }

/-- The actors that have not trapped so far. -/
def MAcc.untrapped (x : MAcc) (l : List Actor) : List Actor := l.filter fun a => !x.traps.any fun t => t.who = a

/-- The whole batch waits for results still to land, then refreshes, and then each participant tests its D: those that pass. -/
def bwaitTest (f : AForm) (cond : BwaitCond) (v : Actor → Word) (s : State) (l : List Actor) : List Nat :=
  sortNat ((l.filter fun a => bwaitHolds cond f.ty (s.src a (plainSrc f.d.num false)) (v a)).map Actor.slot)

/-- Completion refreshes the participants (R259, R268). -/
def completeWait (k : Iss) (s : State) (sw : Bool) : Done :=
  let r := refreshAll k s false
  { st := r.1, traps := r.2, wd0 := !k.acts.isEmpty, sw }

def execBwait (f : AForm) (cond : BwaitCond) (s : State) : Out :=
  issue (.bwait f cond) s fun k s =>
    match k.woke with
    | some (.bwait ..) => completeWait k s false
    | _ =>
      let srcs := if immB f then [] else [f.b]
      let v := boundOperand f s
      let x := k.acts.foldl (bwaitLand k f) { st := s.noteAll k.pc k.acts srcs }
      let x := (x.untrapped k.acts).foldl (bwaitRefresh k) x
      let kept := x.untrapped k.acts
      let latched := bwaitTest f cond v x.st kept
      let t := kept.foldl (fun s a => s.releaseAll a srcs) x.st
      if kept.all fun a => latched.contains a.slot then
        let d := completeWait { k with acts := kept } t true
        { d with traps := x.traps ++ d.traps }
      else { st := t, traps := x.traps, how := .wait (.bwait f.d.num.toNat cond f.ty (kept.map fun a => (a.slot, v a)) latched) }

end Sys2Proof.Machine
end

