-- ==== Sys2Proof/Machine/LocalInstr.lean ====
section
/-! DEFINITION. Local-store accesses `ldl` and `stl`, and the port window (spec 07, 11, 20). -/
namespace Sys2Proof.Machine

/-! ### Local store (R228, R229) -/

def lsByte (b : Block) (a : Nat) : Byte := (mget b.lstore a).getD 0

/-- n bytes of local store. -/
def lsBytes (b : Block) (a : Nat) : Nat → List Byte
  | 0 => []
  | k + 1 => lsByte b a :: lsBytes b (a + 1) k

/-- Writes local store; a zero byte is not listed. -/
def lsWrite (m : Map Byte) (a : Nat) : List Byte → Map Byte
  | [] => m
  | v :: r => lsWrite (if v = 0 then mdel m a else mput m a v) (a + 1) r

/-- START of a buffer in bytes (R229). -/
def Block.bufStart (b : Block) (n : Nat) : Nat := 1024 * (mget b.starts n).getD 0
/-- Declared size of a buffer in bytes. -/
def Block.bufSize (b : Block) (n : Nat) : Nat := 1024 * nth b.hdr.bufs n

/-- Start of the port window, and its end. -/
def portWindow : Nat := 0x10000
def portEnd : Nat := 0x11000

end Sys2Proof.Machine
namespace Sys2Proof
open Machine

/-- The sources of an L form that are read as registers. -/
def LForm.srcs (l : LForm) (st : Bool) : List Src :=
  (if l.buf.isNone then [plainSrc l.a l.la] else [])
    ++ (if l.b != 0 && !l.nb then [plainSrc l.b l.lb] else []) ++ (if st then [plainSrc l.d l.ld] else [])

end Sys2Proof
namespace Sys2Proof.Machine

/-- The local address as a signed 64-bit sum, and the part of it relative to the buffer (R158). -/
def localAddr (s : State) (b : Block) (a : Actor) (l : LForm) : Int × Int :=
  let idx := if l.b != 0 && !l.nb then s.src a (plainSrc l.b false) else 0
  let off := l.off.signExtend 64
  match l.buf with
  | some n =>
    let r := idx + off
    ((ofNat64 (b.bufStart n.toNat) + r).toInt, r.toInt)
  | none => ((s.src a (plainSrc l.a false) + idx + off).toInt, 0)

/-- The checks of R158 and R231 on an access of n bytes, with the NB check of R160 first: an address, or a cause and whether it has an ADDR. The declared
size limits the bytes below the port window (R35). A misaligned access to the port window raises 0x06 before the 0x09 of R160 and R387, an order the
spec leaves open (log 48). So are two more points (log 65): an index plus offset below the buffer's start, of which R158 does not speak, is beyond the
buffer, and the 0x09 of R231 comes after the checks of R158. -/
def localCheck (b : Block) (l : LForm) (n : Nat) (x : Int × Int) : Except (BitVec 8 × Bool) Nat :=
  let a := x.1
  if l.nb && 0 ≤ a && a < portWindow then .error (0x01, false)
  else if (match l.buf with | some m => decide (x.2 < 0) || decide ((b.bufSize m.toNat : Int) < x.2 + n) | none => false)
      || a < 0 || (portEnd : Int) ≤ a then .error (0x09, true)
  else
    let p := a.toNat
    if p < portWindow && 16 * b.hdr.lstore < min (p + n) portWindow then .error (0x05, false)
    else if p % n ≠ 0 then .error (0x06, true)
    else if l.buf.isNone && p < portWindow && b.pool.contains (p / 1024) then .error (0x09, true)
    else .ok p

def localTrap (k : Iss) (a : Actor) (x : Int × Int) (e : BitVec 8 × Bool) : Trp :=
  k.trapHere a e.1 (if e.2 then BitVec.ofInt 64 x.1 else 0) 0

/-! ### `ldl` (R159) -/

def ldlOne (k : Iss) (l : LForm) (sz : MSize) (mark : Nat) (x : MAcc) (a : Actor) : MAcc :=
  match x.st.block? k.uid with
  | none => x
  | some b =>
    let va := localAddr x.st b a l
    match localCheck b l sz.bytes va with
    | .error e => x.trap (localTrap k a va e)
    | .ok p =>
      if portWindow ≤ p then x.trap (localTrap k a va (0x09, true))
      else x.row (x.st.releaseAll a (l.srcs false)) (memPend k mark a l.d (extendLoad sz (ofBytes (lsBytes b p sz.bytes))) none)

/-- The local slots that an access through a buffer name resolves to: until it completes they are not available for a shadow run (R230). -/
def ldlSlots (s : State) (k : Iss) (l : LForm) (sz : MSize) : List Nat :=
  match s.block? k.uid with
  | none => []
  | some b => sortNat (k.acts.flatMap fun a => match localCheck b l sz.bytes (localAddr s b a l) with
    | .ok p => if l.buf.isSome then [p / 1024, (p + sz.bytes - 1) / 1024] else []
    | .error _ => [])

/-- The slots that the operation now issuing reads are held until it completes (R230). -/
def MAcc.holdSlots (x : MAcc) (uid : Nat) (slots : List Nat) : MAcc :=
  if slots.isEmpty then x else { x with st := x.st.updBlock uid fun b => { b with lreads := mput b.lreads x.st.nextOp slots } }

def execLdl (l : LForm) (sz : MSize) (s : State) : Out :=
  issue (.ldl l sz) s fun k s =>
    let mark := k.markOf (.ldl l sz)
    let x := k.acts.foldl (ldlOne k l sz mark) { st := s.noteAll k.pc k.acts (l.srcs false) }
    (x.holdSlots k.uid (ldlSlots s k l sz)).close k mark false

/-! ### The port window (R387 to R389) -/

/-- The assembly buffers of a core that are taken. -/
def asmUsed (s : State) (c : Nat) : Nat :=
  (s.blocks.map fun b => (b.2.weaves.map fun w =>
    if w.2.core = c then (w.2.fibres.filter fun f => f.2.asm.isSome).length else 0).sum).sum

/-- A header is illegal (R388, R389). -/
def badMsgHeader (w : Word) : Bool :=
  fld w 32 32 != 0 || fld w 0 10 != 0 || 40959 < fld w 16 16 || fld w 10 2 = 3

/-- A port-window store at local address p that is legal under R387. -/
def portLegal (k : Iss) (sz : MSize) (p : Nat) : Bool := k.weave.isSome && sz == .z64 && (p - portWindow) % 0x800 / 8 < 16

/-- The outcome of a port-window store. -/
def setOutcome (s : State) (a : Actor) (l : LForm) (v : Bool) : State := if l.nb then s.writeP a l.b.toNat v else s

/-- An `.nb` store is refused, and counted (R389, R393). -/
def refuse (s : State) (a : Actor) (l : LForm) : State :=
  (setOutcome s a l false).updBlock a.uid fun b => { b with refused := satTo 65535 (b.refused + 1) }

/-- A port-window store under way: the messages to send, by slot and length. -/
structure PAcc where
  acc : MAcc
  todo : List (Nat × Nat) := []

/-- One fibre's `stl`. -/
def stlOne (k : Iss) (l : LForm) (sz : MSize) (x : PAcc) (a : Actor) : PAcc :=
  let s := x.acc.st
  let trap (t : Trp) : PAcc := { x with acc := x.acc.trap t }
  match s.block? k.uid with
  | none => x
  | some b =>
    let va := localAddr s b a l
    match localCheck b l sz.bytes va with
    | .error e => trap (localTrap k a va e)
    | .ok p =>
      let v := s.src a (plainSrc l.d false)
      if p < portWindow then
        let s := s.releaseAll a (l.srcs true)
        { x with acc := { x.acc with st := s.updBlock k.uid fun b => { b with lstore := lsWrite b.lstore p (toBytes sz.bytes v.toNat) } } }
      else
        let w := (p - portWindow) % 0x800 / 8
        let bad : PAcc := trap (localTrap k a va (0x09, true))
        if !portLegal k sz p || (b.msg && !l.nb) then bad
        else
          let sends := 0x800 ≤ p - portWindow
          let asm := ((s.fib? a).bind Fibre.asm)
          if asm.isNone && 64 ≤ asmUsed s (s.coreOf a) then
            { x with acc := { x.acc with st := refuse (s.releaseAll a (l.srcs true)) a l } }
          else
            let m := mput (asm.getD []) w v
            let s := s.updFib a fun f => { f with asm := some m }
            if sends && badMsgHeader ((mget m 0).getD 0) then
              { x with acc := { x.acc with st := s, traps := x.acc.traps ++ [localTrap k a va (0x09, true)] } }
            else
              let s := s.releaseAll a (l.srcs true)
              if sends then { acc := { x.acc with st := commitBuf s (s.bufOf a) }, todo := x.todo ++ [(a.slot, w + 1)] }
              else { x with acc := { x.acc with st := setOutcome s a l true } }

/-- Assembly buffers that the legal port-window stores of some actors would take under MSG = 0. -/
def asmNeed (s : State) (k : Iss) (l : LForm) (sz : MSize) : Nat :=
  match s.block? k.uid with
  | none => 0
  | some b =>
    if b.msg then 0
    else (k.acts.filter fun a =>
      match localCheck b l sz.bytes (localAddr s b a l) with
      | .ok p => portWindow ≤ p && portLegal k sz p && ((s.fib? a).bind Fibre.asm).isNone
      | .error _ => false).length

/-- `stl`. Below the port window it writes local store; a message that leaves commits first, and waits for a free miss entry of its core where that asks
a home for a line (R158, R248, R362). -/
def execStl (l : LForm) (sz : MSize) (s : State) : Out :=
  issue (.stl l sz) s fun k s =>
    match k.woke with
    | some (.send ..) => { st := s }
    | _ =>
      let need := asmNeed s k l sz
      let c := match k.acts with | a :: _ => s.coreOf a | [] => 0
      if 0 < need && 64 < asmUsed s c + need then { st := s, how := .stall }
      else
        let x := k.acts.foldl (stlOne k l sz) { acc := { st := s.noteAll k.pc k.acts (l.srcs true) } }
        if x.todo.isEmpty then { st := x.acc.st, traps := x.acc.traps }
        else if missesFull s c && k.acts.any (mustCommit s) then { st := s, how := .stall }
        else
          let (t, stamp) := x.acc.st.stamp
          { st := t, traps := x.acc.traps, how := .wait (.send x.todo (if l.nb then some (l.b.setWidth 4) else none) none stamp t.time) }

end Sys2Proof.Machine
end

