-- ==== Sys2Proof/Machine/Special.lean ====
section
/-! DEFINITION. The approximate special functions: exact special inputs, and elsewhere the device's free value whenever it lies within
the stated bound of the exact value, which rational enclosures of 512 fraction bits decide (R131 to R133; log 7). -/
namespace Sys2Proof.Machine

inductive SpFn where
  | rcp | rsq | exp2 | log2 | sin | cos | tanh
  deriving DecidableEq, Repr

def SpFn.code : SpFn → Nat
  | .rcp => 0 | .rsq => 1 | .exp2 => 2 | .log2 => 3 | .sin => 4 | .cos => 5 | .tanh => 6

/-! ### Fixed-point enclosures -/

/-- Fraction bits of the enclosures. -/
def fxP : Nat := 512
def fxOne : Int := (2 ^ fxP : Nat)
def fxMul (x y : Int) : Int := x * y / fxOne

/-- Sum of x^(2k+1)/(2k+1), alternating when `alt`. -/
def oddSeries (alt : Bool) (x2 : Int) : (fuel k : Nat) → Int → Int → Int
  | 0, _, _, acc => acc
  | n + 1, k, p, acc =>
    let t := p / (2 * k + 1 : Nat)
    oddSeries alt x2 n (k + 1) (fxMul p x2) (if alt && k % 2 = 1 then acc - t else acc + t)

/-- Sum of x^k/k!. -/
def expSeries (x : Int) : (fuel k : Nat) → Int → Int → Int
  | 0, _, _, acc => acc
  | n + 1, k, t, acc => expSeries x n (k + 1) (fxMul t x / (k + 1 : Nat)) (acc + t)

/-- Sum of (−1)^k x^(2k+j)/(2k+j)!. -/
def trigSeries (x2 : Int) (j : Nat) : (fuel k : Nat) → Int → Int → Int
  | 0, _, _, acc => acc
  | n + 1, k, t, acc =>
    trigSeries x2 j n (k + 1) (-(fxMul t x2 / ((2 * k + j + 1) * (2 * k + j + 2) : Nat))) (acc + t)

def fxLn2 : Int := 2 * oddSeries false (fxMul (fxOne / 3) (fxOne / 3)) 170 0 (fxOne / 3) 0
def fxAtanInv (n : Nat) : Int := oddSeries true (fxMul (fxOne / n) (fxOne / n)) 130 0 (fxOne / n) 0
def fxPi : Int := 16 * fxAtanInv 5 - 4 * fxAtanInv 239
/-- e^x for 0 ≤ x < 1. -/
def fxExp (x : Int) : Int := expSeries x 120 0 fxOne 0

/-- A value scaled by 2^fxP, exact for every f32. -/
def fxOf (m : Nat) (e : Int) : Int := if 0 ≤ e + fxP then (m * 2 ^ (e + fxP).toNat : Nat) else 0

/-- 2^x for a scaled x, scaled. -/
def fxExp2 (x : Int) : Int :=
  let n := x / fxOne
  let f := x % fxOne
  let v := fxExp (fxMul f fxLn2)
  if 0 ≤ n then v * (2 ^ n.toNat : Nat) else v / (2 ^ (-n).toNat : Nat)

/-- log₂ of m × 2^e. -/
def fxLog2 (m : Nat) (e : Int) : Int :=
  let k := Nat.log2 m
  let d := 2 ^ k
  let x := ((m - d : Nat) : Int) * fxOne / (m + d : Nat)
  (e + k) * fxOne + 2 * oddSeries false (fxMul x x) 170 0 x 0 * fxOne / fxLn2

/-- Sine (or cosine) of a scaled x ≥ 0, by quadrants. -/
def fxSin (cosine : Bool) (x : Int) : Int :=
  let h := fxPi / 2
  let q := (x / h).toNat + (if cosine then 1 else 0)
  let r := x % h
  let r2 := fxMul r r
  let v := if q % 2 = 0 then trigSeries r2 1 70 0 r 0 else trigSeries r2 0 70 0 fxOne 0
  if q % 4 < 2 then v else -v

/-- tanh of a scaled x ≥ 0. -/
def fxTanh (x : Int) : Int :=
  if 256 * fxOne ≤ x then fxOne - 1
  else
    let z := fxExp2 (2 * x * fxOne / fxLn2)
    (z - fxOne) * fxOne / (z + fxOne)

/-- The exact value at an f32 magnitude m × 2^e with a sign, scaled, to within `fxSlack`. -/
def fxValue (fn : SpFn) (s : Bool) (m : Nat) (e : Int) : Int :=
  let sg (v : Int) : Int := if s then -v else v
  match fn with
  | .rcp => sg (if 0 ≤ e then fxOne / (m * 2 ^ e.toNat : Nat) else fxOne * (2 ^ (-e).toNat : Nat) / m)
  | .rsq => (isqrt ((2 ^ (2 * fxP + 400)) / (fxOf m e).toNat * 2 ^ (fxP - 400)) : Nat)
  | .exp2 => fxExp2 (sg (fxOf m e))
  | .log2 => fxLog2 m e
  | .sin => sg (fxSin false (fxOf m e))
  | .cos => fxSin true (fxOf m e)
  | .tanh => sg (fxTanh (fxOf m e))

/-- Bound of the enclosures' error, in units of 2^−fxP; for the reciprocal square root and large powers the error is relative. -/
def fxSlack (v : Int) : Int := (2 ^ 160 : Nat) + v.natAbs / 2 ^ 200

/-! ### The bound of R131 -/

/-- The unit in the last place of an f32 near a scaled value. -/
def fxUlp (v : Int) : Int :=
  let x : Int := (Nat.log2 v.natAbs : Int) - fxP
  let x := if x < -126 then -126 else x
  (2 ^ (x - 23 + fxP).toNat : Nat)

/-- The allowed error at an exact value. -/
def spBound (fn : SpFn) (m : Nat) (e : Int) (v : Int) : Int :=
  match fn with
  | .rcp | .rsq => fxUlp v
  | .log2 => if fxOne ≤ 2 * fxOf m e && fxOf m e ≤ 2 * fxOne then (2 ^ (fxP - 22) : Nat) else 2 * fxUlp v
  | _ => 2 * fxUlp v

/-- An f32 candidate lies within the bound, with the right sign and magnitude. -/
def spAccept (fn : SpFn) (m : Nat) (e : Int) (v : Int) (y : Nat) : Bool :=
  match fmtF32.decode y with
  | .fin s n g =>
    let w := if s then -(fxOf n g) else fxOf n g
    let b := spBound fn m e v - fxSlack v
    decide (w - v ≤ b) && decide (v - w ≤ b) && decide (s = decide (v < 0))
      && (match fn with | .sin | .cos | .tanh => decide (w.natAbs ≤ fxOne.natAbs) | _ => true)
  | _ => false

/-- The f32 result at a finite nonzero input without a special rule: the device's value when it keeps the bound, else the nearest. -/
def spF32 (fn : SpFn) (s : Bool) (m : Nat) (e : Int) (x : Nat) : Nat :=
  let v := fxValue fn s m e
  let y := (Config.special fn.code x).toNat
  if spAccept fn m e v y then y else (fmtF32.round .rne (decide (v < 0)) v.natAbs (-(fxP : Int)) true).1

/-- The exponent k of a value ±2^k. -/
def pow2Of (m : Nat) (e : Int) : Option Int := if m = 2 ^ Nat.log2 m then some (e + Nat.log2 m) else none

/-- ±2^k in a format, when finite and nonzero there. -/
def Fmt.pow2 (f : Fmt) (s : Bool) (k : Int) : Option Nat :=
  if k < f.qmin then none
  else
    let r := f.round .rne s 1 k false
    if r.2 = 0 then some r.1 else none

/-- The exact reciprocal exceeds the largest finite value of a format. -/
def rcpOver (f : Fmt) (m : Nat) (e : Int) : Bool :=
  match f.decode (f.inf - 1) with
  | .fin _ n g => decide (fxOf n g < fxValue .rcp false m e)
  | _ => false

/-- The special inputs of R132 for a finite nonzero argument in format f: the exact result and its flags. -/
def spExact (f : Fmt) (fn : SpFn) (s : Bool) (m : Nat) (e : Int) : Option (Nat × FFlags) :=
  match fn with
  | .rcp =>
    match (pow2Of m e).bind fun k => f.pow2 s (-k) with
    | some r => some (r, 0)
    | none =>
      if rcpOver f m e then some (f.signed s f.inf, FFlags.ov ||| FFlags.nx) else none
  | .rsq =>
    if s then some f.invalid
    else match pow2Of m e with
      | some k => if k % 2 = 0 then (f.pow2 false (-(k / 2))).map fun r => (r, 0) else none
      | none => none
  | .exp2 =>
    let x := if s then -(fxOf m e) else fxOf m e
    let big : Int := 2 ^ (f.ebits - 1)
    if big * fxOne ≤ x then some (f.inf, FFlags.ov ||| FFlags.nx)
    else if x < (f.qmin - 1) * fxOne then some (0, FFlags.uf ||| FFlags.nx)
    else if x % fxOne = 0 then (f.pow2 false (x / fxOne)).map fun r => (r, 0)
    else none
  | .log2 =>
    if s then some f.invalid
    else (pow2Of m e).map fun k => ((fpOfInt f .rne k).1, 0)
  | _ => none

/-- An approximate function on an element of format f (R131 to R133). A narrow format's result is the f32 result, exact where R132 makes that exact,
rounded to nearest even. -/
def spEval (f : Fmt) (fn : SpFn) (a : Nat) : Nat × FFlags :=
  let one := (f.round .rne false 1 0 false).1
  match f.decode a with
  | .nan sg => f.nanRes sg
  | .inf s =>
    match fn with
    | .rcp => (f.signed s 0, 0)
    | .rsq => if s then f.invalid else (0, 0)
    | .exp2 => (if s then 0 else f.inf, 0)
    | .log2 => if s then f.invalid else (f.inf, 0)
    | .sin | .cos => f.invalid
    | .tanh => (f.signed s one, 0)
  | .fin s m e =>
    if m = 0 then
      match fn with
      | .rcp | .rsq => (f.signed s f.inf, FFlags.dz)
      | .exp2 | .cos => (one, 0)
      | .log2 => (f.signed true f.inf, FFlags.dz)
      | .sin | .tanh => (a, 0)
    else match spExact f fn s m e with
      | some r => r
      | none =>
        let x := (fmtF32.round .rne s m e false).1
        let y := match spExact fmtF32 fn s m e with
          | some r => r.1
          | none => spF32 fn s m e x
        let r := if f = fmtF32 then y else (fpConv fmtF32 f .rne y).1
        let small : Bool := match f.decode r with
          | .fin _ n _ => decide (n < 2 ^ f.fbits)
          | _ => false
        (r, if small then FFlags.uf ||| FFlags.nx else FFlags.nx)

end Sys2Proof.Machine
end

