-- ==== Sys2Proof/Machine/Float.lean ====
section
/-! DEFINITION. Floating-point, special-function, dot-product and half-step instructions (spec 06). -/
namespace Sys2Proof.Machine

/-- The flags of the selected elements, together (R81). -/
def orFlags (t : Ty) (sem : BitVec 8) (m : Nat) (l : Nat → FFlags) : FFlags :=
  (upto m).foldl (fun x i => if t.semBit sem i then x ||| l i else x) 0

/-- Merges element results into the destination with the flags of the selected ones (R51, R122). -/
def fpMerge (fl : Bool) (t : Ty) (sem : BitVec 8) (old : Word) (r : Nat → Nat × FFlags) : Word × FFlags :=
  let m := (t.shape fl).1
  (mergeElems fl t sem old ((upto m).map fun i => (r i).1), orFlags t sem m fun i => (r i).2)

/-- The result and flags of a float element operation of n sources. -/
def fpVal (f : AForm) (n : Nat) (op : Fmt → (a b c : Nat) → Nat × FFlags) (s s1 : State) (a : Actor) : Word × FFlags :=
  let ea := opA true f s a
  let eb := if 2 ≤ n then opB true false f s a else []
  let ec := if 3 ≤ n then opC true f s a else []
  fpMerge true f.ty f.ext.sem (s1.oldD a f.d) fun i => op (fmtOf f.ty) (nth ea i) (nth eb i) (nth ec i)

/-- A float element operation of n sources. -/
def laneFp (f : AForm) (n : Nat) (op : Fmt → (a b c : Nat) → Nat × FFlags) : Iss → State → Done :=
  lane (readsOf f n) (writeRes f.d) (fpVal f n op)

def execFadd (f : AForm) (rm : RM) (s : State) : Out := issue (.fadd f rm) s (laneFp f 2 fun m a b _ => fpAdd m rm a b)
def execFsub (f : AForm) (rm : RM) (s : State) : Out := issue (.fsub f rm) s (laneFp f 2 fun m a b _ => fpSub m rm a b)
def execFmul (f : AForm) (rm : RM) (s : State) : Out := issue (.fmul f rm) s (laneFp f 2 fun m a b _ => fpMul m rm a b)
def execFfma (f : AForm) (rm : RM) (s : State) : Out := issue (.ffma f rm) s (laneFp f 3 fun m a b c => fpFma m rm a b c)
def execFmin (f : AForm) (s : State) : Out := issue (.fmin f) s (laneFp f 2 fun m a b _ => fpMinMax m false false a b)
def execFmax (f : AForm) (s : State) : Out := issue (.fmax f) s (laneFp f 2 fun m a b _ => fpMinMax m true false a b)
def execFminx (f : AForm) (s : State) : Out := issue (.fminx f) s (laneFp f 2 fun m a b _ => fpMinMax m false true a b)
def execFmaxx (f : AForm) (s : State) : Out := issue (.fmaxx f) s (laneFp f 2 fun m a b _ => fpMinMax m true true a b)
def execFrnd (f : AForm) (x : Bool) (rm : RM) (s : State) : Out := issue (.frnd f x rm) s (laneFp f 1 fun m a _ _ => fpRound m x rm a)

/-- The condition of `fcmp`, combined with pc, and its flags (R127). -/
def fcmpVal (f : AForm) (orr : Bool) (cond : FCond) (s _s1 : State) (a : Actor) : Bool × FFlags :=
  let r := fpCmp (fmtOf f.ty) cond (nth (opA true f s a) 0) (nth (opB true false f s a) 0)
  (combine orr r.1 (s.pred a f.c.num.toNat), r.2)

/-- `fcmp` combines its condition with pc into pd (R127). -/
def execFcmp (f : AForm) (orr : Bool) (cond : FCond) (s : State) : Out :=
  issue (.fcmp f orr cond) s (lane (readsOf f 2) (fun t a (v : Bool × FFlags) => (t.writeP a f.d.num.toNat v.1).raise a v.2) (fcmpVal f orr cond))

/-- The class mask of A (R128). -/
def fclassVal (f : AForm) (s _s1 : State) (a : Actor) : Word := ofNat64 (fpClass (fmtOf f.ty) (nth (opA true f s a) 0))

/-- `fclass` (R128). -/
def execFclass (f : AForm) (s : State) : Out := issue (.fclass f) s (lane [f.a] (writeInt f.d) (fclassVal f))

/-- The source of a conversion from float format `sf`, after its modifiers (R129). -/
def cvtSrc (sf : FFmt) (f : AForm) (s : State) (a : Actor) : Nat :=
  let w := (fmtOfF sf).width
  modElem true w f.a.neg f.a.abs ((s.src a f.a).toNat % 2 ^ w)

/-- A float in another format (R129). -/
def fcvtVal (f : AForm) (sf : FFmt) (rm : RM) (s _s1 : State) (a : Actor) : Word × FFlags :=
  let r := fpConv (fmtOfF sf) (fmtOf f.ty) rm (cvtSrc sf f s a)
  (ofNat64 r.1, r.2)
def execFcvt (f : AForm) (sf : FFmt) (rm : RM) (s : State) : Out := issue (.fcvt f sf rm) s (lane [f.a] (writeRes f.d) (fcvtVal f sf rm))

/-- A float as an integer (R129). -/
def fcvtiVal (f : AForm) (sf : FFmt) (rm : RM) (s _s1 : State) (a : Actor) : Word × FFlags :=
  let r := fpToInt (fmtOfF sf) (f.ty.signed false) (f.ty.shape false).2 rm (cvtSrc sf f s a)
  (regOf f.ty r.1, r.2)
def execFcvti (f : AForm) (sf : FFmt) (rm : RM) (s : State) : Out := issue (.fcvti f sf rm) s (lane [f.a] (writeRes f.d) (fcvtiVal f sf rm))

/-- An integer as a float (R129). -/
def icvtfVal (f : AForm) (nat w64 : Bool) (rm : RM) (s _s1 : State) (a : Actor) : Word × FFlags :=
  let w := if w64 then 64 else 32
  let x := modElem false w f.a.neg f.a.abs ((s.src a f.a).toNat % 2 ^ w)
  let r := fpOfInt (fmtOf f.ty) rm (toI (!nat) w x)
  (ofNat64 r.1, r.2)
def execIcvtf (f : AForm) (nat w64 : Bool) (rm : RM) (s : State) : Out :=
  issue (.icvtf f nat w64 rm) s (lane [f.a] (writeRes f.d) (icvtfVal f nat w64 rm))

/-! ### Long-latency results (R27, R31, R130) -/

/-- The register in which a destination field's result lands. -/
def landDst (a : Actor) (d : Dst) : PDst :=
  match a with
  | .fib .. => if d.uni then .k d.num.toNat else .w d.num.toNat
  | .seq _ => .s d.num.toNat

/-- A result to land. -/
def mkPend (k : Iss) (op mark : Nat) (dst : PDst) (val : Word) (flags : FFlags) (poison : Option Word) : Pend :=
  { op, mark, dst, val, pred := none, own := false, flags, poison, pc := k.pc, done := false }

/-- Opens the operation of a long-latency instruction on its selected mark and appends each participant's result; a k register takes the
result of the highest participant (R50), which lands where that fibre passes a landing point, though other participants may stand in another batch by then
(log 64). -/
def laneLong (i : Instr) (f : AForm) (n : Nat) (op : Fmt → (a b : Nat) → Nat × FFlags) : Iss → State → Done := fun k s =>
  let s1 := s.consume k.pc k.acts (readsOf f n)
  let (s2, id) := s1.openOp k.uid k.weave (k.markOf i)
  let top := k.acts.getLast?
  { st := k.acts.foldl (fun t a =>
      let ea := opA true f s a
      let eb := if 2 ≤ n then opB true false f s a else []
      let r := fpMerge true f.ty 0xFF 0 fun i => op (fmtOf f.ty) (nth ea i) (nth eb i)
      t.addPend a (mkPend k id (k.markOf i) (if f.d.uni && some a != top then .none else landDst a f.d) r.1 r.2 none)) s2 }

def execFsqrt (f : AForm) (rm : RM) (s : State) : Out := issue (.fsqrt f rm) s (laneLong (.fsqrt f rm) f 1 fun m a _ => fpSqrt m rm a)
def execFdiv (f : AForm) (rm : RM) (s : State) : Out := issue (.fdiv f rm) s (laneLong (.fdiv f rm) f 2 fun m a b => fpDiv m rm a b)
def execFrcp (f : AForm) (s : State) : Out := issue (.frcp f) s (laneLong (.frcp f) f 1 fun m a _ => spEval m .rcp a)
def execFrsq (f : AForm) (s : State) : Out := issue (.frsq f) s (laneLong (.frsq f) f 1 fun m a _ => spEval m .rsq a)
def execFexp2 (f : AForm) (s : State) : Out := issue (.fexp2 f) s (laneLong (.fexp2 f) f 1 fun m a _ => spEval m .exp2 a)
def execFlog2 (f : AForm) (s : State) : Out := issue (.flog2 f) s (laneLong (.flog2 f) f 1 fun m a _ => spEval m .log2 a)
def execFsin (f : AForm) (s : State) : Out := issue (.fsin f) s (laneLong (.fsin f) f 1 fun m a _ => spEval m .sin a)
def execFcos (f : AForm) (s : State) : Out := issue (.fcos f) s (laneLong (.fcos f) f 1 fun m a _ => spEval m .cos a)
def execFtanh (f : AForm) (s : State) : Out := issue (.ftanh f) s (laneLong (.ftanh f) f 1 fun m a _ => spEval m .tanh a)

/-! ### Dot products (R134, R135) -/

/-- The register above a source, for the high plane of a pair. -/
def Src.above (x : Src) : Src := { x with num := x.num + 1 }

/-- The registers that `dot` reads. -/
def dotSrcs (f : AForm) (kind : DotKind) : List Src :=
  [f.a] ++ (if kind = .h6 then [Src.above f.a] else []) ++ [f.b] ++ (if kind = .h6 then [Src.above f.b] else []) ++ [f.c]

/-- The dot product added to C (R91, R134). -/
def dotVal (f : AForm) (kind : DotKind) (rm : RM) (s _s1 : State) (a : Actor) : Word × FFlags :=
  let x := (s.src a f.a).toNat
  let y := (s.src a f.b).toNat
  let c := nth (opC true f s a) 0
  let int (v : Int) : Word × FFlags := (regOf .s32 (ofI 32 (toI true 32 c + v)), 0)
  match kind with
  | .h4 => int (dotInt (fun i => hsOdd 4 (elemAt 4 x i)) (fun i => hsOdd 4 (elemAt 4 y i)) 16)
  | .h6 =>
    let xh := (s.src a (Src.above f.a)).toNat
    let yh := (s.src a (Src.above f.b)).toNat
    int (dotInt (fun i => hsOdd 6 (hs6Code x xh i)) (fun i => hsOdd 6 (hs6Code y yh i)) 16)
  | .i8 => int (dotInt (fun i => toI true 8 (elemAt 8 x i)) (fun i => toI true 8 (elemAt 8 y i)) 8)
  | .bf => let r := dotBf rm x y c; (ofNat64 r.1, r.2)

/-- `dot` into its accumulator (R91, R134). -/
def execDot (f : AForm) (kind : DotKind) (rm : RM) (s : State) : Out :=
  issue (.dot f kind rm) s (lane (dotSrcs f kind) (writeRes f.d) (dotVal f kind rm))

/-! ### Quantise, dequantise, pack, unpack (R136 to R139) -/

/-- D read like a source, a pair of its nibbles replaced (R136). -/
def qzVal (f : AForm) (s _s1 : State) (a : Actor) : Word × FFlags :=
  let old := (s.oldD a f.d).toNat
  let ctl := (s.src a f.b).toNat
  let e := ctl % 256
  let j := ctl / 256 % 8
  let ea := opA true f s a
  let q (i : Nat) : Nat × FFlags := hs4Quant (nth ea i) e
  let sel (i : Nat) : Bool := f.ty.semBit f.ext.sem i
  (ofNat64 (packElems 4 ((upto 16).map fun n =>
      if n / 2 = j && sel (n % 2) then (q (n % 2)).1 else elemAt 4 old n)), orFlags f.ty f.ext.sem 2 fun i => (q i).2)

/-- `qz` reads D like a source and replaces a pair of nibbles (R136). -/
def execQz (f : AForm) (s : State) : Out :=
  issue (.qz f) s (lane [f.a, f.b, ⟨f.d.num, f.d.uni, false, .none, false, false⟩] (writeRes f.d) (qzVal f))

/-- A pair of nibbles as floats (R137). -/
def dqVal (f : AForm) (rm : RM) (s s1 : State) (a : Actor) : Word × FFlags :=
  let x := (s.src a f.a).toNat
  let ctl := (s.src a f.b).toNat
  fpMerge true f.ty f.ext.sem (s1.oldD a f.d) fun i => hs4Dequant rm (elemAt 4 x (2 * (ctl / 256 % 8) + i)) (ctl % 256)

/-- `dq` (R137). -/
def execDq (f : AForm) (rm : RM) (s : State) : Out := issue (.dq f rm) s (lane [f.a, f.b] (writeRes f.d) (dqVal f rm))

/-- Two registers narrowed into one (R138). -/
def packVal (f : AForm) (rm : RM) (s s1 : State) (a : Actor) : Word × FFlags :=
  let x := (s.src a f.a).toNat
  let y := (s.src a f.b).toNat
  fpMerge true f.ty f.ext.sem (s1.oldD a f.d) fun i =>
    if f.ty = .ce then
      fpConv fmtF64 fmtF32 rm (modElem true 64 (if i = 0 then f.a.neg else f.b.neg) (if i = 0 then f.a.abs else f.b.abs) (if i = 0 then x else y))
    else
      fpConv fmtF32 (fmtOf f.ty) rm (modElem true 32 (if i < 2 then f.a.neg else f.b.neg) (if i < 2 then f.a.abs else f.b.abs)
        (elemAt 32 (if i < 2 then x else y) (i % 2)))

/-- `pack` narrows two registers into one (R138). -/
def execPack (f : AForm) (rm : RM) (s : State) : Out := issue (.pack f rm) s (lane [f.a, f.b] (writeRes f.d) (packVal f rm))

/-- Half of a packed source widened (R139). -/
def unpkVal (f : AForm) (hi : Bool) (s _s1 : State) (a : Actor) : Word × FFlags :=
  let ea := opA true f s a
  if f.ty = .ce then
    let r := fpConv fmtF32 fmtF64 .rne (nth ea (if hi then 1 else 0))
    (ofNat64 r.1, r.2)
  else
    let r (i : Nat) : Nat × FFlags := fpConv (fmtOf f.ty) fmtF32 .rne (nth ea (i + if hi then 2 else 0))
    (ofNat64 (packElems 32 [(r 0).1, (r 1).1]), (r 0).2 ||| (r 1).2)

/-- `unpk` widens half of a packed source (R139). -/
def execUnpk (f : AForm) (hi : Bool) (s : State) : Out := issue (.unpk f hi) s (lane [f.a] (writeRes f.d) (unpkVal f hi))

end Sys2Proof.Machine
end

