-- ==== Sys2Proof/Machine/Parallel.lean ====
section
/-! DEFINITION. The parallel layer: `shfl vote match matchf scan red`, `fork fend id launch`, and block barriers (spec 09). -/
namespace Sys2Proof.Machine

/-! ### Cross-fibre instructions (R192 to R196) -/

/-- The results of a batch-wide computation are written in ascending slot order; its flags are raised once, by the lowest participant, also where helpers
of recruiters in several weaves take part (R196, R215; log 90). -/
def crossWrite (k : Iss) (s : State) (write : State → Actor → α → State) (val : Actor → α) (fl : FFlags) : Done :=
  let t := k.acts.foldl (fun t a => write t a (val a)) s
  { st := match k.acts with | a :: _ => if fl = 0 then t else t.raise a fl | [] => t }

/-- The slot from which `shfl` takes A (R193). -/
def shflSlot (mode : ShflMode) (sl b : Nat) : Nat :=
  match mode with
  | .idx => b % 32
  | .up => if 32 ≤ b || sl < b then sl else sl - b
  | .down => if 32 ≤ sl + b then sl else sl + b
  | .xor => sl ^^^ (b % 32)

/-- What a slot's A supplies (R190). -/
def slotRead (s : State) (a : Actor) (x : Src) (sl : Nat) : Read :=
  match a with
  | .fib u w _ => if x.uni then (s.readK u w x.num.toNat, none) else s.readW u w sl x.num.toNat
  | .seq u => (s.readS u x.num.toNat, none)

/-- B as `shfl` reads it: the register as a natural or, where the A96 form negates it or takes its absolute value, the elements of type T so modified
(R51, R193; log 49). -/
def shflB (f : AForm) (s : State) (a : Actor) : Nat :=
  if f.b.neg || f.b.abs then packElems (f.ty.shape false).2 (elemsOf false f.ty f.b (s.src a f.b)) else (s.src a f.b).toNat

def execShfl (f : AForm) (mode : ShflMode) (s : State) : Out :=
  issue (.shfl f mode) s fun k s =>
    let from_ (a : Actor) : Read := slotRead s a f.a (shflSlot mode a.slot (shflB f s a))
    let s1 := k.acts.foldl (fun t a => (t.noteDead k.uid k.pc (from_ a).2).noteDead k.uid k.pc (s.readSrc a f.b).2) s
    let s2 := k.acts.foldl (fun t a => t.releaseAll a [f.a, f.b]) s1
    crossWrite k s2 (writeInt f.d) (fun a => mergeElems false f.ty f.ext.sem (s2.oldD a f.d) (elemsOf false f.ty f.a (from_ a).1)) 0

/-- The mask of the participants that satisfy a test. -/
def maskBy (acts : List Actor) (p : Actor → Bool) : Word := ofNat64 (maskOf ((acts.filter p).map Actor.slot))

def execVote (f : AForm) (mode : VoteMode) (s : State) : Out :=
  issue (.vote f mode) s fun k s =>
    let p (a : Actor) : Bool := s.pred a f.a.num.toNat
    let set (v : Bool) : Done := crossWrite k s (fun t a v => t.writeP a f.d.num.toNat v) (fun _ => v) 0
    match mode with
    | .any => set (k.acts.any p)
    | .all => set (k.acts.all p)
    | .uni => set (k.acts.all p || !k.acts.any p)
    | .ballot => crossWrite k s (writeInt f.d) (fun _ => maskBy k.acts p) 0

/-- The bits of A that `match` compares, after its modifiers (R195). -/
def matchKey (s : State) (f : AForm) (a : Actor) : Nat := packElems (f.ty.shape false).2 (elemsOf false f.ty f.a (s.src a f.a))

def execMatchBits (f : AForm) (s : State) : Out :=
  issue (.matchBits f) s fun k s =>
    let s1 := s.consume k.pc k.acts [f.a]
    let put (a : Actor) (v : Word) : Word :=
      if f.ty.packed then
        mergeElems false f.ty f.ext.sem (s1.oldD a f.d) ((upto (f.ty.shape false).1).map fun i => elemAt (f.ty.shape false).2 v.toNat i)
      else v
    crossWrite k s1 (writeInt f.d) (fun a => put a (maskBy k.acts fun b => matchKey s f a = matchKey s f b)) 0

def execMatchf (f : AForm) (s : State) : Out :=
  issue (.matchf f) s fun k s =>
    let key (a : Actor) : Nat := nth (elemsOf true f.ty f.a (s.src a f.a)) 0
    let same (a b : Actor) : Bool := a == b || (fpCmp (fmtOf f.ty) .eq (key a) (key b)).1
    let fl := k.acts.foldl (fun (x : FFlags) a => x ||| (fpCmp (fmtOf f.ty) .eq (key a) (key a)).2) 0
    crossWrite k (s.consume k.pc k.acts [f.a]) (writeInt f.d) (fun a => maskBy k.acts (same a)) fl

/-! ### `scan` and `red` (R93, R196) -/

/-- One combination of two elements. -/
def combineE (op : RedOp) (sat : Bool) (rm : RM) (t : Ty) (a b : Nat) : Nat × FFlags :=
  if t.isFloat false then
    match op with
    | .min => fpMinMax (fmtOf t) false false a b
    | .max => fpMinMax (fmtOf t) true false a b
    | _ => fpAdd (fmtOf t) rm a b
  else
    let w := (t.shape false).2
    let sg := t.signed false
    (match op with
      | .add => narrow sat sg w (toI sg w a + toI sg w b)
      | .min => ofI w (minI (toI sg w a) (toI sg w b))
      | .max => ofI w (maxI (toI sg w a) (toI sg w b))
      | .and => a &&& b
      | .or => a ||| b
      | .xor => a ^^^ b, 0)

/-- The identity of an exclusive scan. -/
def identityE (op : RedOp) (t : Ty) : Nat :=
  let w := (t.shape false).2
  if t.isFloat false then
    match op with
    | .min => (fmtOf t).inf
    | .max => (fmtOf t).signed true (fmtOf t).inf
    | _ => 0
  else
    match op with
    | .min => if t.signed false then 2 ^ (w - 1) - 1 else 2 ^ w - 1
    | .max => if t.signed false then 2 ^ (w - 1) else 0
    | .and => 2 ^ w - 1
    | _ => 0

/-- Combines element lists. -/
def combineL (op : RedOp) (sat : Bool) (rm : RM) (t : Ty) (a b : List Nat) : List Nat × FFlags :=
  let r := (upto (t.shape false).1).map fun i => combineE op sat rm t (nth a i) (nth b i)
  (r.map Prod.fst, r.foldl (fun x e => x ||| e.2) 0)

/-- The chain of values after an accumulator, each with the combination before it: the inclusive results, and the chain's flags. -/
def chain (op : RedOp) (sat : Bool) (rm : RM) (t : Ty) (acc : List Nat) : List (List Nat) → List (List Nat) × FFlags
  | [] => ([], 0)
  | v :: r =>
    let x := combineL op sat rm t acc v
    let y := chain op sat rm t x.1 r
    (x.1 :: y.1, x.2 ||| y.2)

/-- The inclusive results of a list of values. -/
def inclusive (op : RedOp) (sat : Bool) (rm : RM) (t : Ty) : List (List Nat) → List (List Nat) × FFlags
  | [] => ([], 0)
  | v :: r => let y := chain op sat rm t v r; (v :: y.1, y.2)

/-- The result of the actor that stands at its place in a list. -/
def atActor (l : List (Actor × List Nat)) (a : Actor) : List Nat := ((l.find? fun e => e.1 = a).map Prod.snd).getD []

/-- The common part of `scan` and `red`: `pick` chooses each participant's elements from the inclusive results. -/
def reduce (f : AForm) (op : RedOp) (sat : Bool) (rm : RM) (pick : List (List Nat) → List (List Nat)) : Iss → State → Done := fun k s =>
  let s1 := s.consume k.pc k.acts [f.a]
  let r := inclusive op sat rm f.ty (k.acts.map fun a => elemsOf false f.ty f.a (s.src a f.a))
  let l := k.acts.zip (pick r.1)
  crossWrite k s1 (writeInt f.d) (fun a => mergeElems false f.ty f.ext.sem (s1.oldD a f.d) (atActor l a)) r.2

def execScan (f : AForm) (op : RedOp) (exc sat : Bool) (rm : RM) (s : State) : Out :=
  issue (.scan f op exc sat rm) s (reduce f op sat rm fun l =>
    if exc then (List.replicate (f.ty.shape false).1 (identityE op f.ty)) :: l else l)

def execRed (f : AForm) (op : RedOp) (sat : Bool) (rm : RM) (s : State) : Out :=
  issue (.red f op sat rm) s (reduce f op sat rm fun l => l.map fun _ => l.getLast?.getD [])

/-! ### Creating and ending fibres (R197, R198) -/

/-- A fibre at its start (R36). -/
def Fibre.start (kind : FKind) (fslot : Nat) (regs : Map WReg) : Fibre :=
  { kind, fslot, regs, spilt := [], preds := 0, pend := [], binds := [], bfull := false, blost := false, tr := TrapRegs.reset, faults := 0,
    grant := 0, forced := 0, pool := none, cur := none, release := false, asm := none, replay := none, smac := none }

/-- A weave slot is idle: no fibre holds it, block fibre or helper (R197). -/
def slotIdle (b : Block) (w sl : Nat) : Bool :=
  match mget b.weaves w with | some x => (mget x.fibres sl).isNone | none => false

/-- The lowest idle slot of a weave. -/
def idleSlot (b : Block) (w : Nat) : Option Nat := (upto 32).find? fun sl => slotIdle b w sl

/-- The slot for a child: in the parent's weave, else in the block's other weaves in ascending order (R197). -/
def childSlot (b : Block) (w : Nat) : Option (Nat × Nat) :=
  match idleSlot b w with
  | some sl => some (w, sl)
  | none => (b.weaves.filter fun x => x.2.kind == .block && x.1 != w).findSome? fun x => (idleSlot b x.1).map fun sl => (x.1, sl)

/-- A `fork` under way: the children made, as (weave, slot). -/
structure ForkAcc where
  st : State
  kids : List (Nat × Nat) := []

def forkOne (uid w : Nat) (dst : BitVec 7) (v : Actor → Word) (x : ForkAcc) (a : Actor) : ForkAcc :=
  let none_ : ForkAcc := { x with st := x.st.writeW a dst.toNat (BitVec.allOnes 64) }
  match x.st.block? uid, x.st.fib? a with
  | some b, some f =>
    match f.kind with
    | .block =>
      match childSlot b w with
      | none => none_
      | some (cw, sl) =>
        let s := x.st.updWeave uid cw fun y =>
          { y with fibres := mput y.fibres sl (Fibre.start .block (32 * cw + sl) [(0, .live (v a))]) }
        { st := s.writeW a dst.toNat (ofNat64 (32 * cw + sl)), kids := x.kids ++ [(cw, sl)] }
    | _ => none_
  | _, _ => none_

/-- The children in one weave form one batch (R197). -/
def kidBatches (s : State) (uid : Nat) (pc : Word) (kids : List (Nat × Nat)) : State :=
  (sortNat (kids.map Prod.fst)).foldl (fun s w =>
    s.updWeave uid w fun x => x.addBatch (Batch.start (sortNat ((kids.filter fun e => e.1 = w).map Prod.snd)) pc)) s

def execFork (g : Guard) (src dst : BitVec 7) (off : BitVec 32) (s : State) : Out :=
  issue (.fork g src dst off) s fun k s =>
    match k.weave with
    | none => { st := s }
    | some w =>
      let pc := k.pc + off.signExtend 64
      let (s1, bad) := targetCheck s k.uid (match k.acts with | a :: _ => s.coreOf a | [] => 0) (s.ctxOf k.uid) pc
      fetchEntry k s (match bad with
        | some c => { st := s1, traps := k.acts.map fun a => k.trapHere a c pc 0 }
        | none =>
          let s2 := s1.noteAll k.pc k.acts [plainSrc src false]
          let x := k.acts.foldl (forkOne k.uid w dst fun a => s.src a (plainSrc src false)) { st := s2 }
          { st := kidBatches x.st k.uid pc x.kids })

/-- A fibre ends: its operations complete, its bindings go, its registers are freed; its stores stay in the buffer (R198, R445). -/
def endFibre (s : State) (a : Actor) : State :=
  match a with
  | .fib u w sl => dropFibre (flush s a).1 u w sl
  | .seq _ => s

def execFend (g : Guard) (s : State) : Out :=
  issue (.fend g) s fun k s => { st := k.acts.foldl endFibre s, gone := k.acts.map Actor.slot }

/-! ### Identity (R199, R215, R391) -/

/-- EXT of a declared level. -/
def Block.ext (b : Block) (l : Nat) : Nat := match b.levels[l]? with | some e => e.2.2 | none => 0

/-- Product of EXT over levels 1 to l. -/
def Block.span (b : Block) : Nat → Nat
  | 0 => 1
  | l + 1 => (if b.ext (l + 1) = 0 then 1 else b.ext (l + 1)) * b.span l

/-- The coordinate of a linear index at level l, from 1 (R167). -/
def Block.coord (b : Block) (l : Nat) : Nat := if b.ext l = 0 then 0 else b.idx / b.span (l - 1) % b.ext l

/-- A selector's value; none where the side has no such value. Coordinate 0 of a helper is its own number (R199, R215; log 93). -/
def idValue (s : State) (k : Iss) (sel_ : IdSel) (b : Block) (a : Actor) : Option Word :=
  let core := s.coreOf a
  let fs : Option Word := (s.fib? a).map fun f => ofNat64 f.fslot
  match sel_ with
  | .fslot => fs
  | .wslot => match a with | .fib _ _ sl => some (ofNat64 sl) | .seq _ => none
  | .weave => match a with
    | .fib u w _ =>
      if s.isHelper a then some (BitVec.allOnes 64)
      else match s.weave? u w with
        | some x => some (ofNat64 (if x.kind == .handler then 32 + x.wslot else w))
        | none => none
    | .seq _ => none
  | .block => some (ofNat64 b.idx)
  | .core => some (ofNat64 core)
  | .die => some (ofNat64 (coreDie core))
  | .cluster => some (ofNat64 (clusterOf (coreIdx core)))
  | .nfib => some (ofNat64 b.hdr.fibres)
  | .active => match a with | .fib .. => some (maskBy k.acts fun _ => true) | .seq _ => none
  | .coord l => if l = 0 then fs else some (ofNat64 (b.coord l.toNat))
  | .ext l => some (ofNat64 (if b.ext l.toNat = 0 then 1 else b.ext l.toNat))

def execId (f : AForm) (sel_ : IdSel) (s : State) : Out :=
  issue (.id f sel_) s fun k s =>
    match s.block? k.uid with
    | none => { st := s }
    | some b =>
      if k.acts.any fun a => (idValue s k sel_ b a).isNone then { st := s, traps := k.acts.map fun a => k.trapHere a 0x01 0 0 }
      else { st := k.acts.foldl (fun t a => t.writeD a f.d ((idValue s k sel_ b a).getD 0)) s }

/-! ### `launch` (R200) -/

/-- A launch as it is submitted; its record is read when it is first in its queue (R170). -/
def Launch.queued (lid queue : Nat) (record : Word) : Launch :=
  { lid, queue, record, kernel := 0, args := 0, flags := 0, budget := 0, seed := 0, wdog := 0, done := 0, spill := 0, depcount := 0,
    depflag := 0, levels := [], zeroBits := true, masks := [], hdr := none, macs := [], state := .queued, readyAt := 0, deadline := none,
    total := 0, next := 0, again := [], barred := [], ended := 0, killed := 0, chosen := [] }

/-- Submits a launch; a queue with 64 launches that have not completed takes none. -/
def submitLaunch (s : State) (ctx queue : Nat) (record : Word) : State × Bool :=
  match s.ctx? ctx with
  | none => (s, false)
  | some x =>
    if 64 ≤ (x.launches.filter fun l => l.queue = queue && l.state != .done).length then (s, false)
    else (s.updCtx ctx fun x =>
      { x with launches := x.launches ++ [Launch.queued x.nextLid queue record], nextLid := x.nextLid + 1 }, true)

def launchOne (k : Iss) (f : AForm) (x : State × List Trp) (a : Actor) : State × List Trp :=
  let va := x.1.src a f.a
  let q := (x.1.src a f.b).toNat % 16
  if va.toNat % 64 ≠ 0 then (x.1, x.2 ++ [k.trapHere a 0x06 va 0])
  else
    let s := x.1.releaseAll a [f.a, f.b]
    let (t, ok) := submitLaunch (commitBuf s (s.bufOf a)) (s.ctxOf k.uid) q va
    ((if ok then t else s).writeP a f.d.num.toNat ok, x.2)

def execLaunch (f : AForm) (s : State) : Out :=
  issue (.launch f) s fun k s =>
    let x := k.acts.foldl (launchOne k f) (s.noteAll k.pc k.acts [f.a, f.b], [])
    { st := x.1, traps := x.2 }

/-! ### Block barriers (R201 to R203, R428) -/

def Block.bar (b : Block) (n : Nat) : Barrier := (mget b.bars n).getD Barrier.reset

/-- One arrival; an arrival without a count leaves E as it stands. Answers the token. -/
def Barrier.arrive (x : Barrier) (count : Option Nat) : Barrier × BitVec 32 :=
  let e := match x.e with | some e => some e | none => count
  let n := x.arr + 1
  (if e = some n then { p := x.p + 1, arr := 0, e := none } else { p := x.p, arr := n, e }, x.p)

/-- A wait for a token is satisfied (R202). -/
def tokenDone (p : BitVec 32) (tok : Nat) : Bool :=
  let d := (p - BitVec.ofNat 32 tok).toNat
  1 ≤ d && d ≤ 2 ^ 31

/-- An arrival at a barrier of a block; a completed phase wakes the waits that it satisfies. -/
def arriveBar (s : State) (uid n : Nat) (count : Option Nat) : State × Nat :=
  match s.block? uid with
  | none => (s, 0)
  | some b =>
    let (y, tok) := (b.bar n).arrive count
    let s := s.updBlock uid fun b => { b with bars := mput b.bars n y }
    (if y.p = (b.bar n).p then s
     else wakeIf s uid fun q => match q with
       | .bar m toks => m = n && toks.all fun t => tokenDone y.p t.2
       | _ => false, tok.toNat)

/-- The regions that share an edge of sites with region r (R428). -/
def regionsBeside (r : Nat) : List Nat :=
  (if 4 ≤ r then [r - 4] else []) ++ (if r % 4 ≠ 0 then [r - 1] else []) ++ (if r % 4 ≠ 3 then [r + 1] else [])
    ++ (if r < 12 then [r + 4] else [])

/-- The region that holds the barrier completions of a block (R428). -/
def holdRegion (s : State) (uid : Nat) : Option Nat :=
  match s.block? uid with
  | none => none
  | some b => if (s.region (regionOf (coreDie b.core))).hold then some (regionOf (coreDie b.core)) else none

/-- The alarms of the stretched regions beside region r since which a batch has met no completion. -/
def newAlarms (s : State) (r : Nat) (met : List (Nat × Nat)) : List (Nat × Nat) :=
  ((regionsBeside r).filter fun m => (s.region m).stretch).filterMap fun m =>
    if met.contains (m, (s.region m).droops) then none else some (m, (s.region m).droops)

/-- A batch meets a completion after some alarms; those of ended stretches are forgotten. -/
def Batch.meets (s : State) (new : List (Nat × Nat)) (b : Batch) : Batch :=
  { b with met := new ++ b.met.filter fun e => (s.region e.1).droops = e.2 }

/-- The participants of a completed barrier wait refresh (R203). -/
def barRelease (k : Iss) (s : State) : Done :=
  let r := refreshAll k s false
  { st := r.1, traps := r.2, wd0 := !k.acts.isEmpty }

/-- A barrier completion of a batch: the first since an alarm beside it is held, unless HOLDCAP is 0; a held one is held no second time. The batch carries
the alarms that it has met wherever it goes; the parts of a split carry all of them, and so does what merges (R203, R428). -/
def barComplete (k : Iss) (s : State) : Done :=
  match k.weave, k.woke with
  | _, some (.hold ..) => barRelease k s
  | none, _ => barRelease k s
  | some w, _ =>
    match holdRegion s k.uid, (s.weave? k.uid w).bind Weave.curBatch with
    | some r, some b =>
      let new := newAlarms s r b.met
      let t := s.updWeave k.uid w fun x => { x with batches := x.batches.modify (x.cur.getD 0) (Batch.meets s new) }
      if new.isEmpty || (s.region r).holdcap = 0 then barRelease k t else { st := t, how := .wait (.hold r (new.map Prod.fst) s.time) }
    | _, _ => barRelease k s

/-- Waits for tokens, or completes (R202). -/
def barWaitFor (k : Iss) (s : State) (n : Nat) (toks : List (Nat × Nat)) : Done :=
  let p := ((s.block? k.uid).map fun b => (b.bar n).p).getD 0
  if toks.all fun t => tokenDone p t.2 then barComplete k s else { st := s, how := .wait (.bar n toks) }

/-- The expected count of B (R202). -/
def barCount (v : Word) : Nat := if v.toNat % 2048 = 0 then 1 else v.toNat % 2048

/-- Every participant arrives in ascending slot order: the state, and each slot's token. -/
def arriveAll (k : Iss) (s : State) (n : Nat) (count : Actor → Nat) : State × List (Actor × Nat) :=
  k.acts.foldl (fun x a =>
    let y := arriveBar x.1 k.uid n (some (count a))
    (y.1, x.2 ++ [(a, y.2)])) (s, [])

def execBarArrive (f : AForm) (rd : Bool) (n : BitVec 4) (s : State) : Out :=
  issue (.barArrive f rd n) s fun k s =>
    let x := arriveAll k (s.consume k.pc k.acts [f.b]) n.toNat fun a => barCount (s.src a f.b)
    { st := if rd then x.2.foldl (fun t e => t.writeD e.1 f.d (ofNat64 e.2)) x.1 else x.1 }

def execBarWait (f : AForm) (n : BitVec 4) (s : State) : Out :=
  issue (.barWait f n) s fun k s =>
    match k.woke with
    | some _ => barComplete k s
    | none => barWaitFor k (s.consume k.pc k.acts [f.a]) n.toNat (k.acts.map fun a => (a.slot, (s.src a f.a).toNat % 2 ^ 32))

def execBarSync (f : AForm) (n : BitVec 4) (s : State) : Out :=
  issue (.barSync f n) s fun k s =>
    match k.woke with
    | some _ => barComplete k s
    | none =>
      let x := arriveAll k (s.consume k.pc k.acts [f.b]) n.toNat fun a => barCount (s.src a f.b)
      barWaitFor k x.1 n.toNat (x.2.map fun e => (e.1.slot, e.2))

end Sys2Proof.Machine
end

