-- ==== Sys2Proof/Machine/Engines.lean ====
section
/-! DEFINITION. What every engine command shares: queues, capture, buffers and shadow runs, completion with barriers and graph
successors; buffer maps and the command graph: `lbmap g.node g.edge g.run g.reset` (spec 15, 11). -/
namespace Sys2Proof.Machine

/-! ### Buffers and the slots they hold (R228 to R230) -/

/-- START of a buffer in slots. -/
def Block.startOf (b : Block) (n : Nat) : Nat := (mget b.starts n).getD 0
/-- Size of a buffer in slots. -/
def Block.slotsOf (b : Block) (n : Nat) : Nat := nth b.hdr.bufs n
/-- Local slots of the block. -/
def Block.localSlots (b : Block) : Nat := (16 * b.hdr.lstore + 1023) / 1024

/-- Slots from `lo`, n of them. -/
def slotRun (lo n : Nat) : List Nat := (upto n).map fun i => lo + i

/-- A local slot is plain: neither in the shadow pool nor under a buffer's name. -/
def Block.plain (b : Block) (sl : Nat) : Bool :=
  sl < b.localSlots && !b.pool.contains sl && !((upto 16).any fun n => b.startOf n ≤ sl && sl < b.startOf n + b.slotsOf n)

end Sys2Proof.Machine
namespace Sys2Proof
open Machine

/-- The engine that runs a command (R309). -/
def Instr.engine : Instr → Engine
  | .mm .. | .mmClr .. | .mmLd .. | .mmRd .. => .array
  | _ => .copy

/-- Buffers that a command reads. -/
def Instr.reads : Instr → List Nat
  | .cpOut _ sb _ _ _ | .cpPeer _ sb _ _ _ _ _ | .mmLd _ _ sb _ _ _ => [sb.toNat]
  | .mm _ a b _ _ _ _ _ _ => [a.toNat, b.toNat]
  | _ => []

/-- The buffer that a command writes, in its own block or the target's, and KEEP. -/
def Instr.writes : Instr → Option (Nat × Bool)
  | .cpIn _ db keep _ _ _ | .mmRd _ _ db keep _ _ _ _ => some (db.toNat, keep)
  | .cpPeer _ _ tb _ _ _ keep => some (tb.toNat, keep)
  | .cpFill _ db keep glb _ _ => if glb then none else some (db.toNat, keep)
  | _ => none

/-- The buffers of its own block that a command names (R310). -/
def Instr.bufNames (i : Instr) : List Nat :=
  i.reads ++ (match i with | .cpPeer .. => [] | _ => (i.writes.map Prod.fst).toList)

end Sys2Proof
namespace Sys2Proof.Machine

/-- The block of a number where it lies saved in a frame. -/
def savedBlock (s : State) (uid : Nat) : Option Block := s.frames.findSome? fun f => if f.2.uid = uid then f.2.block else none

/-- Running commands of every block: the block and the command. -/
def State.allRunning (s : State) : List (Nat × Running) := s.blocks.flatMap fun b => b.2.running.map fun r => (b.1, r)

/-- Slots of a block that a started command writes, or that one of its own or an outstanding `ldl` still reads (R230, R311). -/
def takenSlots (s : State) (uid : Nat) (b : Block) : List Nat :=
  (s.allRunning.flatMap fun r =>
    match r.2.run with
    | some (n, lo) => if r.2.target = uid then slotRun lo (b.slotsOf n) else []
    | none => []) ++ (b.running.flatMap fun r => r.reads) ++ b.lreads.flatMap Prod.snd

/-- The lowest run of n contiguous slots of the pool that is available. -/
def shadowRun (s : State) (uid : Nat) (b : Block) (n : Nat) : Option Nat :=
  let t := takenSlots s uid b
  (upto b.localSlots).find? fun lo => (slotRun lo n).all fun sl => b.pool.contains sl && !t.contains sl

/-- A started command writes the buffer name of a block, a `cp.peer` that waits for its target among them (R311). -/
def writing (s : State) (uid n : Nat) : Bool :=
  s.allRunning.any fun r => r.2.target = uid && (r.2.cmd.ins.writes.map Prod.fst) == some n

/-- A started command of the block reads the name. -/
def Block.reading (b : Block) (n : Nat) : Bool := b.running.any fun r => r.cmd.ins.reads.contains n

/-- A shadow run begins as a copy of the old run, or as zeros (R314). -/
def openRun (m : Map Byte) (old new len : Nat) (keep : Bool) : Map Byte :=
  let m1 := m.filter fun e => !(new ≤ e.1 && e.1 < new + len)
  if keep then (m.filter fun e => old ≤ e.1 && e.1 < old + len).foldl (fun m e => mput m (e.1 - old + new) e.2) m1 else m1

/-- A started command's write into its shadow run. -/
def writeRun (s : State) (r : Running) (off : Nat) (data : List Byte) : State :=
  match r.run with
  | some (_, lo) => s.updBlock r.target fun b => { b with lstore := lsWrite b.lstore (1024 * lo + off) data }
  | none => s

/-- The publish step: the name moves to the new run, and the old run joins the pool (R230). -/
def publish (s : State) (r : Running) : State :=
  match r.run with
  | some (n, lo) => s.updBlock r.target fun b =>
      { b with starts := mput b.starts n lo
               pool := sortNat (slotRun (b.startOf n) (b.slotsOf n) ++ b.pool.filter fun sl => !(slotRun lo (b.slotsOf n)).contains sl) }
  | none => s

/-- Commands, `lbmap` and `g.reset` of a block that wait on the engines try again, and so do those of a block that a command of it writes to (R315). -/
def wakeEngines (s : State) (uid target : Nat) : State := if target = uid then wakeEngine s uid else wakeEngine (wakeEngine s uid) target

/-! ### Ready commands and the graph (R309, R311, R324 to R327) -/

/-- A command becomes ready. -/
def Block.ready (b : Block) (c : Cmd) : Block :=
  let c := { c with id := b.nextCmd }
  match c.ins.engine with
  | .copy => { b with nextCmd := b.nextCmd + 1, cpReady := b.cpReady ++ [c] }
  | .array => { b with nextCmd := b.nextCmd + 1, mmReady := b.mmReady ++ [c] }

/-- A node whose count is 0 is launched; while the block is being saved it waits, and launching goes on from the saved counts (R327). -/
def Block.launchNode (b : Block) (n : Nat) : Block :=
  match mget b.graph n with
  | some x =>
    if b.saving.isSome then b
    else { b with graph := mput b.graph n { x with st := .running } }.ready { x.cmd with node := some n }
  | none => b

/-- A restored block launches the nodes that have come to count 0 and wait, in ascending order (R327). -/
def Block.relaunchNodes (b : Block) : Block :=
  if b.grun.isNone then b
  else ((b.graph.filter fun n => n.2.cnt = 0 && n.2.st == .waiting).map Prod.fst).foldl Block.launchNode b

/-- A successor's count falls; at 0 it is launched, and below it EXTRA is set. -/
def Block.lower (b : Block) (n : Nat) : Block :=
  match mget b.graph n with
  | none => b
  | some x =>
    if x.cnt = 0 then { b with gExtra := true }
    else
      let b := { b with graph := mput b.graph n { x with cnt := x.cnt - 1 } }
      if x.cnt = 1 then b.launchNode n else b

/-- Every defined node is complete. -/
def Block.runOver (b : Block) : Bool := b.graph.all fun n => n.2.st == .complete

/-- The arrival of a command, a node or a run: the count is 1 (R312). -/
def arriveOpt (s : State) (uid : Nat) (bar : Option (BitVec 4)) : State :=
  match bar with
  | some n => (arriveBar s uid n.toNat (some 1)).1
  | none => s

/-- The run ends when every node is complete. -/
def endRun (s : State) (uid : Nat) : State :=
  match s.block? uid with
  | some b =>
    match b.grun with
    | some bar => if b.runOver then arriveOpt (s.updBlock uid fun b => { b with grun := none }) uid bar else s
    | none => s
  | none => s

/-- A node completes: its barrier, its successors in list order, and perhaps the run (R327). -/
def completeNode (s : State) (uid n : Nat) : State :=
  match (s.block? uid).bind fun b => mget b.graph n with
  | none => s
  | some x =>
    let s := s.updBlock uid fun b => { b with graph := mput b.graph n { x with st := .complete }, gDone := b.gDone + 1 }
    let s := arriveOpt s uid x.bar
    let s := s.updBlock uid fun b => ((mget b.edges n).getD []).foldl Block.lower b
    endRun s uid

/-- A command leaves the engine complete: arrival, node, and whatever waits on the engines (R312). -/
def retireCmd (s : State) (uid : Nat) (r : Running) : State :=
  let s := s.updBlock uid fun b => { b with running := b.running.filter fun x => x.cmd.id != r.cmd.id }
  let s := match r.cmd.node with
    | some n => completeNode s uid n
    | none => arriveOpt s uid r.cmd.bar
  tryEnd (wakeEngines s uid r.target) uid

/-- The record of a command error of a stream that has ended, which ends the block (R313). -/
def endedError (s : State) (uid : Nat) (inner : BitVec 8) (pc : Word) : State :=
  match s.block? uid with
  | none => s
  | some b =>
    let r : Rec := { block := b.idx, cause := 0x12, inner := inner.toNat, flags := recFlags true false false true false false false false,
                     step := 0xFF, slot := 0xFFFF, core := b.core, pc, rpc := pc, addr := 0, aux := 0, lrec := b.record.toNat, mask := 0 }
    killBlock (writeRecord s b.ctx r false).1 uid

/-- A command error (R313, R341): sr.gstat and the node record it; the stream traps before its next instruction, or the block ends. With
inner cause 0x16 the block raises event 0x16, with that inner cause, instead. ENODE is open when the command was direct. -/
def failCmd (s : State) (uid : Nat) (r : Running) (inner : BitVec 8) : State :=
  let open_ := (Config.freeWord s.fresh).toNat % 64
  let s := s.tick.updBlock uid fun b =>
    { b with running := b.running.filter fun x => x.cmd.id != r.cmd.id, gErr := true, gInner := inner, gDir := r.cmd.node.isNone,
             gEnode := r.cmd.node.getD open_,
             graph := match r.cmd.node with | some n => mupd b.graph n fun x => { x with st := .error } | none => b.graph }
  let s := wakeEngines s uid r.target
  if inner == 0x16 then s.post (.relaunchEvent ⟨uid, s.coreOf (.seq uid)⟩ 0x16 0 0x16)
  else match (s.stream? uid).map fun x => x.state == .ended with
    | some false => s.updStream uid fun x => { x with cmdErr := x.cmdErr ++ [(inner, r.cmd.pc)] }
    | _ => endedError s uid inner r.cmd.pc

/-! ### Issue of a command (R309, R310, R325) -/

/-- Direct commands of a block that an engine has not started. -/
def Block.queued (b : Block) (e : Engine) : Nat :=
  let l := match e with | .copy => b.cpReady | .array => b.mmReady
  (l.filter fun c : Cmd => c.node.isNone).length

/-- A command issues: buffer names, FN of a captured one, its limits; then it is captured, queued, or waits for room. `limit` gives the cause
of step 3 of R310 for its register values. -/
def command (i : Instr) (a b c : BitVec 7) (bar : Option (BitVec 4)) (limit : Block → Word → Word → Word → Option (BitVec 8)) : Iss → State → Done :=
  fun k s =>
  match k.acts, s.block? k.uid, s.stream? k.uid with
  | who :: _, some blk, some x =>
    let ra := s.readS k.uid a.toNat
    let rb := s.readS k.uid b.toNat
    let rc := s.readS k.uid c.toNat
    let stop (cause : BitVec 8) : Done := { st := s, traps := [k.trapHere who cause 0 0] }
    if i.bufNames.any fun n => blk.slotsOf n = 0 then stop 0x05
    else if x.capture.isSome && bar.isSome then stop 0x12
    else match limit blk ra rb rc with
      | some cause => stop cause
      | none =>
        let cmd : Cmd := { id := 0, ins := i, ra, rb, rc, node := none, bar, pc := k.pc }
        match x.capture with
        | some (n, cnt, nbar) =>
          { st := (s.updBlock k.uid fun b => { b with graph := mput b.graph n ⟨cmd, cnt, 0, nbar, .defined⟩ }).updStream k.uid fun x =>
              { x with capture := none } }
        | none =>
          if 8 ≤ blk.queued i.engine then { st := s, how := .wait .engine }
          else { st := s.updBlock k.uid fun b => b.ready cmd }
  | _, _, _ => { st := s }

/-! ### `lbmap` (R315) -/

/-- A trap 0x12 of the stream. -/
def engineTrap (k : Iss) (s : State) (cause : BitVec 8) : Done := { st := s, traps := k.acts.map fun a => k.trapHere a cause 0 0 }

/-- The step of `lbmap` on its names, once they are idle: the block afterwards, or none for trap 0x12. -/
def remap (k : Iss) (s : State) (names : List Nat) (f : Block → Option Block) : Done :=
  match s.block? k.uid with
  | none => { st := s }
  | some b =>
    if names.any fun n => writing s k.uid n || b.reading n then { st := s, how := .wait .engine }
    else match f b with
      | some b => { st := s.setBlock k.uid b }
      | none => engineTrap k s 0x12

def execLbmapSwap (g : Guard) (d a : BitVec 4) (s : State) : Out :=
  issue (.lbmapSwap g d a) s fun k s =>
    remap k s [d.toNat, a.toNat] fun b =>
      if b.slotsOf d.toNat = b.slotsOf a.toNat then
        some { b with starts := mput (mput b.starts d.toNat (b.startOf a.toNat)) a.toNat (b.startOf d.toNat) }
      else none

def execLbmapSet (g : Guard) (d : BitVec 4) (b : BitVec 7) (s : State) : Out :=
  issue (.lbmapSet g d b) s fun k s =>
    let v := (s.readS k.uid b.toNat).toNat
    remap k s [d.toNat] fun blk =>
      if (slotRun v (blk.slotsOf d.toNat)).all blk.plain then some { blk with starts := mput blk.starts d.toNat v } else none

/-! ### The graph (R325 to R327) -/

def execGNode (g : Guard) (n : BitVec 6) (cnt : BitVec 6) (bar : Option (BitVec 4)) (s : State) : Out :=
  issue (.gNode g n cnt bar) s fun k s =>
    match s.block? k.uid with
    | none => { st := s }
    | some b =>
      if b.grun.isSome then engineTrap k s 0x12
      else { st := s.updStream k.uid fun x => { x with capture := some (n.toNat, cnt.toNat, bar) } }

def execGEdge (g : Guard) (x y : BitVec 6) (s : State) : Out :=
  issue (.gEdge g x y) s fun k s =>
    match s.block? k.uid with
    | none => { st := s }
    | some b =>
      let l := (mget b.edges x.toNat).getD []
      if b.grun.isSome || 16 ≤ l.length then engineTrap k s 0x12
      else { st := s.updBlock k.uid fun b => { b with edges := mput b.edges x.toNat (l ++ [y.toNat]) } }

/-- An edge names an undefined node. -/
def Block.badEdge (b : Block) : Bool :=
  b.edges.any fun e => !e.2.isEmpty && ((mget b.graph e.1).isNone || e.2.any fun y => (mget b.graph y).isNone)

def execGRun (g : Guard) (bar : Option (BitVec 4)) (s : State) : Out :=
  issue (.gRun g bar) s fun k s =>
    match s.block? k.uid with
    | none => { st := s }
    | some b =>
      if b.grun.isSome || b.badEdge || b.graph.any (fun n => n.2.st == .error) then engineTrap k s 0x12
      else
        let b1 := { b with grun := some bar, gDone := 0, graph := mmap b.graph fun _ x => { x with cnt := x.init, st := .waiting } }
        let first := (b1.graph.filter fun n => n.2.cnt = 0).map Prod.fst
        { st := endRun (s.setBlock k.uid (first.foldl Block.launchNode b1)) k.uid }

def execGReset (g : Guard) (s : State) : Out :=
  issue (.gReset g) s fun k s =>
    match s.block? k.uid with
    | none => { st := s }
    | some b =>
      if b.graph.any fun n => n.2.st == .running then { st := s, how := .wait .engine }
      else { st := s.updBlock k.uid fun b => { b with graph := [], edges := [], grun := none } }

end Sys2Proof.Machine
end

