-- ==== Sys2Proof/Machine/Recruit.lean ====
section
/-! DEFINITION. Recruitment of helper fibres: `recruit hwork hret hend` (spec 10). -/
namespace Sys2Proof.Machine

/-! ### Candidate slots (R208) -/

/-- Weave slots of a core that hold a resident weave. -/
def usedWslots (s : State) (c : Nat) : List Nat :=
  s.blocks.flatMap fun b => b.2.weaves.filterMap fun w => if w.2.core = c then some w.2.wslot else none

/-- Free weave slots of a core, lowest first; the landing slot is not one of them. -/
def freeWslots (s : State) (c : Nat) : List Nat :=
  let u := usedWslots s c
  (upto 32).filter fun i => !u.contains i

/-- Active weaves of a core (R176). -/
def activeOn (s : State) (c : Nat) : Nat := (s.blocks.map fun b => (b.2.weaves.filter fun w => w.2.core = c && w.2.active).length).sum

/-- The mesh neighbours of a core in the order north, east, south, west (R208). -/
def neighbours (c : Nat) : List Nat :=
  let i := coreIdx c
  (if 16 ≤ i then [c - 16] else []) ++ (if i % 16 < 15 then [c + 1] else []) ++ (if i < 304 then [c + 16] else [])
    ++ (if 0 < i % 16 then [c - 1] else [])

/-- A place for a helper: a slot of a weave of the block, or a slot of a new helper weave on a core. -/
inductive HPlace where
  | slot (w sl : Nat)
  | fresh (core wslot sl : Nat)
  deriving DecidableEq, Repr

/-- Idle slots of the block's weaves, the recruiter's weave first. -/
def blockPlaces (b : Block) (w : Nat) : List HPlace :=
  (w :: ((b.weaves.filter fun x => x.2.kind == .block && x.1 != w).map Prod.fst)).flatMap fun v =>
    ((upto 32).filter fun sl => slotIdle b v sl).map fun sl => .slot v sl

/-- Places in a new helper weave of a core: one weave of at most 31 helpers, 16 free registers for each; none on a core that is out of service (R370
speaks of placements alone; log 91). -/
def freshPlaces (s : State) (c : Nat) : List HPlace :=
  if (s.core c).retired then []
  else match freeWslots s c with
    | [] => []
    | ws :: _ => (upto (min 31 (s.freeRegs c / 16))).map fun sl => .fresh c ws sl

/-- Every candidate place, in order. -/
def helperPlaces (s : State) (b : Block) (w : Nat) : List HPlace :=
  blockPlaces b w ++ freshPlaces s b.core ++ (neighbours b.core).flatMap fun c => freshPlaces s c

/-! ### The grant (R211) -/

/-- Some batch of the weave is in a trap (R349). -/
def trapPending (x : Weave) : Bool :=
  x.fibres.any (fun f => f.2.tr.inTrap) || x.batches.any fun b => match b.state with | .wait (.record _) => true | _ => false

/-- Helpers that a block's recruitments hold. -/
def Block.helpersHeld (b : Block) : Nat := (b.weaves.map fun w => (w.2.fibres.filter fun f => f.2.isHelper).length).sum

/-- The places granted. -/
def grantPlaces (s : State) (b : Block) (w : Nat) (x : Weave) (f : Fibre) (k n : Nat) : List HPlace :=
  if !b.hlp || n = 0 || trapPending x || f.kind != .block then []
  else (helperPlaces s b w).take (min k (b.hdr.helpers - b.helpersHeld))

/-! ### Starting helpers (R212, R213) -/

/-- The next free index for a helper weave of a block. -/
def Block.nextHelperWeave (b : Block) : Nat :=
  ((upto 4096).find? fun i => (mget b.weaves (64 + i)).isNone).getD 4096 + 64

/-- A helper batch that has not started. -/
def waitingStart (m : List Nat) (pc : Word) (succ : Bool) : Batch := { Batch.start m pc with state := .wait (.start succ) }

/-- A weave at its start. -/
def Weave.start (kind : WKind) (core wslot : Nat) (active : Bool) (lfsr : BitVec 32) (fibres : Map Fibre) (batch : Batch) (now : Nat) : Weave :=
  { kind, core, wslot, active, k := [], marks := [], fpflags := 0, deadSlot := 0, deadReg := 0, deadDR := false, deadPc := 0,
    fartgt := 0, ss := false, lfsr, batches := [batch], cur := some 0, fibres, sbuf := [], lastIssue := now, lastMove := now, arrived := now }

def nonzero32 (x : BitVec 32) : BitVec 32 := if x = 0 then 1 else x

/-- The helpers of one weave of the block: slot and number. -/
def addHelpers (s : State) (uid w rw rs : Nat) (l : List (Nat × Nat)) (pc : Word) : State :=
  s.updWeave uid w fun x =>
    { x with
      fibres := l.foldl (fun m e => mput m e.1 (Fibre.start (.helper rw rs e.2) (1024 + e.2) [])) x.fibres
      batches := x.batches ++ [waitingStart (sortNat (l.map Prod.fst)) pc (w = rw)] }

/-- A new helper weave on a core, in the active set where it has room (log 84). -/
def addHelperWeave (s : State) (uid rw rs core ws : Nat) (lfsr : BitVec 32) (l : List (Nat × Nat)) (pc : Word) : State :=
  let fibres := l.foldl (fun m e => mput m e.1 (Fibre.start (.helper rw rs e.2) (1024 + e.2) [])) ([] : Map Fibre)
  let x := Weave.start .helper core ws (activeOn s core < 8) (nonzero32 (lfsr ^^^ BitVec.ofNat 32 (0x100 + coreIdx core))) fibres
    (waitingStart (sortNat (l.map Prod.fst)) pc false) s.clock
  s.updBlock uid fun b => { b with weaves := mput b.weaves b.nextHelperWeave x }

/-- Helpers take their places, numbered in the order of R208. -/
def placeHelpers (s : State) (uid rw rs : Nat) (lfsr : BitVec 32) (places : List HPlace) (pc : Word) : State :=
  let num := places.zip (upto places.length)
  let ws := sortNat (places.filterMap fun p => match p with | .slot w _ => some w | _ => none)
  let cs := sortNat (places.filterMap fun p => match p with | .fresh c _ _ => some c | _ => none)
  let s := ws.foldl (fun s w =>
    addHelpers s uid w rw rs (num.filterMap fun e => match e.1 with | .slot v sl => if v = w then some (sl, e.2) else none | _ => none) pc) s
  cs.foldl (fun s c =>
    let l := num.filterMap fun e => match e.1 with | .fresh d ws sl => if d = c then some (ws, sl, e.2) else none | _ => none
    match l with
    | (wsl, _) :: _ => addHelperWeave s uid rw rs c wsl lfsr (l.map Prod.snd) pc
    | [] => s) s

/-- Registers SHR to SHR + 15 of a recruiter: values, and which are dead. -/
def sharedOf (f : Fibre) (shr : Nat) : Map (Word × Bool) :=
  (upto 16).filterMap fun i => match mget f.regs (shr + i) with
    | some (.live v) => some (shr + i, (v, false))
    | some .dead => some (shr + i, (0, true))
    | none => none

/-! ### `recruit` (R209, R210) -/

/-- Pools open on a core (R210). -/
def poolsOn (s : State) (c : Nat) : Nat :=
  (s.blocks.map fun b => (b.2.weaves.map fun w =>
    if w.2.core = c then (w.2.fibres.filter fun f => f.2.pool.isSome).length else 0).sum).sum

/-- A participant lands its outstanding results and commits the buffer, before it looks for a pool entry: the state, and a poisoned result that its
landing met. -/
def recruitLand (s : State) (a : Actor) : State × Option Pend :=
  let (s, bad) := flush s a
  match bad with
  | p :: _ => (s, some p)
  | [] => (commitBuf s (s.bufOf a), none)

/-- A participant finds a free pool entry, or its own. -/
def poolFor (s : State) (a : Actor) : Bool := ((s.fib? a).bind Fibre.pool).isSome || decide (poolsOn s (s.coreOf a) < 32)

/-- A participant opens its pool, and its helpers take their places. -/
def recruitOpen (k : Iss) (w : Nat) (r : RecruitForm) (s : State) (a : Actor) : State :=
  let n := (s.src a (plainSrc r.a false)).toNat % 2 ^ 32
  let s := (s.noteAll k.pc [a] [plainSrc r.a r.la]).releaseAll a [plainSrc r.a r.la]
  match s.block? k.uid, s.weave? k.uid w, s.fib? a with
  | some b, some x, some f =>
    let places := grantPlaces s b w x f r.k.toNat n
    let g := places.length
    let pool : Pool := { n, u := 0, p := 0, held := [], idle := [], committed := [], helpers := g, body := k.pc + r.body.signExtend 64,
                         shr := r.shr.toNat, shared := sharedOf f r.shr.toNat, dst := r.d.toNat, waiting := g != 0 }
    let s := s.updFib a fun f => { f with pool := some pool, grant := g, forced := 0, faults := 0, cur := none }
    if g = 0 then s.writeW a r.d.toNat (ofNat64 n)
    else (placeHelpers s k.uid w a.slot x.lfsr places pool.body).post (.helperStart k.uid (poolKey w a.slot))
  | _, _, _ => s

/-- One participant recruits, `again` one that has waited for a pool entry: the state, its trap, and whether it waits for an entry. A poisoned result that
lands here raises trap 0x0A at the `recruit`, which then opens no pool: of what happens to one the spec says nothing beyond 'as at trap entry' (log 70). -/
def recruitOne (k : Iss) (w : Nat) (r : RecruitForm) (again : Bool) (x : State × List Trp × List Nat) (a : Actor) :
    State × List Trp × List Nat :=
  let landed : State × Option Pend := if again then (x.1, none) else recruitLand x.1 a
  match landed with
  | (s, some p) => (s, x.2.1 ++ [poisonTrap k a p], x.2.2)
  | (s, none) => if poolFor s a then (recruitOpen k w r s a, x.2.1, x.2.2) else (s, x.2.1, x.2.2 ++ [Actor.slot a])

/-- The batches of a weave beyond the first n become one. -/
def Weave.mergeFrom (x : Weave) (n : Nat) : Weave :=
  match x.batches.drop n with
  | y :: z :: r => { x with batches := x.batches.take n ++ [{ y with members := sortNat ((y :: z :: r).flatMap Batch.members) }] }
  | _ => x

/-- The helpers that have come into one weave at one `recruit`, whichever of its participants recruited them, form one batch (R212): in each weave the
batches beyond those of `s0` become one. -/
def mergeStarts (s0 s : State) (uid : Nat) : State :=
  s.updBlock uid fun b =>
    { b with weaves := mmap b.weaves fun w x => x.mergeFrom (((s0.weave? uid w).map fun y => y.batches.length).getD x.batches.length) }

/-- The helpers of a participant have not all been released. -/
def recruitBusy (s : State) (a : Actor) : Bool := match (s.fib? a).bind Fibre.pool with | some p => p.waiting | none => false

/-- The participants recruit in ascending slot order. Those that wait, for a pool entry or for their helpers, are suspended; one that has been granted
no helper goes on, and so does a fibre whose guard is false. -/
def recruitBody (r : RecruitForm) : Iss → State → Done := fun k s =>
  match k.weave with
  | none => { st := s }
  | some w =>
    let go (again : Bool) (todo : List Actor) (s : State) : Done :=
      let (t, ts, left) := todo.foldl (recruitOne k w r again) (s, [], [])
      { st := mergeStarts s t k.uid, traps := ts,
        how := .part (.recruit left) ((k.acts.filter fun a => left.contains a.slot || recruitBusy t a).map Actor.slot) }
    match k.woke with
    | some (.recruit []) => { st := s }
    | some (.recruit t) => go true (k.acts.filter fun a => t.contains a.slot) s
    | _ =>
      let pc := k.pc + r.body.signExtend 64
      let (t, bad) := targetCheck s k.uid (match k.acts with | a :: _ => s.coreOf a | [] => 0) (s.ctxOf k.uid) pc
      fetchEntry k s (match bad with
        | some c => { st := t, traps := k.acts.map fun a => k.trapHere a c pc 0 }
        | none => go false k.acts t)

def execRecruit (r : RecruitForm) (s : State) : Out := issue (.recruit r) s (recruitBody r)

/-! ### Applying contributions (R219) -/

/-- Applies one contribution to a uniform register of the recruiter's weave. -/
def applyOne (s : State) (uid rw : Nat) (c : Contribution) : State :=
  let w := (c.ty.shape false).2
  let r := combineE c.op false .rne c.ty ((s.readK uid rw c.k.toNat).toNat % 2 ^ w) (c.val.toNat % 2 ^ w)
  (s.writeK uid rw c.k.toNat (regOf c.ty r.1)).updWeave uid rw fun x => { x with fpflags := x.fpflags ||| r.2 }

/-- While iteration P is committed, its contributions are applied and P rises. -/
def applyPool : (fuel : Nat) → State → (uid rw rs : Nat) → State
  | 0, s, _, _, _ => s
  | n + 1, s, uid, rw, rs =>
    match (s.fibre? uid rw rs).bind Fibre.pool with
    | none => s
    | some p =>
      match mget p.committed p.p with
      | none => s
      | some l =>
        let s := l.foldl (fun s c => applyOne s uid rw c) s
        applyPool n (s.updFibre uid rw rs fun f =>
          { f with pool := f.pool.map fun q => { q with p := q.p + 1, committed := mdel q.committed p.p } }) uid rw rs

/-! ### Claiming (R216, R217) -/

/-- A helper's stores commit: a helper weave's own buffer, or in the block's buffer every store but those of other helpers (R225, R281, R362). What stays
of a committed store behind another helper's younger one is no helper's any more, so that the discard of an iteration leaves it (R221, R222). -/
def commitOwn (s : State) (w sl : Nat) (a : Actor) : State :=
  match s.bufOf a with
  | .weave u v => commitBuf s (.weave u v)
  | .block u => (commitSome s (.block u) (fun e => !(e.helper && e.who != some (w, sl))) fun e => { e with helper := false }).updBlock u fun b => { b with wopen := false }

/-- The sticky flags of a helper weave reach the recruiter's weave at a commit (R215). -/
def mergeFlags (s : State) (uid w : Nat) (f : Fibre) : State :=
  match f.kind, s.weave? uid w with
  | .helper rw _ _, some x =>
    if x.kind == .helper then s.updWeave uid rw fun r => { r with fpflags := r.fpflags ||| x.fpflags } else s
  | _, _ => s

/-- A fibre commits its current iteration: contributions, application in order, its stores (R217). A helper that holds none commits its stores, since
its `hwork` and `hend` are commit points (R225, R294). -/
def commitIteration (s : State) (a : Actor) : State :=
  match a, s.fib? a with
  | .fib u w sl, some f =>
    (match f.cur with
      | none => if f.isHelper then commitOwn s w sl a else s
      | some (i, cs) =>
        let o := poolOwner w sl f
        let s := s.updFib a fun f => { f with cur := none }
        let s := s.updFibre u o.1 o.2 fun r => { r with pool := r.pool.map fun p => { p with committed := mput p.committed i cs } }
        let s := applyPool 64 s u o.1 o.2
        wakeHwork (mergeFlags (commitOwn s w sl a) u w f) u)
  | _, _ => s

/-- The last thing that a participant of `hwork` does. -/
inductive Worked where
  | done (s : State)
  | gone (s : State)
  | wait (s : State)
  | trap (s : State)

/-- One participant of `hwork`; `again` continues one that was suspended, and that has committed. -/
def workOne (f : AForm) (again : Bool) (s : State) (a : Actor) : Worked :=
  match a, s.fib? a with
  | .fib u w sl, some x =>
    let o := poolOwner w sl x
    (match (s.fibre? u o.1 o.2).bind Fibre.pool with
      | none => .trap s
      | some _ =>
        let s := if again then s else commitIteration s a
        if !again && x.isHelper && x.release then
          let s := s.updFibre u o.1 o.2 fun r => { r with forced := satTo 31 (r.forced + 1) }
          .gone (helperGone (commitOwn s w sl a) u w sl)
        else match (s.fibre? u o.1 o.2).bind Fibre.pool with
          | none => .trap s
          | some p =>
            let set (g : Pool → Pool) (s : State) : State := s.updFibre u o.1 o.2 fun r => { r with pool := r.pool.map g }
            match p.claim x.isHelper with
            | .take i held =>
              let s := set (fun p => if held then { p with held := mdel p.held i } else { p with u := p.u + 1 }) s
              let s := s.updFib a fun y => { y with cur := some (i, []) }
              .done ((s.writeW a f.d.num.toNat (ofNat64 i)).writeP a f.c.num.toNat true)
            | .none => .done (s.writeP a f.c.num.toNat false)
            | .close =>
              .done (poolFreed ((s.updFib a fun y => { y with pool := none }).writeP a f.c.num.toNat false) (s.coreOf a))
            | .wait => .wait s)
  | _, _ => .trap s

/-- `hwork` under way: slots released, claimed, and still to be served. -/
structure HAcc where
  st : State
  traps : List Trp := []
  gone : List Nat := []
  left : List Nat := []

/-- Participants are served one at a time; one that is suspended holds back those behind it (R217). -/
def workAll (k : Iss) (f : AForm) (x : HAcc) : (again : Bool) → List Actor → HAcc
  | _, [] => x
  | again, a :: r =>
    match workOne f again x.st a with
    | .done s => workAll k f { x with st := s } false r
    | .gone s => workAll k f { x with st := s, gone := x.gone ++ [a.slot] } false r
    | .trap s => workAll k f { x with st := s, traps := x.traps ++ [{ k.trapHere a 0x0D 0 0 with pool := true }] } false r
    | .wait s => { x with st := s, left := (a :: r).map Actor.slot }

def execHwork (f : AForm) (s : State) : Out :=
  issue (.hwork f) s fun k s =>
    let x := match k.woke with
      | some (.hwork _ _ t) =>
        let l : List Actor := k.acts.filter fun a => t.contains a.slot
        workAll k f { st := s } (decide ((l.map Actor.slot).head? = t.head?)) l
      | _ => workAll k f { st := s } false k.acts
    { st := x.st, traps := x.traps, gone := x.gone, wd0 := k.acts.any (fun a => ((x.st.fib? a).bind Fibre.cur).isSome),
      how := if x.left.isEmpty then .go else .wait (.hwork (f.c.num.setWidth 4) f.d.num.toNat x.left) }

/-! ### `hret` and `hend` (R218, R220) -/

/-- The operand type of a contribution. -/
def hretOne (k : Iss) (f : AForm) (op : RedOp) (v : Word) (x : State × List Trp) (a : Actor) : State × List Trp :=
  match (x.1.fib? a).bind Fibre.cur with
  | none => (x.1, x.2 ++ [{ k.trapHere a 0x0D 0 0 with pool := true }])
  | some (i, cs) =>
    if 4 ≤ cs.length then (x.1, x.2 ++ [{ k.trapHere a 0x0D 0 0 with pool := true }])
    else
      let c : Contribution := ⟨op, f.ty, f.d.num.setWidth 5, v⟩
      ((x.1.releaseAll a [f.a]).updFib a fun y => { y with cur := some (i, cs ++ [c]) }, x.2)

def execHret (f : AForm) (op : RedOp) (s : State) : Out :=
  issue (.hret f op) s fun k s =>
    let x := k.acts.foldl (fun x a => hretOne k f op (s.src a f.a) x a) (s.noteAll k.pc k.acts [f.a], [])
    { st := x.1, traps := x.2 }

/-- In a helper, `hend` commits and releases, and a poisoned result still to land is discarded; in another fibre it is a `nop` (R220, R445; log 92). -/
def hendOne (x : State × List Nat) (a : Actor) : State × List Nat :=
  match a with
  | .fib u w sl =>
    if x.1.isHelper a then
      (helperGone (commitOwn (commitIteration (flush x.1 a).1 a) w sl a) u w sl, x.2 ++ [sl])
    else x
  | .seq _ => x

def execHend (g : Guard) (s : State) : Out :=
  issue (.hend g) s fun k s =>
    let x := k.acts.foldl hendOne (s, [])
    { st := x.1, gone := x.2 }

end Sys2Proof.Machine
end

