-- ==== Sys2Proof/Machine/Fence.lean ====
section
/-! DEFINITION. Fences: `fence`, `fence.own` and `fence.far` (spec 13). -/
namespace Sys2Proof.Machine

/-- The release part of a fence: it commits the buffer where its scope is wider than the block, or the fibre is in a helper weave (R289). -/
def fenceCommit (s : State) (a : Actor) (scope : BitVec 4) : State :=
  if wide scope || (scope != 0 && inHelperWeave s a) then commitBuf s (s.bufOf a) else s

/-- The effect of a fence on the participants: an acquire or full fence refreshes first, whatever its scope (R259), and a release or full fence then
commits (R289). -/
def fenceBody (kind : FenceKind) (scope : BitVec 4) : Iss → State → Done := fun k s =>
  let r := match kind with
    | .rel => (s, [])
    | _ => refreshAll k s false
  match kind with
  | .acq => { st := r.1, traps := r.2 }
  | _ => { st := k.acts.foldl (fun s a => fenceCommit s a scope) r.1, traps := r.2 }

def execFence (g : Guard) (kind : FenceKind) (scope : BitVec 4) (s : State) : Out := issue (.fence g kind scope) s (fenceBody kind scope)

/-- `fence.own` orders nothing by itself (R290). -/
def execFenceOwn (g : Guard) (s : State) : Out := issue (.fenceOwn g) s fun _ s => { st := s }

/-! ### `fence.far` (R291, R293) -/

/-- A batch is stopped: it is suspended, inside a `fence.far` or parked, or stands at a clause boundary (R291, R369). -/
def Batch.halts (b : Batch) : Bool := !b.runnable || b.stopped || b.entry

/-- A weave is stopped: it issues nothing, or each of its batches is stopped (R291, R369; log 24). -/
def weaveStopped (x : Weave) : Bool := !x.active || x.batches.all Batch.halts

/-- A stream is stopped. -/
def streamStopped (x : Stream) : Bool := x.stopped || x.ending || (match x.state with | .run | .woke _ => false | _ => true)

/-- Every batch, helper and stream of a block is stopped. -/
def blockStopped (s : State) (uid : Nat) : Bool :=
  match s.block? uid with
  | none => true
  | some b => b.weaves.all (fun w => weaveStopped w.2) && (match b.stream with | some x => streamStopped x | none => true)

/-- The block's buffer and the buffers of its helper weaves commit. -/
def commitAll (s : State) (uid : Nat) : State :=
  match s.block? uid with
  | none => s
  | some b => b.weaves.foldl (fun s w => if w.2.sbuf.isEmpty then s else commitBuf s (.weave uid w.1)) (commitBuf s (.block uid))

/-- sr.fartgt of an agent; a helper reads its recruiter's weave's. -/
def fartgtOf (s : State) (a : Actor) : BitVec 33 :=
  match a with
  | .seq u => ((s.stream? u).map Stream.fartgt).getD 0
  | .fib u w sl =>
    let rw := match (s.fibre? u w sl).map Fibre.kind with | some (.helper r _ _) => r | _ => w
    ((s.weave? u rw).map Weave.fartgt).getD 0

/-- The launch's block with a linear index: resident, saved, or neither. -/
def farTarget (s : State) (b : Block) (idx : Nat) : Option (Option Nat) :=
  match s.blocks.find? fun e => e.2.ctx = b.ctx && e.2.lid = b.lid && e.2.idx = idx with
  | some e => some (some e.1)
  | none =>
    if s.frames.any fun f => f.2.saved && f.2.block.any fun y => y.ctx = b.ctx && y.lid = b.lid && y.idx = idx then some none else none

/-- A request to a block on another core, or its answer, is delivered (R384, R386). -/
def farPacket (s : State) (uid t : Nat) : State :=
  let c := s.coreOf (.seq uid)
  if s.coreOf (.seq t) = c then s else lateDelivery s uid c 1

/-- One try of a request, a block and its stamp, at the block with an index: the state, and whether it is done. A first try asks the target to stop; the
requests that have reached a target are served in that order. -/
def farTry (q : Nat × Nat) (s : State) (idx : Nat) : State × Bool :=
  match s.block? q.1 with
  | none => (s, true)
  | some b =>
    if idx = b.idx then (s, true)
    else match farTarget s b idx with
      | none => (s, true)
      | some none => (s, false)
      | some (some t) =>
        let asked := ((s.block? t).map fun y => y.farStop.contains q).getD true
        let s := if asked then s else farPacket (s.updBlock t fun y => { y with farStop := y.farStop ++ [q] }) q.1 t
        if blockStopped s t && ((s.block? t).bind fun y => y.farStop.head?) = some q then
          (farPacket ((commitAll s t).updBlock t fun y => { y with farStop := y.farStop.filter fun e => e != q }) q.1 t, true)
        else (s, false)

/-- Tries of a request at its targets, one after another: the state, and the targets that still hold it. -/
def farTries (q : Nat × Nat) (s : State) : List Nat → State × List Nat
  | [] => (s, [])
  | t :: r =>
    match farTry q s t with
    | (s, true) => farTries q s r
    | (s, false) => (s, t :: r)

/-- The valid targets that some actors name, each once: helpers of several recruiters may stand in one batch. -/
def farTargets (s : State) (as : List Actor) : List Nat :=
  (as.filterMap fun a => if (fartgtOf s a).getLsbD 32 then some ((fartgtOf s a).toNat % 2 ^ 32) else none).eraseDups

/-- A `fence.far` is a full fence, and then holds its participants until their targets have stopped; the step's end tries for them again (`pollFar`). One
whose refresh has met a poisoned value resumes after the fence, and so traps once it is done (R275, R291). -/
def execFenceFar (g : Guard) (scope : BitVec 4) (s : State) : Out :=
  issue (.fenceFar g scope) s fun k s =>
    match k.woke with
    | some (.far _ _ bad) =>
      { st := s, traps := k.acts.filterMap fun a => (bad.find? fun e => e.1 = a.slot).map fun e => k.trapNext a 0x0A e.2 0 }
    | _ =>
      let d := fenceBody .full scope k s
      let r := farTries (k.uid, d.st.nextOp) d.st.stamp.1 (farTargets s k.acts)
      if r.2.isEmpty then { st := r.1, traps := d.traps }
      else { st := r.1, how := .wait (.far d.st.nextOp r.2 (d.traps.map fun t => (t.who.slot, t.addr))) }

/-- A batch that is held at a `fence.far`, current or not, tries again, and wakes with its last target (R291). -/
def pollBatch (s : State) (uid w i : Nat) : State :=
  match ((s.weave? uid w).bind fun x => x.batches[i]?).map Batch.state with
  | some (.wait (.far id l bad)) =>
    let r := farTries (uid, id) s l
    r.1.updWeave uid w fun x =>
      let y := { x with batches := x.batches.modify i fun b => { b with state := .wait (.far id r.2 bad) } }
      if r.2.isEmpty then y.wake i else y
  | _ => s

/-- A stream that is held at a `fence.far` tries again. -/
def pollStream (s : State) (uid : Nat) : State :=
  match (s.stream? uid).map Stream.state with
  | some (.wait (.far id l bad)) =>
    let r := farTries (uid, id) s l
    r.1.updStream uid fun x => { x with state := if r.2.isEmpty then .woke (.far id [] bad) else .wait (.far id r.2 bad) }
  | _ => s

/-- The held current batch of a weave whose block is to stop gives way to one that has still to reach its clause boundary (R291, R369). -/
def letPass (s : State) (uid w : Nat) : State :=
  match s.block? uid, s.weave? uid w with
  | some b, some x =>
    if x.batches.any Batch.midClause && x.curBatch.any fun y => y.held && b.haltsAt (y.members.any fun sl => s.isHelper (.fib uid w sl)) then
      s.updWeave uid w Weave.giveWay
    else s
  | _, _ => s

/-- Every agent that is held at a `fence.far` tries again (R291). -/
def pollFar (s : State) : State :=
  s.blocks.foldl (fun s e =>
    pollStream (e.2.weaves.foldl (fun s w => (upto w.2.batches.length).foldl (fun s i => pollBatch s e.1 w.1 i) (letPass s e.1 w.1)) s) e.1) s

end Sys2Proof.Machine
end

