-- ==== Sys2Proof/Machine/Schedule.lean ====
section
/-! DEFINITION. What a step executes: the agent in focus, the instruction it fetches, breakpoint matches, and the order in which
agents take turns (R176, R347, R355; log 4). -/
namespace Sys2Proof.Machine

/-- The lowest breakpoint register that a batch about to issue matches (R355). -/
def bkpMatch (blk : Block) (b : Batch) : Option Nat :=
  if b.skipBkp || b.state != .run then none
  else blk.bkp.findSome? fun e =>
    if e.2.getLsbD 56 && fld e.2 2 46 = fld b.pc 2 46 && (fld b.pc 47 17 = 0 || fld b.pc 47 17 = 2 ^ 17 - 1)
        && (match b.mac with
            | some m => e.2.getLsbD 55 && fld e.2 50 5 = m.step
            | none => !e.2.getLsbD 55)
    then some e.1 else none

/-- Some fibre of a batch is outside a trap routine. -/
def outside (x : Weave) (b : Batch) : Bool :=
  b.members.any fun sl => match mget x.fibres sl with | some f => !f.tr.inTrap | none => false

/-- The instruction that bits stand for; other bits are an illegal instruction (R61). -/
def instrOf (bits : Nat) : Instr := (decode bits).getD (.illegalInstruction (guardBits bits) (lenOf bits))

/-- The operation that a macro's bits stand for; a clause header, which has no guard, is an illegal operation for every fibre (R146). -/
def macroInstr (bits : Nat) : Instr :=
  let g : Guard := if bits % 4 = 3 then ⟨0, false⟩ else guardBits bits
  match decode bits with
  | some i => if i.macroOk then i else .illegalInstruction g 8
  | none => .illegalInstruction g 8

/-- What an agent does at its turn: executes an instruction, or it has taken the trap of its fetch, or it has nothing to issue. -/
inductive Turned where
  | run (i : Instr)
  | over
  deriving DecidableEq, Repr

/-- ADDR of a fetch's trap: the PC, and 0 for cause 0x03 (R351). -/
def fetchAddr (c : BitVec 8) (pc : Word) : Word := if c == 0x03 then 0 else pc

/-- The single step of a `join` that has released its batch: trap 0x10 in every fibre outside its routine (R356). -/
def stepJoin (s : State) (uid w : Nat) (x : Weave) (b : Batch) : State :=
  let s := s.updWeave uid w fun x => { x with batches := x.batches.modify (x.cur.getD 0) fun y => { y with stepDue := false } }
  let k := fibIss s uid w x b 8 ⟨0, false⟩
  let ts := (k.batch.filter fun a => !k.inside.contains a.slot).map fun a =>
    ({ who := a, cause := 0x10, aux := 0x200, pc := b.pc - 8, rpc := b.pc } : Trp)
  if ts.isEmpty then s else finish s k w { st := s, traps := ts, how := .stall }

/-! ### Core starts (R424, R425) -/

/-- The core starts a region allows in a step; none for no limit (R424). -/
def Region.room (x : Region) : Bool := x.limit = 0 || x.starts < min x.limit 2560

/-- A core is about to issue its first instruction since it last held no weave: it starts, or waits for a step with room (R425). The state, and
whether it issues. -/
def startGate (s : State) (c : Nat) : State × Bool :=
  if (s.core c).started then (s, true)
  else
    let r := regionOf (coreDie c)
    let x := s.region r
    if x.queue.contains c then (s, false)
    else if x.queue.isEmpty && x.room then
      ((s.updRegion r fun x => { x with starts := x.starts + 1 }).updCore c fun y => { y with started := true }, true)
    else (s.updRegion r fun x => { x with queue := x.queue ++ [c], defer := satTo 0xFFFFFFFF (x.defer + 1) }, false)

/-- A clause header. -/
def isClause : Instr → Bool
  | .clause .. => true
  | _ => false

/-- An instruction stands at the gate of its core, a clause header (whatever its place, log 53); a header at which the block halts issues nothing
and passes no gate. -/
def gateFor (s : State) (c : Nat) (halts : Bool) (i : Instr) : State × Bool := if halts && isClause i then (s, true) else startGate s c

/-- What an agent is about to execute passes the gate of its core, or waits there. -/
def gated (c : Nat) (halts : Bool) : State × Turned → State × Turned
  | (s, .over) => (s, .over)
  | (s, .run i) =>
    match gateFor s c halts i with
    | (s, true) => (s, .run i)
    | (s, false) => (s, .over)

/-- The current batch of a weave fetches. -/
def batchTurn (s : State) (uid w : Nat) (blk : Block) (x : Weave) (b : Batch) : State × Turned :=
  if b.stepDue then (stepJoin s uid w x b, .over)
  else match outside x b, bkpMatch blk b with
    | true, some n => (s, .run (.breakpointMatch (BitVec.ofNat 2 n)))
    | _, _ =>
      match b.mac with
      | some m => (s, .run (macroInstr ((m.ops[m.step]?).getD 0).toNat))
      | none =>
        match fetchAt s uid x.core blk.ctx b.pc with
        | (t, .word bits) => if fetchWaits s t x.core then (s, .over) else (t, .run (instrOf bits))
        | (t, .trap c) =>
          let k := fibIss t uid w x b 8 ⟨0, false⟩
          if fetchWaits s t x.core then (s, .over)
          else (finish t k w { st := t, traps := k.batch.map fun a => k.trapHere a c (fetchAddr c k.pc) 0 }, .over)

/-- The turn of a weave: it fetches for its current batch. -/
def weaveTurn (s : State) (uid w : Nat) : State × Turned :=
  match s.block? uid, s.weave? uid w with
  | some blk, some x =>
    match x.curBatch with
    | none => (s, .over)
    | some b =>
      if !x.active || !b.runnable then (s, .over)
      else gated x.core (blk.haltsAt (b.members.any fun sl => s.isHelper (.fib uid w sl))) (batchTurn s uid w blk x b)
  | _, _ => (s, .over)

/-- The stream stands before an instruction that has still to issue, one that has waited for an engine among them (R309, R313). -/
def Stream.errReady (x : Stream) : Bool := match x.state with | .run | .woke .engine => true | _ => false

/-- A stream fetches, or takes the trap of a command error first (R313). -/
def streamFetch (s : State) (uid : Nat) (blk : Block) (x : Stream) : State × Turned :=
  if !x.cmdErr.isEmpty && x.errReady then (s, .run (.trapEntry uid))
  else match fetchAt s uid blk.core blk.ctx x.pc with
    | (t, .word bits) => if fetchWaits s t blk.core then (s, .over) else (t, .run (instrOf bits))
    | (t, .trap c) =>
      if fetchWaits s t blk.core then (s, .over)
      else (takeTrapSeq t uid ((seqIss t uid x 8 ⟨0, false⟩).trapHere (.seq uid) c (fetchAddr c x.pc) 0) false, .over)

/-- The turn of a stream. -/
def streamTurn (s : State) (uid : Nat) : State × Turned :=
  match s.block? uid, s.stream? uid with
  | some blk, some x =>
    match x.ending, x.state with
    | false, .run | false, .woke _ => gated blk.core blk.halted (streamFetch s uid blk x)
    | _, _ => (s, .over)
  | _, _ => (s, .over)

/-- The turn of the agent in focus. -/
def takeTurn (s : State) : State × Turned :=
  match s.focus with
  | .none => (s, .over)
  | .weave u w => weaveTurn s u w
  | .stream u => streamTurn s u

/-- Every agent of the panel that can issue, in order of block and weave. -/
def agents (s : State) : List Focus :=
  s.blocks.flatMap fun b =>
    (b.2.weaves.filterMap fun w => if w.2.active && w.2.cur.isSome then some (.weave b.1 w.1) else none)
      ++ (match b.2.stream with
          | some x => (match x.ending, x.state with
              | false, .run | false, .woke _ => [.stream b.1]
              | _, _ => [])
          | none => [])

/-- An agent comes after another in the order. -/
def Focus.after : Focus → Focus → Bool
  | .none, _ => false
  | _, .none => true
  | .weave u w, .weave a b => a < u || (a = u && b < w)
  | .stream u, .weave a _ => a ≤ u
  | .weave u _, .stream a => a < u
  | .stream u, .stream a => a < u

/-- The next agent after the one in focus, in rotation. -/
def nextFocus (s : State) : Focus :=
  let l := agents s
  match l.find? fun f => f.after s.focus with
  | some f => f
  | none => l.head?.getD .none

/-- A step ends: what is held at a `fence.far` tries again, its late replies are counted, panel time advances by a free amount, the turn passes, and after
an issue so does the focus (R291, R386; log 4, log 6). -/
def passTurn (s : State) : State :=
  let s := countLates (pollFar s)
  let s := { s with time := s.time + Config.stepTicks s.fresh, clock := s.clock + s.rate * Config.stepTicks s.fresh, fresh := s.fresh + 1,
                    walks := [] }
  match s.turn with
  | .event => { s with turn := .issue }
  | .issue => { s with turn := .event, focus := nextFocus s }

end Sys2Proof.Machine
end

