-- ==== Sys2Proof/Machine/Place.lean ====
section
/-! DEFINITION. The smallest resident program: what a loaded program of one instruction looks like to the fetch (log 3). -/
namespace Sys2Proof.Machine

/-- A kernel header with the largest limits and one fibre. -/
def Hdr.placed : Hdr :=
  { regs := 128, binds := 4, helpers := 0, bars := 16, macs := 64, fibres := 1, lstore := 0, shadow := 0, entry := 0, seqEntry := 0,
    trapEntry := 0, macTable := 0, bufs := List.replicate 16 0, handlers := List.replicate 16 0 }

/-- A stream at its start (R306). -/
def Stream.start (pc : Word) : Stream :=
  { pc, entry := true, s := [], preds := 0, marks := [], seta := 15, setb := 15, pend := [], fartgt := 0, ss := false, tr := TrapRegs.reset,
    state := .run, stopped := false, ending := false, capture := none, cmdErr := [] }

/-- A block as it is placed, without weaves (R167). -/
def Block.start (ctx lid idx core : Nat) (hdrVA argsVA : Word) (hdr : Hdr) : Block :=
  { ctx, lid, idx, core, landing := false, hdrVA, argsVA, hdr, prio := 0, gang := false, chk := false, hlp := false, msg := false, seed := 0,
    wdog := 0, spill := 0, record := 0, levels := [], deadline := none, placedAt := 0, weaves := [], stream := none, bars := [], sq := [],
    fq := [], lstore := [], slots := [], starts := [], pool := [], tiles := [], cpReady := [], mmReady := [], running := [], nextCmd := 0,
    graph := [], edges := [], grun := none, gDone := 0, gExtra := false, gErr := false, gDir := false, gEnode := 0, gInner := 0, mLast := 0,
    mRetry := 0, mInf := false, mNan := false, bkp := [], relaunches := 0, wopen := true, cretry := 0, stseq := 0, notgt := 0, refused := 0,
    handled := 0, sbuf := [], ops := [], lreads := [], arr0 := false, arr1 := false, stop := false, farStop := [], saving := none, msgs := [] }

/-- A context as it is created (R434, R440). -/
def Ctx.start (root ring ringLog bell pool frames : Nat) (flags : BitVec 16) (session : Nat) (key : List Byte) (ringVA bellVA : Nat) : Ctx :=
  { root, flags, ring, ringLog, bell, pool, frames, reject := 0, seq := 1, awaited := [], relaunch := 0, closed := 0, forced := 0, late := 0,
    session, key, ringVA, bellVA, launches := [], nextLid := 1 }

/-- Addresses of a placed program: its root table, its next table, the page that code and data share, and its PC. -/
def placeRoot : Nat := 0x1000
def placeNext : Nat := 0x2000
def placePage : Nat := 0x40000000
def placePc : Nat := 0x1000

/-- A state with one context that maps one gigabyte, one block with one fibre and a stream, both at an instruction of some bytes; an
instruction of the sequencer side alone issues from the stream. -/
def placeProgram (s : State) (bytes : List Byte) (seqSide : Bool) : State :=
  let pc := ofNat64 placePc
  let uid := s.nextUid
  let code := bytes ++ List.replicate (32 - bytes.length) 0
  let mem := ((s.mem.writeBytes placeRoot (toBytes 8 (placeNext / 4096 * 1024 + 1))).writeBytes placeNext
    (toBytes 8 (placePage / 4096 * 1024 + 0xDF))).writeBytes (placePage + placePc) code
  let w : Weave := Weave.start .block 0 0 true 1 [(0, Fibre.start .block 0 [])] (Batch.start [0] pc) 0
  let w := { w with batches := w.batches.map fun b => { b with entry := false, seta := 0, setb := 1 } }
  let x := Stream.start pc
  let x := { x with entry := false, seta := 0, setb := 1 }
  let b : Block := { Block.start 1 1 0 0 pc 0 Hdr.placed with weaves := [(0, w)], stream := some x }
  { s with inbox := [], turn := .issue, focus := if seqSide then .stream uid else .weave uid 0, mem,
           ctxs := mput s.ctxs 1 (Ctx.start placeRoot 0x10000 6 0x20000 0x30000 0 0 0 [] 0 0),
           cores := mput s.cores 0 { s.core 0 with utlb := [], icache := [] }, dies := mput s.dies 0 { s.die 0 with tlb := [] },
           blocks := mput s.blocks uid b, nextUid := uid + 1 }

end Sys2Proof.Machine
end

