-- ==== Sys2Proof/Machine/Launching.lean ====
section
/-! DEFINITION. The dispatcher: launch records and their checks, readiness, placement of blocks, completion and rejection
(spec 08, 02, 07). -/
namespace Sys2Proof.Machine

/-! ### Fields of a table read from memory -/

/-- The little-endian field of n bytes at an offset of some bytes. -/
def field (d : List Byte) (off n : Nat) : Nat := ofBytes ((d.drop off).take n)

/-- Every byte of a range is zero. -/
def zeros (d : List Byte) (off n : Nat) : Bool := ((d.drop off).take n).all fun x => x = 0

/-! ### Ending a launch (R171, R236, R440) -/

/-- A line with uncommitted data of the blocks of a core (R234). -/
def uncommitted (s : State) (c line : Nat) : Bool :=
  s.blocks.any fun b => (b.2.core = c && (bufLines b.2.sbuf).contains line)
    || b.2.weaves.any fun w => w.2.core = c && (bufLines w.2.sbuf).contains line

/-- A line of core c as an emptying leaves it: gone, unless it holds uncommitted data; a dirty one is clean (R236). -/
def emptyLine (s : State) (c : Nat) (e : Nat × LineSt) : Option (Nat × LineSt) :=
  if !uncommitted s c e.1 then none else some (e.1, if e.2 = .m then .e else e.2)

/-- Every L1 of the panel is emptied: dirty lines are written back, and the lines without uncommitted data leave. -/
def emptyL1 (s : State) : State :=
  (s.cores.map Prod.fst).foldl (fun t c => if c < 40960 then setL1 t c fun l => l.filterMap (emptyLine t c) else t) s

/-- The done word. -/
def doneWord (status reason killed : Nat) : Word := ofNat64 (at_ 32 (satTo 0xFFFFFFFF killed) + at_ 8 reason + status)

/-- Writes the done word of a launch; one that cannot be written leaves a record, whose PC and RPC are open; one that is written is
notified to the session that created the context, in a message that answers no request: its REQ is the model's choice (R440; log 10). -/
def writeDone (s : State) (ctx : Nat) (l : Launch) (v : Word) : State :=
  if l.done = 0 || l.done % 8 ≠ 0 then s
  else match devTranslate s ctx l.done .store with
    | (s, .ok pa) =>
      sendUz (devWrite s pa (toBytes 8 v.toNat)) (((s.ctx? ctx).map Ctx.session).getD 0) 0x09 0 0
        (toBytes 8 l.record.toNat ++ toBytes 8 v.toNat)
    | (s, .trap _) =>
      let w := Config.freeWord s.fresh
      (writeRecord s.tick ctx
        { block := 0xFFFFFFFF, cause := 0x14, inner := 0, flags := recFlags false false false false true false false false, step := 0xFF,
          slot := 0xFFFF, core := 0xFFFF, pc := w, rpc := w, addr := ofNat64 l.done, aux := v, lrec := l.record.toNat, mask := 0 } false).1

/-- A launch is over: the done word, and a kernel boundary. -/
def closeLaunch (s : State) (ctx : Nat) (l : Launch) (v : Word) : State :=
  let s := writeDone s ctx l v
  emptyL1 (s.updCtx ctx fun x => { x with launches := x.launches.filter fun y => y.lid != l.lid })

/-- A launch is rejected (R171). -/
def reject (s : State) (ctx : Nat) (l : Launch) (reason : Nat) : State :=
  closeLaunch (s.updCtx ctx fun x => { x with reject := satTo 0xFFFFFFFF (x.reject + 1) }) ctx l (doneWord 2 reason 0)

/-! ### The launch record (R163 to R166) -/

/-- A level descriptor, and whether its reserved bits are zero (R165). -/
def parseLevel (d : List Byte) : Level × Bool :=
  ({ ext := field d 0 4, dom := field d 4 1 % 16, scope := field d 4 1 / 16, gang := field d 5 1 % 2 = 1, mask := field d 8 6 },
   field d 5 1 < 2 && zeros d 6 2 && zeros d 14 2)

/-- The fields of a record in a queued launch. -/
def parseRecord (l : Launch) (d : List Byte) : Launch :=
  { l with kernel := ofNat64 (field d 0 8), args := ofNat64 (field d 8 8), flags := BitVec.ofNat 16 (field d 0x10 2),
           budget := field d 0x12 2, seed := BitVec.ofNat 32 (field d 0x18 4), wdog := field d 0x1C 1 % 64, done := field d 0x20 8,
           spill := field d 0x28 8, depcount := field d 0x30 4, depflag := field d 0x38 8,
           levels := (upto 8).map fun i => (parseLevel (d.drop (0x40 + 16 * i))).1
           zeroBits := (upto 8).all fun i => (parseLevel (d.drop (0x40 + 16 * i))).2 }

/-- The checks of R163 and R164. -/
def recordOkFields (l : Launch) (d : List Byte) : Bool :=
  l.kernel.toNat % 64 = 0 && l.flags.toNat < 64 && zeros d 0x14 4 && field d 0x1C 1 < 64 && zeros d 0x1D 3 && l.done % 8 = 0
    && l.spill % 4096 = 0 && zeros d 0x34 4 && (if l.depcount = 0 then l.depflag = 0 else l.depflag % 8 = 0) && zeros d 0xC0 64

/-- Declared levels, from level 0. -/
def Launch.declared (l : Launch) : List Level := l.levels.takeWhile fun x => x.ext != 0
/-- The top declared level L. -/
def Launch.top (l : Launch) : Nat := l.declared.length - 1
/-- EXT of a level. -/
def Launch.extOf (l : Launch) (n : Nat) : Nat := ((l.levels[n]?).map Level.ext).getD 0
/-- Blocks in one instance of level n, for n from 1. -/
def Launch.sizeOf (l : Launch) (n : Nat) : Nat := ((upto n).filter fun i => 1 ≤ i).foldl (fun p i => p * l.extOf i) 1
/-- Blocks of the launch. -/
def Launch.blocks (l : Launch) : Nat := l.sizeOf (l.top + 1)

/-- Cores of one instance of a domain. -/
def domCores : Nat → Nat
  | 1 => 1 | 2 => 16 | 3 => 320 | 4 => 2560 | _ => 40960

/-- n blocks of a kernel find room in one instance of a domain (R166). -/
def roomFor (fibres dom n : Nat) : Bool := n ≤ domCores dom * (32 / ((fibres + 31) / 32))

/-- The domains of the levels above 0 other than `any` do not decrease. -/
def domsRise : Nat → List Level → Bool
  | _, [] => true
  | d, x :: r => if x.dom = 6 then domsRise d r else d ≤ x.dom && domsRise x.dom r

/-- A descriptor of a level from 1 (R166). -/
def levelOk (l : Launch) (fibres n : Nat) (x : Level) : Bool :=
  (if n = 1 then x.dom = 1 && x.scope = 1
   else 2 ≤ x.dom && x.dom ≤ 6 && (x.scope = n || (n < x.scope && x.scope ≤ l.top) || x.scope = 8 || x.scope = 9))
    && (!x.gang || roomFor fibres x.dom (l.sizeOf n))

/-- The checks of R165 and R166. -/
def levelsOk (l : Launch) (fibres : Nat) : Bool :=
  let ds := l.declared
  l.zeroBits && 2 ≤ ds.length
    && (l.levels.drop ds.length).all (fun x => x == ⟨0, 0, 0, false, 0⟩)
    && (match ds with | x :: _ => x.dom = 0 && x.scope = 0 && !x.gang && x.mask = 0 && x.ext = fibres | [] => false)
    && (upto ds.length).all (fun n => n = 0 || (match ds[n]? with | some x => levelOk l fibres n x | none => false))
    && domsRise 1 (ds.drop 1)
    && l.blocks < 2 ^ 32
    && (!l.flags.getLsbD 2 || roomFor fibres ((l.levels[l.top]?.map Level.dom).getD 6) l.blocks)

/-! ### The kernel header and the macro table (R32, R33, R144) -/

def parseHdr (d : List Byte) : Hdr :=
  { regs := field d 2 1, binds := field d 3 1 / 32, helpers := field d 3 1 % 32, bars := field d 4 1, macs := field d 5 1,
    fibres := field d 6 2, lstore := field d 8 2, shadow := field d 0x0A 1, entry := field d 0x0C 2, seqEntry := field d 0x0E 2,
    trapEntry := field d 0x10 2, macTable := field d 0x12 2, bufs := (upto 16).map fun n => field d 0x14 12 / 2 ^ (6 * n) % 64,
    handlers := (upto 16).map fun n => field d (0x20 + 2 * n) 2 }

def hdrOk (h : Hdr) (d : List Byte) : Bool :=
  field d 0 1 = 0xB7 && field d 1 1 / 16 = 1 && 1 ≤ h.regs && h.regs ≤ 128 && h.binds ≤ 4 && h.bars ≤ 16 && h.macs ≤ 64
    && 1 ≤ h.fibres && h.fibres ≤ 1024 && h.lstore ≤ 4096 && h.shadow ≤ 63 && zeros d 0x0B 1 && h.entry ≠ 0
    && h.bufs.sum + h.shadow ≤ (16 * h.lstore + 1023) / 1024

/-- The length row of a macro table (R144). -/
def macRowOk (n : Nat) (row : List Byte) : Bool :=
  (row.take n).all (fun x => 1 ≤ x.toNat && x.toNat ≤ 32) && (row.drop n).all fun x => x = 0

/-- Reads the bodies of some macros; none when one cannot be read. -/
def readMacros (s : State) (ctx table : Nat) : (lens : List Nat) → (n : Nat) → State × Option (List (List Word))
  | [], _ => (s, some [])
  | k :: r, n =>
    match readVA s ctx (8 * k) (table + 64 + 256 * n) with
    | (s, none) => (s, none)
    | (s, some d) =>
      match readMacros s ctx table r (n + 1) with
      | (s, some l) => (s, some (((upto k).map fun i => ofNat64 (field d (8 * i) 8)) :: l))
      | (s, none) => (s, none)

/-- Reads the macro table of a kernel, its length row and its bodies: the operations of each macro, or the reason of a rejection (R144, R171). -/
def readTable (s : State) (ctx : Nat) (kernel : Word) (h : Hdr) : State × Except Nat (List (List Word)) :=
  let table := kernel.toNat + 32 * h.macTable
  match (if h.macs = 0 then (s, some []) else readVA s ctx 64 table) with
  | (s, none) => (s, .error 6)
  | (s, some row) =>
    if !macRowOk h.macs row then (s, .error 2)
    else match readMacros s ctx table ((row.take h.macs).map BitVec.toNat) 0 with
      | (s, none) => (s, .error 6)
      | (s, some macs) => (s, .ok macs)

/-! ### Placement masks (R169) -/

/-- Bytes of a mask of a domain; none where MASK must be 0. -/
def maskBytes : Nat → Option Nat
  | 1 => some 5120 | 2 => some 320 | 3 => some 16 | 4 => some 2 | 6 => some 16 | _ => none

/-- Reads the masks of the declared levels, in ascending order: their bytes by level, or the reason of the rejection. Masks of several levels that each
permit something and together permit no core are no reason: the spec rejects an empty mask, and such a launch waits (log 66). -/
def readMasks (s : State) (ctx : Nat) : (n : Nat) → List Level → State × Except Nat (Map (List Nat))
  | _, [] => (s, .ok [])
  | n, x :: r =>
    if x.mask = 0 then readMasks s ctx (n + 1) r
    else match maskBytes x.dom with
      | none => (s, .error 5)
      | some k =>
        match readVA s ctx k x.mask with
        | (s, none) => (s, .error 6)
        | (s, some d) =>
          if d.all fun y => y = 0 then (s, .error 5)
          else match readMasks s ctx (n + 1) r with
            | (s, .ok m) => (s, .ok ((n, d.map BitVec.toNat) :: m))
            | (s, .error e) => (s, .error e)

/-! ### Readiness (R170) -/

/-- The oldest launch of a queue. -/
def Ctx.head (x : Ctx) (queue : Nat) : Option Launch := x.launches.find? fun l => l.queue = queue

/-- The checks of a launch that becomes ready: the launch, or the reason of its rejection. -/
def readyChecks (s : State) (ctx : Nat) (l : Launch) : State × Except Nat Launch :=
  match readVA s ctx 64 l.kernel.toNat with
  | (s, none) => (s, .error 6)
  | (s, some d) =>
    let h := parseHdr d
    if !hdrOk h d then (s, .error 1)
    else match readTable s ctx l.kernel h with
      | (s, .error e) => (s, .error e)
      | (s, .ok macs) =>
        if !levelsOk l h.fibres then (s, .error 4)
        else match readMasks s ctx 0 l.declared with
          | (s, .error e) => (s, .error e)
          | (s, .ok masks) =>
            (s, .ok { l with hdr := some h, macs, masks, state := .ready, readyAt := s.clock, total := l.blocks,
                             deadline := if l.budget = 0 then none else some (s.time + 64 * l.budget) })

/-- The word at depflag (R170): none when it cannot be read. -/
def depWord (s : State) (ctx : Nat) (l : Launch) : State × Option Nat :=
  match devTranslate s ctx l.depflag .load with
  | (s, .ok pa) => (s, if s.poisoned pa 8 then none else some (s.phys pa 8))
  | (s, .trap _) => (s, none)

/-- The dispatcher reads the record of the first launch of a queue, once: its fields, or the reason of its rejection (R170, R200). -/
def readRecord (s : State) (ctx : Nat) (l : Launch) : State × Except (Launch × Nat) Launch :=
  if l.state == .waiting then (s, .ok l)
  else match readVA s ctx 256 l.record.toNat with
    | (s, none) => (s, .error (l, 6))
    | (s, some d) => (s, if recordOkFields (parseRecord l d) d then .ok (parseRecord l d) else .error (parseRecord l d, 3))

/-- A launch whose flag allows it becomes ready, or is rejected. -/
def makeReady (s : State) (ctx : Nat) (l : Launch) : State :=
  match readyChecks s ctx l with
  | (s, .ok l) => s.updLaunch ctx l.lid fun _ => l
  | (s, .error e) => reject s ctx l e

/-- The dispatcher examines the first launch of a queue: it is rejected, waits for its flag, or becomes ready. -/
def readyLaunch (s : State) (ctx queue : Nat) : Option State :=
  match (s.ctx? ctx).bind fun x => x.head queue with
  | none => none
  | some l0 =>
    if l0.state == .ready || l0.state == .done then none
    else match readRecord s ctx l0 with
      | (s, .error (l, e)) => some (reject s ctx l e)
      | (s, .ok l) =>
        if l.depcount = 0 then some (makeReady s ctx l)
        else match depWord s ctx l with
          | (s, none) => some (reject s ctx l 6)
          | (s, some v) =>
            if l.depcount ≤ v then some (makeReady s ctx l)
            else if l0.state == .queued then some (s.updLaunch ctx l.lid fun _ => { l with state := .waiting })
            else none

def execLaunchReady (ctx queue : Nat) (s : State) : Out := event "LAUNCH_READY" (readyLaunch s ctx queue)

/-! ### Completion (R171) -/

/-- A launch whose blocks have all ended or been killed completes. -/
def completeLaunch (s : State) (ctx lid : Nat) : Option State :=
  match s.launch? ctx lid with
  | none => none
  | some l =>
    if l.state == .ready && l.ended + l.killed = l.total then
      some (closeLaunch s ctx l (doneWord (if l.killed = 0 then 1 else 3) 0 l.killed))
    else none

def execLaunchCompletion (ctx lid : Nat) (s : State) : Out := event "LAUNCH_COMPLETION" (completeLaunch s ctx lid)

/-! ### Where a block may be placed (R167, R169, R173, R363) -/

/-- The instance of a domain that holds a core. -/
def domInst (dom c : Nat) : Nat :=
  match dom with
  | 1 => c
  | 2 => 20 * coreDie c + clusterOf (coreIdx c)
  | 3 => coreDie c
  | 4 => regionOf (coreDie c)
  | _ => 0

/-- The bit of a core in the mask of a domain. -/
def maskInst (dom c : Nat) : Nat := if dom = 6 then coreDie c else domInst dom c

/-- Bit i of a mask. -/
def maskBit (d : List Nat) (i : Nat) : Bool := nth d (i / 8) / 2 ^ (i % 8) % 2 = 1

/-- A level permits block i on core c: its mask, and the instance of its domain that was chosen. -/
def levelPermits (l : Launch) (i c n : Nat) (x : Level) : Bool :=
  (match mget l.masks n with | some d => maskBit d (maskInst x.dom c) | none => true)
    && (match l.chosen.find? fun e => e.1 = (n, i / l.sizeOf n) with | some e => e.2 = domInst x.dom c | none => true)

/-- Every level permits block i on core c. -/
def permits (l : Launch) (i c : Nat) : Bool :=
  (upto l.declared.length).all fun n => n = 0 || (match l.levels[n]? with | some x => levelPermits l i c n x | none => true)

/-- Local slots that the blocks of a core hold. -/
def slotsOn (s : State) (c : Nat) : Nat := (s.blocks.map fun b => if b.2.core = c then b.2.localSlots else 0).sum

/-- Kernels resident on a core, with their macro counts. -/
def kernelsOn (s : State) (c : Nat) : List (Word × Nat × Nat) :=
  s.blocks.foldl (fun l b =>
    let k := (b.2.hdrVA, b.2.ctx, b.2.hdr.macs)
    if b.2.core = c && !l.contains k then k :: l else l) []

/-- The control store has room for a kernel beside the resident ones (R145). -/
def macrosFit (s : State) (c : Nat) (k : Word × Nat × Nat) : Bool :=
  let l := kernelsOn s c
  ((if l.contains k then l else k :: l).map fun e => e.2.2).sum ≤ 64

/-- The core is excused from either tree (R401). -/
def excused (s : State) (c : Nat) : Bool :=
  let i := coreIdx c
  let m (t : Nat) : Word := (mget (s.die (coreDie c)).tmask (5 * t + i / 64)).getD 0
  (m 0).getLsbD (i % 64) || (m 1).getLsbD (i % 64)

/-- The die places blocks: its region is up, it is in service or places again after a reset (R402, R442). -/
def diePlaces (s : State) (d : Nat) : Bool :=
  d < 128 && (s.region (regionOf d)).up && ((s.die d).drstate = 0 || (s.die d).drstate = 4)

/-- The weave slots that a block needs. -/
def Hdr.weaves (h : Hdr) : Nat := (h.fibres + 31) / 32

/-- A core holds a block with a sequencer entry (R233). -/
def seqOn (s : State) (c : Nat) : Bool := s.blocks.any fun b => b.2.core = c && b.2.hdr.seqEntry ≠ 0

/-- A core with some free weave slots and registers has all that n blocks of a kernel with some weaves need (R173, R233). -/
def fitsIn (s : State) (ctx : Nat) (kernel : Word) (h : Hdr) (c n weaves slots regs : Nat) : Bool :=
  !(s.core c).retired && !excused s c && weaves ≤ slots
    && (h.seqEntry = 0 || (!seqOn s c && n ≤ 1))
    && slotsOn s c + n * ((16 * h.lstore + 1023) / 1024) ≤ 64
    && n * (h.fibres * min h.regs 8) ≤ regs
    && n * (h.fibres * h.binds) ≤ bindRest s c
    && macrosFit s c (kernel, ctx, h.macs)

/-- A block fits on a core (R173, R233). -/
def fits (s : State) (ctx : Nat) (kernel : Word) (h : Hdr) (c : Nat) : Bool :=
  fitsIn s ctx kernel h c 1 h.weaves (freeWslots s c).length (s.freeRegs c)

/-- The lowest free physical slots of a core's local store, for local slots 0 to n − 1 of a block (R228). -/
def takeSlots (s : State) (c n : Nat) : List Nat :=
  let held := s.blocks.flatMap fun b => if b.2.core = c then b.2.slots else []
  ((upto 64).filter fun i => !held.contains i).take n

/-- The core with the most free weave slots, the lower index on a tie. -/
def bestCore (s : State) : List Nat → Option Nat
  | [] => none
  | c :: r => match bestCore s r with
    | none => some c
    | some d => if (freeWslots s d).length ≤ (freeWslots s c).length then some c else some d

/-- The cores of a die. -/
def dieCores (d : Nat) : List Nat := (upto 320).map fun i => 320 * d + i

/-- A block may take a core: its levels permit it, and no event of the block came from it (R363). -/
def Launch.mayTake (l : Launch) (i c : Nat) : Bool := permits l i c && !l.barred.contains (i, c)

/-- The cores of some list on which a block may be placed now; `avoid` is the cluster that it avoids plus 1, or 0. -/
def openCores (s : State) (ctx : Nat) (l : Launch) (h : Hdr) (i avoid : Nat) (cores : List Nat) : List Nat :=
  cores.filter fun c => l.mayTake i c && domInst 2 c + 1 ≠ avoid && fits s ctx l.kernel h c

/-! ### Placing a block (R34, R36, R145, R167, R172, R178, R228, R229) -/

/-- START of the buffers with a nonzero size, in order from slot 0, and the first slot after them. -/
def layBufs : (n : Nat) → List Nat → (at_ : Nat) → Map Nat × Nat
  | _, [], a => ([], a)
  | n, z :: r, a =>
    let (m, e) := layBufs (n + 1) r (a + z)
    (if z = 0 then m else (n, a) :: m, e)

/-- The weaves of a block at its start. Which set they enter R176 does not say: the active set while it has fewer than eight weaves, ahead of ready
pending ones, and so do a helper weave and a handler weave (log 84). -/
def startWeaves (s : State) (c : Nat) (h : Hdr) (pc : Word) (seed : BitVec 32) (idx : Nat) : Map Weave :=
  let ws := freeWslots s c
  (upto h.weaves).map fun w =>
    let slots := (upto 32).filter fun sl => 32 * w + sl < h.fibres
    let x := Weave.start .block c (nth ws w) (activeOn s c + w < 8) (nonzero32 (seed ^^^ BitVec.ofNat 32 (32 * idx + w)))
      (slots.map fun sl => (sl, Fibre.start .block (32 * w + sl) [])) (Batch.start slots pc) s.clock
    (w, x)

/-- The entries of a control store after a load: those of kernels that are gone leave it, the others close up, and the new kernel's follow in
consecutive entries (R145; log 52). -/
def storeMacros (kept : List MacEntry) (kernel : Word) (ctx : Nat) (macs : List (List Word)) : Map MacEntry :=
  let all := kept ++ (macs.zip (upto macs.length)).map fun e => ⟨kernel, ctx, e.2, e.1⟩
  (upto all.length).zip all

/-- The macros of a kernel, from its table in memory, enter the control store of a core unless a resident block has loaded them (R145). `macs` are
the macros as the dispatcher found them at readiness, which stand for a table that can no longer be read or is no longer well-formed (log 52). -/
def loadMacros (s : State) (c : Nat) (kernel : Word) (h : Hdr) (ctx : Nat) (macs : List (List Word)) : State :=
  let live := (kernelsOn s c).map fun k => (k.1, k.2.1)
  if live.contains (kernel, ctx) then s
  else
    let r := readTable s ctx kernel h
    let kept := ((r.1.core c).macs.filter fun e => live.contains (e.2.hdrVA, e.2.ctx)).map Prod.snd
    r.1.updCore c fun x => { x with macs := storeMacros kept kernel ctx (match r.2 with | .ok l => l | .error _ => macs) }

/-- The entry of a kernel in units of 32 bytes. -/
def entryPC (kernel : Word) (e : Nat) : Word := kernel + ofNat64 (32 * e)

/-- Block i of a launch as it starts on a core. -/
def newBlock (s : State) (ctx : Nat) (l : Launch) (h : Hdr) (i relaunches c : Nat) : Block :=
  let (starts, next) := layBufs 0 h.bufs 0
  { Block.start ctx l.lid i c l.kernel l.args h with
    prio := l.flags.toNat % 4, gang := l.flags.getLsbD 2, chk := l.flags.getLsbD 3, hlp := l.flags.getLsbD 4, msg := l.flags.getLsbD 5,
    seed := l.seed, wdog := l.wdog, spill := l.spill, record := l.record, levels := l.levels.map fun x => (x.scope, x.dom, x.ext),
    deadline := l.deadline, placedAt := s.clock, weaves := startWeaves s c h (entryPC l.kernel h.entry) l.seed i,
    stream := if h.seqEntry = 0 then none else some (Stream.start (entryPC l.kernel h.seqEntry)), starts,
    slots := takeSlots s c ((16 * h.lstore + 1023) / 1024),
    pool := slotRun next h.shadow, relaunches }

/-- The instances of its levels that a placement on core c chooses. -/
def chooseAll (l : Launch) (i c : Nat) : List ((Nat × Nat) × Nat) :=
  (upto l.declared.length).foldl (fun m n =>
    match l.levels[n]? with
    | some x =>
      if 2 ≤ n && x.dom < 5 && !(m.any fun e => e.1 = (n, i / l.sizeOf n)) then ((n, i / l.sizeOf n), domInst x.dom c) :: m else m
    | none => m) l.chosen

/-- Takes block i off the launch's list of blocks to place. -/
def Launch.take (l : Launch) (i c : Nat) : Launch :=
  { l with next := if l.next = i then i + 1 else l.next, again := l.again.filter fun e => e.1 ≠ i, chosen := chooseAll l i c }

/-- A launch is placed on the die of a core now (R172). -/
def State.notePlace (s : State) (ctx lid c : Nat) : State :=
  s.updDie (coreDie c) fun x => { x with lastPlace := ((ctx, lid), s.clock) :: x.lastPlace.filter fun e => e.1 ≠ (ctx, lid) }

/-- Places block i on core c. -/
def placeOn (s : State) (ctx : Nat) (l : Launch) (h : Hdr) (i relaunches c : Nat) : State :=
  let s := loadMacros s c l.kernel h ctx l.macs
  let b := newBlock s ctx l h i relaunches c
  let s := { s with blocks := mput s.blocks s.nextUid b, nextUid := s.nextUid + 1 }
  (s.notePlace ctx l.lid c).updLaunch ctx l.lid fun l => l.take i c

/-- How block i is to be placed again: relaunch count and cluster to avoid. -/
def Launch.againOf (l : Launch) (i : Nat) : Nat × Nat :=
  match l.again.find? fun e => e.1 = i with | some e => e.2 | none => (0, 0)

/-- The gang instance of block i: its first block, its size and its domain, for the highest level that makes one (R174). -/
def Launch.gangOf (l : Launch) (i : Nat) : Option (Nat × Nat × Nat) :=
  if l.flags.getLsbD 2 then some (0, l.total, ((l.levels[l.top]?).map Level.dom).getD 6)
  else (upto l.declared.length).foldl (fun r n =>
    match l.levels[n]? with
    | some x => if 1 ≤ n && x.gang then some (i / l.sizeOf n * l.sizeOf n, l.sizeOf n, x.dom) else r
    | none => r) none

end Sys2Proof.Machine
end

