-- ==== Sys2Proof/Machine/System.lean ====
section
/-! DEFINITION. System registers and system instructions: `sysr sysw tread icinv mcdef` (spec 02, 10 to 13, 15, 16, 18, 20). -/
namespace Sys2Proof.Machine

/-! ### The system registers (R37, R227, R244, R245, R276, R293, R306, R308, R328, R342, R353 to R356, R365, R366, R381 to R401) -/

inductive SysReg where
  | fpflags | deadrd | deadpc | marks | wbase | hdr | args | rstat | repl | replc | bstat | fartgt | qstat | seqctl | gstat | mstat
  | xcause | xpc | xfpc | xaddr | xaux | bkp (n : Nat) | dbg | sbstat | ctxc | band | toff | tmask | late | msgstat | tround
  deriving DecidableEq, Repr

/-- The register of a number. -/
def SysReg.ofNum : Nat → Option SysReg
  | 0x00 => some .fpflags | 0x01 => some .deadrd | 0x02 => some .deadpc | 0x03 => some .marks | 0x04 => some .wbase
  | 0x05 => some .hdr | 0x06 => some .args | 0x07 => some .rstat | 0x08 => some .repl | 0x09 => some .replc
  | 0x0A => some .bstat | 0x0B => some .fartgt | 0x0C => some .qstat | 0x0D => some .seqctl | 0x0E => some .gstat
  | 0x0F => some .mstat | 0x10 => some .xcause | 0x11 => some .xpc | 0x12 => some .xfpc | 0x13 => some .xaddr
  | 0x14 => some .xaux | 0x18 => some (.bkp 0) | 0x19 => some (.bkp 1) | 0x1A => some (.bkp 2) | 0x1B => some (.bkp 3)
  | 0x1C => some .dbg | 0x1D => some .sbstat | 0x1E => some .ctxc | 0x20 => some .band | 0x21 => some .toff
  | 0x22 => some .tmask | 0x23 => some .late | 0x24 => some .msgstat | 0x25 => some .tround
  | _ => none

/-- Present on the sequencer side, or else on the fibre side (R305, R306). -/
def SysReg.present (seq : Bool) : SysReg → Bool
  | .fpflags | .deadrd | .deadpc | .marks | .wbase | .rstat | .bstat => !seq
  | .seqctl => seq
  | _ => true

/-- A `sysw` may write some of it (R37, R358). -/
def SysReg.writable : SysReg → Bool
  | .fpflags | .deadrd | .repl | .replc | .bstat | .fartgt | .seqctl | .gstat | .mstat | .xpc | .bkp _ | .dbg | .sbstat | .late
  | .msgstat => true
  | _ => false

/-- Indexed by a die or by an entry (R381, R383, R401): the indices below it are valid. -/
def SysReg.indices : SysReg → Option Nat
  | .band | .toff => some 128
  | .tmask => some 10
  | _ => none

/-- Addressed by a virtual address in a zone (R244). -/
def SysReg.zoned (r : SysReg) : Bool := r = .repl || r = .replc

/-- The operand form of a `sysr` fits the register (R357). -/
def SysReg.readForm (r : SysReg) (ax imm : Bool) : Bool :=
  if r.zoned then ax && !imm else if r.indices.isSome then ax != imm else !ax && !imm

/-- The operand form of a `sysw` fits the register. -/
def SysReg.writeForm (r : SysReg) (ax : Bool) : Bool := ax = r.zoned

/-! ### Values -/

/-- sr.xcause (R353). -/
def TrapRegs.causeWord (x : TrapRegs) : Word :=
  ofNat64 (at_ 63 (bit x.poison) + at_ 32 x.seq + at_ 31 (bit x.inTrap) + at_ 30 (bit x.side) + at_ 26 x.setb.toNat + at_ 22 x.seta.toNat
    + at_ 21 (bit x.stepv) + at_ 16 x.step.toNat + at_ 8 x.inner.toNat + x.cause.toNat)

/-- sr.deadrd (R39). -/
def Weave.deadWord (x : Weave) : Word := ofNat64 (at_ 8 x.deadSlot + at_ 1 x.deadReg + bit x.deadDR)

/-- sr.marks (R40). -/
def Weave.marksWord (x : Weave) : Word := ofNat64 (maskOf ((upto 12).filter fun i => mcount x.marks i != 0))

/-- sr.wbase (R40). -/
def baseWord (b : Block) (widx : Nat) (x : Weave) (sl : Nat) : Word :=
  ofNat64 (match x.kind with
    | .block => (32 * widx + sl) * b.hdr.regs
    | _ => 32 * sl)

/-- sr.rstat (R227). -/
def Fibre.rstat (f : Fibre) : Word := ofNat64 (at_ 34 f.faults + at_ 29 f.grant + at_ 24 f.forced + bit f.pool.isSome)

/-- sr.bstat (R276). -/
def Fibre.bstat (f : Fibre) : Word :=
  ofNat64 (at_ 37 (bit f.bfull) + at_ 36 (bit f.blost)
    + (f.binds.map fun b => at_ (8 * b.2.slot) (128 + b.1)).sum)

/-- sr.qstat (R308). -/
def Block.qstat (b : Block) : Word := ofNat64 (at_ 8 (64 - b.sq.length) + (64 - b.fq.length))

/-- sr.gstat (R328). -/
def Block.gstat (b : Block) : Word :=
  ofNat64 (at_ 40 b.gInner.toNat + at_ 39 (bit b.gErr) + at_ 38 (bit b.gDir) + at_ 32 b.gEnode + at_ 24 b.gDone + at_ 23 (bit b.grun.isSome)
    + at_ 16 b.graph.length + bit b.gExtra)

/-- sr.mstat (R342). -/
def Block.mstat (b : Block) : Word := ofNat64 (at_ 32 b.mLast + at_ 24 b.mRetry + at_ 1 (bit b.mInf) + bit b.mNan)

/-- sr.sbstat (R365). -/
def Block.sbstat (b : Block) : Word := ofNat64 (at_ 42 b.relaunches + at_ 41 (bit b.wopen) + at_ 32 b.cretry + b.stseq.toNat)

/-- sr.msgstat (R393). -/
def Block.msgstat (b : Block) : Word := ofNat64 (at_ 32 b.notgt + at_ 16 b.refused + b.handled)

/-- sr.ctxc (R366). -/
def Ctx.ctxc (x : Ctx) : Word := ofNat64 (at_ 40 x.relaunch + at_ 20 x.closed + x.forced)

/-- sr.repl (R244). -/
def Zone.repl (z : Zone) : Word := ofNat64 (at_ 11 z.holders.length + at_ 8 z.deg + at_ 4 z.ceil + z.floor)

/-- sr.replc (R245). -/
def Zone.replc (z : Zone) : Word := ofNat64 (at_ 48 z.dchg + at_ 36 z.coll + at_ 24 z.fwd + at_ 12 z.hit + z.fill)

/-- A die is being reset or stays out of service (R381, R402). -/
def Die.down (x : Die) : Bool := x.drstate = 1 || x.drstate = 2 || x.drstate = 3

/-- sr.band[d] on die a (R381). -/
def bandWord (s : State) (a d : Nat) : Word :=
  ofNat64 (at_ 16 (16 + 24 * crossings a d) + at_ 15 (bit (s.die d).down) + crossings a d)

/-- What die d's counter reads above panel time; die 60's is panel time (R383, log 6). -/
def clockOffset (d : Nat) : Word := if d = 60 then 0 else Config.clockOffset d

/-- sr.toff[d]: the offset as calibrated, to within two cycles (R383). -/
def toffWord (d : Nat) : Word := if d = 60 then 0 else clockOffset d + ofNat64 (Config.calibration d % 5) - 2

/-- The counter of a die as a cycle of its clock reads it (R1, R359, R383). -/
def dieTime (s : State) (d : Nat) : Word := ofNat64 (s.cycleTime d) + clockOffset d

/-- The context holds physical tree 0 or 1 (R396, R434). -/
def Ctx.holdsTree (x : Ctx) (tree : Bool) : Bool := x.flags.getLsbD (if tree then 3 else 2)

/-- Rounds of a tree released at a die, as the context sees them (R401). -/
def roundsAt (s : State) (ctx d : Nat) (tree : Bool) : Nat :=
  if ((s.ctx? ctx).map fun x => x.holdsTree tree).getD false then
    (if tree then (s.die d).seg1.rounds else (s.die d).seg0.rounds) % 2 ^ 32
  else 0

/-- The value of a register that takes no address: `idx` is the index of an indexed register. -/
def sysValue (s : State) (a : Actor) (r : SysReg) (idx : Nat) : Word :=
  let d := coreDie (s.coreOf a)
  let blk (f : Block → Word) : Word := ((s.block? a.uid).map f).getD 0
  let fib (f : Fibre → Word) : Word := ((s.fib? a).map f).getD 0
  let wv (f : Weave → Word) : Word := match a with | .fib u w _ => ((s.weave? u w).map f).getD 0 | .seq _ => 0
  let ctx (f : Ctx → Word) : Word := ((s.ctx? (s.ctxOf a.uid)).map f).getD 0
  let tr : TrapRegs := s.trapRegs a
  match r with
  | .fpflags => wv fun x => x.fpflags.setWidth 64
  | .deadrd => wv Weave.deadWord
  | .deadpc => wv Weave.deadPc
  | .marks => wv Weave.marksWord
  | .wbase => match a with
    | .fib u w sl => (match s.block? u, s.weave? u w with | some b, some x => baseWord b w x sl | _, _ => 0)
    | .seq _ => 0
  | .hdr => blk Block.hdrVA
  | .args => blk Block.argsVA
  | .rstat => fib Fibre.rstat
  | .bstat => fib Fibre.bstat
  | .fartgt => (fartgtOf s a).setWidth 64
  | .qstat => blk Block.qstat
  | .seqctl => 0
  | .gstat => blk Block.gstat
  | .mstat => blk Block.mstat
  | .xcause => tr.causeWord
  | .xpc => tr.xpc
  | .xfpc => tr.xfpc
  | .xaddr => tr.xaddr
  | .xaux => tr.xaux
  | .bkp n => blk fun b => (mget b.bkp n).getD 0
  | .dbg => match a with
    | .fib .. => wv fun x => ofNat64 (bit x.ss)
    | .seq u => ofNat64 (bit (((s.stream? u).map Stream.ss).getD false))
  | .sbstat => blk Block.sbstat
  | .ctxc => ctx Ctx.ctxc
  | .band => bandWord s d idx
  | .toff => toffWord idx
  | .tmask => (mget (s.die d).tmask idx).getD 0
  | .late => ctx fun x => ofNat64 x.late
  | .msgstat => blk Block.msgstat
  | .tround => ofNat64 (at_ 32 (roundsAt s (s.ctxOf a.uid) d true) + roundsAt s (s.ctxOf a.uid) d false)
  | .repl | .replc => 0

/-! ### `sysr` (R357, R358) -/

def sysTrap (k : Iss) (s : State) : Done := { st := s, traps := k.acts.map fun a => k.trapHere a 0x01 0 0 }

/-- The index that a participant names. -/
def sysIndex (f : AForm) (s : State) (a : Actor) : Nat :=
  match f.ext with
  | .i96 imm => imm.toNat
  | _ => (s.src a f.a).toNat

/-- The sources of a `sysr` or `sysw`. -/
def sysSrcs (f : AForm) (ax data : Bool) : List Src :=
  (if ax then [f.a] else []) ++ (match f.ext with | .i96 _ => [] | _ => if data then [f.b] else [])

/-- The request to a zone's home die and its reply are delivered now (R244, R358, R384, R386). -/
def zonePackets (s : State) (k : Iss) (a : Actor) : State := lateDelivery s k.uid (s.coreOf a) 2

/-- `sysr` for one participant. The zone of an address that translates to a mapped window, where no memory and so no zone is, reads like any other:
its record is the one of its 2 MiB (R244 is silent; log 87). -/
def sysrOne (k : Iss) (f : AForm) (ax : Bool) (r : SysReg) (s0 : State) (x : MAcc) (a : Actor) : MAcc :=
  let idx := sysIndex f s0 a
  let put (s : State) (v : Word) : MAcc := { x with st := (s.releaseAll a (sysSrcs f ax false)).writeD a f.d v }
  if r.zoned then
    let va := s0.src a f.a
    match translate x.st k.uid (x.st.coreOf a) (x.st.ctxOf k.uid) va .load with
    | (s, .trap c) => { x with st := s }.trap (k.trapHere a c va 0)
    | (s, .ok pa) => put (zonePackets s k a) (if r = .repl then (s.zone (zoneOf pa)).repl else (s.zone (zoneOf pa)).replc)
  else match r.indices with
    | some n => if n ≤ idx then x.trap (k.trapHere a 0x01 0 0) else put x.st (sysValue s0 a r idx)
    | none => put x.st (sysValue s0 a r 0)

/-- The register that the instruction names, on the side that issues it. -/
def sysNamed (k : Iss) (f : AForm) : Option SysReg :=
  (SysReg.ofNum f.c.num.toNat).filter fun r => r.present k.weave.isNone

def isImm (f : AForm) : Bool := match f.ext with | .i96 _ => true | _ => false

def execSysr (f : AForm) (ax : Bool) (s : State) : Out :=
  issue (.sysr f ax) s fun k s =>
    match sysNamed k f with
    | none => sysTrap k s
    | some r =>
      if !r.readForm ax (isImm f) then sysTrap k s
      else
        let x := k.acts.foldl (sysrOne k f ax r s) { st := s.noteAll k.pc k.acts (sysSrcs f ax false) }
        { st := x.st, traps := x.traps }

/-! ### `sysw` (R357, R358) -/

/-- The degree brought within a range; a lowering drops the holders that joined last, with their replicas of the zone (R243, R244). -/
def setDegree (s : State) (z deg : Nat) : State :=
  let x := s.zone z
  if x.deg = deg then s
  else
    let keep := x.holders.take (degreeOf deg)
    let gone := x.holders.drop (degreeOf deg)
    let replicas := s.replicas.filter fun r => !(gone.contains r.1 && zoneOf r.2 = z)
    let sharers := s.sharers.filter fun r => !(gone.contains r.1 && zoneOf r.2.1 = z)
    ({ s with replicas, sharers }.updDie (s.homeDie (z * 0x200000)) fun y => { y with dchg := (y.dchg + 1) % 2 ^ 64 }).updZone z fun x =>
      { x with deg, holders := keep, dchg := satTo 4095 (x.dchg + 1) }

/-- A legal value of sr.repl. -/
def replOk (v : Word) : Bool := fld v 0 3 ≤ fld v 4 3 && fld v 0 3 != 7 && fld v 4 3 != 7

/-- A write of sr.repl: FLOOR and CEIL, and DEG within them at once (R244). -/
def writeRepl (s : State) (z : Nat) (v : Word) : State :=
  let s := s.updZone z fun x => { x with floor := fld v 0 3, ceil := fld v 4 3 }
  setDegree s z (min (max (s.zone z).deg (fld v 0 3)) (fld v 4 3))

/-- Bits of a counter cleared by the ones written (R5). -/
def clearBits (n v : Nat) : Nat := n - (n &&& v)

/-- A write of sr.replc (R245). -/
def writeReplc (s : State) (z : Nat) (v : Word) : State :=
  s.updZone z fun x =>
    { x with fill := clearBits x.fill (fld v 0 12), hit := clearBits x.hit (fld v 12 12), fwd := clearBits x.fwd (fld v 24 12),
             coll := clearBits x.coll (fld v 36 12), dchg := clearBits x.dchg (fld v 48 12) }

/-- The writable bits of sr.bkp (R355). -/
def bkpMask : Word := 0x01FCFFFFFFFFFFFC

/-- A write of a register that takes no address; none where it raises trap 0x01 (R353). -/
def sysPut (s : State) (a : Actor) (r : SysReg) (v : Word) : Option State :=
  let blk (f : Block → Block) : Option State := some (s.updBlock a.uid f)
  let wv (f : Weave → Weave) : Option State := match a with | .fib u w _ => some (s.updWeave u w f) | .seq _ => some s
  let any (n : Nat) (lo len : Nat) : Nat := if fld v lo len = 0 then n else 0
  match r with
  | .fpflags => wv fun x => { x with fpflags := x.fpflags &&& ~~~(v.setWidth 5) }
  | .deadrd => wv fun x => { x with deadDR := x.deadDR && !v.getLsbD 0 }
  | .bstat => some (s.updFib a fun f => { f with bfull := f.bfull && !v.getLsbD 37, blost := f.blost && !v.getLsbD 36 })
  | .fartgt => match a with
    | .fib u w _ => some (s.updWeave u w fun x => { x with fartgt := v.setWidth 33 })
    | .seq u => some (s.updStream u fun x => { x with fartgt := v.setWidth 33 })
  | .seqctl => some (if v.getLsbD 0 then (s.updStream a.uid fun x => { x with ending := true, capture := none }).post (.seqctlEnd a.uid) else s)
  | .gstat => blk fun b => { b with gErr := b.gErr && !v.getLsbD 39, gExtra := b.gExtra && !v.getLsbD 0 }
  | .mstat => blk fun b => { b with mRetry := any b.mRetry 24 8, mInf := b.mInf && !v.getLsbD 1, mNan := b.mNan && !v.getLsbD 0 }
  | .xpc =>
    if (s.trapRegs a).inTrap then
      some ((s.updTrap a fun x => { x with xpc := v, stepv := false, step := 0, entry := false }).updFib a fun f => { f with smac := none })
    else none
  | .bkp n => blk fun b => { b with bkp := mput b.bkp n (v &&& bkpMask) }
  | .dbg => match a with
    | .fib u w _ => some (s.updWeave u w fun x => { x with ss := v.getLsbD 0 })
    | .seq u => some (s.updStream u fun x => { x with ss := v.getLsbD 0 })
  | .sbstat => blk fun b => { b with cretry := any b.cretry 32 8 }
  | .late => some (s.updCtx (s.ctxOf a.uid) fun x => { x with late := any x.late 0 32 })
  | .msgstat => blk fun b => { b with notgt := any b.notgt 32 16, refused := any b.refused 16 16, handled := any b.handled 0 16 }
  | _ => some s

/-- The data of a `sysw`. -/
def sysData (f : AForm) (s : State) (a : Actor) : Word :=
  match f.ext with
  | .i96 imm => imm.setWidth 64
  | _ => s.src a f.b

/-- The check of a `sysw`'s zone address: as a load, with write permission besides, and without the dirty bit of a store (R244). -/
def zoneForWrite (s : State) (uid c ctx : Nat) (va : Word) : State × Tr :=
  match translate s uid c ctx va .load with
  | (s, .ok pa) =>
    if ((s.core c).utlb.find? (tlbHit ctx va.toNat .load)).any fun t => t.w then (s, .ok pa) else (s, .trap 0x08)
  | r => r

/-- `sysw` for one participant; a zone in a mapped window has its record, as at `sysr` (log 87). -/
def syswOne (k : Iss) (f : AForm) (ax : Bool) (r : SysReg) (s0 : State) (x : MAcc) (a : Actor) : MAcc :=
  let v := sysData f s0 a
  let done (s : State) : MAcc := { x with st := s.releaseAll a (sysSrcs f ax true) }
  if r.zoned then
    let va := s0.src a f.a
    match zoneForWrite x.st k.uid (x.st.coreOf a) (x.st.ctxOf k.uid) va with
    | (s, .trap c) => { x with st := s }.trap (k.trapHere a c va 0)
    | (s, .ok pa) =>
      if r = .replc then done (writeReplc (zonePackets s k a) (zoneOf pa) v)
      else if replOk v then done (writeRepl (zonePackets s k a) (zoneOf pa) v)
      else { x with st := s }.trap (k.trapHere a 0x01 0 0)
  else match sysPut x.st a r v with
    | some s => done s
    | none => x.trap (k.trapHere a 0x01 0 0)

/-- The sources of an instruction were read in `s0`, and its dead reads are recorded now. -/
def noteFrom (s0 s : State) (pc : Word) (acts : List Actor) (srcs : List Src) : State :=
  acts.foldl (fun t a => srcs.foldl (fun t x => t.noteDead a.uid pc (s0.readSrc a x).2) t) s

/-- A dead read of the instruction itself takes effect after the clear of DR that it may make (R39, R358). -/
def execSysw (f : AForm) (ax : Bool) (s : State) : Out :=
  issue (.sysw f ax) s fun k s =>
    match sysNamed k f with
    | none => sysTrap k s
    | some r =>
      if !r.writable || !r.writeForm ax then sysTrap k s
      else
        let x := k.acts.foldl (syswOne k f ax r s) { st := s }
        { st := noteFrom s x.st k.pc k.acts (sysSrcs f ax true), traps := x.traps }

/-! ### `tread`, `icinv`, `mcdef` (R359 to R361) -/

def execTread (f : AForm) (s : State) : Out :=
  issue (.tread f) s fun k s => { st := k.acts.foldl (fun t a => t.writeD a f.d (dieTime s (coreDie (s.coreOf a)))) s }

/-- Invalidates one line, or every line, in every instruction cache. -/
def dropCode (s : State) (line : Option Nat) : State :=
  { s with cores := mmap s.cores fun _ x => { x with icache := match line with | some l => mdel x.icache l | none => [] } }

def icinvOne (k : Iss) (f : AForm) (s0 : State) (x : MAcc) (a : Actor) : MAcc :=
  let va := s0.src a f.a
  match translate x.st k.uid (x.st.coreOf a) (x.st.ctxOf k.uid) va .line with
  | (s, .trap c) => { x with st := s }.trap (k.trapHere a c va 0)
  | (s, .ok pa) =>
    let s := s.releaseAll a [f.a]
    { x with st := dropCode (fenceCommit s a 8) (some (pa / 64)) }

/-- `icinv` acts as `fence.rel.panel` and then invalidates. -/
def execIcinv (f : AForm) (all : Bool) (s : State) : Out :=
  issue (.icinv f all) s fun k s =>
    if all then
      { st := if k.acts.isEmpty then s else dropCode (k.acts.foldl (fun s a => fenceCommit s a 8) s) none }
    else
      let x := k.acts.foldl (icinvOne k f s) { st := s.noteAll k.pc k.acts [f.a] }
      { st := x.st, traps := x.traps }

/-- Reads that lead from s to t bring a line into the core's L1, and the core has no free miss entry (R248). -/
def readsWait (s t : State) (c : Nat) : Bool := missesFull s c && (t.core c).l1.any fun e => (s.core c).l1.all fun y => y.1 != e.1

/-- Reads n 8-byte words as loads of an actor read them, or the cause and address of the trap. -/
def loadWords (s : State) (a : Actor) (va : Word) : (n : Nat) → State × Except (BitVec 8 × Word) (List Word)
  | 0 => (s, .ok [])
  | n + 1 =>
    match checkAccess s a va 8 .load with
    | (s, .trap c) => (s, .error (c, va))
    | (s, .ok pa) =>
      if s.poisoned pa 8 then (s, .error (0x0A, va))
      else
        let v := ofNat64 (seen s (s.bufOf a) pa 8)
        match loadWords (readBy s a.uid (s.coreOf a) pa) a (va + 8) n with
        | (s, .ok r) => (s, .ok (v :: r))
        | e => e

/-- The block's macro n in its core's control store takes new operations. -/
def defineMacro (c : Core) (b : Block) (n : Nat) (ops : List Word) : Core :=
  match c.macs.find? fun e => e.2.hdrVA = b.hdrVA && e.2.ctx = b.ctx && e.2.n = n with
  | some e => { c with macs := mput c.macs e.1 { e.2 with ops } }
  | none =>
    match (upto 64).find? fun i => (mget c.macs i).isNone with
    | some i => { c with macs := mput c.macs i ⟨b.hdrVA, b.ctx, n, ops⟩ }
    | none => c

def mcdefOne (k : Iss) (f : AForm) (s0 : State) (x : MAcc) (a : Actor) : MAcc :=
  let cnt := (s0.src a f.b).toNat % 64
  let va := s0.src a f.a
  if cnt = 0 || 32 < cnt then x.trap (k.trapHere a 0x01 0 0)
  else match loadWords x.st a va cnt with
    | (s, .error (c, v)) => { x with st := s }.trap (k.trapHere a c v 0)
    | (s, .ok ops) =>
      match s.block? k.uid with
      | none => x
      | some b => { x with st := (s.releaseAll a [f.a, f.b]).updCore b.core fun c => defineMacro c b f.c.num.toNat ops }

def execMcdef (f : AForm) (s : State) : Out :=
  issue (.mcdef f) s fun k s =>
    let x := k.acts.foldl (mcdefOne k f s) { st := s.noteAll k.pc k.acts [f.a, f.b] }
    if k.acts.any fun a => readsWait s x.st (s.coreOf a) then { st := s, how := .stall } else { st := x.st, traps := x.traps }

end Sys2Proof.Machine
end

