-- ==== Sys2Proof/Machine/Coherence.lean ====
section
/-! DEFINITION. The caches' own events: misses and replies, probes, write-backs, collapses, pushes, zone reviews, writes of sr.repl and
walks (spec 11, 12). None changes the value that a load returns. -/
namespace Sys2Proof.Machine

/-! ### Misses (R241, R248, R249) -/

/-- The request of a pending miss reaches the home, a replica or a holder, which answers it; requests of one core to one slice are served in order
(R247). -/
def missServe (s : State) (c line : Nat) (own : Bool) : Option State :=
  match (s.core c).miss? line with
  | none => none
  | some m =>
    if m.replied || m.own != own || (missesTo s c line).any (fun x => x.line != line && !x.replied) then none
    else some (serveMiss s c line)

def execMissRequest (core line : Nat) (own : Bool) (s : State) : Out := event "MISS_REQUEST" (missServe s core line own)

/-- The reply reaches the core, in the order of the requests to one slice: the line is installed, and a probe held meanwhile is then applied. -/
def missReply (s : State) (c line : Nat) : Option State :=
  match (s.core c).miss? line with
  | none => none
  | some m => if m.replied && (missesTo s c line).length = 1 then some (deliverReply s c line) else none

def execDataReply (core line : Nat) (s : State) : Out := event "DATA_REPLY" (missReply s core line)

/-! ### Probes, write-backs, collapses (R235, R237, R242, R248) -/

/-- The home probes a core that holds a copy of the line, or waits for one; dirty data goes home. -/
def probeCore (s : State) (c line : Nat) : Option State :=
  if (s.core c).l1.any (fun e => e.1 = line) || ((s.core c).miss? line).any Miss.replied then
    some (probeIf s line fun x => x = c)
  else none

def execProbe (core line : Nat) (s : State) : Out := event "PROBE" (probeCore s core line)

/-- A dirty line that holds no uncommitted data leaves the L1 for its home. -/
def writeBackLine (s : State) (c line : Nat) : Option State :=
  if (s.core c).l1.any (fun e => e.1 = line && e.2 = .m) && !uncommitted s c line then
    some (setL1 s c fun l => l.filter fun e => e.1 != line)
  else none

def execWriteBack (core line : Nat) (s : State) : Out := event "WRITE_BACK" (writeBackLine s core line)

/-- The home collapses a line that replicas hold. -/
def execCollapse (line : Nat) (s : State) : Out :=
  event "COLLAPSE" (if s.replicas.any fun r => r.2 = line then some (collapseLine s line none) else none)

/-! ### Pushes (R235, R264) -/

/-- The home's data of a line reaches the bindings that one core holds on it. -/
def pushCore (s : State) (c line : Nat) : Option State :=
  if !boundOn s c line then none
  else
    let take (b : Block) : Block := { b with weaves := mmap b.weaves fun k w => if w.core = c then w.pushed s b.sbuf k line 256 else w }
    some { s with blocks := mmap s.blocks fun _ b => take b }

def execPush (core line : Nat) (s : State) : Out := event "PUSH" (pushCore s core line)

/-! ### Replication (R243 to R245) -/

/-- The degree code after a window (R243). -/
def reviewDegree (x : Zone) : Nat :=
  if x.wcoll ≠ 0 && x.whit ≤ x.wcoll && x.deg ≠ 0 then max x.floor (x.deg - 1)
  else if degreeOf x.deg < x.readers.length && 64 * x.owns ≤ x.reads && x.deg < 6 then min x.ceil (x.deg + 1) else x.deg

/-- A zone is reviewed at the end of a window, before anything else happens in the next one; a window without an access changes nothing. -/
def reviewZone (s : State) (z : Nat) : Option State :=
  let x := s.zone z
  if s.window z ≤ x.reviewed then none
  else some ((setDegree s z (reviewDegree x)).updZone z fun y =>
    { y with hit := satTo 4095 (y.hit + x.whit), fwd := satTo 4095 (y.fwd + x.wfwd), readers := [], reads := 0, owns := 0, wcoll := 0,
             whit := 0, wfwd := 0, reviewed := s.window z })

def execZoneReview (zone : Nat) (s : State) : Out := event "ZONE_REVIEW" (reviewZone s zone)

/-- A legal write of sr.repl reaches the zone's home. -/
def execReplWrite (zone : Nat) (v : Word) (s : State) : Out := event "REPL_WRITE" (if replOk v then some (writeRepl s zone v) else none)

/-! ### Translation (R250 to R252) -/

/-- A walker of a die reads the tables for a page of a context; a fault installs nothing. -/
def walkPage (s : State) (ctx d vpn : Nat) : Option State :=
  if (s.ctx? ctx).isNone || 128 ≤ d || !canonicalVA (vpn * 4096) then none
  else match walkFor (walkReads s ctx (vpn * 4096) fun s a => readMiss s d (lineOf a)) ctx (vpn * 4096) .load with
    | (s, .error _) => some s
    | (s, .ok t) => some (s.updDie d fun x => { x with tlb := tlbInstall x.tlb t })

def execTranslationWalk (ctx die vpn : Nat) (s : State) : Out := event "TRANSLATION_WALK" (walkPage s ctx die vpn)

end Sys2Proof.Machine
end

