-- ==== Sys2Proof/Machine/Copy.lean ====
section
/-! DEFINITION. The copy engine: `cp.in cp.out cp.peer cp.fill pub`, their limits at issue, and what each does as it starts and as it
completes (spec 15, 11, 04). -/
namespace Sys2Proof.Machine

/-! ### Limits of R316 to R323, and the instructions -/

/-- Planes, and bytes of scales or block exponents, of a chunk (R232). -/
def chunkShape : CpFmt → Nat × Nat
  | .bytes => (0, 0)
  | .hs4 => (4, 128)
  | .hs6 => (6, 128)
  | .i8 => (8, 0)
  | .b9 => (9, 128)
def chunkBytes (f : CpFmt) : Nat := 512 * (chunkShape f).1 + (chunkShape f).2

def limitIf (ok : Bool) : Option (BitVec 8) := if ok then none else some 0x12
def mul16 (w : Word) : Bool := w.toNat % 16 = 0
/-- A length: a nonzero multiple of 16. -/
def lenOk (w : Word) : Bool := w != 0 && mul16 w

/-- Limits of `cp.in` (R316). -/
def cpInLimit (db : BitVec 4) (fmt : CpFmt) (doff : BitVec 16) (k128 : BitVec 8) (b : Block) (ra rb rc : Word) : Option (BitVec 8) :=
  let len := if fmt = .bytes then rb.toNat else k128.toNat * chunkBytes fmt
  limitIf (mul16 ra && (if fmt = .bytes then lenOk rb else mul16 rb) && (fmt = .bytes || rc.toNat % 4 = 0)
    && 16 * doff.toNat + len ≤ b.bufSize db.toNat)

def execCpIn (e : EForm) (db : BitVec 4) (keep : Bool) (fmt : CpFmt) (doff : BitVec 16) (k128 : BitVec 8) (s : State) : Out :=
  issue (.cpIn e db keep fmt doff k128) s
    (command (.cpIn e db keep fmt doff k128) e.a e.b e.c e.bar (cpInLimit db fmt doff k128))

/-- Limits of `cp.out` (R318). -/
def cpOutLimit (sb : BitVec 4) (pair : Bool) (soff : BitVec 16) (b : Block) (ra rb rc : Word) : Option (BitVec 8) :=
  limitIf ((if pair then ra.toNat % 32 = 0 && mul16 rc else mul16 ra) && lenOk rb && 16 * soff.toNat + rb.toNat ≤ b.bufSize sb.toNat)

def execCpOut (e : EForm) (sb : BitVec 4) (pair : Bool) (soff : BitVec 16) (scope : BitVec 4) (s : State) : Out :=
  issue (.cpOut e sb pair soff scope) s (command (.cpOut e sb pair soff scope) e.a e.b e.c e.bar (cpOutLimit sb pair soff))

/-- Limits of `cp.peer` (R319). -/
def cpPeerLimit (sb : BitVec 4) (soff : BitVec 16) (b : Block) (_ra rb rc : Word) : Option (BitVec 8) :=
  limitIf (lenOk rb && rc.toNat % 8 = 0 && 16 * soff.toNat + rb.toNat ≤ b.bufSize sb.toNat)

def execCpPeer (e : EForm) (sb tb : BitVec 4) (soff toff : BitVec 16) (scope : BitVec 4) (keep : Bool) (s : State) : Out :=
  issue (.cpPeer e sb tb soff toff scope keep) s
    (command (.cpPeer e sb tb soff toff scope keep) e.a e.b e.c e.bar (cpPeerLimit sb soff))

/-- Limits of `cp.fill` (R320). -/
def cpFillLimit (db : BitVec 4) (glb : Bool) (doff : BitVec 16) (b : Block) (ra rb _rc : Word) : Option (BitVec 8) :=
  limitIf (lenOk rb && (if glb then mul16 ra else 16 * doff.toNat + rb.toNat ≤ b.bufSize db.toNat))

def execCpFill (e : EForm) (db : BitVec 4) (keep glb : Bool) (doff : BitVec 16) (scope : BitVec 4) (s : State) : Out :=
  issue (.cpFill e db keep glb doff scope) s (command (.cpFill e db keep glb doff scope) e.a e.b e.c e.bar (cpFillLimit db glb doff))

/-- Limits of `pub` (R323). -/
def pubLimit (_b : Block) (ra _rb _rc : Word) : Option (BitVec 8) := limitIf (ra.toNat % 32 = 0)

def execPub (g : Guard) (bar : Option (BitVec 4)) (a : BitVec 7) (scope : BitVec 4) (s : State) : Out :=
  issue (.pub g bar a scope) s (command (.pub g bar a scope) a 0 0 bar pubLimit)

/-! ### Global accesses of the engine -/

/-- An outcome of engine work: the state, and a value or the inner cause of a command error. -/
abbrev Engined (α : Type) := State × Except (BitVec 8) α

/-- A read of the copy engine goes to the replica, the holder or the home, with its packets (R241, R384). -/
def engineTouch (s : State) (uid pa : Nat) : State :=
  coreRead s uid (s.coreOf (.seq uid)) pa

/-- The block's latest store sequence number. -/
def State.lastStore (s : State) (uid : Nat) : Nat := ((s.block? uid).map fun b => b.stseq.toNat).getD 0

/-- A home refuses an access of an engine, and its die logs it (R367). -/
def engineRefused (s : State) (uid pa : Nat) : State :=
  logError s (s.homeDie pa) ⟨pa, s.ctxOf uid, s.coreOf (.seq uid), s.lastStore uid⟩

/-- A write of an engine takes effect at the home. Bytes of older stores that the block's buffer still holds there are overwritten (R280). -/
def engineStore (s : State) (uid pa : Nat) (data : List Byte) : State :=
  let q := Buf.block uid
  let s := s.setBuf q ((s.buf q).flatMap fun e => e.outside pa data.length)
  let c := s.coreOf (.seq uid)
  let s := storeAhead s none c pa
  homeWrite (lateDelivery s uid c (writePackets s none pa)) none pa data

/-- Reads n bytes of global memory in pieces within 256-byte lines; the block's buffered stores are forwarded (R295). -/
def engineRead (s : State) (uid : Nat) : (fuel n va : Nat) → Engined (List Byte)
  | 0, _, _ => (s, .ok [])
  | k + 1, n, va =>
    if n = 0 then (s, .ok [])
    else
      let m := min n (256 - va % 256)
      match translate s uid (s.coreOf (.seq uid)) (s.ctxOf uid) (ofNat64 va) .load with
      | (s, .trap c) => (s, .error c)
      | (s, .ok pa) =>
        if s.poisoned pa m then (s, .error 0x0A)
        else
          let s := engineTouch s uid pa
          let head := seenBytes s (.block uid) pa m
          match engineRead s uid k (n - m) (va + m) with
          | (s, .ok r) => (s, .ok (head ++ r))
          | (s, .error c) => (s, .error c)

/-- n bytes at a virtual address. -/
def readGlobal (s : State) (uid n va : Nat) : Engined (List Byte) := engineRead s uid (n / 256 + 2) n va

/-- Writes bytes to global memory in pieces within 256-byte lines; a refused or faulting piece ends it, and what is written stays
(R313, R367). -/
def engineWrite (s : State) (uid : Nat) : (fuel : Nat) → (va : Nat) → List Byte → Engined Unit
  | 0, _, _ => (s, .ok ())
  | k + 1, va, data =>
    if data.isEmpty then (s, .ok ())
    else
      let m := min data.length (256 - va % 256)
      match translate s uid (s.coreOf (.seq uid)) (s.ctxOf uid) (ofNat64 va) .store with
      | (s, .trap c) => (s, .error c)
      | (s, .ok pa) =>
        if tagOk s (s.ctxOf uid) pa then engineWrite (engineStore s uid pa (data.take m)) uid k (va + m) (data.drop m)
        else (engineRefused s uid pa, .error 0x13)

def writeGlobal (s : State) (uid va : Nat) (data : List Byte) : Engined Unit := engineWrite s uid (data.length / 256 + 2) va data

/-- Adds 1 to a 64-bit word in the block's context, at an address whose translation is checked first (R319, R323). -/
def engineAdd (s : State) (uid va : Nat) (first : State → State) : Engined Unit :=
  match translate s uid (s.coreOf (.seq uid)) (s.ctxOf uid) (ofNat64 va) .rw with
  | (s, .trap c) => (s, .error c)
  | (s, .ok pa) =>
    if s.poisoned pa 8 then (s, .error 0x0A)
    else if !tagOk s (s.ctxOf uid) pa then (engineRefused s uid pa, .error 0x13)
    else
      let s := first s
      (engineStore s uid pa (toBytes 8 (s.phys pa 8 + 1)), .ok ())

/-! ### Plane transposing (R87, R232, R317) -/

/-- A bf16's exponent field. -/
def bf16Exp (x : Nat) : Nat := x / 128 % 256

/-- The significand of an element of a B9 block under the block exponent, as a 9-bit code (R87). -/
def b9Code (x e : Nat) : Nat :=
  if bf16Exp x = 0 || e = 255 then 0
  else
    let q := (roundAt .rne (x / 2 ^ 15 % 2 = 1) (128 + x % 128) 0 (e - bf16Exp x) false).1
    if x / 2 ^ 15 % 2 = 1 then (512 - q) % 512 else q

/-- Elements and scales of one row as the format's codes, and its scale bytes. -/
def rowCodes (fmt : CpFmt) (row scales : List Byte) : List Nat × List Nat :=
  let at8 (i : Nat) : Nat := (row[i]?.getD 0).toNat
  match fmt with
  | .hs4 => ((upto (2 * row.length)).map fun k => if k % 2 = 0 then at8 (k / 2) % 16 else at8 (k / 2) / 16, scales.map BitVec.toNat)
  | .hs6 => (row.map fun b => b.toNat % 64, scales.map BitVec.toNat)
  | .b9 =>
    let xs := (upto (row.length / 2)).map fun k => at8 (2 * k) + 256 * at8 (2 * k + 1)
    let es := (upto (xs.length / 32)).map fun b => ((xs.drop (32 * b)).take 32).foldl (fun m x => max m (bf16Exp x)) 0
    ((upto xs.length).map fun k => b9Code (nth xs k) (nth es (k / 32)), es)
  | _ => (row.map BitVec.toNat, [])

/-- A bit of a code. -/
def codeBit (x q : Nat) : Nat := x / 2 ^ q % 2

/-- The bytes of chunk c of 32 rows in planes. -/
def chunkOf (fmt : CpFmt) (rows : List (List Nat × List Nat)) (c : Nat) : List Byte :=
  let p := (chunkShape fmt).1
  let row (i : Nat) : List Nat × List Nat := rows[i]?.getD ([], [])
  let cut := (upto 32).map fun i => ((row i).1.drop (128 * c)).take 128
  let planes := (upto p).flatMap fun q => cut.flatMap fun l =>
    (upto 16).map fun j => BitVec.ofNat 8 (packElems 1 (((l.drop (8 * j)).take 8).map fun x => codeBit x q))
  let scales := if (chunkShape fmt).2 = 0 then [] else
    (upto 32).flatMap fun i => (upto 4).map fun b => BitVec.ofNat 8 (nth (row i).2 (4 * c + b))
  planes ++ scales

/-- Bytes of one row of the source, and of its scales. -/
def rowBytes (fmt : CpFmt) (k : Nat) : Nat × Nat :=
  match fmt with
  | .hs4 => (k / 2, k / 32)
  | .hs6 => (k, k / 32)
  | .b9 => (2 * k, 0)
  | _ => (k, 0)

/-- Reads the 32 rows of a transposing copy. -/
def readRows (s : State) (uid : Nat) (fmt : CpFmt) (k ra rb rc : Nat) : (n i : Nat) → Engined (List (List Nat × List Nat))
  | 0, _ => (s, .ok [])
  | n + 1, i =>
    match readGlobal s uid (rowBytes fmt k).1 ((ra + i * rb) % 2 ^ 64) with
    | (s, .error c) => (s, .error c)
    | (s, .ok row) =>
      match readGlobal s uid (rowBytes fmt k).2 ((rc + i * (k / 32)) % 2 ^ 64) with
      | (s, .error c) => (s, .error c)
      | (s, .ok sc) =>
        match readRows s uid fmt k ra rb rc n (i + 1) with
        | (s, .ok r) => (s, .ok (rowCodes fmt row sc :: r))
        | (s, .error c) => (s, .error c)

/-- What a `cp.in` writes. -/
def cpInData (s : State) (uid : Nat) (fmt : CpFmt) (k128 : Nat) (c : Cmd) : Engined (List Byte) :=
  if fmt = .bytes then readGlobal s uid c.rb.toNat c.ra.toNat
  else match readRows s uid fmt (128 * k128) c.ra.toNat c.rb.toNat c.rc.toNat 32 0 with
    | (s, .ok rows) => (s, .ok ((upto k128).flatMap fun i => chunkOf fmt rows i))
    | (s, .error e) => (s, .error e)

/-! ### Starting and completing copy commands -/

/-- Source bytes of a command in its own block, from the run it resolved at its start (R311). -/
def srcBytes (s : State) (uid : Nat) (r : Running) (off n : Nat) : List Byte :=
  match s.block? uid with
  | some b => lsBytes b (1024 * nth r.srcs 0 + off) n
  | none => []

/-- The pattern of a `cp.fill`, n bytes. -/
def fillBytes (v : Word) (n : Nat) : List Byte := (List.replicate (n / 8) (toBytes 8 v.toNat)).flatten

/-- The descriptor of a paired region read at the start: the command with the resolved destination, or its inner cause (R318, R322). -/
def resolvePair (s : State) (uid : Nat) (c : Cmd) : Engined Cmd :=
  match c.ins with
  | .cpOut e sb true soff sc =>
    match readGlobal s uid 32 c.ra.toNat with
    | (s, .error x) => (s, .error x)
    | (s, .ok d) =>
      let f (i : Nat) : Nat := ofBytes ((d.drop (8 * i)).take 8)
      let back := f (1 + (f 0 + 1) % 2)
      if f 3 < c.rc.toNat + c.rb.toNat then (s, .error 0x12)
      else (s, .ok { c with ins := .cpOut e sb false soff sc, ra := ofNat64 (back + c.rc.toNat) })
  | _ => (s, .ok c)

/-- The packets that carry n bytes of a `cp.peer` to another core, and their acknowledgements: a line each (R384, R386; log 71). -/
def peerPackets (s : State) (uid target n : Nat) : Nat :=
  if s.coreOf (.seq target) = s.coreOf (.seq uid) then 0 else 2 * ((n + 255) / 256)

/-- The work of a copy command between its start and its publish step: all its writes, or the inner cause of its error; one that fails releases
nothing (R313). A flag of `cp.peer` is translated before anything is published. -/
def copyWork (s : State) (uid : Nat) (r : Running) : Engined Unit :=
  let c := r.cmd
  match c.ins with
  | .cpIn _ _ _ fmt doff k128 =>
    (match cpInData s uid fmt k128.toNat c with
      | (s, .ok d) => (writeRun s r (16 * doff.toNat) d, .ok ())
      | (s, .error e) => (s, .error e))
  | .cpOut _ _ _ soff _ =>
    writeGlobal s uid c.ra.toNat (srcBytes s uid r (16 * soff.toNat) c.rb.toNat)
  | .cpPeer _ _ _ soff toff _ _ =>
    (writeRun (lateDelivery s uid (s.coreOf (.seq uid)) (peerPackets s uid r.target c.rb.toNat)) r (16 * toff.toNat)
      (srcBytes s uid r (16 * soff.toNat) c.rb.toNat), .ok ())
  | .cpFill _ _ _ glb doff _ =>
    if glb then writeGlobal s uid c.ra.toNat (fillBytes c.rc c.rb.toNat)
    else (writeRun s r (16 * doff.toNat) (fillBytes c.rc c.rb.toNat), .ok ())
  | _ => (s, .ok ())

/-- The end of a copy command once its writes are made: publish, commit and release, flag (R312, R362). -/
def copyEnd (s : State) (uid : Nat) (r : Running) : Engined Unit :=
  let c := r.cmd
  match c.ins with
  | .cpOut .. => (commitBuf s (.block uid), .ok ())
  | .cpPeer .. =>
    if c.rc = 0 then (commitBuf (publish s r) (.block uid), .ok ())
    else engineAdd s uid c.rc.toNat fun s => commitBuf (publish s r) (.block uid)
  | .cpFill _ _ _ glb _ _ => (if glb then commitBuf s (.block uid) else publish s r, .ok ())
  | .pub .. => engineAdd s uid c.ra.toNat fun s => commitBuf s (.block uid)
  | _ => (publish s r, .ok ())

end Sys2Proof.Machine
end

