-- ==== Sys2Proof/Machine/Relaunch.lean ====
section
/-! DEFINITION. Imprecise events and the relaunch rule: a block is placed again from its start while its window is open, and killed
otherwise (R347, R363, R364, R367). -/
namespace Sys2Proof.Machine

/-- The PC of the lowest fibre of a block that is executing; the stream's where no fibre is left (R364). -/
def Block.lowestPC (b : Block) : Word :=
  match b.weaves.flatMap fun w => w.2.batches with
  | y :: _ =>
    (match (b.weaves.findSome? fun w => match w.2.fibres with | f :: _ => (w.2.batchOf f.1).map Prod.snd | [] => none) with
      | some z => z.pc
      | none => y.pc)
  | [] => (b.stream.map Stream.pc).getD 0

/-- The record of an imprecise event that a core reports for a block. A mismatch of the matrix array carries its inner cause 0x16 as `aux`, which is
INNER, and AUX is 0 (R341, R351). RPC, and INNER of a checked-issue mismatch, are open. -/
def eventRecord (s : State) (b : Block) (core : Nat) (cause : BitVec 8) (addr aux : Word) (ended relaunched : Bool) : State :=
  let v := Config.freeWord s.fresh
  (writeRecord s.tick b.ctx
    { block := b.idx, cause := cause.toNat, inner := if cause != 0x16 then 0 else if aux = 0 then v.toNat % 256 else aux.toNat % 256,
      flags := recFlags false false false ended true relaunched false false, step := 0xFF, slot := 0xFFFF, core, pc := b.lowestPC,
      rpc := v, addr, aux := if cause == 0x16 then 0 else aux, lrec := b.record.toNat, mask := 0 } false).1

/-- The block with an index of a launch, where it is resident. -/
def blockOf (s : State) (ctx lid i : Nat) : Option (Nat × Block) :=
  s.blocks.find? fun e => e.2.ctx = ctx && e.2.lid = lid && e.2.idx = i

/-- The indices of the gang instance of a block, or its own alone (R174, R364). -/
def gangIndices (s : State) (b : Block) : List Nat :=
  match (s.launch? b.ctx b.lid).bind fun l => l.gangOf b.idx with
  | some (lo, n, _) => (upto n).map fun k => lo + k
  | none => [b.idx]

/-- Block i of the launch is placed or has been. -/
def Launch.placed (l : Launch) (i : Nat) : Bool := i < l.next && !(l.again.any fun e => e.1 = i)

/-- The chosen instances that still bind some placed block. -/
def Launch.keepChosen (l : Launch) : Launch :=
  { l with chosen := l.chosen.filter fun e =>
      (upto (l.sizeOf e.1.1)).any fun k => l.placed (e.1.2 * l.sizeOf e.1.1 + k) }

/-- Some blocks never use a core until it is returned to service (R363). -/
def Launch.bar (l : Launch) (is : List Nat) (core : Nat) : Launch := { l with barred := l.barred ++ is.map fun i => (i, core) }

/-- Block i is to be placed again, away from a core's cluster (R363). -/
def Launch.relaunch (l : Launch) (i n core : Nat) : Launch :=
  { l with again := l.again ++ [(i, n, domInst 2 core + 1)] }.keepChosen

/-- One block is stopped with all it holds and is to be placed again. -/
def relaunchOne (s : State) (core uid : Nat) : State :=
  match s.block? uid with
  | none => s
  | some b =>
    let s := dropBlock s uid fun l => l.relaunch b.idx (b.relaunches + 1) core
    s.updCtx b.ctx fun x => { x with relaunch := satTo 0xFFFFF (x.relaunch + 1) }

/-- One block is killed under R364. -/
def killOne (s : State) (uid : Nat) : State :=
  match s.block? uid with
  | none => s
  | some b => (killBlock s uid).updCtx b.ctx fun x => { x with closed := satTo 0xFFFFF (x.closed + 1) }

/-- A saved block of an instance is killed in its frame. -/
def killSaved (s : State) (ctx lid : Nat) (is : List Nat) : State :=
  s.frames.foldl (fun s f =>
    match f.2.block with
    | some b =>
      if b.ctx = ctx && b.lid = lid && is.contains b.idx then
        ((leaveRoots { s with frames := mput s.frames f.1 { f.2 with block := none } } f.2.uid).updLaunch ctx lid fun l =>
          { l with killed := l.killed + 1 }).updCtx ctx
          fun x => { x with closed := satTo 0xFFFFF (x.closed + 1) }
      else s
    | none => s) s

/-- The relaunch rule for an event that core `c` reports for a block: its gang instance is relaunched when every block of it has its window open and
has been relaunched less than 3 times, away from that core and its cluster; otherwise every one is killed. -/
def relaunchRule (s : State) (uid c : Nat) (cause : BitVec 8) (addr aux : Word) : State :=
  match s.block? uid with
  | none => s
  | some b =>
    let is := gangIndices s b
    let open_ := is.all fun i => match blockOf s b.ctx b.lid i with | some e => e.2.wopen && e.2.relaunches < 3 | none => false
    let s := eventRecord s b c cause addr aux (!open_) open_
    let uids := is.filterMap fun i => (blockOf s b.ctx b.lid i).map Prod.fst
    if open_ then uids.foldl (fun s u => relaunchOne s c u) (s.updLaunch b.ctx b.lid fun l => l.bar is c)
    else killSaved (uids.foldl killOne s) b.ctx b.lid is

/-- A block that lies saved in a frame: its window has closed, and the relaunch rule kills it with its gang instance (R364, R367, R369). -/
def relaunchSaved (s : State) (c : Nat) (b : Block) (cause : BitVec 8) (addr aux : Word) : State :=
  let is := gangIndices s b
  let s := eventRecord s b c cause addr aux true false
  let uids := is.filterMap fun i => (blockOf s b.ctx b.lid i).map Prod.fst
  killSaved (uids.foldl killOne s) b.ctx b.lid is



/-- An imprecise event reaches a block: 0x15 is a record only, the others follow the relaunch rule (R347). -/
def relaunchEvent (s : State) (uid c : Nat) (cause : BitVec 8) (addr aux : Word) : Option State :=
  let rule : Bool := cause == 0x13 || cause == 0x14 || cause == 0x16 || cause == 0x17
  match s.block? uid with
  | some b =>
    if cause == 0x15 then some (eventRecord s b c cause addr aux false false)
    else if rule then some (relaunchRule s uid c cause addr aux) else none
  | none =>
    match savedBlock s uid with
    | some b => if rule then some (relaunchSaved s c b cause addr aux) else none
    | none => none

def execRelaunchEvent (src : Reporter) (cause : BitVec 8) (addr aux : Word) (s : State) : Out :=
  event "RELAUNCH_EVENT" (relaunchEvent s src.uid src.core cause addr aux)

/-- A home has refused a store of a block: event 0x13 at the source core (R367). -/
def execRemoteRefusal (src : Reporter) (pa sq : Nat) (s : State) : Out :=
  event "REMOTE_REFUSAL" (relaunchEvent s src.uid src.core 0x13 (ofNat64 pa) (ofNat64 sq))

end Sys2Proof.Machine
end

