-- ==== Sys2Proof/Machine/TrapEvents.lean ====
section
/-! DEFINITION. What happens to weaves and traps between instructions: a stream's command error, breakpoints, the watchdog, completed
records, the active and pending sets, and the helpers' start, release and recruiter's resumption (spec 08, 10, 15, 18). -/
namespace Sys2Proof.Machine

/-! ### Trap entry by a stream, breakpoints, the watchdog -/

/-- The oldest command error of a stream raises trap 0x12 before its next instruction (R313, R349). -/
def enterCmdErr (s : State) (uid : Nat) : Option State :=
  match s.stream? uid with
  | none => none
  | some x =>
    match x.cmdErr with
    | (inner, pc) :: r =>
      if x.errReady then
        some (takeTrapSeq (s.updStream uid fun x => { x with cmdErr := r }) uid
          { who := .seq uid, cause := 0x12, inner, pc, rpc := x.pc } false)
      else none
    | [] => none

def execTrapEntry (uid : Nat) (s : State) : Out := event "TRAP_ENTRY" (enterCmdErr s uid)

/-- The current batch stops before the instruction that breakpoint register n matches: every fibre outside a trap routine (R355). -/
def stopAtBkp (s : State) (n : Nat) : Option State :=
  match s.focus with
  | .weave u w =>
    match s.block? u, s.weave? u w with
    | some blk, some x =>
      match x.curBatch with
      | none => none
      | some b =>
        if !(outside x b) || bkpMatch blk b ≠ some n then none
        else
          let k := fibIss s u w x b 8 ⟨0, false⟩
          let out := k.batch.filter fun a => !(s.trapRegs a).inTrap
          some (finish s k w { st := s, traps := out.map fun a => k.trapHere a 0x10 0 (ofNat64 (0x100 + n)), how := .stall })
    | _, _ => none
  | _ => none

def execBreakpointMatch (n : BitVec 2) (s : State) : Out := event "BREAKPOINT_MATCH" (stopAtBkp s n.toNat)

/-- The instructions whose taken backward transfers the watchdog counts. -/
def execTransfer (i : Instr) (s : State) : Option Out :=
  match i with
  | .bra g o => some (execBra g o s)
  | .call g l o => some (execCall g l o s)
  | .brx f => some (execBrx f s)
  | .ret f => some (execRet f s)
  | _ => none

/-- The branch of the batch in focus would raise its count past 2^W: it raises trap 0x0E (R184). -/
def watchdogTrap (s : State) : Option State :=
  match s.focus with
  | .weave u w =>
    match s.block? u, (s.weave? u w).bind Weave.curBatch with
    | some blk, some b =>
      if blk.wdog = 0 || b.wd < 2 ^ blk.wdog then none
      else match takeTurn s with
        | (t, .run i) => (match execTransfer i t with | some (.next r) => some r | _ => none)
        | _ => none
    | _, _ => none
  | _ => none

def execWatchdog (s : State) : Out := event "WATCHDOG" (watchdogTrap s)

/-! ### Records that complete (R222, R352) -/

/-- A batch or stream that waited for a record goes on at its resume point. -/
def Weave.resume (x : Weave) (i : Nat) : Weave :=
  match x.batches[i]? with
  | some b => { x with batches := x.batches.set i { b with state := .run }, cur := some (x.cur.getD i) }
  | none => x

/-- Resumes every batch of a weave whose wait satisfies a test. -/
def Weave.resumeIf (x : Weave) (p : Wait → Bool) : Weave :=
  (upto x.batches.length).foldl (fun x i =>
    match x.batches[i]? with
    | some b => (match b.state with | .wait q => if p q then x.resume i else x | _ => x)
    | none => x) x

/-- The wait is for record `seq`. -/
def isRecord (seq : Nat) (q : Wait) : Bool := match q with | .record n => n = seq | _ => false

/-- The block's batches and stream that wait for the record resume, and its held iterations become claimable. -/
def Block.recordDone (seq : Nat) (b : Block) : Block :=
  { b with
    weaves := mmap b.weaves fun _ x =>
      let y := x.resumeIf (isRecord seq)
      { y with fibres := mmap y.fibres fun _ f =>
          { f with pool := f.pool.map fun p =>
              { p with held := mmap p.held fun _ h => if h.any fun r => r.seq = seq then none else h
                       idle := p.idle.filter fun r => r.seq != seq } } }
    stream := b.stream.map fun x => if x.state == .wait (.record seq) then { x with state := .run } else x }

/-- Something in a block waits for the record. -/
def Block.awaits (seq : Nat) (b : Block) : Bool :=
  b.weaves.any (fun w => w.2.batches.any (fun y => y.state == .wait (.record seq))
      || w.2.fibres.any fun f => f.2.pool.any fun p => (p.held.any fun h => h.2.any fun r => r.seq = seq) || p.idle.any fun r => r.seq = seq)
    || b.stream.any fun x => x.state == .wait (.record seq)

/-- A record succeeds: whatever waited for it in the context goes on. -/
def recordOk (s : State) (ctx seq : Nat) : State :=
  let blocks := mmap s.blocks fun _ b => if b.ctx = ctx then b.recordDone seq else b
  let frames := mmap s.frames fun _ f => { f with block := f.block.map fun b => if b.ctx = ctx then b.recordDone seq else b }
  (blocks.map Prod.fst).foldl wakeHwork { s with blocks, frames }

/-- The trap that a fibre took, from its trap registers. -/
def Fibre.trapAgain (a : Actor) (f : Fibre) : Trp :=
  { who := a, cause := f.tr.cause, inner := f.tr.inner, addr := f.tr.xaddr, aux := f.tr.xaux, pc := f.tr.xfpc, rpc := f.tr.xpc,
    step := if f.tr.stepv then some f.tr.step.toNat else none, rmac := f.smac }

/-- The batch of a weave that waits for the record enters its trap again as if no handler existed. -/
def batchFails (s : State) (uid w seq : Nat) : State :=
  match (s.weave? uid w).bind fun x => x.batches.find? fun b => b.state == .wait (.record seq) with
  | none => s
  | some b =>
    takeTrap s uid w (b.members.filterMap fun sl => (s.fibre? uid w sl).map fun f => f.trapAgain (.fib uid w sl)) true none

/-- A helper's record fails: its recruiter traps while it is suspended at `recruit`, else the index that it held is claimable (R222). -/
def helperFails (s : State) (uid w sl seq : Nat) : State :=
  let fail (p : Pool) (s : State) (iter : Nat) (r : HeldRec) : State :=
    if p.waiting then
      recruiterTrap s uid w sl 0x0C r.inner r.addr (ofNat64 iter) { slot := r.slot, core := r.core, rpc := r.rpc, mask := r.mask }
    else wakeHwork s uid
  match (s.fibre? uid w sl).bind Fibre.pool with
  | none => s
  | some p =>
    match p.held.find? fun h => h.2.any fun r => r.seq = seq with
    | some (i, some r) =>
      fail p (s.updFibre uid w sl fun f => { f with pool := f.pool.map fun p => { p with held := mput p.held i none } }) i r
    | _ =>
      match p.idle.find? fun r => r.seq = seq with
      | some r => fail p (s.updFibre uid w sl fun f => { f with pool := f.pool.map fun p => { p with idle := p.idle.filter fun r => r.seq != seq } }) 0 r
      | none => s

/-- A record fails for one block. -/
def blockFails (s : State) (uid seq : Nat) : State :=
  match s.block? uid with
  | none => s
  | some b =>
    let s := b.weaves.foldl (fun s w => (w.2.fibres.foldl (fun s f => helperFails s uid w.1 f.1 seq) (batchFails s uid w.1 seq))) s
    match s.stream? uid with
    | some x =>
      if x.state == .wait (.record seq) then
        takeTrapSeq s uid { who := .seq uid, cause := x.tr.cause, inner := x.tr.inner, addr := x.tr.xaddr, aux := x.tr.xaux, pc := x.tr.xfpc,
                            rpc := x.tr.xpc } true
      else s
    | none => s

/-- How an awaited record stands: `some true` completed with success, `some false` with failure, `none` still awaited. A record that the
ring has overwritten has failed, and so has one whose session closed before its DONE word was written. -/
def recordState (s : State) (x : Ctx) (seq : Nat) : Option Bool :=
  let a := x.recAddr seq
  let d := s.phys (a + 0x3C) 4
  if s.phys a 4 ≠ seq then some false
  else if d % 2 ^ 31 = seq then some (decide (d < 2 ^ 31))
  else if (mget s.service.sessions x.session).isNone then some false else none

/-- A record completes (R352). A failure waits until no saved block awaits the record. -/
def completeRecord (s : State) (ctx seq : Nat) : Option State :=
  match s.ctx? ctx with
  | none => none
  | some x =>
    if !x.awaited.contains seq then none
    else
      let done (s : State) : State := s.updCtx ctx fun x => { x with awaited := x.awaited.filter fun q => q != seq }
      match recordState s x seq with
      | none => none
      | some true => some (recordOk (done s) ctx seq)
      | some false =>
        if s.frames.any fun f => f.2.block.any fun b => b.ctx = ctx && b.awaits seq then none
        else some (s.blocks.foldl (fun s b => if b.2.ctx = ctx then blockFails s b.1 seq else s) (done s))

def execRecordCompletion (ctx seq : Nat) (s : State) : Out := event "RECORD_COMPLETION" (completeRecord s ctx seq)

/-! ### The active and pending sets (R176, R177, R186) -/

/-- The quantum of R175. -/
def quantum : Nat := 1048576

/-- The bits at the PC of a batch, where it stands outside a macro and they can be fetched. -/
def bitsAt (s : State) (uid : Nat) (x : Weave) (ctx : Nat) (b : Batch) : Option Nat :=
  if b.mac.isSome then none else match (fetchAt s uid x.core ctx b.pc).2 with | .word w => some w | .trap _ => none

/-- The batch stands at a clause header: its WAIT marks. -/
def headerAt (s : State) (uid : Nat) (x : Weave) (ctx : Nat) (b : Batch) : Option (BitVec 12) :=
  match (bitsAt s uid x ctx b).bind decode with
  | some (.clause wait _ _ _) => some wait
  | _ => none

/-- The batch stands before an instruction or operation that writes registers for which the core has no entry and can free none (R185). -/
def wantsRegs (s : State) (uid w ctx : Nat) (x : Weave) (b : Batch) : Bool :=
  let next : Option Instr := match b.mac with
    | some m => some (macroInstr ((m.ops[m.step]?).getD 0).toNat)
    | none => (bitsAt s uid x ctx b).map instrOf
  match next with
  | some i =>
    x.kind != .helper && !(relieve s uid (some w) x.core (regNeed s i (fibIss s uid w x b i.size i.guard).acts) 64).2
  | none => false

/-- A pending weave is ready to issue. -/
def Weave.ready (x : Weave) : Bool := match x.curBatch with | some b => b.runnable | none => false

/-- The pending weaves of a core that are ready: (block, weave, its state). -/
def pendingReady (s : State) (c : Nat) : List (Nat × Nat × Weave) :=
  s.blocks.flatMap fun b => b.2.weaves.filterMap fun w => if w.2.core = c && !w.2.active && w.2.ready then some (b.1, w.1, w.2) else none

/-- No active slot of a core is free for a handler weave that arrived 32 cycles ago. -/
def handlerWaits (s : State) (c : Nat) : Bool :=
  8 ≤ activeOn s c && (pendingReady s c).any fun e => e.2.2.kind == .handler && decide (cycles 32 ≤ s.ran (coreDie c) e.2.2.arrived)

/-- No active weave of a core issued less recently. -/
def leastRecent (s : State) (c : Nat) (x : Weave) : Bool :=
  s.blocks.all fun b => b.2.weaves.all fun w => w.2.core ≠ c || !w.2.active || decide (x.lastIssue ≤ w.2.lastIssue)

/-- An active weave has a reason to leave the active set (R177): at a clause boundary, but for a batch that waits for registers, which reaches none
(R185). What it lacks is counted since its last issue or, where later, its promotion. -/
def mayDemote (s : State) (uid w : Nat) (ctx : Nat) (x : Weave) : Bool :=
  match x.curBatch with
  | none => true
  | some b =>
    if !(b.runnable || b.held) then true
    else
      let long := decide (cycles 32 < s.ran (coreDie x.core) (max x.lastIssue x.lastMove))
      (long && wantsRegs s uid w ctx x b)
        || (match headerAt s uid x ctx b with
            | none => false
            | some wait => (long && marksBusy s uid (some w) wait)
                || (decide (cycles quantum ≤ s.ran (coreDie x.core) x.lastMove) && !(pendingReady s x.core).isEmpty)
                || (handlerWaits s x.core && leastRecent s x.core x))

def demote (s : State) (uid w : Nat) : Option State :=
  match s.block? uid, s.weave? uid w with
  | some b, some x =>
    if x.active && mayDemote s uid w b.ctx x then
      some (s.updWeave uid w fun x => { x with active := false, lastMove := s.clock })
    else none
  | _, _ => none

def execWeaveDemote (uid widx : Nat) (s : State) : Out := event "WEAVE_DEMOTE" (demote s uid widx)

/-- The weave that has waited longest, counted since it moved to the pending set and not since it became ready (log 82). -/
def longest : List (Nat × Nat × Weave) → Option (Nat × Nat × Weave)
  | [] => none
  | h :: r => match longest r with
    | none => some h
    | some k => if h.2.2.lastMove ≤ k.2.2.lastMove then some h else some k

/-- The pending weave to promote: a handler weave first, else the one that has waited longest. -/
def toPromote (s : State) (c : Nat) : Option (Nat × Nat × Weave) :=
  let l := pendingReady s c
  match longest (l.filter fun e => e.2.2.kind == .handler) with
  | some e => some e
  | none => longest l

/-- A pending weave takes a free active slot once its spilled registers are filled back. -/
def promote (s : State) (c : Nat) : Option State :=
  if 8 ≤ activeOn s c then none
  else match toPromote s c with
    | none => none
    | some (u, w, _) => some ((fillWeave s u w).updWeave u w fun x => { x with active := true, lastMove := s.clock })

def execWeavePromote (core : Nat) (s : State) : Out := event "WEAVE_PROMOTE" (promote s core)

/-! ### Helpers (R212, R213, R223, R224) -/

/-- A batch of helpers of the pool (rw, rs) that has not started. -/
def startsOf (x : Weave) (key : Nat) (b : Batch) : Bool :=
  (match b.state with | .wait (.start _) => true | _ => false)
    && b.members.any fun sl => match (mget x.fibres sl).map Fibre.kind with | some (.helper a c _) => poolKey a c = key | _ => false

/-- The helpers of a recruitment start. -/
def startHelpers (s : State) (uid key : Nat) : Option State :=
  match s.block? uid with
  | none => none
  | some b =>
    if b.weaves.any fun w => w.2.batches.any (startsOf w.2 key) then
      let go (x : Weave) : Weave := (upto x.batches.length).foldl (fun y i =>
        match x.batches[i]? with
        | some z => if startsOf x key z then y.resume i else y
        | none => y) x
      some (s.updBlock uid fun b => { b with weaves := mmap b.weaves fun _ x => go x })
    else none

def execHelperStart (uid pool : Nat) (s : State) : Out := event "HELPER_START" (startHelpers s uid pool)

/-- The helpers of a weave that are not yet asked to release. -/
def releasable (x : Weave) : List (Nat × Fibre) := x.fibres.filter fun f => f.2.isHelper && !f.2.release

/-- A lender asks the helpers of a weave to release: at once those without an iteration, the others at their next `hwork` (R223). -/
def askRelease (s : State) (uid w : Nat) : Option State :=
  match s.weave? uid w with
  | none => none
  | some x =>
    if (releasable x).isEmpty then none
    else some ((releasable x).foldl (fun s f =>
      match f.2.cur, f.2.kind with
      | some _, _ => s.updFibre uid w f.1 fun g => { g with release := true }
      | none, .helper rw rs _ =>
        releaseHelper (s.updFibre uid rw rs fun r => { r with forced := satTo 31 (r.forced + 1) }) uid w f.1
      | none, _ => s) s)

def execReleaseRequest (uid widx : Nat) (s : State) : Out := event "RELEASE_REQUEST" (askRelease s uid widx)

/-- The recruiter resumes after its last helper: D is the number of iterations still to commit (R224). It goes on by itself, apart from participants of the
same `recruit` that still wait (R210). -/
def resumeRecruiter (s : State) (uid key : Nat) : Option State :=
  let rw := key / 32
  let rs := key % 32
  match (s.fibre? uid rw rs).bind Fibre.pool with
  | none => none
  | some p =>
    if !p.waiting || p.helpers ≠ 0 then none
    else
      let s := s.updFibre uid rw rs fun f => { f with pool := f.pool.map fun p => { p with waiting := false } }
      let s := (s.unspill uid rw rs p.dst).updWeave uid rw fun x => x.splitOff rs
      some (recruitReady (s.writeW (.fib uid rw rs) p.dst (ofNat64 p.left)) uid rw)

def execRecruiterResume (uid pool : Nat) (s : State) : Out := event "RECRUITER_RESUME" (resumeRecruiter s uid pool)

end Sys2Proof.Machine
end

