-- ==== Sys2Proof/Machine/SaveRestore.lean ====
section
/-! DEFINITION. Save, restore and retirement by the die controller (R226, R273, R369 to R371, R400, R401). -/
namespace Sys2Proof.Machine

/-! ### Save frames (R369, R370, R434) -/

/-- An address names a frame boundary within a context's save pool. -/
def Ctx.ownsFrame (x : Ctx) (pa : Nat) : Bool :=
  pa % 4096 = 0 && x.pool ≤ pa && (pa - x.pool) % frameSize = 0 && (pa - x.pool) / frameSize < x.frames

/-- Some block is being saved into a frame. -/
def frameClaimed (s : State) (pa : Nat) : Bool := s.blocks.any fun b => (b.2.saving.map Prod.fst) == some pa

/-- A frame that holds no saved block and into which none is being saved. -/
def frameFree (s : State) (pa : Nat) : Bool :=
  !frameClaimed s pa && !(match mget s.frames pa with | some f => f.saved && f.block.isSome | none => false)

/-- The free frames of a context's pool. -/
def freeFrames (s : State) (ctx : Nat) : List Nat :=
  match s.ctx? ctx with
  | none => []
  | some x => ((upto x.frames).map fun i => x.pool + frameSize * i).filter (frameFree s)

/-! ### Tree membership (R396, R397, R400) -/

/-- The block's context holds the tree. -/
def inTree (s : State) (b : Block) (tree : Bool) : Bool := ((s.ctx? b.ctx).map fun x => x.holdsTree tree).getD false

def Die.seg (x : Die) (tree : Bool) : Seg := if tree then x.seg1 else x.seg0
def Block.arrived (b : Block) (tree : Bool) : Bool := if tree then b.arr1 else b.arr0
def State.root (s : State) (tree : Bool) : Root := if tree then s.root1 else s.root0
def State.updRoot (s : State) (tree : Bool) (f : Root → Root) : State :=
  if tree then { s with root1 := f s.root1 } else { s with root0 := f s.root0 }
def State.updSeg (s : State) (d : Nat) (tree : Bool) (f : Seg → Seg) : State :=
  s.updDie d fun x => if tree then { x with seg1 := f x.seg1 } else { x with seg0 := f x.seg0 }

/-- The segment of a die has reported the current round and the round has not been released there. -/
def reportedHere (s : State) (d : Nat) (tree : Bool) : Bool := ((s.die d).seg tree).reported

/-- A segment that has reported the current round withdraws its report. -/
def withdraw (s : State) (d : Nat) (tree : Bool) : State :=
  if reportedHere s d tree && ((s.die d).seg tree).rounds = (s.root tree).rounds then
    (s.updSeg d tree fun x => { x with reported := false }).updRoot tree fun r => { r with seen := r.seen.filter fun e => e != d }
  else s

/-- A block placed on a die is a member at once, with no arrival: a report of the current round made there without it is withdrawn (R397, log 18). -/
def joinTrees (s : State) (ctx d : Nat) : State :=
  [false, true].foldl (fun s t => if ((s.ctx? ctx).map fun x => x.holdsTree t).getD false then withdraw s d t else s) s

/-- A member may not begin to be saved now (R400). -/
def saveHeld (s : State) (b : Block) : Bool :=
  [false, true].any fun t => inTree s b t && reportedHere s (coreDie b.core) t

/-- A member begins to be saved, or is back: the die controller sends a notice to the root. -/
def goAbsent (s : State) (uid : Nat) (b : Block) : State :=
  [false, true].foldl (fun s t => if inTree s b t then s.post (.absenceNotice t uid) else s) s
def comeBack (s : State) (uid : Nat) (b : Block) : State :=
  [false, true].foldl (fun s t => if inTree s b t then s.post (.presenceNotice t uid) else s) s

/-! ### Beginning a save -/

/-- Some helper of a block is not yet asked to release. -/
def Block.unasked (b : Block) : Bool := b.weaves.any fun w => !(releasable w.2).isEmpty

/-- Every helper of a block is asked to release (R223, R226). -/
def askAll (s : State) (uid : Nat) (b : Block) : State := b.weaves.foldl (fun s w => (askRelease s uid w.1).getD s) s

/-- A save of a block begins: helpers are asked to release, and every batch and the stream stop at clause boundaries. -/
def beginSave (s : State) (uid frame why : Nat) : State :=
  match s.block? uid with
  | none => s
  | some b => goAbsent ((askAll s uid b).updBlock uid fun b => { b with stop := true, saving := some (frame, why) }) uid b

/-- The block that a save of a core takes: the one that holds the lowest occupied weave slot, the landing slot last (R370). -/
def saveVictim (s : State) (c : Nat) : Option (Nat × Block) :=
  let l := s.blocks.filter fun b => b.2.core = c && b.2.saving.isNone
  let low (b : Block) : Nat := (b.weaves.filterMap fun w => if w.2.core = c then some w.2.wslot else none).foldl Nat.min 32
  l.foldr (fun e r => match r with
    | none => some e
    | some k => if low e.2 ≤ low k.2 then some e else some k) none

/-! ### Completing a save (R369, R445) -/

/-- Nothing of the block runs any more: it is stopped, its helpers are gone and its engines are idle. -/
def saveReady (s : State) (uid : Nat) (b : Block) : Bool :=
  blockStopped s uid && b.helpersHeld = 0 && b.cpReady.isEmpty && b.mmReady.isEmpty && b.running.isEmpty

/-- Results land at a save; a poisoned one is saved as outstanding. -/
def saveLand (s : State) (a : Actor) : State :=
  let s := (s.pendOf a).foldl (fun s p => completeOp s a.uid p.op) s
  (landSel s a fun p => p.poison.isNone).1

/-- Every actor of a block. -/
def Block.actors (uid : Nat) (b : Block) : List Actor :=
  (b.weaves.flatMap fun w => w.2.fibres.map fun f => Actor.fib uid w.1 f.1) ++ (if b.stream.isSome then [.seq uid] else [])

/-- The block to which a message at a core is addressed: of the sender's context and kernel, the lowest index of several (R390). -/
def msgTarget (s : State) (c : Nat) (m : Msg) : Option (Nat × Block) :=
  (s.blocks.filter fun b => b.2.core = c && b.2.ctx = m.ctx && b.2.hdrVA = m.hdrVA).foldr (fun e r => match r with
    | none => some e
    | some k => if e.2.idx ≤ k.2.idx then some e else some k) none

/-- A dropped message is counted in its sender's sr.msgstat, on a core or in a frame (R390, R393). -/
def countDropped (s : State) (uid : Nat) : State := s.updAnywhere uid fun b => { b with notgt := satTo 65535 (b.notgt + 1) }

/-- The messages that wait at the core for a block leave with it. -/
def takeMsgs (s : State) (uid c : Nat) : State × List Msg :=
  let mine (m : Msg) : Bool := (msgTarget s c m).map Prod.fst == some uid
  let l := (s.core c).inq
  (s.updCore c fun x => { x with inq := l.filter fun m => !mine m }, l.filter mine)

/-- The parts of a block that a save leaves behind. -/
def Block.packed (b : Block) (msgs : List Msg) : Block :=
  { b with stop := false, saving := none, farStop := [], msgs := b.msgs ++ msgs, landing := false, slots := [],
           weaves := mmap b.weaves fun _ w => { w with active := false, batches := w.batches.map fun y => { y with stopped := false } },
           stream := b.stream.map fun x => { x with stopped := false } }

/-- A block's registers and stores are settled for a move: spilled registers are back, results have landed, the buffer is committed
(forced), and waits at `fence.far` on other blocks are withdrawn. -/
def settleBlock (s : State) (uid : Nat) : State :=
  match s.block? uid with
  | none => s
  | some b =>
    let s := b.weaves.foldl (fun s w => fillWeave s uid w.1) s
    let s := forcedCommit ((b.actors uid).foldl saveLand s) (.block uid)
    { s with blocks := mmap s.blocks fun _ y => { y with farStop := y.farStop.filter fun e => e.1 != uid } }

/-- A stopped block goes into its frame. -/
def finishSave (s : State) (uid frame why : Nat) : State :=
  let s := settleBlock s uid
  match s.block? uid with
  | none => s
  | some b =>
    let (s, msgs) := takeMsgs s uid b.core
    let f : Frame := { save := s.saves, ctx := b.ctx, saved := true, touched := false, cells := [], block := some (b.packed msgs), uid, why }
    unplace { s with frames := mput s.frames frame f, saves := s.saves + 1 } uid

/-- The die controller reports the result of its command (R370). -/
def dcDone (s : State) (d res : Nat) : State := s.updDie d fun x => { x with dcbusy := none, dcres := res }

/-- The controller of a die is busy with a command. -/
def State.dcBusy (s : State) (d : Nat) : Option (Nat × Nat × Nat) := (s.die d).dcbusy

/-- The save of a core into a frame goes on: a save command begins, helpers that a block has recruited since are asked to release, or a block that is
stopped is saved (R226, R369, R370). -/
def saveStep (s : State) (c frame : Nat) : Option State :=
  let d := coreDie c
  match s.blocks.find? fun b => b.2.core = c && (b.2.saving.map Prod.fst) == some frame with
  | some (uid, b) =>
    if b.unasked then some (askAll s uid b)
    else if !saveReady s uid b then none
    else
      let why := (b.saving.map Prod.snd).getD 0
      let s := finishSave s uid frame why
      some (if why = 0 then dcDone s d 0 else s)
  | none =>
    match s.dcBusy d with
    | some (1, i, a) =>
      if i ≠ coreIdx c || a ≠ frame then none
      else match saveVictim s c with
        | none => some (dcDone s d 1)
        | some (uid, b) =>
          if !(((s.ctx? b.ctx).map fun x => x.ownsFrame frame).getD false) || frameClaimed s frame then some (dcDone s d 3)
          else if saveHeld s b then none
          else some (beginSave s uid frame 0)
    | _ => none

def execSave (core frame : Nat) (s : State) : Out := event "SAVE" (saveStep s core frame)

/-! ### Restoring (R173, R273, R369) -/

/-- A saved binding is established again after a move, or is lost; a `bwait` that waits on it tests the fresh value (R268, R273). -/
def rebind (s : State) (a : Actor) (n : Nat) (y : Binding) : State :=
  let lost (s : State) : State := s.updFib a fun f => { f with blost := true }
  match translate s a.uid (s.coreOf a) (s.ctxOf a.uid) y.va .rw with
  | (s, .trap _) => lost s
  | (s, .ok pa) =>
    if panelEnd ≤ pa || s.poisoned pa y.size then lost s
    else match bindShare s a with
      | none => lost s
      | some rest =>
        let v := y.extend (s.phys pa y.size)
        let s := s.updFib a fun f =>
          { f with regs := mput f.regs n (.live v), binds := mput f.binds n { y with pa, rest, pending := none, poison := false } }
        let s := bindTouch (readBy s a.uid (s.coreOf a) pa) pa
        match a with
        | .fib uid w sl => s.updWeave uid w fun x => x.latch sl n v
        | .seq _ => s

/-- The bindings of a block, with their fibres and registers. -/
def Block.bindings (uid : Nat) (b : Block) : List (Actor × Nat × Binding) :=
  b.weaves.flatMap fun w => w.2.fibres.flatMap fun f => f.2.binds.map fun e => (.fib uid w.1 f.1, e)

/-- No binding of a block is established. -/
def Block.unbound (b : Block) : Block :=
  { b with weaves := mmap b.weaves fun _ w => { w with fibres := mmap w.fibres fun _ f => { f with binds := [] } } }

/-- Every saved binding of a block is established again, in order: none of them holds a table entry before its turn (R273). -/
def rebindAll (s : State) (uid : Nat) : State :=
  match s.block? uid with
  | none => s
  | some b => (b.bindings uid).foldl (fun s e => rebind s e.1 e.2.1 e.2.2) (s.updBlock uid Block.unbound)

/-- The weaves of a block take slots of a core: the lowest free ones, or the landing slot. -/
def seatWeaves (s : State) (c : Nat) (landing : Bool) (ws : Map Weave) : Map Weave :=
  let free := freeWslots s c
  let act := activeOn s c
  (ws.zip (upto ws.length)).map fun e =>
    (e.1.1, { e.1.2 with core := c, wslot := if landing then 32 else nth free e.2, active := act + e.2 < 8, lastMove := s.clock, lastIssue := s.clock, arrived := s.clock })

/-- A moved block stands on core c: weave and local slots, macros from its kernel's table, the nodes that wait to be launched, bindings, its messages,
its place in the trees. -/
def seatBlock (s : State) (uid c : Nat) (landing : Bool) (b : Block) : State :=
  let macs := ((s.launch? b.ctx b.lid).map Launch.macs).getD []
  let s := loadMacros s c b.hdrVA b.hdr b.ctx macs
  let b' := { b with core := c, landing, msgs := [], placedAt := s.clock, slots := takeSlots s c b.localSlots, weaves := seatWeaves s c landing b.weaves }
  let s := { s with blocks := mput s.blocks uid b'.relaunchNodes }
  let s := s.updCore c fun x => { x with inq := x.inq ++ b.msgs }
  comeBack (rebindAll s uid) uid b

/-- A saved block fits on a core: as a new block, with a slot for every weave (R173). -/
def fitsSaved (s : State) (b : Block) (c : Nat) : Bool := fits s b.ctx b.hdrVA b.hdr c && b.weaves.length ≤ (freeWslots s c).length

/-- A saved block leaves its frame for a core, which is a placement of its launch on the die (R172, R175); a release that is on its way to the die arrives
first (R400). -/
def restoreOn (s : State) (frame c : Nat) (f : Frame) (b : Block) : State :=
  seatBlock ({ s with frames := mput s.frames frame { f with saved := false, block := none } }.notePlace b.ctx b.lid c) f.uid c false b

/-- A saved block that fails its frame's check, whose bytes have been written since the save, or that finds no core is killed with its gang instance;
the record's ADDR is the frame (R364, R369, R371). -/
def failFrame (s : State) (frame : Nat) (b : Block) : State := relaunchSaved s b.core b 0x14 (ofNat64 frame) 0

/-- A saved block may be restored on a core: it fits there, and its masks permit it, but for a block that its core's retirement moves (R173, R370). -/
def mayRestore (s : State) (why : Nat) (b : Block) (c : Nat) : Bool :=
  fitsSaved s b c && (why = 2 || (match s.launch? b.ctx b.lid with | some l => permits l b.idx c | none => true))

/-- The core onto which the dispatcher's rule restores a block on a die; a retired block stays in its cluster where it can (R370). -/
def restoreCore (s : State) (d why : Nat) (b : Block) : Option Nat :=
  let l := (dieCores d).filter (mayRestore s why b)
  if why = 2 then
    match bestCore s (l.filter fun c => domInst 2 c = domInst 2 b.core) with
    | some c => some c
    | none => bestCore s l
  else bestCore s l

/-- The release of a round is under way to the die for a tree of the block (R400). -/
def releaseDue (s : State) (d : Nat) (b : Block) : Bool :=
  [false, true].any fun t => inTree s b t && decide (((s.die d).seg t).rounds < (s.root t).rounds)

/-- The result of a restore in DCSTAT: a command of its own ends with it; a retirement goes on, and keeps the result of a failure (R370, R371). -/
def restoreResult (s : State) (d n : Nat) (cmd : Bool) : State :=
  if cmd then dcDone s d n else if n = 0 then s else s.updDie d fun x => { x with dcres := n }

/-- A restore of a frame on a die: onto a core index, or onto the core that R173 chooses (511). `cmd` says that DCCMD asked for it; a block under
retirement that cannot be restored is killed (R371). -/
def restoreFrame (s : State) (d i frame : Nat) (cmd : Bool) : Option State :=
  let res (s : State) (n : Nat) : State := restoreResult s d n cmd
  match mget s.frames frame with
  | none => some (res s 1)
  | some f =>
    match f.saved, f.block with
    | true, some b =>
      if cmd && !(((s.ctx? f.ctx).map fun x => x.ownsFrame frame).getD false) then some (res s 3)
      else if releaseDue s d b then none
      else if f.touched then some (res (failFrame s frame b) 4)
      else
        let why := if cmd then 0 else f.why
        let c := if i = 511 then restoreCore s d why b else if i < 320 && mayRestore s why b (320 * d + i) then some (320 * d + i) else none
        match c with
        | none => some (res (if cmd then s else failFrame s frame b) 2)
        | some c => some (res (restoreOn s frame c f b) 0)
    | true, none => some (res s (if f.touched then 4 else 1))
    | false, _ => some (res s 1)

/-- A frame of a block that is retired from a die awaits its restore. -/
def retiring (s : State) (d : Nat) : Option Nat :=
  (s.frames.find? fun f => f.2.saved && f.2.why = 2 && f.2.block.any fun b => coreDie b.core = d).map Prod.fst

/-- RESTORE by the controller of a die (R369, R370): a command, or a block of a core under retirement. -/
def restoreStep (s : State) (d i frame : Nat) : Option State :=
  match s.dcBusy d with
  | some (2, j, a) =>
    if j ≠ i || a ≠ frame then none
    else if (mget s.frames frame).isNone && !(s.ctxs.any fun x => x.2.ownsFrame frame) then some (dcDone s d 3)
    else restoreFrame s d i frame true
  | some (3, _, _) => if i = 511 && retiring s d == some frame then restoreFrame s d 511 frame false else none
  | _ => none

def execRestore (die core frame : Nat) (s : State) : Out := event "RESTORE" (restoreStep s die core frame)

/-! ### Retirement (R370, R371, R401) -/

/-- The bits of a core in both trees of sr.tmask. -/
def setMask (s : State) (c : Nat) (v : Bool) : State :=
  let i := coreIdx c
  let one : Word := 1#64 <<< (i % 64)
  let put (m : Map Word) (t : Nat) : Map Word :=
    let k := 5 * t + i / 64
    let w := (mget m k).getD 0
    mput m k (if v then w ||| one else w &&& ~~~one)
  s.updDie (coreDie c) fun x => { x with tmask := put (put x.tmask 0) 1 }

/-- The blocks of a core begin to be saved into free frames; one whose context has no free frame is killed with its gang instance, and DCSTAT
reports it (R364, R371). -/
def retireBlocks (s : State) (c : Nat) : State :=
  s.blocks.foldl (fun s b =>
    if b.2.core ≠ c || b.2.saving.isSome || saveHeld s b.2 then s
    else match freeFrames s b.2.ctx with
      | f :: _ => beginSave s b.1 f 2
      | [] => if (s.block? b.1).isNone then s else restoreResult (relaunchSaved s c b.2 0x14 0 0) (coreDie c) 3 false) s

/-- RETIRE goes on: the core takes no placement any more and its blocks begin to be saved; once none is left and none awaits its restore, the core
is excused from the trees (R401) and the command is done. -/
def retireStep (s : State) (c : Nat) : Option State :=
  let d := coreDie c
  match s.dcBusy d with
  | some (3, i, _) =>
    if i ≠ coreIdx c then none
    else
      let here := s.blocks.any fun b => b.2.core = c
      if !(s.core c).retired then
        some ((retireBlocks (s.updDie d fun x => { x with dcres := 0 }) c).updCore c fun x => { x with retired := true })
      else if s.blocks.any fun b => b.2.core = c && b.2.saving.isNone && !saveHeld s b.2 then some (retireBlocks s c)
      else if !here && (retiring s d).isNone then some (dcDone (setMask s c true) d (s.die d).dcres)
      else none
  | _ => none

def execRetire (core : Nat) (s : State) : Out := event "RETIRE" (retireStep s core)

/-- The events that a core reported bar it from no launch any more (R363). -/
def unbar (s : State) (c : Nat) : State :=
  { s with ctxs := mmap s.ctxs fun _ x => { x with launches := x.launches.map fun l => { l with barred := l.barred.filter fun e => e.2 ≠ c } } }

/-- A core returns to service: its tree bits are cleared, and it takes blocks again (R370, R401). -/
def returnStep (s : State) (c : Nat) : Option State :=
  let d := coreDie c
  match s.dcBusy d with
  | some (4, i, _) =>
    if i ≠ coreIdx c then none
    else some (dcDone ((unbar (setMask s c false) c).updCore c fun x => { x with retired := false }) d 0)
  | _ => none

def execReturnToService (core : Nat) (s : State) : Out := event "RETURN_TO_SERVICE" (returnStep s core)

end Sys2Proof.Machine
end

