-- ==== Sys2Proof/Machine/DieEvents.lean ====
section
/-! DEFINITION. The die controller: its registers, invalidations, die reset, re-homing and slice retirement (R246, R254, R274, R370, R402 to
R407, R422 to R424, R436). -/
namespace Sys2Proof.Machine

/-! ### Register writes (R5, R370, R402, R422 to R424, R436) -/

/-- The event that a DCCMD write makes due, with the index or slice it names; none for a code without a command. -/
def dcCommand (d : Nat) (v arg : Word) : Option (Nat × Instr) :=
  let i := fld v 16 9
  let c := 320 * d + i
  match v.toNat % 256 with
  | 1 => some (i, .save c arg.toNat)
  | 2 => some (i, .restore d i arg.toNat)
  | 3 => some (i, .retire c)
  | 4 => some (i, .returnToService c)
  | 8 => some (0, .dieReset d)
  | 9 => some (0, .dieReturn d)
  | 10 => some (fld v 16 5, .sliceRetire d (fld v 16 5))
  | _ => none

/-- A write of DCCMD: the controller takes a command while it is not busy. A core index from 320 up names no core: a save reports result 1,
a retirement or a return does nothing. -/
def writeDccmd (s : State) (d : Nat) (v : Word) : State :=
  let x := s.die d
  match x.dcbusy, dcCommand d v x.dcarg with
  | none, some (i, e) =>
    if v.toNat % 256 ≠ 2 && v.toNat % 256 < 8 && 320 ≤ i then
      (if v.toNat % 256 = 1 then dcDone s d 1 else s)
    else (s.updDie d fun x => { x with dcbusy := some (v.toNat % 256, i, x.dcarg.toNat) }).post e
  | _, _ => s

/-- Fields that a 1 in any of their bits clears. -/
def clearedBy (v : Word) (lo len n : Nat) : Nat := if fld v lo len = 0 then n else 0

/-- A write of a channel status register. -/
def clearChan (s : State) (k : Nat) (v : Word) : State :=
  let c := s.chan k
  { s with chans := mput s.chans k ⟨clearedBy v 16 32 c.corr, clearedBy v 48 16 c.uncorr, c.ovf && !v.getLsbD 0⟩ }

/-- The invalidation that a value of INVAL names. -/
def invalOf (d : Nat) (v : Word) : Instr := .invalidation d (fld v 48 16) (fld v 12 36) (v.getLsbD 0)

/-- A write of INVAL; GO starts the invalidation. -/
def writeInval (s : State) (d : Nat) (v : Word) : State :=
  let s := s.updDie d fun x => { x with inval := v &&& 0xFFFFFFFFFFFFF001 }
  if v.getLsbD 1 then (s.updDie d fun x => { x with invalBusy := true }).post (invalOf d v) else s

/-- A 32-bit field in bits [63:32] after a write that clears the bits it writes as 1 (R5). -/
def clearHigh (v : Word) (n : Nat) : Nat := (BitVec.ofNat 32 n &&& ~~~(v.extractLsb' 32 32)).toNat

/-- A write of a region register. -/
def writeRegion (s : State) (r off : Nat) (v : Word) : State :=
  s.updRegion r fun x =>
    if off = 0x5000 then { x with limitNext := v.toNat % 65536 }
    else if off = 0x5008 then { x with defer := clearHigh v x.defer }
    else if off = 0x5010 then { x with alarms := clearHigh v x.alarms }
    else { x with holdcapNext := v.toNat % 65536 }

/-- A write of the 8-byte register at an offset of a die's window. -/
def writeReg (s : State) (d off : Nat) (v : Word) : State :=
  if off = 0 then writeDccmd s d v
  else if off = 0x08 then s.updDie d fun x => { x with dcarg := v }
  else if off = 0x20 then s.updDie d fun x => { x with drtime := v.toNat % 2 ^ 32 }
  else if off = 0x30 then s.updDie d fun x => { x with slthr := v.toNat % 65536 }
  else if off = 0x40 then writeInval s d v
  else if 0x4000 ≤ off && off < 0x4100 then
    (if s.homesChan d ((off - 0x4000) / 8) then clearChan s (32 * d + (off - 0x4000) / 8) v else s)
  else if 0x4100 ≤ off && off < 0x4200 then
    match (s.die d).adopted[(off - 0x4100) / 64]? with
    | some (h, g) => clearChan s (32 * h + 8 * g + (off - 0x4100) / 8 % 8) v
    | none => s
  else if off = 0x4300 then s.updDie d fun x => { x with chthr := v.toNat % 2 ^ 32 }
  else if 0x5000 ≤ off && off < 0x5020 && regionDie (regionOf d) = d then writeRegion s (regionOf d) off v
  else s

def execRegisterWrite (die off : Nat) (v : Word) (s : State) : Out :=
  event "REGISTER_WRITE" (if die < 128 && off % 8 = 0 && off < winSize then some (writeReg s die off v) else none)

/-! ### Invalidation (R253, R274, R436) -/

/-- A translation that an invalidation drops. -/
def tlbNamed (ctx page : Nat) (all : Bool) (t : Tlb) : Bool :=
  t.ctx = ctx && (all || (t.va % 2 ^ 48 ≤ page * 4096 && page * 4096 < t.va % 2 ^ 48 + t.size))

/-- A fibre's bindings on a page become plain live registers with their values, and LOST is set. -/
def Fibre.unbindPage (f : Fibre) (page : Nat) (all : Bool) : Fibre :=
  let hit (b : Binding) : Bool := all || b.va.toNat / 4096 % 2 ^ 36 = page
  if f.binds.any fun e => hit e.2 then { f with binds := f.binds.filter fun e => !hit e.2, blost := true } else f

/-- The TLBs of a die drop a page of a context, and the bindings on it there are converted. -/
def dropPage (s : State) (d ctx page : Nat) (all : Bool) : State :=
  let keep (l : List Tlb) : List Tlb := l.filter fun t => !tlbNamed ctx page all t
  let s := s.updDie d fun x => { x with tlb := keep x.tlb }
  let cores := mmap s.cores fun c x => if coreDie c = d then { x with utlb := keep x.utlb } else x
  let blocks := mmap s.blocks fun _ b =>
    if b.ctx ≠ ctx || coreDie b.core ≠ d then b
    else { b with weaves := mmap b.weaves fun _ w => { w with fibres := mmap w.fibres fun _ f => f.unbindPage page all } }
  { s with cores, blocks }

/-- An invalidation completes on a die. -/
def invalidate (s : State) (d ctx page : Nat) (all : Bool) : Option State :=
  let x := s.die d
  if !x.invalBusy || fld x.inval 48 16 ≠ ctx || fld x.inval 12 36 ≠ page || x.inval.getLsbD 0 != all then none
  else some ((dropPage s d ctx page all).updDie d fun x => { x with invalBusy := false })

def execInvalidation (die ctx page : Nat) (all : Bool) (s : State) : Out := event "INVALIDATION" (invalidate s die ctx page all)

/-! ### Re-homing (R15, R406) -/

/-- The site of the stack whose channels a die homes in the group of one side. -/
def stackSite (d g : Nat) : Nat × Nat :=
  let c := dieCol d
  let r := dieRow d
  match g with
  | 0 => if 0 < r then (c, r - 1) else (c + 1, 0)
  | 1 => if c < 15 then (c + 1, r) else (15, r - 1)
  | 2 => if r < 15 then (c, r + 1) else (c - 1, 15)
  | _ => if 0 < c then (c - 1, r) else (0, r + 1)

/-- The compute dies beside a site, in rising order. -/
def diesBeside (c r : Nat) : List Nat :=
  let die (c r : Nat) : Nat := 8 * r + c / 2
  (if 0 < r then [die c (r - 1)] else []) ++ (if 0 < c then [die (c - 1) r] else []) ++ (if c < 15 then [die (c + 1) r] else [])
    ++ (if r < 15 then [die c (r + 1)] else [])

/-- The die that adopts a channel group of die `own` from die d: the lowest compute neighbour of its stack other than d. A neighbour that has been
reset homes no memory until the panel is next reset (R403), so one that has not comes before it (log 55). -/
def adopter (s : State) (d own g : Nat) : Option Nat :=
  let (c, r) := stackSite own g
  let l := (diesBeside c r).filter fun e => e != d
  match l.filter fun e => (s.die e).drstate < 3 with
  | e :: _ => some e
  | [] => l.head?

/-- The channel groups that a die homes. -/
def homedGroups (s : State) (d : Nat) : List (Nat × Nat) :=
  ((upto 4).map fun g => (d, g)).filter (fun e => !s.dies.any fun x => x.1 != d && x.2.adopted.contains e) ++ (s.die d).adopted

/-- One channel group passes to its adopter. -/
def rehome (s : State) (d : Nat) (e : Nat × Nat) : State :=
  match adopter s d e.1 e.2 with
  | some a =>
    (s.updDie d fun x => { x with adopted := x.adopted.filter fun y => y != e }).updDie a fun x =>
      { x with adopted := if e.1 = a then x.adopted else x.adopted ++ [e] }
  | none => s

/-- Every zone that a die homed, under R15 or as an adopter, starts afresh at its new home: degree 0, no holder, its floor and ceiling kept, its windows
those of the new home. No line that the die homed, which `was` says, keeps a replica or its readers: the new directory has no entry for them (R237). -/
def freshZones (s : State) (was : Nat → Bool) : State :=
  { s with
    zones := mmap s.zones fun z x =>
      if was (z * 0x200000) then { Zone.reset with tag := x.tag, floor := x.floor, ceil := x.ceil, deg := 0, reviewed := s.window z } else x
    replicas := s.replicas.filter fun r => !was r.2
    sharers := s.sharers.filter fun r => !was r.2.1 }

/-! ### Die reset (R402 to R405) -/

/-- Lines that the L1s of a die hold dirty. -/
def dirtyL1 (s : State) (d : Nat) : List Nat :=
  sortNat (s.cores.flatMap fun c => if coreDie c.1 = d then (c.2.l1.filter fun l => l.2 = .m).map Prod.fst else [])

/-- Lines whose only dirty copy lies on a die: in one of its L1s, or in its home slices while no cache elsewhere holds a newer one (R403). -/
def dirtyOn (s : State) (d : Nat) : List Nat :=
  sortNat (dirtyL1 s d ++ s.homeDirty.filter fun l => s.homeDie l = d && !dirtyIn s l fun _ => true)

/-- A block of a die under reset is relaunched or killed with its instance; no record is written, since no event is raised. -/
def evictBlock (s : State) (uid : Nat) : State :=
  match s.block? uid with
  | none => s
  | some b =>
    let is := gangIndices s b
    let open_ := is.all fun i => match blockOf s b.ctx b.lid i with | some e => e.2.wopen && e.2.relaunches < 3 | none => false
    let uids := is.filterMap fun i => (blockOf s b.ctx b.lid i).map Prod.fst
    if open_ then uids.foldl (fun s u => relaunchOne s b.core u) s else killSaved (uids.foldl killOne s) b.ctx b.lid is

/-- The blocks resident on a die. -/
def blocksOn (s : State) (d : Nat) : List (Nat × Block) := s.blocks.filter fun b => coreDie b.2.core = d

/-- The messages that wait in the queues of a die's cores are dropped and counted (R390, R404). -/
def dropQueues (s : State) (d : Nat) : State :=
  let l := s.cores.flatMap fun c => if coreDie c.1 = d then c.2.inq else []
  let s := l.foldl (fun s m => countDropped s m.sender) s
  { s with cores := mmap s.cores fun c x => if coreDie c = d then { x with inq := [] } else x }

/-- The die's caches are gone, and the homes forget it. -/
def dropCaches (s : State) (d : Nat) : State :=
  { s with cores := mmap s.cores fun c x => if coreDie c = d then { x with l1 := [], utlb := [], icache := [], misses := [] } else x
           homeLines := s.homeLines.filter fun r => r.1 != d
           homeDirty := s.homeDirty.filter fun l => s.homeDie l != d
           replicas := s.replicas.filter fun r => r.1 != d
           sharers := s.sharers.filter fun r => r.1 != d && r.2.2 != d
           zones := mmap s.zones fun _ x => { x with holders := x.holders.filter fun h => h != d } }

/-- The die after its reset: its registers at their reset values but for those that a reset leaves, state 3. -/
def resetDie (x : Die) : Die :=
  { Die.reset with tmask := x.tmask, seg0 := x.seg0, seg1 := x.seg1, drpois := x.drpois, drforced := x.drforced, drstate := 3 }

/-- The fence is complete: the die has written its dirty lines back to their homes, or after a forced drain the lines whose only dirty copy lay on it
are poisoned; its caches are gone, state 2. -/
def fenceDie (s : State) (d : Nat) (forced : Bool) : State :=
  let bad := if forced then dirtyOn s d else []
  let s := if forced then bad.foldl poisonLine s else (dirtyL1 s d).foldl toHome s
  let s := dropCaches (dropQueues s d) d
  s.updDie d fun x => { x with drpois := bad.length, drforced := forced, drstate := 2 }

/-- The lines that a die homes of which some L1 holds a copy. -/
def cachedLines (s : State) (d : Nat) : List Nat :=
  sortNat (s.cores.flatMap fun c => (c.2.l1.map Prod.fst).filter fun l => s.homeDie l = d)

/-- A fenced die's channels pass on, and it is reset: state 3. The directories of the new homes take up every copy that the L1s of other dies hold
(R237). -/
def rehomeDie (s : State) (d : Nat) : State :=
  let t := (homedGroups s d).foldl (fun s e => rehome s d e) { s with homeLines := s.homeLines.filter fun r => r.1 != d }
  (cachedLines s d).foldl homeTouch ((freshZones t fun l => s.homeDie l = d).updDie d resetDie)

/-- DIE_RESET goes on: placing stops and the blocks are asked to stop; once they stand they are relaunched or killed; once none is left the
drain ends and the die is fenced, then re-homed and reset. -/
def resetStep (s : State) (d : Nat) : Option State :=
  match s.dcBusy d with
  | some (8, _, _) =>
    if (s.die d).drstate = 2 then some (rehomeDie s d)
    else if (s.die d).drstate ≠ 1 then
      let s := s.updDie d fun x => { x with drstate := 1, drainAt := s.time, drforced := false, drpois := 0 }
      some ((blocksOn s d).foldl (fun s b => b.2.weaves.foldl (fun s w => (askRelease s b.1 w.1).getD s) (s.updBlock b.1 fun b => { b with stop := true })) s)
    else if !(blocksOn s d).all fun b => blockStopped s b.1 then none
    else if !(blocksOn s d).isEmpty then some ((blocksOn s d).foldl (fun s b => evictBlock s b.1) s)
    else some (fenceDie s d false)
  | _ => none

def execDieReset (die : Nat) (s : State) : Out := event "DIE_RESET" (resetStep s die)

/-- The drain deadline of a reset in ticks: DRTIME microseconds, 0 read as 1. -/
def Die.drainTicks (x : Die) : Nat := 600 * max 1 x.drtime

/-- The deadline of a drain passes first: the fence is complete all the same (R403). -/
def expireDrain (s : State) (d : Nat) : Option State :=
  let x := s.die d
  if x.drstate ≠ 1 || s.time < x.drainAt + x.drainTicks then none
  else some (fenceDie ((blocksOn s d).foldl (fun s b => evictBlock s b.1) s) d true)

def execDrainDeadline (die : Nat) (s : State) : Out := event "DRAIN_DEADLINE" (expireDrain s die)

/-- A reset die places blocks again (R402, R403). -/
def returnDie (s : State) (d : Nat) : Option State :=
  match s.dcBusy d with
  | some (9, _, _) => some (dcDone (s.updDie d fun x => { x with drstate := if x.drstate = 3 then 4 else x.drstate }) d 0)
  | _ => none

def execDieReturn (die : Nat) (s : State) : Out := event "DIE_RETURN" (returnDie s die)

/-! ### Slice retirement (R407) -/

/-- Buckets that slice s holds in a table. -/
def bucketsOf (t : Map Nat) (n : Nat) : Nat := ((upto 256).filter fun b => sliceOf t b = n).length

/-- The live slices of a kind: home slices 0 to 15, replica slices 16 to 31. -/
def liveSlices (x : Die) (rep : Bool) : List Nat := (upto 16).filter fun n => !x.slret.getLsbD (if rep then 16 + n else n)

/-- The slice with the fewest buckets, the lower index on a tie. -/
def fewest (t : Map Nat) : List Nat → Option Nat
  | [] => none
  | n :: r => match fewest t r with
    | none => some n
    | some m => if bucketsOf t n ≤ bucketsOf t m then some n else some m

/-- The buckets of a slice pass, in ascending order, each to the live slice that then holds the fewest. -/
def moveBuckets (t : Map Nat) (live : List Nat) (n : Nat) : Map Nat :=
  ((upto 256).filter fun b => sliceOf t b = n).foldl (fun t b =>
    match fewest t live with
    | some m => if m = b % 16 then mdel t b else mput t b m
    | none => t) t

/-- The lines of a list that a slice of a die holds. -/
def heldBy (t : Map Nat) (d n : Nat) (l : List (Nat × Nat)) : List (Nat × Nat) := l.filter fun e => e.1 = d && (slicePlace t e.2).1 = n

/-- A slice is retired unless it is the last live one of its kind: its buckets pass on. A home slice writes back its dirty lines, and its entries move
with their buckets, into sets that evict where they are full; a replica slice drops its replicas (R237, R239, R407). -/
def retireSlice (s : State) (d n : Nat) : State :=
  let x := s.die d
  let rep := decide (16 ≤ n)
  let live := (liveSlices x rep).filter fun m => m != n % 16
  let out := x.slret ||| (1#32 <<< n)
  if x.slret.getLsbD n || live.isEmpty then s
  else if rep then
    let gone := heldBy x.replB d (n % 16) s.replicas
    { s with replicas := s.replicas.filter fun e => !gone.contains e }.updDie d fun x =>
      { x with slret := out, replB := moveBuckets x.replB live (n % 16) }
  else
    let moved := heldBy x.homeB d (n % 16) s.homeLines
    let t := { s with homeLines := s.homeLines.filter fun e => !moved.contains e
                      homeDirty := s.homeDirty.filter fun l => !moved.contains (d, l) }.updDie d fun x =>
      { x with slret := out, homeB := moveBuckets x.homeB live (n % 16) }
    moved.reverse.foldl (fun s e => homeTouch s e.2) t

/-- The count of a slice has passed its threshold and it can be retired. -/
def sliceWorn (s : State) (d n : Nat) : Bool :=
  let x := s.die d
  n < 32 && x.slthr < mcount x.slcerr n && !x.slret.getLsbD n && 1 < (liveSlices x (decide (16 ≤ n))).length

/-- The die controller logs that the count of a kind's last live slice crosses the threshold; the entry's fields are open. -/
def logCrossing (s : State) (d : Nat) : State :=
  let v := (Config.freeWord s.fresh).toNat
  let w := (Config.freeWord (s.fresh + 1)).toNat
  logError { s with fresh := s.fresh + 2 } d ⟨v, w % 2 ^ 16, w / 2 ^ 16 % 2 ^ 16, w / 2 ^ 32⟩

/-- A corrected error of a live slice is counted (R402; log 56). Once the count has passed SLTHR the slice is retired, or, the last live one of its
kind, its crossing of the threshold is logged. -/
def sliceErrors (s : State) (d n : Nat) : Option State :=
  if 128 ≤ d || (s.die d).slret.getLsbD n then none
  else if sliceWorn s d n then some (retireSlice s d n)
  else
    let c := mcount (s.die d).slcerr n
    let s := s.updDie d fun x => { x with slcerr := mput x.slcerr n (satTo (2 ^ 64 - 1) (c + 1)) }
    some (if sliceWorn s d n then retireSlice s d n
      else if c ≤ (s.die d).slthr && (s.die d).slthr < c + 1 then logCrossing s d else s)

/-- SLICE_RETIRE: a command names the slice, or a corrected error of the slice is found, which retires it past the threshold. -/
def sliceStep (s : State) (d n : Nat) : Option State :=
  if 32 ≤ n then none
  else match s.dcBusy d with
    | some (10, m, _) => if m = n then some (dcDone (retireSlice s d n) d 0) else sliceErrors s d n
    | _ => sliceErrors s d n

def execSliceRetire (die n : Nat) (s : State) : Out := event "SLICE_RETIRE" (sliceStep s die n)

end Sys2Proof.Machine
end

