-- ==== Sys2Proof/Machine/Matrix.lean ====
section
/-! DEFINITION. The bit-serial matrix array: `mm mm.clr mm.ld mm.rd`, their limits at issue and what each does as it completes
(spec 16, 04, 11). -/
namespace Sys2Proof.Machine

/-! ### The configuration word (R329, R330, R332, R333) -/

/-- The format of a code. -/
def mmFmt : Nat → Option CpFmt
  | 1 => some .hs4
  | 2 => some .hs6
  | 3 => some .i8
  | 4 => some .b9
  | _ => none

/-- The configuration of an `mm`. -/
structure MmConf where
  fa : CpFmt
  fb : CpFmt
  qa : Nat
  qb : Nat
  k128 : Nat
  deriving DecidableEq, Repr

/-- The pair of formats is admitted (R330). -/
def pairOk (ia : Bool) (a b : CpFmt) : Bool :=
  if ia then (a = .i8 && b = .i8) || ((a = .hs4 || a = .hs6) && (b = .hs4 || b = .hs6))
  else a != .i8 && b != .i8

/-- Reduced service admits the format (R329). -/
def reducedOk (f : CpFmt) : Bool := f = .hs4 || f = .i8

/-- The configuration that a word gives, none for a configuration error. -/
def mmConf (ia reduced : Bool) (w : Word) : Option MmConf :=
  match mmFmt (fld w 0 3), mmFmt (fld w 8 3) with
  | some fa, some fb =>
    let pa := (chunkShape fa).1
    let pb := (chunkShape fb).1
    let qa := fld w 4 4
    let qb := fld w 12 4
    let k128 := fld w 16 8
    if pa < qa || pb < qb || fld w 3 1 != 0 || fld w 11 1 != 0 || fld w 24 40 != 0 || k128 = 0 || !pairOk ia fa fb
        || (reduced && !(reducedOk fa && reducedOk fb)) then none
    else some { fa, fb, qa := if qa = 0 then pa else qa, qb := if qb = 0 then pb else qb, k128 }
  | _, _ => none

/-- Limits of `mm`: its configuration, then its spans (R333). -/
def mmLimit (reduced : Bool) (abuf bbuf : BitVec 4) (aoff boff : BitVec 12) (ia : Bool) (b : Block) (ra _rb _rc : Word) : Option (BitVec 8) :=
  match mmConf ia reduced ra with
  | none => some 0x18
  | some c => limitIf (16 * aoff.toNat + c.k128 * chunkBytes c.fa ≤ b.bufSize abuf.toNat
      && 16 * boff.toNat + c.k128 * chunkBytes c.fb ≤ b.bufSize bbuf.toNat)

def execMm (e : EForm) (abuf bbuf : BitVec 4) (aoff boff : BitVec 12) (tile : BitVec 2) (ow tri ia : Bool) (s : State) : Out :=
  issue (.mm e abuf bbuf aoff boff tile ow tri ia) s
    (command (.mm e abuf bbuf aoff boff tile ow tri ia) e.a e.b e.c e.bar (mmLimit (s.service.mode = 1) abuf bbuf aoff boff ia))

def execMmClr (g : Guard) (bar : Option (BitVec 4)) (tile : BitVec 2) (s : State) : Out :=
  issue (.mmClr g bar tile) s (command (.mmClr g bar tile) 0 0 0 bar fun _ _ _ _ => none)

/-- A span of a tile in a buffer (R338, R339). -/
def tileLimit (buf : BitVec 4) (off : BitVec 12) (narrow : Bool) (b : Block) (_ra _rb _rc : Word) : Option (BitVec 8) :=
  limitIf (16 * off.toNat + (if narrow then 2048 else 4096) ≤ b.bufSize buf.toNat)

def execMmLd (g : Guard) (bar : Option (BitVec 4)) (sb : BitVec 4) (tile : BitVec 2) (lk : Bool) (soff : BitVec 12) (s : State) : Out :=
  issue (.mmLd g bar sb tile lk soff) s (command (.mmLd g bar sb tile lk soff) 0 0 0 bar (tileLimit sb soff lk))

def execMmRd (g : Guard) (bar : Option (BitVec 4)) (db : BitVec 4) (keep : Bool) (tile : BitVec 2) (sk : RdSrc) (ofmt : RdOut) (doff : BitVec 12)
    (s : State) : Out :=
  issue (.mmRd g bar db keep tile sk ofmt doff) s
    (command (.mmRd g bar db keep tile sk ofmt doff) 0 0 0 bar (tileLimit db doff (ofmt = .bf16)))

/-! ### Tiles (R233, R331) -/

def tileKey (t i j : Nat) : Nat := 1024 * t + 32 * i + j
def Block.entry (b : Block) (t i j : Nat) : Nat := ((mget b.tiles (tileKey t i j)).getD 0).toNat

/-- The tiles with tile t replaced by a list of entries in row order; zeros are not listed. -/
def putTile (m : Map (BitVec 32)) (t : Nat) (l : List Nat) : Map (BitVec 32) :=
  let below := m.filter fun e => e.1 < 1024 * t
  let above := m.filter fun e => 1024 * (t + 1) ≤ e.1
  below ++ ((l.zip (upto l.length)).filterMap fun e => if e.1 % 2 ^ 32 = 0 then none else some (1024 * t + e.2, BitVec.ofNat 32 e.1)) ++ above

/-! ### Operands in planes (R88, R232, R329) -/

/-- One operand: its bytes from its start, its format, the planes read. -/
structure Operand where
  bytes : Array Byte
  fmt : CpFmt
  q : Nat

def Operand.byte (o : Operand) (a : Nat) : Nat := (o.bytes[a]?.getD 0).toNat

/-- The code of element (i, k), lower planes read as 0. -/
def Operand.code (o : Operand) (i k : Nat) : Nat :=
  let p := (chunkShape o.fmt).1
  let base := k / 128 * chunkBytes o.fmt + 16 * i + k % 128 / 8
  packElems 1 ((upto p).map fun n => if n < p - o.q then 0 else codeBit (o.byte (base + 512 * n)) (k % 8))

/-- The element integer (R88, R329). -/
def Operand.elem (o : Operand) (i k : Nat) : Int :=
  let c := toI true (chunkShape o.fmt).1 (o.code i k)
  match o.fmt with
  | .hs4 | .hs6 => 2 * c + 1
  | _ => c

/-- The scale or block-exponent byte of row i for block b; none where the format has none. -/
def Operand.scale (o : Operand) (i b : Nat) : Option Nat :=
  if (chunkShape o.fmt).2 = 0 then none
  else some (o.byte (b / 4 * chunkBytes o.fmt + 512 * (chunkShape o.fmt).1 + 4 * i + b % 4))

/-- Subtracted from the byte to give the block exponent x (R88). -/
def expBias (f : CpFmt) : Int := if f = .b9 then 134 else 128

/-- The sum of block b for element (i, j). -/
def blockSum (x y : Operand) (i j b : Nat) : Int :=
  ((upto 32).map fun n => x.elem i (32 * b + n) * y.elem j (32 * b + n)).foldl (· + ·) 0

/-- One step of R92 in f32. -/
def stepF32 (x y : Operand) (i j b : Nat) (acc : Nat) : Nat :=
  let ea := (x.scale i b).getD 0
  let eb := (y.scale j b).getD 0
  if ea = 255 || eb = 255 then fmtF32.nan
  else
    let v := blockSum x y i j b
    let r := (fmtF32.round .rne (decide (v < 0)) v.natAbs ((ea : Int) - expBias x.fmt + (eb - expBias y.fmt)) false).1
    (fpAdd fmtF32 .rne acc r).1

/-- One step of R92 in integers, wrapping. -/
def stepInt (x y : Operand) (i j b : Nat) (acc : Nat) : Nat := ofI 32 ((acc : Int) + blockSum x y i j b)

/-- An element is masked (R334). -/
def maskedAt (tri : Bool) (rb : Word) (i j : Nat) : Bool :=
  let d := (BitVec.ofNat 16 rb.toNat).toInt
  tri && decide (d < ((fld rb 40 24 + j : Nat) : Int) - ((fld rb 16 24 + i : Nat) : Int))

/-- Granules that are not wholly masked (R335). -/
def granules (tri : Bool) (rb : Word) : Nat :=
  ((upto 16).filter fun n => !maskedAt tri rb (8 * (n / 4) + 7) (8 * (n % 4))).length

/-- The cycles of an `mm` (R336, R341). -/
def mmCycles (c : MmConf) (g : Nat) (chk : Bool) : Nat := 4 + (c.k128 * c.qa * c.qb * g + 15) / 16 + (if chk then 2 else 0)

/-- An element after an `mm` (R334). -/
def mmElem (x y : Operand) (k128 : Nat) (ow ia : Bool) (old i j : Nat) : Nat :=
  (upto (4 * k128)).foldl (fun acc b => if ia then stepInt x y i j b acc else stepF32 x y i j b acc) (if ow then 0 else old)

/-- The check of R341 on the K blocks still to come: retries, the free-value counter, and whether a second mismatch stopped the command. -/
def checkBlocks : (n fresh retries : Nat) → Nat × Nat × Bool
  | 0, f, r => (f, r, false)
  | n + 1, f, r =>
    if !Config.arrayMismatch f then checkBlocks n (f + 1) r
    else if Config.arrayMismatch (f + 1) then (f + 2, r + 1, true)
    else checkBlocks n (f + 2) (r + 1)

/-! ### Reading out (R339) -/

/-- One entry as `mm.rd` writes it, and whether a conversion to bf16 overflowed. -/
def readOut (sk : RdSrc) (ofmt : RdOut) (x : Nat) : Nat × Bool :=
  let v := toI true 32 x
  let e : Int := if sk = .q then -2 else 0
  let conv (f : Fmt) : Nat := (f.round .rne (decide (v < 0)) v.natAbs e false).1
  match sk, ofmt with
  | .f, .f32 => (x, false)
  | .f, .bf16 => let r := fpConv fmtF32 fmtBF16 .rne x; (r.1, r.2 &&& FFlags.ov != 0)
  | .f, .s32 => ((fpToInt fmtF32 true 32 .rne x).1, false)
  | .i, .s32 => (x, false)
  | .q, .s32 =>
    let r := (roundAt .rne (decide (v < 0)) v.natAbs (-2) 0 false).1
    (ofI 32 (if v < 0 then -(r : Int) else r), false)
  | _, .f32 => (conv fmtF32, false)
  | _, .bf16 => (conv fmtBF16, false)

/-- The width of an output entry in bytes. -/
def outBytes (ofmt : RdOut) : Nat := if ofmt = .bf16 then 2 else 4

/-! ### Completing array commands -/

/-- The operand bytes of an `mm` in the run that its name resolved to at the start. -/
def mmOperand (b : Block) (r : Running) (n off : Nat) (fmt : CpFmt) (q k128 : Nat) : Operand :=
  { bytes := (lsBytes b (1024 * nth r.srcs n + 16 * off) (k128 * chunkBytes fmt)).toArray, fmt, q }

/-- The NaN and infinity that an f32 entry shows. -/
def isNanF32 (x : Nat) : Bool := (fmtF32.decode x).isNaN
def isInfF32 (x : Nat) : Bool := match fmtF32.decode x with | .inf _ => true | _ => false

/-- An `mm` completes: its tile and sr.mstat, or inner cause 0x16 with the retries counted; where no granule is computed there is nothing to check (R334,
R341, R342). -/
def mmWork (s : State) (uid : Nat) (r : Running) (abuf bbuf : Nat × Nat) (tile : Nat) (ow tri ia : Bool) : Engined Unit :=
  match s.block? uid, mmConf ia false r.cmd.ra with
  | some b, some c =>
    let checks := if b.chk && granules tri r.cmd.rb != 0 then 4 * c.k128 else 0
    let (fresh, retries, stop) := checkBlocks checks s.fresh 0
    let s := { s with fresh }.updBlock uid fun b => { b with mRetry := satTo 255 (b.mRetry + retries) }
    if stop then (s, .error 0x16)
    else
      let x := mmOperand b r 0 abuf.2 c.fa c.qa c.k128
      let y := mmOperand b r 1 bbuf.2 c.fb c.qb c.k128
      let masked (n : Nat) : Bool := maskedAt tri r.cmd.rb (n / 32) (n % 32)
      let l := (upto 1024).map fun n =>
        if masked n then fld r.cmd.rc 0 32 else mmElem x y c.k128 ow ia (b.entry tile (n / 32) (n % 32)) (n / 32) (n % 32)
      let some_ (p : Nat → Bool) : Bool := !ia && (l.zip (upto 1024)).any fun e => !masked e.2 && p e.1
      (s.updBlock uid fun b =>
        { b with tiles := putTile b.tiles tile l, mLast := satTo 65535 r.cycles, mNan := b.mNan || some_ isNanF32,
                 mInf := b.mInf || some_ isInfF32 }, .ok ())
  | _, _ => (s, .ok ())

/-- The work of an array command. -/
def arrayWork (s : State) (uid : Nat) (r : Running) : Engined Unit :=
  match r.cmd.ins, s.block? uid with
  | .mm _ ab bb ao bo tile ow tri ia, _ => mmWork s uid r (ab.toNat, ao.toNat) (bb.toNat, bo.toNat) tile.toNat ow tri ia
  | .mmClr _ _ tile, _ => (s.updBlock uid fun b => { b with tiles := putTile b.tiles tile.toNat [] }, .ok ())
  | .mmLd _ _ _ tile lk soff, some b =>
    let w := if lk then 2 else 4
    let l := (upto 1024).map fun n =>
      let x := ofBytes (lsBytes b (1024 * nth r.srcs 0 + 16 * soff.toNat + w * n) w)
      if lk then (fpConv fmtBF16 fmtF32 .rne x).1 else x
    (s.updBlock uid fun b => { b with tiles := putTile b.tiles tile.toNat l }, .ok ())
  | .mmRd _ _ _ _ tile sk ofmt doff, some b =>
    let l := (upto 1024).map fun n => readOut sk ofmt (b.entry tile.toNat (n / 32) (n % 32))
    let s := writeRun s r (16 * doff.toNat) (l.flatMap fun e => toBytes (outBytes ofmt) e.1)
    ((publish s r).updBlock uid fun b => { b with mInf := b.mInf || l.any Prod.snd }, .ok ())
  | _, _ => (s, .ok ())

end Sys2Proof.Machine
end

