-- ==== Sys2Proof/Machine/Queue.lean ====
section
/-! DEFINITION. The queues SQ and FQ: `qpush qpop spush spop` (spec 09, 15). -/
namespace Sys2Proof.Machine

/-- Slots of each queue (R205). -/
def queueSlots : Nat := 64

/-- The block has a stream that has not ended. -/
def Block.streamLives (b : Block) : Bool := match b.stream with | some x => x.state != .ended | none => false
/-- Some fibre of the block has not ended. -/
def Block.fibresLive (b : Block) : Bool := b.weaves.any fun w => !w.2.fibres.isEmpty

/-! ### Waiting operations take effect whole, in the order in which they become satisfiable and then in issue order (R205) -/

/-- A queue operation that waits: its stamp, and the weave and batch, or none for the stream. -/
abbrev Waiter := Nat × Option (Nat × Nat)

/-- The stamp of a waiting operation that can take effect; `fib` says that it is a fibre's. -/
def canServe (b : Block) (fib : Bool) (q : Wait) : Option Nat :=
  match q with
  | .qpush false t vals _ => if vals.length + (if fib then b.fq else b.sq).length ≤ queueSlots then some t else none
  | .qpop false t _ _ n _ _ => if n ≤ (if fib then b.sq else b.fq).length then some t else none
  | _ => none

/-- The satisfiable waiters of a block. -/
def waiters (b : Block) : List Waiter :=
  (b.weaves.flatMap fun w => (upto w.2.batches.length).filterMap fun i =>
    match w.2.batches[i]? with
    | some y => (match y.state with
        | .wait q => (canServe b true q).map fun t => (t, some (w.1, i))
        | _ => none)
    | none => none)
  ++ (match b.stream with
      | some x => (match x.state with
          | .wait q => (match canServe b false q with | some t => [(t, none)] | none => [])
          | _ => [])
      | none => [])

/-- The first of some waiters. -/
def firstWaiter : List Waiter → Option Waiter
  | [] => none
  | h :: r => match firstWaiter r with
    | none => some h
    | some k => if h.1 ≤ k.1 then some h else some k

/-- A waiting operation as performed: the queues FQ and SQ, and its wait with the elements. -/
def perform (fq sq : List Word) (fib : Bool) (q : Wait) : List Word × List Word × Wait :=
  match q with
  | .qpush _ t vals p => if fib then (fq ++ vals, sq, .qpush true t vals p) else (fq, sq ++ vals, .qpush true t vals p)
  | .qpop _ t _ p n own bad =>
    if fib then (fq, sq.drop n, .qpop true t (sq.take n) p n own bad) else (fq.drop n, sq, .qpop true t (fq.take n) p n own bad)
  | q => (fq, sq, q)

/-- The participants of a pop that removes its elements now observe, but for its register D, whose result is still to land; a poisoned value gives its
trap as the batch goes on (R206, R260, R275). -/
def Wait.observe (q : Wait) (x : Weave) : Wait × Weave :=
  match q with
  | .qpop ok t v part n own _ =>
    let look (f : Fibre) : Fibre × Option Word := f.refresh false own.toList
    (.qpop ok t v part n own (part.filterMap fun sl => ((mget x.fibres sl).bind fun f => (look f).2).map fun va => (sl, va)),
     { x with fibres := mmap x.fibres fun sl f => if part.contains sl then (look f).1 else f })
  | _ => (q, x)

/-- Performs the first satisfiable waiter of a block and wakes it. -/
def serveOne (b : Block) : Option Block :=
  match firstWaiter (waiters b) with
  | none => none
  | some (_, some (w, i)) =>
    match mget b.weaves w with
    | none => none
    | some x =>
      match x.batches[i]? with
      | none => none
      | some y =>
        match y.state with
        | .wait q =>
          let (fq, sq, q) := perform b.fq b.sq true q
          let (q, x) := q.observe x
          some { b with fq, sq, weaves := mput b.weaves w ({ x with batches := x.batches.set i { y with state := .wait q } }.wake i) }
        | _ => none
  | some (_, none) =>
    match b.stream with
    | some x =>
      (match x.state with
        | .wait q =>
          let (fq, sq, q) := perform b.fq b.sq false q
          some { b with fq, sq, stream := some { x with state := .woke q } }
        | _ => none)
    | none => none

/-- Serves waiters until none is satisfiable. -/
def serveAll : (fuel : Nat) → Block → Block
  | 0, b => b
  | k + 1, b => match serveOne b with
    | some b => serveAll k b
    | none => b

/-- The queues of a block have changed. -/
def serveQueues (s : State) (uid : Nat) : State := s.updBlock uid fun b => serveAll 2048 b

/-! ### Completion -/

/-- The values of a completed pop land in the participants' registers under R31, a uniform register's with the highest participant (R50); a pop of a fibre is an observation point, which one that has waited
has passed when its elements were removed: `waited` holds the poisoned values that it met then (R206, R275). -/
def popLand (i : Instr) (k : Iss) (waited : Option (List (Nat × Word))) (s : State) (d : Dst) (part : List Actor) (vals : List Word) : Done :=
  let (s, id) := s.openOp k.uid k.weave (k.markOf i)
  let top := part.getLast?
  let s := if d.uni then
      part.foldl (fun s a => s.addPend a (mkPend k id (k.markOf i) (if some a != top then .none else landDst a d) (vals.headD 0) 0 none)) s
    else (part.zip vals).foldl (fun s e => s.addPend e.1 (mkPend k id (k.markOf i) (landDst e.1 d) e.2 0 none)) s
  match waited with
  | some bad => { st := s, traps := part.filterMap fun a => (bad.find? fun e => e.1 = a.slot).map fun e => k.trapNext a 0x0A e.2 0 }
  | none =>
    let r := refreshAll { k with acts := part } s false
    { st := r.1, traps := r.2 }

/-- A blocking operation that can never be satisfied raises trap 0x11 (R207, R307). -/
def queueTrap (k : Iss) (s : State) : Done := { st := s, traps := k.acts.map fun a => k.trapHere a 0x11 0 0 }

/-- A push of the issuing side: `fib` chooses FQ, else SQ; `lives` says that the other side can still make room. One that has to wait holds the values
of A as it issued, and A is used as it completes (R205 leaves both open; log 89). -/
def doPush (k : Iss) (f : AForm) (nb fib : Bool) (s : State) : Done :=
  match s.block? k.uid with
  | none => { st := s }
  | some b =>
    let vals := if f.a.uni then (k.acts.getLast?.map fun a => s.src a f.a).toList else k.acts.map fun a => s.src a f.a
    let done (s : State) : State := k.acts.foldl (fun t a => t.releaseAll a [f.a]) (s.noteAll k.pc k.acts [f.a])
    let out (s : State) (v : Bool) : State := if nb then k.acts.foldl (fun t a => t.writeP a f.d.num.toNat v) s else s
    let lives := if fib then b.streamLives else b.fibresLive
    let q := if fib then b.fq else b.sq
    if b.hdr.seqEntry = 0 then (if nb then { st := out (done s) false } else queueTrap k s)
    else if vals.length + q.length ≤ queueSlots then
      let s := s.updBlock k.uid fun b => if fib then { b with fq := b.fq ++ vals } else { b with sq := b.sq ++ vals }
      { st := serveQueues (out (done s) true) k.uid }
    else if nb then { st := out (done s) false }
    else if !lives then queueTrap k s
    else
      let (s, t) := s.stamp
      { st := s, how := .wait (.qpush false t vals (k.acts.map Actor.slot)) }

/-- A pop of the issuing side: `fib` chooses SQ, else FQ. -/
def doPop (i : Instr) (k : Iss) (f : AForm) (nb fib : Bool) (s : State) : Done :=
  match s.block? k.uid with
  | none => { st := s }
  | some b =>
    let n := if f.d.uni then 1 else k.acts.length
    let out (s : State) (v : Bool) : State := if nb then k.acts.foldl (fun t a => t.writeP a f.c.num.toNat v) s else s
    let lives := if fib then b.streamLives else b.fibresLive
    let q := if fib then b.sq else b.fq
    if b.hdr.seqEntry = 0 then (if nb then { st := out s false } else queueTrap k s)
    else if n ≤ q.length then
      let s := s.updBlock k.uid fun b => if fib then { b with sq := b.sq.drop n } else { b with fq := b.fq.drop n }
      let d := popLand i k none (out s true) f.d k.acts (q.take n)
      { d with st := serveQueues d.st k.uid }
    else if nb then { st := out s false }
    else if !lives then queueTrap k s
    else
      let (s, t) := s.stamp
      { st := s, how := .wait (.qpop false t [] (k.acts.map Actor.slot) n (if f.d.uni then none else some f.d.num.toNat) []) }

/-- A push that waited. -/
def pushed (k : Iss) (f : AForm) (nb fib ok : Bool) (s : State) : Done :=
  if ok then { st := k.acts.foldl (fun t a => t.releaseAll a [f.a]) (s.noteAll k.pc k.acts [f.a]) } else doPush k f nb fib s

/-- A pop that waited. -/
def popped (i : Instr) (k : Iss) (f : AForm) (nb fib ok : Bool) (vals : List Word) (bad : List (Nat × Word)) (s : State) : Done :=
  if ok then popLand i k (some bad) s f.d k.acts vals else doPop i k f nb fib s

/-! ### The meanings -/

def execQpush (f : AForm) (nb : Bool) (s : State) : Out :=
  issue (.qpush f nb) s fun k s => match k.woke with
    | some (.qpush ok _ _ _) => pushed k f nb true ok s
    | _ => doPush k f nb true s

def execQpop (f : AForm) (nb : Bool) (s : State) : Out :=
  issue (.qpop f nb) s fun k s => match k.woke with
    | some (.qpop ok _ v _ _ _ bad) => popped (.qpop f nb) k f nb true ok v bad s
    | _ => doPop (.qpop f nb) k f nb true s

def execSpush (f : AForm) (nb : Bool) (s : State) : Out :=
  issue (.spush f nb) s fun k s => match k.woke with
    | some (.qpush ok _ _ _) => pushed k f nb false ok s
    | _ => doPush k f nb false s

def execSpop (f : AForm) (nb : Bool) (s : State) : Out :=
  issue (.spop f nb) s fun k s => match k.woke with
    | some (.qpop ok _ v _ _ _ bad) => popped (.spop f nb) k f nb false ok v bad s
    | _ => doPop (.spop f nb) k f nb false s

end Sys2Proof.Machine
end

