-- ==== Sys2Proof/Machine/EngineEvents.lean ====
section
/-! DEFINITION. What the engines do on their own: a command starts, completes or fails, a long-latency operation completes, a stream
ends (spec 15, 16, 03). -/
namespace Sys2Proof.Machine

/-! ### Starting (R311, R314, R317 to R320) -/

/-- The block that a `cp.peer` of a context names on a core: resident, or saved while it was there (R319). -/
def peerTarget (s : State) (ctx core : Nat) : Option (Nat × Block) :=
  match s.blocks.find? fun e => e.2.core = core && e.2.hdr.seqEntry != 0 && e.2.ctx = ctx with
  | some e => some e
  | none => s.frames.findSome? fun f => match f.2.saved, f.2.block with
    | true, some y => if y.core = core && y.hdr.seqEntry != 0 && y.ctx = ctx then some (f.2.uid, y) else none
    | _, _ => none

/-- The core that a `cp.peer` names. -/
def peerCore (c : Cmd) : Nat := c.ra.toNat % 2 ^ 16

/-- The block whose buffer a command writes; none when there is no such block, or its die is under reset (R319, R404). -/
def destBlock (s : State) (uid : Nat) (b : Block) (c : Cmd) : Option (Nat × Block) :=
  match c.ins with
  | .cpPeer .. => if coreDown s (peerCore c) then none else peerTarget s b.ctx (peerCore c)
  | _ => some (uid, b)

/-- A `cp.peer` is answered with an error completion, a packet of its own (R384, R386, R404; log 71). -/
def peerRefused (s : State) (uid : Nat) : State := lateDelivery s uid (s.coreOf (.seq uid)) 1

/-- The end of the bytes that a `cp.peer` writes in the target's buffer. -/
def peerEnd (c : Cmd) : Nat := match c.ins with | .cpPeer _ _ _ _ toff _ _ => 16 * toff.toNat + c.rb.toNat | _ => 0

/-- Takes the shadow run of a destination in its block t, resident or saved, and fills it as KEEP says, or the inner cause of a command error (R314,
R319). -/
def takeRun (s : State) (t : Block) (r : Running) (n : Nat) (keep : Bool) : Except (BitVec 8) (State × Running) :=
  if t.slotsOf n = 0 || t.bufSize n < peerEnd r.cmd then .error 0x12
  else match shadowRun s r.target t (t.slotsOf n) with
    | none => .error 0x12
    | some lo =>
      .ok (s.updAnywhere r.target fun b =>
            { b with lstore := openRun b.lstore (1024 * b.startOf n) (1024 * lo) (1024 * b.slotsOf n) keep },
           { r with run := some (n, lo) })

/-- Cycles of an `mm`. -/
def cyclesOf (b : Block) (c : Cmd) : Nat :=
  match c.ins with
  | .mm _ _ _ _ _ _ _ tri ia => (match mmConf ia false c.ra with | some m => mmCycles m (granules tri c.rb) b.chk | none => 0)
  | _ => 0

/-- The command as it runs: its sources resolved now. -/
def runningOf (b : Block) (c : Cmd) (target : Nat) : Running :=
  { cmd := c, srcs := c.ins.reads.map b.startOf, reads := c.ins.reads.flatMap fun n => slotRun (b.startOf n) (b.slotsOf n), target,
    run := none, cycles := cyclesOf b c }

/-- The running commands of an engine. -/
def Block.runningOn (b : Block) (e : Engine) : Nat := (b.running.filter fun r => r.cmd.ins.engine = e).length

/-- The oldest ready command of an engine, and the block without it. -/
def Block.takeReady (b : Block) (e : Engine) : Option (Cmd × Block) :=
  match e with
  | .copy => (match b.cpReady with | c :: r => some (c, { b with cpReady := r }) | [] => none)
  | .array => (match b.mmReady with | c :: r => some (c, { b with mmReady := r }) | [] => none)

/-- A command that has started joins the running ones; an error of its start is raised at once. -/
def beginRun (s : State) (uid : Nat) (r : Running) (err : Option (BitVec 8)) : State :=
  let s := wakeEngines (s.updBlock uid fun b => { b with running := b.running ++ [r] }) uid r.target
  match err with
  | some e => s.post (.commandError uid r.cmd.id e)
  | none => s

/-- The start of a ready command whose target, number and block, is known. -/
def startOn (s : State) (uid : Nat) (b : Block) (c : Cmd) (target : Nat) (t : Block) : State :=
  let r := runningOf b c target
  match c.ins.writes with
  | none =>
    match resolvePair s uid c with
    | (s, .ok c) => beginRun s uid { r with cmd := c } none
    | (s, .error e) => beginRun s uid r (some e)
  | some (n, keep) =>
    match takeRun s t r n keep with
    | .ok (s, r) => beginRun s uid r none
    | .error e => beginRun s uid r (some e)

/-- The engine of a block starts its oldest ready command, when it has a place and no started command writes the same buffer. -/
def startCmd (s : State) (uid : Nat) (e : Engine) : Option State :=
  match s.block? uid with
  | none => none
  | some b =>
    if (match e with | .copy => 4 | .array => 1) ≤ b.runningOn e then none
    else match b.takeReady e with
      | none => none
      | some (c, b') =>
        match destBlock s uid b c with
        | none => some (beginRun (peerRefused (s.setBlock uid b') uid) uid (runningOf b c 0) (some 0x13))
        | some (t, y) =>
          if (match c.ins.writes with | some (n, _) => writing s t n | none => false) then none
          else some (startOn (s.setBlock uid b') uid b' c t y)

def execCommandStart (uid : Nat) (e : Engine) (s : State) : Out := event "COMMAND_START" (startCmd s uid e)

/-! ### Completing (R295, R312, R319) -/

/-- The running command of a block with a number. -/
def State.running? (s : State) (uid id : Nat) : Option Running :=
  (s.block? uid).bind fun b => b.running.find? fun r => r.cmd.id = id

/-- A started command met an error as it started: it holds no run for its destination, or no region for its pair, and awaits its error (R313). -/
def Running.broken (r : Running) : Bool :=
  (r.cmd.ins.writes.isSome && r.run.isNone) || (match r.cmd.ins with | .cpOut _ _ pair _ _ => pair | _ => false)

/-- A command can make its writes: a `cp.peer` waits while its target is saved, and one whose target is gone, or was last on a die that is under
reset, is in error (R311, R319, R404). -/
def peerReady (s : State) (r : Running) : Option (Except (BitVec 8) Unit) :=
  match r.cmd.ins with
  | .cpPeer .. =>
    match s.block? r.target, savedBlock s r.target with
    | some b, _ => if coreDown s b.core then some (.error 0x13) else some (.ok ())
    | none, some b => if coreDown s b.core then some (.error 0x13) else none
    | none, none => some (.error 0x13)
  | _ => some (.ok ())

/-- The work of a command and its end. -/
def finishCmd (s : State) (uid : Nat) (r : Running) : Engined Unit :=
  match r.cmd.ins.engine with
  | .array => arrayWork s uid r
  | .copy => match copyWork s uid r with
    | (s, .ok _) => copyEnd s uid r
    | x => x

/-- A running command completes, or its error is raised. -/
def completeCmd (s : State) (uid id : Nat) : Option State :=
  match s.running? uid id with
  | none => none
  | some r =>
    if r.broken then none
    else match peerReady s r with
      | none => none
      | some (.error e) => some ((peerRefused s uid).post (.commandError uid id e))
      | some (.ok _) =>
        match finishCmd s uid r with
        | (s, .ok _) => some (retireCmd s uid r)
        | (s, .error e) => some (s.post (.commandError uid id e))

def execCommandCompletion (uid cmd : Nat) (s : State) : Out := event "COMMAND_COMPLETION" (completeCmd s uid cmd)

/-- A running command stops with an error (R313). -/
def execCommandError (uid cmd : Nat) (inner : BitVec 8) (s : State) : Out :=
  event "COMMAND_ERROR" ((s.running? uid cmd).map fun r => failCmd s uid r inner)

/-! ### Operations and streams -/

/-- A long-latency operation completes (R28). -/
def execOperationCompletion (uid op : Nat) (s : State) : Out :=
  event "OPERATION_COMPLETION" (if ((s.block? uid).bind fun b => mget b.ops op).isSome then some (completeOp s uid op) else none)

/-- The stream ends once its outstanding results have landed; fibres that wait at the queues find so (R207, R306). A command error that it had still to
raise has no instruction before which to raise it, and ends the block (R313). -/
def endStream (s : State) (uid : Nat) : Option State :=
  match s.stream? uid with
  | none => none
  | some x =>
    if !x.ending || x.state == .ended then none
    else
      let s := (flush s (.seq uid)).1.updStream uid fun x => { x with state := .ended, ending := false, capture := none, cmdErr := [] }
      match x.cmdErr with
      | (inner, pc) :: _ => some (endedError s uid inner pc)
      | [] => some (tryEnd (wakeIf s uid fun q => match q with | .qpush .. | .qpop .. => true | _ => false) uid)

def execSeqctlEnd (uid : Nat) (s : State) : Out := event "SEQCTL_END" (endStream s uid)

end Sys2Proof.Machine
end

