-- ==== Sys2Proof/Machine/Tree.lean ====
section
/-! DEFINITION. The chive tree: `tarr` and `twait`, reports, notices, completed rounds and their release (R396 to R401). -/
namespace Sys2Proof.Machine

/-! ### `tarr` and `twait` (R396, R398, R399) -/

/-- The issuing block holds the tree; otherwise every participant traps 0x05. -/
def treeTraps (k : Iss) (s : State) (tree : Bool) : List Trp :=
  match s.block? k.uid with
  | some b => if inTree s b tree then [] else k.acts.map fun a => k.trapHere a 0x05 0 0
  | none => []

/-- The rounds of the tree as the issuing block's die has seen them. -/
def roundsHere (s : State) (uid : Nat) (tree : Bool) : Nat :=
  match s.block? uid with
  | some b => roundsAt s b.ctx (coreDie b.core) tree
  | none => 0

/-- A block arrives in the current round. -/
def markArrived (s : State) (uid : Nat) (tree : Bool) : State :=
  s.updBlock uid fun b => if tree then { b with arr1 := true } else { b with arr0 := true }

/-- `tarr` acts once for its batch: it commits and releases, the block arrives, and D receives the round. -/
def execTarr (f : AForm) (rd tree : Bool) (s : State) : Out :=
  issue (.tarr f rd tree) s fun k s =>
    match treeTraps k s tree with
    | t :: r => { st := s, traps := t :: r }
    | [] =>
      if k.acts.isEmpty then { st := s }
      else
        let s := markArrived (commitBuf s (.block k.uid)) k.uid tree
        let n := ofNat64 (roundsHere s k.uid tree)
        { st := if rd then k.acts.foldl (fun s a => s.writeD a f.d n) s else s }

/-- Every token of a `twait` is satisfied at a count of rounds. -/
def roundsPass (rounds : Nat) (toks : List (Nat × Nat)) : Bool := toks.all fun t => tokenDone (BitVec.ofNat 32 rounds) t.2

def execTwait (f : AForm) (tree : Bool) (s : State) : Out :=
  issue (.twait f tree) s fun k s =>
    match k.woke with
    | some _ => barComplete k s
    | none =>
      match treeTraps k s tree with
      | t :: r => { st := s, traps := t :: r }
      | [] =>
        let toks := k.acts.map fun a => (a.slot, (s.src a f.a).toNat % 2 ^ 32)
        let s := s.consume k.pc k.acts [f.a]
        if roundsPass (roundsHere s k.uid tree) toks then barComplete k s else { st := s, how := .wait (.twait tree toks) }

/-! ### Notices (R397, R400) -/

/-- The member is being saved, is saved, or migrates. -/
def Block.migrating (b : Block) : Bool :=
  b.weaves.any fun w => w.2.batches.any fun y => match y.state with | .wait (.migrate _) => true | _ => false
def away (s : State) (uid : Nat) : Bool :=
  match s.block? uid with
  | some b => b.saving.isSome || b.migrating
  | none => s.frames.any fun f => f.2.saved && f.2.uid = uid && f.2.block.isSome

/-- The member that a number names, resident or saved. -/
def memberBlock (s : State) (uid : Nat) : Option Block :=
  match s.block? uid with
  | some b => some b
  | none => (s.frames.find? fun f => f.2.uid = uid && f.2.block.isSome).bind fun f => f.2.block

/-- An absence notice reaches the root. -/
def noteAbsent (s : State) (tree : Bool) (uid : Nat) : Option State :=
  match memberBlock s uid with
  | none => none
  | some b =>
    if inTree s b tree && away s uid && !(s.root tree).absent.contains uid then
      some (s.updRoot tree fun r => { r with absent := insertNat uid r.absent })
    else none

def execAbsenceNotice (tree : Bool) (uid : Nat) (s : State) : Out := event "ABSENCE_NOTICE" (noteAbsent s tree uid)

/-- A presence notice reaches the root, after the withdrawal that a member without an arrival causes. -/
def notePresent (s : State) (tree : Bool) (uid : Nat) : Option State :=
  match s.block? uid with
  | none => none
  | some b =>
    if away s uid || !(s.root tree).absent.contains uid then none
    else
      let s := s.updRoot tree fun r => { r with absent := r.absent.filter fun u => u != uid }
      some (if b.arrived tree then s else withdraw s (coreDie b.core) tree)

def execPresenceNotice (tree : Bool) (uid : Nat) (s : State) : Out := event "PRESENCE_NOTICE" (notePresent s tree uid)

/-! ### Rounds (R397, R400) -/

/-- The core is excused from one tree (R401). -/
def excusedFrom (s : State) (tree : Bool) (c : Nat) : Bool :=
  ((mget (s.die (coreDie c)).tmask (5 * bit tree + coreIdx c / 64)).getD 0).getLsbD (coreIdx c % 64)

/-- A resident member lets its die report: it has arrived, or it is absent without an arrival; an absent one with an arrival holds. -/
def memberReady (s : State) (tree : Bool) (uid : Nat) (b : Block) : Bool :=
  if away s uid then !b.arrived tree else b.arrived tree

/-- Every member on a die lets it report the round, and no member saved there carries an arrival. -/
def dieArrived (s : State) (tree : Bool) (d : Nat) : Bool :=
  (s.blocks.all fun b => coreDie b.2.core ≠ d || !inTree s b.2 tree || (excusedFrom s tree b.2.core && !away s b.1) || memberReady s tree b.1 b.2)
    && s.frames.all fun f => !f.2.saved || (match f.2.block with
        | some b => coreDie b.core ≠ d || !inTree s b tree || !b.arrived tree
        | none => true)

/-- A context holds the tree. -/
def treeHeld (s : State) (tree : Bool) : Bool := s.ctxs.any fun x => x.2.holdsTree tree

/-- A die segment reports the current round to the root. -/
def reportDie (s : State) (tree : Bool) (d : Nat) : Option State :=
  if !treeHeld s tree || 128 ≤ d || reportedHere s d tree || ((s.die d).seg tree).rounds ≠ (s.root tree).rounds || !dieArrived s tree d then none
  else some ((s.updSeg d tree fun x => { x with reported := true }).updRoot tree fun r => { r with seen := insertNat d r.seen })

def execTreeReport (tree : Bool) (die : Nat) (s : State) : Out := event "TREE_REPORT" (reportDie s tree die)

/-- The root completes a round once it has seen a report from every die and no member is absent. -/
def completeRound (s : State) (tree : Bool) : Option State :=
  let r := s.root tree
  if r.seen.length = 128 && r.absent.isEmpty then some (s.updRoot tree fun r => { r with rounds := r.rounds + 1, seen := [], doneAt := s.clock }) else none

def execRoundComplete (tree : Bool) (s : State) : Out := event "ROUND_COMPLETE" (completeRound s tree)

/-- The rounds whose release has reached a die. -/
def roundsSeen (s : State) (tree : Bool) (d : Nat) : Nat := ((s.die d).seg tree).rounds

/-- One step of a site coordinate towards another. -/
def toward (a b : Nat) : Nat := if a < b then a + 1 else a - 1

/-- The power regions of the sites, of stacks and of dies, that a packet from the site of a compute die enters on its route to another (R18, R378). -/
def routeRegions (c r c2 r2 : Nat) : (fuel : Nat) → List Nat
  | 0 => []
  | n + 1 =>
    if c = c2 && r = r2 then []
    else
      let (c1, r1) := if c = c2 then (c, toward r r2) else (toward c c2, r)
      let (c3, r3) := if 2 ≤ absDiff c c2 then (toward c1 c2, r) else (c1, toward r1 r2)
      siteRegion c1 r1 :: siteRegion c3 r3 :: routeRegions c3 r3 c2 r2 n

/-- A region on the route from the root, at die 60, to a die has been stretched since the latest round completed: the times of R400 do not hold there
(R426). -/
def stretchedTo (s : State) (tree : Bool) (d : Nat) : Bool :=
  (regionOf 60 :: routeRegions (dieCol 60) (dieRow 60) (dieCol d) (dieRow d) 16).any fun m =>
    (s.region m).stretch || 0 < (s.region m).slow s.clock (s.root tree).doneAt

/-- The release of a round has reached every die that lies nearer to die 60, where the root is: it takes 10 cycles for each crossing (R400, R417), but
longer by an open time where a region on its route is stretched (R426). -/
def releasedNearer (s : State) (tree : Bool) (d : Nat) : Bool :=
  (upto 128).all fun e => crossings d 60 ≤ crossings e 60 || roundsSeen s tree d < roundsSeen s tree e || stretchedTo s tree e

/-- The release of a round reaches a die: arrivals begin afresh, and the waits that it satisfies are woken. -/
def releaseRound (s : State) (tree : Bool) (d : Nat) : Option State :=
  if 128 ≤ d || (s.root tree).rounds ≤ roundsSeen s tree d || !releasedNearer s tree d then none
  else
    let s := s.updSeg d tree fun x => { reported := false, rounds := x.rounds + 1 }
    let mine := s.blocks.filter fun b => coreDie b.2.core = d && inTree s b.2 tree
    some (mine.foldl (fun s b =>
      let s := s.updBlock b.1 fun b => if tree then { b with arr1 := false } else { b with arr0 := false }
      let n := roundsHere s b.1 tree
      wakeIf s b.1 fun q => match q with | .twait t toks => t == tree && roundsPass n toks | _ => false) s)

def execTreeRelease (tree : Bool) (die : Nat) (s : State) : Out := event "TREE_RELEASE" (releaseRound s tree die)

end Sys2Proof.Machine
end

