-- ==== Sys2Proof/Machine/Messages.lean ====
section
/-! DEFINITION. Active messages: arrival at the target core, retries, and the start of handlers (R387 to R393). -/
namespace Sys2Proof.Machine

/-! ### Sending (R388, R389) -/

/-- A sending store that is held: its batch, what is left to send, the outcome predicate, the time of the latest refusal, its place among the sends, and
the time of the latest sending. -/
structure Sending where
  batch : Nat
  todo : List (Nat × Nat)
  pred : Option (BitVec 4)
  retry : Option Nat
  stamp : Nat
  sent : Nat
  deriving DecidableEq, Repr

/-- The batch of a weave that holds a sending store. -/
def sending (x : Weave) : Option Sending :=
  (upto x.batches.length).findSome? fun i =>
    match x.batches[i]? with
    | some b => (match b.state with | .wait (.send todo pred retry stamp sent) => some ⟨i, todo, pred, retry, stamp, sent⟩ | _ => none)
    | none => none

/-- The words 0 to n − 1 of an assembly buffer. -/
def asmWords (f : Fibre) (n : Nat) : List Word := (upto n).map fun i => (mget (f.asm.getD []) i).getD 0

/-- The deadline field of a message sent at a time: DCLS 00 the sender's deadline, 01 none, 10 the time itself (R384, R388). -/
def msgField (b : Block) (hd : Word) (sent : Nat) : Option Nat :=
  if fld hd 10 2 = 0 then fieldOf sent b.deadline else if fld hd 10 2 = 2 then some (sent / 64 % 2 ^ 16) else none

/-- The message of a fibre, sent at a time. -/
def msgOf (s : State) (uid w sl n sent : Nat) : Option Msg :=
  match s.block? uid, s.fibre? uid w sl with
  | some b, some f =>
    let words := asmWords f n
    some { src := s.coreOf (.fib uid w sl), sender := uid, ctx := b.ctx, idx := b.idx, record := b.record,
           field := msgField b (words.headD 0) sent, hdrVA := b.hdrVA, words }
  | _, _ => none

/-- The core that a message names. -/
def Msg.target (m : Msg) : Nat := fld (m.words.headD 0) 16 16



/-- An earlier sending store of the same core still has a message for a target core: it goes first (R392). -/
def sendsBefore (s : State) (c target stamp : Nat) : Bool :=
  s.blocks.any fun b => b.2.weaves.any fun w => w.2.core = c && (match sending w.2 with
    | some x => decide (x.stamp < stamp) && x.todo.any fun e => (msgOf s b.1 w.1 e.1 e.2 0).any fun m => m.target = target
    | none => false)

/-- How the next message of a held batch fares at its target core. -/
inductive Answer where
  | accepted (s : State)
  | refused

/-- A message is delivered now, or a packet that inherits its deadline (R384, R386). -/
def msgServed (s : State) (m : Msg) : State :=
  match m.field with
  | some f => latePacket s { ctx := m.ctx, idx := m.idx, core := m.src, record := m.record, field := f }
  | none => s

/-- The packets of one answer: the target core's, and a refused message itself, which is served with its refusal; for a die out of service the error
completion with which the network answers (R384, R386, R389, R404). -/
def answerPackets (s : State) (m : Msg) (refused : Bool) : State := if refused then msgServed (msgServed s m) m else msgServed s m

/-- The target core answers: it accepts while its queue has room; a message for a die out of service is dropped. -/
def offer (s : State) (m : Msg) : Answer :=
  if coreDown s m.target then .accepted (countDropped s m.sender)
  else if (s.core m.target).inq.length < 64 then .accepted (s.updCore m.target fun x => { x with inq := x.inq ++ [m] })
  else .refused

/-- The held batch has its next message answered: with nothing left it goes on. -/
def setSending (s : State) (uid w : Nat) (y : Sending) : State :=
  s.updWeave uid w fun x =>
    match x.batches[y.batch]? with
    | some b =>
      let x := { x with batches := x.batches.set y.batch { b with state := .wait (.send y.todo y.pred y.retry y.stamp y.sent) } }
      if y.todo.isEmpty then x.wake y.batch else x
    | none => x

/-- The outcome of an `.nb` store. -/
def sendOutcome (s : State) (uid w sl : Nat) (pred : Option (BitVec 4)) (v : Bool) : State :=
  match pred with
  | some n => s.writeP (.fib uid w sl) n.toNat v
  | none => s

/-- The next message of a weave's held batch reaches its target; `again` is a retry that is due (R389). -/
def deliver (s : State) (uid w : Nat) (again : Bool) : Option State :=
  match s.block? uid, (s.weave? uid w).bind sending with
  | some b, some y =>
    match y.todo with
    | [] => none
    | (sl, n) :: rest =>
      if (match y.retry with | some t => !again || s.ran (coreDie b.core) t < cycles 64 | none => again) then none
      else match msgOf s uid w sl n (if again then s.time else y.sent) with
        | none => none
        | some m =>
          if sendsBefore s m.src m.target y.stamp then none
          else match offer s m with
            | .accepted s =>
              let s := answerPackets s m false
              let s := (sendOutcome s uid w sl y.pred true).updFibre uid w sl fun f => { f with asm := none }
              some (setSending s uid w { y with todo := rest, retry := none })
            | .refused =>
              let s := answerPackets s m true
              if b.msg then
                let s := (sendOutcome s uid w sl y.pred false).updBlock uid fun b => { b with refused := satTo 65535 (b.refused + 1) }
                some (setSending s uid w { y with todo := rest, retry := none })
              else some (setSending s uid w { y with retry := some s.clock })
  | _, _ => none

def execMessageArrival (uid widx : Nat) (s : State) : Out := event "MESSAGE_ARRIVAL" (deliver s uid widx false)
def execMessageRetry (uid widx : Nat) (s : State) : Out := event "MESSAGE_RETRY" (deliver s uid widx true)

/-! ### Handlers (R390 to R392) -/

/-- Handler weaves on a core. -/
def handlersOn (s : State) (c : Nat) : Nat :=
  (s.blocks.map fun b => (b.2.weaves.filter fun w => w.2.core = c && w.2.kind == .handler).length).sum

/-- Registers of a handler fibre: the header with the sender's core id, then the message's words; words beyond the fibre registers are
dropped. -/
def handlerRegs (h : Hdr) (m : Msg) : Map WReg :=
  let hd := m.words.headD 0
  let w0 := (hd &&& 0x0000FFFFFFFFFFFF) ||| (ofNat64 (m.src % 65536) <<< 48)
  (((upto m.words.length).zip m.words).map fun e => (e.1, WReg.live (if e.1 = 0 then w0 else e.2))).filter fun e => e.1 < h.regs

/-- The handler of a message starts in a weave slot of its core, in the active set where it has room (log 84). -/
def startHandler (s : State) (c uid : Nat) (b : Block) (m : Msg) (n ws : Nat) : State :=
  let f := Fibre.start (.handler n) (2048 + n) (handlerRegs b.hdr m)
  let l := nonzero32 (b.seed ^^^ BitVec.ofNat 32 (32 * b.idx + 0x8000 + n))
  let x := Weave.start .handler c ws (activeOn s c < 8) l [(0, f)] (Batch.start [0] (entryPC b.hdrVA (nth b.hdr.handlers n))) s.clock
  (s.updCore c fun y => { y with inq := y.inq.drop 1 }).updBlock uid fun b =>
    { b with weaves := mput b.weaves (32 + ((upto 32).find? fun i => (mget b.weaves (32 + i)).isNone).getD 0) x, handled := satTo 65535 (b.handled + 1) }

/-- The message at the head of a core's queue is dropped, or starts its handler; it waits while its block is being saved or migrates, while eight
handlers run, for a weave slot, or for the registers of its words (R185). -/
def handleHead (s : State) (c : Nat) : Option State :=
  match (s.core c).inq with
  | [] => none
  | m :: _ =>
    let n := fld (m.words.headD 0) 12 4
    let drop := some (countDropped ((msgServed s m).updCore c fun y => { y with inq := y.inq.drop 1 }) m.sender)
    match msgTarget s c m with
    | none => drop
    | some (uid, b) =>
      if nth b.hdr.handlers n = 0 then drop
      else if away s uid || 8 ≤ handlersOn s c then none
      else match freeWslots s c with
        | [] => none
        | ws :: _ =>
          match relieve s uid none c (handlerRegs b.hdr m).length 64 with
          | (t, true) => some (startHandler (msgServed t m) c uid b m n ws)
          | (t, false) => if t.inbox.length = s.inbox.length then none else some t

def execHandlerStart (core : Nat) (s : State) : Out := event "HANDLER_START" (handleHead s core)

end Sys2Proof.Machine
end

