-- ==== Sys2Proof/Machine/Migrate.lean ====
section
/-! DEFINITION. Migration of a block to the die that homes its data (R394, R395). -/
namespace Sys2Proof.Machine

/-! ### Eligibility -/

/-- Every fibre of the block participates in this one batch, and no other weave of it runs. -/
def allJoin (k : Iss) (b : Block) : Bool :=
  b.weaves.all fun w => w.2.kind == .block && w.2.fibres.all fun f => k.acts.contains (.fib k.uid w.1 f.1)

/-- The levels of the launch bind the block to no place. -/
def Launch.loose (l : Launch) : Bool :=
  !l.flags.getLsbD 2 && (upto l.declared.length).all fun n => match l.levels[n]? with
    | some x => !x.gang && x.mask = 0 && (n ≤ 1 || 5 ≤ x.dom)
    | none => true

/-- The block itself may move. -/
def mayMove (k : Iss) (s : State) (b : Block) : Bool :=
  b.hdr.lstore = 0 && b.hdr.seqEntry = 0 && b.hdr.fibres ≤ 32 && allJoin k b
    && ((s.launch? b.ctx b.lid).map Launch.loose).getD false
    && b.weaves.all fun w => !trapPending w.2 && w.2.fibres.all fun f => f.2.pool.isNone && !f.2.isHelper

/-- The landing slot of a core is free, no block is on its way to it, and the core takes blocks (R161, R395, R397). -/
def landingFree (s : State) (c : Nat) : Bool :=
  !(s.core c).retired && !excused s c && s.blocks.all fun b => !(b.2.landing && b.2.core = c)
    && b.2.weaves.all fun w => w.2.batches.all fun y => match y.state with | .wait (.migrate d) => d != c | _ => true

/-- A core has a free landing slot and registers for n. -/
def landingRoom (s : State) (n c : Nat) : Bool := landingFree s c && n ≤ s.freeRegs c

/-- The die that a block at an address moves to: none when it may not move there. -/
def homeFor (s : State) (pa n : Nat) : Option Nat :=
  if panelEnd ≤ pa then none
  else
    let h := s.homeDie pa
    if diePlaces s h && (dieCores h).any (landingRoom s n) then some h else none

/-- The core of the home die: the one with this core's index if its landing slot is free, else the lowest with room. -/
def landingCore (s : State) (c h n : Nat) : Option Nat :=
  let same := 320 * h + coreIdx c
  if landingFree s same then some same else (dieCores h).find? (landingRoom s n)

/-! ### The instruction and the arrival -/

/-- The addresses of the participants, checked as a load's: the state, traps, and the physical address of each. -/
def moveAddrs (k : Iss) (s : State) (f : AForm) : State × List Trp × List (Word × Nat) :=
  k.acts.foldl (fun x a =>
    let va := x.1.src a f.a
    match translate x.1 k.uid (x.1.coreOf a) (x.1.ctxOf k.uid) va .load with
    | (s, .trap c) => (s, x.2.1 ++ [k.trapHere a c va 0], x.2.2)
    | (s, .ok pa) => (s, x.2.1, x.2.2 ++ [(va, pa)])) (s, [], [])

/-- pS of every participant. -/
def outcome (k : Iss) (s : State) (f : AForm) (v : Bool) : State := k.acts.foldl (fun s a => s.writeP a f.d.num.toNat v) s

/-- Every participant goes on after a move towards a core: with pS = 1, at an observation point, where no trap is raised (R275); with pS = 0 where the
block had to stay. -/
def moved (k : Iss) (s : State) (f : AForm) (c : Nat) : Done :=
  if (s.block? k.uid).any fun b => b.core = c then { st := k.acts.foldl (fun s a => (refresh s a true).1) (outcome k s f true) }
  else { st := outcome k s f false }

/-- The block leaves: its results land, its buffer commits, and it is absent from its trees, whose roots have the notices before it arrives. -/
def depart (k : Iss) (s : State) (b : Block) (c : Nat) : Done :=
  { st := (goAbsent (settleBlock s k.uid) k.uid b).post (.migrationArrival k.uid), how := .wait (.migrate c) }

/-- The block's stores or results would ask a home for a line, and its core has no free miss entry: the `migrate` waits at its point of issue (R248). -/
def departWaits (s : State) (uid : Nat) (b : Block) : Bool :=
  missesFull s b.core && (b.actors uid).any fun a => mustCommit s a || landsBound s a fun _ => true

/-- The decision of a `migrate` whose participants' addresses are all good. -/
def migrateBody (k : Iss) (s : State) (f : AForm) (addrs : List (Word × Nat)) : Done :=
  match s.block? k.uid, addrs with
  | some b, (va, pa) :: r =>
    let n := b.hdr.fibres * b.hdr.regs
    if !mayMove k s b || r.any fun e => e.1 != va then { st := outcome k s f false }
    else match homeFor s pa n with
      | none => { st := outcome k s f false }
      | some h =>
        if h = coreDie b.core then
          let r := refreshAll k (outcome k s f true) false
          { st := r.1, traps := r.2 }
        else match landingCore s b.core h n with
          | none => { st := outcome k s f false }
          | some c => if saveHeld s b || departWaits s k.uid b then { st := s, how := .stall } else depart k s b c
  | _, _ => { st := s }

def execMigrate (f : AForm) (s : State) : Out :=
  issue (.migrate f) s fun k s =>
    match k.woke with
    | some (.migrate c) => moved k s f c
    | _ =>
      let s0 := s
      let (s, ts, addrs) := moveAddrs k (s.noteAll k.pc k.acts [f.a]) f
      if ts.isEmpty then
        let d := migrateBody k s f addrs
        match d.how with
        | .stall => { st := s0, how := .stall }
        | _ => { d with st := k.acts.foldl (fun s a => s.releaseAll a [f.a]) d.st }
      else
        let good := k.acts.filter fun a => !ts.any fun t => t.who == a
        { st := good.foldl (fun s a => (s.writeP a f.d.num.toNat false).releaseAll a [f.a]) s, traps := ts }

/-- The core that a migrating block is on its way to. -/
def Block.headed (b : Block) : Option Nat :=
  b.weaves.findSome? fun w => w.2.batches.findSome? fun y => match y.state with | .wait (.migrate c) => some c | _ => none

/-- A migrating block is on its way to another core of the die. -/
def Block.headTo (b : Block) (c : Nat) : Block :=
  { b with weaves := mmap b.weaves fun _ w => { w with batches := w.batches.map fun y =>
      match y.state with | .wait (.migrate _) => { y with state := .wait (.migrate c) } | _ => y } }

/-- Where a block on its way to a core can land: there while that core takes blocks; else where the rule of R395 finds another core of the die (log
72). -/
def landingPlace (s : State) (b : Block) (c : Nat) : Option Nat :=
  if !diePlaces s (coreDie c) then none
  else if !(s.core c).retired && !excused s c then some c
  else landingCore s b.core (coreDie c) (b.hdr.fibres * b.hdr.regs)

/-- The batch of a migrating block goes on. -/
def endMove (s : State) (uid : Nat) : State := wakeIf s uid fun q => match q with | .migrate _ => true | _ => false

/-- The block arrives in the landing slot, after a release that is on its way to the die (R400), and its batch goes on at the end of its `migrate`;
where no core of the die takes it any longer it stays, present again (log 72). -/
def arriveMigrated (s : State) (uid : Nat) : Option State :=
  match s.block? uid with
  | none => none
  | some b =>
    match b.headed with
    | none => none
    | some c =>
      if releaseDue s (coreDie c) b then none
      else match landingPlace s b c with
        | none => some (comeBack (endMove s uid) uid b)
        | some c =>
          let (s, msgs) := takeMsgs s uid b.core
          some (endMove (seatBlock (unplace s uid) uid c true ((b.headTo c).packed msgs)) uid)

def execMigrationArrival (uid : Nat) (s : State) : Out := event "MIGRATION_ARRIVAL" (arriveMigrated s uid)

end Sys2Proof.Machine
end

