-- ==== Sys2Proof/Machine/Placing.lean ====
section
/-! DEFINITION. Placement by the dispatchers, and pre-emption (R172 to R175, R226, R371). -/
namespace Sys2Proof.Machine

/-! ### The next block of a launch -/

/-- The pre-empted blocks of a launch: index, frame address and frame. -/
def savedOf (s : State) (ctx lid : Nat) : List (Nat × Nat × Frame) :=
  s.frames.filterMap fun f =>
    match f.2.block with
    | some b => if f.2.saved && f.2.why = 1 && b.ctx = ctx && b.lid = lid then some (b.idx, f.1, f.2) else none
    | none => none

/-- The lowest of some numbers. -/
def least : List Nat → Option Nat
  | [] => none
  | x :: r => some (r.foldl Nat.min x)

/-- The next block of a launch: the lowest of the pre-empted ones, those to place again and the first not yet placed (R172, R175, R363). -/
def nextBlock (s : State) (ctx : Nat) (l : Launch) : Option Nat :=
  least ((savedOf s ctx l.lid).map Prod.fst ++ l.again.map Prod.fst ++ (if l.next < l.total then [l.next] else []))

/-! ### Placing -/

/-- A die places blocks now: its controller is not busy (R371, R402, R442). A controller that is busy with any command places none, where R371 and R402
speak of a retirement and a reset (log 85). -/
def placesNow (s : State) (d : Nat) : Bool := diePlaces s d && (s.die d).dcbusy.isNone

/-- The pre-empted frame of block i of a launch: its address and the frame. -/
def frameOf (s : State) (ctx lid i : Nat) : Option (Nat × Frame) := ((savedOf s ctx lid).find? fun e => e.1 = i).map Prod.snd

/-- The instances of a domain on the panel, each as its cores. -/
def panelSets (dom : Nat) : List (List Nat) :=
  match dom with
  | 1 => (upto 40960).map fun c => [c]
  | 2 => (upto 2560).map fun k => (dieCores (k / 20)).filter fun c => clusterOf (coreIdx c) = k % 20
  | 3 => (upto 128).map dieCores
  | 4 => (upto 16).map fun r => ((upto 128).filter fun d => regionOf d = r).flatMap dieCores
  | _ => [(upto 128).flatMap dieCores]

/-- R167 and R169 allow block i to lie outside a cluster, of which the number plus 1 is given: in an instance of the domain that all of some blocks
may use (R363, R364). -/
def elsewhere (l : Launch) (dom : Nat) (is : List Nat) (i avoid : Nat) : Bool :=
  (panelSets dom).any fun cs => (is.all fun k => cs.any (l.mayTake k)) && cs.any fun c => l.mayTake i c && domInst 2 c + 1 ≠ avoid

/-- The cluster plus 1 that block i of some blocks placed together avoids, or 0: the cluster of its last event, where it may lie elsewhere. -/
def avoided (l : Launch) (dom : Nat) (is : List Nat) (i : Nat) : Nat :=
  let a := (l.againOf i).2
  if a = 0 || elsewhere l dom is i a then a else 0

/-- The blocks that are placed together: the domain in which they lie, and their indices; one block alone has no domain of its own. -/
structure Group where
  dom : Nat
  is : List Nat
  deriving DecidableEq, Repr

/-- The cores of a list that take block i of a launch now, a pre-empted one or one that starts. -/
def candidates (s : State) (ctx : Nat) (l : Launch) (h : Hdr) (g : Group) (i : Nat) (cores : List Nat) : List Nat :=
  match (frameOf s ctx l.lid i).bind fun e => e.2.block with
  | some b => cores.filter fun c => permits l i c && fitsSaved s b c && !releaseDue s (coreDie c) b
  | none => openCores s ctx l h i (avoided l g.dom g.is i) cores

/-- Which of several dies' dispatchers takes a block is open: one is drawn (R172; log 54). On one die R173 decides. -/
def drawCore (s : State) (draw : Bool) (l : List Nat) : State × Option Nat :=
  let dies := sortNat (l.map coreDie)
  if !draw || dies.length ≤ 1 then (s, bestCore s l)
  else
    let d := nth dies ((Config.freeWord s.fresh).toNat % dies.length)
    (s.tick, bestCore s (l.filter fun c => coreDie c = d))

/-- Block i of a launch is placed on core c: restored from its frame, or started, when it joins its trees. -/
def placeOne (s : State) (ctx : Nat) (l : Launch) (h : Hdr) (i c : Nat) : State :=
  match frameOf s ctx l.lid i with
  | some (frame, f) => (match f.block with | some b => restoreOn s frame c f b | none => s)
  | none => joinTrees (placeOn s ctx l h i (l.againOf i).1 c) ctx (coreDie c)

/-- Places some blocks one after another on cores of a list; none when one does not fit. A frame that fails its check kills its block, with its
instance, and nothing of it is placed. -/
def placeAll (s : State) (draw : Bool) (ctx lid : Nat) (h : Hdr) (g : Group) (cores : List Nat) : List Nat → Option State
  | [] => some s
  | i :: r =>
    match s.launch? ctx lid with
    | none => none
    | some l =>
      match (frameOf s ctx lid i).bind fun e => if e.2.touched then e.2.block.map fun b => (e.1, b) else none with
      | some (frame, b) => some (failFrame s frame b)
      | none =>
        match drawCore s draw (candidates s ctx l h g i cores) with
        | (_, none) => none
        | (s, some c) => placeAll (placeOne s ctx l h i c) draw ctx lid h g cores r

/-- The sets of cores, one for each instance of a domain that takes in the die or lies on it; only dies that place blocks count. -/
def domainCores (s : State) (dom d : Nat) : List (List Nat) :=
  match dom with
  | 1 => (dieCores d).map fun c => [c]
  | 2 => (upto 20).map fun k => (dieCores d).filter fun c => clusterOf (coreIdx c) = k
  | 3 => [dieCores d]
  | 4 => [((upto 128).filter fun e => regionOf e = regionOf d && placesNow s e).flatMap dieCores]
  | _ => [((upto 128).filter (placesNow s)).flatMap dieCores]

/-- Inserts a set of cores by the core on it that takes the first block: the one with the most free weave slots first (R173). -/
def insertSet (s : State) (e : Nat × List Nat) : List (Nat × List Nat) → List (Nat × List Nat)
  | [] => [e]
  | h :: r => if bestCore s (sortNat [e.1, h.1]) == some e.1 then e :: h :: r else h :: insertSet s e r

/-- The sets of a domain in the order in which R173 chooses among them for block i. -/
def orderedSets (s : State) (ctx : Nat) (l : Launch) (h : Hdr) (g : Group) (i d : Nat) : List (List Nat) :=
  match domainCores s g.dom d with
  | [x] => [x]
  | sets =>
    ((sets.filterMap fun x => (bestCore s (candidates s ctx l h g i x)).map fun c => (c, x)).foldr (insertSet s) []).map Prod.snd

/-- The blocks of a gang instance that are still to be placed. -/
def gangTodo (s : State) (ctx : Nat) (l : Launch) (lo n : Nat) : List Nat :=
  let saved := (savedOf s ctx l.lid).map Prod.fst
  ((upto n).map fun k => lo + k).filter fun k => l.next ≤ k || saved.contains k || l.again.any fun e => e.1 = k

/-- What is placed together with the next block i of a launch: the rest of its gang instance, or nothing. -/
def groupOf (s : State) (ctx : Nat) (l : Launch) (i : Nat) : Group :=
  match l.gangOf i with
  | none => ⟨6, [i]⟩
  | some (lo, n, dom) => ⟨dom, gangTodo s ctx l lo n⟩

/-- Some block of the instance is still being pre-empted. -/
def gangSaving (s : State) (ctx : Nat) (l : Launch) (lo n : Nat) : Bool :=
  s.blocks.any fun b => b.2.ctx = ctx && b.2.lid = l.lid && lo ≤ b.2.idx && b.2.idx < lo + n && b.2.saving.any fun e => e.2 = 1

/-- Places the next block of a launch by the dispatcher of a die, with its whole gang instance; the division of a gang among dies is drawn, and where
the draw leaves some block without room the cores with the most free weave slots are taken (log 54). -/
def placeNextOf (s : State) (d ctx : Nat) (l : Launch) : Option State :=
  match l.hdr, nextBlock s ctx l with
  | some h, some i =>
    let g := groupOf s ctx l i
    match l.gangOf i with
    | none => placeAll s false ctx l.lid h g (dieCores d) [i]
    | some (lo, n, _) =>
      if gangSaving s ctx l lo n then none
      else
        (orderedSets s ctx l h g i d).findSome? fun cores =>
          match placeAll s true ctx l.lid h g cores g.is with
          | some t => some t
          | none => placeAll s false ctx l.lid h g cores g.is
  | _, _ => none

/-- Block k of some blocks placed together may lie on a core, full or not: as its launch permits, a block that starts not in the cluster that it
avoids. -/
def mayLie (s : State) (ctx : Nat) (l : Launch) (g : Group) (k c : Nat) : Bool :=
  if (frameOf s ctx l.lid k).isSome then permits l k c else l.mayTake k c && domInst 2 c + 1 ≠ avoided l g.dom g.is k

/-- The next block of a launch, or its instance, may lie on a die: its masks and the instances chosen for its levels allow that (R167, R169, R172). -/
def mayUse (s : State) (d ctx : Nat) (l : Launch) : Bool :=
  match nextBlock s ctx l with
  | none => false
  | some i =>
    let g := groupOf s ctx l i
    (dieCores d).any fun c => g.is.any fun k => mayLie s ctx l g k c

/-- The helper weaves that blocks of other cores hold on a core: how many, and their live registers. -/
def helpersOn (s : State) (c : Nat) : Nat × Nat :=
  let l := s.blocks.flatMap fun b => (b.2.weaves.filter fun w => w.2.core = c && w.2.kind == .helper).map fun w => w.2.liveRegs
  (l.length, l.sum)

/-- The weave slots that block k of a launch takes: a saved one needs a slot for every weave that it holds. -/
def slotsFor (s : State) (ctx : Nat) (l : Launch) (h : Hdr) (k : Nat) : Nat :=
  match (frameOf s ctx l.lid k).bind fun e => e.2.block with
  | some b => max h.weaves b.weaves.length
  | none => h.weaves

/-- A core needs the room that helper weaves take for the next block of a launch or, of a gang instance, for more of its blocks than it has room
for now (R223). -/
def needsRoom (s : State) (c ctx : Nat) (l : Launch) : Bool :=
  match l.hdr, nextBlock s ctx l with
  | some h, some i =>
    let g := groupOf s ctx l i
    let x := helpersOn s c
    let is := g.is.filter fun k => mayLie s ctx l g k c
    let room (n weaves slots regs : Nat) : Bool := fitsIn s ctx l.kernel h c n weaves ((freeWslots s c).length + slots) (s.freeRegs c + regs)
    x.1 ≠ 0 && (upto is.length).any fun n =>
      let weaves := ((is.take (n + 1)).map (slotsFor s ctx l h)).sum
      !room (n + 1) weaves 0 0 && room (n + 1) weaves x.1 x.2
  | _, _ => false

/-- A launch comes before another in the dispatchers' order (R172). -/
def Launch.before (c1 : Nat) (a : Launch) (c2 : Nat) (b : Launch) : Bool :=
  let pa := a.flags.toNat % 4
  let pb := b.flags.toNat % 4
  let key (c : Nat) (l : Launch) : Nat := (c * 16 + l.queue) * 2 ^ 64 + l.lid
  if pa ≠ pb then pb < pa
  else match a.deadline, b.deadline with
    | some x, some y => if x ≠ y then x < y else key c1 a < key c2 b
    | some _, none => true
    | none, some _ => false
    | none, none => key c1 a < key c2 b

/-- Inserts a launch in the dispatchers' order. -/
def insertLaunch (e : Nat × Launch) : List (Nat × Launch) → List (Nat × Launch)
  | [] => [e]
  | h :: r => if Launch.before e.1 e.2 h.1 h.2 then e :: h :: r else h :: insertLaunch e r

/-- The ready launches with blocks to place, in order. -/
def readyLaunches (s : State) : List (Nat × Launch) :=
  (s.ctxs.flatMap fun x => (x.2.launches.filter fun l => l.state == .ready && (nextBlock s x.1 l).isSome).map fun l => (x.1, l)).foldr insertLaunch []

/-- The launch has waited a full quantum of the die's cycles since its last placement there; one never placed there has waited since its readiness
(log 67). -/
def overdue (s : State) (d ctx : Nat) (l : Launch) : Bool :=
  let t := match (s.die d).lastPlace.find? fun e => e.1 = (ctx, l.lid) with | some e => e.2 | none => l.readyAt
  decide (cycles 1048576 ≤ s.ran d t)

/-- The launches whose next block the dispatcher of a die offers in turn: none after one that the die waits for (R172). -/
def offered (s : State) (d : Nat) : List (Nat × Launch) → List (Nat × Launch)
  | [] => []
  | (ctx, l) :: r =>
    if !mayUse s d ctx l then offered s d r else if overdue s d ctx l then [(ctx, l)] else (ctx, l) :: offered s d r

/-- The dispatcher of a die offers the next block of each launch in order, until one fits. -/
def placeFirst (s : State) (d : Nat) : List (Nat × Launch) → Option State
  | [] => none
  | (ctx, l) :: r =>
    match placeNextOf s d ctx l with
    | some s => some s
    | none => if mayUse s d ctx l && overdue s d ctx l then none else placeFirst s d r

/-- A die places a block (R172 to R174), unless its controller is busy: a block under retirement is restored first (R371). -/
def placeBlock (s : State) (d : Nat) : Option State :=
  if placesNow s d then placeFirst s d (readyLaunches s) else none

def execBlockPlacement (die : Nat) (s : State) : Out := event "BLOCK_PLACEMENT" (placeBlock s die)

/-! ### Pre-emption (R174, R175, R226) -/

/-- A quantum of its die's cycles has passed at a core since a time (R175). -/
def quantumSince (s : State) (c t : Nat) : Bool := decide (cycles 1048576 ≤ s.ran (coreDie c) t)

/-- A block may be pre-empted for a launch of a class. -/
def mayPreempt (s : State) (prio : Nat) (b : Block) : Bool :=
  b.prio ≤ prio && quantumSince s b.core b.placedAt && b.saving.isNone && !saveHeld s b
    && (match (s.core b.core).preemptAt with | some t => quantumSince s b.core t | none => true)

/-- Victims: the lowest class first, then the latest deadline. -/
def worse (a b : Block) : Bool :=
  if a.prio ≠ b.prio then a.prio < b.prio
  else match a.deadline, b.deadline with
    | none, _ => true
    | some _, none => false
    | some x, some y => y ≤ x

/-- The blocks that a pre-emption of a block takes: its whole gang instance (R174). -/
def preemptSet (s : State) (b : Block) : List (Nat × Block) := (gangIndices s b).filterMap fun i => blockOf s b.ctx b.lid i

/-- Pre-empts some blocks into free frames of their context; two blocks of one gang instance on one core are taken together (R174 before R175; log 68). -/
def preemptAll (s : State) : List (Nat × Block) → State
  | [] => s
  | (uid, b) :: r =>
    match freeFrames s b.ctx with
    | f :: _ => preemptAll ((beginSave s uid f 1).updCore b.core fun x => { x with preemptAt := some s.clock }) r
    | [] => s

/-- The dispatcher of a die makes room for the first launch in its order that may use the die, whose next block fits nowhere on it. -/
def preemptStep (s : State) (d : Nat) : Option State :=
  match (readyLaunches s).find? fun e => mayUse s d e.1 e.2 with
  | none => none
  | some (ctx, l) =>
    let under : Bool := s.blocks.any fun b => coreDie b.2.core = d && b.2.saving.any fun e => e.2 = 1
    if !diePlaces s d || under || (placeNextOf s d ctx l).isSome then none
    else
      let prio := l.flags.toNat % 4
      let ok (e : Nat × Block) : Bool :=
        let set := preemptSet s e.2
        set.all (fun x => mayPreempt s prio x.2) && set.length ≤ (freeFrames s e.2.ctx).length
      let victims := s.blocks.filter fun e => coreDie e.2.core = d && ok e
      match victims.foldr (fun e r => match r with | none => some e | some k => if worse e.2 k.2 then some e else some k) none with
      | none => none
      | some v => some (preemptAll s (preemptSet s v.2))

def execPreemption (die : Nat) (s : State) : Out := event "PREEMPTION" (preemptStep s die)

end Sys2Proof.Machine
end

