-- ==== Sys2Proof/Machine/Power.lean ====
section
/-! DEFINITION. Scrub, current steps and droop (R419 to R428). -/
namespace Sys2Proof.Machine

/-! ### Scrub (R419 to R423) -/

/-- The channel of an address, by 32 × owning die + channel slot (R16). -/
def chanOf (pa : Nat) : Nat := 32 * (pa / dieBytes) + pa % dieBytes / 256 % 32

/-- The first line address of a channel. -/
def chanFirst (k : Nat) : Nat := k / 32 * dieBytes + k % 32 * 256

/-- The home slice holds a line, or the directory records a valid copy of it. -/
def copied (s : State) (line : Nat) : Bool :=
  s.homeLines.any (fun r => r.2 = line) || s.replicas.any (fun r => r.2 = line) || s.cores.any fun c => c.2.l1.any fun l => l.1 = line

/-- A corrected line is counted; a channel that passes its threshold is marked and logged, the entry's other fields open. -/
def countCorrected (s : State) (line : Nat) : State :=
  let k := chanOf line
  let c := s.chan k
  let d := s.homeDie line
  let n := satTo 0xFFFFFFFF (c.corr + 1)
  let lim := (s.die d).chthr
  if lim ≠ 0 && c.corr ≤ lim && lim < n then
    let v := (Config.freeWord s.fresh).toNat
    let w := (Config.freeWord (s.fresh + 1)).toNat
    logError { s with chans := mput s.chans k { c with corr := n, ovf := true }, fresh := s.fresh + 2 } d
      ⟨chanFirst k, v % 2 ^ 16, v / 2 ^ 16 % 2 ^ 16, w % 2 ^ 32⟩
  else { s with chans := mput s.chans k { c with corr := n } }

/-- A line that cannot be corrected: memory is rewritten from a copy, which it then holds too, or the line is poisoned. -/
def failLine (s : State) (line : Nat) : State :=
  let s := if copied s line then { s with homeDirty := s.homeDirty.filter fun l => l != line } else poisonLine s line
  let k := chanOf line
  let s := { s with chans := mput s.chans k { s.chan k with uncorr := satTo 0xFFFF ((s.chan k).uncorr + 1) } }
  logError s (s.homeDie line) ⟨line, 0, 0xFFFF, 0⟩

/-- A refresh of a row checks one of its lines: no value changes. -/
def scrubLine (s : State) (line : Nat) (r : ScrubResult) : Option State :=
  if panelEnd ≤ line || line % 256 ≠ 0 then none
  else match r with
    | .clean => some s
    | .corrected => some (countCorrected s line)
    | .uncorrectable => some (failLine s line)

def execScrub (line : Nat) (r : ScrubResult) (s : State) : Out := event "SCRUB" (scrubLine s line r)

/-! ### Current steps (R425) -/

/-- When the first weave of a core became resident. -/
def residentSince (s : State) (c : Nat) : Nat :=
  (s.blocks.flatMap fun b => b.2.weaves.filterMap fun w => if w.2.core = c then some (min w.2.lastMove w.2.lastIssue) else none).foldl Nat.min s.clock

/-- A waiting core comes before another. -/
def earlier (s : State) (c d : Nat) : Bool :=
  residentSince s c < residentSince s d || (residentSince s c = residentSince s d && c ≤ d)

/-- Inserts a core in the order of service. -/
def insertCore (s : State) (c : Nat) : List Nat → List Nat
  | [] => [c]
  | d :: r => if earlier s c d then c :: d :: r else d :: insertCore s c r

/-- A step of a region ends and the next begins: the counts pass, written limits take effect, and waiting cores start. -/
def regionStep (s : State) (r : Nat) : State :=
  let x := s.region r
  let wait := (x.queue.filter s.holdsWeave).foldr (insertCore s) []
  let n := if x.limitNext = 0 then wait.length else min x.limitNext 2560
  let go := wait.take n
  let s := s.updRegion r fun x =>
    { x with last := min 4095 x.starts, starts := go.length, queue := wait.drop n, limit := x.limitNext, holdcap := x.holdcapNext }
  go.foldl (fun s c => s.updCore c fun y => { y with started := true }) s

/-- The steps of every region. -/
def oneStep (s : State) : State := { (upto 16).foldl regionStep s with steps := s.steps + 1 }

/-- n step boundaries. -/
def manySteps : Nat → State → State
  | 0, s => s
  | n + 1, s => manySteps n (oneStep s)

/-- A step boundary has been reached. -/
def boundaryDue (s : State) : Bool := s.steps < s.time / 120

/-- The core's bits in sr.tmask that came with bring-up: those of a core that is not retired. -/
def clearable (s : State) (d i : Nat) : Word :=
  ((upto 64).filter fun j => !(s.core (320 * d + 64 * i + j)).retired).foldl (fun w j => w ||| (1 <<< j)) 0

/-- The service puts cores that it held out of service at bring-up back: their bits clear in both trees (R401). Which die, which word and which of its
bits are open, and so is the step at which it does so (log 58). -/
def readmit (s : State) : State :=
  let v := (Config.freeWord s.fresh).toNat
  let d := v % 128
  let i := v / 128 % 5
  let bits := Config.freeWord (s.fresh + 1) &&& clearable s d i
  if s.dies.all fun e => e.2.tmask.all fun x => x.2 = 0 then s
  else if v / 1024 % 2 = 0 then s.tick
  else { s with fresh := s.fresh + 2 }.updDie d fun x => { x with tmask := mmap x.tmask fun k w => if k % 5 = i then w &&& ~~~bits else w }

/-- Every step boundary that panel time has reached is passed. -/
def passBoundary (s : State) : Option State := if boundaryDue s then some (readmit (manySteps (s.time / 120 - s.steps) s)) else none

def execStepBoundary (s : State) : Out := event "STEP_BOUNDARY" (passBoundary s)

/-! ### Droop (R426 to R428) -/

/-- Changes every block, on a core or in a frame. -/
def everyBlock (s : State) (f : Block → Block) : State :=
  { s with blocks := mmap s.blocks fun _ b => f b, frames := mmap s.frames fun _ x => { x with block := x.block.map f } }

/-- A batch that a completion holds has met it for an alarm that comes now (R428). -/
def Batch.heldFor (a : Nat × Nat) (y : Batch) : Batch :=
  match y.state with
  | .wait (.hold ..) => { y with met := a :: y.met }
  | _ => y

/-- Changes every batch of a block. -/
def Block.everyBatch (f : Batch → Batch) (b : Block) : Block :=
  { b with weaves := mmap b.weaves fun _ w => { w with batches := w.batches.map f } }

/-- The supply of a region falls below its alarm level: its clocks stretch, and the regions beside it hold. -/
def alarm (s : State) (r : Nat) : Option State :=
  if 16 ≤ r then none
  else
    let t := s.updRegion r fun x =>
      { x with stretch := true, alarms := satTo 0xFFFFFFFF (x.alarms + 1), holdAt := s.time, droops := x.droops + 1,
               stretchAt := if x.stretch then x.stretchAt else s.clock }
    let t := (regionsBeside r).foldl (fun t n => t.updRegion n fun x => { x with hold := true }) t
    some (everyBlock t (Block.everyBatch (Batch.heldFor (r, (s.region r).droops + 1))))

def execDroopAlarm (r : Nat) (s : State) : Out := event "DROOP_ALARM" (alarm s r)

/-- A wait held for the alarm of region m is held for it no longer. -/
def Wait.unheld (m : Nat) : Wait → Wait
  | .hold r srcs t => .hold r (srcs.filter fun x => x != m) t
  | q => q

def Batch.unheld (m : Nat) (y : Batch) : Batch :=
  match y.state with
  | .wait q => { y with state := .wait (q.unheld m) }
  | _ => y

/-- The stretch of a region ends: no batch is held for its alarm any more, and one held for no other goes on. -/
def Block.unheld (m : Nat) (b : Block) : Block :=
  (b.everyBatch (Batch.unheld m)).wakeIf fun q => match q with | .hold _ [] _ => true | _ => false

/-- A region beside a recovered one holds on only while another region beside it is stretched. -/
def endHold (s : State) (n : Nat) : State :=
  s.updRegion n fun x => { x with hold := (regionsBeside n).any fun k => (s.region k).stretch }

/-- The supply of a stretched region recovers, 1 µs after the alarm at the earliest; the stretch that has ended is recorded (R426). -/
def recover (s : State) (r : Nat) : Option State :=
  let x := s.region r
  if !x.stretch || s.time < x.holdAt + 600 then none
  else
    let t := s.updRegion r fun x => { x with stretch := false, stretched := x.stretched ++ [(x.stretchAt, s.clock)] }
    let s := (regionsBeside r).foldl endHold t
    some (everyBlock s (Block.unheld r))

def execDroopRecovery (r : Nat) (s : State) : Out := event "DROOP_RECOVERY" (recover s r)

/-- A held completion has been held for HOLDCAP microseconds. -/
def holdOver (s : State) (r since : Nat) : Bool := since + 600 * (s.region r).holdcap ≤ s.time

/-- HOLDCAP has expired for a wait in a region. -/
def holdPast (s : State) (r : Nat) : Wait → Bool
  | .hold q _ t => q = r && holdOver s r t
  | _ => false

/-- Some batch of a block satisfies a test in its wait. -/
def Block.waitsFor (b : Block) (p : Wait → Bool) : Bool :=
  b.weaves.any fun w => w.2.batches.any fun y => match y.state with | .wait q => p q | _ => false

/-- HOLDCAP expires for some batch of a region. -/
def expireHold (s : State) (r : Nat) : Option State :=
  if s.blocks.any (fun b => b.2.waitsFor (holdPast s r)) || s.frames.any fun f => f.2.block.any fun b => b.waitsFor (holdPast s r) then
    some (everyBlock s fun b => b.wakeIf (holdPast s r))
  else none

def execHoldExpiry (r : Nat) (s : State) : Out := event "HOLD_EXPIRY" (expireHold s r)

end Sys2Proof.Machine
end

