-- ==== Sys2Proof/Machine/Pages.lean ====
section
/-! DEFINITION. What the service does to memory: it gives out zones, writes translation tables, completes translation changes, and reads and
writes context memory by physical address (R250, R253, R367, R431, R434, R436, R440; log 10). -/
namespace Sys2Proof.Machine

/-! ### Zones (R16, R367, R440) -/

def zoneSize : Nat := 0x200000
def alignTo (n k : Nat) : Nat := (n + k - 1) / k * k

/-- A range of whole lines holds zeros, and no cache holds anything of it. -/
def zeroRange (s : State) (lo n : Nat) : State :=
  let out (a : Nat) : Bool := a < lo || lo + n ≤ a
  push { s with
    mem := s.mem.filter fun c => out c.1
    poison := s.poison.filter out
    homeLines := s.homeLines.filter fun r => out r.2
    homeDirty := s.homeDirty.filter out
    replicas := s.replicas.filter fun r => out r.2
    sharers := s.sharers.filter fun r => out r.2.1
    cores := mmap s.cores fun _ x => { x with l1 := x.l1.filter fun l => out l.1 } } lo n

/-- The number under which the service keeps the tables of a sandbox, beside those of the contexts (log 73). -/
def guestTables (id : Nat) : Nat := 65536 + id

/-- The zones of a range take the tag of a context; memory for a sandbox's tables takes 0, which is no context's. -/
def tagZones (s : State) (ctx pa n : Nat) : State :=
  (upto (n / zoneSize)).foldl (fun s i => s.updZone (pa / zoneSize + i) fun z => { z with tag := some (if ctx < 65536 then ctx else 0) }) s

/-- The service gives n bytes of a die's range, aligned, to a context; none when the die has no room. -/
def giveRange (s : State) (ctx d n align : Nat) : Option (State × Nat) :=
  let off := alignTo (max zoneSize (mcount s.service.alloc d)) (max align zoneSize)
  let size := alignTo n zoneSize
  if dieBytes < off + size then none
  else
    let pa := d * dieBytes + off
    some (tagZones (zeroRange (s.updService fun v => { v with alloc := mput v.alloc d (off + size) }) pa size) ctx pa size, pa)

/-- The dies in service. -/
def inService (s : State) : List Nat := (upto 128).filter (diePlaces s)

/-- The dies in the order in which the service tries them: those in service that home their memory (R403), from one of its choice on (log 10). -/
def choiceOf (s : State) : List Nat :=
  let l := (inService s).filter fun d => (s.die d).drstate = 0
  let k := Config.serviceDie s.fresh % l.length
  l.drop k ++ l.take k

/-- The service gives n bytes on the first die, in the order of its choice, that has room. -/
def giveSomewhere (s : State) (ctx n align : Nat) : Option (State × Nat) := (choiceOf s).findSome? fun d => giveRange s.tick ctx d n align

/-- A zeroed page for the translation tables of a context. -/
def tablePage (s : State) (ctx : Nat) : Option (State × Nat) :=
  let a := mcount s.service.tables ctx
  let take (s : State) (a : Nat) : State × Nat := (s.updService fun v => { v with tables := mput v.tables ctx (a + 4096) }, a)
  if a % zoneSize ≠ 0 then some (take s a)
  else (giveSomewhere s ctx zoneSize zoneSize).map fun r => take r.1 r.2

/-! ### Table entries (R250) -/

/-- The address of the entry for a virtual address in a table of a level. -/
def pteAddr (table lvl va : Nat) : Nat := table + 8 * (va / 2 ^ (12 + 9 * lvl) % 512)
def ppnOf (p : Nat) : Nat := p / 2 ^ 10 % 2 ^ 44
/-- The entry points to a table: V, and none of R, W and X. -/
def isTable (p : Nat) : Bool := p % 16 = 1
def isNapot (p : Nat) : Bool := p / 2 ^ 63 % 2 = 1
def leafSize (lvl p : Nat) : Nat := if isNapot p then 0x10000 else 2 ^ (12 + 9 * lvl)
def leafBase (p : Nat) : Nat := if isNapot p then ppnOf p / 16 * 16 * 4096 else ppnOf p * 4096
def writePte (s : State) (a v : Nat) : State := devWrite s a (toBytes 8 v)

/-- The bits R, W and X of a leaf that give the rights of a PERM. A leaf without any would be a pointer: W alone gives none either, since each use of
such an entry traps (R251; log 10). -/
def rightsOf (perm : Nat) : Nat := if perm % 8 = 0 then 2 else perm % 8

/-- A leaf for a page at an address: permissions R, W and X as PERM gives them, U, and V where present. -/
def leafFor (pa perm : Nat) (napot present : Bool) : Nat :=
  (if napot then 2 ^ 63 + (pa / 0x10000 * 16 + 8) * 1024 else pa / 4096 * 1024) + 16 + 2 * rightsOf perm + bit present

/-- Finds the leaf for a virtual address, present or reserved: its level, where it lies, and the entry. -/
def findLeaf (s : State) (va : Nat) : (lvl table : Nat) → Option (Nat × Nat × Nat)
  | lvl, table =>
    let a := pteAddr table lvl va
    let p := s.phys a 8
    if p = 0 then none
    else match lvl with
      | 0 => some (0, a, p)
      | l + 1 => if isTable p then findLeaf s va l (ppnOf p * 4096) else some (l + 1, a, p)

/-- Writes a leaf at a level, with the tables above it; none without memory for a table. -/
def setLeaf (s : State) (ctx va target pte : Nat) : (lvl table : Nat) → Option State
  | lvl, table =>
    let a := pteAddr table lvl va
    if lvl = target then some (writePte s a pte)
    else match lvl with
      | 0 => none
      | l + 1 =>
        let p := s.phys a 8
        if isTable p then setLeaf s ctx va target pte l (ppnOf p * 4096)
        else match tablePage s ctx with
          | none => none
          | some (s, t) => setLeaf (writePte s a (t / 4096 * 1024 + 1)) ctx va target pte l t

/-- Changes the leaf of a virtual address where there is one, all sixteen entries of a 64 KiB page. -/
def editLeaf (s : State) (root va : Nat) (f : Nat → Nat) : State :=
  match findLeaf s va 3 root with
  | none => s
  | some (_, a, p) =>
    if isNapot p then (upto 16).foldl (fun s i => writePte s (a / 128 * 128 + 8 * i) (f p)) s else writePte s a (f p)

/-- The 4 KiB pages of a range. -/
def pagesOf (va n : Nat) : List Nat := (upto (n / 4096)).map fun i => va + 4096 * i

/-- Changes every leaf of a range. -/
def editRange (s : State) (root va n : Nat) (f : Nat → Nat) : State := (pagesOf va n).foldl (fun s a => editLeaf s root a f) s

/-- Some page of the range belongs to a larger page that goes beyond it. -/
def straddles (s : State) (root va n : Nat) : Bool :=
  (pagesOf va n).any fun a =>
    match findLeaf s a 3 root with
    | some (l, _, p) => let z := leafSize l p; a / z * z < va || va + n < a / z * z + z
    | none => false

/-- Maps k pages of a size one after another. -/
def mapPages (s : State) (ctx root perm pgsz : Nat) (present : Bool) : (k va pa : Nat) → Option State
  | 0, _, _ => some s
  | k + 1, va, pa =>
    let leaf := leafFor pa perm (pgsz = 1) present
    let step : Option State := match pgsz with
      | 0 => setLeaf s ctx va 0 leaf 3 root
      | 1 => (upto 16).foldl (fun r i => r.bind fun s => setLeaf s ctx (va + 4096 * i) 0 leaf 3 root) (some s)
      | 2 => setLeaf s ctx va 1 leaf 3 root
      | _ => setLeaf s ctx va 2 leaf 3 root
    let z := [0x1000, 0x10000, 0x200000, 0x40000000][pgsz]?.getD 0x1000
    match step with
    | none => none
    | some s => mapPages s ctx root perm pgsz present k (va + z) (pa + z)

/-! ### Completing a translation change (R253, R436) -/

/-- The service writes INVAL on every die that may hold something of the context, for each of some pages, and waits for each. -/
def invalidateAll (s : State) (ctx : Nat) (all : Bool) (pages : List Nat) : State :=
  pages.foldl (fun s va =>
    let page := va / 4096 % 2 ^ 36
    (s.dies.map Prod.fst).foldl (fun s d =>
      (dropPage s d ctx page all).updDie d fun x => { x with inval := ofNat64 (at_ 48 ctx + at_ 12 page + bit all) }) s) s

/-! ### Access by physical address (R431, R440) -/

/-- The physical pieces of a range of context memory, page by page; none when a page is neither present nor, where allowed, reserved, or when
`need` refuses its entry. -/
def pieces (s : State) (root : Nat) (need : Nat → Bool) : (fuel va n : Nat) → Option (List (Nat × Nat))
  | 0, _, n => if n = 0 then some [] else none
  | k + 1, va, n =>
    if n = 0 then some []
    else match findLeaf s va 3 root with
      | none => none
      | some (l, _, p) =>
        if !canonicalVA va || !need p then none
        else
          let m := min n (4096 - va % 4096)
          (pieces s root need k (va + m) (n - m)).map fun r => (leafBase p + va % leafSize l p, m) :: r

/-- The pieces of a range. -/
def rangePieces (s : State) (root : Nat) (need : Nat → Bool) (va n : Nat) : Option (List (Nat × Nat)) :=
  pieces s root need (n / 4096 + 2) va n

/-- Writes data to its pieces. -/
def writePieces (s : State) : List (Nat × Nat) → List Byte → State
  | [], _ => s
  | (pa, n) :: r, d => writePieces (devWrite s pa (d.take n)) r (d.drop n)

/-- Every piece passes the check of its zone's tag. -/
def tagsOk (s : State) (ctx : Nat) (l : List (Nat × Nat)) : Bool := l.all fun e => decodedPA e.1 && tagOk s ctx e.1

/-- The home of the first piece that fails its check logs the refusal; SRC and SEQ of a write that no core made are open (R367; log 40). -/
def refusedPieces (s : State) (ctx : Nat) (l : List (Nat × Nat)) : State :=
  match l.find? fun e => decodedPA e.1 && !tagOk s ctx e.1 with
  | some e =>
    let v := (Config.freeWord s.fresh).toNat
    logError s.tick (s.homeDie e.1) ⟨e.1, ctx, v % 2 ^ 16, v / 2 ^ 32⟩
  | none => s

/-- An RMA write into context memory, and whether it took effect: every page must be one that `need` accepts and pass its tag check; else nothing is
written. -/
def rmaWrite (s : State) (ctx root : Nat) (need : Nat → Bool) (va : Nat) (data : List Byte) : State × Bool :=
  match rangePieces s root need va data.length with
  | none => (s, false)
  | some l => if tagsOk s ctx l then (writePieces s l data, true) else (refusedPieces s ctx l, false)

/-- Reads pieces one after another; what a poisoned one reads as is open. -/
def readPieces (s : State) : List (Nat × Nat) → State × List Byte
  | [] => (s, [])
  | e :: r =>
    let bad := s.poisoned e.1 e.2
    let d := if bad then (upto e.2).map fun i => BitVec.ofNat 8 (Config.freeWord (s.fresh + i)).toNat else s.bytes e.1 e.2
    let x := readPieces (if bad then { s with fresh := s.fresh + e.2 } else s) r
    (x.1, d ++ x.2)

end Sys2Proof.Machine
end

