-- ==== Sys2Proof/Machine/Service.lean ====
section
/-! DEFINITION. The Sorboing service, the port dies' harts and DMA engines, and boot (R429 to R443). -/
namespace Sys2Proof.Machine

/-! ### Messages (R437, R438, R440, R443) -/

/-- What the service answers to a request: the panel after it, STATUS and the body. -/
structure Reply where
  st : State
  status : Nat
  body : List Byte

/-- A request is refused with a status: nothing has changed. -/
def denied (s : State) (status : Nat) : Reply := ⟨s, status, []⟩
/-- A request is granted. -/
def grant (s : State) (body : List Byte) : Reply := ⟨s, 0, body⟩

/-- A reply is sent: bit 15 of its TYPE is set, and REQ is the request's. -/
def answer (h : UzHdr) (session ty : Nat) (r : Reply) : State := sendUz r.st session (0x8000 + ty) r.status h.req r.body

/-- A field of a body: n bytes at an offset. -/
def fieldAt (b : List Byte) (off n : Nat) : Nat := ofBytes ((b.drop off).take n)

/-- The body of a message: LEN bytes behind its header. -/
def content (m : UzMsg) : Option (List Byte) := if m.h.len.toNat ≤ m.body.length then some (m.body.take m.h.len.toNat) else none

/-- The largest request body: of MODULE_LOAD, or of FW_UPDATE on the management port. -/
def legalBody (mgmt : Bool) : Nat := if mgmt then 0x10 + 67108864 + 4627 else 0x20 + 1048576 + 4627

/-- MAXBODY of a session: the largest legal body, and an open amount more (R440, R441; log 10). -/
def maxBody (mgmt : Bool) : Nat := legalBody mgmt + Config.maxBody % 2 ^ 26

/-- The header of a request is as R437 asks in a session of a version, and its body is no longer than the service accepts. -/
def hdrFits (h : UzHdr) (major minor : Nat) (mgmt : Bool) : Bool :=
  h.magic = 0x5A55 && h.major.toNat = major && h.minor.toNat = minor && h.status = 0 && h.zero = 0 && h.len.toNat ≤ maxBody mgmt

/-- The port die's region is up (R18, R442). -/
def portUp (s : State) (p : Nat) : Bool := (s.region (regionOf (portDie p))).up

/-- A message that arrives there reaches the service: the management port answers from boot on, another port while its region is up. -/
def heard (s : State) : Source → Bool
  | .mgmt => s.service.booted
  | .port p => s.service.booted && s.service.mode ≠ 0 && portUp s p.toNat

/-- The types that the management port accepts (R443). -/
def mgmtTakes (ty : Nat) : Bool := ty = 0x01 || ty = 0x0A || ty = 0x0C

/-- The session of a request, which stands on the kind of port where it was opened; none when the request is denied. -/
def sessionOf (s : State) (src : Source) (h : UzHdr) (ty : Nat) : Option Session :=
  match mget s.service.sessions h.session.toNat with
  | some x => if (src == .mgmt) != x.mgmt || (x.mgmt && !mgmtTakes ty) then none else some x
  | none => none

/-- What the service makes of a request on a session. -/
def replyTo (s : State) (ty : Nat) (src : Source) (m : UzMsg) (f : Session → List Byte → Reply) : Reply :=
  match sessionOf s src m.h ty with
  | none => denied s 6
  | some x =>
    match content m with
    | some b => if hdrFits m.h x.major x.minor x.mgmt then f x b else denied s 4
    | none => denied s 4

/-- A request on a session arrives: a port of a region that is not up gives no answer. -/
def receive (s : State) (ty : Nat) (src : Source) (m : UzMsg) (f : Session → List Byte → Reply) : State :=
  if heard s src then answer m.h m.h.session.toNat ty (replyTo s ty src m f) else s

/-- A body that begins with a context word, of a context that the session must have created (R440). -/
def inContext (s : State) (session : Nat) (b : List Byte) (f : Nat → Ctx → List Byte → Reply) : Reply :=
  let ctx := fieldAt b 0 8
  if b.length < 8 || 65536 ≤ ctx then denied s 4
  else match s.ctx? ctx with
    | some c => if c.session = session then f ctx c (b.drop 8) else denied s 6
    | none => denied s 6

/-- A request about a context arrives. -/
def receiveCtx (s : State) (ty : Nat) (src : Source) (m : UzMsg) (f : Nat → Ctx → List Byte → Reply) : State :=
  receive s ty src m fun _ b => inContext s m.h.session.toNat b f

/-- An outside event: it always happens. -/
def outside_ (name : String) (s : State) : Out := event name (some s)

/-! ### Sessions (R438, R441) -/

/-- The service lists (1, 2): the highest minor that the sender lists for major 1. -/
def commonMinor (pairs : List (Nat × Nat)) : Option Nat :=
  match (pairs.filter fun p => p.1 = 1).map Prod.snd with
  | [] => none
  | m :: r => some (min 2 (r.foldl max m))

/-- The pairs of a SESSION_OPEN body. -/
def pairsOf (b : List Byte) : Option (List (Nat × Nat)) :=
  let n := fieldAt b 0 1
  if n = 0 || 8 < n || b.length < 8 + 2 * n || fieldAt b 1 7 ≠ 0 then none
  else some ((upto n).map fun i => (fieldAt b (8 + 2 * i) 1, fieldAt b (9 + 2 * i) 1))

/-- The session table with one more session. -/
def Service.openSession (v : Service) (x : Session) : Service :=
  { v with sessions := mput v.sessions v.nextSession x, nextSession := v.nextSession + 1 }

/-- A session is negotiated; its reply carries the id that it is assigned. -/
def openSession (s : State) (src : Source) (m : UzMsg) : State :=
  let mgmt := src == .mgmt
  if !heard s src then s
  else match (content m).bind pairsOf with
    | none => answer m.h 0 0x01 (denied s 4)
    | some pairs =>
      if !hdrFits m.h 0 0 mgmt || m.h.session ≠ 0 then answer m.h 0 0x01 (denied s 4)
      else match commonMinor pairs with
        | none => answer m.h 0 0x01 (denied s 1)
        | some n =>
          answer m.h s.service.nextSession 0x01 (grant (s.updService fun v => v.openSession ⟨mgmt, 1, n⟩)
            (toBytes 1 1 ++ toBytes 1 n ++ toBytes 2 0 ++ toBytes 4 (maxBody mgmt)))

def execSessionOpen (src : Source) (m : UzMsg) (s : State) : Out := outside_ "SESSION_OPEN" (openSession s src m)

/-- A session closes; records that its contexts still await complete as failures (R441). -/
def closeSession (s : State) (session : Nat) : State :=
  let s := s.updService fun v => { v with sessions := mdel v.sessions session }
  s.ctxs.foldl (fun s c => if c.2.session = session then c.2.awaited.foldl (fun s q => s.post (.recordCompletion c.1 q)) s else s) s

def execSessionClose (session : Nat) (s : State) : Out := outside_ "SESSION_CLOSE" (closeSession s session)

/-- A request of a reserved TYPE; a message with bit 15 set is no request. -/
def execReservedTypeRequest (r : UzIn) (ty : BitVec 16) (s : State) : Out :=
  outside_ "RESERVED_TYPE_REQUEST" (if 0x8000 ≤ ty.toNat then s else receive s ty.toNat r.src r.m fun _ _ => denied s 4)

/-! ### CONTEXT_CREATE (R396, R434, R440) -/

/-- A CONTEXT_CREATE body; KEY is present only with SIG. -/
def ctxBody (session : Nat) (b : List Byte) : Option CtxReq :=
  let flags := fieldAt b 0 2
  let sig := flags / 16 % 2 = 1
  let r : CtxReq := ⟨session, BitVec.ofNat 16 flags, fieldAt b 2 1, fieldAt b 4 4, if sig then (b.drop 0x10).take 2592 else []⟩
  if b.length < 0x10 + (if sig then 2592 else 0) || 32 ≤ flags || r.ringlog < 6 || 16 < r.ringlog || fieldAt b 3 1 ≠ 0 || fieldAt b 8 8 ≠ 0 then none
  else some r

/-- The lowest context id that is free, tried from n. -/
def freeCtx (s : State) : (fuel n : Nat) → Option Nat
  | 0, _ => none
  | k + 1, n => if 65535 < n then none else if (s.ctx? n).isNone then some n else freeCtx s k (n + 1)

/-- The tree is held by some context. -/
def treeTaken (s : State) (flags : BitVec 16) : Bool :=
  s.ctxs.any fun c => (flags.getLsbD 2 && c.2.flags.getLsbD 2) || (flags.getLsbD 3 && c.2.flags.getLsbD 3)

/-- A granted tree counts its rounds from 0. -/
def resetTree (s : State) (tree : Bool) : State :=
  (s.updRoot tree fun _ => Root.reset) |> fun s =>
    { s with dies := mmap s.dies fun _ x => if tree then { x with seg1 := ⟨false, 0⟩ } else { x with seg0 := ⟨false, 0⟩ } }

/-- Where the service maps the ring of a context: below the middle of the address space, in a range of its own. -/
def ringPlace (n : Nat) : Nat := 0x400000000000 + 0x1000000 * (n % 2 ^ 22)

/-- The memory of a new context: its root table, its ring with the doorbell behind it, and its save pool; none without room. -/
def contextMemory (s : State) (ctx : Nat) (r : CtxReq) : Option (State × Ctx) :=
  match tablePage (s.updService fun v => { v with tables := mdel v.tables ctx }) ctx with
  | none => none
  | some (s, root) =>
    match giveSomewhere s ctx (64 * 2 ^ r.ringlog + 4096) zoneSize with
    | none => none
    | some (s, ring) =>
      match (if r.frames = 0 then some (s, 0) else giveSomewhere s ctx (frameSize * r.frames) zoneSize) with
      | none => none
      | some (s, pool) =>
        let va := ringPlace (Config.serviceVA s.fresh)
        let n := 64 * 2 ^ r.ringlog
        (mapPages s.tick ctx root 1 0 true (n / 4096 + 1) va ring).map fun s =>
          (s, Ctx.start root ring r.ringlog (ring + n) pool r.frames r.flags r.session r.key va (va + n))

/-- A context is created, or its request refused: trees, ids and memory. -/
def createContext (s : State) (r : CtxReq) : Reply :=
  if treeTaken s r.flags then denied s 2
  else match freeCtx s (s.ctxs.length + 1) 1 with
    | none => denied s 2
    | some id =>
      match contextMemory s id r with
      | none => denied s 2
      | some (t, c) =>
        let t := { t with ctxs := mput t.ctxs id c }
        let t := if r.flags.getLsbD 2 then resetTree t false else t
        let t := if r.flags.getLsbD 3 then resetTree t true else t
        grant t (toBytes 2 id ++ toBytes 6 0 ++ toBytes 8 c.ringVA ++ toBytes 8 c.bellVA)

/-- The answer to a body that must hold the fields of its type; another receives status 4. -/
def withBody {α : Type} (s : State) (x : Option α) (f : α → Reply) : Reply :=
  match x with
  | some a => f a
  | none => denied s 4

def execContextCreate (r : UzIn) (s : State) : Out :=
  outside_ "CONTEXT_CREATE" (receive s 0x02 r.src r.m fun _ b => withBody s (ctxBody r.m.h.session.toNat b) (createContext s))

/-! ### CONTEXT_DESTROY (R439) -/

/-- Step 1: a launch that is not ready is discarded, with its done address from its record. -/
def discard (s : State) (ctx : Nat) (l : Launch) : State :=
  match l.state with
  | .queued =>
    (match readVA s ctx 256 l.record.toNat with
      | (s, some d) => reject s ctx (parseRecord l d) 7
      | (s, none) => reject s ctx l 7)
  | .waiting => reject s ctx l 7
  | _ => s

/-- Step 2: every block is killed, resident or saved. -/
def killAll (s : State) (ctx : Nat) : State :=
  let s := s.blocks.foldl (fun s b => if b.2.ctx = ctx then killOne s b.1 else s) s
  { s with frames := mmap s.frames fun _ f => if f.ctx = ctx then { f with block := none } else f }

/-- Step 3: a pending done word; every block that did not end counts as killed. -/
def closePending (s : State) (ctx : Nat) (l : Launch) : State :=
  closeLaunch s ctx l (doneWord (if l.total = l.ended then 1 else 3) 0 (l.total - l.ended))

/-- The launches of a context. -/
def launchesOf (s : State) (ctx : Nat) : List Launch := ((s.ctx? ctx).map Ctx.launches).getD []

/-- Steps 1 to 5. -/
def removeContext (s : State) (ctx : Nat) : State :=
  let s := (launchesOf s ctx).foldl (fun s l => discard s ctx l) s
  let s := killAll s ctx
  let s := (launchesOf s ctx).foldl (fun s l => closePending s ctx l) s
  let s := invalidateAll s ctx true [0]
  { s with ctxs := mdel s.ctxs ctx, frames := s.frames.filter fun f => f.2.ctx ≠ ctx }

def execContextDestroy (src : Source) (m : UzMsg) (s : State) : Out :=
  outside_ "CONTEXT_DESTROY" (receiveCtx s 0x03 src m fun ctx _ _ => grant (removeContext s ctx) [])

/-! ### MODULE_LOAD, PUT, GET, LAUNCH (R439, R440) -/

/-- A byte string cut or filled to n bytes. -/
def fixLen (n : Nat) (l : List Byte) : List Byte := (l ++ List.replicate n 0).take n

/-- The SHA3-512 digest. -/
def digest (l : List Byte) : List Byte := fixLen 64 (Config.sha3 l)

/-- The page is present and writable. -/
def writablePte (p : Nat) : Bool := p % 2 = 1 && p / 4 % 2 = 1

/-- A size of a transfer: 1 to 1,048,576 bytes. -/
def sizeOk (n : Nat) : Bool := n ≠ 0 && n ≤ 1048576

/-- A MODULE_LOAD body behind its context word. -/
def modBody (session ctx : Nat) (signed : Bool) (b : List Byte) : Option ModReq :=
  let size := fieldAt b 8 8
  let siglen := fieldAt b 0x10 4
  if b.length < 0x18 || !sizeOk size || (siglen ≠ 0 && siglen ≠ 4627) || (signed && siglen ≠ 4627) || fieldAt b 0x14 4 ≠ 0
      || b.length < 0x18 + size + siglen then none
  else some ⟨session, ctx, fieldAt b 0 8, siglen, (b.drop 0x18).take size, (b.drop (0x18 + size)).take siglen⟩

/-- An image is placed in writable pages; a context with SIG takes only an image whose signature verifies. -/
def loadModule (s : State) (c : Ctx) (r : ModReq) : Reply :=
  match rangePieces s c.root writablePte r.va r.image.length with
  | none => denied s 4
  | some l =>
    if !tagsOk s r.ctx l then denied (refusedPieces s r.ctx l) 4
    else if c.flags.getLsbD 4 && !Config.mldsaVerify c.key (digest r.image) r.sig then denied s 3
    else grant (writePieces s l r.image) (digest r.image)

def execModuleLoad (r : UzIn) (s : State) : Out :=
  outside_ "MODULE_LOAD" (receiveCtx s 0x04 r.src r.m fun ctx c b =>
    withBody s (modBody r.m.h.session.toNat ctx (c.flags.getLsbD 4) b) (loadModule s c))

/-- VA and the data of a PUT body. -/
def putBody (b : List Byte) : Option (Nat × List Byte) :=
  let size := fieldAt b 8 8
  if b.length < 0x10 || !sizeOk size || b.length < 0x10 + size then none else some (fieldAt b 0 8, (b.drop 0x10).take size)

/-- A PUT is answered once its write has completed. -/
def putData (s : State) (ctx : Nat) (c : Ctx) (va : Nat) (data : List Byte) : Reply :=
  match rmaWrite s ctx c.root (fun _ => true) va data with
  | (s, true) => grant s []
  | (s, false) => denied s 4

def execPut (src : Source) (h : UzHdr) (fields data : List Byte) (s : State) : Out :=
  outside_ "PUT" (receiveCtx s 0x06 src ⟨h, fields ++ data⟩ fun ctx c b => withBody s (putBody b) fun x => putData s ctx c x.1 x.2)

/-- VA and SIZE of a GET body. -/
def getBody (b : List Byte) : Option (Nat × Nat) :=
  if b.length < 0x10 || !sizeOk (fieldAt b 8 8) then none else some (fieldAt b 0 8, fieldAt b 8 8)

def getData (s : State) (c : Ctx) (va size : Nat) : Reply :=
  match rangePieces s c.root (fun _ => true) va size with
  | none => denied s 4
  | some l =>
    if l.all fun e => decodedPA e.1 then
      let x := readPieces s l
      grant x.1 x.2
    else denied s 4

def execGet (src : Source) (h : UzHdr) (fields more : List Byte) (s : State) : Out :=
  outside_ "GET" (receiveCtx s 0x07 src ⟨h, fields ++ more⟩ fun _ c b => withBody s (getBody b) fun x => getData s c x.1 x.2)

/-- RECORD and QUEUE of a LAUNCH body. -/
def launchBody (b : List Byte) : Option (Nat × Nat) :=
  let record := fieldAt b 0 8
  if b.length < 0x10 || record % 64 ≠ 0 || 16 ≤ fieldAt b 8 1 || fieldAt b 9 7 ≠ 0 then none else some (record, fieldAt b 8 1)

/-- A launch record is submitted to a queue of its context. -/
def submitRecord (s : State) (ctx record queue : Nat) : Reply :=
  match submitLaunch s ctx queue (ofNat64 record) with
  | (t, true) => grant t []
  | (_, false) => denied s 2

/-- A LAUNCH through the port of a region that is not up while there is service (R442). -/
def launchAtDownPort (s : State) (src : Source) : Bool := s.service.booted && s.service.mode ≠ 0 && src != .mgmt && !heard s src

def requestLaunch (s : State) (src : Source) (m : UzMsg) : State :=
  if launchAtDownPort s src then answer m.h m.h.session.toNat 0x08 (denied s 5)
  else receiveCtx s 0x08 src m fun ctx _ b => withBody s (launchBody b) fun x => submitRecord s ctx x.1 x.2

def execLaunchRequest (src : Source) (h : UzHdr) (ctx record more : List Byte) (s : State) : Out :=
  outside_ "LAUNCH_REQUEST" (requestLaunch s src ⟨h, ctx ++ record ++ more⟩)

/-! ### MAP (R240, R250, R253, R432, R440) -/

def pageSize (pgsz : Nat) : Nat := [0x1000, 0x10000, 0x200000, 0x40000000][pgsz]?.getD 0x1000

/-- A MAP body behind its context word. -/
def mapBody (session ctx : Nat) (b : List Byte) : Option MapReq :=
  if b.length < 0x18 || fieldAt b 0x13 1 ≠ 0 then none
  else some ⟨session, ctx, fieldAt b 0 8, fieldAt b 8 8, fieldAt b 0x10 1, BitVec.ofNat 8 (fieldAt b 0x11 1), fieldAt b 0x12 1, fieldAt b 0x14 2,
    fieldAt b 0x16 2⟩

/-- The fields of a MAP body are within their limits. -/
def mapOk (s : State) (r : MapReq) : Bool :=
  r.op < 5 && r.pgsz < 4 && r.va % pageSize r.pgsz = 0 && r.size % pageSize r.pgsz = 0 && r.size ≠ 0
    && canonicalVA r.va && r.va < 2 ^ 64 && r.va % 2 ^ 47 + r.size ≤ 2 ^ 47 && r.perm.toNat < 8
    && (r.home < 128 || r.home = 0xFFFF) && (r.share = 0 || (mget s.service.sandboxes r.share).isSome)

/-- The range of the request with its old pages unmapped. -/
def clearRange (s : State) (root : Nat) (r : MapReq) : State := editRange s root r.va r.size fun _ => 0

/-- A sandbox maps the same physical pages, by a second stage that gives each its physical address as the guest's (R432; log 73). -/
def sharePages (s : State) (r : MapReq) (pa : Nat) : Option State :=
  match mget s.service.sandboxes r.share with
  | none => some s
  | some x =>
    (mapPages s (guestTables r.share) x.root 7 r.pgsz true (r.size / pageSize r.pgsz) pa pa).map fun s =>
      s.updService fun v => { v with sandboxes := mupd v.sandboxes r.share fun x => { x with pages := x.pages ++ pagesOf pa r.size } }

/-- Maps or reserves fresh pages. -/
def mapFresh (s : State) (root : Nat) (r : MapReq) : Option State :=
  match (if r.home = 0xFFFF then giveSomewhere s r.ctx r.size (pageSize r.pgsz) else giveRange s r.ctx r.home r.size (pageSize r.pgsz)) with
  | none => none
  | some (s, pa) =>
    (mapPages (clearRange s root r) r.ctx root r.perm.toNat r.pgsz (r.op = 0) (r.size / pageSize r.pgsz) r.va pa).bind fun s =>
      if r.share = 0 then some s else sharePages s r pa

/-- The translation change of a MAP. -/
def changeMap (s : State) (root : Nat) (r : MapReq) : Option State :=
  match r.op with
  | 1 => some (clearRange s root r)
  | 2 => some (editRange s root r.va r.size fun p => p / 16 * 16 + p % 2 + 2 * rightsOf r.perm.toNat)
  | 4 => some (editRange s root r.va r.size fun p => p / 2 * 2 + 1)
  | _ => mapFresh s root r

/-- A MAP completes through R436 before it is answered. -/
def mapRequest (s : State) (c : Ctx) (r : MapReq) : Reply :=
  if !mapOk s r || straddles s c.root r.va r.size then denied s 4
  else if r.home < 128 && !(s.region (regionOf r.home)).up then denied s 5
  else match changeMap s c.root r with
    | none => denied s 2
    | some s => grant (invalidateAll s r.ctx false (pagesOf r.va r.size)) []

def execMap (r : UzIn) (s : State) : Out :=
  outside_ "MAP" (receiveCtx s 0x05 r.src r.m fun ctx c b => withBody s (mapBody r.m.h.session.toNat ctx b) (mapRequest s c))

/-! ### FAULT replies (R441) -/

/-- Context and RESULT of a FAULT reply's body: bits [63:16] of the one and [31:1] of the other must be zero. -/
def resultBody (b : List Byte) : Option (Nat × Bool) :=
  let ctx := fieldAt b 0 8
  let x := fieldAt b 8 4
  if b.length < 12 || 65536 ≤ ctx || 2 ≤ x then none else some (ctx, x = 1)

/-- The client answers a record that awaits completion: the service writes DONE, and with that write the record completes (R352, R441), but for a failure
that a saved block still awaits. A later answer, or one about another record, changes nothing. -/
def completeFault (s : State) (session ctx seq : Nat) (fail : Bool) : State :=
  match s.ctx? ctx with
  | some c =>
    let a := c.recAddr seq
    if c.session = session && c.awaited.contains seq && s.phys a 4 = seq then
      let t := devWrite s (a + 0x3C) (toBytes 4 (at_ 31 (bit fail) + seq % 2 ^ 31))
      (completeRecord t ctx seq).getD t
    else s
  | none => s

/-- A FAULT reply, which names its record by the REQ that it echoes; a malformed one is ignored (log 10). -/
def replyFault (s : State) (src : Source) (m : UzMsg) : State :=
  if !heard s src then s
  else match sessionOf s src m.h 0x0B, (content m).bind resultBody with
    | some x, some (ctx, fail) =>
      if hdrFits { m.h with status := 0 } x.major x.minor x.mgmt then completeFault s m.h.session.toNat ctx m.h.req.toNat fail else s
    | _, _ => s

def execFaultReply (src : Source) (h : UzHdr) (fields more : List Byte) (s : State) : Out :=
  outside_ "FAULT_REPLY" (replyFault s src ⟨h, fields ++ more⟩)

/-! ### Firmware, attestation, boot (R441 to R443) -/

/-- An FW_UPDATE body. -/
def fwBody (session : Nat) (b : List Byte) : Option FwReq :=
  let size := fieldAt b 8 8
  if b.length < 0x10 || 2 < fieldAt b 0 1 || fieldAt b 1 3 ≠ 0 || 67108864 < size || b.length < 0x10 + size + 4627 then none
  else some ⟨session, fieldAt b 0 1, fieldAt b 4 4, (b.drop 0x10).take size, (b.drop (0x10 + size)).take 4627⟩

/-- The bytes that the signature of a firmware image covers: TARGET through the last image byte. -/
def fwBytes (target version : Nat) (image : List Byte) : List Byte :=
  toBytes 1 target ++ toBytes 3 0 ++ toBytes 4 version ++ toBytes 8 image.length ++ image

/-- A signature over a digest verifies with the key whose SHA3-512 digest is fused (R442). -/
def fusedVerifies (dig sig : List Byte) : Bool := digest Config.fuseKey == fixLen 64 Config.fuseDigest && Config.mldsaVerify Config.fuseKey dig sig

/-- A firmware image is staged. -/
def stageFw (s : State) (r : FwReq) : Reply :=
  if !fusedVerifies (digest (fwBytes r.target r.version r.image)) r.sig then denied s 3
  else if r.version < s.service.rollback then denied s 4
  else grant (s.updService fun v => { v with staged := mput v.staged r.target (r.version, r.image, r.sig) }) []

/-- FW_UPDATE is accepted on the management port alone. -/
def execFwUpdate (r : UzIn) (s : State) : Out :=
  outside_ "FW_UPDATE" (receive s 0x0C r.src r.m fun x b =>
    if x.mgmt then withBody s (fwBody r.m.h.session.toNat b) (stageFw s) else denied s 6)

/-- The digest of a running image: 0 the Sorboing image, 1 the die controllers' firmware, 2 the port dies' firmware. -/
def runningDigest (s : State) (t : Nat) : List Byte :=
  match mget s.service.running t with
  | some (_, image, _) => digest image
  | none => fixLen 64 (Config.imageDigest t)

/-- What a quote signs. -/
def quoteBody (s : State) (nonce : List Byte) : List Byte :=
  nonce ++ fixLen 16 Config.serial ++ fixLen 64 Config.romDigest ++ runningDigest s 0 ++ runningDigest s 1 ++ runningDigest s 2
    ++ toBytes 4 s.service.rollback ++ fixLen 2592 Config.identityKey

def quoteReply (s : State) (b : List Byte) : Reply :=
  if b.length < 64 then denied s 4
  else
    let q := quoteBody s (b.take 64)
    grant s (q ++ fixLen 4627 (Config.mldsaSign (digest q)))

def execQuote (src : Source) (m : UzMsg) (s : State) : Out := outside_ "QUOTE" (receive s 0x0A src m fun _ b => quoteReply s b)

/-- A panel reset: every register at its reset value; staged images run, and the rollback counter rises to their versions. -/
def panelReset (s : State) : State :=
  let v := s.service
  { State.reset with
    fresh := s.fresh
    service := { Service.reset with
      running := v.staged.foldl (fun m e => mput m e.1 e.2) v.running
      rollback := v.staged.foldl (fun n e => max n e.2.1) v.rollback } }

/-- The Sorboing image that runs: its version, the digest that its signature covers, and the signature; the factory's where none was staged. -/
def sorboing (s : State) : Nat × List Byte × List Byte :=
  match mget s.service.running 0 with
  | some (n, image, sig) => (n, digest (fwBytes 0 n image), sig)
  | none => (Config.factoryVersion, fixLen 64 (Config.imageDigest 0), Config.factorySig)

/-- ROM takes the image: its signature verifies, and its version is not below the rollback counter (R442). -/
def bootable (s : State) : Bool :=
  let x := sorboing s
  s.service.rollback ≤ x.1 && fusedVerifies x.2.1 x.2.2

/-- Port die 0 boots from ROM; an image that ROM refuses does not run. -/
def bootRom (s : State) : State := if bootable s then s.updService fun v => { v with booted := true } else s

/-- A boot of a panel that runs is a panel reset first. -/
def execBoot (s : State) : Out := outside_ "BOOT" (bootRom (if s.service.booted then panelReset s else s))

/-- The dies of a region (R18). -/
def diesOf (r : Nat) : List Nat := (upto 128).filter fun d => regionOf d = r

/-- The service sets the tree bits of a die's cores that are out of service, in both trees (R401). -/
def excuseCores (s : State) (d : Nat) : State :=
  s.updDie d fun x => { x with tmask := (upto 10).map fun i => (i, Config.outOfService d (i % 5)) }

/-- The harts of group g of a port die, from 1 (log 73). -/
def groupHarts (p g : Nat) : List Nat := ((upto 8).map fun i => 8 * p + i).filter fun h => Config.sandboxGroup h % 9 = g

/-- The service starts the sandbox of a group of harts: its second-stage table, empty, lies in a zone that belongs to no context (R432; log 73). -/
def startSandbox (s : State) (p g : Nat) : State :=
  let id := 8 * p + g
  if (groupHarts p g).isEmpty then s
  else match giveSomewhere s 0 zoneSize zoneSize with
    | none => s
    | some (s, root) =>
      s.updService fun v => { v with sandboxes := mput v.sandboxes id ⟨p, groupHarts p g, root, []⟩, tables := mput v.tables (guestTables id) (root + 0x4000) }

/-- The sandboxes of the port dies 1 to 31 that a region powers start as it comes up. -/
def startSandboxes (s : State) (r : Nat) : State :=
  (((upto 32).filter fun p => p ≠ 0 && regionOf (portDie p) = r).flatMap fun p => (upto 8).map fun g => (p, g + 1)).foldl
    (fun s e => startSandbox s e.1 e.2) s

/-- A region is up: regions come up in ascending order, and with region 0 reduced service begins. -/
def bringUp (s : State) (r : Nat) : Option State :=
  if s.service.booted && r = s.service.regionsUp && r < 16 then
    some (startSandboxes ((((diesOf r).foldl excuseCores s).updRegion r fun x => { x with up := true }).updService fun v =>
      { v with regionsUp := r + 1, mode := if r = 0 then 1 else v.mode }) r)
  else none

def execRegionBringUp (r : Nat) (s : State) : Out := event "REGION_BRING_UP" (bringUp s r)

/-- Full service begins at a step boundary once every region is up, and with it a cycle of the core clocks (R1; log 97). -/
def beginFull (s : State) : Option State :=
  if s.service.mode = 1 && s.service.regionsUp = 16 && boundaryDue s then
    some { s.updService fun v => { v with mode := 2 } with clock := (s.clock + 5) / 6 * 6 }
  else none

def execFullService (s : State) : Out := event "FULL_SERVICE" (beginFull s)

/-! ### The port's DMA engine (R431) -/

/-- The page is present. -/
def presentPte (p : Nat) : Bool := p % 2 = 1

/-- A received RMA write: plain stores to pages that are mapped; it completes after its last byte. -/
def receiveRma (s : State) (ctx va : Nat) (data : List Byte) : State :=
  match s.ctx? ctx with
  | none => s.send (.rmaDone ctx false)
  | some c =>
    let x := rmaWrite s ctx c.root presentPte va data
    x.1.send (.rmaDone ctx x.2)

def execRmaWriteReceive (ctx va : Nat) (data : List Byte) (s : State) : Out := outside_ "RMA_WRITE_RECEIVE" (receiveRma s ctx va data)

def execUnsupportedFeatureRequest (port : Nat) (s : State) : Out := outside_ "UNSUPPORTED_FEATURE_REQUEST" (s.send (.portNack port))

/-! ### Cluster caches (R13, R429) -/

/-- Where the lines of port die p's cluster cache are held: among the cores, behind the last. -/
def portCache (p : Nat) : Nat := 40960 + p

/-- A line becomes the most recently used of the 16,384 that a cluster cache holds; which line it evicts is the model's choice (log 41), and a dirty one
is written back as an L1's is (R235). -/
def portInstall (s : State) (p line : Nat) (st : LineSt) : State :=
  setL1 s (portCache p) fun l => ((line, st) :: l.filter fun e => e.1 != line).take 16384

/-- A hart reads a line: the cluster cache is a sharer that the home tracks as an L1. -/
def portRead (s : State) (p line : Nat) : State :=
  if panelEnd ≤ line then s
  else match (s.core (portCache p)).l1.find? fun e => e.1 = line with
    | some e => portInstall s p line e.2
    | none =>
      let s := giveUp (readMiss s (portDie p) line) line
      portInstall s p line (readState s (portCache p) line)

/-- A hart's store owns its line; where the line has bound sharers the home takes the data, and the cache's copy is shared with theirs. -/
def portOwn (s : State) (p line : Nat) : State :=
  if panelEnd ≤ line then s
  else
    let s := if ownsLine s (portCache p) line then s else serveOwn s (some (portCache p)) line
    if boundAny s line then toHome (portInstall s p line .s) line else portInstall s p line .m

/-- The lines of an access. -/
def linesOf (pa n : Nat) : List Nat := sortNat [lineOf pa, lineOf (pa + n - 1)]

/-- A store of a hart takes effect at its home. -/
def portStore (s : State) (p pa : Nat) (data : List Byte) : State :=
  let s := (linesOf pa data.length).foldl (fun s l => portOwn s p l) s
  push (clearPoison (rawWrite s pa data) pa data.length) pa data.length

/-! ### Sandboxes (R432, R433) -/

/-- The sandbox that runs on a hart: its id, and what it is. -/
def sandboxAt (s : State) (hart : Nat) : Option (Nat × Sandbox) := s.service.sandboxes.find? fun x => x.2.harts.contains hart

/-- A sandbox ends alone: its dirty lines are written back as clean data, its mappings are removed, and its harts stop. -/
def endSandbox (s : State) (id : Nat) : Option State :=
  match mget s.service.sandboxes id with
  | none => none
  | some x =>
    let s := setL1 s (portCache x.port) fun l => l.map fun e => if e.2 = .m && x.pages.contains (e.1 / 4096 * 4096) then (e.1, .e) else e
    some ((zeroRange s x.root 0x4000).updService fun v => { v with sandboxes := mdel v.sandboxes id })

def execSandboxEnd (id : Nat) (s : State) : Out := event "SANDBOX_END" (endSandbox s id)

/-- A hart takes an access fault that the service does not resolve: a sandbox on it is ended. -/
def hartFault (s : State) (hart : Nat) : State :=
  let s := s.send (.hartReply hart none)
  match sandboxAt s hart with
  | some x => s.post (.sandboxEnd x.1)
  | none => s

/-- The second stage of a sandbox translates a guest's address below 2^48 for a load or a store; above, its Sv48x4 table holds nothing. -/
def guestPA (s : State) (x : Sandbox) (w : Bool) (gpa : Nat) : Option Nat :=
  if 2 ^ 48 ≤ gpa then none
  else match findLeaf s gpa 3 x.root with
    | some (l, _, p) => if p % 2 = 1 && p / 16 % 2 = 1 && p / (if w then 4 else 2) % 2 = 1 then some (leafBase p + gpa % leafSize l p) else none
    | none => none

/-- Where an access of n bytes of a guest lies: both its ends must be mapped side by side. -/
def guestRange (s : State) (x : Sandbox) (w : Bool) (gpa n : Nat) : Option Nat :=
  match guestPA s x w gpa, guestPA s x w (gpa + n - 1) with
  | some a, some b => if b = a + n - 1 then some a else none
  | _, _ => none

/-- An access of a guest by physical address; none where its second stage faults. -/
def guestOp (s : State) (x : Sandbox) : HartOp → Option HartOp
  | .fence => some .fence
  | .load a n => (guestRange s x false a n).map fun pa => .load pa n
  | .store a n v => (guestRange s x true a n).map fun pa => .store pa n v
  | .amo op a n v => (guestRange s x true a n).map fun pa => .amo op pa n v

/-! ### Harts (R288, R429, R432) -/

/-- Bytes of an access of a hart are all decoded memory. -/
def hartReaches (pa n : Nat) : Bool := decodedPA pa && decodedPA (pa + n - 1) && (n = 1 || n = 2 || n = 4 || n = 8)

/-- An access of a hart by physical address. Only the harts of port die 0 reach the port dies' window, where a read is open. -/
def hartDoes (s : State) (hart : Nat) (op : HartOp) : State :=
  let bad := s.send (.hartReply hart none)
  let ok (s : State) (v : Word) : State := s.send (.hartReply hart (some v))
  match op with
  | .fence => ok s 0
  | .load pa n =>
    if !hartReaches pa n then bad
    else if portBase ≤ pa + n - 1 then (if hart < 8 then ok s.tick (Config.freeWord s.fresh) else bad)
    else if s.poisoned pa n then hartFault s hart
    else ok ((linesOf pa n).foldl (fun s l => portRead s (hart / 8) l) s) (ofNat64 (s.phys pa n))
  | .store pa n v =>
    if !hartReaches pa n then bad
    else if portBase ≤ pa + n - 1 then (if hart < 8 then ok s 0 else bad)
    else ok (portStore s (hart / 8) pa (toBytes n v.toNat)) 0
  | .amo op pa n v =>
    if !hartReaches pa n || n < 4 || pa % n ≠ 0 || winBase ≤ pa then bad
    else if s.poisoned pa n then hartFault s hart
    else
      let old := s.phys pa n
      ok (devWrite s pa (toBytes n (amoNew op (8 * n) old (v.toNat % 2 ^ (8 * n))))) (ofNat64 old)

/-- A hart accesses memory while its port die's region is up: the harts of port die 0 by physical address, the others as guests, where a sandbox runs on
them; nothing else connects them with a context (R432). -/
def hartRuns (s : State) (hart : Nat) (op : HartOp) : Option State :=
  if 256 ≤ hart || !portUp s (hart / 8) then none
  else if hart < 8 then some (hartDoes s hart op)
  else match sandboxAt s hart with
    | none => none
    | some (_, x) =>
      match guestOp s x op with
      | some op => some (hartDoes s hart op)
      | none => some (hartFault s hart)

def execHartAccess (hart : Nat) (op : HartOp) (s : State) : Out := event "HART_ACCESS" (hartRuns s hart op)

end Sys2Proof.Machine
end

