-- ==== Sys2Proof/Machine/Dispatch.lean ====
section
/-! DEFINITION. The meaning of every instruction and event: one arm for each constructor of `Instr`. -/
namespace Sys2Proof.Machine

def exec (i : Instr) (s : State) : Host.Outcome State Fault Refusal :=
  match i with
  -- spec 02, 05
  | .clause wait seta setb zero => Sys2Proof.Machine.execClause wait seta setb zero s
  | .nop wide => Sys2Proof.Machine.execNop wide s
  | .add f uns sat => Sys2Proof.Machine.execAdd f uns sat s
  | .sub f uns sat => Sys2Proof.Machine.execSub f uns sat s
  | .mul f uns sat => Sys2Proof.Machine.execMul f uns sat s
  | .mad f uns sat => Sys2Proof.Machine.execMad f uns sat s
  | .mulhi f uns => Sys2Proof.Machine.execMulhi f uns s
  | .div f uns => Sys2Proof.Machine.execDiv f uns s
  | .rem f uns => Sys2Proof.Machine.execRem f uns s
  | .abs f sat => Sys2Proof.Machine.execAbs f sat s
  | .min f uns => Sys2Proof.Machine.execMin f uns s
  | .max f uns => Sys2Proof.Machine.execMax f uns s
  | .and f => Sys2Proof.Machine.execAnd f s
  | .or f => Sys2Proof.Machine.execOr f s
  | .xor f => Sys2Proof.Machine.execXor f s
  | .andn f => Sys2Proof.Machine.execAndn f s
  | .orn f => Sys2Proof.Machine.execOrn f s
  | .shl f sat => Sys2Proof.Machine.execShl f sat s
  | .shr f => Sys2Proof.Machine.execShr f s
  | .sar f => Sys2Proof.Machine.execSar f s
  | .rol f => Sys2Proof.Machine.execRol f s
  | .ror f => Sys2Proof.Machine.execRor f s
  | .clz f => Sys2Proof.Machine.execClz f s
  | .ctz f => Sys2Proof.Machine.execCtz f s
  | .popc f => Sys2Proof.Machine.execPopc f s
  | .brev f => Sys2Proof.Machine.execBrev f s
  | .bfx f => Sys2Proof.Machine.execBfx f s
  | .bfi f => Sys2Proof.Machine.execBfi f s
  | .ext f => Sys2Proof.Machine.execExt f s
  | .mov f => Sys2Proof.Machine.execMov f s
  | .movi f => Sys2Proof.Machine.execMovi f s
  | .movq f => Sys2Proof.Machine.execMovq f s
  | .sel f np => Sys2Proof.Machine.execSel f np s
  | .lea f sh => Sys2Proof.Machine.execLea f sh s
  | .cmp f orr cond => Sys2Proof.Machine.execCmp f orr cond s
  | .plog f lut => Sys2Proof.Machine.execPlog f lut s
  | .pmov f dir => Sys2Proof.Machine.execPmov f dir s
  | .movx f => Sys2Proof.Machine.execMovx f s
  | .movxw f => Sys2Proof.Machine.execMovxw f s
  -- spec 06
  | .fadd f rm => Sys2Proof.Machine.execFadd f rm s
  | .fsub f rm => Sys2Proof.Machine.execFsub f rm s
  | .fmul f rm => Sys2Proof.Machine.execFmul f rm s
  | .ffma f rm => Sys2Proof.Machine.execFfma f rm s
  | .fmin f => Sys2Proof.Machine.execFmin f s
  | .fmax f => Sys2Proof.Machine.execFmax f s
  | .fminx f => Sys2Proof.Machine.execFminx f s
  | .fmaxx f => Sys2Proof.Machine.execFmaxx f s
  | .fcmp f orr cond => Sys2Proof.Machine.execFcmp f orr cond s
  | .fclass f => Sys2Proof.Machine.execFclass f s
  | .fcvt f sf rm => Sys2Proof.Machine.execFcvt f sf rm s
  | .fcvti f sf rm => Sys2Proof.Machine.execFcvti f sf rm s
  | .icvtf f nat w64 rm => Sys2Proof.Machine.execIcvtf f nat w64 rm s
  | .frnd f x rm => Sys2Proof.Machine.execFrnd f x rm s
  | .fsqrt f rm => Sys2Proof.Machine.execFsqrt f rm s
  | .fdiv f rm => Sys2Proof.Machine.execFdiv f rm s
  | .frcp f => Sys2Proof.Machine.execFrcp f s
  | .frsq f => Sys2Proof.Machine.execFrsq f s
  | .fexp2 f => Sys2Proof.Machine.execFexp2 f s
  | .flog2 f => Sys2Proof.Machine.execFlog2 f s
  | .fsin f => Sys2Proof.Machine.execFsin f s
  | .fcos f => Sys2Proof.Machine.execFcos f s
  | .ftanh f => Sys2Proof.Machine.execFtanh f s
  | .dot f kind rm => Sys2Proof.Machine.execDot f kind rm s
  | .qz f => Sys2Proof.Machine.execQz f s
  | .dq f rm => Sys2Proof.Machine.execDq f rm s
  | .pack f rm => Sys2Proof.Machine.execPack f rm s
  | .unpk f hi => Sys2Proof.Machine.execUnpk f hi s
  -- spec 07
  | .bra g off => Sys2Proof.Machine.execBra g off s
  | .call g link off => Sys2Proof.Machine.execCall g link off s
  | .brx f => Sys2Proof.Machine.execBrx f s
  | .ret f => Sys2Proof.Machine.execRet f s
  | .trap f => Sys2Proof.Machine.execTrap f s
  | .brk g => Sys2Proof.Machine.execBrk g s
  | .mcall g n => Sys2Proof.Machine.execMcall g n s
  | .ld m sz => Sys2Proof.Machine.execLd m sz s
  | .st m sz => Sys2Proof.Machine.execSt m sz s
  | .pref m kind => Sys2Proof.Machine.execPref m kind s
  | .amo m op => Sys2Proof.Machine.execAmo m op s
  | .cas m sz => Sys2Proof.Machine.execCas m sz s
  | .cstore m sz => Sys2Proof.Machine.execCstore m sz s
  | .ldl l sz => Sys2Proof.Machine.execLdl l sz s
  | .stl l sz => Sys2Proof.Machine.execStl l sz s
  -- spec 12
  | .bind m sz => Sys2Proof.Machine.execBind m sz s
  | .unbind g d => Sys2Proof.Machine.execUnbind g d s
  | .bsync g => Sys2Proof.Machine.execBsync g s
  | .bwait f cond => Sys2Proof.Machine.execBwait f cond s
  | .bamo f op => Sys2Proof.Machine.execBamo f op s
  | .bcas f => Sys2Proof.Machine.execBcas f s
  -- spec 13
  | .fence g kind scope => Sys2Proof.Machine.execFence g kind scope s
  | .fenceOwn g => Sys2Proof.Machine.execFenceOwn g s
  | .fenceFar g scope => Sys2Proof.Machine.execFenceFar g scope s
  -- spec 09
  | .shfl f mode => Sys2Proof.Machine.execShfl f mode s
  | .vote f mode => Sys2Proof.Machine.execVote f mode s
  | .matchBits f => Sys2Proof.Machine.execMatchBits f s
  | .matchf f => Sys2Proof.Machine.execMatchf f s
  | .scan f op exc sat rm => Sys2Proof.Machine.execScan f op exc sat rm s
  | .red f op sat rm => Sys2Proof.Machine.execRed f op sat rm s
  | .fork g sn d off => Sys2Proof.Machine.execFork g sn d off s
  | .fend g => Sys2Proof.Machine.execFend g s
  | .id f sel => Sys2Proof.Machine.execId f sel s
  | .launch f => Sys2Proof.Machine.execLaunch f s
  | .barArrive f rd n => Sys2Proof.Machine.execBarArrive f rd n s
  | .barWait f n => Sys2Proof.Machine.execBarWait f n s
  | .barSync f n => Sys2Proof.Machine.execBarSync f n s
  | .yield g => Sys2Proof.Machine.execYield g s
  | .join g => Sys2Proof.Machine.execJoin g s
  | .qpush f nb => Sys2Proof.Machine.execQpush f nb s
  | .qpop f nb => Sys2Proof.Machine.execQpop f nb s
  -- spec 10
  | .recruit r => Sys2Proof.Machine.execRecruit r s
  | .hwork f => Sys2Proof.Machine.execHwork f s
  | .hret f op => Sys2Proof.Machine.execHret f op s
  | .hend g => Sys2Proof.Machine.execHend g s
  -- spec 18, 20, 24
  | .tret g => Sys2Proof.Machine.execTret g s
  | .sysr f ax => Sys2Proof.Machine.execSysr f ax s
  | .sysw f ax => Sys2Proof.Machine.execSysw f ax s
  | .tread f => Sys2Proof.Machine.execTread f s
  | .icinv f all => Sys2Proof.Machine.execIcinv f all s
  | .mcdef f => Sys2Proof.Machine.execMcdef f s
  | .migrate f => Sys2Proof.Machine.execMigrate f s
  | .tarr f rd tree => Sys2Proof.Machine.execTarr f rd tree s
  | .twait f tree => Sys2Proof.Machine.execTwait f tree s
  -- spec 15, 16
  | .spush f nb => Sys2Proof.Machine.execSpush f nb s
  | .spop f nb => Sys2Proof.Machine.execSpop f nb s
  | .lbmapSwap g d a => Sys2Proof.Machine.execLbmapSwap g d a s
  | .lbmapSet g d b => Sys2Proof.Machine.execLbmapSet g d b s
  | .cpIn e db keep fmt doff k128 => Sys2Proof.Machine.execCpIn e db keep fmt doff k128 s
  | .cpOut e sb pair soff scope => Sys2Proof.Machine.execCpOut e sb pair soff scope s
  | .cpPeer e sb tb soff toff scope keep => Sys2Proof.Machine.execCpPeer e sb tb soff toff scope keep s
  | .cpFill e db keep glb doff scope => Sys2Proof.Machine.execCpFill e db keep glb doff scope s
  | .pub g bar a scope => Sys2Proof.Machine.execPub g bar a scope s
  | .gNode g n cnt bar => Sys2Proof.Machine.execGNode g n cnt bar s
  | .gEdge g x y => Sys2Proof.Machine.execGEdge g x y s
  | .gRun g bar => Sys2Proof.Machine.execGRun g bar s
  | .gReset g => Sys2Proof.Machine.execGReset g s
  | .mm e abuf bbuf aoff boff tile ow tri ia => Sys2Proof.Machine.execMm e abuf bbuf aoff boff tile ow tri ia s
  | .mmClr g bar tile => Sys2Proof.Machine.execMmClr g bar tile s
  | .mmLd g bar sb tile lk soff => Sys2Proof.Machine.execMmLd g bar sb tile lk soff s
  | .mmRd g bar db keep tile sk ofmt doff => Sys2Proof.Machine.execMmRd g bar db keep tile sk ofmt doff s
  -- events of spec 95
  | .operationCompletion uid op => Sys2Proof.Machine.execOperationCompletion uid op s
  | .watchdog => Sys2Proof.Machine.execWatchdog s
  | .weaveDemote uid widx => Sys2Proof.Machine.execWeaveDemote uid widx s
  | .weavePromote core => Sys2Proof.Machine.execWeavePromote core s
  | .launchReady ctx queue => Sys2Proof.Machine.execLaunchReady ctx queue s
  | .blockPlacement die => Sys2Proof.Machine.execBlockPlacement die s
  | .preemption die => Sys2Proof.Machine.execPreemption die s
  | .launchCompletion ctx lid => Sys2Proof.Machine.execLaunchCompletion ctx lid s
  | .trapEntry uid => Sys2Proof.Machine.execTrapEntry uid s
  | .recordCompletion ctx seq => Sys2Proof.Machine.execRecordCompletion ctx seq s
  | .breakpointMatch n => Sys2Proof.Machine.execBreakpointMatch n s
  | .helperStart uid pool => Sys2Proof.Machine.execHelperStart uid pool s
  | .releaseRequest uid widx => Sys2Proof.Machine.execReleaseRequest uid widx s
  | .recruiterResume uid pool => Sys2Proof.Machine.execRecruiterResume uid pool s
  | .push core line => Sys2Proof.Machine.execPush core line s
  | .missRequest core line own => Sys2Proof.Machine.execMissRequest core line own s
  | .dataReply core line => Sys2Proof.Machine.execDataReply core line s
  | .probe core line => Sys2Proof.Machine.execProbe core line s
  | .writeBack core line => Sys2Proof.Machine.execWriteBack core line s
  | .collapse line => Sys2Proof.Machine.execCollapse line s
  | .zoneReview zone => Sys2Proof.Machine.execZoneReview zone s
  | .replWrite zone v => Sys2Proof.Machine.execReplWrite zone v s
  | .translationWalk ctx die vpn => Sys2Proof.Machine.execTranslationWalk ctx die vpn s
  | .commandStart uid e => Sys2Proof.Machine.execCommandStart uid e s
  | .commandCompletion uid cmd => Sys2Proof.Machine.execCommandCompletion uid cmd s
  | .commandError uid cmd inner => Sys2Proof.Machine.execCommandError uid cmd inner s
  | .seqctlEnd uid => Sys2Proof.Machine.execSeqctlEnd uid s
  | .relaunchEvent src cause addr aux => Sys2Proof.Machine.execRelaunchEvent src cause addr aux s
  | .remoteRefusal src pa sq => Sys2Proof.Machine.execRemoteRefusal src pa sq s
  | .save core frame => Sys2Proof.Machine.execSave core frame s
  | .restore die core frame => Sys2Proof.Machine.execRestore die core frame s
  | .retire core => Sys2Proof.Machine.execRetire core s
  | .returnToService core => Sys2Proof.Machine.execReturnToService core s
  | .dieReset die => Sys2Proof.Machine.execDieReset die s
  | .drainDeadline die => Sys2Proof.Machine.execDrainDeadline die s
  | .dieReturn die => Sys2Proof.Machine.execDieReturn die s
  | .sliceRetire die n => Sys2Proof.Machine.execSliceRetire die n s
  | .invalidation die ctx page all => Sys2Proof.Machine.execInvalidation die ctx page all s
  | .registerWrite die off v => Sys2Proof.Machine.execRegisterWrite die off v s
  | .messageArrival uid widx => Sys2Proof.Machine.execMessageArrival uid widx s
  | .messageRetry uid widx => Sys2Proof.Machine.execMessageRetry uid widx s
  | .handlerStart core => Sys2Proof.Machine.execHandlerStart core s
  | .migrationArrival uid => Sys2Proof.Machine.execMigrationArrival uid s
  | .treeReport tree die => Sys2Proof.Machine.execTreeReport tree die s
  | .absenceNotice tree uid => Sys2Proof.Machine.execAbsenceNotice tree uid s
  | .presenceNotice tree uid => Sys2Proof.Machine.execPresenceNotice tree uid s
  | .roundComplete tree => Sys2Proof.Machine.execRoundComplete tree s
  | .treeRelease tree die => Sys2Proof.Machine.execTreeRelease tree die s
  | .scrub line r => Sys2Proof.Machine.execScrub line r s
  | .stepBoundary => Sys2Proof.Machine.execStepBoundary s
  | .droopAlarm r => Sys2Proof.Machine.execDroopAlarm r s
  | .droopRecovery r => Sys2Proof.Machine.execDroopRecovery r s
  | .holdExpiry r => Sys2Proof.Machine.execHoldExpiry r s
  -- the service, spec 24
  | .sessionOpen src m => Sys2Proof.Machine.execSessionOpen src m s
  | .contextCreate r => Sys2Proof.Machine.execContextCreate r s
  | .contextDestroy src m => Sys2Proof.Machine.execContextDestroy src m s
  | .moduleLoad r => Sys2Proof.Machine.execModuleLoad r s
  | .map r => Sys2Proof.Machine.execMap r s
  | .put src h fields data => Sys2Proof.Machine.execPut src h fields data s
  | .get src h fields more => Sys2Proof.Machine.execGet src h fields more s
  | .launchRequest src h ctx record more => Sys2Proof.Machine.execLaunchRequest src h ctx record more s
  | .quote src m => Sys2Proof.Machine.execQuote src m s
  | .faultReply src h fields more => Sys2Proof.Machine.execFaultReply src h fields more s
  | .fwUpdate r => Sys2Proof.Machine.execFwUpdate r s
  | .rmaWriteReceive ctx va data => Sys2Proof.Machine.execRmaWriteReceive ctx va data s
  | .sandboxEnd id => Sys2Proof.Machine.execSandboxEnd id s
  | .boot => Sys2Proof.Machine.execBoot s
  | .fullService => Sys2Proof.Machine.execFullService s
  | .illegalInstruction g len => Sys2Proof.Machine.execIllegalInstruction g len s
  | .sessionClose session => Sys2Proof.Machine.execSessionClose session s
  | .regionBringUp r => Sys2Proof.Machine.execRegionBringUp r s
  | .hartAccess hart op => Sys2Proof.Machine.execHartAccess hart op s
  | .unsupportedFeatureRequest port => Sys2Proof.Machine.execUnsupportedFeatureRequest port s
  | .reservedTypeRequest r ty => Sys2Proof.Machine.execReservedTypeRequest r ty s

end Sys2Proof.Machine
end

