-- ==== Sys2Proof/Machine/Due.lean ====
section
/-! DEFINITION. Which event of the panel an event turn executes: the kinds of event are tried in rotation, so that none is kept out (spec 95;
log 4). An event is due only while its own rule enables it. -/
namespace Sys2Proof.Machine

/-- An event where a test holds. -/
def dueIf (c : Bool) (i : Instr) : Option Instr := if c then some i else none

/-- A list in rotation: where it begins goes with the count of free values, so that nothing in it always comes first. -/
def turned {α : Type} (s : State) (l : List α) : List α := l.drop (s.fresh % l.length) ++ l.take (s.fresh % l.length)
/-- The first block for which an event is due. -/
def overBlocks (s : State) (f : Nat → Block → Option Instr) : Option Instr := (turned s s.blocks).findSome? fun b => f b.1 b.2
/-- The first weave for which an event is due. -/
def overWeaves (s : State) (f : Nat → Nat → Weave → Option Instr) : Option Instr :=
  overBlocks s fun u b => b.weaves.findSome? fun w => f u w.1 w.2
/-- The first listed die for which an event is due. -/
def overDies (s : State) (f : Nat → Die → Option Instr) : Option Instr := (turned s s.dies).findSome? fun d => f d.1 d.2

/-! ### What comes before anything else: the end of a step or of a window -/

/-- A die that has been fenced: its lines are homed anew before anything else asks for them, so that every request for one is answered by the new home
(R404; log 96). -/
def dueRehome (s : State) : Option Instr := s.dies.findSome? fun d => dueIf (d.2.drstate = 2 && (resetStep s d.1).isSome) (.dieReset d.1)

/-- A fenced die is re-homed, full service begins, a step boundary that panel time has reached is passed, or a zone is reviewed at the end of a window,
before the next step or window holds anything (R243, R404, R425, R442). -/
def dueFirst (s : State) : Option Instr :=
  match dueRehome s with
  | some i => some i
  | none =>
    if (beginFull s).isSome then some .fullService
    else if boundaryDue s then some .stepBoundary
    else s.zones.findSome? fun z => dueIf (reviewZone s z.1).isSome (.zoneReview z.1)

/-! ### The regions -/

def dueHold (s : State) : Option Instr := (upto 16).findSome? fun r => dueIf (expireHold s r).isSome (.holdExpiry r)

/-! ### The die controllers -/

/-- The next event of a controller's command. -/
def commandEvent (s : State) (d : Nat) (x : Die) : Option Instr :=
  match x.dcbusy with
  | some (1, i, a) => dueIf (saveStep s (320 * d + i) a).isSome (.save (320 * d + i) a)
  | some (2, i, a) => dueIf (restoreStep s d i a).isSome (.restore d i a)
  | some (3, i, _) =>
    (match dueIf (retireStep s (320 * d + i)).isSome (.retire (320 * d + i)) with
      | some e => some e
      | none => (match retiring s d with
          | some f => dueIf (restoreStep s d 511 f).isSome (.restore d 511 f)
          | none => none))
  | some (4, i, _) => dueIf (returnStep s (320 * d + i)).isSome (.returnToService (320 * d + i))
  | some (8, _, _) => dueIf (resetStep s d).isSome (.dieReset d)
  | some (9, _, _) => dueIf (returnDie s d).isSome (.dieReturn d)
  | some (10, n, _) => dueIf (sliceStep s d n).isSome (.sliceRetire d n)
  | _ => none

def dueCommand (s : State) : Option Instr := overDies s (commandEvent s)

def dueSaving (s : State) : Option Instr :=
  overBlocks s fun _ b => match b.saving with
    | some (f, _) => dueIf (saveStep s b.core f).isSome (.save b.core f)
    | none => none

def dueDrain (s : State) : Option Instr := overDies s fun d _ => dueIf (expireDrain s d).isSome (.drainDeadline d)

def dueInval (s : State) : Option Instr := overDies s fun d x => dueIf x.invalBusy (invalOf d x.inval)

def dueSlice (s : State) : Option Instr :=
  overDies s fun d x => x.slcerr.findSome? fun e => dueIf (sliceWorn s d e.1) (.sliceRetire d e.1)

/-! ### Weaves, helpers, streams -/

def dueHelpers (s : State) : Option Instr :=
  overWeaves s fun u _ x => x.batches.findSome? fun b => match b.state with
    | .wait (.start _) => b.members.findSome? fun sl => match (mget x.fibres sl).map Fibre.kind with
        | some (.helper rw rs _) => some (.helperStart u (poolKey rw rs))
        | _ => none
    | _ => none

def dueResume (s : State) : Option Instr :=
  overWeaves s fun u w x => x.fibres.findSome? fun f => match f.2.pool with
    | some p => dueIf (p.waiting && p.helpers = 0) (.recruiterResume u (poolKey w f.1))
    | none => none

def dueOperation (s : State) : Option Instr := overBlocks s fun u b => b.ops.head?.map fun e => .operationCompletion u e.1

def dueStream (s : State) : Option Instr := overBlocks s fun u _ => dueIf (endStream s u).isSome (.seqctlEnd u)

def dueMigration (s : State) : Option Instr := overBlocks s fun u _ => dueIf (arriveMigrated s u).isSome (.migrationArrival u)

def dueDemote (s : State) : Option Instr := overWeaves s fun u w x => dueIf (x.active && (demote s u w).isSome) (.weaveDemote u w)

def duePromote (s : State) : Option Instr :=
  overWeaves s fun _ _ x => dueIf (!x.active && x.ready && (promote s x.core).isSome) (.weavePromote x.core)

/-! ### Engines -/

def dueStart (s : State) : Option Instr :=
  overBlocks s fun u _ => match dueIf (startCmd s u .copy).isSome (.commandStart u .copy) with
    | some i => some i
    | none => dueIf (startCmd s u .array).isSome (.commandStart u .array)

/-- A command that can start does so before another completes (R346). -/
def dueComplete (s : State) : Option Instr :=
  match dueStart s with
  | some i => some i
  | none => overBlocks s fun u b => b.running.findSome? fun r => dueIf (completeCmd s u r.cmd.id).isSome (.commandCompletion u r.cmd.id)

/-! ### Records and messages -/

def dueRecord (s : State) : Option Instr :=
  s.ctxs.findSome? fun c => c.2.awaited.findSome? fun q => dueIf (completeRecord s c.1 q).isSome (.recordCompletion c.1 q)

def dueMessage (s : State) : Option Instr :=
  overWeaves s fun u w _ => match dueIf (deliver s u w false).isSome (.messageArrival u w) with
    | some i => some i
    | none => dueIf (deliver s u w true).isSome (.messageRetry u w)

/-- A helper weave on a core that can be asked to release. -/
def releaseOn (s : State) (p : Nat → Bool) : Option Instr :=
  overWeaves s fun u w x => dueIf (p x.core && x.kind == .helper && !(releasable x).isEmpty) (.releaseRequest u w)

/-- The message at the head of a core's queue, or a helper weave's release where no weave slot is free for its handler (R223, R390). -/
def dueHandler (s : State) : Option Instr :=
  s.cores.findSome? fun c =>
    if c.2.inq.isEmpty then none
    else if (handleHead s c.1).isSome then some (.handlerStart c.1)
    else if (freeWslots s c.1).isEmpty then releaseOn s (· = c.1)
    else none

/-! ### Trees -/

/-- A context that holds the tree has a block on the panel, resident or saved. -/
def hasMember (s : State) (tree : Bool) : Bool :=
  s.blocks.any (fun b => inTree s b.2 tree) || s.frames.any fun f => f.2.block.any fun b => inTree s b tree

def dueTree (s : State) (tree : Bool) : Option Instr :=
  if !hasMember s tree then none
  else match (turned s (upto 128)).find? fun d => (releaseRound s tree d).isSome with
    | some d => some (.treeRelease tree d)
    | none =>
      match dueIf (completeRound s tree).isSome (.roundComplete tree) with
      | some i => some i
      | none => ((turned s (upto 128)).find? fun d => (reportDie s tree d).isSome).map fun d => .treeReport tree d

/-! ### Caches -/

def dueMiss (s : State) : Option Instr :=
  (turned s s.cores).findSome? fun c => c.2.misses.findSome? fun m =>
    if m.replied then dueIf (missReply s c.1 m.line).isSome (.dataReply c.1 m.line)
    else dueIf (missServe s c.1 m.line m.own).isSome (.missRequest c.1 m.line m.own)

/-! ### Launches -/

def dueReady (s : State) : Option Instr :=
  s.ctxs.findSome? fun c => (upto 16).findSome? fun q => dueIf (readyLaunch s c.1 q).isSome (.launchReady c.1 q)

def duePlacement (s : State) : Option Instr :=
  if (readyLaunches s).isEmpty then none else ((turned s (inService s)).find? fun d => (placeBlock s d).isSome).map fun d => .blockPlacement d

def dueLaunch (s : State) : Option Instr :=
  s.ctxs.findSome? fun c => c.2.launches.findSome? fun l => dueIf (completeLaunch s c.1 l.lid).isSome (.launchCompletion c.1 l.lid)

/-- A core needs the room of its helper weaves for a launch that its die's dispatcher offers. -/
def coreNeeds (s : State) (c : Nat) : Bool :=
  diePlaces s (coreDie c) && (offered s (coreDie c) (readyLaunches s)).any fun e => needsRoom s c e.1 e.2

/-- Room is made for a block that fits on no die: helpers are asked to release, or blocks are pre-empted (R175, R223). -/
def dueRoom (s : State) : Option Instr :=
  if (readyLaunches s).isEmpty || (duePlacement s).isSome then none
  else match releaseOn s (coreNeeds s) with
    | some i => some i
    | none => ((turned s (inService s)).find? fun d => (preemptStep s d).isSome).map fun d => .preemption d

/-! ### The rotation -/

/-- The kinds of event, an odd number of them. -/
def kinds : List (State → Option Instr) :=
  [dueHold, dueCommand, dueSaving, dueDrain, dueInval, dueSlice, dueHelpers, dueResume, dueOperation, dueStream, dueMigration,
   dueDemote, duePromote, dueStart, dueComplete, dueRecord, dueMessage, dueHandler, fun s => dueTree s false, fun s => dueTree s true, dueMiss,
   dueReady, duePlacement, dueLaunch, dueRoom]

/-- The event that an event turn executes. -/
def due (s : State) : Option Instr :=
  let k := s.fresh % kinds.length
  (kinds.drop k ++ kinds.take k).findSome? fun f => f s

end Sys2Proof.Machine
end

