-- ==== Sys2Proof/Machine/Step.lean ====
section
/-! DEFINITION. One step of the panel: what ends a power step or a window, else the oldest waiting event, else an event that is due, else an instruction of the agent in focus. -/
namespace Sys2Proof.Machine

/-- An event that is no longer possible passes without effect (log 4); its walks are over (R252). -/
def soften (s : State) (o : Out) : Out :=
  match o with
  | .fault (.notEnabled _) => .next s
  | .next t => .next { t with walks := [] }
  | o => o

/-- A step's end. -/
def endStep (o : Out) : Out :=
  match o with
  | .next s => .next (passTurn s)
  | .fault r => .fault r
  | .refused r => .refused r

/-- The agent in focus takes its turn. -/
def stepIssue (s : State) : Out :=
  match takeTurn s with
  | (t, .run i) => exec i t
  | (t, .over) => .next t

/-- One step: the end of a power step or of a window first, then the inbox, then the turn. -/
def step (s : State) : Host.Outcome State Fault Refusal :=
  match dueFirst s, s.inbox with
  | some i, _ => soften s (exec i s)
  | none, i :: r => soften { s with inbox := r } (exec i { s with inbox := r })
  | none, [] =>
    match s.turn, due s with
    | .event, some i => endStep (soften s (exec i s))
    | .event, none => endStep (.next s)
    | .issue, _ => endStep (stepIssue s)

/-- The instruction `w` of `nbits` bits stands where the next step fetches. -/
def State.withFetchWord (s : State) (nbits w : Nat) : State :=
  placeProgram s (toBytes 16 (w % 2 ^ nbits))
    (match decode (w % 2 ^ nbits) with | some i => !i.onFibre | none => false)

end Sys2Proof.Machine
end

