-- ==== Sys2Proof/Safety.lean ====
section
/-! DEFINITION. What the statements call a good state and a good step: memory in canonical form, an instruction that issues with
nothing in its way, and where its batch goes on. -/
namespace Sys2Proof

/-- Memory stands in its canonical form. -/
def MemoryCanonical (s : Machine.State) : Prop := Machine.Memory.wf s.mem = true

end Sys2Proof
namespace Sys2Proof.Machine

/-- The current batch of the weave in focus issues `i` with nothing in its way: the PC is no transfer target, single step is off, the
selected mark has room, some fibre participates, every participant passes checks 3 to 5 (R61), the core has the miss entry that it may need at its
issue (R248) and the registers for the results (R185), and no second issue checks the first (R368). Answers the context of the issue. -/
def readyFib (i : Instr) (s : State) : Option Iss :=
  match s.focus with
  | .weave u w =>
    match s.block? u, s.weave? u w with
    | some blk, some x =>
      match x.curBatch with
      | some b =>
        let k := fibIss s u w x b i.size i.guard
        if !b.entry && !x.ss && !(i.longLat && decide (k.markOf i < 12) && decide (63 ≤ s.markCount u (some w) (k.markOf i)))
            && !k.acts.isEmpty && k.acts.all (fun a => (issueCheck s k i blk.hdr a).isNone)
            && !entryWaits s x.core i k.acts && (x.kind == .helper || hasRegs s u x.core (regNeed s i k.acts)) && !(blk.chk && i.inLane) then some k
        else none
      | none => none
    | _, _ => none
  | _ => none

/-- The stream in focus issues `i` with nothing in its way. -/
def readySeq (i : Instr) (s : State) : Option Iss :=
  match s.focus with
  | .stream u =>
    match s.block? u, s.stream? u with
    | some blk, some x =>
      let k := seqIss s u x i.size i.guard
      if !x.entry && !x.ss && !k.acts.isEmpty && !(x.capture.isSome && !i.isCommand)
          && !(i.longLat && decide (k.markOf i < 12) && decide (63 ≤ s.markCount u none (k.markOf i)))
          && (issueCheck s k i blk.hdr (.seq u)).isNone && !entryWaits s blk.core i [.seq u] then some k
      else none
    | _, _ => none
  | _ => none

/-- The weave of an issue. -/
def Iss.w (k : Iss) : Nat := k.weave.getD 0

/-- What the scheduler of a weave acts on, and the counts of its marks. -/
structure Sched where
  marks : Map Nat
  batches : List Batch
  cur : Option Nat
  ss : Bool
  kind : WKind
  core : Nat
  wslot : Nat
  active : Bool
  deriving DecidableEq, Repr

def Weave.sched (x : Weave) : Sched :=
  { marks := x.marks, batches := x.batches, cur := x.cur, ss := x.ss, kind := x.kind, core := x.core, wslot := x.wslot, active := x.active }

def State.sched (s : State) (u w : Nat) : Option Sched := (s.weave? u w).map Weave.sched

/-- The current batch of a weave: its index, the batch, and single step. -/
def State.cursor (s : State) (u w : Nat) : Option (Nat × Batch × Bool) :=
  (s.weave? u w).bind fun x => x.curBatch.map fun b => (x.cur.getD 0, b, x.ss)

/-- The current batch goes on behind the instruction of an issue; a completed wait clears its count of backward transfers (R184). -/
def Iss.after (k : Iss) (wd0 : Bool) (d : State) : State :=
  d.updWeave k.uid k.w fun x =>
    { x with batches := x.batches.modify (x.cur.getD 0) fun b => b.at b.members (k.fall wd0) b.wd, lastIssue := d.clock }

/-- The same behind a switch point, where a runnable batch of the weave may succeed it (R180). Inside a macro there is none. -/
def Iss.afterSwitch (k : Iss) (wd0 : Bool) (d : State) : State :=
  if k.mac.isNone then (k.after wd0 d).updWeave k.uid k.w Weave.switch else k.after wd0 d

/-- The stream goes on behind its instruction. -/
def Iss.afterSeq (k : Iss) (d : State) : State :=
  d.updStream k.uid fun x =>
    { x with pc := k.npc, seta := k.seta, setb := k.setb, entry := false, stopped := false,
             state := match x.state with | .woke _ => .run | st => st }

/-! ### An issue of either side -/

/-- The agent in focus issues `i` with nothing in its way. -/
def ready (i : Instr) (s : State) : Option Iss := match s.focus with | .stream _ => readySeq i s | _ => readyFib i s

/-- The agent in focus issues `i` while no fibre of its batch, or not the stream, has a true guard (R23). -/
def standsBy (i : Instr) (s : State) : Option Iss :=
  match s.focus with
  | .weave u w =>
    match s.block? u, s.weave? u w with
    | some _, some x =>
      match x.curBatch with
      | some b =>
        let k := fibIss s u w x b i.size i.guard
        if !b.entry && !x.ss && k.acts.isEmpty && !b.members.isEmpty then some k else none
      | none => none
    | _, _ => none
  | .stream u =>
    match s.block? u, s.stream? u with
    | some _, some x =>
      let k := seqIss s u x i.size i.guard
      if !x.entry && !x.ss && k.acts.isEmpty then some k else none
    | _, _ => none
  | .none => none

/-- Where the agent goes on behind its instruction, which leaves the state d: `sw` at a switch point (R180), `wd0` behind a wait that has
completed (R184). -/
def Iss.ends (k : Iss) (sw wd0 : Bool) (d : State) : State :=
  if k.weave.isNone then k.afterSeq d else if sw then k.afterSwitch wd0 d else k.after wd0 d

/-- Participants act one after another in slot order (R95), each in what those before it have left; every one meets a condition there. -/
def passes {α : Type} (one : α → Actor → α) (ok : α → Actor → Prop) : List Actor → α → Prop
  | [], _ => True
  | a :: r, x => ok x a ∧ passes one ok r (one x a)

/-- The virtual address translates for an access and is aligned to its n bytes (R149). -/
def passesChecks (s : State) (a : Actor) (va : Word) (n : Nat) (acc : Acc) : Prop := ∃ pa, (checkAccess s a va n acc).2 = .ok pa

/-- No binding of the fibre holds a poisoned value that a refresh would meet (R275). -/
def refreshesWell (s : State) (a : Actor) : Prop := (refresh s a false).2 = none

/-- The bindings of every participant refresh, one participant after another, and none is poisoned. -/
def refreshAllWell (k : Iss) (s : State) : Prop := passes (fun t a => (refresh t a false).1) refreshesWell k.acts s

/-- The participants with their bindings refreshed. -/
def refreshed (k : Iss) (s : State) : State := k.acts.foldl (fun t a => (refresh t a false).1) s

/-- A register of a fibre: none while it has never been written (clean, R24). -/
def State.reg? (s : State) (u w sl n : Nat) : Option WReg := (s.fibre? u w sl).bind fun f => mget f.regs n

/-- The sticky flags of a weave. -/
def State.fpflags (s : State) (u w : Nat) : Option FFlags := (s.weave? u w).map Weave.fpflags

/-- The flags that the results of an operation carry to a fibre (R82). -/
def carried (f : Fibre) (op : Nat) : FFlags := f.pend.foldl (fun x p => if p.op = op then x ||| p.flags else x) 0

/-! ### What an instruction of the fibres leaves as it is -/

/-- A fibre but for its registers, its predicates and its outstanding results. -/
def Fibre.rest (f : Fibre) : Fibre := { f with regs := [], pend := [], preds := 0 }

/-- A weave but for its fibres, batches, uniform registers, sticky flags, marks, dead-read record and the time of its last issue. -/
def Weave.rest (x : Weave) : Weave :=
  { x with fibres := [], batches := [], k := [], fpflags := 0, marks := [], deadDR := false, deadSlot := 0, deadReg := 0, deadPc := 0,
           lastIssue := 0 }

/-- A block but for its weaves. -/
def Block.rest (b : Block) : Block := { b with weaves := [] }

/-- Nothing of the panel differs but parts of the weaves of block u: memory, caches, dies, contexts, regions, the service, every other
block, and of block u all that `Block.rest`, `Weave.rest` and `Fibre.rest` keep. -/
structure keeps (u : Nat) (s t : State) : Prop where
  panel : t = { s with blocks := t.blocks }
  others : ∀ v, v ≠ u → t.block? v = s.block? v
  block : (t.block? u).map Block.rest = (s.block? u).map Block.rest
  weaves : ∀ y, (t.weave? u y).map Weave.rest = (s.weave? u y).map Weave.rest
  fibres : ∀ v y sl, (t.fibre? v y sl).map Fibre.rest = (s.fibre? v y sl).map Fibre.rest

/-- Beyond that the scheduler's data and the marks stand as they were. -/
structure lanesOnly (u : Nat) (s t : State) : Prop extends keeps u s t where
  sched : ∀ v y, t.sched v y = s.sched v y

/-! ### Instructions that give a register or a predicate a value -/

/-- What an element instruction reads, the register it writes, the value and flags it gives (from the state before and the state in which
last uses have been released), and whether it is one that raises flags at all. -/
structure RegOp where
  srcs : List Src
  d : Dst
  val : State → State → Actor → Word × FFlags
  fp : Bool

/-- A participant writes its result. -/
def RegOp.write (r : RegOp) (t : State) (a : Actor) (v : Word × FFlags) : State :=
  if r.fp then (t.writeD a r.d v.1).raise a v.2 else t.writeD a r.d v.1

/-- The state that an element instruction leaves: sources read, last uses released, results written in slot order (R25, R95). -/
def RegOp.result (r : RegOp) (k : Iss) (s : State) : State :=
  let s1 := s.consume k.pc k.acts r.srcs
  k.acts.foldl (fun t a => r.write t a (r.val s s1 a)) s1

/-- A value without flags. -/
def plain (v : State → State → Actor → Word) (s s1 : State) (a : Actor) : Word × FFlags := (v s s1 a, 0)

end Sys2Proof.Machine
namespace Sys2Proof
open Machine

/-- The instructions of the integer, logic, move and float groups that write one register at once. -/
def Instr.regOp : Instr → Option RegOp
  | .add f u sat => some ⟨readsOf f 2, f.d, plain (intVal f 2 u (addE sat)), false⟩
  | .sub f u sat => some ⟨readsOf f 2, f.d, plain (intVal f 2 u (subE sat)), false⟩
  | .mul f u sat => some ⟨readsOf f 2, f.d, plain (intVal f 2 u (mulE sat)), false⟩
  | .mad f u sat => some ⟨readsOf f 3, f.d, plain (intVal f 3 u (madE sat)), false⟩
  | .mulhi f u => some ⟨readsOf f 2, f.d, plain (intVal f 2 u mulhiE), false⟩
  | .div f u => some ⟨readsOf f 2, f.d, plain (intVal f 2 u divE), false⟩
  | .rem f u => some ⟨readsOf f 2, f.d, plain (intVal f 2 u remE), false⟩
  | .abs f sat => some ⟨readsOf f 1, f.d, plain (intVal f 1 false (absE sat)), false⟩
  | .min f u => some ⟨readsOf f 2, f.d, plain (intVal f 2 u minE), false⟩
  | .max f u => some ⟨readsOf f 2, f.d, plain (intVal f 2 u maxE), false⟩
  | .and f => some ⟨readsOf f 2, f.d, plain (intVal f 2 false fun _ _ a b _ => a &&& b), false⟩
  | .or f => some ⟨readsOf f 2, f.d, plain (intVal f 2 false fun _ _ a b _ => a ||| b), false⟩
  | .xor f => some ⟨readsOf f 2, f.d, plain (intVal f 2 false fun _ _ a b _ => a ^^^ b), false⟩
  | .andn f => some ⟨readsOf f 2, f.d, plain (intVal f 2 false fun w _ a b _ => a &&& notE w b), false⟩
  | .orn f => some ⟨readsOf f 2, f.d, plain (intVal f 2 false fun w _ a b _ => a ||| notE w b), false⟩
  | .shl f sat => some ⟨readsOf f 2, f.d, plain (intVal f 2 false (shlE sat)), false⟩
  | .shr f => some ⟨readsOf f 2, f.d, plain (intVal f 2 false shrE), false⟩
  | .sar f => some ⟨readsOf f 2, f.d, plain (intVal f 2 false sarE), false⟩
  | .rol f => some ⟨readsOf f 2, f.d, plain (intVal f 2 false rolE), false⟩
  | .ror f => some ⟨readsOf f 2, f.d, plain (intVal f 2 false rorE), false⟩
  | .clz f => some ⟨readsOf f 1, f.d, plain (intVal f 1 false clzE), false⟩
  | .ctz f => some ⟨readsOf f 1, f.d, plain (intVal f 1 false ctzE), false⟩
  | .popc f => some ⟨readsOf f 1, f.d, plain (intVal f 1 false popcE), false⟩
  | .brev f => some ⟨readsOf f 1, f.d, plain (intVal f 1 false brevE), false⟩
  | .bfx f => some ⟨readsOf f 2, f.d, plain (intVal f 2 false bfxE), false⟩
  | .bfi f => some ⟨readsOf f 3, f.d, plain (intVal f 3 false bfiE), false⟩
  | .ext f => some ⟨readsOf f 3, f.d, plain (intVal f 3 false extE), false⟩
  | .mov f => some ⟨readsOf f 1, f.d, plain (intVal f 1 false fun _ _ a _ _ => a), false⟩
  | .lea f sh => some ⟨readsOf f 2, f.d, plain (intVal f 2 false (leaE sh.toNat)), false⟩
  | .movi f => some ⟨[], f.d, plain (moviVal f), false⟩
  | .movq f => some ⟨[], f.d, plain (movqVal f), false⟩
  | .sel f np => some ⟨readsOf f 2, f.d, plain (selVal f np), false⟩
  | .fadd f rm => some ⟨readsOf f 2, f.d, fpVal f 2 fun m a b _ => fpAdd m rm a b, true⟩
  | .fsub f rm => some ⟨readsOf f 2, f.d, fpVal f 2 fun m a b _ => fpSub m rm a b, true⟩
  | .fmul f rm => some ⟨readsOf f 2, f.d, fpVal f 2 fun m a b _ => fpMul m rm a b, true⟩
  | .ffma f rm => some ⟨readsOf f 3, f.d, fpVal f 3 fun m a b c => fpFma m rm a b c, true⟩
  | .fmin f => some ⟨readsOf f 2, f.d, fpVal f 2 fun m a b _ => fpMinMax m false false a b, true⟩
  | .fmax f => some ⟨readsOf f 2, f.d, fpVal f 2 fun m a b _ => fpMinMax m true false a b, true⟩
  | .fminx f => some ⟨readsOf f 2, f.d, fpVal f 2 fun m a b _ => fpMinMax m false true a b, true⟩
  | .fmaxx f => some ⟨readsOf f 2, f.d, fpVal f 2 fun m a b _ => fpMinMax m true true a b, true⟩
  | .frnd f x rm => some ⟨readsOf f 1, f.d, fpVal f 1 fun m a _ _ => fpRound m x rm a, true⟩
  | .fclass f => some ⟨[f.a], f.d, plain (fclassVal f), false⟩
  | .fcvt f sf rm => some ⟨[f.a], f.d, fcvtVal f sf rm, true⟩
  | .fcvti f sf rm => some ⟨[f.a], f.d, fcvtiVal f sf rm, true⟩
  | .icvtf f nat w64 rm => some ⟨[f.a], f.d, icvtfVal f nat w64 rm, true⟩
  | .dot f kind rm => some ⟨dotSrcs f kind, f.d, dotVal f kind rm, true⟩
  | .qz f => some ⟨[f.a, f.b, ⟨f.d.num, f.d.uni, false, .none, false, false⟩], f.d, qzVal f, true⟩
  | .dq f rm => some ⟨[f.a, f.b], f.d, dqVal f rm, true⟩
  | .pack f rm => some ⟨[f.a, f.b], f.d, packVal f rm, true⟩
  | .unpk f hi => some ⟨[f.a], f.d, unpkVal f hi, true⟩
  | .pmov f dir => if dir then none else some ⟨[], f.d, plain predWord, false⟩
  | _ => none

end Sys2Proof
namespace Sys2Proof.Machine

/-- What a compare reads, the predicate it writes, and the bit and flags it gives. -/
structure PredOp where
  srcs : List Src
  p : Nat
  val : State → State → Actor → Bool × FFlags
  fp : Bool

def PredOp.write (r : PredOp) (t : State) (a : Actor) (v : Bool × FFlags) : State :=
  if r.fp then (t.writeP a r.p v.1).raise a v.2 else t.writeP a r.p v.1

/-- The state that a compare leaves. -/
def PredOp.result (r : PredOp) (k : Iss) (s : State) : State :=
  let s1 := s.consume k.pc k.acts r.srcs
  k.acts.foldl (fun t a => r.write t a (r.val s s1 a)) s1

end Sys2Proof.Machine
namespace Sys2Proof
open Machine

/-- The instructions that write one predicate. -/
def Instr.predOp : Instr → Option PredOp
  | .cmp f orr c => some ⟨readsOf f 2, f.d.num.toNat, fun s s1 a => (cmpVal f orr c s s1 a, 0), false⟩
  | .plog f lut => some ⟨[], f.d.num.toNat, fun s s1 a => (plogVal f lut s s1 a, 0), false⟩
  | .fcmp f orr c => some ⟨readsOf f 2, f.d.num.toNat, fcmpVal f orr c, true⟩
  | _ => none

end Sys2Proof
namespace Sys2Proof.Machine

/-- A special function: its form, how many sources it has, and its operation on a format (R130 to R133). -/
structure LongOp where
  f : AForm
  n : Nat
  op : Fmt → (a b : Nat) → Nat × FFlags

/-- The result and flags of a special function of one participant. -/
def LongOp.val (r : LongOp) (s : State) (a : Actor) : Word × FFlags :=
  fpMerge true r.f.ty 0xFF 0 fun i =>
    r.op (fmtOf r.f.ty) (nth (opA true r.f s a) i) (nth (if 2 ≤ r.n then opB true false r.f s a else []) i)

end Sys2Proof.Machine
namespace Sys2Proof
open Machine

/-- The special functions. -/
def Instr.longOp : Instr → Option LongOp
  | .fsqrt f rm => some ⟨f, 1, fun m a _ => fpSqrt m rm a⟩
  | .fdiv f rm => some ⟨f, 2, fun m a b => fpDiv m rm a b⟩
  | .frcp f => some ⟨f, 1, fun m a _ => spEval m .rcp a⟩
  | .frsq f => some ⟨f, 1, fun m a _ => spEval m .rsq a⟩
  | .fexp2 f => some ⟨f, 1, fun m a _ => spEval m .exp2 a⟩
  | .flog2 f => some ⟨f, 1, fun m a _ => spEval m .log2 a⟩
  | .fsin f => some ⟨f, 1, fun m a _ => spEval m .sin a⟩
  | .fcos f => some ⟨f, 1, fun m a _ => spEval m .cos a⟩
  | .ftanh f => some ⟨f, 1, fun m a _ => spEval m .tanh a⟩
  | _ => none

end Sys2Proof
namespace Sys2Proof.Machine

/-- The flags that some actors of a weave raise in weave y. -/
def flagsIn (s : State) (u w y : Nat) (fl : Actor → FFlags) (l : List Actor) : FFlags :=
  (l.filter fun a => s.flagWeave u w a.slot = y).foldl (fun x a => x ||| fl a) 0

/-- The participants are fibres that the weave holds. -/
def present (s : State) (l : List Actor) : Prop := ∀ a ∈ l, (s.fib? a).isSome = true

/-- No binding holds w register n of a participant (R262 makes such a write a store). -/
def unboundIn (s : State) (l : List Actor) (n : Nat) : Prop :=
  ∀ u w sl f, .fib u w sl ∈ l → s.fibre? u w sl = some f → mget f.binds n = none

/-- A participant's own w register n is a last use among some sources (R25). -/
def lastUsed (l : List Actor) (srcs : List Src) (u w sl n : Nat) : Prop :=
  .fib u w sl ∈ l ∧ ∃ x ∈ srcs, x.last = true ∧ x.uni = false ∧ x.num.toNat = n

/-- Sources have been read and last uses released, and nothing else has changed: s before, t after (R25, R26). -/
structure released (k : Iss) (srcs : List Src) (s t : State) : Prop where
  rest : lanesOnly k.uid s t
  kept : ∀ v y sl n, ¬lastUsed k.acts srcs v y sl n → t.reg? v y sl n = s.reg? v y sl n
  preds : ∀ v y sl, (t.fibre? v y sl).map Fibre.preds = (s.fibre? v y sl).map Fibre.preds
  uniform : ∀ v y n, t.readK v y n = s.readK v y n
  flags : ∀ v y, t.fpflags v y = s.fpflags v y

/-- Nothing of the panel differs but s registers, predicates and outstanding results of the stream of block u. -/
structure streamOnly (u : Nat) (s t : State) : Prop where
  panel : t = { s with blocks := t.blocks }
  others : ∀ v, v ≠ u → t.block? v = s.block? v
  block : (t.block? u).map (fun b => { b with stream := none }) = (s.block? u).map (fun b => { b with stream := none })
  stream : (t.stream? u).map (fun x => { x with s := [], preds := 0, pend := [] }) = (s.stream? u).map (fun x => { x with s := [], preds := 0, pend := [] })

/-- An element of width w holds an exact result: its low bits, or with SAT the nearest value of the type (R73). -/
def narrowed (sg sat : Bool) (w : Nat) (x : Int) (e : Nat) : Prop :=
  e < 2 ^ w ∧ (sat = false → ((2 ^ w : Nat) : Int) ∣ (toI sg w e - x)) ∧ (sat = true → ∀ e', e' < 2 ^ w → (toI sg w e - x).natAbs ≤ (toI sg w e' - x).natAbs)

/-! ### Where fibres stand -/

/-- A weave but for what its scheduler changes. -/
def Weave.unsched (x : Weave) : Weave := { x with batches := [], cur := none, lfsr := 0, lastIssue := 0 }

/-- The fibre in a slot stands in a running batch at a PC. -/
def Weave.standsAt (y : Weave) (sl : Nat) (pc : Word) : Prop := ∃ b ∈ y.batches, sl ∈ b.members ∧ b.pc = pc ∧ b.state = .run

/-- A transfer: what it does first, what it does for each fibre that takes it, and where that fibre goes (R140, R141). -/
structure Jump where
  start : Iss → State → State
  link : Iss → State → Actor → State
  target : Iss → State → Actor → Word

/-- One participant's transfer: its target is checked, it links or releases, and a backward one refreshes its bindings (R141, R259). -/
def Jump.step (j : Jump) (k : Iss) (s t : State) (a : Actor) : State :=
  let t := j.link k (targetCheck t k.uid (t.coreOf a) (s.ctxOf k.uid) (j.target k s a)).1 a
  if (j.target k s a).toNat ≤ k.pc.toNat then (refresh t a false).1 else t

/-- The target holds a clause header, a backward transfer is within the watchdog's count, and no binding is poisoned (R46, R184, R275). -/
structure Jump.ok (j : Jump) (k : Iss) (s t : State) (a : Actor) : Prop where
  target : (targetCheck t k.uid (t.coreOf a) (s.ctxOf k.uid) (j.target k s a)).2 = none
  watchdog : (j.target k s a).toNat ≤ k.pc.toNat → k.weave.isSome = true → ∀ b, s.block? k.uid = some b → b.wdog = 0 ∨ k.wd < 2 ^ b.wdog
  binds : (j.target k s a).toNat ≤ k.pc.toNat → refreshesWell (j.link k (targetCheck t k.uid (t.coreOf a) (s.ctxOf k.uid) (j.target k s a)).1 a) a

/-- No fetch that leads from s to t waits for a miss entry (R248). -/
def fetchesHeld (k : Iss) (s t : State) : Prop := ∀ a ∈ k.acts, fetchWaits s t (s.coreOf a) = false

/-- The trap registers of a fibre but for the model's own note of an entry. -/
def Fibre.trapped (f : Fibre) : TrapRegs := { f.tr with entry := false }

/-- The current batch of an issue has still to issue the first instruction at a transfer's target. -/
def Iss.entry (k : Iss) (s : State) : Bool := (((s.weave? k.uid k.w).bind Weave.curBatch).map Batch.entry).getD false

/-- What a trap whose path is the routine leaves (R349, R350, R353): the trap registers of every participant, the batches, the record and the
doorbell. The trap has no ADDR and is no helper's. -/
structure trapTaken (k : Iss) (blk : Block) (c : Ctx) (s t : State) (cause : BitVec 8) (rpc : Word) (aux : Actor → Word) : Prop where
  registers : ∀ a ∈ k.acts, ∀ f, s.fib? a = some f → (t.fib? a).map Fibre.trapped = some
    { poison := false, seq := c.seq, inTrap := true, side := false, setb := k.setb, seta := k.seta, stepv := false, step := 0,
      inner := 0, cause, xpc := rpc, xfpc := k.pc, xaddr := 0, xaux := aux a, entry := k.entry s }
  routine : ∀ a ∈ k.acts, ∃ y, t.weave? k.uid k.w = some y ∧ y.standsAt a.slot blk.trapPC
  others : ∀ a ∈ k.batch, a ∉ k.acts → ∃ y, t.weave? k.uid k.w = some y ∧ y.standsAt a.slot k.npc
  sequence : (t.ctx? blk.ctx).map Ctx.seq = some (nextSeq c.seq)
  record : ∀ a r, k.acts = a :: r → t.bytes (c.recAddr c.seq) 64 = recordBytes c.seq
    { block := blk.idx, cause := cause.toNat, inner := 0, flags := 0, step := 0xFF, slot := ((s.fib? a).map Fibre.fslot).getD 0,
      core := s.coreOf a, pc := k.pc, rpc, addr := 0, aux := aux a, lrec := blk.record.toNat, mask := maskOf (k.acts.map Actor.slot) }
  doorbell : t.phys c.bell 8 = (s.phys c.bell 8 + 1) % 2 ^ 64

/-- A trap of the participants goes to the routine with nothing outstanding, and its record and doorbell are plain memory (R349, R350). -/
structure routineReady (k : Iss) (blk : Block) (c : Ctx) (s : State) : Prop where
  block : s.block? k.uid = some blk
  ctx : s.ctx? blk.ctx = some c
  routine : blk.hdr.trapEntry ≠ 0
  outsideMacro : k.mac = none
  fibres : ∀ a ∈ k.acts, ∃ f, s.fib? a = some f ∧ f.tr.inTrap = false ∧ f.pend = [] ∧ f.isHelper = false
  batch : ∀ a ∈ k.acts, ∀ x, s.weave? k.uid k.w = some x → (x.batchOf a.slot).map Prod.fst = x.cur
  frames : ∀ p, s.frameAt p = none
  ring : c.recAddr c.seq + 64 ≤ panelEnd
  bell : c.bell + 8 ≤ panelEnd
  apart : c.bell + 8 ≤ c.recAddr c.seq ∨ c.recAddr c.seq + 64 ≤ c.bell

end Sys2Proof.Machine
namespace Sys2Proof
open Machine

/-- The transfers. -/
def Instr.jump : Instr → Option Jump
  | .bra _ off => some ⟨fun _ s => s, fun _ s _ => s, fun k _ _ => k.pc + off.signExtend 64⟩
  | .call _ l off => some ⟨fun _ s => s, fun k s a => s.writeW a l.toNat (k.pc + 8), fun k _ _ => k.pc + off.signExtend 64⟩
  | .brx f | .ret f => some ⟨fun k s => s.noteAll k.pc k.acts [f.a], fun _ s a => s.release a f.a, fun _ s a => s.src a f.a⟩
  | _ => none

end Sys2Proof
namespace Sys2Proof.Machine

/-! ### Memory -/

/-- A participant's load goes through: its address passes the checks, or it meets a poisoned table, whose poison its result carries (R149), or it is
`.nb` and meets a page fault (R150); and an acquire finds no poisoned binding (R259). -/
def loadOk (m : MForm) (sz : MSize) (x : MAcc) (a : Actor) : Prop :=
  let r := checkAccess x.st a (effAddr x.st a m (!m.nb)) sz.bytes .load
  ((∃ pa, r.2 = .ok pa) ∨ r.2 = .trap 0x0A ∨ (m.nb = true ∧ (r.2 = .trap 0x07 ∨ r.2 = .trap 0x08)))
  ∧ (m.ord.isAcq = true → refreshesWell r.1 a)

/-- A participant's store passes the checks of R149. -/
def storeOk (m : MForm) (sz : MSize) (x : MAcc) (a : Actor) : Prop := passesChecks x.st a (effAddr x.st a m true) sz.bytes .store

/-- The word of an atomic is acted on: the state after it, given its last uses, its address, its width and its new value (R154 to R156, R446). -/
def atomicState (m : MForm) (n : Nat) (srcs : List Src) (new : Nat → Option Nat) (s : State) (a : Actor) (pa : Nat) : State :=
  let t := beforeAtomic (s.releaseAll a srcs) a pa n m
  let read := atomicRead t a pa
  if t.poisoned pa n then (if m.d = 0 then poisonEvent read a pa else read)
  else match new (t.phys pa n) with
    | some v => atomicWrite t a pa n v
    | none => read

/-- No binding of the fibre but one on the register that its result has still to land in holds a poisoned value (R260, R275). -/
def observesWell (d : BitVec 7) (s : State) (a : Actor) : Prop := (refreshBut s a false (if d = 0 then [] else [d.toNat])).2 = none

/-- A participant's atomic goes through: its address passes the checks, or meets a poisoned table and D takes the poisoned result; and its bindings refresh,
before it for an acquire and after it for a plain one (R149, R156, R275). -/
def atomicOk (m : MForm) (n : Nat) (srcs : List Src) (f : State → Actor → Nat → Option Nat) (x : MAcc) (a : Actor) : Prop :=
  let r := checkAccess x.st a (effAddr x.st a m false) n .rw
  let around (after : State) : Prop := if m.ord.isAcq then refreshesWell r.1 a else observesWell m.d after a
  (∃ pa, r.2 = .ok pa ∧ around (atomicState m n srcs (f x.st a) r.1 a pa)) ∨ (r.2 = .trap 0x0A ∧ m.d ≠ 0 ∧ around (r.1.releaseAll a srcs))

/-- The new value of `amo` and of `cas`. -/
def amoValue (m : MForm) (op : AmoOp) (s : State) (a : Actor) (old : Nat) : Option Nat :=
  some (amoNew op (8 * amoBytes m) old ((s.src a (plainSrc m.b false)).toNat % 2 ^ (8 * amoBytes m)))
def casValue (m : MForm) (n : Nat) (s : State) (a : Actor) (old : Nat) : Option Nat :=
  if old = (s.src a (plainSrc m.b false)).toNat % 2 ^ (8 * n) then some ((s.src a (plainSrc (m.b + 1) false)).toNat % 2 ^ (8 * n)) else none

/-- The sources of `cas`, whose B names a pair (R155). -/
def casSrcs (m : MForm) : List Src := m.srcs true false ++ [plainSrc (m.b + 1) m.lb]

/-- A local access of a participant stays below the port window and passes the checks of R158. -/
def localOk (k : Iss) (l : LForm) (sz : MSize) (s : State) (a : Actor) : Prop :=
  ∃ b p, s.block? k.uid = some b ∧ localCheck b l sz.bytes (localAddr s b a l) = .ok p ∧ p < portWindow

/-- A store of a participant into the port window that fills its assembly buffer without sending (R387). -/
def portOk (k : Iss) (l : LForm) (sz : MSize) (s : State) (a : Actor) : Prop :=
  ∃ b p, s.block? k.uid = some b ∧ localCheck b l sz.bytes (localAddr s b a l) = .ok p ∧ portWindow ≤ p ∧ p < portWindow + 0x80
    ∧ sz = .z64 ∧ k.weave.isSome = true ∧ (b.msg = false ∨ l.nb = true)

/-- A virtual address stands in the micro-TLB of an actor's core, with permission for an access, at a physical address (R250, R252). -/
def tlbMaps (s : State) (a : Actor) (va : Word) (acc : Acc) (pa : Nat) : Prop :=
  canonicalVA va.toNat = true ∧ ∃ t, (s.core (s.coreOf a)).utlb.find? (tlbHit (s.ctxOf a.uid) va.toNat acc) = some t
    ∧ t.allows acc = true ∧ pa = t.pa + (va.toNat - t.va) ∧ decodedPA pa = true

/-- No pending miss of a core is of a block with a deadline: none of the packets that go before a request can be late (R247, R384). -/
def missesInTime (s : State) : Prop := ∀ c m, m ∈ (s.core c).misses → ∀ b, s.block? m.uid = some b → b.deadline = none

/-- Nothing but plain memory lies at an access of a block, and no late record can arise from it. -/
structure plainAt (s : State) (uid pa n : Nat) : Prop where
  panel : pa + n ≤ panelEnd
  frames : ∀ p, s.frameAt p = none
  tag : ∀ b, s.block? uid = some b → tagOk s b.ctx pa = true ∧ b.deadline = none
  late : missesInTime s

/-! ### Bound registers -/

/-- A participant's `bind` passes the checks of R258 in their order. -/
def bindOk (k : Iss) (m : MForm) (sz : MSize) (x : MAcc) (a : Actor) : Prop :=
  ∃ b f pa, x.st.block? k.uid = some b ∧ x.st.fib? a = some f ∧ bindMisuse b f m.d.toNat (effAddr x.st a m false) = none
    ∧ (checkAccess x.st a (effAddr x.st a m false) sz.bytes .rw).2 = .ok pa ∧ pa < panelEnd
    ∧ refreshesWell (checkAccess x.st a (effAddr x.st a m false) sz.bytes .rw).1 a

/-- A participant of `unbind` names one of its bindings and no value that lands or refreshes is poisoned (R265, R270). -/
def unbindOk (d : Nat) (x : MAcc) (a : Actor) : Prop :=
  (bindingOf x.st a d none).isSome = true ∧ refreshesWell x.st a ∧ (landReg (refresh x.st a false).1 a d).2 = none

/-- A participant of `bamo` or `bcas` names a binding of the type's width, and its bindings refresh (R265). -/
def boundOk (f : AForm) (x : MAcc) (a : Actor) : Prop := (bindingOf x.st a f.d.num.toNat (some f.ty)).isSome = true ∧ refreshesWell x.st a

/-- A participant of `bwait` names a binding of the type's width, and its own result lands (R265, R268). -/
def bwaitOk (f : AForm) (x : MAcc) (a : Actor) : Prop :=
  (bindingOf x.st a f.d.num.toNat (some f.ty)).isSome = true ∧ (landReg x.st a f.d.num.toNat).2 = none

/-! ### Queues, commands, helpers -/

/-- A write of some bytes has gone into a block's local store at an address, and no other byte of it has changed. -/
def wroteLocal (b y : Block) (a : Nat) (data : List Byte) : Prop :=
  ∀ q, lsByte y q = if a ≤ q ∧ q < a + data.length then data[q - a]?.getD 0 else lsByte b q

/-- A tile of a block holds some entries, and the other tiles are as they were. -/
def tileHolds (b y : Block) (tile : Nat) (e : Nat → Nat → Nat) : Prop :=
  ∀ t i j, i < 32 → j < 32 → y.entry t i j = if t = tile then e i j % 2 ^ 32 else b.entry t i j

/-- An engine command completes with what its work leaves (R312). -/
structure cmdCompletes (u id : Nat) (r : Running) (s : State) : Prop where
  running : s.running? u id = some r
  sound : r.broken = false
  ready : peerReady s r = some (.ok ())

/-- Some weave of the block still has a fibre. -/
def Block.populated (b : Block) : Prop := ∃ w ∈ b.weaves, w.2.fibres ≠ []

/-- What a command that fills a run of its own block writes there: the state after its reads, the offset in the run, and the bytes (R316, R320,
R339). -/
def runWrite (s : State) (u : Nat) (b : Block) (r : Running) : Option (State × Nat × List Byte) :=
  match r.cmd.ins with
  | .cpIn _ _ _ fmt doff k128 =>
    (match cpInData s u fmt k128.toNat r.cmd with
      | (t, .ok d) => some (t, 16 * doff.toNat, d)
      | _ => none)
  | .cpFill _ _ _ false doff _ => some (s, 16 * doff.toNat, fillBytes r.cmd.rc r.cmd.rb.toNat)
  | .mmRd _ _ _ _ tile sk ofmt doff =>
    some (s, 16 * doff.toNat, (upto 1024).flatMap fun n => toBytes (outBytes ofmt) (readOut sk ofmt (b.entry tile.toNat (n / 32) (n % 32))).1)
  | _ => none

/-- What a command writes to global memory (R318, R320). -/
def memWrite (b : Block) (r : Running) : Option (List Byte) :=
  match r.cmd.ins with
  | .cpOut _ _ _ soff _ => some (lsBytes b (1024 * nth r.srcs 0 + 16 * soff.toNat) r.cmd.rb.toNat)
  | .cpFill _ _ _ true _ _ => some (fillBytes r.cmd.rc r.cmd.rb.toNat)
  | _ => none

/-- The tile that an array command leaves: its number and its entries; none for an `mm` that the check of R341 stops (R334, R338). -/
def tileWrite (s : State) (b : Block) (r : Running) : Option (Nat × (Nat → Nat → Nat)) :=
  match r.cmd.ins with
  | .mm _ _ _ ao bo tile ow tri ia =>
    (mmConf ia false r.cmd.ra).bind fun c =>
      if (checkBlocks (if b.chk && granules tri r.cmd.rb != 0 then 4 * c.k128 else 0) s.fresh 0).2.2 then none
      else some (tile.toNat, fun i j =>
        if maskedAt tri r.cmd.rb i j then fld r.cmd.rc 0 32
        else mmElem (mmOperand b r 0 ao.toNat c.fa c.qa c.k128) (mmOperand b r 1 bo.toNat c.fb c.qb c.k128) c.k128 ow ia (b.entry tile.toNat i j) i j)
  | .mmClr _ _ tile => some (tile.toNat, fun _ _ => 0)
  | .mmLd _ _ _ tile lk soff =>
    some (tile.toNat, fun i j =>
      let x := ofBytes (lsBytes b (1024 * nth r.srcs 0 + 16 * soff.toNat + (if lk then 2 else 4) * (32 * i + j)) (if lk then 2 else 4))
      if lk then (fpConv fmtBF16 fmtF32 .rne x).1 else x)
  | _ => none

/-- Nothing of the block waits. -/
def noWaits (b : Block) : Prop :=
  (∀ w ∈ b.weaves, ∀ y ∈ w.2.batches, ∀ q, y.state ≠ .wait q) ∧ ∀ x, b.stream = some x → ∀ q, x.state ≠ .wait q

/-- The queue that a push of a side fills and the other side drains: FQ for the fibres, SQ for the stream (R205, R307). -/
def Block.outQueue (b : Block) (fib : Bool) : List Word := if fib then b.fq else b.sq
def Block.inQueue (b : Block) (fib : Bool) : List Word := if fib then b.sq else b.fq

/-- What a push puts into its queue: of a k source one element, else one of each participant in slot order (R205). -/
def pushValues (k : Iss) (f : AForm) (s : State) : List Word :=
  if f.a.uni then (k.acts.getLast?.map fun a => s.src a f.a).toList else k.acts.map fun a => s.src a f.a

/-- How many elements a pop takes (R205). -/
def popCount (k : Iss) (f : AForm) : Nat := if f.d.uni then 1 else k.acts.length

/-- The values of a pop wait to land as one operation on the selected mark (R31, R206). -/
def popOpened (i : Instr) (k : Iss) (s : State) (d : Dst) (vals : List Word) : State :=
  let t := (s.openOp k.uid k.weave (k.markOf i)).1
  let pend (a : Actor) (v : Word) : Pend := mkPend k s.nextOp (k.markOf i) (landDst a d) v 0 none
  if d.uni then (match k.acts.getLast? with | some a => t.addPend a (pend a (vals.headD 0)) | none => t)
  else (k.acts.zip vals).foldl (fun t e => t.addPend e.1 (pend e.1 e.2)) t

/-- An outcome predicate of every participant. -/
def outcomes (k : Iss) (s : State) (p : Nat) (v : Bool) : State := k.acts.foldl (fun t a => t.writeP a p v) s

/-- An engine command at its issue: the s registers it reads, its barrier and its limits (R309, R310, R316 to R323, R333, R338, R339). -/
structure CmdOp where
  a : BitVec 7
  b : BitVec 7
  c : BitVec 7
  bar : Option (BitVec 4)
  limit : Block → Word → Word → Word → Option (BitVec 8)

/-- The command that a block's engines take, with the register values read at issue. -/
def CmdOp.cmd (r : CmdOp) (i : Instr) (k : Iss) (s : State) : Cmd :=
  { id := 0, ins := i, ra := s.readS k.uid r.a.toNat, rb := s.readS k.uid r.b.toNat, rc := s.readS k.uid r.c.toNat, node := none, bar := r.bar,
    pc := k.pc }

/-- The command names declared buffers and is within its limits (R310). -/
def CmdOp.ok (r : CmdOp) (i : Instr) (k : Iss) (s : State) (b : Block) : Prop :=
  (∀ n ∈ i.bufNames, b.slotsOf n ≠ 0)
    ∧ r.limit b (s.readS k.uid r.a.toNat) (s.readS k.uid r.b.toNat) (s.readS k.uid r.c.toNat) = none

end Sys2Proof.Machine
namespace Sys2Proof
open Machine

/-- The engine commands; `reduced` says that the panel is in reduced service (R333). -/
def Instr.cmdOp (reduced : Bool) : Instr → Option CmdOp
  | .cpIn e db _ fmt doff k128 => some ⟨e.a, e.b, e.c, e.bar, cpInLimit db fmt doff k128⟩
  | .cpOut e sb pair soff _ => some ⟨e.a, e.b, e.c, e.bar, cpOutLimit sb pair soff⟩
  | .cpPeer e sb _ soff _ _ _ => some ⟨e.a, e.b, e.c, e.bar, cpPeerLimit sb soff⟩
  | .cpFill e db _ glb doff _ => some ⟨e.a, e.b, e.c, e.bar, cpFillLimit db glb doff⟩
  | .pub _ bar a _ => some ⟨a, 0, 0, bar, pubLimit⟩
  | .mm e abuf bbuf aoff boff _ _ _ ia => some ⟨e.a, e.b, e.c, e.bar, mmLimit reduced abuf bbuf aoff boff ia⟩
  | .mmClr _ bar _ => some ⟨0, 0, 0, bar, fun _ _ _ _ => none⟩
  | .mmLd _ bar sb _ lk soff => some ⟨0, 0, 0, bar, tileLimit sb soff lk⟩
  | .mmRd _ bar db _ _ _ ofmt doff => some ⟨0, 0, 0, bar, tileLimit db doff (ofmt = .bf16)⟩
  | _ => none

end Sys2Proof
namespace Sys2Proof.Machine

/-! ### Events -/

/-- Nothing differs but caches, replicas, and what dies and zones count and hold: no byte of memory, no block, no context. -/
def cacheOnly (s t : State) : Prop :=
  t = { s with
    cores := t.cores, dies := t.dies, zones := t.zones, homeLines := t.homeLines, homeDirty := t.homeDirty, replicas := t.replicas,
    sharers := t.sharers, lates := t.lates }

/-- Commands of an engine that may run at once (R311). -/
def engineRoom : Engine → Nat
  | .copy => 4
  | .array => 1

/-- A command that writes the buffer of another block. -/
def Instr.peers (i : Instr) : Prop := ∃ e sb tb so to_ sc kp, i = .cpPeer e sb tb so to_ sc kp

/-- A request arrives where the service hears it, on an open session of that kind of port, with a header of R437; its body is `b`. -/
structure requestOk (s : State) (src : Source) (m : UzMsg) (mgmt : Bool) (b : List Byte) : Prop where
  heard : heard s src = true
  kind : (src == .mgmt) = mgmt
  session : ∃ x, mget s.service.sessions m.h.session.toNat = some x ∧ x.mgmt = mgmt ∧ hdrFits m.h x.major x.minor mgmt = true
  body : content m = some b

/-- A request of a client about a context that its session has created: its body is the context word and then `b` (R440). -/
structure requestIn (s : State) (src : Source) (m : UzMsg) (ctx : Nat) (c : Ctx) (b : List Byte) : Prop
    extends requestOk s src m false (toBytes 8 ctx ++ b) where
  word : ctx < 65536
  known : s.ctx? ctx = some c
  owned : c.session = m.h.session.toNat

/-- The service replies to the request of a header. -/
def replied (s : State) (h : UzHdr) (ty status : Nat) (body : List Byte) : State := sendUz s h.session.toNat ty status h.req body

/-- Where an access of n bytes of a hart lies: by physical address for those of port die 0, through the sandbox on it for another (R432). -/
def hartAt (s : State) (hart : Nat) (w : Bool) (pa n : Nat) : Option Nat :=
  if hart < 8 then some pa else (sandboxAt s hart).bind fun x => guestRange s x.2 w pa n

/-- Plain panel memory that no frame of a saved block holds. -/
def plainRange (s : State) (pa n : Nat) : Prop := pa + n ≤ panelEnd ∧ ∀ p, s.frameAt p = none

end Sys2Proof.Machine
end

