-- ==== Sys2Proof/Certificates/Slice0/Obligations.lean ====
section
/-! DEFINITION. The statements for the provers. `k` is the context of an issue: its block, weave, participants and batch; `k.ends sw wd0 d`
is the state d with its agent gone on behind its instruction, `k.after false d` the same for a batch. -/
open Sys2Proof Sys2Proof.Machine

/-! ### Encoding -/

/-- Every instruction that has an encoding decodes from it, with every operand at every value the encoding admits. -/
def Obligations.RoundTrip : Prop := ∀ (i : Instr) (n w : Nat), encode i = some (n, w) → decode w = some i

/-- What decodes is well formed and is re-encoded to the same bits: no reserved code and no nonzero zero field passes (R61). -/
def Obligations.DecodeSound : Prop := ∀ (w : Nat) (i : Instr), decode w = some i →
  i.wf = true ∧ encode i = some (lenOf w, w % 2 ^ (8 * lenOf w))

/-- Words written out from the encoding rules decode to the instructions they stand for, and words that name a reserved code have no
instruction: an opcode outside the map, a type that `add` does not take, a nonzero zero field (R42 to R58, R60, R61). -/
def Obligations.DecodeWords : Prop :=
  (-- a clause header that waits for m0 and sets no mark: LEN 3, WAIT bit 2, SETA 15, SETB 15
     decode 0x00000000003FC007 = some (.clause 1 15 15 0)
     -- add.s32 w5, w3!, w2: OP 1, T 2, D 5, A 3 with LUA, B 2
     ∧ decode 0x0001200081850004 = some (.add
         { g := ⟨0, false⟩, ms := false, ty := .s32, d := ⟨5, false⟩, a := ⟨3, false, true, .none, false, false⟩,
           b := ⟨2, false, false, .none, false, false⟩, c := ⟨0, false, false, .none, false, false⟩, ext := .a64 } false false)
     -- movq.n64 w9, #0x0123456789ABCDEF: OP 0x1F, IMM64 in bits [127:64]
     ∧ decode 0x0123456789ABCDEF000070000009007E = some (.movq
         { g := ⟨0, false⟩, ms := false, ty := .n64, d := ⟨9, false⟩, a := ⟨0, false, false, .none, false, false⟩,
           b := ⟨0, false, false, .none, false, false⟩, c := ⟨0, false, false, .none, false, false⟩, ext := .q128 0x0123456789ABCDEF })
     -- ld.32.acq.lv2 w4, [w1+0x40]: OP 0x50, SZ 2, SC 2, ORD 1, OFF13 0x40
     ∧ decode 0x0200244000840140 = some (.ld
         { g := ⟨0, false⟩, ms := false, d := 4, a := 1, b := 0, scope := 2, ord := .acq, nb := false, la := false, lb := false, ld := false,
           wide := false, off := 0x40 } .z32))
  ∧ (decode 0x0000000000000198 = none ∧ decode 0x0001F00081850004 = none ∧ decode 0x0000000000018000 = none)

/-! ### Fetching and stepping -/

/-- A step first ends a power step or a window that panel time has passed, else handles the event at the head of the inbox, at the events' turn the one
that is due. At the issue's turn it runs the instruction that decodes at the PC of the current batch, or of a stream without a command error to
take first (R313), or where none decodes an illegal instruction of the length the word gives (R60, R61), once the core of the agent has
started (R425), and not while a line to fetch has no miss entry (R248); then panel time passes and the turn goes on (log 4). -/
def Obligations.StepRunsDecoded : Prop :=
  (∀ (s : State) (i : Instr), dueFirst s = some i → step s = soften s (exec i s))
  ∧ (∀ (s : State) (i : Instr) (r : List Instr), dueFirst s = none → s.inbox = i :: r →
     step s = soften { s with inbox := r } (exec i { s with inbox := r }))
  ∧ (∀ (s : State) (i : Instr), dueFirst s = none → s.inbox = [] → s.turn = .event → due s = some i → step s = endStep (soften s (exec i s)))
  ∧ (∀ (s t : State) (u w bits : Nat) (blk : Block) (x : Weave) (b : Batch),
     dueFirst s = none → s.inbox = [] → s.turn = .issue → s.focus = .weave u w → s.block? u = some blk → s.weave? u w = some x →
     x.curBatch = some b → x.active = true → b.runnable = true → b.stepDue = false → b.mac = none → (outside x b = false ∨ bkpMatch blk b = none) →
     fetchAt s u x.core blk.ctx b.pc = (t, .word bits) →
       let halts := blk.haltsAt (b.members.any fun sl => s.isHelper (.fib u w sl))
       (fetchWaits s t x.core = false →
         (∀ i r, decode bits = some i → gateFor t x.core halts i = (r, true) → step s = endStep (exec i r))
         ∧ (∀ r, decode bits = none → startGate t x.core = (r, true) →
             step s = endStep (exec (.illegalInstruction (guardBits bits) (lenOf bits)) r))
         ∧ ∀ i r, decode bits = some i → gateFor t x.core halts i = (r, false) → step s = endStep (.next r))
       ∧ (fetchWaits s t x.core = true → step s = endStep (.next s))
       ∧ ∀ r, endStep (.next r) = .next (passTurn r))
  ∧ (∀ (s t : State) (u bits : Nat) (blk : Block) (x : Stream),
     dueFirst s = none → s.inbox = [] → s.turn = .issue → s.focus = .stream u → s.block? u = some blk → s.stream? u = some x → x.ending = false →
     (x.state = .run ∨ ∃ q, x.state = .woke q) → x.cmdErr = [] → fetchAt s u blk.core blk.ctx x.pc = (t, .word bits) →
     fetchWaits s t blk.core = false →
       (∀ i r, decode bits = some i → gateFor t blk.core blk.halted i = (r, true) → step s = endStep (exec i r))
       ∧ ∀ r, decode bits = none → startGate t blk.core = (r, true) →
           step s = endStep (exec (.illegalInstruction (guardBits bits) (lenOf bits)) r))

/-- The first instruction of a core since it last held no weave starts the core: while its region has room in the current step the core starts and is
counted, and with nobody waiting; otherwise it waits its turn; a core that has started passes (R424, R425). That a core which waits joins its region's
queue, and that DEFER counts it as it joins, is the model's choice (log 39), and so is where the gate stands (log 53). -/
def Obligations.CoreStarts : Prop := ∀ (s : State) (c : Nat), let r := regionOf (coreDie c)
  ((s.core c).started = true → startGate s c = (s, true))
  ∧ ((s.core c).started = false → (s.region r).queue = [] → ((s.region r).limit = 0 ∨ (s.region r).starts < min (s.region r).limit 2560) →
      (startGate s c).2 = true ∧ ((startGate s c).1.core c).started = true ∧ ((startGate s c).1.region r).starts = (s.region r).starts + 1)
  ∧ ((s.core c).started = false → (s.region r).queue.contains c = false → (s.region r).limit ≠ 0 → min (s.region r).limit 2560 ≤ (s.region r).starts →
      (startGate s c).2 = false ∧ ((startGate s c).1.core c).started = false ∧ ((startGate s c).1.region r).queue = (s.region r).queue ++ [c]
        ∧ ((startGate s c).1.region r).defer = min 0xFFFFFFFF ((s.region r).defer + 1))

/-- A fetch through a cold instruction cache reads the little-endian bytes of memory at the translated PC, as many as bits [1:0] of the word
give, when they lie within the 32-byte fetch block, and otherwise finds trap 0x03 (R42, R43, R250). -/
def Obligations.FetchReadsMemory : Prop := ∀ (s t : State) (uid c ctx pa : Nat) (pc : Word),
  Machine.translate s uid c ctx pc .fetch = (t, .ok pa) → pa % 32 = pc.toNat % 32 → mget (t.core c).icache (pa / 64) = none →
    (fetchAt s uid c ctx pc).2 = if pc.toNat % 32 + lenOf (t.phys pa 8) ≤ 32 then .word (t.phys pa (lenOf (t.phys pa 8))) else .trap 0x03

/-- An instruction whose guard is true for no fibre of its batch, or not for the stream, changes only the agent's place: the PC goes on, no
register, predicate, mark or byte of memory changes; a stream's capture is discarded (R23, R325). -/
def Obligations.GuardFalse : Prop := ∀ (i : Instr) (s : State) (k : Iss) (w : Nat),
  encode i = some (i.size, w) → (∀ a b c d, i ≠ .clause a b c d) → standsBy i s = some k →
    exec i s = .next (if k.weave.isNone then k.afterSeq (s.updStream k.uid fun x => { x with capture := none }) else k.after false s)

/-! ### Element instructions (R72 to R139) -/

/-- Element instructions complete: every source of every participant is read in the state before, last uses release, then each participant
writes its result, a compare or `plog` its predicate, and a float instruction its flags, in slot order (R25, R95, R116, R117, R122, R127). -/
def Obligations.LaneCompletes : Prop :=
  (∀ (i : Instr) (r : RegOp) (s : State) (k : Iss), i.regOp = some r → ready i s = some k →
     exec i s = .next (k.ends false false (r.result k s)))
  ∧ (∀ (i : Instr) (r : PredOp) (s : State) (k : Iss), i.predOp = some r → ready i s = some k →
     exec i s = .next (k.ends false false (r.result k s)))

/-- A result in a fibre register: every participant's register takes its value and becomes live, whatever its state was; a register that a last
use names and that is not written becomes dead at most for its own fibre, also where a crossbar pattern brings another fibre's value, which is the
model's choice (log 61); no other register, no predicate, uniform register, mark or byte of
memory changes, and the sticky flags of each weave gain what its participants raise (R24, R25, R38, R81, R95). -/
def Obligations.LaneResult : Prop := ∀ (i : Instr) (r : RegOp) (s : State) (k : Iss),
  i.regOp = some r → readyFib i s = some k → present s k.acts → r.d.uni = false → unboundIn s k.acts r.d.num.toNat →
  ∃ d, exec i s = .next (k.after false d) ∧ lanesOnly k.uid s d
    ∧ (∀ a ∈ k.acts, d.reg? k.uid k.w a.slot r.d.num.toNat = some (.live (r.val s (s.consume k.pc k.acts r.srcs) a).1))
    ∧ (∀ v y sl n, ¬(.fib v y sl ∈ k.acts ∧ n = r.d.num.toNat) → ¬lastUsed k.acts r.srcs v y sl n → d.reg? v y sl n = s.reg? v y sl n)
    ∧ (∀ v y sl, (d.fibre? v y sl).map Fibre.preds = (s.fibre? v y sl).map Fibre.preds)
    ∧ (∀ v y n, d.readK v y n = s.readK v y n)
    ∧ ∀ y, d.fpflags k.uid y = (s.fpflags k.uid y).map fun x =>
        x ||| flagsIn s k.uid k.w y (fun a => if r.fp then (r.val s (s.consume k.pc k.acts r.srcs) a).2 else 0) k.acts

/-- A result in a uniform register: it holds the value of the highest participant; k0 discards it. No other uniform register, no fibre register
but those that last uses release, each participant's own under a crossbar pattern too (log 61), no predicate, mark or byte of memory changes (R49,
R188). -/
def Obligations.LaneUniform : Prop := ∀ (i : Instr) (r : RegOp) (s : State) (k : Iss) (a : Actor),
  i.regOp = some r → readyFib i s = some k → r.d.uni = true → k.acts.getLast? = some a →
  ∃ d, exec i s = .next (k.after false d) ∧ lanesOnly k.uid s d
    ∧ (∀ v y n, d.readK v y n = if v = k.uid ∧ y = k.w ∧ n = r.d.num.toNat ∧ n ≠ 0 then (r.val s (s.consume k.pc k.acts r.srcs) a).1
        else s.readK v y n)
    ∧ (∀ v y sl n, ¬lastUsed k.acts r.srcs v y sl n → d.reg? v y sl n = s.reg? v y sl n)
    ∧ (∀ v y sl, (d.fibre? v y sl).map Fibre.preds = (s.fibre? v y sl).map Fibre.preds)
    ∧ ∀ y, d.fpflags k.uid y = (s.fpflags k.uid y).map fun x =>
        x ||| flagsIn s k.uid k.w y (fun a => if r.fp then (r.val s (s.consume k.pc k.acts r.srcs) a).2 else 0) k.acts

/-- A last use makes the register dead, the participant's own and no other fibre's under a crossbar pattern too (log 61), unless the instruction writes
it, it is bound, or it is one of a helper's shared range (log 16 for that);
a dead register reads as 0, and a read of one in an element instruction sets DR in sr.deadrd: where DR was clear it records the fibre slot, the
register and the PC, and where DR was set the record stays (R25, R26). -/
def Obligations.RegisterLife : Prop :=
  (∀ (i : Instr) (r : RegOp) (s : State) (k : Iss) (u w sl n : Nat) (f : Fibre),
     i.regOp = some r → readyFib i s = some k → r.d.uni = false → unboundIn s k.acts r.d.num.toNat →
     lastUsed k.acts r.srcs u w sl n → n ≠ r.d.num.toNat → s.fibre? u w sl = some f → mget f.binds n = none → (f.isHelper && decide (16 ≤ n)) = false →
     ∃ d, exec i s = .next (k.after false d) ∧ d.reg? u w sl n = some .dead ∧ d.readW u w sl n = (0, some (w, f.fslot, n)))
  ∧ (∀ (i : Instr) (r : RegOp) (s : State) (k : Iss) (v fs n : Nat) (a : Actor) (x : Src) (y : Weave),
     i.regOp = some r → readyFib i s = some k → r.d.uni = false → unboundIn s k.acts r.d.num.toNat →
     k.acts = [a] → r.srcs = [x] → (s.readSrc a x).2 = some (v, fs, n) → s.weave? k.uid v = some y →
     s.src a x = 0
     ∧ ∃ d z, exec i s = .next (k.after false d) ∧ d.weave? k.uid v = some z ∧ z.deadDR = true
       ∧ (y.deadDR = false → z.deadSlot = fs ∧ z.deadReg = n ∧ z.deadPc = k.pc)
       ∧ (y.deadDR = true → z.deadSlot = y.deadSlot ∧ z.deadReg = y.deadReg ∧ z.deadPc = y.deadPc))

/-- A compare or `plog` writes its one predicate in every participant, and `pmov` into predicates writes p1 to p15 from the bits of the same number,
p0 staying 1; no register but those that last uses release, each participant's own under a crossbar pattern too (log 61), no other predicate, uniform
register, mark or byte of memory changes (R22, R116 to R118, R127). -/
def Obligations.PredicateResult : Prop :=
  (∀ (i : Instr) (r : PredOp) (s : State) (k : Iss),
     i.predOp = some r → readyFib i s = some k → present s k.acts →
     ∃ d, exec i s = .next (k.after false d) ∧ lanesOnly k.uid s d
       ∧ (∀ a ∈ k.acts, d.pred a r.p = (r.p = 0 || (r.val s (s.consume k.pc k.acts r.srcs) a).1))
       ∧ (∀ a n, ¬(a ∈ k.acts ∧ n = r.p) → d.pred a n = s.pred a n)
       ∧ (∀ v y sl n, ¬lastUsed k.acts r.srcs v y sl n → d.reg? v y sl n = s.reg? v y sl n)
       ∧ (∀ v y n, d.readK v y n = s.readK v y n)
       ∧ ∀ y, d.fpflags k.uid y = (s.fpflags k.uid y).map fun x =>
           x ||| flagsIn s k.uid k.w y (fun a => if r.fp then (r.val s (s.consume k.pc k.acts r.srcs) a).2 else 0) k.acts)
  ∧ (∀ (f : AForm) (s : State) (k : Iss), readyFib (.pmov f true) s = some k → present s k.acts →
     ∃ d, exec (.pmov f true) s = .next (k.after false d) ∧ lanesOnly k.uid s d
       ∧ (∀ a ∈ k.acts, ∀ n, n < 16 → d.pred a n = (n = 0 || (s.src a f.a).getLsbD n))
       ∧ (∀ a n, a ∉ k.acts → d.pred a n = s.pred a n)
       ∧ (∀ v y sl n, ¬lastUsed k.acts [f.a] v y sl n → d.reg? v y sl n = s.reg? v y sl n)
       ∧ (∀ v y n, d.readK v y n = s.readK v y n) ∧ ∀ v y, d.fpflags v y = s.fpflags v y)

/-- A result in a bound register is a store: the register holds the value as the binding reads it back; a lone participant's store, where its buffer
holds nothing else, no tag refuses it and no packet of it or of a pending miss carries a deadline, gives the binding's word the low bytes of the result and changes no other
byte of panel memory; and every binding of a word that a store changes holds the word's new value as pending, and whether its line is poisoned,
unless its fibre has a later store of its own to the word still buffered (R256, R261, R262, R264, R362). -/
def Obligations.BoundStores : Prop :=
  (∀ (i : Instr) (r : RegOp) (s : State) (k : Iss) (sl : Nat) (f : Fibre) (b : Binding),
     i.regOp = some r → readyFib i s = some k → r.d.uni = false → .fib k.uid k.w sl ∈ k.acts → s.fibre? k.uid k.w sl = some f →
     mget f.binds r.d.num.toNat = some b →
     ∃ d, exec i s = .next (k.after false d)
       ∧ d.reg? k.uid k.w sl r.d.num.toNat
           = some (.live (b.extend ((r.val s (s.consume k.pc k.acts r.srcs) (.fib k.uid k.w sl)).1.toNat % 2 ^ (8 * b.size)))))
  ∧ (∀ (i : Instr) (r : RegOp) (s : State) (k : Iss) (a : Actor) (f : Fibre) (b : Binding) (y : Block),
     i.regOp = some r → readyFib i s = some k → r.d.uni = false → k.acts = [a] → s.fib? a = some f → mget f.binds r.d.num.toNat = some b →
     s.block? k.uid = some y → y.deadline = none → missesInTime s → s.buf (s.bufOf a) = [] → (∀ p, s.frameAt p = none) → b.pa + b.size ≤ panelEnd →
     tagOk s y.ctx b.pa = true →
     ∃ d, exec i s = .next (k.after false d) ∧ ∀ p, p < panelEnd → d.byte p =
       if b.pa ≤ p ∧ p < b.pa + b.size then
         BitVec.ofNat 8 ((r.val s (s.consume k.pc k.acts r.srcs) a).1.toNat / 2 ^ (8 * (p - b.pa)))
       else s.byte p)
  ∧ (∀ (s : State) (c : Option Nat) (pa v y sl n : Nat) (data : List Byte) (f : Fibre) (b : Binding) (blk : Block),
     (homeWrite s c pa data).block? v = some blk → (homeWrite s c pa data).fibre? v y sl = some f → mget f.binds n = some b →
     b.pa < pa + data.length → pa < b.pa + b.size → ownLater blk.sbuf y sl b = false →
     b.pending = some (b.extend ((homeWrite s c pa data).phys b.pa b.size)) ∧ b.poison = (homeWrite s c pa data).poisoned b.pa b.size)

/-- Element instructions of the stream write an s register, s0 discarding, or a predicate; nothing else of the panel changes but results that
the write discards (R31, R303, R305). -/
def Obligations.StreamResult : Prop :=
  (∀ (i : Instr) (r : RegOp) (s : State) (k : Iss), i.regOp = some r → readySeq i s = some k →
    ∃ d, exec i s = .next (k.afterSeq d) ∧ streamOnly k.uid s d
      ∧ (∀ v n, d.readS v n = if v = k.uid ∧ n = r.d.num.toNat ∧ n ≠ 0 then
          (r.val s (s.consume k.pc k.acts r.srcs) (.seq k.uid)).1 else s.readS v n)
      ∧ d.predsOf (.seq k.uid) = s.predsOf (.seq k.uid))
  ∧ ∀ (i : Instr) (r : PredOp) (s : State) (k : Iss), i.predOp = some r → readySeq i s = some k →
    ∃ d, exec i s = .next (k.afterSeq d) ∧ streamOnly k.uid s d ∧ (∀ v n, d.readS v n = s.readS v n)
      ∧ ∀ n, d.pred (.seq k.uid) n = if n = r.p then (n = 0 || (r.val s (s.consume k.pc k.acts r.srcs) (.seq k.uid)).1)
          else s.pred (.seq k.uid) n

/-! ### Values (R72 to R74, R100 to R110) -/

/-- `add`, `sub`, `mul` and `mad` of every selected element form the exact result: without SAT its low bits are written, with SAT the nearest value of
the element type; `mad` narrows once. A scalar result fills all 64 bits: sign-extended from an sN type narrower than 64 bits, zero-extended from
an nN type; elements of a packed type that the mask leaves out keep the destination's old value (R51, R72, R73, R100). -/
def Obligations.ExactThenNarrow : Prop :=
  (∀ (f : AForm) (u sat : Bool) (s s1 : State) (a : Actor) (i : Nat),
     i < (f.ty.shape false).1 → (f.ty.packed = true → f.ty.semBit f.ext.sem i = true) →
     let w := (f.ty.shape false).2
     let sg := f.ty.signed u
     let x := toI sg w (nth (opA false f s a) i)
     let y := toI sg w (nth (opB false u f s a) i)
     let z := toI sg w (nth (opC false f s a) i)
     let e (v : Word) : Nat := elemAt w v.toNat i
     narrowed sg sat w (x + y) (e (intVal f 2 u (addE sat) s s1 a)) ∧ narrowed sg sat w (x - y) (e (intVal f 2 u (subE sat) s s1 a))
     ∧ narrowed sg sat w (x * y) (e (intVal f 2 u (mulE sat) s s1 a)) ∧ narrowed sg sat w (x * y + z) (e (intVal f 3 u (madE sat) s s1 a)))
  ∧ (∀ (f : AForm) (n : Nat) (u : Bool) (op : (w : Nat) → (sg : Bool) → (a b c : Nat) → Nat) (s s1 : State) (a : Actor),
     let w := (f.ty.shape false).2
     let v := intVal f n u op s s1 a
     (f.ty = .s8 ∨ f.ty = .s16 ∨ f.ty = .s32 → v = (BitVec.ofNat w v.toNat).signExtend 64)
     ∧ ((f.ty = .n8 ∨ f.ty = .n16 ∨ f.ty = .n32) → (∀ x y z, op w (f.ty.signed u) x y z < 2 ^ w) → v = (BitVec.ofNat w v.toNat).zeroExtend 64)
     ∧ (f.ty.packed = true → ∀ i, i < (f.ty.shape false).1 → f.ty.semBit f.ext.sem i = false →
         elemAt w v.toNat i = elemAt w (s1.oldD a f.d).toNat i))

/-- Division truncates towards zero and the remainder takes the sign of the dividend, element by element; a divisor of zero gives a quotient of
all ones and the dividend as remainder, and the most negative value divided by −1 gives itself and 0, without a trap or flag (R74). -/
def Obligations.DivisionRule : Prop :=
  (∀ (f : AForm) (u : Bool) (i : Instr) (op : Nat → Bool → Nat → Nat → Nat → Nat), (i = .div f u ∧ op = divE ∨ i = .rem f u ∧ op = remE) →
     ∃ r, i.regOp = some r ∧ r.d = f.d ∧ r.fp = false ∧ r.val = plain (intVal f 2 u op)
       ∧ ∀ s k, ready i s = some k → exec i s = .next (k.ends false false (r.result k s)))
  ∧ ∀ (f : AForm) (u : Bool) (s s1 : State) (a : Actor) (i : Nat),
  i < (f.ty.shape false).1 → (f.ty.packed = true → f.ty.semBit f.ext.sem i = true) →
  let w := (f.ty.shape false).2
  let sg := f.ty.signed u
  let x := toI sg w (nth (opA false f s a) i)
  let y := toI sg w (nth (opB false u f s a) i)
  let q := elemAt w (intVal f 2 u divE s s1 a).toNat i
  let r := elemAt w (intVal f 2 u remE s s1 a).toNat i
  (y = 0 → q = 2 ^ w - 1 ∧ r = nth (opA false f s a) i)
  ∧ (sg = true ∧ x = -(2 ^ (w - 1) : Nat) ∧ y = -1 → toI sg w q = x ∧ r = 0)
  ∧ (y ≠ 0 → ¬(sg = true ∧ x = -(2 ^ (w - 1) : Nat) ∧ y = -1) →
      toI sg w q * y + toI sg w r = x ∧ (toI sg w r).natAbs < y.natAbs ∧ (toI sg w r = 0 ∨ (0 < toI sg w r ↔ 0 < x)))

/-- `mulhi` writes bits [2w − 1:w] of the exact product, signed or natural as the element type is (R101); `min` and `max` write the smaller or the
larger of each pair of elements, compared as the element type has it (R104). -/
def Obligations.MulhiMinMaxRule : Prop :=
  (∀ (f : AForm) (u : Bool) (i : Instr) (op : Nat → Bool → Nat → Nat → Nat → Nat),
     (i = .mulhi f u ∧ op = mulhiE ∨ i = .min f u ∧ op = minE ∨ i = .max f u ∧ op = maxE) →
     ∃ r, i.regOp = some r ∧ r.d = f.d ∧ r.fp = false ∧ r.val = plain (intVal f 2 u op)
       ∧ ∀ s k, ready i s = some k → exec i s = .next (k.ends false false (r.result k s)))
  ∧   (∀ (f : AForm) (u : Bool) (s s1 : State) (a : Actor) (i : Nat),
     i < (f.ty.shape false).1 → (f.ty.packed = true → f.ty.semBit f.ext.sem i = true) →
     let w := (f.ty.shape false).2
     let sg := f.ty.signed u
     let p := toI sg w (nth (opA false f s a) i) * toI sg w (nth (opB false u f s a) i)
     elemAt w (intVal f 2 u mulhiE s s1 a).toNat i = (p % (2 ^ (2 * w) : Nat)).toNat / 2 ^ w)
  ∧ (∀ (f : AForm) (u : Bool) (s s1 : State) (a : Actor) (i : Nat),
     i < (f.ty.shape false).1 → (f.ty.packed = true → f.ty.semBit f.ext.sem i = true) →
     let w := (f.ty.shape false).2
     let sg := f.ty.signed u
     let x := toI sg w (nth (opA false f s a) i)
     let y := toI sg w (nth (opB false u f s a) i)
     let lo := toI sg w (elemAt w (intVal f 2 u minE s s1 a).toNat i)
     let hi := toI sg w (elemAt w (intVal f 2 u maxE s s1 a).toNat i)
     (lo = x ∨ lo = y) ∧ lo ≤ x ∧ lo ≤ y ∧ (hi = x ∨ hi = y) ∧ x ≤ hi ∧ y ≤ hi)

/-! ### Instructions across the fibres of a batch (R119, R120, R192 to R199, R359) -/

/-- `movx` and `movxw` complete where every participant's index is below its registers: `movx` writes D with the value of the register that A
names, `movxw` writes that register with B (R119, R120; a helper's limits are those of R214). A last use releases the participant's own register, also of
an index that a crossbar pattern brings (log 61). -/
def Obligations.IndexedCompletes : Prop := ∀ (f : AForm) (s : State) (k : Iss) (blk : Block), s.block? k.uid = some blk →
  (readyFib (.movx f) s = some k → (∀ a ∈ k.acts, (s.src a f.a).toNat % 128 < if s.isHelper a then 32 else blk.hdr.regs) →
    ∃ t, released k [f.a] s t ∧ exec (.movx f) s = .next (k.after false (k.acts.foldl (fun t a =>
      t.writeD a f.d (s.src a ⟨BitVec.ofNat 7 ((s.src a f.a).toNat % 128), false, false, .none, false, false⟩)) t)))
  ∧ (readyFib (.movxw f) s = some k → (∀ a ∈ k.acts, (s.src a f.a).toNat % 128 < if s.isHelper a then 16 else blk.hdr.regs) →
    ∃ t, released k [f.a, f.b] s t ∧ exec (.movxw f) s = .next (k.after false (k.acts.foldl (fun t a =>
      t.writeW a ((s.src a f.a).toNat % 128) (s.src a f.b)) t)))

/-- `shfl`, `vote`, `match`, `scan`, `red`, `id` and `tread` complete: every value comes from the registers and predicates as they stood before, and each
participant writes its destination in slot order. An inclusive `scan` combines the values up to its own, an exclusive one gives the one before
it or the identity, and `red` gives the last to all; the flags of the chain are raised once (R93, R192 to R196, R199, R359). -/
def Obligations.CrossLaneCompletes : Prop :=
  (∀ (f : AForm) (s : State) (k : Iss),
     (∀ mode, readyFib (.shfl f mode) s = some k → ∃ t, released k [f.a, f.b] s t ∧
       exec (.shfl f mode) s = .next (k.after false (k.acts.foldl (fun r a => r.writeD a f.d (mergeElems false f.ty f.ext.sem (t.oldD a f.d)
         (elemsOf false f.ty f.a (slotRead s a f.a (shflSlot mode a.slot (shflB f s a))).1))) t)))
     ∧ (readyFib (.vote f .any) s = some k → exec (.vote f .any) s = .next (k.after false (k.acts.foldl (fun r a =>
         r.writeP a f.d.num.toNat (k.acts.any fun b => s.pred b f.a.num.toNat)) s)))
     ∧ (readyFib (.vote f .all) s = some k → exec (.vote f .all) s = .next (k.after false (k.acts.foldl (fun r a =>
         r.writeP a f.d.num.toNat (k.acts.all fun b => s.pred b f.a.num.toNat)) s)))
     ∧ (readyFib (.vote f .uni) s = some k → exec (.vote f .uni) s = .next (k.after false (k.acts.foldl (fun r a =>
         r.writeP a f.d.num.toNat ((k.acts.all fun b => s.pred b f.a.num.toNat) || !(k.acts.any fun b => s.pred b f.a.num.toNat))) s)))
     ∧ (readyFib (.vote f .ballot) s = some k → exec (.vote f .ballot) s = .next (k.after false (k.acts.foldl (fun r a =>
         r.writeD a f.d (maskBy k.acts fun b => s.pred b f.a.num.toNat)) s)))
     ∧ (readyFib (.matchBits f) s = some k → f.ty.packed = false → ∃ t, released k [f.a] s t ∧
       exec (.matchBits f) s = .next (k.after false (k.acts.foldl (fun r a => r.writeD a f.d (maskBy k.acts fun b => matchKey s f a = matchKey s f b)) t)))
     ∧ (readyFib (.matchBits f) s = some k → f.ty.packed = true → ∃ t, released k [f.a] s t ∧
       exec (.matchBits f) s = .next (k.after false (k.acts.foldl (fun r a => r.writeD a f.d (mergeElems false f.ty f.ext.sem (t.oldD a f.d)
         ((upto (f.ty.shape false).1).map fun i => elemAt (f.ty.shape false).2 (maskBy k.acts fun b => matchKey s f a = matchKey s f b).toNat i))) t)))
     ∧ (readyFib (.matchf f) s = some k →
       let key (a : Actor) : Nat := nth (elemsOf true f.ty f.a (s.src a f.a)) 0
       ∃ t u, released k [f.a] s t
         ∧ u = k.acts.foldl (fun r a => r.writeD a f.d (maskBy k.acts fun b => a == b || (fpCmp (fmtOf f.ty) .eq (key a) (key b)).1)) t
         ∧ exec (.matchf f) s = .next (k.after false
           (let fl := k.acts.foldl (fun (x : FFlags) a => x ||| (fpCmp (fmtOf f.ty) .eq (key a) (key a)).2) 0
            match k.acts with | a :: _ => if fl = 0 then u else u.raise a fl | [] => u)))
     ∧ (∀ sel blk, readyFib (.id f sel) s = some k ∨ readySeq (.id f sel) s = some k → s.block? k.uid = some blk →
       (∀ a ∈ k.acts, (idValue s k sel blk a).isSome = true) →
       exec (.id f sel) s = .next (k.ends false false (k.acts.foldl (fun r a => r.writeD a f.d ((idValue s k sel blk a).getD 0)) s)))
     ∧ (ready (.tread f) s = some k →
       exec (.tread f) s = .next (k.ends false false (k.acts.foldl (fun r a => r.writeD a f.d (dieTime s (coreDie (s.coreOf a)))) s))))
  ∧ (∀ (f : AForm) (op : RedOp) (sat : Bool) (rm : RM) (s : State) (k : Iss) (i : Instr),
     readyFib i s = some k →
     let r := inclusive op sat rm f.ty (k.acts.map fun a => elemsOf false f.ty f.a (s.src a f.a))
     let res (l : List (List Nat)) : Prop := ∃ t u, released k [f.a] s t
       ∧ u = (k.acts.zip l).foldl (fun (x : State) e => x.writeD e.1 f.d (mergeElems false f.ty f.ext.sem (t.oldD e.1 f.d) e.2)) t
       ∧ exec i s = .next (k.after false (match k.acts with | a :: _ => if r.2 = 0 then u else u.raise a r.2 | [] => u))
     k.acts.Nodup →
     (i = .scan f op false sat rm → res r.1)
     ∧ (i = .scan f op true sat rm → res (List.replicate (f.ty.shape false).1 (identityE op f.ty) :: r.1.dropLast))
     ∧ (i = .red f op sat rm → res (k.acts.map fun _ => r.1.getLastD [])))

/-! ### Long-latency operations (R27 to R31) -/

/-- The special functions complete at issue with one operation on the selected mark: the count rises by one, each participant's result waits to
land, of a k destination the highest one's alone, and until then every register but those that last uses release, each participant's own under a
crossbar pattern too (log 61), reads as before (R27, R28, R31, R50, R130). -/
def Obligations.LongLatency : Prop := ∀ (i : Instr) (r : LongOp) (s : State) (k : Iss), i.longOp = some r → readyFib i s = some k → present s k.acts →
  ∃ d, exec i s = .next (k.after false d)
    ∧ d = { s with blocks := d.blocks, nextOp := s.nextOp + 1 } ∧ (∀ v, v ≠ k.uid → d.block? v = s.block? v)
    ∧ (k.markOf i < 12 → ∀ m, d.markCount k.uid k.weave m = s.markCount k.uid k.weave m + if m = k.markOf i then 1 else 0)
    ∧ ((d.block? k.uid).bind fun b => mget b.ops s.nextOp) = some (k.weave, k.markOf i)
    ∧ (∀ a ∈ k.acts, (d.pendOf a).getLast? = some (mkPend k s.nextOp (k.markOf i)
        (if r.f.d.uni && some a != k.acts.getLast? then .none else landDst a r.f.d) (r.val s a).1 (r.val s a).2 none))
    ∧ (∀ v y sl n, ¬lastUsed k.acts (readsOf r.f r.n) v y sl n → d.reg? v y sl n = s.reg? v y sl n)
    ∧ (∀ v y n, d.readK v y n = s.readK v y n) ∧ (∀ a, d.predsOf a = s.predsOf a)
    ∧ ∀ v y, d.fpflags v y = s.fpflags v y

/-! ### Control flow (R140 to R146, R181, R204, R347 to R354) -/

/-- `bra`, `call`, `brx` and `ret` complete where no fetch of a target waits for a miss entry: every participant stands at its target, `call` with its
link in its register, the others go on behind the instruction, and nothing of the weave but its batches changes beyond what the transfers themselves do;
a stream goes on at its target (R140, R141, R179, R248). -/
def Obligations.TransfersComplete : Prop := ∀ (i : Instr) (j : Jump) (s : State) (k : Iss), i.jump = some j →
  (readyFib i s = some k → passes (j.step k s) (j.ok k s) k.acts (j.start k s) → fetchesHeld k s (k.acts.foldl (j.step k s) (j.start k s)) →
    ∃ x y, (k.acts.foldl (j.step k s) (j.start k s)).weave? k.uid k.w = some x
      ∧ exec i s = .next ((k.acts.foldl (j.step k s) (j.start k s)).updWeave k.uid k.w fun _ => y) ∧ y.unsched = x.unsched
      ∧ (∀ a ∈ k.acts, y.standsAt a.slot (j.target k s a)) ∧ ∀ a ∈ k.batch, a ∉ k.acts → y.standsAt a.slot (k.fall false).pc)
  ∧ (readySeq i s = some k → j.ok k s (j.start k s) (.seq k.uid) → fetchesHeld k s (j.step k s (j.start k s) (.seq k.uid)) →
    exec i s = .next ((k.afterSeq (j.step k s (j.start k s) (.seq k.uid))).updStream k.uid fun x => { x with pc := j.target k s (.seq k.uid) }))

/-- A transfer whose target fails its check traps with the check's cause, 0x04 where it is no clause header or not aligned to 8 bytes: XCAUSE of the lone
participant, or of the stream, is that cause, XPC the transfer, and it goes on at the trap routine. That ADDR holds the target for cause 0x04 as well
is the model's reading of R46 against R351 (log 59). A word that no instruction has traps with 0x01 in every fibre whose guard is true, an illegal header
with 0x02 in the whole batch, and an instruction that its fetch block does not hold with 0x03 in the whole batch at its turn, each with its own address
as resume point (R29, R42, R43, R45, R46, R60, R61, R140, R141). -/
def Obligations.ControlTraps : Prop :=
  (∀ (i : Instr) (j : Jump) (s t : State) (k : Iss) (a : Actor) (e : BitVec 8), i.jump = some j →
     let check := targetCheck (j.start k s) k.uid ((j.start k s).coreOf a) ((j.start k s).ctxOf k.uid) (j.target k s a)
     check = (t, some e) → fetchWaits s t (s.coreOf a) = false →
     (∀ blk c, readyFib i s = some k → k.acts = [a] → routineReady k blk c t → (ctxCause e = true → t.hasFH blk.ctx = false) →
       ∃ r y, exec i s = .next r ∧ (r.fib? a).map (fun f => (f.tr.cause, f.tr.xaddr, f.tr.xpc, f.tr.inTrap)) = some (e, j.target k s a, k.pc, true)
         ∧ r.weave? k.uid k.w = some y ∧ y.standsAt a.slot blk.trapPC)
     ∧ ∀ blk x, readySeq i s = some k → a = .seq k.uid → t.block? k.uid = some blk → blk.hdr.trapEntry ≠ 0 → t.stream? k.uid = some x →
         x.tr.inTrap = false → x.pend = [] → (ctxCause e = true → t.hasFH blk.ctx = false) →
         ∃ r, exec i s = .next r ∧ (r.stream? k.uid).map (fun x => (x.tr.cause, x.tr.xaddr, x.tr.xpc, x.tr.inTrap, x.pc))
           = some (e, j.target k s a, k.pc, true, blk.trapPC))
  ∧ (∀ (g : Guard) (len u w : Nat) (s : State) (blk : Block) (c : Ctx) (x : Weave) (b : Batch),
     s.focus = .weave u w → s.weave? u w = some x → x.curBatch = some b → b.entry = false → x.ss = false →
     let k := fibIss s u w x b len g
     k.acts ≠ [] → routineReady k blk c s → ∃ t, exec (.illegalInstruction g len) s = .next t ∧ trapTaken k blk c s t 0x01 k.pc fun _ => 0)
  ∧ (∀ (wait : BitVec 12) (seta setb : BitVec 4) (zero : BitVec 42) (u w : Nat) (s : State) (blk : Block)
       (c : Ctx) (x : Weave) (b : Batch),
     s.focus = .weave u w → s.weave? u w = some x → x.curBatch = some b → badHeader b.pc seta setb zero = true →
     let k := fibIss s u w x b 8 ⟨0, false⟩
     b.members ≠ [] → routineReady k blk c s → ∃ t, exec (.clause wait seta setb zero) s = .next t ∧ trapTaken k blk c s t 0x02 k.pc fun _ => 0)
  ∧ (∀ (u w : Nat) (s t : State) (blk : Block) (c : Ctx) (x : Weave) (b : Batch),
     dueFirst s = none → s.inbox = [] → s.turn = .issue → s.focus = .weave u w → s.block? u = some blk → s.weave? u w = some x → x.curBatch = some b →
     x.active = true → b.runnable = true → b.stepDue = false → b.mac = none → (outside x b = false ∨ bkpMatch blk b = none) → b.members ≠ [] →
     fetchAt s u x.core blk.ctx b.pc = (t, .trap 0x03) → fetchWaits s t x.core = false →
     let k := fibIss t u w x b 8 ⟨0, false⟩
     routineReady k blk c t → ∃ v, step s = .next (passTurn v) ∧ trapTaken k blk c t v 0x03 k.pc fun _ => 0)

/-- `trap` and `brk` complete by taking their trap: cause 0x0F with the argument in AUX, or 0x10, and the next instruction as resume point; the
participants' trap registers, the record, the doorbell and the routine's PC are as R349, R350 and R353 have them; without a routine, or inside
one, the block ends: it is resident no more and its launch counts it as killed (R143, R349). -/
def Obligations.SoftwareTraps : Prop :=
  (∀ (s : State) (k : Iss) (blk : Block) (c : Ctx), routineReady k blk c s →
     (∀ f, readyFib (.trap f) s = some k → ∃ t, exec (.trap f) s = .next t ∧
       trapTaken k blk c s t 0x0F k.npc fun a => match f.ext with | .i96 imm => imm.setWidth 64 | _ => ofNat64 ((s.src a f.a).toNat % 2 ^ 32))
     ∧ ∀ g, readyFib (.brk g) s = some k → ∃ t, exec (.brk g) s = .next t ∧ trapTaken k blk c s t 0x10 k.npc fun _ => 0)
  ∧ (∀ (i : Instr) (s : State) (k : Iss) (blk : Block) (l : Launch),
     ((∃ f, i = .trap f) ∨ ∃ g, i = .brk g) → readyFib i s = some k → s.block? k.uid = some blk → s.launch? blk.ctx blk.lid = some l →
     (∀ a ∈ k.acts, (s.fib? a).isSome = true ∧ s.isHelper a = false) →
     (blk.hdr.trapEntry = 0 ∨ ∃ a ∈ k.acts, ((s.fib? a).map fun f => f.tr.inTrap) = some true) →
     ∃ t, exec i s = .next t ∧ t.block? k.uid = none ∧ (t.launch? blk.ctx blk.lid).map Launch.killed = some (l.killed + 1))

/-- `tret` completes where every participant is in a trap, has nothing outstanding and an XPC that is a multiple of 4: it goes on at XPC with the
clause's marks and the macro call that the trap interrupted, in which it takes part as before, outside the trap; a stream goes on likewise (R354; log 80
for fibres whose macro calls differ). -/
def Obligations.TrapReturns : Prop := ∀ (g : Guard) (s : State) (k : Iss),
  (readyFib (.tret g) s = some k → k.acts.Nodup →
    (∀ a ∈ k.acts, ∃ f, s.fib? a = some f ∧ f.tr.inTrap = true ∧ f.pend = [] ∧ f.tr.xpc.toNat % 4 = 0) →
    ∃ t y, exec (.tret g) s = .next t ∧ t.weave? k.uid k.w = some y ∧
      (∀ a ∈ k.acts, ∀ f, s.fib? a = some f → (t.fib? a).map Fibre.tr = some { f.tr with inTrap := false }
        ∧ ∃ b ∈ y.batches, a.slot ∈ b.members ∧ b.pc = f.tr.xpc ∧ b.seta = f.tr.seta ∧ b.setb = f.tr.setb ∧ b.state = .run
            ∧ (b.mac.map fun m => (m.ops, m.step)) = (if f.tr.stepv then f.smac.map fun m => (m.ops, m.step) else none)
            ∧ (b.mac.any fun m => m.part.contains a.slot) = (f.tr.stepv && f.smac.any fun m => m.part.contains a.slot))
      ∧ ∀ a ∈ k.batch, a ∉ k.acts → y.standsAt a.slot (k.fall false).pc)
  ∧ ∀ x, readySeq (.tret g) s = some k → s.stream? k.uid = some x → x.tr.inTrap = true → x.pend = [] → x.tr.xpc.toNat % 4 = 0 →
    exec (.tret g) s = .next ((k.afterSeq s).updStream k.uid fun y =>
      { y with pc := x.tr.xpc, entry := x.tr.entry, seta := x.tr.seta, setb := x.tr.setb, tr := { x.tr with inTrap := false } })

/-- Instructions that only go on, and the switch points: `nop`, `fence.own` and a release fence of fibre scope change nothing else; `yield` and `bsync` refresh
the participants' bindings and let another runnable batch of the weave take its turn; at a `join` the participants park while fibres outside them
can run, and a weave that is one batch, all of it at the `join`, goes on behind it (R180, R181, R204, R269, R289, R290). -/
def Obligations.HintsComplete : Prop :=
  (∀ (i : Instr) (s : State) (k : Iss) (g : Guard), ready i s = some k →
     ((∃ wide, i = .nop wide) ∨ i = .fenceOwn g ∨ i = .fence g .rel 0 → exec i s = .next (k.ends false false s))
     ∧ (i = .yield g ∨ i = .bsync g → refreshAllWell k s → exec i s = .next (k.ends true false (refreshed k s))))
  ∧ (∀ (g : Guard) (s : State) (k : Iss) (x : Weave),
     readyFib (.join g) s = some k → refreshAllWell k s → (refreshed k s).weave? k.uid k.w = some x →
     ∃ y, exec (.join g) s = .next ((refreshed k s).updWeave k.uid k.w fun _ => y) ∧ y.unsched = x.unsched
       ∧ ((∃ a ∈ k.batch, a ∉ k.acts) ∨ (∃ j b, x.batches[j]? = some b ∧ some j ≠ x.cur ∧ b.runnable = true) →
           (∀ a ∈ k.acts, ∃ b ∈ y.batches, a.slot ∈ b.members ∧ b.pc = k.pc ∧ b.state = .parked)
           ∧ ∀ a ∈ k.batch, a ∉ k.acts → y.standsAt a.slot (k.fall false).pc)
       ∧ (k.acts = k.batch → x.batches.length = 1 → ∀ a ∈ k.acts, y.standsAt a.slot (k.fall true).pc))

/-- `mcall` completes: its batch stands at the first operation of the macro, which its participants are to execute, without moving its PC; a macro
that the control store does not hold is a `nop` (R146; log 37 for the latter). -/
def Obligations.MacroCall : Prop := ∀ (g : Guard) (n : BitVec 6) (s : State) (k : Iss), readyFib (.mcall g n) s = some k →
  (macroOps s k.uid n.toNat ≠ [] → exec (.mcall g n) s = .next (s.updWeave k.uid k.w fun x =>
    { x with
      batches := x.batches.modify (x.cur.getD 0) fun b =>
        { b with mac := some ⟨macroOps s k.uid n.toNat, 0, k.acts.map Actor.slot⟩, skipBkp := false, stopped := false, stepDue := false, entry := false,
                 state := .run }
      lastIssue := s.clock }))
  ∧ (macroOps s k.uid n.toNat = [] → exec (.mcall g n) s = .next (k.ends false false s))

/-! ### Global and local memory (R148 to R160, R281, R286, R362) -/

/-- `ld`, `st`, `pref`, `amo`, `cas` and `cstore` complete: the participants' accesses are made in slot order, where each passes its checks and the core's
miss entries hold a load's or prefetch's misses, a store's commit and an atomic; an operation is outstanding on the selected mark, and the value that it
returns waits to land; the atomics are switch points (R148 to R157, R180, R248). -/
def Obligations.MemoryCompletes : Prop := ∀ (m : MForm) (s : State) (k : Iss),
  (∀ sz, ready (.ld m sz) s = some k →
    let one := loadOne k m sz (k.markOf (.ld m sz))
    let x : MAcc := { st := s.noteAll k.pc k.acts (m.srcs (!m.nb && m.b != 0) false) }
    passes one (loadOk m sz) k.acts x → (∀ a ∈ k.acts, missesOver (k.acts.foldl one x).st (s.coreOf a) = false) →
      exec (.ld m sz) s = .next (k.ends false false ((k.acts.foldl one x).close k (k.markOf (.ld m sz)) false).st))
  ∧ (∀ sz, ready (.st m sz) s = some k →
    let x : MAcc := { st := s.noteAll k.pc k.acts (m.srcs (m.b != 0) true) }
    passes (storeOne k m sz) (storeOk m sz) k.acts x → (∀ a ∈ k.acts, commitWaits m sz s (k.acts.foldl (storeOne k m sz) x).st a = false) →
      exec (.st m sz) s = .next (k.ends false false (k.acts.foldl (storeOne k m sz) x).st))
  ∧ (∀ kind, ready (.pref m kind) s = some k →
    let t := k.acts.foldl (prefOne m kind) (s.noteAll k.pc k.acts (m.srcs (m.b != 0) false))
    (∀ a ∈ k.acts, missesOver t (s.coreOf a) = false) → exec (.pref m kind) s = .next (k.ends false false t))
  ∧ (∀ op, ready (.amo m op) s = some k →
    let one := atomicOne k m (amoBytes m) (k.markOf (.amo m op)) (m.srcs true false) (amoValue m op)
    let x : MAcc := { st := s.noteAll k.pc k.acts (m.srcs true false) }
    passes one (atomicOk m (amoBytes m) (m.srcs true false) (amoValue m op)) k.acts x → (∀ a ∈ k.acts, missesFull s (s.coreOf a) = false) →
      exec (.amo m op) s = .next (k.ends true false ((k.acts.foldl one x).close k (k.markOf (.amo m op)) true).st))
  ∧ (∀ sz, ready (.cas m sz) s = some k →
    let one := atomicOne k m sz.bytes (k.markOf (.cas m sz)) (casSrcs m) (casValue m sz.bytes)
    let x : MAcc := { st := s.noteAll k.pc k.acts (casSrcs m) }
    passes one (atomicOk m sz.bytes (casSrcs m) (casValue m sz.bytes)) k.acts x → (∀ a ∈ k.acts, missesFull s (s.coreOf a) = false) →
      exec (.cas m sz) s = .next (k.ends true false ((k.acts.foldl one x).close k (k.markOf (.cas m sz)) true).st))
  ∧ ∀ sz, ready (.cstore m sz) s = some k → (∀ a ∈ k.acts, replays s k a = false) →
    let g := groupBy (fun a => effAddr s a m false) k.acts
    let one := cstoreGroup k m sz.bytes (k.markOf (.cstore m sz)) fun a => s.src a (plainSrc m.b false)
    let x : MAcc := { st := s.noteAll k.pc k.acts (m.srcs true false) }
    (g.foldl one x).traps = [] → (∀ a ∈ k.acts, missesFull s (s.coreOf a) = false) →
      exec (.cstore m sz) s = .next (k.ends true false ((g.foldl one x).close k (k.markOf (.cstore m sz)) true).st)

/-- What a lone participant's load does where the micro-TLB maps its address, a miss entry is free and no packet carries a deadline: the value of its
own buffered stores and else of memory, extended, waits to land, poisoned where its line is (also where the
buffer forwards all of it: log 60); `.nb` sets its predicate; no byte of panel memory changes, and without an acquire no register but those that last
uses release (R54, R149, R150, R248, R249, R281). -/
def Obligations.LoadEffect : Prop := ∀ (m : MForm) (sz : MSize) (s : State) (k : Iss) (a : Actor) (pa : Nat),
  readyFib (.ld m sz) s = some k → k.acts = [a] → (s.fib? a).isSome = true → (∀ u b, s.block? u = some b → b.deadline = none) →
  (s.core (s.coreOf a)).misses.length < 32 →
  tlbMaps s a (effAddr s a m (!m.nb)) .load pa → (effAddr s a m (!m.nb)).toNat % sz.bytes = 0 → (m.ord.isAcq = true → refreshesWell s a) →
  ∃ d, exec (.ld m sz) s = .next (k.after false d)
    ∧ (d.pendOf a).getLast? = some { (memPend k (k.markOf (.ld m sz)) a m.d (extendLoad sz (seen s (s.bufOf a) pa sz.bytes))
        (poisonAt s pa sz.bytes (effAddr s a m (!m.nb)))).2 with op := s.nextOp }
    ∧ (m.nb = true → m.b ≠ 0 → m.b.toNat < 16 → d.pred a m.b.toNat = true) ∧ (∀ b n, ¬(b = a ∧ m.nb = true ∧ n = m.b.toNat) → d.pred b n = s.pred b n)
    ∧ (∀ p, p < panelEnd → d.byte p = s.byte p)
    ∧ (m.ord.isAcq = false → ∀ v y sl n, ¬lastUsed k.acts (m.srcs (!m.nb && m.b != 0) false) v y sl n → d.reg? v y sl n = s.reg? v y sl n)

/-- What a lone participant's store does where the micro-TLB maps its address and its buffer has room: its bytes are seen by every reader of the
same buffer at once, no byte of panel memory changes before a commit, and no register but those that last uses release, no predicate and no uniform
register changes (R151, R234, R281, R362). -/
def Obligations.StoreEffect : Prop := ∀ (m : MForm) (sz : MSize) (s : State) (k : Iss) (a : Actor) (pa : Nat),
  readyFib (.st m sz) s = some k → k.acts = [a] → (s.fib? a).isSome = true →
  tlbMaps s a (effAddr s a m true) .store pa → (effAddr s a m true).toNat % sz.bytes = 0 → commits s a m.ord.isRel m.scope = false →
  bufFull s (s.bufOf a) (lineOf pa) = false →
  ∃ d, exec (.st m sz) s = .next (k.after false d)
    ∧ (∀ p, seenByte d (d.bufOf a) p = if pa ≤ p ∧ p < pa + sz.bytes then
        BitVec.ofNat 8 ((s.src a (plainSrc m.d false)).toNat / 2 ^ (8 * (p - pa))) else seenByte s (s.bufOf a) p)
    ∧ (∀ p, d.byte p = s.byte p)
    ∧ (∀ v y sl n, ¬lastUsed k.acts (m.srcs (m.b != 0) true) v y sl n → d.reg? v y sl n = s.reg? v y sl n)
    ∧ (∀ b, d.predsOf b = s.predsOf b) ∧ ∀ v y n, d.readK v y n = s.readK v y n

/-- A commit point makes memory what the buffer's readers saw: every panel byte takes the youngest buffered store to it, in program order, and the
buffer is empty and the relaunch window closed (R281, R362, R363). -/
def Obligations.CommitMakesVisible : Prop := ∀ (s : State) (q : Buf) (b : Block), s.block? q.uid = some b → b.deadline = none →
  missesInTime s → (∀ p, s.frameAt p = none) → (∀ e ∈ s.buf q, e.pa + e.data.length ≤ panelEnd ∧ tagOk s b.ctx e.pa = true) →
  (∀ p, p < panelEnd → (commitBuf s q).byte p = seenByte s q p)
  ∧ (commitBuf s q).buf q = [] ∧ ((commitBuf s q).block? q.uid).map Block.wopen = some false

/-- What a lone participant's `amo` and `cas` do on plain, unpoisoned memory where the micro-TLB maps the address, its core has a free miss entry and its
buffer holds no store to the word and need not commit: D receives the old value at its landing, the word takes the new value, of a failed `cas` the old
one, and no other byte of panel memory changes (R154 to R156, R248). -/
def Obligations.AtomicEffect : Prop := ∀ (m : MForm) (n pa : Nat) (i : Instr) (new : Nat → Option Nat) (s : State) (k : Iss) (a : Actor),
  ((∃ op, i = .amo m op ∧ n = amoBytes m ∧ new = amoValue m op s a) ∨ (∃ sz, i = .cas m sz ∧ n = sz.bytes ∧ new = casValue m sz.bytes s a)) →
  readyFib i s = some k → k.acts = [a] → (s.fib? a).isSome = true → plainAt s k.uid pa n → s.poisoned pa n = false →
  tlbMaps s a (effAddr s a m false) .rw pa → (effAddr s a m false).toNat % n = 0 → (wide m.scope || commits s a m.ord.isRel m.scope) = false →
  (∀ e ∈ s.buf (s.bufOf a), pa + n ≤ e.pa ∨ e.pa + e.data.length ≤ pa) → (∀ f, s.fib? a = some f → f.binds = []) →
  missesFull s (s.coreOf a) = false →
  ∃ d, exec i s = .next (k.afterSwitch false d)
    ∧ (m.d ≠ 0 → (d.pendOf a).getLast? = some { (memPend k (k.markOf i) a m.d (ofNat64 (s.phys pa n)) none).2 with op := s.nextOp })
    ∧ ∀ p, p < panelEnd → d.byte p = if pa ≤ p ∧ p < pa + n then
        BitVec.ofNat 8 ((new (s.phys pa n)).getD (s.phys pa n) / 2 ^ (8 * (p - pa))) else s.byte p

/-- `ldl` and `stl` complete where every participant's address lies in its local store, or for `stl` in the part of the port window that only fills
the assembly buffer; a lone participant's `stl` changes its bytes of the block's local store alone, and its `ldl` returns them, extended
(R158 to R160, R228, R387). -/
def Obligations.LocalCompletes : Prop := ∀ (l : LForm) (sz : MSize) (s : State) (k : Iss),
  (ready (.ldl l sz) s = some k →
    let one := ldlOne k l sz (k.markOf (.ldl l sz))
    let x : MAcc := { st := s.noteAll k.pc k.acts (l.srcs false) }
    passes one (fun x a => localOk k l sz x.st a) k.acts x →
      exec (.ldl l sz) s = .next (k.ends false false (((k.acts.foldl one x).holdSlots k.uid (ldlSlots s k l sz)).close k (k.markOf (.ldl l sz)) false).st))
  ∧ (ready (.stl l sz) s = some k → k.woke = none → asmNeed s k l sz = 0 ∨ asmUsed s ((k.acts.map s.coreOf).headD 0) + asmNeed s k l sz ≤ 64 →
    let x : PAcc := { acc := { st := s.noteAll k.pc k.acts (l.srcs true) } }
    passes (stlOne k l sz) (fun x a => localOk k l sz x.acc.st a ∨ portOk k l sz x.acc.st a) k.acts x →
      exec (.stl l sz) s = .next (k.ends false false (k.acts.foldl (stlOne k l sz) x).acc.st))
  ∧ ∀ (a : Actor) (b : Block) (p : Nat), k.acts = [a] → s.block? k.uid = some b → localCheck b l sz.bytes (localAddr s b a l) = .ok p → p < portWindow →
    (ready (.stl l sz) s = some k → k.woke = none → ∃ d, exec (.stl l sz) s = .next (k.ends false false d) ∧ ∃ c, d.block? k.uid = some c
      ∧ (∀ q, lsByte c q = if p ≤ q ∧ q < p + sz.bytes then BitVec.ofNat 8 ((s.src a (plainSrc l.d false)).toNat / 2 ^ (8 * (q - p))) else lsByte b q)
      ∧ (∀ q, d.byte q = s.byte q) ∧ (∀ v y sl n, ¬lastUsed k.acts (l.srcs true) v y sl n → d.reg? v y sl n = s.reg? v y sl n)
      ∧ ∀ c, d.predsOf c = s.predsOf c)
    ∧ (readyFib (.ldl l sz) s = some k → (s.fib? a).isSome = true → ∃ d, exec (.ldl l sz) s = .next (k.after false d)
      ∧ (d.pendOf a).getLast? = some { (memPend k (k.markOf (.ldl l sz)) a l.d (extendLoad sz (ofBytes (lsBytes b p sz.bytes))) none).2 with op := s.nextOp }
      ∧ (∀ q, d.byte q = s.byte q) ∧ (∀ v y sl n, ¬lastUsed k.acts (l.srcs false) v y sl n → d.reg? v y sl n = s.reg? v y sl n)
      ∧ ∀ c, d.predsOf c = s.predsOf c)

/-! ### Bound registers (R255 to R276) -/

/-- `bind`, `unbind`, `bamo`, `bcas` and `bwait` complete: the participants act in slot order where each passes its checks, every one of these is a
switch point, and a `bwait`, whose participants first land, then all refresh and then test, goes on at once where the conditions all hold, else when
they have held (R257, R258, R265 to R270). -/
def Obligations.BoundCompletes : Prop := ∀ (s : State) (k : Iss),
  (∀ m sz, readyFib (.bind m sz) s = some k →
    let one := bindOne k m sz (k.markOf (.bind m sz))
    let x : MAcc := { st := s.noteAll k.pc k.acts (m.srcs false false) }
    passes one (bindOk k m sz) k.acts x → (∀ a ∈ k.acts, missesOver (k.acts.foldl one x).st (s.coreOf a) = false) →
      exec (.bind m sz) s = .next (k.afterSwitch false ((k.acts.foldl one x).close k (k.markOf (.bind m sz)) true).st))
  ∧ (∀ g d, readyFib (.unbind g d) s = some k → passes (unbindOne k d.toNat) (unbindOk d.toNat) k.acts { st := s } →
    exec (.unbind g d) s = .next (k.afterSwitch false (k.acts.foldl (unbindOne k d.toNat) { st := s }).st))
  ∧ (∀ f op, readyFib (.bamo f op) s = some k →
    let srcs := if immB f then [] else [f.b]
    let one (x : MAcc) (a : Actor) : MAcc := boundAtomic k f (k.markOf (.bamo f op)) srcs
      (fun old => some (bamoNew op f.ty old ((boundOperand f s a).toNat % 2 ^ (f.ty.shape false).2))) none x a
    let x : MAcc := { st := s.noteAll k.pc k.acts srcs }
    passes one (boundOk f) k.acts x → exec (.bamo f op) s = .next (k.afterSwitch false ((k.acts.foldl one x).close k (k.markOf (.bamo f op)) true).st))
  ∧ (∀ f, readyFib (.bcas f) s = some k →
    let w := (f.ty.shape false).2
    let one (x : MAcc) (a : Actor) : MAcc := boundAtomic k f (k.markOf (.bcas f)) [f.b, f.c]
      (fun old => if old = (s.src a f.b).toNat % 2 ^ w then some ((s.src a f.c).toNat % 2 ^ w) else none) (some (f.a.num.setWidth 4)) x a
    let x : MAcc := { st := s.noteAll k.pc k.acts [f.b, f.c] }
    passes one (boundOk f) k.acts x → exec (.bcas f) s = .next (k.afterSwitch false ((k.acts.foldl one x).close k (k.markOf (.bcas f)) true).st))
  ∧ (∀ f cond, readyFib (.bwait f cond) s = some k → k.woke = none →
    let srcs := if immB f then [] else [f.b]
    let x : MAcc := { st := s.noteAll k.pc k.acts srcs }
    let y := k.acts.foldl (bwaitLand k f) x
    let z := (k.acts.foldl (bwaitRefresh k) y).st
    let l := bwaitTest f cond (boundOperand f s) z k.acts
    let t := k.acts.foldl (fun t a => t.releaseAll a srcs) z
    passes (bwaitLand k f) (bwaitOk f) k.acts x → passes (bwaitRefresh k) (fun x a => refreshesWell x.st a) k.acts y →
      ((∀ a ∈ k.acts, a.slot ∈ l) → refreshAllWell k t → exec (.bwait f cond) s = .next (k.afterSwitch true (refreshed k t)))
      ∧ ((∃ a ∈ k.acts, a.slot ∉ l) → ∃ y, exec (.bwait f cond) s = .next (t.updWeave k.uid k.w fun _ => y)
          ∧ ∀ a ∈ k.batch, ∃ b ∈ y.batches, a.slot ∈ b.members ∧ b.pc = k.pc
              ∧ b.state = .wait (.bwait f.d.num.toNat cond f.ty (k.acts.map fun a => (a.slot, boundOperand f s a)) l)))
  ∧ ∀ f cond r c ty vs l, readyFib (.bwait f cond) s = some k → k.woke = some (.bwait r c ty vs l) → refreshAllWell k s →
    exec (.bwait f cond) s = .next (k.after true (refreshed k s))

/-! ### Clauses and the landing of results (R28 to R31, R149, R180) -/

/-- A clause header completes where its fields are legal, nothing holds its agent back, the marks it waits for are clear, no result that lands is
poisoned, and no result lands in a bound register while the core has no free miss entry (R248): the results on those marks land, in a register the value that was outstanding, and the batch or stream goes on with SETA and SETB of the
header (R29, R31). -/
def Obligations.ClauseBegins : Prop := ∀ (wait : BitVec 12) (seta setb : BitVec 4) (u : Nat) (s : State) (blk : Block), s.block? u = some blk →
  blk.stop = false → blk.farStop = [] →
  (∀ w x b, s.focus = .weave u w → s.weave? u w = some x → x.curBatch = some b → b.members ≠ [] → badHeader b.pc seta setb 0 = false →
    marksBusy s u (some w) wait = false →
    let k := fibIss s u w x b 8 ⟨0, false⟩
    (missesFull s x.core = true → ∀ a ∈ k.batch, landsBound s a (fun p => p.mark < 12 && wait.getLsbD p.mark) = false) →
    let lands (p : Pend) : Prop := p.done = true ∧ p.mark < 12 ∧ wait.getLsbD p.mark = true
    (∀ a ∈ k.batch, ∀ p ∈ s.pendOf a, lands p → p.poison = none) →
    ∃ d, exec (.clause wait seta setb 0) s = .next (d.updWeave u w fun x =>
        { x with batches := x.batches.modify (x.cur.getD 0) fun b => b.at b.members ⟨k.npc, seta, setb, none, false, false, false⟩ b.wd, lastIssue := d.clock })
      ∧ d = k.batch.foldl (fun t a => (landMarks t a wait).1) s
      ∧ ∀ sl f p n, sl ∈ b.members → s.fibre? u w sl = some f → p ∈ f.pend → lands p → p.dst = .w n → mget f.binds n = none →
          (∀ q ∈ f.pend, q.op = p.op ∨ q.dst = .w n → q = p) → d.reg? u w sl n = some (.live p.val))
  ∧ ∀ x, s.focus = .stream u → s.stream? u = some x → badHeader x.pc seta setb 0 = false → marksBusy s u none wait = false → (∀ p ∈ x.pend, p.done = true → p.mark < 12 → wait.getLsbD p.mark = true → p.poison = none) →
    exec (.clause wait seta setb 0) s = .next ((landMarks s (.seq u) wait).1.updStream u fun y =>
      { y with pc := x.pc + 8, seta, setb, entry := false, stopped := false })

/-- The completion of a long-latency operation lowers its mark by one and lets its results land at the next landing point; the sticky flags of each weave
gain those that the results carry, and the replies that the operation waits for have reached the core: no miss entry names it any more. No register and
no predicate changes, and of the panel nothing but the block and the caches; an operation of the stream likewise (R28, R31, R82, R249). -/
def Obligations.OperationCompletes : Prop := ∀ (u op m : Nat) (s : State) (b : Block) (side : Option Nat), s.block? u = some b →
  mget b.ops op = some (side, m) →
  ∃ t, exec (.operationCompletion u op) s = .next t
    ∧ t = { s with blocks := t.blocks, cores := t.cores, homeLines := t.homeLines, homeDirty := t.homeDirty, replicas := t.replicas, sharers := t.sharers }
    ∧ (∀ v, v ≠ u → t.block? v = s.block? v) ∧ (t.block? u).map (fun b => mget b.ops op) = some none
    ∧ (∀ v y sl n, t.reg? v y sl n = s.reg? v y sl n) ∧ (∀ v n, t.readS v n = s.readS v n) ∧ (∀ a, t.predsOf a = s.predsOf a)
    ∧ ((∀ c x, x ∈ (s.core c).misses → x.ops.contains op = true → ((s.core c).miss? x.line).map Miss.replied = some true) →
        ∀ c x, x ∈ (t.core c).misses → x.ops.contains op = false)
    ∧ (∀ w x, side = some w → mget b.weaves w = some x →
        (m < 12 → t.markCount u (some w) m = s.markCount u (some w) m - 1) ∧ (∀ n, n ≠ m → t.markCount u (some w) n = s.markCount u (some w) n)
        ∧ (∀ sl f, s.fibre? u w sl = some f →
            (t.fibre? u w sl).map Fibre.pend = some (f.pend.map fun p => if p.op = op then { p with done := true } else p))
        ∧ ∀ y, t.fpflags u y = (s.fpflags u y).map fun z =>
            (x.fibres.filter fun e => s.flagWeave u w e.1 = y).foldl (fun z e => z ||| carried e.2 op) z)
    ∧ (∀ x, side = none → b.stream = some x →
        (m < 12 → t.markCount u none m = s.markCount u none m - 1) ∧ (∀ n, n ≠ m → t.markCount u none n = s.markCount u none n)
        ∧ (t.stream? u).map Stream.pend = some (x.pend.map fun p => if p.op = op then { p with done := true } else p)
        ∧ ∀ y, t.fpflags u y = s.fpflags u y)

/-! ### Fences (R289 to R293) -/

/-- `fence` and `fence.far` complete where the participants' bindings refresh: a release commits the participants' buffers as its scope asks, an
acquire of any scope refreshes, a full fence refreshes and then commits; `fence.far` goes on at once without a valid target, else once each target block
stands, has served the requests before it and has committed, for which a batch that it holds tries at the end of every step, current or not (R259, R289,
R291, R293). -/
def Obligations.FencesComplete : Prop := ∀ (g : Guard) (scope : BitVec 4) (s : State) (k : Iss),
  let commit (t : State) : State := k.acts.foldl (fun t a => fenceCommit t a scope) t
  let full := commit (refreshed k s)
  (ready (.fence g .rel scope) s = some k → exec (.fence g .rel scope) s = .next (k.ends false false (commit s)))
  ∧ (ready (.fence g .acq scope) s = some k → refreshAllWell k s → exec (.fence g .acq scope) s = .next (k.ends false false (refreshed k s)))
  ∧ (ready (.fence g .full scope) s = some k → refreshAllWell k s → exec (.fence g .full scope) s = .next (k.ends false false full))
  ∧ (ready (.fenceFar g scope) s = some k → (∀ q l bad, k.woke ≠ some (.far q l bad)) → refreshAllWell k s →
      let far := farTries (k.uid, full.nextOp) full.stamp.1 (farTargets s k.acts)
      ((∀ a ∈ k.acts, (fartgtOf s a).getLsbD 32 = false) → exec (.fenceFar g scope) s = .next (k.ends false false full.stamp.1))
      ∧ (far.2 = [] → exec (.fenceFar g scope) s = .next (k.ends false false far.1)))
  ∧ (∀ q l, ready (.fenceFar g scope) s = some k → k.woke = some (.far q l []) → exec (.fenceFar g scope) s = .next (k.ends false false s))
  ∧ (∀ u w i x b q l bad, s.weave? u w = some x → x.batches[i]? = some b → b.state = .wait (.far q l bad) →
      ∃ y c, (pollBatch s u w i).weave? u w = some y ∧ y.batches[i]? = some c ∧ c.members = b.members ∧ c.pc = b.pc
        ∧ c.state = (if (farTries (u, q) s l).2 = [] then .woke (.far q [] bad) else .wait (.far q (farTries (u, q) s l).2 bad)))
  ∧ ∀ q idx b t y, s.block? k.uid = some b → b.deadline = none → idx ≠ b.idx → farTarget s b idx = some (some t) → s.block? t = some y → blockStopped s t = true →
      y.farStop = [] → let r := farTry (k.uid, q) s idx
        r.2 = true ∧ r.1.buf (.block t) = [] ∧ (r.1.block? t).map Block.farStop = some []

/-! ### Fibres and launches (R197, R198, R200) -/

/-- `fork` completes where its target is a clause header: each participant's child starts at it, and a lone participant's child is a fibre with w0 the
source, its slot in D, every other register clean, or D is all ones where no slot is idle. `fend` ends its participants: with another fibre of the
weave left they are gone and those of the batch that did not take it go on; a block whose last fibre ends, with no stream and no work of its
engines, ends with it, and its launch counts it (R171, R197, R198). -/
def Obligations.ForkFend : Prop :=
  (∀ (g : Guard) (src dst : BitVec 7) (off : BitVec 32) (s : State) (k : Iss),
     readyFib (.fork g src dst off) s = some k →
     (targetCheck s k.uid (s.coreOf (k.acts.headD (.seq 0))) (s.ctxOf k.uid) (k.pc + off.signExtend 64)).2 = none →
     (∀ a ∈ k.acts, missesFull s (s.coreOf a) = false) →
     ∃ d, exec (.fork g src dst off) s = .next (k.after false d)
       ∧ ∀ a b f, k.acts = [a] → s.block? k.uid = some b → s.fib? a = some f → f.kind = .block → mget f.binds dst.toNat = none →
         (childSlot b k.w = none → d.reg? k.uid k.w a.slot dst.toNat = some (.live (BitVec.allOnes 64)))
         ∧ ∀ cw sl, childSlot b k.w = some (cw, sl) → d.reg? k.uid k.w a.slot dst.toNat = some (.live (ofNat64 (32 * cw + sl)))
             ∧ d.fibre? k.uid cw sl = some (Fibre.start .block (32 * cw + sl) [(0, .live (s.src a (plainSrc src false)))])
             ∧ ∃ y, d.weave? k.uid cw = some y ∧ ∃ e ∈ y.batches, e = Batch.start [sl] (k.pc + off.signExtend 64))
  ∧ (∀ (g : Guard) (s : State) (k : Iss) (x : Weave), readyFib (.fend g) s = some k →
     s.weave? k.uid k.w = some x → x.kind = .block → (∀ a ∈ k.acts, ∀ f, s.fib? a = some f → f.pend = [] ∧ f.pool = none) →
     ((∃ sl f, mget x.fibres sl = some f ∧ .fib k.uid k.w sl ∉ k.acts) →
       ∃ t y, exec (.fend g) s = .next t ∧ t.weave? k.uid k.w = some y ∧ (∀ a ∈ k.acts, mget y.fibres a.slot = none)
         ∧ (∀ sl, .fib k.uid k.w sl ∉ k.acts → mget y.fibres sl = mget x.fibres sl)
         ∧ ∀ a ∈ k.batch, a ∉ k.acts → y.standsAt a.slot (k.fall false).pc)
     ∧ ∀ b l, s.block? k.uid = some b → b.weaves = [(k.w, x)] → (∀ e ∈ x.fibres, .fib k.uid k.w e.1 ∈ k.acts) → x.sbuf = [] → b.sbuf = [] → b.stream = none →
         b.cpReady = [] → b.mmReady = [] → b.running = [] → b.grun = none → s.inbox = [] → s.launch? b.ctx b.lid = some l →
         ∃ t, exec (.fend g) s = .next t ∧ t.block? k.uid = none ∧ (t.launch? b.ctx b.lid).map Launch.ended = some (l.ended + 1))

/-- `launch` completes where every record address is a multiple of 64: a lone participant's launch joins its queue and pS is 1, or, with 64 launches
in the queue that have not completed, nothing is submitted and pS is 0 (R200). -/
def Obligations.LaunchCompletes : Prop := ∀ (f : AForm) (s : State) (k : Iss), ready (.launch f) s = some k →
  (∀ a ∈ k.acts, (s.src a f.a).toNat % 64 = 0) → (∀ a ∈ k.acts, s.buf (s.bufOf a) = []) → k.acts.Nodup →
  ∃ d, exec (.launch f) s = .next (k.ends false false d)
    ∧ ∀ a x, k.acts = [a] → s.ctx? (s.ctxOf k.uid) = some x → f.d.num.toNat ≠ 0 → f.d.num.toNat < 16 → (∀ u w sl, a = .fib u w sl → (s.fib? a).isSome = true) →
      let open_ := (x.launches.filter fun l => l.queue = (s.src a f.b).toNat % 16 && l.state != .done).length
      (open_ < 64 → d.pred a f.d.num.toNat = true ∧ (d.ctx? (s.ctxOf k.uid)).map Ctx.launches
        = some (x.launches ++ [Launch.queued x.nextLid ((s.src a f.b).toNat % 16) (s.src a f.a)]))
      ∧ (64 ≤ open_ → d.pred a f.d.num.toNat = false ∧ d.ctx? (s.ctxOf k.uid) = some x)

/-! ### Block barriers (R201 to R203) -/

/-- An arrival answers P as it stood before and counts; the arrival that meets the expected count of the phase adds 1 to P and begins the next phase with
no arrival and no expected count; the first count that an arrival names is the phase's. `bar.arrive`, `bar.wait` and `bar.sync` complete: the
participants arrive in slot order and take their tokens; a wait whose tokens are all satisfied, in a region that holds no completion, refreshes
the participants' bindings and goes on, and so does one that has been woken; else the batch waits with its tokens (R201 to R203, R428). -/
def Obligations.BarriersComplete : Prop :=
  (∀ (x : Barrier) (n : Nat), let e := x.e.getD n
     (x.arrive (some n)).2 = x.p
     ∧ (e = x.arr + 1 → (x.arrive (some n)).1 = { p := x.p + 1, arr := 0, e := none })
     ∧ (e ≠ x.arr + 1 → (x.arrive (some n)).1 = { p := x.p, arr := x.arr + 1, e := some e }))
  ∧ (∀ (f : AForm) (n : BitVec 4) (s : State) (k : Iss),
     (∀ rd, ready (.barArrive f rd n) s = some k →
       let x := arriveAll k (s.consume k.pc k.acts [f.b]) n.toNat fun a => barCount (s.src a f.b)
       let d := if rd then x.2.foldl (fun t e => t.writeD e.1 f.d (ofNat64 e.2)) x.1 else x.1
       exec (.barArrive f rd n) s = .next (k.ends false false d))
     ∧ (readyFib (.barWait f n) s = some k → holdRegion s k.uid = none →
       let toks := k.acts.map fun a => (a.slot, (s.src a f.a).toNat % 2 ^ 32)
       let p := ((s.block? k.uid).map fun b => (b.bar n.toNat).p).getD 0
       ∃ t, released k [f.a] s t
         ∧ (k.woke = none → (∀ e ∈ toks, tokenDone p e.2 = true) → refreshAllWell k t → exec (.barWait f n) s = .next (k.after true (refreshed k t)))
         ∧ (k.woke = none → (∃ e ∈ toks, tokenDone p e.2 = false) → ∃ y, exec (.barWait f n) s = .next (t.updWeave k.uid k.w fun _ => y)
             ∧ ∀ a ∈ k.batch, ∃ b ∈ y.batches, a.slot ∈ b.members ∧ b.pc = k.pc ∧ b.state = .wait (.bar n.toNat toks)))
     ∧ (readyFib (.barSync f n) s = some k → holdRegion s k.uid = none → k.woke = none →
       let x := arriveAll k (s.consume k.pc k.acts [f.b]) n.toNat fun a => barCount (s.src a f.b)
       let p := ((x.1.block? k.uid).map fun b => (b.bar n.toNat).p).getD 0
       (∀ e ∈ x.2, tokenDone p e.2 = true) → refreshAllWell k x.1 → exec (.barSync f n) s = .next (k.after true (refreshed k x.1)))
     ∧ ∀ i, (i = .barWait f n ∨ i = .barSync f n) → readyFib i s = some k → k.woke.isSome = true → holdRegion s k.uid = none → refreshAllWell k s →
         exec i s = .next (k.after true (refreshed k s)))

/-! ### Queues (R205 to R207, R307) -/

/-- `qpush` and `spush` complete with room for their elements, and `.nb` also without: the elements join the queue of the other side in slot order, where
nothing waits behind those it holds. `qpop` and `spop` complete with their elements in the queue, and `.nb` also without: the oldest elements leave
it, and each participant's waits to land in its destination; the participants' bindings refresh as the elements leave. The outcome predicate of `.nb`
says whether the elements moved; one that has waited completes once it has been performed (R205 to R207, R307). -/
def Obligations.QueuesComplete : Prop :=
  (∀ (f : AForm) (nb fib : Bool) (i : Instr) (s : State) (k : Iss) (b : Block),
     i = (if fib then .qpush f nb else .spush f nb) → ready i s = some k → s.block? k.uid = some b →
     let vals := pushValues k f s
     let put := s.updBlock k.uid fun b => if fib then { b with fq := b.fq ++ vals } else { b with sq := b.sq ++ vals }
     let t := put.consume k.pc k.acts [f.a]
     ((∀ ok n v p, k.woke ≠ some (.qpush ok n v p)) → b.hdr.seqEntry ≠ 0 → vals.length + (b.outQueue fib).length ≤ 64 →
       ∃ d, exec i s = .next (k.ends false false d) ∧ d = serveQueues (if nb then outcomes k t f.d.num.toNat true else t) k.uid
         ∧ (noWaits b → (d.block? k.uid).map (fun y => y.outQueue fib) = some (b.outQueue fib ++ vals)
             ∧ (d.block? k.uid).map (fun y => y.inQueue fib) = some (b.inQueue fib)))
     ∧ ((∀ ok n v p, k.woke ≠ some (.qpush ok n v p)) → nb = true → (b.hdr.seqEntry = 0 ∨ 64 < vals.length + (b.outQueue fib).length) →
         exec i s = .next (k.ends false false (outcomes k (s.consume k.pc k.acts [f.a]) f.d.num.toNat false)))
     ∧ ∀ n v p, k.woke = some (.qpush true n v p) → exec i s = .next (k.ends false false (s.consume k.pc k.acts [f.a])))
  ∧ (∀ (f : AForm) (nb fib : Bool) (i : Instr) (s : State) (k : Iss) (b : Block),
     i = (if fib then .qpop f nb else .spop f nb) → ready i s = some k → s.block? k.uid = some b →
     let n := popCount k f
     let taken := s.updBlock k.uid fun b => if fib then { b with sq := b.sq.drop n } else { b with fq := b.fq.drop n }
     let t := popOpened i k (if nb then outcomes k taken f.c.num.toNat true else taken) f.d ((b.inQueue fib).take n)
     ((∀ ok m v p c own bad, k.woke ≠ some (.qpop ok m v p c own bad)) → b.hdr.seqEntry ≠ 0 → n ≤ (b.inQueue fib).length → refreshAllWell k t →
       ∃ d, exec i s = .next (k.ends false false d) ∧ d = serveQueues (refreshed k t) k.uid
         ∧ (noWaits b → (d.block? k.uid).map (fun y => y.inQueue fib) = some ((b.inQueue fib).drop n)
             ∧ (d.block? k.uid).map (fun y => y.outQueue fib) = some (b.outQueue fib))
         ∧ ∀ a v r, k.acts = [a] → (∀ u w sl, a = .fib u w sl → (s.fib? a).isSome = true) → b.inQueue fib = v :: r →
             (d.pendOf a).getLast? = some (mkPend k s.nextOp (k.markOf i) (landDst a f.d) v 0 none))
     ∧ ((∀ ok m v p c own bad, k.woke ≠ some (.qpop ok m v p c own bad)) → nb = true → (b.hdr.seqEntry = 0 ∨ (b.inQueue fib).length < n) →
         exec i s = .next (k.ends false false (outcomes k s f.c.num.toNat false)))
     ∧ ∀ m v p c own bad, k.woke = some (.qpop true m v p c own bad) → (∀ a ∈ k.acts, ∀ e ∈ bad, e.1 ≠ a.slot) →
         exec i s = .next (k.ends false false (popOpened i k s f.d v)))

/-! ### Recruitment (R208 to R224) -/

/-- `recruit` completes for a lone participant with nothing outstanding that is granted no helper: its pool is open with all N iterations to commit, and
D is N; once helpers that were granted have been released, the batch goes on as it stands. `hwork` completes where every participant can claim,
finds nothing left, or closes its pool: a lone participant without an iteration of its own takes U, which rises, with pS 1; with every iteration
committed its own pool closes with pS 0. `hret` stages a contribution of every participant with an iteration and fewer than 4 of them. `hend` is a
`nop` outside helpers, and ends a helper (R209 to R211, R216 to R218, R220, R224). -/
def Obligations.RecruitmentCompletes : Prop :=
  (∀ (r : RecruitForm) (s : State) (k : Iss), readyFib (.recruit r) s = some k →
     (k.woke = some (.recruit []) → exec (.recruit r) s = .next (k.after false s))
     ∧ ∀ a b f, k.woke = none → k.acts = [a] → s.block? k.uid = some b → s.fib? a = some f → f.kind = .block → f.pend = [] → b.hlp = false →
         b.sbuf = [] → poolsOn s (s.coreOf a) < 32 → mget f.binds r.d.toNat = none →
         (targetCheck s k.uid (s.coreOf a) (s.ctxOf k.uid) (k.pc + r.body.signExtend 64)).2 = none → missesFull s (s.coreOf a) = false →
         ∃ d, exec (.recruit r) s = .next (k.after false d)
           ∧ d.reg? k.uid k.w a.slot r.d.toNat = some (.live (ofNat64 ((s.src a (plainSrc r.a false)).toNat % 2 ^ 32)))
           ∧ ((d.fib? a).bind Fibre.pool).map (fun p => (p.n, p.u, p.p, p.held, p.committed, p.helpers, p.waiting))
               = some ((s.src a (plainSrc r.a false)).toNat % 2 ^ 32, 0, 0, [], [], 0, false)
           ∧ (d.fib? a).map (fun f => (f.grant, f.forced, f.faults, f.cur)) = some (0, 0, 0, none))
  ∧ (∀ (f : AForm) (s : State) (k : Iss),
     (readyFib (.hwork f) s = some k →
       let x := match k.woke with
         | some (.hwork _ _ t) =>
           let l : List Actor := k.acts.filter fun a => t.contains a.slot
           workAll k f { st := s } (decide ((l.map Actor.slot).head? = t.head?)) l
         | _ => workAll k f { st := s } false k.acts
       let claimed := k.acts.any fun a => ((x.st.fib? a).bind Fibre.cur).isSome
       (x.traps = [] → x.gone = [] → x.left = [] → exec (.hwork f) s = .next (k.after claimed x.st))
       ∧ ∀ a g p, k.woke = none → k.acts = [a] → s.fib? a = some g → g.kind = .block → g.cur = none → g.pool = some p → mget g.binds f.d.num.toNat = none →
           p.held = [] → f.c.num.toNat ≠ 0 → f.c.num.toNat < 16 → f.d.uni = false →
           (p.u < p.n → p.u < p.p + 32 → ∃ d, exec (.hwork f) s = .next (k.after true d)
             ∧ d.reg? k.uid k.w a.slot f.d.num.toNat = some (.live (ofNat64 p.u)) ∧ d.pred a f.c.num.toNat = true
             ∧ (d.fib? a).map (fun g => (g.cur, g.pool)) = some (some (p.u, []), some { p with u := p.u + 1 }))
           ∧ (p.u = p.n → p.p = p.n → ∃ d, exec (.hwork f) s = .next (k.after false d) ∧ d.pred a f.c.num.toNat = false
             ∧ (d.fib? a).map Fibre.pool = some none))
     ∧ (∀ op, readyFib (.hret f op) s = some k → k.acts.Nodup → (∀ a ∈ k.acts, ∃ i cs, (s.fib? a).bind Fibre.cur = some (i, cs) ∧ cs.length < 4) →
         ∃ d, exec (.hret f op) s = .next (k.after false d)
           ∧ ∀ a ∈ k.acts, ∀ i cs, (s.fib? a).bind Fibre.cur = some (i, cs) →
               (d.fib? a).bind Fibre.cur = some (i, cs ++ [⟨op, f.ty, f.d.num.setWidth 5, s.src a f.a⟩]))
     ∧ ∀ g, readyFib (.hend g) s = some k →
         ((∀ a ∈ k.acts, s.isHelper a = false) → exec (.hend g) s = .next (k.after false s))
         ∧ ∀ a h rw rs n r p, k.acts = [a] → s.fib? a = some h → h.kind = .helper rw rs n → h.pend = [] → h.pool = none →
             s.fibre? k.uid rw rs = some r → r.pool = some p → ¬(rw = k.w ∧ rs = a.slot) →
             ∃ t, exec (.hend g) s = .next t ∧ t.fib? a = none ∧ ((t.fibre? k.uid rw rs).bind Fibre.pool).map Pool.helpers = some (p.helpers - 1))

/-! ### System registers and system instructions (R355 to R361) -/

/-- `sysr` and `sysw` complete for every register in their operand forms: a read's destination takes the register's value, of an indexed one that of its
index; the participants write in slot order, and the dead reads of a write are recorded after it; sr.repl and sr.replc are those of the zone an address
translates to (also in a mapped window: log 87); a register without writable bits traps 0x01. `icinv` makes every participant's buffered stores visible to the panel and then empties the instruction caches of the line of its
address, or of everything; `mcdef` reads its operations as loads do and defines the macro (R244, R245, R353, R357, R358, R360, R361). -/
def Obligations.SystemCompletes : Prop :=
  (∀ (f : AForm) (ax : Bool) (r : SysReg) (s : State) (k : Iss), ready (.sysr f ax) s = some k →
     sysNamed k f = some r → r.readForm ax (isImm f) = true →
     let s1 := s.noteAll k.pc k.acts (sysSrcs f ax false)
     let put (t : State) (a : Actor) (v : Word) : State := (t.releaseAll a (sysSrcs f ax false)).writeD a f.d v
     (r.zoned = false → (∀ n, r.indices = some n → ∀ a ∈ k.acts, sysIndex f s a < n) →
       exec (.sysr f ax) s = .next (k.ends false false (k.acts.foldl (fun t a =>
         put t a (sysValue s a r (if r.indices.isSome then sysIndex f s a else 0))) s1)))
     ∧ (r.zoned = true →
       let at' (t : State) (a : Actor) : State × Tr := Machine.translate t k.uid (t.coreOf a) (t.ctxOf k.uid) (s.src a f.a) .load
       let one (t : State) (a : Actor) : State := match at' t a with
         | (t, .ok pa) => put (zonePackets t k a) a (if r = .repl then (t.zone (zoneOf pa)).repl else (t.zone (zoneOf pa)).replc)
         | (t, .trap _) => t
       passes one (fun t a => ∃ pa, (at' t a).2 = .ok pa) k.acts s1 → exec (.sysr f ax) s = .next (k.ends false false (k.acts.foldl one s1))))
  ∧ (∀ (f : AForm) (ax : Bool) (r : SysReg) (s : State) (k : Iss), ready (.sysw f ax) s = some k →
     sysNamed k f = some r →
     let note (t : State) : State := noteFrom s t k.pc k.acts (sysSrcs f ax true)
     let last (t : State) (a : Actor) : State := t.releaseAll a (sysSrcs f ax true)
     (r.writable = true → r.writeForm ax = true → r.zoned = false →
       let one (t : State) (a : Actor) : State := match sysPut t a r (sysData f s a) with | some t => last t a | none => t
       passes one (fun t a => (sysPut t a r (sysData f s a)).isSome = true) k.acts s → exec (.sysw f ax) s = .next (k.ends false false (note (k.acts.foldl one s))))
     ∧ (r.writable = true → r.writeForm ax = true → r.zoned = true →
       let at' (t : State) (a : Actor) : State × Tr := zoneForWrite t k.uid (t.coreOf a) (t.ctxOf k.uid) (s.src a f.a)
       let one (t : State) (a : Actor) : State := match at' t a with
         | (t, .ok pa) =>
           let z := zonePackets t k a
           last (if r = .replc then writeReplc z (zoneOf pa) (sysData f s a) else writeRepl z (zoneOf pa) (sysData f s a)) a
         | (t, .trap _) => t
       passes one (fun t a => (∃ pa, (at' t a).2 = .ok pa) ∧ (r = .repl → replOk (sysData f s a) = true)) k.acts s →
         exec (.sysw f ax) s = .next (k.ends false false (note (k.acts.foldl one s))))
     ∧ (r.writable = false → ∀ blk c, k.weave.isSome = true → routineReady k blk c s →
         ∃ t, exec (.sysw f ax) s = .next t ∧ trapTaken k blk c s t 0x01 k.pc fun _ => 0))
  ∧ (∀ (f : AForm) (s : State) (k : Iss),
     (ready (.icinv f true) s = some k →
       exec (.icinv f true) s = .next (k.ends false false (dropCode (k.acts.foldl (fun t a => fenceCommit t a 8) s) none)))
     ∧ (∀ a pa t, ready (.icinv f false) s = some k → k.acts = [a] → Machine.translate (s.noteAll k.pc [a] [f.a]) k.uid (s.coreOf a) (s.ctxOf k.uid) (s.src a f.a) .line = (t, .ok pa) →
         ∃ d, exec (.icinv f false) s = .next (k.ends false false d) ∧ d = dropCode (fenceCommit (t.releaseAll a [f.a]) a 8) (some (pa / 64))
           ∧ ∀ c, mget (d.core c).icache (pa / 64) = none)
     ∧ (ready (.mcdef f) s = some k →
         let x := k.acts.foldl (mcdefOne k f s) { st := s.noteAll k.pc k.acts [f.a, f.b] }
         x.traps = [] → (∀ a ∈ k.acts, readsWait s x.st (s.coreOf a) = false) → exec (.mcdef f) s = .next (k.ends false false x.st)))

/-- What a write leaves to be read: sr.fartgt, sr.xpc inside a trap and sr.bkp in its writable bits hold the data, sr.dbg bit 0; the sticky bits of
sr.fpflags, DR of sr.deadrd, FULL and LOST of sr.bstat, ERR and EXTRA of sr.gstat fall where a 1 is written, and a count falls to 0 where any of its
bits is (R5, R26, R38, R276, R293, R328, R342, R353, R355, R356, R365, R393). -/
def Obligations.SysWriteRule : Prop := ∀ (s : State) (u w sl : Nat) (v : Word) (b : Block) (x : Weave) (f : Fibre),
  s.block? u = some b → s.weave? u w = some x → s.fibre? u w sl = some f →
  let a : Actor := .fib u w sl
  let put (r : SysReg) (p : State → Prop) : Prop := ∃ t, sysPut s a r v = some t ∧ p t
  let get (t : State) (r : SysReg) : Word := sysValue t a r 0
  (f.kind = .block → put .fartgt fun t => get t .fartgt = (v.setWidth 33).setWidth 64)
  ∧ (f.tr.inTrap = true → put .xpc fun t => get t .xpc = v ∧ get t .xfpc = get s .xfpc ∧ get t .xaddr = get s .xaddr ∧ get t .xaux = get s .xaux)
  ∧ (f.tr.inTrap = false → sysPut s a .xpc v = none)
  ∧ (∀ n, put (.bkp n) fun t => get t (.bkp n) = v &&& 0x01FCFFFFFFFFFFFC ∧ ∀ m, m ≠ n → get t (.bkp m) = get s (.bkp m))
  ∧ put .dbg (fun t => get t .dbg = v &&& 1)
  ∧ put .fpflags (fun t => get t .fpflags = get s .fpflags &&& ~~~v)
  ∧ put .deadrd (fun t => (get t .deadrd).getLsbD 0 = (x.deadDR && !v.getLsbD 0) ∧ get t .deadpc = get s .deadpc)
  ∧ put .bstat (fun t => (t.fibre? u w sl).map (fun f => (f.bfull, f.blost, f.binds)) = some (f.bfull && !v.getLsbD 37, f.blost && !v.getLsbD 36, f.binds))
  ∧ put .gstat (fun t => (t.block? u).map (fun b => (b.gErr, b.gExtra)) = some (b.gErr && !v.getLsbD 39, b.gExtra && !v.getLsbD 0))
  ∧ put .mstat (fun t => (t.block? u).map (fun b => (b.mRetry, b.mInf, b.mNan))
      = some (if fld v 24 8 = 0 then b.mRetry else 0, b.mInf && !v.getLsbD 1, b.mNan && !v.getLsbD 0))
  ∧ put .sbstat (fun t => (t.block? u).map (fun b => (b.cretry, b.relaunches, b.stseq)) = some (if fld v 32 8 = 0 then b.cretry else 0, b.relaunches, b.stseq))
  ∧ put .msgstat (fun t => (t.block? u).map (fun b => (b.notgt, b.refused, b.handled))
      = some (if fld v 32 16 = 0 then b.notgt else 0, if fld v 16 16 = 0 then b.refused else 0, if fld v 0 16 = 0 then b.handled else 0))

/-! ### Trees and migration (R394 to R399) -/

/-- `tarr` and `twait` complete in a block of a context that holds the tree: `tarr` commits the block's stores, the block has arrived, and D receives the
rounds seen; a `twait` whose tokens are satisfied, in a region that holds no completion, or that has been woken, refreshes the bindings and goes
on. `migrate` completes: in a block that may not move every participant's pS is 0; at home it is 1 and the bindings refresh; and a block that has
moved goes on with pS 1, or with pS 0 where no core of the die took it any longer (log 72; R394 to R396, R398, R399, R428). -/
def Obligations.TreeMigrateComplete : Prop :=
  (∀ (f : AForm) (tree : Bool) (s : State) (k : Iss) (b : Block), s.block? k.uid = some b → inTree s b tree = true →
     (∀ rd, readyFib (.tarr f rd tree) s = some k →
       let t := commitBuf s (.block k.uid)
       let d := markArrived t k.uid tree
       exec (.tarr f rd tree) s = .next (k.after false
           (if rd then k.acts.foldl (fun r a => r.writeD a f.d (ofNat64 (roundsHere d k.uid tree))) d else d))
         ∧ (d.block? k.uid).map (fun b => b.arrived tree) = some true)
     ∧ (readyFib (.twait f tree) s = some k → holdRegion s k.uid = none → k.woke = none →
         let t := s.consume k.pc k.acts [f.a]
         (∀ a ∈ k.acts, tokenDone (BitVec.ofNat 32 (roundsAt s b.ctx (coreDie b.core) tree)) ((s.src a f.a).toNat % 2 ^ 32) = true) → refreshAllWell k t →
         exec (.twait f tree) s = .next (k.after true (refreshed k t)))
     ∧ (readyFib (.twait f tree) s = some k → holdRegion s k.uid = none → k.woke.isSome = true → refreshAllWell k s →
         exec (.twait f tree) s = .next (k.after true (refreshed k s))))
  ∧ (∀ (f : AForm) (s : State) (k : Iss) (b : Block), readyFib (.migrate f) s = some k →
     let m := moveAddrs k (s.noteAll k.pc k.acts [f.a]) f
     let last (t : State) : State := k.acts.foldl (fun t a => t.releaseAll a [f.a]) t
     (∀ c, k.woke = some (.migrate c) → s.block? k.uid = some b →
       exec (.migrate f) s = .next (k.after false (if b.core = c then k.acts.foldl (fun t a => (refresh t a true).1) (outcomes k s f.d.num.toNat true)
         else outcomes k s f.d.num.toNat false)))
     ∧ ((∀ c, k.woke ≠ some (.migrate c)) → m.2.1 = [] → m.1.block? k.uid = some b →
         (mayMove k m.1 b = false → exec (.migrate f) s = .next (k.after false (last (outcomes k m.1 f.d.num.toNat false))))
         ∧ ∀ va pa r, m.2.2 = (va, pa) :: r → mayMove k m.1 b = true → (∀ e ∈ r, e.1 = va) →
             homeFor m.1 pa (b.hdr.fibres * b.hdr.regs) = some (coreDie b.core) → refreshAllWell k (outcomes k m.1 f.d.num.toNat true) →
             exec (.migrate f) s = .next (k.after false (last (refreshed k (outcomes k m.1 f.d.num.toNat true))))))

/-! ### Buffers, commands and the graph (R309 to R328) -/

/-- A command completes where its buffers are declared and it is within its limits: with fewer than 8 direct commands of its engine queued it is ready
to start, and behind `g.node` it defines the node instead; nothing but its block's engines, graph and capture changes. `lbmap` swaps two names of
one size that no running command uses, or moves a name onto plain slots; outside a run `g.node` captures the next command, `g.edge` appends a
successor while the node has fewer than 16, `g.run` of a graph without undefined edges and failed nodes launches every node whose initial count is
0, and `g.reset` clears a graph without a running node (R309, R310, R315, R325 to R327). -/
def Obligations.SequencerCompletes : Prop :=
  (∀ (i : Instr) (r : CmdOp) (s : State) (k : Iss) (b : Block) (x : Stream),
     i.cmdOp (s.service.mode = 1) = some r → readySeq i s = some k → s.block? k.uid = some b → s.stream? k.uid = some x → r.ok i k s b →
     (x.capture = none → b.queued i.engine < 8 → exec i s = .next (k.afterSeq (s.updBlock k.uid fun b => b.ready (r.cmd i k s))))
     ∧ ∀ n cnt bar, x.capture = some (n, cnt, bar) → r.bar = none →
         exec i s = .next (k.afterSeq ((s.updBlock k.uid fun b => { b with graph := mput b.graph n ⟨r.cmd i k s, cnt, 0, bar, .defined⟩ }).updStream k.uid
           fun x => { x with capture := none })))
  ∧ (∀ (s : State) (k : Iss) (b : Block), s.block? k.uid = some b →
     let idle (n : Nat) : Prop := b.slotsOf n ≠ 0 ∧ writing s k.uid n = false ∧ b.reading n = false
     (∀ g d a, readySeq (.lbmapSwap g d a) s = some k → idle d.toNat → idle a.toNat → b.slotsOf d.toNat = b.slotsOf a.toNat →
       exec (.lbmapSwap g d a) s = .next (k.afterSeq (s.setBlock k.uid
         { b with starts := mput (mput b.starts d.toNat (b.startOf a.toNat)) a.toNat (b.startOf d.toNat) })))
     ∧ (∀ g d r, readySeq (.lbmapSet g d r) s = some k → idle d.toNat →
         (∀ n, n < b.slotsOf d.toNat → b.plain ((s.readS k.uid r.toNat).toNat + n) = true) →
         exec (.lbmapSet g d r) s = .next (k.afterSeq (s.setBlock k.uid { b with starts := mput b.starts d.toNat (s.readS k.uid r.toNat).toNat })))
     ∧ (∀ g n cnt bar, readySeq (.gNode g n cnt bar) s = some k → b.grun = none →
         exec (.gNode g n cnt bar) s = .next (k.afterSeq (s.updStream k.uid fun x => { x with capture := some (n.toNat, cnt.toNat, bar) })))
     ∧ (∀ g x y, readySeq (.gEdge g x y) s = some k → b.grun = none → ((mget b.edges x.toNat).getD []).length < 16 →
         exec (.gEdge g x y) s = .next (k.afterSeq (s.updBlock k.uid fun b =>
           { b with edges := mput b.edges x.toNat ((mget b.edges x.toNat).getD [] ++ [y.toNat]) })))
     ∧ (∀ g bar, readySeq (.gRun g bar) s = some k → b.grun = none → b.badEdge = false → (∀ n ∈ b.graph, n.2.st ≠ .error) →
         let b1 := { b with grun := some bar, gDone := 0, graph := mmap b.graph fun _ x => { x with cnt := x.init, st := .waiting } }
         exec (.gRun g bar) s = .next (k.afterSeq (endRun (s.setBlock k.uid
           (((b1.graph.filter fun n => n.2.cnt = 0).map Prod.fst).foldl Block.launchNode b1)) k.uid)))
     ∧ ∀ g, readySeq (.gReset g) s = some k → (∀ n ∈ b.graph, n.2.st ≠ .running) →
         exec (.gReset g) s = .next (k.afterSeq (s.updBlock k.uid fun b => { b with graph := [], edges := [], grun := none })))

/-! ### The engines' events (R309 to R313, R306) -/

/-- A command starts while its engine has a place and no started command writes its buffer: it leaves the ready ones, and its shadow run, for `cp.peer`
in the target's local store, takes a copy of the buffer with KEEP and zeros without. A running command completes: `cp.in`, local `cp.fill` and
`mm.rd` have written their bytes, a read within a line returning what the block's buffer and memory hold, and the name has moved to the run;
`cp.peer` has copied its source bytes into the target's run; `cp.out` and global `cp.fill` within a line have written theirs to memory, behind every
older store of the buffer; `mm`, `mm.clr` and `mm.ld` have left their tile and no other. Or it fails, which is recorded in sr.gstat and for the stream;
and a stream that ends once nothing is outstanding has ended (R230, R306, R311 to R314, R316, R318 to R320, R334, R338, R339). That a copy reads its
source and its buffer and writes what it writes in the one step of its completion, and takes its run at its start, is the model's reading (log 29). -/
def Obligations.EngineEvents : Prop := ∀ (u : Nat) (s : State) (b : Block), s.block? u = some b →
  (∀ e c b', b.takeReady e = some (c, b') → b.runningOn e < engineRoom e →
    (∀ n keep lo, c.ins.writes = some (n, keep) → ¬Instr.peers c.ins → writing s u n = false → b.slotsOf n ≠ 0 →
      shadowRun (s.setBlock u b') u b (b.slotsOf n) = some lo →
      ∃ t, exec (.commandStart u e) s = .next t ∧ (t.block? u).map (fun y => (y.running, y.cpReady, y.mmReady, y.lstore)) =
        some (b'.running ++ [{ runningOf b' c u with run := some (n, lo) }], b'.cpReady, b'.mmReady,
          openRun b'.lstore (1024 * b'.startOf n) (1024 * lo) (1024 * b'.slotsOf n) keep))
    ∧ (∀ n keep lo v z, c.ins.writes = some (n, keep) → Instr.peers c.ins → coreDown s (peerCore c) = false →
        peerTarget s b.ctx (peerCore c) = some (v, z) → s.block? v = some z →
        writing s v n = false → z.slotsOf n ≠ 0 → peerEnd c ≤ z.bufSize n → shadowRun (s.setBlock u b') v z (z.slotsOf n) = some lo →
        ∃ t, exec (.commandStart u e) s = .next t
          ∧ (t.block? u).map Block.running = some (b'.running ++ [{ runningOf b' c v with run := some (n, lo) }])
          ∧ (t.block? v).map Block.lstore = some (openRun z.lstore (1024 * z.startOf n) (1024 * lo) (1024 * z.slotsOf n) keep))
    ∧ ∀ c' t, c.ins.writes = none → resolvePair (s.setBlock u b') u c = (t, .ok c') →
        exec (.commandStart u e) s = .next (beginRun t u { runningOf b' c u with cmd := c' } none))
  ∧ (∀ id r, cmdCompletes u id r s →
      (∀ s2, finishCmd s u r = (s2, .ok ()) → exec (.commandCompletion u id) s = .next (retireCmd s2 u r))
      ∧ (∀ s1 b1 n lo off data, r.run = some (n, lo) → r.target = u → s1.block? u = some b1 → b1.populated → runWrite s u b r = some (s1, off, data) →
          ∃ t y, exec (.commandCompletion u id) s = .next t ∧ t.block? u = some y ∧ wroteLocal b1 y (1024 * lo + off) data ∧ y.startOf n = lo)
      ∧ (∀ k pa, r.cmd.rb ≠ 0 → r.cmd.ra.toNat % 256 + r.cmd.rb.toNat ≤ 256 → tlbMaps s (.seq u) r.cmd.ra .load pa → s.poisoned pa r.cmd.rb.toNat = false →
          (∀ v x, s.block? v = some x → x.deadline = none) →
          (cpInData s u .bytes k r.cmd).2 = .ok (seenBytes s (.block u) pa r.cmd.rb.toNat))
      ∧ (b.populated → (∀ v x, s.block? v = some x → x.deadline = none) →
          (∀ e sb tb soff toff sc keep n lo z, r.cmd.ins = .cpPeer e sb tb soff toff sc keep → r.run = some (n, lo) → s.block? r.target = some z →
            r.cmd.rc = 0 → s.buf (.block u) = [] → ∃ t y, exec (.commandCompletion u id) s = .next t ∧ t.block? r.target = some y ∧ y.startOf n = lo
              ∧ wroteLocal z y (1024 * lo + 16 * toff.toNat) (lsBytes b (1024 * nth r.srcs 0 + 16 * soff.toNat) r.cmd.rb.toNat))
          ∧ (∀ data pa, memWrite b r = some data → r.cmd.ra.toNat % 256 + data.length ≤ 256 → tlbMaps s (.seq u) r.cmd.ra .store pa →
              pa + data.length ≤ panelEnd → tagOk s b.ctx pa = true → (∀ p, s.frameAt p = none) →
              (∀ e ∈ s.buf (.block u), e.pa + e.data.length ≤ panelEnd ∧ tagOk s b.ctx e.pa = true) →
              ∃ t, exec (.commandCompletion u id) s = .next t ∧ ∀ p, p < panelEnd →
                t.byte p = if pa ≤ p ∧ p < pa + data.length then data[p - pa]?.getD 0 else seenByte s (.block u) p)
          ∧ ∀ tile entry, tileWrite s b r = some (tile, entry) →
              ∃ t y, exec (.commandCompletion u id) s = .next t ∧ t.block? u = some y ∧ tileHolds b y tile entry ∧ y.lstore = b.lstore))
  ∧ (∀ id r inner x, s.running? u id = some r → s.stream? u = some x → x.state ≠ .ended → inner ≠ 0x16 →
      ∃ t, exec (.commandError u id inner) s = .next t
        ∧ (t.block? u).map (fun y => (y.gErr, y.gInner, y.gDir)) = some (true, inner, r.cmd.node.isNone)
        ∧ (t.stream? u).map Stream.cmdErr = some (x.cmdErr ++ [(inner, r.cmd.pc)]))
  ∧ ∀ x, s.stream? u = some x → x.ending = true → x.state ≠ .ended → x.pend = [] → x.cmdErr = [] → b.populated →
      ∃ t, exec (.seqctlEnd u) s = .next t ∧ (t.stream? u).map Stream.state = some .ended

/-! ### Traps between instructions, weaves and helpers (R175 to R186, R212 to R224, R313, R352, R355) -/

/-- A command error traps the stream with cause 0x12 before its next instruction (R313); that XFPC holds the command's own address is the model's reading
(log 28), and so is TRAP_ENTRY as the event that enters this trap (log 42). A matched breakpoint traps the batch with 0x10 and the register's number in
AUX before the instruction; a backward transfer past the watchdog's count traps with 0x0E; and a record that completes with success lets every batch
that waits for it go on (R184, R313, R351, R352, R353, R355). -/
def Obligations.TrapEventsTake : Prop := ∀ (s : State) (blk : Block) (c : Ctx),
  (∀ u x inner pc r, s.block? u = some blk → s.ctx? blk.ctx = some c → s.stream? u = some x → x.cmdErr = (inner, pc) :: r → x.state = .run → x.pend = [] →
    x.tr.inTrap = false → blk.hdr.trapEntry ≠ 0 → ∃ t, exec (.trapEntry u) s = .next t ∧
      (t.stream? u).map (fun y => (y.pc, y.cmdErr, y.tr)) = some (blk.trapPC, r,
        { x.tr with poison := false, seq := c.seq, inTrap := true, side := true, seta := x.seta, setb := x.setb, stepv := false, step := 0, inner,
                    cause := 0x12, xpc := x.pc, xfpc := pc, xaddr := 0, xaux := 0, entry := x.entry }))
  ∧ (∀ (n : BitVec 2) u w x b, s.focus = .weave u w → s.weave? u w = some x → x.curBatch = some b → b.members ≠ [] → bkpMatch blk b = some n.toNat →
      let k := fibIss s u w x b 8 ⟨0, false⟩
      routineReady k blk c s → ∃ t, exec (.breakpointMatch n) s = .next t ∧ trapTaken k blk c s t 0x10 k.pc fun _ => ofNat64 (0x100 + n.toNat))
  ∧ (∀ i j t k a b, takeTurn s = (t, .run i) → i.jump = some j → readyFib i t = some k → k.acts = [a] → (j.target k t a).toNat ≤ k.pc.toNat →
      (s.weave? k.uid k.w).bind Weave.curBatch = some b → blk.wdog ≠ 0 → 2 ^ blk.wdog ≤ b.wd →
      let r := targetCheck (j.start k t) k.uid ((j.start k t).coreOf a) (t.ctxOf k.uid) (j.target k t a)
      r.2 = none → fetchWaits t r.1 (t.coreOf a) = false → routineReady k blk c r.1 → ∃ v, exec .watchdog s = .next v ∧ trapTaken k blk c r.1 v 0x0E k.pc fun _ => 0)
  ∧ ∀ ctx seq x, s.ctx? ctx = some x → x.awaited.contains seq = true → recordState s x seq = some true →
      ∃ t, exec (.recordCompletion ctx seq) s = .next t ∧ (t.ctx? ctx).map Ctx.awaited = some (x.awaited.filter fun q => q != seq)
        ∧ ∀ u w b y, s.block? u = some b → b.ctx = ctx → mget b.weaves w = some y → ∀ z ∈ y.batches, z.state = .wait (.record seq) →
            ∃ y', t.weave? u w = some y' ∧ ∃ z' ∈ y'.batches, z'.members = z.members ∧ z'.pc = z.pc ∧ z'.state = .run

/-- A weave with a reason to leave the active set leaves it, and the pending weave chosen takes a free active slot once its spilled registers are filled;
helpers that were granted start; a release is asked of helpers with an iteration; and a recruiter whose helpers are gone resumes with the number of
iterations to commit in D (R176, R177, R186, R212, R223, R224). That the weave is promoted and filled whatever entries its core has left (log 76), and
since when a pending weave has waited (log 82), is the model's choice. -/
def Obligations.WeavesMove : Prop := ∀ (s : State),
  (∀ u w b x, s.block? u = some b → s.weave? u w = some x → x.active = true → mayDemote s u w b.ctx x = true →
    exec (.weaveDemote u w) s = .next (s.updWeave u w fun x => { x with active := false, lastMove := s.clock }))
  ∧ (∀ c u w x, activeOn s c < 8 → toPromote s c = some (u, w, x) →
      exec (.weavePromote c) s = .next ((fillWeave s u w).updWeave u w fun x => { x with active := true, lastMove := s.clock }))
  ∧ (∀ u key b, s.block? u = some b → (∃ w ∈ b.weaves, ∃ z ∈ w.2.batches, startsOf w.2 key z = true) →
      ∃ t, exec (.helperStart u key) s = .next t ∧ ∀ w y, mget b.weaves w = some y → ∀ z ∈ y.batches, startsOf y key z = true →
        ∃ y', t.weave? u w = some y' ∧ ∃ z' ∈ y'.batches, z'.members = z.members ∧ z'.pc = z.pc ∧ z'.state = .run)
  ∧ (∀ u w x, s.weave? u w = some x → releasable x ≠ [] → (∀ e ∈ releasable x, e.2.cur.isSome = true) →
      ∃ t, exec (.releaseRequest u w) s = .next t
        ∧ ∀ sl f, mget x.fibres sl = some f → f.isHelper = true → (t.fibre? u w sl).map Fibre.release = some true)
  ∧ ∀ u rw rs f p, rs < 32 → s.fibre? u rw rs = some f → f.pool = some p → p.waiting = true → p.helpers = 0 → mget f.binds p.dst = none →
      ∃ t, exec (.recruiterResume u (poolKey rw rs)) s = .next t ∧ t.reg? u rw rs p.dst = some (.live (ofNat64 p.left))
        ∧ ((t.fibre? u rw rs).bind Fibre.pool).map Pool.waiting = some false

/-! ### Caches, replicas and translation (R235 to R252, R264) -/

/-- The caches' own events change no byte of memory, no block and no context: a miss is answered, its reply ends it, a probe takes the line from an L1 and
is held behind a reply that is on its way, a write-back gives the line to its home slice and a collapse removes its replicas, a zone is reviewed and
sr.repl takes a legal value; a push gives every binding that a core holds on the line the word's value; and a walk fills the die's TLB (R235, R237,
R241 to R245, R248, R249, R250, R252, R264). -/
def Obligations.CachesMove : Prop := ∀ (s : State) (c line : Nat),
  (∀ own m, (s.core c).miss? line = some m → m.replied = false → m.own = own → (∀ x ∈ missesTo s c line, x.line ≠ line → x.replied = true) →
    m.pkt = none →
    ∃ t, exec (.missRequest c line own) s = .next t ∧ cacheOnly s t ∧ ((t.core c).miss? line).map Miss.replied = some true)
  ∧ (∀ m, (s.core c).miss? line = some m → m.replied = true → (missesTo s c line).length = 1 →
      ∃ t, exec (.dataReply c line) s = .next t ∧ cacheOnly s t ∧ (t.core c).miss? line = none)
  ∧ (((∃ e ∈ (s.core c).l1, e.1 = line) ∨ ∃ m, (s.core c).miss? line = some m ∧ m.replied = true) →
      ∃ t, exec (.probe c line) s = .next t ∧ cacheOnly s t ∧ (boundOn s c line = false → ∀ e ∈ (t.core c).l1, e.1 ≠ line)
        ∧ (∀ e ∈ (t.core c).l1, e.1 = line → e.2 = .s)
        ∧ ∀ m, (s.core c).miss? line = some m → m.replied = true → ((t.core c).miss? line).map Miss.held = some (m.held + 1))
  ∧ ((line, .m) ∈ (s.core c).l1 → uncommitted s c line = false →
      ∃ t, exec (.writeBack c line) s = .next t ∧ cacheOnly s t ∧ (∀ e ∈ (t.core c).l1, e.1 ≠ line) ∧ line ∈ t.homeDirty)
  ∧ ((∃ r ∈ s.replicas, r.2 = line) → ∃ t, exec (.collapse line) s = .next t ∧ cacheOnly s t ∧ ∀ r ∈ t.replicas, r.2 ≠ line)
  ∧ (boundOn s c line = true → ∃ t, exec (.push c line) s = .next t ∧ t = { s with blocks := t.blocks } ∧ ∀ u w sl x f n b, s.weave? u w = some x → x.core = c →
      t.fibre? u w sl = some f → mget f.binds n = some b → b.pa < line + 256 → line < b.pa + b.size →
      (∀ y, s.block? u = some y → ownLater y.sbuf w sl b = false) →
      b.pending = some (b.extend (s.phys b.pa b.size)) ∧ b.poison = s.poisoned b.pa b.size)
  ∧ (∀ z, (s.zone z).reviewed < s.window z → ∃ t, exec (.zoneReview z) s = .next t ∧ cacheOnly s t ∧ (t.zone z).deg = reviewDegree (s.zone z)
      ∧ (t.zone z).reads = 0 ∧ (t.zone z).readers = [] ∧ (t.zone z).reviewed = s.window z)
  ∧ (∀ z v, replOk v = true → ∃ t, exec (.replWrite z v) s = .next t ∧ cacheOnly s t ∧ (t.zone z).floor = fld v 0 3 ∧ (t.zone z).ceil = fld v 4 3
      ∧ (t.zone z).deg = min (max (s.zone z).deg (fld v 0 3)) (fld v 4 3))
  ∧ ∀ ctx d vpn t e, (s.ctx? ctx).isSome = true → d < 128 → canonicalVA (vpn * 4096) = true →
      walkFor (walkReads s ctx (vpn * 4096) fun s a => readMiss s d (lineOf a)) ctx (vpn * 4096) .load = (t, .ok e) →
      ∃ r, exec (.translationWalk ctx d vpn) s = .next r ∧ e ∈ (r.die d).tlb ∧ r = { t with dies := r.dies }

/-! ### Launches and their blocks (R163 to R175, R363, R364, R367) -/

/-- The dispatcher's events: a launch whose record and kernel pass every check is ready, and one whose record is ill-formed is rejected with reason 3
(R171); that one whose record cannot be read is rejected with reason 6 is the model's reading (log 32), and so is when the record is read (R200). The
next block of the first ready launch starts on the best core with all its fibres; for a launch whose next block fits nowhere on a die a victim of the
lowest class is pre-empted with its gang instance, and the only block of a panel into the first free frame; and a launch all of whose blocks have ended
or been killed leaves, its done word written (R163 to R175). That the blocks of the victim's gang instance stop at once, also two on one core (log 68),
and that the pre-emption is for the first ready launch that may use the die (log 38), is the model's choice. -/
def Obligations.LaunchesMove : Prop := ∀ (s : State) (ctx : Nat),
  (∀ q l0 t d, ((s.ctx? ctx).bind fun x => x.head q) = some l0 → l0.state = .queued → readVA s ctx 256 l0.record.toNat = (t, some d) →
    let l := parseRecord l0 d
    (recordOkFields l d = false → exec (.launchReady ctx q) s = .next (reject t ctx l 3))
    ∧ ∀ r m, recordOkFields l d = true → l.depcount = 0 → readyChecks t ctx l = (r, .ok m) →
        exec (.launchReady ctx q) s = .next (r.updLaunch ctx m.lid fun _ => m) ∧ m.state = .ready)
  ∧ (∀ q l0 t, ((s.ctx? ctx).bind fun x => x.head q) = some l0 → l0.state = .queued → readVA s ctx 256 l0.record.toNat = (t, none) →
      exec (.launchReady ctx q) s = .next (reject t ctx l0 6))
  ∧ (∀ d l r h i c, diePlaces s d = true → (s.die d).dcbusy = none → readyLaunches s = (ctx, l) :: r → s.launch? ctx l.lid = some l → l.hdr = some h →
      nextBlock s ctx l = some i → l.gangOf i = none → savedOf s ctx l.lid = [] →
      bestCore s (openCores s ctx l h i (avoided l 6 [i] i) (dieCores d)) = some c →
      ∃ t b, exec (.blockPlacement d) s = .next t ∧ t.block? s.nextUid = some b ∧ (b.ctx, b.lid, b.idx, b.core, b.hdr) = (ctx, l.lid, i, c, h)
        ∧ ∀ n, n < h.fibres → t.fibre? s.nextUid (n / 32) (n % 32) = some (Fibre.start .block n []))
  ∧ (∀ d l r u b f fs, readyLaunches s = (ctx, l) :: r → mayUse s d ctx l = true → diePlaces s d = true → placeNextOf s d ctx l = none →
      s.blocks = [(u, b)] → coreDie b.core = d →
      gangIndices s b = [b.idx] → mayPreempt s (l.flags.toNat % 4) b = true → freeFrames s b.ctx = f :: fs →
      ∃ t, exec (.preemption d) s = .next t ∧ (t.block? u).map (fun b => (b.stop, b.saving)) = some (true, some (f, 1)))
  ∧ (∀ d l, (readyLaunches s).find? (fun e => mayUse s d e.1 e.2) = some (ctx, l) → diePlaces s d = true → placeNextOf s d ctx l = none →
      (∀ e ∈ s.blocks, coreDie e.2.core = d → e.2.saving.map Prod.snd ≠ some 1) →
      let ok (e : Nat × Block) : Prop := e ∈ s.blocks ∧ coreDie e.2.core = d
        ∧ (∀ x ∈ preemptSet s e.2, mayPreempt s (l.flags.toNat % 4) x.2 = true) ∧ (preemptSet s e.2).length ≤ (freeFrames s e.2.ctx).length
      (∃ e, ok e) → ∃ t v, exec (.preemption d) s = .next t ∧ ok v ∧ (∀ e, ok e → v.2.prio ≤ e.2.prio)
        ∧ ∀ x ∈ preemptSet s v.2, (t.block? x.1).map (fun b => (b.stop, b.saving.map Prod.snd)) = some (true, some 1))
  ∧ ∀ lid l, s.launch? ctx lid = some l → l.state = .ready → l.ended + l.killed = l.total →
      (l.done = 0 → ∃ t, exec (.launchCompletion ctx lid) s = .next t ∧ t.launch? ctx lid = none ∧ t.mem = s.mem)
      ∧ ∀ t pa, l.done ≠ 0 → l.done % 8 = 0 → devTranslate s ctx l.done .store = (t, .ok pa) → plainRange t pa 8 →
          ∃ r, exec (.launchCompletion ctx lid) s = .next r ∧ r.launch? ctx lid = none
            ∧ r.phys pa 8 = (doneWord (if l.killed = 0 then 1 else 3) 0 l.killed).toNat

/-- An imprecise event of a block that is no gang's, 0x13 of a refused store among them: while the block's window is open and it has been relaunched less
than 3 times it is to be placed again, never on the core that reports the event and away from that core's cluster; else it is killed; and 0x15 leaves a
record alone (R347, R363, R364, R367). -/
def Obligations.RelaunchRule : Prop := ∀ (s : State) (u c : Nat) (b : Block) (l : Launch) (i : Instr), s.block? u = some b → s.launch? b.ctx b.lid = some l →
  gangIndices s b = [b.idx] → blockOf s b.ctx b.lid b.idx = some (u, b) → s.frames = [] →
  (∀ addr aux, exec (.relaunchEvent ⟨u, c⟩ 0x15 addr aux) s = .next (eventRecord s b c 0x15 addr aux false false)) ∧
  (((∃ cause addr aux, i = .relaunchEvent ⟨u, c⟩ cause addr aux ∧ (cause = 0x13 ∨ cause = 0x14 ∨ cause = 0x16 ∨ cause = 0x17))
      ∨ ∃ pa sq, i = .remoteRefusal ⟨u, c⟩ pa sq) →
  ∃ t, exec i s = .next t ∧ t.block? u = none
    ∧ (b.wopen = true ∧ b.relaunches < 3 → (t.launch? b.ctx b.lid).map (fun y => (y.again, y.barred, y.killed))
        = some (l.again ++ [(b.idx, b.relaunches + 1, domInst 2 c + 1)], l.barred ++ [(b.idx, c)], l.killed))
    ∧ (¬(b.wopen = true ∧ b.relaunches < 3) → (t.launch? b.ctx b.lid).map (fun y => (y.again, y.killed)) = some (l.again, l.killed + 1)))

/-! ### Die controllers (R254, R369 to R371, R402 to R407, R436) -/

/-- A save begins with the block of the lowest weave slot, which is asked to stop, and ends with the stopped block in its frame; a core with no block
gives result 1; a restore puts the saved block on a core that fits it and that its masks permit, and of a frame that was never saved gives result 1;
retirement takes a core out of service and ends when it is empty; and a core that returns is in service (R173, R369 to R371). -/
def Obligations.SavesAndRestores : Prop := ∀ (s : State) (c frame : Nat), let d := coreDie c
  ((s.die d).dcbusy = some (1, coreIdx c, frame) → frameClaimed s frame = false →
    (saveVictim s c = none → exec (.save c frame) s = .next (dcDone s d 1))
    ∧ ∀ u b x, saveVictim s c = some (u, b) → s.block? u = some b → s.ctx? b.ctx = some x → x.ownsFrame frame = true → saveHeld s b = false →
        ∃ t, exec (.save c frame) s = .next t ∧ (t.block? u).map (fun b => (b.stop, b.saving)) = some (true, some (frame, 0)))
  ∧ (∀ u b why, (s.blocks.find? fun b => b.2.core = c && (b.2.saving.map Prod.fst) == some frame) = some (u, b) → s.block? u = some b →
      b.saving = some (frame, why) → saveReady s u b = true →
      ∃ t f, exec (.save c frame) s = .next t ∧ t.block? u = none ∧ mget t.frames frame = some f
        ∧ (f.saved, f.touched, f.ctx, f.uid, f.why, f.block.isSome) = (true, false, b.ctx, u, why, true)
        ∧ (why = 0 → (t.die d).dcbusy = none ∧ (t.die d).dcres = 0))
  ∧ (∀ e i, (s.die e).dcbusy = some (2, i, frame) →
      (mget s.frames frame = none → (∃ x ∈ s.ctxs, x.2.ownsFrame frame = true) → exec (.restore e i frame) s = .next (dcDone s e 1))
      ∧ ∀ f b x, mget s.frames frame = some f → f.saved = true → f.block = some b → s.ctx? f.ctx = some x → x.ownsFrame frame = true →
          releaseDue s e b = false → f.touched = false → i < 320 → mayRestore s 0 b (320 * e + i) = true →
          ∃ t, exec (.restore e i frame) s = .next t ∧ (t.block? f.uid).map Block.core = some (320 * e + i)
            ∧ (mget t.frames frame).map Frame.saved = some false ∧ (t.die e).dcbusy = none ∧ (t.die e).dcres = 0)
  ∧ (∀ a, (s.die d).dcbusy = some (3, coreIdx c, a) →
      ((s.core c).retired = false → ∃ t, exec (.retire c) s = .next t ∧ (t.core c).retired = true)
      ∧ ((s.core c).retired = true → (∀ b ∈ s.blocks, b.2.core ≠ c) → retiring s d = none →
          exec (.retire c) s = .next (dcDone (setMask s c true) d (s.die d).dcres)))
  ∧ ∀ a, (s.die d).dcbusy = some (4, coreIdx c, a) →
      ∃ t, exec (.returnToService c) s = .next t ∧ (t.core c).retired = false ∧ (t.die d).dcbusy = none

/-- A die reset begins with the die in state 1, is fenced, state 2, once no block is left, its caches gone, and ends in state 3; a drain deadline that
passes ends the drain, FORCED; a return takes state 3 to 4; a retired slice holds no bucket; an invalidation leaves no translation that it names on the
die; and the controller's registers hold what is written (R370, R402 to R404, R407, R436). -/
def Obligations.DiesMove : Prop := ∀ (s : State) (d : Nat),
  (∀ i a, (s.die d).dcbusy = some (8, i, a) → blocksOn s d = [] →
    ((s.die d).drstate ≠ 1 → (s.die d).drstate ≠ 2 →
      exec (.dieReset d) s = .next (s.updDie d fun x => { x with drstate := 1, drainAt := s.time, drforced := false, drpois := 0 }))
    ∧ ((s.die d).drstate = 1 → ∃ t, exec (.dieReset d) s = .next t ∧ ((t.die d).drstate, (t.die d).drforced, (t.die d).dcbusy) = (2, false, some (8, i, a))
        ∧ t.mem = s.mem ∧ ∀ e, coreDie e = d → (t.core e).l1 = [])
    ∧ ((s.die d).drstate = 2 → ∃ t, exec (.dieReset d) s = .next t ∧ ((t.die d).drstate, (t.die d).dcbusy) = (3, none) ∧ (t.die d).tlb = [] ∧ t.mem = s.mem))
  ∧ ((s.die d).drstate = 1 → (s.die d).drainAt + 600 * max 1 (s.die d).drtime ≤ s.time →
      ∃ t, exec (.drainDeadline d) s = .next t ∧ ((t.die d).drstate, (t.die d).drforced) = (2, true))
  ∧ (∀ i a, (s.die d).dcbusy = some (9, i, a) → (s.die d).drstate = 3 →
      ∃ t, exec (.dieReturn d) s = .next t ∧ ((t.die d).drstate, (t.die d).dcbusy, (t.die d).dcres) = (4, none, 0))
  ∧ (∀ n a, (s.die d).dcbusy = some (10, n, a) → n < 32 → (s.die d).slret.getLsbD n = false → (∃ m ∈ liveSlices (s.die d) (decide (16 ≤ n)), m ≠ n % 16) →
      ∃ t, exec (.sliceRetire d n) s = .next t ∧ (t.die d).slret.getLsbD n = true
        ∧ ∀ b, b < 256 → sliceOf (if 16 ≤ n then (t.die d).replB else (t.die d).homeB) b ≠ n % 16)
  ∧ (∀ ctx page all, (s.die d).invalBusy = true → fld (s.die d).inval 48 16 = ctx → fld (s.die d).inval 12 36 = page → (s.die d).inval.getLsbD 0 = all →
      ∃ t, exec (.invalidation d ctx page all) s = .next t ∧ (t.die d).invalBusy = false ∧ (∀ x ∈ (t.die d).tlb, tlbNamed ctx page all x = false)
        ∧ ∀ c, coreDie c = d → ∀ x ∈ (t.core c).utlb, tlbNamed ctx page all x = false)
  ∧ ∀ off v, d < 128 → off % 8 = 0 → off < winSize →
      exec (.registerWrite d off v) s = .next (writeReg s d off v)
        ∧ (off = 0x08 → dieReg (writeReg s d off v) d off = v) ∧ (off = 0x20 → dieReg (writeReg s d off v) d off = v &&& 0xFFFFFFFF)
        ∧ (off = 0x30 → dieReg (writeReg s d off v) d off = v &&& 0xFFFF)

/-! ### Messages, migration, trees (R387 to R401) -/

/-- A message that finds room in its target core's queue joins it and its sender's assembly buffer is empty; a retry that is due does the same; a message
whose block declares a handler starts it with the message in its registers, for which the core has entries (R185), and one without a block or handler is
dropped and counted; a migrating block arrives in a landing slot (R389 to R391, R395), by the model's choice that of another core of the die where the
core it was on its way to has been lost (log 72). -/
def Obligations.MessagesMove : Prop := ∀ (s : State),
  (∀ u w b x y sl n rest m again, s.block? u = some b → s.weave? u w = some x → sending x = some y → y.todo = (sl, n) :: rest →
    msgOf s u w sl n (if again then s.time else y.sent) = some m → coreDown s m.target = false → (s.core m.target).inq.length < 64 →
    sendsBefore s m.src m.target y.stamp = false →
    (again = false ∧ y.retry = none ∨ again = true ∧ ∃ t0, y.retry = some t0 ∧ cycles 64 ≤ s.ran (coreDie b.core) t0) →
    ∃ t, exec (if again then .messageRetry u w else .messageArrival u w) s = .next t ∧ (t.core m.target).inq = (s.core m.target).inq ++ [m]
      ∧ (t.fibre? u w sl).map Fibre.asm = some none)
  ∧ (∀ c m r u b ws wr, (s.core c).inq = m :: r → msgTarget s c m = some (u, b) → s.block? u = some b →
      let n := fld (m.words.headD 0) 12 4
      nth b.hdr.handlers n ≠ 0 → away s u = false → handlersOn s c < 8 → freeWslots s c = ws :: wr →
      hasRegs s u c (handlerRegs b.hdr m).length = true →
      ∃ t y, exec (.handlerStart c) s = .next t ∧ (t.core c).inq = r ∧ t.fibre? u y 0 = some (Fibre.start (.handler n) (2048 + n) (handlerRegs b.hdr m)))
  ∧ (∀ c m r, (s.core c).inq = m :: r →
      (msgTarget s c m = none ∨ ∃ u b, msgTarget s c m = some (u, b) ∧ nth b.hdr.handlers (fld (m.words.headD 0) 12 4) = 0) →
      exec (.handlerStart c) s = .next (countDropped ((msgServed s m).updCore c fun y => { y with inq := y.inq.drop 1 }) m.sender))
  ∧ ∀ u b c e, s.block? u = some b → b.headed = some c → releaseDue s (coreDie c) b = false → landingPlace s b c = some e →
      ∃ t, exec (.migrationArrival u) s = .next t ∧ (t.block? u).map (fun b => (b.core, b.landing)) = some (e, true)

/-- A die whose members have all arrived reports once a round; notices move a member among the absent ones and back; with a report of every die and
nobody absent the round is complete; and its release reaches a die after those that lie nearer to the root over routes without a stretched region, and
the arrivals of the die's blocks begin afresh (R397, R400, R417, R426). -/
def Obligations.TreesMove : Prop := ∀ (s : State) (tree : Bool),
  (∀ d, d < 128 → treeHeld s tree = true → reportedHere s d tree = false → ((s.die d).seg tree).rounds = (s.root tree).rounds → dieArrived s tree d = true →
    ∃ t, exec (.treeReport tree d) s = .next t ∧ reportedHere t d tree = true ∧ d ∈ (t.root tree).seen ∧ (t.root tree).rounds = (s.root tree).rounds)
  ∧ (∀ u b, memberBlock s u = some b → inTree s b tree = true → away s u = true → (s.root tree).absent.contains u = false →
      ∃ t, exec (.absenceNotice tree u) s = .next t ∧ u ∈ (t.root tree).absent)
  ∧ (∀ u b, s.block? u = some b → away s u = false → (s.root tree).absent.contains u = true →
      ∃ t, exec (.presenceNotice tree u) s = .next t ∧ u ∉ (t.root tree).absent)
  ∧ ((s.root tree).seen.length = 128 → (s.root tree).absent = [] →
      exec (.roundComplete tree) s = .next (s.updRoot tree fun r => { r with rounds := r.rounds + 1, seen := [], doneAt := s.clock }))
  ∧ ∀ d, d < 128 → ((s.die d).seg tree).rounds < (s.root tree).rounds → releasedNearer s tree d = true →
      ∃ t, exec (.treeRelease tree d) s = .next t ∧ ((t.die d).seg tree).rounds = ((s.die d).seg tree).rounds + 1 ∧ reportedHere t d tree = false
        ∧ ∀ u b, s.block? u = some b → coreDie b.core = d → inTree s b tree = true → (t.block? u).map (fun y => y.arrived tree) = some false

/-! ### Scrub and power (R419 to R428) -/

/-- A scrub of a sound line changes nothing, a corrected one is counted and no value changes, and a line that cannot be corrected is rewritten where a
valid copy exists and else poisoned; step boundaries that are due pass; an alarm stretches its region and holds its neighbours; a recovered
region is no longer stretched; and completions held for HOLDCAP are released (R419 to R428). -/
def Obligations.PowerMoves : Prop := ∀ (s : State),
  (∀ line, line < panelEnd → line % 256 = 0 →
    exec (.scrub line .clean) s = .next s
    ∧ (∃ t, exec (.scrub line .corrected) s = .next t ∧ t.mem = s.mem ∧ t.poison = s.poison
        ∧ (t.chan (chanOf line)).corr = min 0xFFFFFFFF ((s.chan (chanOf line)).corr + 1))
    ∧ ∃ t, exec (.scrub line .uncorrectable) s = .next t ∧ t.mem = s.mem ∧ (∀ p ∈ t.poison, p ∈ s.poison ∨ p = line) ∧ (copied s line = true → t.poison = s.poison) ∧ (copied s line = false → line ∈ t.poison)
        ∧ (t.chan (chanOf line)).uncorr = min 0xFFFF ((s.chan (chanOf line)).uncorr + 1))
  ∧ (s.steps < s.time / 120 → ∃ t, exec .stepBoundary s = .next t ∧ t.steps = s.time / 120 ∧ t.mem = s.mem ∧ t.blocks = s.blocks)
  ∧ (∀ r, r < 16 → ∃ t, exec (.droopAlarm r) s = .next t ∧ (t.region r).stretch = true ∧ (t.region r).alarms = min 0xFFFFFFFF ((s.region r).alarms + 1)
      ∧ ∀ n ∈ regionsBeside r, (t.region n).hold = true)
  ∧ (∀ r, (s.region r).stretch = true → (s.region r).holdAt + 600 ≤ s.time → ∃ t, exec (.droopRecovery r) s = .next t ∧ (t.region r).stretch = false)
  ∧ ∀ r u b w x y srcs since, (u, b) ∈ s.blocks → (w, x) ∈ b.weaves → y ∈ x.batches → y.state = .wait (.hold r srcs since) →
      since + 600 * (s.region r).holdcap ≤ s.time → exec (.holdExpiry r) s = .next (everyBlock s fun b => b.wakeIf (holdPast s r))

/-! ### The service and the outside world (R429 to R443) -/

/-- Requests are byte messages, and each is answered as its rule says where its conditions hold. A session is negotiated and closed; MAXBODY holds the
largest legal body in 32 bits; a reserved type receives status 4; a quote signs the running images; a firmware image that the fused key signed is
staged, and another receives status 3. A sandbox ends with its lines written back; ROM runs an image that verifies and leaves another; a region comes up
and full service begins; a hart of port die 0 accesses physical memory and another the pages of the sandbox on it (R429 to R433, R437, R438, R441 to
R443). The model's choices: a boot of a running panel resets all of it and a hart's access takes effect at once (log 41); the factory's image, whose
version, digest and signature are the device's constants (log 9); what the service chooses where the spec leaves it (log 10); and which harts a
sandbox holds (log 73). -/
def Obligations.ServiceAnswers : Prop := ∀ (s : State),
  (∀ src m pairs n more, heard s src = true → hdrFits m.h 0 0 (src == .mgmt) = true → m.h.session = 0 → pairs ≠ [] → pairs.length ≤ 8 →
    (∀ p ∈ pairs, p.1 < 256 ∧ p.2 < 256) →
    content m = some (toBytes 1 pairs.length ++ toBytes 7 0 ++ pairs.flatMap (fun p => toBytes 1 p.1 ++ toBytes 1 p.2) ++ more) →
    commonMinor pairs = some n → exec (.sessionOpen src m) s = .next (sendUz (s.updService fun v => v.openSession ⟨src == .mgmt, 1, n⟩)
      s.service.nextSession 0x8001 0 m.h.req (toBytes 1 1 ++ toBytes 1 n ++ toBytes 2 0 ++ toBytes 4 (maxBody (src == .mgmt)))))
  ∧ (∀ session ty status req body x, mget s.service.sessions session = some x → (sendUz s session ty status req body).out =
      s.out ++ [.uz ty ⟨⟨0x5A55, BitVec.ofNat 8 x.major, BitVec.ofNat 8 x.minor, BitVec.ofNat 16 status, ofNat64 session, req,
        BitVec.ofNat 32 body.length, 0⟩, body⟩])
  ∧ (∀ mgmt, legalBody mgmt ≤ maxBody mgmt ∧ maxBody mgmt < 2 ^ 32)
  ∧ (∀ session, ∃ t, exec (.sessionClose session) s = .next t ∧ mget t.service.sessions session = none)
  ∧ (∀ r ty b, requestOk s r.src r.m false b → ty.toNat < 0x8000 →
      exec (.reservedTypeRequest r ty) s = .next (replied s r.m.h (0x8000 + ty.toNat) 4 []))
  ∧ (∀ port, exec (.unsupportedFeatureRequest port) s = .next (s.send (.portNack port)))
  ∧ (∀ src m mgmt nonce more, requestOk s src m mgmt (nonce ++ more) → nonce.length = 64 →
      exec (.quote src m) s = .next (replied s m.h 0x800A 0 (quoteBody s nonce ++ fixLen 4627 (Config.mldsaSign (digest (quoteBody s nonce))))))
  ∧ (∀ r target version image sig more, target ≤ 2 → version < 2 ^ 32 → image.length ≤ 67108864 → sig.length = 4627 → s.service.rollback ≤ version →
      requestOk s r.src r.m true (fwBytes target version image ++ sig ++ more) → exec (.fwUpdate r) s = .next
        (if fusedVerifies (digest (fwBytes target version image)) sig
          then replied (s.updService fun v => { v with staged := mput v.staged target (version, image, sig) }) r.m.h 0x800C 0 []
          else replied s r.m.h 0x800C 3 []))
  ∧ (∀ id x, mget s.service.sandboxes id = some x → ∃ t, exec (.sandboxEnd id) s = .next t ∧ mget t.service.sandboxes id = none
      ∧ ∀ e ∈ (t.core (portCache x.port)).l1, e.2 = .m → x.pages.contains (e.1 / 4096 * 4096) = false)
  ∧ (s.service.booted = false → exec .boot s = .next (if bootable s then s.updService fun v => { v with booted := true } else s))
  ∧ (s.service.booted = true → ∃ t, exec .boot s = .next t ∧ t.blocks = [] ∧ t.ctxs = [] ∧ t.mem = [] ∧ t.service.sessions = [] ∧ t.service.mode = 0
      ∧ t.service.booted = bootable (panelReset s))
  ∧ (∀ r, s.service.booted = true → s.service.regionsUp = r → r < 16 → ∃ t, exec (.regionBringUp r) s = .next t ∧ (t.region r).up = true
      ∧ t.service.regionsUp = r + 1 ∧ t.service.mode = if r = 0 then 1 else s.service.mode)
  ∧ (s.service.mode = 1 → s.service.regionsUp = 16 → boundaryDue s = true → ∃ t, exec .fullService s = .next t ∧ t.service.mode = 2)
  ∧ ∀ hart, hart < 256 → portUp s (hart / 8) = true →
      ((hart < 8 ∨ (sandboxAt s hart).isSome = true) → exec (.hartAccess hart .fence) s = .next (s.send (.hartReply hart (some 0))))
      ∧ ∀ a pa n, n = 1 ∨ n = 2 ∨ n = 4 ∨ n = 8 → plainRange s pa n →
          (hartAt s hart false a n = some pa → s.poisoned pa n = false → ∃ t, exec (.hartAccess hart (.load a n)) s = .next t ∧ t.mem = s.mem
            ∧ t.out = s.out ++ [.hartReply hart (some (ofNat64 (s.phys pa n)))])
          ∧ (∀ v, hartAt s hart true a n = some pa → ∃ t, exec (.hartAccess hart (.store a n v)) s = .next t ∧ t.phys pa n = v.toNat % 2 ^ (8 * n))
          ∧ ∀ op v, hartAt s hart true a n = some pa → 4 ≤ n → pa % n = 0 → s.poisoned pa n = false →
              ∃ t, exec (.hartAccess hart (.amo op a n v)) s = .next t
                ∧ t.phys pa n = amoNew op (8 * n) (s.phys pa n) (v.toNat % 2 ^ (8 * n)) % 2 ^ (8 * n)
                ∧ t.out = s.out ++ [.hartReply hart (some (ofNat64 (s.phys pa n)))]

/-- Requests about a context, each body written as R440 and R441 lay it out, complete with status 0 where their conditions hold: a context is created
and destroyed, memory is mapped, a module and data are placed and read, a launch is submitted (through the port of a region that is down it receives
status 5), a fault is answered, and a received RMA write takes effect (R431, R434, R436, R439 to R442; the service's own choices are log 10). -/
def Obligations.ContextRequests : Prop := ∀ (s : State) (ctx : Nat) (c : Ctx) (more : List Byte),
  (∀ r flags ringlog frames key id t, flags < 32 → 6 ≤ ringlog → ringlog ≤ 16 → frames < 2 ^ 32 →
    key.length = (if flags / 16 = 1 then 2592 else 0) → treeTaken s (BitVec.ofNat 16 flags) = false → freeCtx s (s.ctxs.length + 1) 1 = some id →
    requestOk s r.src r.m false (toBytes 2 flags ++ toBytes 1 ringlog ++ toBytes 1 0 ++ toBytes 4 frames ++ toBytes 8 0 ++ key ++ more) →
    contextMemory s id ⟨r.m.h.session.toNat, BitVec.ofNat 16 flags, ringlog, frames, key⟩ = some (t, c) →
    ∃ v, exec (.contextCreate r) s = .next (replied v r.m.h 0x8002 0 (toBytes 2 id ++ toBytes 6 0 ++ toBytes 8 c.ringVA ++ toBytes 8 c.bellVA))
      ∧ v.ctx? id = some c ∧ v.mem = t.mem)
  ∧ (∀ src m, requestIn s src m ctx c more → ∃ t, exec (.contextDestroy src m) s = .next (replied t m.h 0x8003 0 []) ∧ t.ctx? ctx = none)
  ∧ (∀ r va image sig l, va < 2 ^ 64 → image ≠ [] → image.length ≤ 1048576 → (sig.length = 0 ∨ sig.length = 4627) →
      requestIn s r.src r.m ctx c (toBytes 8 va ++ toBytes 8 image.length ++ toBytes 4 sig.length ++ toBytes 4 0 ++ image ++ sig ++ more) →
      rangePieces s c.root writablePte va image.length = some l → tagsOk s ctx l = true →
      (c.flags.getLsbD 4 = true → sig.length = 4627 ∧ Config.mldsaVerify c.key (digest image) sig = true) →
      exec (.moduleLoad r) s = .next (replied (writePieces s l image) r.m.h 0x8004 0 (digest image)))
  ∧ (∀ r (q : MapReq) t, q.session = r.m.h.session.toNat → q.ctx = ctx → q.share < 2 ^ 16 →
      requestIn s r.src r.m ctx c (toBytes 8 q.va ++ toBytes 8 q.size ++ toBytes 1 q.op ++ toBytes 1 q.perm.toNat ++ toBytes 1 q.pgsz ++ toBytes 1 0
        ++ toBytes 2 q.home ++ toBytes 2 q.share ++ more) →
      mapOk s q = true → straddles s c.root q.va q.size = false → (q.home < 128 → (s.region (regionOf q.home)).up = true) → changeMap s c.root q = some t →
      exec (.map r) s = .next (replied (invalidateAll t ctx false (pagesOf q.va q.size)) r.m.h 0x8005 0 []))
  ∧ (∀ src h fields rest va data l, va < 2 ^ 64 → data ≠ [] → data.length ≤ 1048576 →
      requestIn s src ⟨h, fields ++ rest⟩ ctx c (toBytes 8 va ++ toBytes 8 data.length ++ data ++ more) →
      rangePieces s c.root (fun _ => true) va data.length = some l → tagsOk s ctx l = true →
      exec (.put src h fields rest) s = .next (replied (writePieces s l data) h 0x8006 0 []))
  ∧ (∀ src h fields rest va n l, va < 2 ^ 64 → n ≠ 0 → n ≤ 1048576 → requestIn s src ⟨h, fields ++ rest⟩ ctx c (toBytes 8 va ++ toBytes 8 n ++ more) →
      rangePieces s c.root (fun _ => true) va n = some l → (∀ e ∈ l, decodedPA e.1 = true ∧ s.poisoned e.1 e.2 = false) →
      exec (.get src h fields rest) s = .next (replied s h 0x8007 0 (l.flatMap fun e => s.bytes e.1 e.2)))
  ∧ (∀ src h word fields rest record queue, record % 64 = 0 → record < 2 ^ 64 → queue < 16 →
      requestIn s src ⟨h, word ++ fields ++ rest⟩ ctx c (toBytes 8 record ++ toBytes 1 queue ++ toBytes 7 0 ++ more) →
      (c.launches.filter fun l => l.queue = queue && l.state != .done).length < 64 →
      ∃ t, exec (.launchRequest src h word fields rest) s = .next (replied t h 0x8008 0 [])
        ∧ (t.ctx? ctx).map Ctx.launches = some (c.launches ++ [Launch.queued c.nextLid queue (ofNat64 record)]))
  ∧ (∀ p h word fields rest, s.service.booted = true → s.service.mode ≠ 0 → portUp s p.toNat = false →
      exec (.launchRequest (.port p) h word fields rest) s = .next (replied s h 0x8008 5 []))
  ∧ (∀ src h fields rest fail, requestIn s src ⟨{ h with status := 0 }, fields ++ rest⟩ ctx c (toBytes 4 (bit fail) ++ more) →
      let seq := h.req.toNat
      c.awaited.contains seq = true → s.phys (c.recAddr seq) 4 = seq → seq < 2 ^ 31 → plainRange s (c.recAddr seq) 64 →
      ∃ t, exec (.faultReply src h fields rest) s = .next t ∧ t.phys (c.recAddr seq + 0x3C) 4 = at_ 31 (bit fail) + seq
        ∧ Instr.recordCompletion ctx seq ∈ t.inbox)
  ∧ ∀ va data l, s.ctx? ctx = some c → rangePieces s c.root presentPte va data.length = some l → tagsOk s ctx l = true →
      exec (.rmaWriteReceive ctx va data) s = .next ((writePieces s l data).send (.rmaDone ctx true))

/-! ### Reset and invariants (R244, R402, R423, R424) -/

/-- After reset every die is in service with the reset values of R402 and of CHTHR (R423), and with zeros in SLRET, SLCERR and the poisoned-line count of
DRSTAT, for which R402 gives no reset value (log 1); every power region has LIMIT 256, HOLDCAP 2 and its counts and
states at 0 (R424), and every zone has CEIL 110, FLOOR, DEG and HOLDERS 0 (R244). Memory lists nothing, nothing is cached or poisoned, no context and
no block is there, nothing waits in a queue of a core, of a region or of the outside world, and the service has not booted (that memory begins as
zeros without poison is log 2; R442 begins with the boot). -/
def Obligations.ResetLeaves : Prop :=
  (∀ d, dieReg State.reset d 0x20 = 100 ∧ dieReg State.reset d 0x28 = 0 ∧ dieReg State.reset d 0x30 = 1024 ∧ dieReg State.reset d 0x38 = 0
    ∧ (∀ n, n < 32 → dieReg State.reset d (0x2000 + 8 * n) = 0) ∧ dieReg State.reset d 0x4300 = 4096)
  ∧ (∀ r, let x := State.reset.region r
      x.limit = 256 ∧ x.holdcap = 2 ∧ x.defer = 0 ∧ x.last = 0 ∧ x.alarms = 0 ∧ x.hold = false ∧ x.stretch = false ∧ x.queue = [] ∧ x.up = false)
  ∧ (∀ z, let x := State.reset.zone z
      x.ceil = 6 ∧ x.floor = 0 ∧ x.deg = 0 ∧ x.holders = [])
  ∧ (∀ c, (State.reset.core c).inq = [] ∧ (State.reset.core c).misses = [] ∧ (State.reset.core c).l1 = [] ∧ (State.reset.core c).started = false)
  ∧ State.reset.mem = [] ∧ State.reset.poison = [] ∧ State.reset.blocks = [] ∧ State.reset.ctxs = [] ∧ State.reset.frames = []
  ∧ State.reset.inbox = [] ∧ State.reset.out = [] ∧ State.reset.service.booted = false ∧ State.reset.service.mode = 0 ∧ MemoryCanonical State.reset

/-- Memory keeps its canonical form over every step of every agent, from every state that has it. -/
def Obligations.StepKeepsMemory : Prop := ∀ (s t : State), MemoryCanonical s → step s = .next t → MemoryCanonical t
end

