-- ==== Sys2Proof/Laws/Caches.lean ====
section
/-! SUPPORT. What the caches do when a line is read or owned: nothing but caches, replicas and counts differs (`cacheOnly`), so memory, blocks, contexts
and the service stand as they were. One lemma per operation, for the provers to cite instead of unfolding it. -/
namespace Sys2Proof.Machine

theorem cacheOnly.rfl' (s : State) : cacheOnly s s := rfl

theorem cacheOnly.trans {s t u : State} (h : cacheOnly s t) (k : cacheOnly t u) : cacheOnly s u := by
  unfold cacheOnly at *; rw [k, h]

theorem cacheOnly.mem {s t : State} (h : cacheOnly s t) : t.mem = s.mem := by rw [h]
theorem cacheOnly.poison {s t : State} (h : cacheOnly s t) : t.poison = s.poison := by rw [h]
theorem cacheOnly.blocks {s t : State} (h : cacheOnly s t) : t.blocks = s.blocks := by rw [h]
theorem cacheOnly.ctxs {s t : State} (h : cacheOnly s t) : t.ctxs = s.ctxs := by rw [h]
theorem cacheOnly.service {s t : State} (h : cacheOnly s t) : t.service = s.service := by rw [h]
theorem cacheOnly.frames {s t : State} (h : cacheOnly s t) : t.frames = s.frames := by rw [h]
theorem cacheOnly.out {s t : State} (h : cacheOnly s t) : t.out = s.out := by rw [h]
theorem cacheOnly.inbox {s t : State} (h : cacheOnly s t) : t.inbox = s.inbox := by rw [h]

/-- Steps that each touch nothing but caches do so one after another. -/
theorem cacheOnly_foldl {α : Type} (f : State → α → State) (h : ∀ s a, cacheOnly s (f s a)) (l : List α) (s : State) : cacheOnly s (l.foldl f s) := by
  induction l generalizing s with
  | nil => rfl
  | cons a r ih => exact (h s a).trans (ih _)

theorem cacheOnly.updCore {s t : State} (h : cacheOnly s t) (c : Nat) (f : Core → Core) : cacheOnly s (t.updCore c f) := h.trans rfl
theorem cacheOnly.updDie {s t : State} (h : cacheOnly s t) (d : Nat) (f : Die → Die) : cacheOnly s (t.updDie d f) := h.trans rfl
theorem cacheOnly.updZone {s t : State} (h : cacheOnly s t) (z : Nat) (f : Zone → Zone) : cacheOnly s (t.updZone z f) := h.trans rfl
theorem cacheOnly.copies {s t : State} (h : cacheOnly s t) (r : List (Nat × Nat)) (x : List (Nat × Nat × Nat)) :
    cacheOnly s { t with replicas := r, sharers := x } := h.trans rfl
theorem cacheOnly.sharing {s t : State} (h : cacheOnly s t) (x : List (Nat × Nat × Nat)) : cacheOnly s { t with sharers := x } := h.trans rfl

theorem cacheOnly.homeTouch {s t : State} (h : cacheOnly s t) (l : Nat) : cacheOnly s (homeTouch t l) := by
  refine h.trans ?_
  unfold Machine.homeTouch; dsimp only; split <;> rfl

theorem cacheOnly.toHome {s t : State} (h : cacheOnly s t) (l : Nat) : cacheOnly s (toHome t l) := (h.homeTouch l).trans rfl

theorem cacheOnly.probeIf {s t : State} (h : cacheOnly s t) (l : Nat) (p : Nat → Bool) : cacheOnly s (probeIf t l p) := by
  have k : cacheOnly s (probeAll t l p) := h.trans rfl
  unfold Machine.probeIf; split
  · exact k.toHome l
  · exact k

theorem cacheOnly.giveUp {s t : State} (h : cacheOnly s t) (l : Nat) : cacheOnly s (giveUp t l) := by
  refine h.trans ?_
  unfold Machine.giveUp; dsimp only; split
  · refine cacheOnly.toHome ?_ l; rfl
  · rfl

theorem cacheOnly.setL1 {s t : State} (h : cacheOnly s t) (c : Nat) (f : List (Nat × LineSt) → List (Nat × LineSt)) : cacheOnly s (setL1 t c f) :=
  (h.updCore c _).trans (cacheOnly_foldl Machine.toHome (fun t a => (cacheOnly.rfl' t).toHome a) _ _)

theorem cacheOnly.l1Install {s t : State} (h : cacheOnly s t) (c l : Nat) (st : LineSt) : cacheOnly s (l1Install t c l st) := h.setL1 _ _

theorem cacheOnly.replInstall {s t : State} (h : cacheOnly s t) (d l : Nat) : cacheOnly s (replInstall t d l) := h.trans rfl

theorem cacheOnly.readServe {s t : State} (h : cacheOnly s t) (r l : Nat) : cacheOnly s (readServe t r l) := by
  unfold Machine.readServe; dsimp only
  split
  · exact (h.updZone _ _).homeTouch _
  · split
    · exact (((h.updZone _ _).updZone _ _).updDie _ _).updZone _ _ |>.replInstall _ _
    · split
      · exact ((((h.updZone _ _).updZone _ _).updDie _ _).updZone _ _).homeTouch _ |>.replInstall _ _
      · split
        · exact (((((h.updZone _ _).updZone _ _).updZone _ _).updDie _ _).updZone _ _).homeTouch _ |>.replInstall _ _
        · split
          · exact ((h.updZone _ _).updZone _ _).homeTouch _
          · refine cacheOnly.updZone (cacheOnly.updDie (cacheOnly.sharing ?_ _) _ _) _ _
            split
            · exact ((h.updZone _ _).updZone _ _).replInstall _ _
            · exact ((((h.updZone _ _).updZone _ _).updDie _ _).updZone _ _).homeTouch _ |>.replInstall _ _

theorem cacheOnly.readMiss {s t : State} (h : cacheOnly s t) (r l : Nat) : cacheOnly s (readMiss t r l) := (h.readServe r l).giveUp l

theorem cacheOnly.late {s t : State} (h : cacheOnly s t) (l : List Packet) : cacheOnly s { t with lates := l } := h.trans rfl

theorem cacheOnly.deliverReply {s t : State} (h : cacheOnly s t) (c l : Nat) : cacheOnly s (deliverReply t c l) := by
  have put {t : State} (h : cacheOnly s t) : cacheOnly s (if (t.core c).l1.any fun e => e.1 = l then t else Machine.l1Install t c l (readState t c l)) := by
    split
    · exact h
    · exact h.l1Install _ _ _
  unfold Machine.deliverReply; dsimp only
  split
  · exact h
  · split
    · exact h
    · split
      · exact put ((h.late _).updCore _ _)
      · exact (put ((h.late _).updCore _ _)).probeIf _ _

/-- The replies of a core up to one arrive. -/
theorem cacheOnly.deliverThrough {s t : State} (h : cacheOnly s t) (c l : Nat) : cacheOnly s (deliverThrough t c l) :=
  h.trans (cacheOnly_foldl (fun (s : State) (m : Miss) => Machine.deliverReply s c m.line) (fun t m => (cacheOnly.rfl' t).deliverReply c m.line) _ _)

/-- The replies of a line arrive at every core. -/
theorem cacheOnly.repliesArrive {s t : State} (h : cacheOnly s t) (l : Nat) : cacheOnly s (repliesArrive t l) :=
  h.trans (cacheOnly_foldl (fun (s : State) (e : Nat × Core) =>
    if e.2.misses.any fun m => m.line = l && m.replied then Machine.deliverThrough s e.1 l else s) (fun t e => by
      split
      · exact (cacheOnly.rfl' t).deliverThrough _ _
      · exact cacheOnly.rfl' t) _ _)

/-- A read by a core. -/
theorem cacheOnly.readTouch {s t : State} (h : cacheOnly s t) (c pa : Nat) : cacheOnly s (readTouch t c pa) := by
  unfold Machine.readTouch; dsimp only
  split
  · exact h
  · split
    · exact h.l1Install _ _ _
    · exact (h.readMiss _ _).l1Install _ _ _

theorem cacheOnly.bindTouch {s t : State} (h : cacheOnly s t) (pa : Nat) : cacheOnly s (bindTouch t pa) := by
  unfold Machine.bindTouch; split
  · exact h
  · exact h.giveUp _

theorem cacheOnly.collapseLine {s t : State} (h : cacheOnly s t) (l : Nat) (k : Option Nat) : cacheOnly s (collapseLine t l k) := by
  unfold Machine.collapseLine; dsimp only; split
  · exact h
  · exact ((((h.copies _ _).probeIf l _).updDie _ _).updZone _ _)

theorem cacheOnly.serveOwn {s t : State} (h : cacheOnly s t) (c : Option Nat) (l : Nat) : cacheOnly s (serveOwn t c l) :=
  (((((h.repliesArrive l).updZone (zoneOf l) _).homeTouch l).collapseLine l c).probeIf l _)

/-- A store's line is owned before it takes effect. -/
theorem cacheOnly.ownTouch {s t : State} (h : cacheOnly s t) (c : Option Nat) (pa : Nat) : cacheOnly s (ownTouch t c pa) := by
  have own {t : State} (h : cacheOnly s t) (b : Bool) (l : Nat) : cacheOnly s (if b then t else Machine.serveOwn t c l) := by
    split
    · exact h
    · exact h.serveOwn _ _
  have keep {t : State} (h : cacheOnly s t) (c l : Nat) :
      cacheOnly s (if boundAny t l then Machine.toHome (Machine.l1Install t c l .s) l else Machine.l1Install t c l .m) := by
    split
    · exact (h.l1Install _ _ _).toHome _
    · exact h.l1Install _ _ _
  unfold Machine.ownTouch; dsimp only
  split
  · exact h
  · cases c with
    | none => exact (own h _ _).toHome _
    | some c => exact keep (own h _ _) _ _

end Sys2Proof.Machine
end

