-- ==== Sys2Proof/Laws/State.lean ====
section
/-! SUPPORT. What each update of the state leaves as it is: one lemma for each update and field, and what it changes. -/
namespace Sys2Proof.Machine

variable (s : State)

section
variable (uid : Nat) (b : Block)
@[simp] theorem State.setBlock_inbox : (s.setBlock uid b).inbox = s.inbox := rfl
@[simp] theorem State.setBlock_turn : (s.setBlock uid b).turn = s.turn := rfl
@[simp] theorem State.setBlock_focus : (s.setBlock uid b).focus = s.focus := rfl
@[simp] theorem State.setBlock_time : (s.setBlock uid b).time = s.time := rfl
@[simp] theorem State.setBlock_clock : (s.setBlock uid b).clock = s.clock := rfl
@[simp] theorem State.setBlock_fresh : (s.setBlock uid b).fresh = s.fresh := rfl
@[simp] theorem State.setBlock_mem : (s.setBlock uid b).mem = s.mem := rfl
@[simp] theorem State.setBlock_poison : (s.setBlock uid b).poison = s.poison := rfl
@[simp] theorem State.setBlock_ctxs : (s.setBlock uid b).ctxs = s.ctxs := rfl
@[simp] theorem State.setBlock_dies : (s.setBlock uid b).dies = s.dies := rfl
@[simp] theorem State.setBlock_cores : (s.setBlock uid b).cores = s.cores := rfl
@[simp] theorem State.setBlock_nextUid : (s.setBlock uid b).nextUid = s.nextUid := rfl
@[simp] theorem State.setBlock_nextOp : (s.setBlock uid b).nextOp = s.nextOp := rfl
@[simp] theorem State.setBlock_zones : (s.setBlock uid b).zones = s.zones := rfl
@[simp] theorem State.setBlock_homeLines : (s.setBlock uid b).homeLines = s.homeLines := rfl
@[simp] theorem State.setBlock_homeDirty : (s.setBlock uid b).homeDirty = s.homeDirty := rfl
@[simp] theorem State.setBlock_replicas : (s.setBlock uid b).replicas = s.replicas := rfl
@[simp] theorem State.setBlock_chans : (s.setBlock uid b).chans = s.chans := rfl
@[simp] theorem State.setBlock_sharers : (s.setBlock uid b).sharers = s.sharers := rfl
@[simp] theorem State.setBlock_root0 : (s.setBlock uid b).root0 = s.root0 := rfl
@[simp] theorem State.setBlock_root1 : (s.setBlock uid b).root1 = s.root1 := rfl
@[simp] theorem State.setBlock_regions : (s.setBlock uid b).regions = s.regions := rfl
@[simp] theorem State.setBlock_steps : (s.setBlock uid b).steps = s.steps := rfl
@[simp] theorem State.setBlock_frames : (s.setBlock uid b).frames = s.frames := rfl
@[simp] theorem State.setBlock_saves : (s.setBlock uid b).saves = s.saves := rfl
@[simp] theorem State.setBlock_walks : (s.setBlock uid b).walks = s.walks := rfl
@[simp] theorem State.setBlock_lates : (s.setBlock uid b).lates = s.lates := rfl
@[simp] theorem State.setBlock_service : (s.setBlock uid b).service = s.service := rfl
@[simp] theorem State.setBlock_out : (s.setBlock uid b).out = s.out := rfl
end

section
variable (uid : Nat) (f : Block → Block)
@[simp] theorem State.updBlock_inbox : (s.updBlock uid f).inbox = s.inbox := rfl
@[simp] theorem State.updBlock_turn : (s.updBlock uid f).turn = s.turn := rfl
@[simp] theorem State.updBlock_focus : (s.updBlock uid f).focus = s.focus := rfl
@[simp] theorem State.updBlock_time : (s.updBlock uid f).time = s.time := rfl
@[simp] theorem State.updBlock_clock : (s.updBlock uid f).clock = s.clock := rfl
@[simp] theorem State.updBlock_fresh : (s.updBlock uid f).fresh = s.fresh := rfl
@[simp] theorem State.updBlock_mem : (s.updBlock uid f).mem = s.mem := rfl
@[simp] theorem State.updBlock_poison : (s.updBlock uid f).poison = s.poison := rfl
@[simp] theorem State.updBlock_ctxs : (s.updBlock uid f).ctxs = s.ctxs := rfl
@[simp] theorem State.updBlock_dies : (s.updBlock uid f).dies = s.dies := rfl
@[simp] theorem State.updBlock_cores : (s.updBlock uid f).cores = s.cores := rfl
@[simp] theorem State.updBlock_nextUid : (s.updBlock uid f).nextUid = s.nextUid := rfl
@[simp] theorem State.updBlock_nextOp : (s.updBlock uid f).nextOp = s.nextOp := rfl
@[simp] theorem State.updBlock_zones : (s.updBlock uid f).zones = s.zones := rfl
@[simp] theorem State.updBlock_homeLines : (s.updBlock uid f).homeLines = s.homeLines := rfl
@[simp] theorem State.updBlock_homeDirty : (s.updBlock uid f).homeDirty = s.homeDirty := rfl
@[simp] theorem State.updBlock_replicas : (s.updBlock uid f).replicas = s.replicas := rfl
@[simp] theorem State.updBlock_chans : (s.updBlock uid f).chans = s.chans := rfl
@[simp] theorem State.updBlock_sharers : (s.updBlock uid f).sharers = s.sharers := rfl
@[simp] theorem State.updBlock_root0 : (s.updBlock uid f).root0 = s.root0 := rfl
@[simp] theorem State.updBlock_root1 : (s.updBlock uid f).root1 = s.root1 := rfl
@[simp] theorem State.updBlock_regions : (s.updBlock uid f).regions = s.regions := rfl
@[simp] theorem State.updBlock_steps : (s.updBlock uid f).steps = s.steps := rfl
@[simp] theorem State.updBlock_frames : (s.updBlock uid f).frames = s.frames := rfl
@[simp] theorem State.updBlock_saves : (s.updBlock uid f).saves = s.saves := rfl
@[simp] theorem State.updBlock_walks : (s.updBlock uid f).walks = s.walks := rfl
@[simp] theorem State.updBlock_lates : (s.updBlock uid f).lates = s.lates := rfl
@[simp] theorem State.updBlock_service : (s.updBlock uid f).service = s.service := rfl
@[simp] theorem State.updBlock_out : (s.updBlock uid f).out = s.out := rfl
end

section
variable (uid w : Nat) (f : Weave → Weave)
@[simp] theorem State.updWeave_inbox : (s.updWeave uid w f).inbox = s.inbox := rfl
@[simp] theorem State.updWeave_turn : (s.updWeave uid w f).turn = s.turn := rfl
@[simp] theorem State.updWeave_focus : (s.updWeave uid w f).focus = s.focus := rfl
@[simp] theorem State.updWeave_time : (s.updWeave uid w f).time = s.time := rfl
@[simp] theorem State.updWeave_clock : (s.updWeave uid w f).clock = s.clock := rfl
@[simp] theorem State.updWeave_fresh : (s.updWeave uid w f).fresh = s.fresh := rfl
@[simp] theorem State.updWeave_mem : (s.updWeave uid w f).mem = s.mem := rfl
@[simp] theorem State.updWeave_poison : (s.updWeave uid w f).poison = s.poison := rfl
@[simp] theorem State.updWeave_ctxs : (s.updWeave uid w f).ctxs = s.ctxs := rfl
@[simp] theorem State.updWeave_dies : (s.updWeave uid w f).dies = s.dies := rfl
@[simp] theorem State.updWeave_cores : (s.updWeave uid w f).cores = s.cores := rfl
@[simp] theorem State.updWeave_nextUid : (s.updWeave uid w f).nextUid = s.nextUid := rfl
@[simp] theorem State.updWeave_nextOp : (s.updWeave uid w f).nextOp = s.nextOp := rfl
@[simp] theorem State.updWeave_zones : (s.updWeave uid w f).zones = s.zones := rfl
@[simp] theorem State.updWeave_homeLines : (s.updWeave uid w f).homeLines = s.homeLines := rfl
@[simp] theorem State.updWeave_homeDirty : (s.updWeave uid w f).homeDirty = s.homeDirty := rfl
@[simp] theorem State.updWeave_replicas : (s.updWeave uid w f).replicas = s.replicas := rfl
@[simp] theorem State.updWeave_chans : (s.updWeave uid w f).chans = s.chans := rfl
@[simp] theorem State.updWeave_sharers : (s.updWeave uid w f).sharers = s.sharers := rfl
@[simp] theorem State.updWeave_root0 : (s.updWeave uid w f).root0 = s.root0 := rfl
@[simp] theorem State.updWeave_root1 : (s.updWeave uid w f).root1 = s.root1 := rfl
@[simp] theorem State.updWeave_regions : (s.updWeave uid w f).regions = s.regions := rfl
@[simp] theorem State.updWeave_steps : (s.updWeave uid w f).steps = s.steps := rfl
@[simp] theorem State.updWeave_frames : (s.updWeave uid w f).frames = s.frames := rfl
@[simp] theorem State.updWeave_saves : (s.updWeave uid w f).saves = s.saves := rfl
@[simp] theorem State.updWeave_walks : (s.updWeave uid w f).walks = s.walks := rfl
@[simp] theorem State.updWeave_lates : (s.updWeave uid w f).lates = s.lates := rfl
@[simp] theorem State.updWeave_service : (s.updWeave uid w f).service = s.service := rfl
@[simp] theorem State.updWeave_out : (s.updWeave uid w f).out = s.out := rfl
end

section
variable (uid w sl : Nat) (f : Fibre → Fibre)
@[simp] theorem State.updFibre_inbox : (s.updFibre uid w sl f).inbox = s.inbox := rfl
@[simp] theorem State.updFibre_turn : (s.updFibre uid w sl f).turn = s.turn := rfl
@[simp] theorem State.updFibre_focus : (s.updFibre uid w sl f).focus = s.focus := rfl
@[simp] theorem State.updFibre_time : (s.updFibre uid w sl f).time = s.time := rfl
@[simp] theorem State.updFibre_clock : (s.updFibre uid w sl f).clock = s.clock := rfl
@[simp] theorem State.updFibre_fresh : (s.updFibre uid w sl f).fresh = s.fresh := rfl
@[simp] theorem State.updFibre_mem : (s.updFibre uid w sl f).mem = s.mem := rfl
@[simp] theorem State.updFibre_poison : (s.updFibre uid w sl f).poison = s.poison := rfl
@[simp] theorem State.updFibre_ctxs : (s.updFibre uid w sl f).ctxs = s.ctxs := rfl
@[simp] theorem State.updFibre_dies : (s.updFibre uid w sl f).dies = s.dies := rfl
@[simp] theorem State.updFibre_cores : (s.updFibre uid w sl f).cores = s.cores := rfl
@[simp] theorem State.updFibre_nextUid : (s.updFibre uid w sl f).nextUid = s.nextUid := rfl
@[simp] theorem State.updFibre_nextOp : (s.updFibre uid w sl f).nextOp = s.nextOp := rfl
@[simp] theorem State.updFibre_zones : (s.updFibre uid w sl f).zones = s.zones := rfl
@[simp] theorem State.updFibre_homeLines : (s.updFibre uid w sl f).homeLines = s.homeLines := rfl
@[simp] theorem State.updFibre_homeDirty : (s.updFibre uid w sl f).homeDirty = s.homeDirty := rfl
@[simp] theorem State.updFibre_replicas : (s.updFibre uid w sl f).replicas = s.replicas := rfl
@[simp] theorem State.updFibre_chans : (s.updFibre uid w sl f).chans = s.chans := rfl
@[simp] theorem State.updFibre_sharers : (s.updFibre uid w sl f).sharers = s.sharers := rfl
@[simp] theorem State.updFibre_root0 : (s.updFibre uid w sl f).root0 = s.root0 := rfl
@[simp] theorem State.updFibre_root1 : (s.updFibre uid w sl f).root1 = s.root1 := rfl
@[simp] theorem State.updFibre_regions : (s.updFibre uid w sl f).regions = s.regions := rfl
@[simp] theorem State.updFibre_steps : (s.updFibre uid w sl f).steps = s.steps := rfl
@[simp] theorem State.updFibre_frames : (s.updFibre uid w sl f).frames = s.frames := rfl
@[simp] theorem State.updFibre_saves : (s.updFibre uid w sl f).saves = s.saves := rfl
@[simp] theorem State.updFibre_walks : (s.updFibre uid w sl f).walks = s.walks := rfl
@[simp] theorem State.updFibre_lates : (s.updFibre uid w sl f).lates = s.lates := rfl
@[simp] theorem State.updFibre_service : (s.updFibre uid w sl f).service = s.service := rfl
@[simp] theorem State.updFibre_out : (s.updFibre uid w sl f).out = s.out := rfl
end

section
variable (uid : Nat) (f : Stream → Stream)
@[simp] theorem State.updStream_inbox : (s.updStream uid f).inbox = s.inbox := rfl
@[simp] theorem State.updStream_turn : (s.updStream uid f).turn = s.turn := rfl
@[simp] theorem State.updStream_focus : (s.updStream uid f).focus = s.focus := rfl
@[simp] theorem State.updStream_time : (s.updStream uid f).time = s.time := rfl
@[simp] theorem State.updStream_clock : (s.updStream uid f).clock = s.clock := rfl
@[simp] theorem State.updStream_fresh : (s.updStream uid f).fresh = s.fresh := rfl
@[simp] theorem State.updStream_mem : (s.updStream uid f).mem = s.mem := rfl
@[simp] theorem State.updStream_poison : (s.updStream uid f).poison = s.poison := rfl
@[simp] theorem State.updStream_ctxs : (s.updStream uid f).ctxs = s.ctxs := rfl
@[simp] theorem State.updStream_dies : (s.updStream uid f).dies = s.dies := rfl
@[simp] theorem State.updStream_cores : (s.updStream uid f).cores = s.cores := rfl
@[simp] theorem State.updStream_nextUid : (s.updStream uid f).nextUid = s.nextUid := rfl
@[simp] theorem State.updStream_nextOp : (s.updStream uid f).nextOp = s.nextOp := rfl
@[simp] theorem State.updStream_zones : (s.updStream uid f).zones = s.zones := rfl
@[simp] theorem State.updStream_homeLines : (s.updStream uid f).homeLines = s.homeLines := rfl
@[simp] theorem State.updStream_homeDirty : (s.updStream uid f).homeDirty = s.homeDirty := rfl
@[simp] theorem State.updStream_replicas : (s.updStream uid f).replicas = s.replicas := rfl
@[simp] theorem State.updStream_chans : (s.updStream uid f).chans = s.chans := rfl
@[simp] theorem State.updStream_sharers : (s.updStream uid f).sharers = s.sharers := rfl
@[simp] theorem State.updStream_root0 : (s.updStream uid f).root0 = s.root0 := rfl
@[simp] theorem State.updStream_root1 : (s.updStream uid f).root1 = s.root1 := rfl
@[simp] theorem State.updStream_regions : (s.updStream uid f).regions = s.regions := rfl
@[simp] theorem State.updStream_steps : (s.updStream uid f).steps = s.steps := rfl
@[simp] theorem State.updStream_frames : (s.updStream uid f).frames = s.frames := rfl
@[simp] theorem State.updStream_saves : (s.updStream uid f).saves = s.saves := rfl
@[simp] theorem State.updStream_walks : (s.updStream uid f).walks = s.walks := rfl
@[simp] theorem State.updStream_lates : (s.updStream uid f).lates = s.lates := rfl
@[simp] theorem State.updStream_service : (s.updStream uid f).service = s.service := rfl
@[simp] theorem State.updStream_out : (s.updStream uid f).out = s.out := rfl
end

section
variable (c : Nat) (f : Core → Core)
@[simp] theorem State.updCore_inbox : (s.updCore c f).inbox = s.inbox := rfl
@[simp] theorem State.updCore_turn : (s.updCore c f).turn = s.turn := rfl
@[simp] theorem State.updCore_focus : (s.updCore c f).focus = s.focus := rfl
@[simp] theorem State.updCore_time : (s.updCore c f).time = s.time := rfl
@[simp] theorem State.updCore_clock : (s.updCore c f).clock = s.clock := rfl
@[simp] theorem State.updCore_fresh : (s.updCore c f).fresh = s.fresh := rfl
@[simp] theorem State.updCore_mem : (s.updCore c f).mem = s.mem := rfl
@[simp] theorem State.updCore_poison : (s.updCore c f).poison = s.poison := rfl
@[simp] theorem State.updCore_ctxs : (s.updCore c f).ctxs = s.ctxs := rfl
@[simp] theorem State.updCore_dies : (s.updCore c f).dies = s.dies := rfl
@[simp] theorem State.updCore_blocks : (s.updCore c f).blocks = s.blocks := rfl
@[simp] theorem State.updCore_nextUid : (s.updCore c f).nextUid = s.nextUid := rfl
@[simp] theorem State.updCore_nextOp : (s.updCore c f).nextOp = s.nextOp := rfl
@[simp] theorem State.updCore_zones : (s.updCore c f).zones = s.zones := rfl
@[simp] theorem State.updCore_homeLines : (s.updCore c f).homeLines = s.homeLines := rfl
@[simp] theorem State.updCore_homeDirty : (s.updCore c f).homeDirty = s.homeDirty := rfl
@[simp] theorem State.updCore_replicas : (s.updCore c f).replicas = s.replicas := rfl
@[simp] theorem State.updCore_chans : (s.updCore c f).chans = s.chans := rfl
@[simp] theorem State.updCore_sharers : (s.updCore c f).sharers = s.sharers := rfl
@[simp] theorem State.updCore_root0 : (s.updCore c f).root0 = s.root0 := rfl
@[simp] theorem State.updCore_root1 : (s.updCore c f).root1 = s.root1 := rfl
@[simp] theorem State.updCore_regions : (s.updCore c f).regions = s.regions := rfl
@[simp] theorem State.updCore_steps : (s.updCore c f).steps = s.steps := rfl
@[simp] theorem State.updCore_frames : (s.updCore c f).frames = s.frames := rfl
@[simp] theorem State.updCore_saves : (s.updCore c f).saves = s.saves := rfl
@[simp] theorem State.updCore_walks : (s.updCore c f).walks = s.walks := rfl
@[simp] theorem State.updCore_lates : (s.updCore c f).lates = s.lates := rfl
@[simp] theorem State.updCore_service : (s.updCore c f).service = s.service := rfl
@[simp] theorem State.updCore_out : (s.updCore c f).out = s.out := rfl
end

section
variable (d : Nat) (f : Die → Die)
@[simp] theorem State.updDie_inbox : (s.updDie d f).inbox = s.inbox := rfl
@[simp] theorem State.updDie_turn : (s.updDie d f).turn = s.turn := rfl
@[simp] theorem State.updDie_focus : (s.updDie d f).focus = s.focus := rfl
@[simp] theorem State.updDie_time : (s.updDie d f).time = s.time := rfl
@[simp] theorem State.updDie_clock : (s.updDie d f).clock = s.clock := rfl
@[simp] theorem State.updDie_fresh : (s.updDie d f).fresh = s.fresh := rfl
@[simp] theorem State.updDie_mem : (s.updDie d f).mem = s.mem := rfl
@[simp] theorem State.updDie_poison : (s.updDie d f).poison = s.poison := rfl
@[simp] theorem State.updDie_ctxs : (s.updDie d f).ctxs = s.ctxs := rfl
@[simp] theorem State.updDie_cores : (s.updDie d f).cores = s.cores := rfl
@[simp] theorem State.updDie_blocks : (s.updDie d f).blocks = s.blocks := rfl
@[simp] theorem State.updDie_nextUid : (s.updDie d f).nextUid = s.nextUid := rfl
@[simp] theorem State.updDie_nextOp : (s.updDie d f).nextOp = s.nextOp := rfl
@[simp] theorem State.updDie_zones : (s.updDie d f).zones = s.zones := rfl
@[simp] theorem State.updDie_homeLines : (s.updDie d f).homeLines = s.homeLines := rfl
@[simp] theorem State.updDie_homeDirty : (s.updDie d f).homeDirty = s.homeDirty := rfl
@[simp] theorem State.updDie_replicas : (s.updDie d f).replicas = s.replicas := rfl
@[simp] theorem State.updDie_chans : (s.updDie d f).chans = s.chans := rfl
@[simp] theorem State.updDie_sharers : (s.updDie d f).sharers = s.sharers := rfl
@[simp] theorem State.updDie_root0 : (s.updDie d f).root0 = s.root0 := rfl
@[simp] theorem State.updDie_root1 : (s.updDie d f).root1 = s.root1 := rfl
@[simp] theorem State.updDie_regions : (s.updDie d f).regions = s.regions := rfl
@[simp] theorem State.updDie_steps : (s.updDie d f).steps = s.steps := rfl
@[simp] theorem State.updDie_frames : (s.updDie d f).frames = s.frames := rfl
@[simp] theorem State.updDie_saves : (s.updDie d f).saves = s.saves := rfl
@[simp] theorem State.updDie_walks : (s.updDie d f).walks = s.walks := rfl
@[simp] theorem State.updDie_lates : (s.updDie d f).lates = s.lates := rfl
@[simp] theorem State.updDie_service : (s.updDie d f).service = s.service := rfl
@[simp] theorem State.updDie_out : (s.updDie d f).out = s.out := rfl
end

section
variable (z : Nat) (f : Zone → Zone)
@[simp] theorem State.updZone_inbox : (s.updZone z f).inbox = s.inbox := rfl
@[simp] theorem State.updZone_turn : (s.updZone z f).turn = s.turn := rfl
@[simp] theorem State.updZone_focus : (s.updZone z f).focus = s.focus := rfl
@[simp] theorem State.updZone_time : (s.updZone z f).time = s.time := rfl
@[simp] theorem State.updZone_clock : (s.updZone z f).clock = s.clock := rfl
@[simp] theorem State.updZone_fresh : (s.updZone z f).fresh = s.fresh := rfl
@[simp] theorem State.updZone_mem : (s.updZone z f).mem = s.mem := rfl
@[simp] theorem State.updZone_poison : (s.updZone z f).poison = s.poison := rfl
@[simp] theorem State.updZone_ctxs : (s.updZone z f).ctxs = s.ctxs := rfl
@[simp] theorem State.updZone_dies : (s.updZone z f).dies = s.dies := rfl
@[simp] theorem State.updZone_cores : (s.updZone z f).cores = s.cores := rfl
@[simp] theorem State.updZone_blocks : (s.updZone z f).blocks = s.blocks := rfl
@[simp] theorem State.updZone_nextUid : (s.updZone z f).nextUid = s.nextUid := rfl
@[simp] theorem State.updZone_nextOp : (s.updZone z f).nextOp = s.nextOp := rfl
@[simp] theorem State.updZone_homeLines : (s.updZone z f).homeLines = s.homeLines := rfl
@[simp] theorem State.updZone_homeDirty : (s.updZone z f).homeDirty = s.homeDirty := rfl
@[simp] theorem State.updZone_replicas : (s.updZone z f).replicas = s.replicas := rfl
@[simp] theorem State.updZone_chans : (s.updZone z f).chans = s.chans := rfl
@[simp] theorem State.updZone_sharers : (s.updZone z f).sharers = s.sharers := rfl
@[simp] theorem State.updZone_root0 : (s.updZone z f).root0 = s.root0 := rfl
@[simp] theorem State.updZone_root1 : (s.updZone z f).root1 = s.root1 := rfl
@[simp] theorem State.updZone_regions : (s.updZone z f).regions = s.regions := rfl
@[simp] theorem State.updZone_steps : (s.updZone z f).steps = s.steps := rfl
@[simp] theorem State.updZone_frames : (s.updZone z f).frames = s.frames := rfl
@[simp] theorem State.updZone_saves : (s.updZone z f).saves = s.saves := rfl
@[simp] theorem State.updZone_walks : (s.updZone z f).walks = s.walks := rfl
@[simp] theorem State.updZone_lates : (s.updZone z f).lates = s.lates := rfl
@[simp] theorem State.updZone_service : (s.updZone z f).service = s.service := rfl
@[simp] theorem State.updZone_out : (s.updZone z f).out = s.out := rfl
end

section
variable (r : Nat) (f : Region → Region)
@[simp] theorem State.updRegion_inbox : (s.updRegion r f).inbox = s.inbox := rfl
@[simp] theorem State.updRegion_turn : (s.updRegion r f).turn = s.turn := rfl
@[simp] theorem State.updRegion_focus : (s.updRegion r f).focus = s.focus := rfl
@[simp] theorem State.updRegion_time : (s.updRegion r f).time = s.time := rfl
@[simp] theorem State.updRegion_clock : (s.updRegion r f).clock = s.clock := rfl
@[simp] theorem State.updRegion_fresh : (s.updRegion r f).fresh = s.fresh := rfl
@[simp] theorem State.updRegion_mem : (s.updRegion r f).mem = s.mem := rfl
@[simp] theorem State.updRegion_poison : (s.updRegion r f).poison = s.poison := rfl
@[simp] theorem State.updRegion_ctxs : (s.updRegion r f).ctxs = s.ctxs := rfl
@[simp] theorem State.updRegion_dies : (s.updRegion r f).dies = s.dies := rfl
@[simp] theorem State.updRegion_cores : (s.updRegion r f).cores = s.cores := rfl
@[simp] theorem State.updRegion_blocks : (s.updRegion r f).blocks = s.blocks := rfl
@[simp] theorem State.updRegion_nextUid : (s.updRegion r f).nextUid = s.nextUid := rfl
@[simp] theorem State.updRegion_nextOp : (s.updRegion r f).nextOp = s.nextOp := rfl
@[simp] theorem State.updRegion_zones : (s.updRegion r f).zones = s.zones := rfl
@[simp] theorem State.updRegion_homeLines : (s.updRegion r f).homeLines = s.homeLines := rfl
@[simp] theorem State.updRegion_homeDirty : (s.updRegion r f).homeDirty = s.homeDirty := rfl
@[simp] theorem State.updRegion_replicas : (s.updRegion r f).replicas = s.replicas := rfl
@[simp] theorem State.updRegion_chans : (s.updRegion r f).chans = s.chans := rfl
@[simp] theorem State.updRegion_sharers : (s.updRegion r f).sharers = s.sharers := rfl
@[simp] theorem State.updRegion_root0 : (s.updRegion r f).root0 = s.root0 := rfl
@[simp] theorem State.updRegion_root1 : (s.updRegion r f).root1 = s.root1 := rfl
@[simp] theorem State.updRegion_steps : (s.updRegion r f).steps = s.steps := rfl
@[simp] theorem State.updRegion_frames : (s.updRegion r f).frames = s.frames := rfl
@[simp] theorem State.updRegion_saves : (s.updRegion r f).saves = s.saves := rfl
@[simp] theorem State.updRegion_walks : (s.updRegion r f).walks = s.walks := rfl
@[simp] theorem State.updRegion_lates : (s.updRegion r f).lates = s.lates := rfl
@[simp] theorem State.updRegion_service : (s.updRegion r f).service = s.service := rfl
@[simp] theorem State.updRegion_out : (s.updRegion r f).out = s.out := rfl
end

section
variable (c : Nat) (f : Ctx → Ctx)
@[simp] theorem State.updCtx_inbox : (s.updCtx c f).inbox = s.inbox := rfl
@[simp] theorem State.updCtx_turn : (s.updCtx c f).turn = s.turn := rfl
@[simp] theorem State.updCtx_focus : (s.updCtx c f).focus = s.focus := rfl
@[simp] theorem State.updCtx_time : (s.updCtx c f).time = s.time := rfl
@[simp] theorem State.updCtx_clock : (s.updCtx c f).clock = s.clock := rfl
@[simp] theorem State.updCtx_fresh : (s.updCtx c f).fresh = s.fresh := rfl
@[simp] theorem State.updCtx_mem : (s.updCtx c f).mem = s.mem := rfl
@[simp] theorem State.updCtx_poison : (s.updCtx c f).poison = s.poison := rfl
@[simp] theorem State.updCtx_dies : (s.updCtx c f).dies = s.dies := rfl
@[simp] theorem State.updCtx_cores : (s.updCtx c f).cores = s.cores := rfl
@[simp] theorem State.updCtx_blocks : (s.updCtx c f).blocks = s.blocks := rfl
@[simp] theorem State.updCtx_nextUid : (s.updCtx c f).nextUid = s.nextUid := rfl
@[simp] theorem State.updCtx_nextOp : (s.updCtx c f).nextOp = s.nextOp := rfl
@[simp] theorem State.updCtx_zones : (s.updCtx c f).zones = s.zones := rfl
@[simp] theorem State.updCtx_homeLines : (s.updCtx c f).homeLines = s.homeLines := rfl
@[simp] theorem State.updCtx_homeDirty : (s.updCtx c f).homeDirty = s.homeDirty := rfl
@[simp] theorem State.updCtx_replicas : (s.updCtx c f).replicas = s.replicas := rfl
@[simp] theorem State.updCtx_chans : (s.updCtx c f).chans = s.chans := rfl
@[simp] theorem State.updCtx_sharers : (s.updCtx c f).sharers = s.sharers := rfl
@[simp] theorem State.updCtx_root0 : (s.updCtx c f).root0 = s.root0 := rfl
@[simp] theorem State.updCtx_root1 : (s.updCtx c f).root1 = s.root1 := rfl
@[simp] theorem State.updCtx_regions : (s.updCtx c f).regions = s.regions := rfl
@[simp] theorem State.updCtx_steps : (s.updCtx c f).steps = s.steps := rfl
@[simp] theorem State.updCtx_frames : (s.updCtx c f).frames = s.frames := rfl
@[simp] theorem State.updCtx_saves : (s.updCtx c f).saves = s.saves := rfl
@[simp] theorem State.updCtx_walks : (s.updCtx c f).walks = s.walks := rfl
@[simp] theorem State.updCtx_lates : (s.updCtx c f).lates = s.lates := rfl
@[simp] theorem State.updCtx_service : (s.updCtx c f).service = s.service := rfl
@[simp] theorem State.updCtx_out : (s.updCtx c f).out = s.out := rfl
end

section
variable (c lid : Nat) (f : Launch → Launch)
@[simp] theorem State.updLaunch_inbox : (s.updLaunch c lid f).inbox = s.inbox := rfl
@[simp] theorem State.updLaunch_turn : (s.updLaunch c lid f).turn = s.turn := rfl
@[simp] theorem State.updLaunch_focus : (s.updLaunch c lid f).focus = s.focus := rfl
@[simp] theorem State.updLaunch_time : (s.updLaunch c lid f).time = s.time := rfl
@[simp] theorem State.updLaunch_clock : (s.updLaunch c lid f).clock = s.clock := rfl
@[simp] theorem State.updLaunch_fresh : (s.updLaunch c lid f).fresh = s.fresh := rfl
@[simp] theorem State.updLaunch_mem : (s.updLaunch c lid f).mem = s.mem := rfl
@[simp] theorem State.updLaunch_poison : (s.updLaunch c lid f).poison = s.poison := rfl
@[simp] theorem State.updLaunch_dies : (s.updLaunch c lid f).dies = s.dies := rfl
@[simp] theorem State.updLaunch_cores : (s.updLaunch c lid f).cores = s.cores := rfl
@[simp] theorem State.updLaunch_blocks : (s.updLaunch c lid f).blocks = s.blocks := rfl
@[simp] theorem State.updLaunch_nextUid : (s.updLaunch c lid f).nextUid = s.nextUid := rfl
@[simp] theorem State.updLaunch_nextOp : (s.updLaunch c lid f).nextOp = s.nextOp := rfl
@[simp] theorem State.updLaunch_zones : (s.updLaunch c lid f).zones = s.zones := rfl
@[simp] theorem State.updLaunch_homeLines : (s.updLaunch c lid f).homeLines = s.homeLines := rfl
@[simp] theorem State.updLaunch_homeDirty : (s.updLaunch c lid f).homeDirty = s.homeDirty := rfl
@[simp] theorem State.updLaunch_replicas : (s.updLaunch c lid f).replicas = s.replicas := rfl
@[simp] theorem State.updLaunch_chans : (s.updLaunch c lid f).chans = s.chans := rfl
@[simp] theorem State.updLaunch_sharers : (s.updLaunch c lid f).sharers = s.sharers := rfl
@[simp] theorem State.updLaunch_root0 : (s.updLaunch c lid f).root0 = s.root0 := rfl
@[simp] theorem State.updLaunch_root1 : (s.updLaunch c lid f).root1 = s.root1 := rfl
@[simp] theorem State.updLaunch_regions : (s.updLaunch c lid f).regions = s.regions := rfl
@[simp] theorem State.updLaunch_steps : (s.updLaunch c lid f).steps = s.steps := rfl
@[simp] theorem State.updLaunch_frames : (s.updLaunch c lid f).frames = s.frames := rfl
@[simp] theorem State.updLaunch_saves : (s.updLaunch c lid f).saves = s.saves := rfl
@[simp] theorem State.updLaunch_walks : (s.updLaunch c lid f).walks = s.walks := rfl
@[simp] theorem State.updLaunch_lates : (s.updLaunch c lid f).lates = s.lates := rfl
@[simp] theorem State.updLaunch_service : (s.updLaunch c lid f).service = s.service := rfl
@[simp] theorem State.updLaunch_out : (s.updLaunch c lid f).out = s.out := rfl
end

section
variable (f : Service → Service)
@[simp] theorem State.updService_inbox : (s.updService f).inbox = s.inbox := rfl
@[simp] theorem State.updService_turn : (s.updService f).turn = s.turn := rfl
@[simp] theorem State.updService_focus : (s.updService f).focus = s.focus := rfl
@[simp] theorem State.updService_time : (s.updService f).time = s.time := rfl
@[simp] theorem State.updService_clock : (s.updService f).clock = s.clock := rfl
@[simp] theorem State.updService_fresh : (s.updService f).fresh = s.fresh := rfl
@[simp] theorem State.updService_mem : (s.updService f).mem = s.mem := rfl
@[simp] theorem State.updService_poison : (s.updService f).poison = s.poison := rfl
@[simp] theorem State.updService_ctxs : (s.updService f).ctxs = s.ctxs := rfl
@[simp] theorem State.updService_dies : (s.updService f).dies = s.dies := rfl
@[simp] theorem State.updService_cores : (s.updService f).cores = s.cores := rfl
@[simp] theorem State.updService_blocks : (s.updService f).blocks = s.blocks := rfl
@[simp] theorem State.updService_nextUid : (s.updService f).nextUid = s.nextUid := rfl
@[simp] theorem State.updService_nextOp : (s.updService f).nextOp = s.nextOp := rfl
@[simp] theorem State.updService_zones : (s.updService f).zones = s.zones := rfl
@[simp] theorem State.updService_homeLines : (s.updService f).homeLines = s.homeLines := rfl
@[simp] theorem State.updService_homeDirty : (s.updService f).homeDirty = s.homeDirty := rfl
@[simp] theorem State.updService_replicas : (s.updService f).replicas = s.replicas := rfl
@[simp] theorem State.updService_chans : (s.updService f).chans = s.chans := rfl
@[simp] theorem State.updService_sharers : (s.updService f).sharers = s.sharers := rfl
@[simp] theorem State.updService_root0 : (s.updService f).root0 = s.root0 := rfl
@[simp] theorem State.updService_root1 : (s.updService f).root1 = s.root1 := rfl
@[simp] theorem State.updService_regions : (s.updService f).regions = s.regions := rfl
@[simp] theorem State.updService_steps : (s.updService f).steps = s.steps := rfl
@[simp] theorem State.updService_frames : (s.updService f).frames = s.frames := rfl
@[simp] theorem State.updService_saves : (s.updService f).saves = s.saves := rfl
@[simp] theorem State.updService_walks : (s.updService f).walks = s.walks := rfl
@[simp] theorem State.updService_lates : (s.updService f).lates = s.lates := rfl
@[simp] theorem State.updService_out : (s.updService f).out = s.out := rfl
end

section
variable (i : Instr)
@[simp] theorem State.post_turn : (s.post i).turn = s.turn := rfl
@[simp] theorem State.post_focus : (s.post i).focus = s.focus := rfl
@[simp] theorem State.post_time : (s.post i).time = s.time := rfl
@[simp] theorem State.post_clock : (s.post i).clock = s.clock := rfl
@[simp] theorem State.post_fresh : (s.post i).fresh = s.fresh := rfl
@[simp] theorem State.post_mem : (s.post i).mem = s.mem := rfl
@[simp] theorem State.post_poison : (s.post i).poison = s.poison := rfl
@[simp] theorem State.post_ctxs : (s.post i).ctxs = s.ctxs := rfl
@[simp] theorem State.post_dies : (s.post i).dies = s.dies := rfl
@[simp] theorem State.post_cores : (s.post i).cores = s.cores := rfl
@[simp] theorem State.post_blocks : (s.post i).blocks = s.blocks := rfl
@[simp] theorem State.post_nextUid : (s.post i).nextUid = s.nextUid := rfl
@[simp] theorem State.post_nextOp : (s.post i).nextOp = s.nextOp := rfl
@[simp] theorem State.post_zones : (s.post i).zones = s.zones := rfl
@[simp] theorem State.post_homeLines : (s.post i).homeLines = s.homeLines := rfl
@[simp] theorem State.post_homeDirty : (s.post i).homeDirty = s.homeDirty := rfl
@[simp] theorem State.post_replicas : (s.post i).replicas = s.replicas := rfl
@[simp] theorem State.post_chans : (s.post i).chans = s.chans := rfl
@[simp] theorem State.post_sharers : (s.post i).sharers = s.sharers := rfl
@[simp] theorem State.post_root0 : (s.post i).root0 = s.root0 := rfl
@[simp] theorem State.post_root1 : (s.post i).root1 = s.root1 := rfl
@[simp] theorem State.post_regions : (s.post i).regions = s.regions := rfl
@[simp] theorem State.post_steps : (s.post i).steps = s.steps := rfl
@[simp] theorem State.post_frames : (s.post i).frames = s.frames := rfl
@[simp] theorem State.post_saves : (s.post i).saves = s.saves := rfl
@[simp] theorem State.post_walks : (s.post i).walks = s.walks := rfl
@[simp] theorem State.post_lates : (s.post i).lates = s.lates := rfl
@[simp] theorem State.post_service : (s.post i).service = s.service := rfl
@[simp] theorem State.post_out : (s.post i).out = s.out := rfl
end

section
variable (m : OutMsg)
@[simp] theorem State.send_inbox : (s.send m).inbox = s.inbox := rfl
@[simp] theorem State.send_turn : (s.send m).turn = s.turn := rfl
@[simp] theorem State.send_focus : (s.send m).focus = s.focus := rfl
@[simp] theorem State.send_time : (s.send m).time = s.time := rfl
@[simp] theorem State.send_clock : (s.send m).clock = s.clock := rfl
@[simp] theorem State.send_fresh : (s.send m).fresh = s.fresh := rfl
@[simp] theorem State.send_mem : (s.send m).mem = s.mem := rfl
@[simp] theorem State.send_poison : (s.send m).poison = s.poison := rfl
@[simp] theorem State.send_ctxs : (s.send m).ctxs = s.ctxs := rfl
@[simp] theorem State.send_dies : (s.send m).dies = s.dies := rfl
@[simp] theorem State.send_cores : (s.send m).cores = s.cores := rfl
@[simp] theorem State.send_blocks : (s.send m).blocks = s.blocks := rfl
@[simp] theorem State.send_nextUid : (s.send m).nextUid = s.nextUid := rfl
@[simp] theorem State.send_nextOp : (s.send m).nextOp = s.nextOp := rfl
@[simp] theorem State.send_zones : (s.send m).zones = s.zones := rfl
@[simp] theorem State.send_homeLines : (s.send m).homeLines = s.homeLines := rfl
@[simp] theorem State.send_homeDirty : (s.send m).homeDirty = s.homeDirty := rfl
@[simp] theorem State.send_replicas : (s.send m).replicas = s.replicas := rfl
@[simp] theorem State.send_chans : (s.send m).chans = s.chans := rfl
@[simp] theorem State.send_sharers : (s.send m).sharers = s.sharers := rfl
@[simp] theorem State.send_root0 : (s.send m).root0 = s.root0 := rfl
@[simp] theorem State.send_root1 : (s.send m).root1 = s.root1 := rfl
@[simp] theorem State.send_regions : (s.send m).regions = s.regions := rfl
@[simp] theorem State.send_steps : (s.send m).steps = s.steps := rfl
@[simp] theorem State.send_frames : (s.send m).frames = s.frames := rfl
@[simp] theorem State.send_saves : (s.send m).saves = s.saves := rfl
@[simp] theorem State.send_walks : (s.send m).walks = s.walks := rfl
@[simp] theorem State.send_lates : (s.send m).lates = s.lates := rfl
@[simp] theorem State.send_service : (s.send m).service = s.service := rfl
end

section
@[simp] theorem State.tick_inbox : (s.tick).inbox = s.inbox := rfl
@[simp] theorem State.tick_turn : (s.tick).turn = s.turn := rfl
@[simp] theorem State.tick_focus : (s.tick).focus = s.focus := rfl
@[simp] theorem State.tick_time : (s.tick).time = s.time := rfl
@[simp] theorem State.tick_clock : (s.tick).clock = s.clock := rfl
@[simp] theorem State.tick_mem : (s.tick).mem = s.mem := rfl
@[simp] theorem State.tick_poison : (s.tick).poison = s.poison := rfl
@[simp] theorem State.tick_ctxs : (s.tick).ctxs = s.ctxs := rfl
@[simp] theorem State.tick_dies : (s.tick).dies = s.dies := rfl
@[simp] theorem State.tick_cores : (s.tick).cores = s.cores := rfl
@[simp] theorem State.tick_blocks : (s.tick).blocks = s.blocks := rfl
@[simp] theorem State.tick_nextUid : (s.tick).nextUid = s.nextUid := rfl
@[simp] theorem State.tick_nextOp : (s.tick).nextOp = s.nextOp := rfl
@[simp] theorem State.tick_zones : (s.tick).zones = s.zones := rfl
@[simp] theorem State.tick_homeLines : (s.tick).homeLines = s.homeLines := rfl
@[simp] theorem State.tick_homeDirty : (s.tick).homeDirty = s.homeDirty := rfl
@[simp] theorem State.tick_replicas : (s.tick).replicas = s.replicas := rfl
@[simp] theorem State.tick_chans : (s.tick).chans = s.chans := rfl
@[simp] theorem State.tick_sharers : (s.tick).sharers = s.sharers := rfl
@[simp] theorem State.tick_root0 : (s.tick).root0 = s.root0 := rfl
@[simp] theorem State.tick_root1 : (s.tick).root1 = s.root1 := rfl
@[simp] theorem State.tick_regions : (s.tick).regions = s.regions := rfl
@[simp] theorem State.tick_steps : (s.tick).steps = s.steps := rfl
@[simp] theorem State.tick_frames : (s.tick).frames = s.frames := rfl
@[simp] theorem State.tick_saves : (s.tick).saves = s.saves := rfl
@[simp] theorem State.tick_walks : (s.tick).walks = s.walks := rfl
@[simp] theorem State.tick_lates : (s.tick).lates = s.lates := rfl
@[simp] theorem State.tick_service : (s.tick).service = s.service := rfl
@[simp] theorem State.tick_out : (s.tick).out = s.out := rfl
end

@[simp] theorem State.setBlock_blocks (uid : Nat) (b : Block) : (s.setBlock uid b).blocks = mput s.blocks uid b := rfl
@[simp] theorem State.updBlock_blocks (uid : Nat) (f : Block → Block) : (s.updBlock uid f).blocks = mupd s.blocks uid f := rfl
@[simp] theorem State.updCore_cores (c : Nat) (f : Core → Core) : (s.updCore c f).cores = mput s.cores c (f (s.core c)) := rfl
@[simp] theorem State.updDie_dies (d : Nat) (f : Die → Die) : (s.updDie d f).dies = mput s.dies d (f (s.die d)) := rfl
@[simp] theorem State.updZone_zones (z : Nat) (f : Zone → Zone) : (s.updZone z f).zones = mput s.zones z (f (s.zone z)) := rfl
@[simp] theorem State.updRegion_regions (r : Nat) (f : Region → Region) : (s.updRegion r f).regions = mput s.regions r (f (s.region r)) := rfl
@[simp] theorem State.updCtx_ctxs (c : Nat) (f : Ctx → Ctx) : (s.updCtx c f).ctxs = mupd s.ctxs c f := rfl
@[simp] theorem State.updService_service (f : Service → Service) : (s.updService f).service = f s.service := rfl
@[simp] theorem State.post_inbox (i : Instr) : (s.post i).inbox = s.inbox ++ [i] := rfl
@[simp] theorem State.send_out (m : OutMsg) : (s.send m).out = s.out ++ [m] := rfl
@[simp] theorem State.tick_fresh : s.tick.fresh = s.fresh + 1 := rfl

end Sys2Proof.Machine
end

