-- ==== Sys2Proof/Laws/Maps.lean ====
section
/-! SUPPORT. Sparse tables: reading after writing, and what a change of a block, weave or fibre shows to each reader. -/
namespace Sys2Proof.Machine

/-! ### Tables -/

@[simp] theorem mget_mput_self {α : Type} (m : Map α) (n : Nat) (v : α) : mget (mput m n v) n = some v := by
  induction m with
  | nil => simp [mput, mget]
  | cons e r ih =>
    obtain ⟨k, w⟩ := e
    unfold mput
    split
    · simp [mget]
    · split
      · simp [mget]
      · rename_i h _
        simp [mget, ih, Ne.symm h]

@[simp] theorem mget_mput_ne {α : Type} (m : Map α) {n j : Nat} (v : α) (h : j ≠ n) : mget (mput m n v) j = mget m j := by
  induction m with
  | nil => simp [mput, mget, Ne.symm h]
  | cons e r ih =>
    obtain ⟨k, w⟩ := e
    unfold mput
    split
    · rename_i e; subst e; simp [mget, Ne.symm h]
    · split
      · simp [mget, Ne.symm h]
      · by_cases hk : k = j <;> simp [mget, ih, hk]

theorem mget_mput {α : Type} (m : Map α) (n j : Nat) (v : α) : mget (mput m n v) j = if j = n then some v else mget m j := by
  split
  · subst_vars; simp
  · simp [*]

@[simp] theorem mget_mupd_self {α : Type} (m : Map α) (n : Nat) (f : α → α) : mget (mupd m n f) n = (mget m n).map f := by
  unfold mupd
  split <;> simp_all

@[simp] theorem mget_mupd_ne {α : Type} (m : Map α) {n j : Nat} (f : α → α) (h : j ≠ n) : mget (mupd m n f) j = mget m j := by
  unfold mupd
  split <;> simp [*]

theorem mget_mupd {α : Type} (m : Map α) (n j : Nat) (f : α → α) :
    mget (mupd m n f) j = if j = n then (mget m n).map f else mget m j := by
  split
  · subst_vars; simp
  · simp [*]

@[simp] theorem mget_mmap {α : Type} (m : Map α) (f : Nat → α → α) (n : Nat) : mget (mmap m f) n = (mget m n).map (f n) := by
  induction m with
  | nil => rfl
  | cons e r ih =>
    obtain ⟨k, w⟩ := e
    by_cases h : k = n
    · subst h; simp [mmap, mget]
    · simp only [mmap, List.map_cons, mget, h, if_false]; exact ih

@[simp] theorem mget_mdel_self {α : Type} (m : Map α) (n : Nat) : mget (mdel m n) n = none := by
  induction m with
  | nil => rfl
  | cons e r ih =>
    obtain ⟨k, w⟩ := e
    by_cases h : k = n <;> simp [mdel, mget, h, ih]

@[simp] theorem mget_mdel_ne {α : Type} (m : Map α) {n j : Nat} (h : j ≠ n) : mget (mdel m n) j = mget m j := by
  induction m with
  | nil => rfl
  | cons e r ih =>
    obtain ⟨k, w⟩ := e
    by_cases hk : k = n
    · subst hk; simp [mdel, mget, ih, Ne.symm h]
    · by_cases hj : k = j
      · subst hj; simp [mdel, mget, hk]
      · simp [mdel, mget, hk, hj, ih]

@[simp] theorem mcount_mputCount_self (m : Map Nat) (n v : Nat) : mcount (mputCount m n v) n = v := by
  unfold mputCount mcount
  split <;> simp [*]

@[simp] theorem mcount_mputCount_ne (m : Map Nat) {n j : Nat} (v : Nat) (h : j ≠ n) : mcount (mputCount m n v) j = mcount m j := by
  unfold mputCount mcount
  split <;> simp [*]

@[simp] theorem mput_mput {α : Type} (m : Map α) (n : Nat) (v w : α) : mput (mput m n v) n w = mput m n w := by
  induction m with
  | nil => simp [mput]
  | cons e r ih =>
    obtain ⟨k, x⟩ := e
    by_cases h : n = k
    · subst h; simp [mput]
    · by_cases hl : n < k
      · simp [mput, h, hl]
      · simp [mput, h, hl, ih]

theorem mupd_mupd {α : Type} (m : Map α) (n : Nat) (f g : α → α) : mupd (mupd m n f) n g = mupd m n fun x => g (f x) := by
  unfold mupd
  cases h : mget m n <;> simp [h]

/-! ### Blocks, weaves, fibres -/

theorem State.updBlock_updBlock (s : State) (u : Nat) (f g : Block → Block) :
    (s.updBlock u f).updBlock u g = s.updBlock u fun b => g (f b) := by
  simp [State.updBlock, mupd_mupd]

theorem State.updWeave_updWeave (s : State) (u w : Nat) (f g : Weave → Weave) :
    (s.updWeave u w f).updWeave u w g = s.updWeave u w fun x => g (f x) := by
  simp [State.updWeave, State.updBlock_updBlock, Block.updWeave, mupd_mupd]

@[simp] theorem State.block?_updBlock_self (s : State) (u : Nat) (f : Block → Block) :
    (s.updBlock u f).block? u = (s.block? u).map f := by
  simp [State.block?]

@[simp] theorem State.block?_updBlock_ne (s : State) {u v : Nat} (f : Block → Block) (h : v ≠ u) :
    (s.updBlock u f).block? v = s.block? v := by
  simp [State.block?, h]

theorem State.weave?_updWeave (s : State) (u w v x : Nat) (f : Weave → Weave) :
    (s.updWeave u w f).weave? v x = if v = u ∧ x = w then (s.weave? u w).map f else s.weave? v x := by
  unfold State.weave? State.updWeave
  by_cases hv : v = u
  · subst hv
    simp only [State.block?_updBlock_self, true_and]
    cases s.block? v with
    | none => simp
    | some b => by_cases hx : x = w <;> simp [Block.updWeave, hx]
  · simp [hv]

@[simp] theorem State.weave?_updWeave_self (s : State) (u w : Nat) (f : Weave → Weave) :
    (s.updWeave u w f).weave? u w = (s.weave? u w).map f := by
  simp [State.weave?_updWeave]

theorem State.fibre?_updFibre (s : State) (u w sl v x sm : Nat) (f : Fibre → Fibre) :
    (s.updFibre u w sl f).fibre? v x sm = if v = u ∧ x = w ∧ sm = sl then (s.fibre? u w sl).map f else s.fibre? v x sm := by
  unfold State.fibre? State.updFibre
  rw [State.weave?_updWeave]
  by_cases h : v = u ∧ x = w
  · obtain ⟨rfl, rfl⟩ := h
    simp only [and_self, if_true, true_and]
    cases s.weave? v x with
    | none => simp
    | some y => by_cases hs : sm = sl <;> simp [Weave.updFibre, hs]
  · have h' : ¬(v = u ∧ x = w ∧ sm = sl) := fun e => h ⟨e.1, e.2.1⟩
    simp [h, h']

@[simp] theorem State.fibre?_updFibre_self (s : State) (u w sl : Nat) (f : Fibre → Fibre) :
    (s.updFibre u w sl f).fibre? u w sl = (s.fibre? u w sl).map f := by
  simp [State.fibre?_updFibre]

@[simp] theorem State.stream?_updStream_self (s : State) (u : Nat) (f : Stream → Stream) :
    (s.updStream u f).stream? u = (s.stream? u).map f := by
  unfold State.stream? State.updStream
  simp only [State.block?_updBlock_self]
  cases s.block? u <;> simp [Block.updStream]

theorem State.weave?_updFibre (s : State) (u w sl v x : Nat) (f : Fibre → Fibre) :
    (s.updFibre u w sl f).weave? v x = if v = u ∧ x = w then (s.weave? u w).map (fun y => y.updFibre sl f) else s.weave? v x :=
  State.weave?_updWeave ..

/-! ### Cores, dies, zones, regions -/

@[simp] theorem State.core_updCore_self (s : State) (c : Nat) (f : Core → Core) : (s.updCore c f).core c = f (s.core c) := by
  simp [State.core]
@[simp] theorem State.die_updDie_self (s : State) (d : Nat) (f : Die → Die) : (s.updDie d f).die d = f (s.die d) := by
  simp [State.die]
@[simp] theorem State.zone_updZone_self (s : State) (z : Nat) (f : Zone → Zone) : (s.updZone z f).zone z = f (s.zone z) := by
  simp [State.zone]
@[simp] theorem State.region_updRegion_self (s : State) (r : Nat) (f : Region → Region) : (s.updRegion r f).region r = f (s.region r) := by
  simp [State.region, State.updRegion]
@[simp] theorem State.core_updCore_ne (s : State) {c d : Nat} (f : Core → Core) (h : d ≠ c) : (s.updCore c f).core d = s.core d := by
  simp [State.core, h]
@[simp] theorem State.die_updDie_ne (s : State) {c d : Nat} (f : Die → Die) (h : d ≠ c) : (s.updDie c f).die d = s.die d := by
  simp [State.die, h]
@[simp] theorem State.region_updRegion_ne (s : State) {c d : Nat} (f : Region → Region) (h : d ≠ c) :
    (s.updRegion c f).region d = s.region d := by
  simp [State.region, State.updRegion, h]
@[simp] theorem State.ctx?_updCtx_self (s : State) (c : Nat) (f : Ctx → Ctx) : (s.updCtx c f).ctx? c = (s.ctx? c).map f := by
  simp [State.ctx?]

end Sys2Proof.Machine
end

