-- ==== Sys2Proof/Laws/Issue.lean ====
section
/-! SUPPORT. What the issue of an instruction comes to when nothing stands in its way, and how an instruction without traps and
transfers ends. -/
namespace Sys2Proof.Machine

theorem readyFib_cases {i : Instr} {s : State} {k : Iss} (h : readyFib i s = some k) :
    ∃ u w blk x b, s.focus = .weave u w ∧ s.block? u = some blk ∧ s.weave? u w = some x ∧ x.curBatch = some b
      ∧ k = fibIss s u w x b i.size i.guard ∧ b.entry = false ∧ x.ss = false
      ∧ (i.longLat && !k.acts.isEmpty && decide (k.markOf i < 12) && decide (63 ≤ s.markCount u (some w) (k.markOf i))) = false
      ∧ k.acts ≠ [] ∧ (∀ a ∈ k.acts, issueCheck s k i blk.hdr a = none)
      ∧ (x.kind = .helper ∨ hasRegs s u x.core (regNeed s i k.acts) = true) ∧ (blk.chk && i.inLane) = false
      ∧ entryWaits s x.core i k.acts = false := by
  unfold readyFib at h
  split at h
  · rename_i u w hf
    split at h
    · rename_i blk x hb hx
      split at h
      · rename_i b hc
        simp only at h
        split at h
        · rename_i hg
          injection h with h
          subst h
          simp only [Bool.and_eq_true, Bool.not_eq_true', List.all_eq_true, Bool.or_eq_true, Option.isNone_iff_eq_none] at hg
          obtain ⟨⟨⟨⟨⟨⟨⟨h1, h2⟩, h3⟩, h4⟩, h5⟩, h8⟩, h6⟩, h7⟩ := hg
          refine ⟨u, w, blk, x, b, hf, hb, hx, hc, rfl, h1, h2, ?_, ?_, h5, ?_, h7, h8⟩
          · rw [h4]; simpa using h3
          · intro e; rw [e] at h4; simp at h4
          · rcases h6 with h6 | h6
            · exact .inl (by simpa using h6)
            · exact .inr h6
        · cases h
      · cases h
    · cases h
  · cases h

theorem relieve_hasRegs {s : State} {u c n : Nat} {w : Option Nat} (h : hasRegs s u c n = true) (fuel : Nat) : relieve s u w c n fuel = (s, true) := by
  cases fuel <;> simp [relieve, h]

/-- An instruction that is ready runs its own effect and ends. -/
theorem issue_readyFib {i : Instr} {s : State} {k : Iss} (h : readyFib i s = some k) (body : Iss → State → Done) :
    issue i s body = .next (finish (body k s).st k k.w (body k s)) := by
  obtain ⟨u, w, blk, x, b, hf, hb, hx, hc, rfl, h1, -, h3, h4, h5, h6, h7, h8⟩ := readyFib_cases h
  have hgood : ((fibIss s u w x b i.size i.guard).acts.map fun a => (a, issueCheck s (fibIss s u w x b i.size i.guard) i blk.hdr a)).filterMap
      (fun c => if c.2.isNone then some c.1 else none) = (fibIss s u w x b i.size i.guard).acts := by
    rw [List.filterMap_map]
    conv_rhs => rw [← List.filterMap_some (l := (fibIss s u w x b i.size i.guard).acts)]
    apply List.filterMap_congr
    intro a ha
    simp [h5 a ha]
  have hbad : ((fibIss s u w x b i.size i.guard).acts.map fun a => (a, issueCheck s (fibIss s u w x b i.size i.guard) i blk.hdr a)).filterMap
      (fun c => c.2.map fun e => (fibIss s u w x b i.size i.guard).trapHere c.1 e 0 0) = [] := by
    rw [List.filterMap_map, List.filterMap_eq_nil_iff]
    intro a ha
    simp [h5 a ha]
  have hroom : (if x.kind == .helper then (s, true) else relieve s u (some w) x.core
      (regNeed s i (fibIss s u w x b i.size i.guard).acts) 64) = (s, true) := by
    rcases h6 with h6 | h6
    · simp [h6]
    · split
      · rfl
      · exact relieve_hasRegs h6 64
  have hne : (fibIss s u w x b i.size i.guard).acts.isEmpty = false := by
    rw [List.isEmpty_eq_false_iff]; exact h4
  unfold issue
  simp only [hf, hb, hx, hc]
  unfold issueFib
  simp only [h1, Bool.false_eq_true, if_false, hgood, hbad, hroom, hne, h7, h8, checkedIssue, Bool.not_false, if_true, List.nil_append, Bool.not_true]
  simp only [hne, Bool.not_false] at h3
  split
  · rename_i hm; simp_all
  · rfl

/-! ### How an instruction without traps, transfers and waits ends -/

theorem Target.join_self (t : Target) (sl : Nat) : t.join t sl = t := by
  cases t with
  | mk pc seta setb mac skip wd0 entry => cases mac <;> simp [Target.join]

theorem addTarget_same (t : Target) (l : List Nat) (m : List Nat) :
    l.foldl (fun r sl => addTarget t false sl r) [(t, false, m)] = [(t, false, m ++ l)] := by
  induction l generalizing m with
  | nil => simp
  | cons a r ih => simp [addTarget, Target.join_self, ih]

/-- Without transfers every fibre goes on at one place. -/
theorem targets_fall (k : Iss) (d : Done) (hm : d.moves = []) {l : List Nat} (hl : l ≠ []) :
    targets k d l = [(k.fall d.wd0, false, l)] := by
  cases l with
  | nil => exact absurd rfl hl
  | cons a r => simp [targets, hm, addTarget, addTarget_same]

theorem Weave.settle_of_runnable {x : Weave} {b : Batch} (base : Option Nat) (h : x.curBatch = some b) (hr : b.runnable = true) :
    x.settle base = x := by
  simp [Weave.settle, h, hr]

theorem curBatch_some {x : Weave} {b : Batch} (h : x.curBatch = some b) : ∃ i, x.cur = some i ∧ x.batches[i]? = some b := by
  unfold Weave.curBatch at h
  cases hc : x.cur with
  | none => simp [hc] at h
  | some i => exact ⟨i, rfl, by simpa [hc] using h⟩

theorem splice_one {x : Weave} {i : Nat} {b : Batch} (hi : i < x.batches.length) (hc : x.cur = some i) :
    ({ x.splice i [b] with cur := some i } : Weave) = { x with batches := x.batches.set i b } := by
  simp [Weave.splice, hc, List.set_eq_take_append_cons_drop, hi]

theorem updWeave_const {s : State} {u w : Nat} {x : Weave} (hx : s.weave? u w = some x) (f : Weave → Weave) :
    (s.updWeave u w fun _ => f x) = s.updWeave u w f := by
  unfold State.weave? State.block? at hx
  cases hb : mget s.blocks u with
  | none => simp [hb] at hx
  | some b =>
    simp only [hb, Option.bind_some] at hx
    simp [State.updWeave, State.updBlock, mupd, hb, Block.updWeave, hx]

theorem modify_at {α : Type} {l : List α} {i : Nat} {a : α} (h : l[i]? = some a) (f : α → α) : l.modify i f = l.set i (f a) := by
  induction l generalizing i with
  | nil => simp at h
  | cons x r ih =>
    cases i with
    | zero => simp at h; simp [h]
    | succ n => simp at h; simp [ih h]

theorem cursor_weave {s : State} {u w i : Nat} {b : Batch} {ss : Bool} (h : s.cursor u w = some (i, b, ss)) :
    ∃ x, s.weave? u w = some x ∧ x.cur = some i ∧ x.batches[i]? = some b ∧ x.curBatch = some b ∧ x.ss = ss := by
  unfold State.cursor at h
  cases hx : s.weave? u w with
  | none => simp [hx] at h
  | some x =>
    simp only [hx, Option.bind_some, Option.map_eq_some_iff, Prod.mk.injEq] at h
    obtain ⟨b', hb, h1, rfl, h3⟩ := h
    obtain ⟨j, hj, hbj⟩ := curBatch_some hb
    rw [hj, Option.getD_some] at h1
    subst h1
    exact ⟨x, rfl, hj, hbj, hb, h3⟩

/-- The weave with its current batch behind an instruction. -/
theorem goes_cur {x : Weave} {i : Nat} {b c : Batch} {t : Nat} (hc : x.cur = some i) (hb : x.batches[i]? = some b) :
    ({ x with batches := x.batches.set i c, lastIssue := t } : Weave).curBatch = some c := by
  have hlt : i < x.batches.length := by
    rcases Nat.lt_or_ge i x.batches.length with h | h
    · exact h
    · rw [List.getElem?_eq_none h] at hb; cases hb
  simp [Weave.curBatch, hc, hlt]

theorem lt_of_batch {x : Weave} {i : Nat} {b : Batch} (hb : x.batches[i]? = some b) : i < x.batches.length := by
  rcases Nat.lt_or_ge i x.batches.length with h | h
  · exact h
  · rw [List.getElem?_eq_none h] at hb; cases hb

/-- The members of `insertKey` lists. -/
theorem mem_insertKey {k p : Nat × Nat} {l : List (Nat × Nat)} (h : p ∈ insertKey k l) : p = k ∨ p ∈ l := by
  induction l with
  | nil => simpa [insertKey] using h
  | cons a r ih =>
    unfold insertKey at h
    split at h
    · simpa using h
    · rcases List.mem_cons.mp h with h | h
      · exact .inr (h ▸ List.mem_cons_self ..)
      · rcases ih h with h | h
        · exact .inl h
        · exact .inr (List.mem_cons_of_mem _ h)

/-- Every index that `runnables` lists is a runnable batch. -/
theorem runnables_spec {x : Weave} {base excl : Option Nat} {j : Nat} (h : j ∈ x.runnables base excl) :
    ∃ b, x.batches[j]? = some b ∧ b.runnable = true := by
  unfold Weave.runnables at h
  have key : ∀ (l : List Nat) (acc : List (Nat × Nat)), (∀ p ∈ acc, ∃ b, x.batches[p.2]? = some b ∧ b.runnable = true) →
      ∀ p ∈ l.foldl (fun l i => match x.batches[i]? with
        | some b => if b.runnable && some i != excl then insertKey (rotKey base b.low, i) l else l
        | none => l) acc, ∃ b, x.batches[p.2]? = some b ∧ b.runnable = true := by
    intro l
    induction l with
    | nil => intro acc ha; exact ha
    | cons i r ih =>
      intro acc ha
      refine ih _ ?_
      beta_reduce
      split
      · rename_i b hb
        split
        · rename_i hr
          intro p hp
          rcases mem_insertKey hp with rfl | hp
          · exact ⟨b, hb, (Bool.and_eq_true_iff.mp hr).1⟩
          · exact ha p hp
        · exact ha
      · exact ha
  obtain ⟨p, hp, rfl⟩ := List.mem_map.mp h
  exact key _ [] (fun p hp => absurd hp (List.not_mem_nil)) p hp

/-- Behind a switch point a runnable batch is current, as before it. -/
theorem switch_runnable {x : Weave} {b : Batch} (h : x.curBatch = some b) (hr : b.runnable = true) :
    ∃ c, x.switch.curBatch = some c ∧ c.runnable = true := by
  obtain ⟨i, hi, hbi⟩ := curBatch_some h
  unfold Weave.switch
  simp only [hi, h]
  split
  · exact ⟨b, h, hr⟩
  · rename_i l hl
    have hne : x.runnables (some b.low) (some i) ≠ [] := fun e => hl e
    have hlen : 0 < (x.runnables (some b.low) (some i)).length := List.length_pos_iff.mpr hne
    have hlt := Nat.mod_lt (lfsrStep x.lfsr).toNat hlen
    have hm : nth (x.runnables (some b.low) (some i)) ((lfsrStep x.lfsr).toNat % (x.runnables (some b.low) (some i)).length)
        ∈ x.runnables (some b.low) (some i) := by
      unfold nth
      rw [List.getElem?_eq_getElem hlt, Option.getD_some]
      exact List.getElem_mem hlt
    obtain ⟨c, hc, hcr⟩ := runnables_spec hm
    exact ⟨c, by simpa [Weave.curBatch] using hc, hcr⟩

theorem switch_lastIssue (x : Weave) (t : Nat) : ({ x with lastIssue := t } : Weave).switch = { x.switch with lastIssue := t } := by
  have h1 : ({ x with lastIssue := t } : Weave).curBatch = x.curBatch := rfl
  have h2 : ∀ p q, ({ x with lastIssue := t } : Weave).runnables p q = x.runnables p q := fun _ _ => rfl
  unfold Weave.switch
  rw [h1]
  simp only [h2]
  rcases hc : x.cur with _ | i
  · simp only [hc]
  · rcases hb : x.curBatch with _ | b
    · simp only [hc]
    · simp only [hc]
      rcases x.runnables (some b.low) (some i) with _ | ⟨a, l⟩ <;> simp only [hc]

/-- An instruction that neither traps, transfers, waits nor ends a fibre: its batch goes on behind it, and nothing else of the state after
its effect changes but the time of the weave's last issue and, at a switch point, the choice of the batch. -/
theorem finish_after {s : State} {k : Iss} {d : Done} {i : Nat} {b : Batch} (hx : s.cursor k.uid k.w = some (i, b, false))
    (hne : b.members ≠ []) (ht : d.traps = []) (hm : d.moves = []) (hg : d.gone = []) (hw : d.how = .go) (ha : k.acts ≠ []) :
    finish s k k.w d = if d.sw then k.afterSwitch d.wd0 s else k.after d.wd0 s := by
  obtain ⟨x, hx, hi, hbi, hb, hss⟩ := cursor_weave hx
  have hlt := lt_of_batch hbi
  have hrest : (b.members.filter fun m => !([] : List Nat).contains m).filter (fun m => !([] : List Trp).any fun t => t.who.slot = m)
      = b.members := by simp
  have hcont : (causesOf ([] : List Trp)) = [] := rfl
  have hparts : trapParts s k b d = [] := by simp [trapParts, ht, hcont]
  have hbe : b.members.isEmpty = false := by rw [List.isEmpty_eq_false_iff]; exact hne
  have hae : k.acts.isEmpty = false := by rw [List.isEmpty_eq_false_iff]; exact ha
  have hafter : k.after d.wd0 s = s.updWeave k.uid k.w fun _ =>
      { x with batches := x.batches.set i (b.at b.members (k.fall d.wd0) b.wd), lastIssue := s.clock } := by
    unfold Iss.after
    rw [← updWeave_const hx]
    simp only [hi, Option.getD_some, modify_at hbi]
  have hrun : (b.at b.members (k.fall d.wd0) b.wd).runnable = true := rfl
  unfold finish
  simp only [hx, hi, hb, ht, hm, hg, hw]
  rw [hrest]
  simp only [hcont, hparts, List.map_nil, List.nil_append, List.any_nil, Bool.and_false, Bool.or_false, List.foldl_nil,
    List.isEmpty_nil, Bool.and_true, hss, Bool.false_eq_true, if_false]
  rw [targets_fall k d hm hne]
  simp only [hbe, Bool.and_false, Bool.false_and, if_false, List.map_cons, List.map_nil, List.length_singleton, Nat.lt_irrefl, decide_false, Bool.false_eq_true,
    List.isEmpty_cons, Bool.not_false, if_true]
  rw [splice_one hlt hi]
  simp only [Bool.and_self, if_true, hae, Bool.not_false, Bool.and_true]
  by_cases hsw : (d.sw && k.mac.isNone) = true
  · obtain ⟨hs1, hs2⟩ := Bool.and_eq_true_iff.mp hsw
    have hcur : ({ x with batches := x.batches.set i (b.at b.members (k.fall d.wd0) b.wd) } : Weave).curBatch
        = some (b.at b.members (k.fall d.wd0) b.wd) := by
      simp [Weave.curBatch, hi, hlt]
    obtain ⟨c, hc, hcr⟩ := switch_runnable hcur hrun
    simp only [hs1, hs2, Bool.and_self, if_true]
    rw [Weave.settle_of_runnable _ hc hcr]
    generalize hy : ({ x with batches := x.batches.set i (b.at b.members (k.fall d.wd0) b.wd) } : Weave).switch = y at hc
    have hc2 : ({ y with lastIssue := s.clock } : Weave).curBatch = some c := hc
    simp only [Bool.false_and, Bool.false_eq_true, if_false, State.updWeave_updWeave, Weave.settle_of_runnable _ hc2 hcr]
    unfold Iss.afterSwitch
    rw [if_pos hs2, hafter, State.updWeave_updWeave]
    congr 1
    funext _
    rw [← hy]
    exact (switch_lastIssue _ s.clock).symm
  · have hsw' : (d.sw && k.mac.isNone) = false := Bool.eq_false_iff.mpr hsw
    rw [hsw']
    simp only [Bool.false_eq_true, if_false]
    have hcur : ({ x with batches := x.batches.set i (b.at b.members (k.fall d.wd0) b.wd) } : Weave).curBatch
        = some (b.at b.members (k.fall d.wd0) b.wd) := by
      simp [Weave.curBatch, hi, hlt]
    rw [Weave.settle_of_runnable _ hcur hrun]
    have h2 : ({ x with batches := x.batches.set i (b.at b.members (k.fall d.wd0) b.wd), lastIssue := s.clock } : Weave).curBatch
        = some (b.at b.members (k.fall d.wd0) b.wd) := goes_cur hi hbi
    simp only [Bool.false_and, Bool.false_eq_true, if_false, State.updWeave_updWeave, Weave.settle_of_runnable _ h2 hrun]
    rw [← hafter]
    cases hs : d.sw with
    | false => rfl
    | true =>
      have hm2 : k.mac.isNone = false := by simpa [hs] using hsw'
      simp [Iss.afterSwitch, hm2]

/-- The batch of a ready instruction is the current one. -/
theorem readyFib_cursor {i : Instr} {s : State} {k : Iss} (h : readyFib i s = some k) :
    ∃ n b, s.cursor k.uid k.w = some (n, b, false) ∧ b.members ≠ [] ∧ k.acts ≠ [] := by
  obtain ⟨u, w, blk, x, b, hf, hb, hx, hc, rfl, h1, hss, h3, h4, h5, h6, h7⟩ := readyFib_cases h
  refine ⟨x.cur.getD 0, b, ?_, ?_, h4⟩
  · have : (fibIss s u w x b i.size i.guard).w = w := rfl
    rw [this]
    simp [fibIss, State.cursor, hx, hc, hss]
  · intro e
    apply h4
    simp [fibIss, e]

/-- A ready instruction whose effect leaves the current batch as it is completes: its batch goes on behind it. -/
theorem completes {i : Instr} {s : State} {k : Iss} (h : readyFib i s = some k) {body : Iss → State → Done} {d : State} {sw wd0 : Bool}
    (hd : body k s = { st := d, sw, wd0 }) (hc : d.cursor k.uid k.w = s.cursor k.uid k.w) :
    issue i s body = .next (if sw then k.afterSwitch wd0 d else k.after wd0 d) := by
  obtain ⟨n, b, h1, h2, h3⟩ := readyFib_cursor h
  rw [issue_readyFib h, hd, finish_after (d := { st := d, sw, wd0 }) (hc.trans h1) h2 rfl rfl rfl rfl h3]

theorem cursor_of_sched {s d : State} {u w : Nat} (h : d.sched u w = s.sched u w) : d.cursor u w = s.cursor u w := by
  unfold State.sched at h
  unfold State.cursor
  cases hd : d.weave? u w <;> cases hs : s.weave? u w <;> simp only [hd, hs, Option.map_none, Option.map_some, reduceCtorEq] at h
  · rfl
  · injection h with h
    rename_i x y
    have e1 : x.batches = y.batches := congrArg Sched.batches h
    have e2 : x.cur = y.cur := congrArg Sched.cur h
    have e3 : x.ss = y.ss := congrArg Sched.ss h
    simp [Weave.curBatch, e1, e2, e3]

/-! ### Both sides -/

theorem readySeq_cases {i : Instr} {s : State} {k : Iss} (h : readySeq i s = some k) :
    ∃ u blk x, s.focus = .stream u ∧ s.block? u = some blk ∧ s.stream? u = some x ∧ k = seqIss s u x i.size i.guard ∧ x.entry = false
      ∧ x.ss = false ∧ k.acts = [.seq u] ∧ (x.capture.isSome && !i.isCommand) = false
      ∧ (i.longLat && decide (k.markOf i < 12) && decide (63 ≤ s.markCount u none (k.markOf i))) = false
      ∧ issueCheck s k i blk.hdr (.seq u) = none ∧ entryWaits s blk.core i [.seq u] = false := by
  unfold readySeq at h
  split at h
  · rename_i u hf
    split at h
    · rename_i blk x hb hx
      simp only at h
      split at h
      · rename_i hg
        injection h with h
        subst h
        simp only [Bool.and_eq_true, Bool.not_eq_true', Option.isNone_iff_eq_none] at hg
        obtain ⟨⟨⟨⟨⟨⟨h1, h2⟩, h3⟩, h4⟩, h5⟩, h6⟩, h7⟩ := hg
        refine ⟨u, blk, x, hf, hb, hx, rfl, h1, h2, ?_, h4, h5, h6, h7⟩
        unfold seqIss at h3 ⊢
        simp only at h3 ⊢
        split
        · rfl
        · rename_i hn; rw [if_neg hn] at h3; simp at h3
      · cases h
    · cases h
  · cases h

/-- An instruction that is ready on the stream runs its own effect and ends. -/
theorem issue_readySeq {i : Instr} {s : State} {k : Iss} (h : readySeq i s = some k) (body : Iss → State → Done) :
    issue i s body = .next (finishSeq (body k s).st k (body k s)) := by
  obtain ⟨u, blk, x, hf, hb, hx, rfl, h1, h2, h3, h4, h5, h6, h7⟩ := readySeq_cases h
  unfold issue
  simp only [hf, hb, hx]
  unfold issueSeq
  have h3' : (seqIss s u x i.size i.guard).acts.isEmpty = false := by rw [h3]; rfl
  simp only [h1, h3', h4, h5, h6, h7, Bool.false_eq_true, if_false]

/-- What the agent's own data must still be after an instruction's effect, so that it goes on behind the instruction. -/
theorem finishSeq_after {k : Iss} {d : State} {sw wd0 : Bool} (hm : k.mac = none) (ss : k.weave = none)
    (hs : ((d.stream? k.uid).map Stream.ss).getD false = false) : finishSeq d k { st := d, sw, wd0 } = k.ends sw wd0 d := by
  unfold finishSeq Iss.ends Iss.afterSeq
  simp only [ss, Option.isNone_none, if_true, Iss.fall, hm]
  rw [State.stream?_updStream_self]
  cases hx : d.stream? k.uid with
  | none => rfl
  | some x =>
    rw [hx] at hs
    simp only [Option.map_some, Option.getD_some] at hs ⊢
    simp only [hs, Bool.false_and, Bool.false_eq_true, if_false]
    all_goals congr 1

/-- The agent's place, as the end of an instruction finds it: a weave's current batch, or the stream's single step. -/
def Iss.place (k : Iss) (s : State) : Option (Nat × Batch × Bool) × Bool :=
  match k.weave with
  | some w => (s.cursor k.uid w, false)
  | none => (none, ((s.stream? k.uid).map Stream.ss).getD false)

/-- A ready instruction whose effect leaves its agent's place as it is completes: the agent goes on behind it. -/
theorem completes_ready {i : Instr} {s : State} {k : Iss} (h : ready i s = some k) {body : Iss → State → Done} {d : State} {sw wd0 : Bool}
    (hd : body k s = { st := d, sw, wd0 }) (hc : k.place d = k.place s) : issue i s body = .next (k.ends sw wd0 d) := by
  unfold ready at h
  split at h
  · obtain ⟨u, blk, x, hf, hb, hx, hk, h1, h2, h3, h4, h5, h6⟩ := readySeq_cases h
    have hw : k.weave = none := by rw [hk]; rfl
    have hu : k.uid = u := by rw [hk]; rfl
    rw [issue_readySeq h, hd, finishSeq_after (by rw [hk]; rfl) hw]
    simp only [Iss.place, hw, Prod.mk.injEq, true_and] at hc
    rw [hc, hu, hx]
    simp [h2]
  · obtain ⟨u, w, blk, x, b, hf, hb, hx, hcu, hk, -⟩ := readyFib_cases h
    have hw : k.weave = some k.w := by rw [hk]; rfl
    simp only [Iss.place, hw, Prod.mk.injEq, and_true] at hc
    rw [completes h hd hc, Iss.ends, hw]
    rfl

/-! ### Miss entries and cycles -/

/-- An instruction whose target fetches wait for no miss entry ends as its meaning says. -/
theorem fetchEntry_of_held {k : Iss} {s : State} {d : Done} (h : fetchesHeld k s d.st) : fetchEntry k s d = d := by
  unfold fetchEntry
  rw [if_neg]
  simpa [fetchesHeld] using h

/-- With an entry free no fetch waits. -/
theorem fetchesHeld_of_room {k : Iss} {s t : State} (h : ∀ a ∈ k.acts, missesFull s (s.coreOf a) = false) : fetchesHeld k s t := fun a ha => by
  simp [fetchWaits, h a ha]

/-- At the start of a cycle of an unstretched clock the counter shows panel time. -/
theorem cycleTime_of_start {s : State} {d : Nat} (hc : s.clock % 6 = 0) (hs : (s.region (regionOf d)).stretch = false) : s.cycleTime d = s.time := by
  unfold State.cycleTime State.inCycle State.rate
  by_cases hm : s.service.mode = 1 <;> simp [hc, hs, hm]

/-! ### What a `fence.far` holds -/

/-- A batch that is not held at a `fence.far` is left alone at the end of a step. -/
theorem pollBatch_of_not_far {s : State} {u w i : Nat} {x : Weave} {b : Batch} (hx : s.weave? u w = some x) (hb : x.batches[i]? = some b)
    (h : ∀ q l p, b.state ≠ .wait (.far q l p)) : pollBatch s u w i = s := by
  unfold pollBatch
  simp only [hx, Option.bind_some, hb, Option.map_some]
  split
  · rename_i q l p hs
    injection hs with hs
    exact absurd hs (h q l p)
  · rfl

/-- A stream that is not held at a `fence.far` is left alone at the end of a step. -/
theorem pollStream_of_not_far {s : State} {u : Nat} (h : ∀ x, s.stream? u = some x → ∀ q l p, x.state ≠ .wait (.far q l p)) : pollStream s u = s := by
  unfold pollStream
  split
  · rename_i q l p hs
    obtain ⟨x, hx, hs⟩ := Option.map_eq_some_iff.mp hs
    exact absurd hs (h x hx q l p)
  · rfl

end Sys2Proof.Machine
end

