-- ==== Sys2Proof/Laws/Operands.lean ====
section
/-! SUPPORT. What reading, releasing and writing registers and predicates change, and what they leave. -/
namespace Sys2Proof.Machine

/-! ### What is kept -/

theorem keeps.refl (u : Nat) (s : State) : keeps u s s := ⟨rfl, fun _ _ => rfl, rfl, fun _ => rfl, fun _ _ _ => rfl⟩

theorem keeps.trans {u : Nat} {s t r : State} (h : keeps u s t) (g : keeps u t r) : keeps u s r where
  panel := by rw [g.panel, h.panel]
  others v hv := (g.others v hv).trans (h.others v hv)
  block := g.block.trans h.block
  weaves y := (g.weaves y).trans (h.weaves y)
  fibres v y sl := (g.fibres v y sl).trans (h.fibres v y sl)

theorem keeps_updWeave {s : State} {u w : Nat} {f : Weave → Weave} (hf : ∀ x, (f x).rest = x.rest)
    (hg : ∀ x sl, (mget (f x).fibres sl).map Fibre.rest = (mget x.fibres sl).map Fibre.rest) : keeps u s (s.updWeave u w f) where
  panel := rfl
  others v hv := State.block?_updBlock_ne s _ hv
  block := by
    unfold State.updWeave
    rw [State.block?_updBlock_self]
    cases s.block? u <;> rfl
  weaves y := by
    rw [State.weave?_updWeave]
    split
    · rename_i h
      rw [h.2]
      cases s.weave? u w <;> simp [hf]
    · rfl
  fibres v y sl := by
    unfold State.fibre?
    rw [State.weave?_updWeave]
    split
    · rename_i h
      obtain ⟨rfl, rfl⟩ := h
      cases s.weave? v y <;> simp [hg]
    · rfl

theorem keeps_updFibre {s : State} {u w sl : Nat} {f : Fibre → Fibre} (hf : ∀ x, (f x).rest = x.rest) : keeps u s (s.updFibre u w sl f) := by
  refine keeps_updWeave (fun x => rfl) (fun x sm => ?_)
  unfold Weave.updFibre
  simp only [mget_mupd]
  split
  · rename_i h
    subst h
    cases mget x.fibres sm <;> simp [hf]
  · rfl

theorem keeps_foldl {α : Type} {u : Nat} {f : State → α → State} {l : List α} (hf : ∀ a ∈ l, ∀ s, keeps u s (f s a)) (s : State) :
    keeps u s (l.foldl f s) := by
  induction l generalizing s with
  | nil => exact .refl u s
  | cons a r ih => exact (hf a (List.mem_cons_self ..) s).trans (ih (fun b hb => hf b (List.mem_cons_of_mem _ hb)) _)

theorem keeps_noteDead (s : State) (uid : Nat) (pc : Word) (r : Option (Nat × Nat × Nat)) : keeps uid s (s.noteDead uid pc r) := by
  unfold State.noteDead
  split
  · exact .refl uid s
  · refine keeps_updWeave (fun x => ?_) (fun x sl => ?_) <;> split <;> rfl

theorem keeps_release (s : State) (a : Actor) (x : Src) : keeps a.uid s (s.release a x) := by
  unfold State.release
  split
  · exact .refl _ s
  · split
    · refine keeps_updFibre (fun f => ?_)
      split <;> rfl
    · exact .refl _ s

theorem keeps_raise (s : State) (a : Actor) (fl : FFlags) : keeps a.uid s (s.raise a fl) := by
  unfold State.raise
  split
  · exact keeps_updWeave (fun x => rfl) (fun x sl => rfl)
  · exact .refl _ s

theorem keeps_writeK (s : State) (u w n : Nat) (v : Word) : keeps u s (s.writeK u w n v) := by
  unfold State.writeK
  split
  · exact .refl u s
  · refine keeps_updWeave (fun x => rfl) (fun x sl => ?_)
    simp only [mget_mmap]
    cases mget x.fibres sl <;> rfl

theorem keeps_consume {u : Nat} (s : State) (pc : Word) {acts : List Actor} (hu : ∀ a ∈ acts, a.uid = u) (srcs : List Src) :
    keeps u s (s.consume pc acts srcs) := by
  unfold State.consume
  refine .trans (t := s.noteAll pc acts srcs) ?_ ?_
  · refine keeps_foldl (fun a ha t => keeps_foldl (fun x _ t => ?_) t) s
    rw [← hu a ha]
    exact keeps_noteDead ..
  · refine keeps_foldl (fun a ha t => keeps_foldl (fun x _ t => ?_) t) _
    rw [← hu a ha]
    exact keeps_release ..

/-- A write to a register that no binding holds stores the value; an earlier result for it is dropped. -/
theorem writeW_unbound {s : State} {u w sl n : Nat} {v : Word} {f : Fibre} (hf : s.fibre? u w sl = some f) (hb : mget f.binds n = none) :
    s.writeW (.fib u w sl) n v
      = s.updFibre u w sl fun f => { f with pend := clearPend f.pend (.w n), regs := mput f.regs n (.live v) } := by
  simp only [State.writeW, hf, hb]
  unfold State.updFibre
  rw [State.updWeave_updWeave]
  congr 1
  funext x
  simp [Weave.updFibre, mupd_mupd]

/-! ### What the scheduler acts on -/

theorem sched_updFibre (s : State) (u w sl v x : Nat) (f : Fibre → Fibre) : (s.updFibre u w sl f).sched v x = s.sched v x := by
  unfold State.sched
  rw [State.weave?_updFibre]
  split
  · rename_i h
    obtain ⟨rfl, rfl⟩ := h
    cases s.weave? v x <;> rfl
  · rfl

theorem sched_updWeave {s : State} {u w : Nat} {f : Weave → Weave} (hf : ∀ x, (f x).sched = x.sched) (v x : Nat) :
    (s.updWeave u w f).sched v x = s.sched v x := by
  unfold State.sched
  rw [State.weave?_updWeave]
  split
  · rename_i h
    obtain ⟨rfl, rfl⟩ := h
    cases s.weave? v x <;> simp [hf]
  · rfl

theorem sched_foldl {α : Type} (f : State → α → State) (u w : Nat) (hf : ∀ s a, (f s a).sched u w = s.sched u w) (l : List α) (s : State) :
    (l.foldl f s).sched u w = s.sched u w := by
  induction l generalizing s with
  | nil => rfl
  | cons a r ih => rw [List.foldl_cons, ih, hf]

theorem sched_noteDead (s : State) (uid : Nat) (pc : Word) (r : Option (Nat × Nat × Nat)) (u w : Nat) :
    (s.noteDead uid pc r).sched u w = s.sched u w := by
  unfold State.noteDead
  split
  · rfl
  · refine sched_updWeave (fun x => ?_) u w
    split <;> rfl

theorem sched_release (s : State) (a : Actor) (x : Src) (u w : Nat) : (s.release a x).sched u w = s.sched u w := by
  unfold State.release
  split
  · rfl
  · split
    · exact sched_updFibre ..
    · rfl

theorem sched_consume (s : State) (pc : Word) (acts : List Actor) (srcs : List Src) (u w : Nat) :
    (s.consume pc acts srcs).sched u w = s.sched u w := by
  have h : (s.noteAll pc acts srcs).sched u w = s.sched u w :=
    sched_foldl _ u w (fun t a => sched_foldl _ u w (fun t x => sched_noteDead t _ _ _ u w) srcs t) acts s
  rw [← h]
  exact sched_foldl _ u w (fun t a => sched_foldl _ u w (fun t x => sched_release t a x u w) srcs t) acts _

theorem sched_raise (s : State) (a : Actor) (fl : FFlags) (u w : Nat) : (s.raise a fl).sched u w = s.sched u w := by
  unfold State.raise
  split
  · refine sched_updWeave (fun x => ?_) u w
    rfl
  · rfl

theorem sched_writeK (s : State) (u w n : Nat) (v : Word) (y z : Nat) : (s.writeK u w n v).sched y z = s.sched y z := by
  unfold State.writeK
  split
  · rfl
  · refine sched_updWeave (fun x => ?_) y z
    rfl

end Sys2Proof.Machine
end

