-- ==== Sys2Proof/Laws/Lane.lean ====
section
/-! SUPPORT. Registers while an instruction reads, releases and writes: each operation by what it shows of every fibre. -/
namespace Sys2Proof.Machine

/-! ### Fibres -/

theorem fibre?_updWeave_keep {s : State} {u w : Nat} {f : Weave → Weave} (hf : ∀ x, (f x).fibres = x.fibres) (v y sm : Nat) :
    (s.updWeave u w f).fibre? v y sm = s.fibre? v y sm := by
  unfold State.fibre?
  rw [State.weave?_updWeave]
  split
  · rename_i h
    obtain ⟨rfl, rfl⟩ := h
    cases s.weave? v y <;> simp [hf]
  · rfl

theorem fibre?_noteDead (s : State) (uid : Nat) (pc : Word) (r : Option (Nat × Nat × Nat)) (v y sm : Nat) :
    (s.noteDead uid pc r).fibre? v y sm = s.fibre? v y sm := by
  unfold State.noteDead
  split
  · rfl
  · refine fibre?_updWeave_keep (fun x => ?_) v y sm
    split <;> rfl

theorem fibre?_raise (s : State) (a : Actor) (fl : FFlags) (v y sm : Nat) : (s.raise a fl).fibre? v y sm = s.fibre? v y sm := by
  unfold State.raise
  split
  · refine fibre?_updWeave_keep (fun x => ?_) v y sm
    rfl
  · rfl

/-- A fibre after a last use of one of its registers. -/
def Fibre.used (f : Fibre) (x : Src) : Fibre :=
  if x.last && !x.uni then
    (if (mget f.binds x.num.toNat).isSome || (f.isHelper && 16 ≤ x.num.toNat) then f
     else { f with regs := mput f.regs x.num.toNat .dead })
  else f

theorem fibre?_release (s : State) (a : Actor) (x : Src) (v y sm : Nat) :
    (s.release a x).fibre? v y sm = if a = .fib v y sm then (s.fibre? v y sm).map (fun f => f.used x) else s.fibre? v y sm := by
  unfold State.release
  cases a with
  | seq u => simp
  | fib u w sl =>
    by_cases hl : (x.last && !x.uni) = true
    · simp only [hl, if_true]
      rw [State.fibre?_updFibre]
      by_cases h : v = u ∧ y = w ∧ sm = sl
      · obtain ⟨rfl, rfl, rfl⟩ := h
        simp [Fibre.used, hl]
      · have h' : ¬(Actor.fib u w sl = Actor.fib v y sm) := by
          intro e; injection e with e1 e2 e3; exact h ⟨e1.symm, e2.symm, e3.symm⟩
        simp only [h, h', if_false]
    · simp only [hl, if_false, Bool.false_eq_true]
      have : ∀ f : Fibre, f.used x = f := fun f => by simp [Fibre.used, hl]
      split
      · cases s.fibre? v y sm <;> simp [this]
      · rfl

theorem used_binds (f : Fibre) (x : Src) : (f.used x).binds = f.binds := by
  unfold Fibre.used
  split
  · split <;> rfl
  · rfl

theorem used_preds (f : Fibre) (x : Src) : (f.used x).preds = f.preds := by
  unfold Fibre.used
  split
  · split <;> rfl
  · rfl

theorem used_regs (f : Fibre) (x : Src) (n : Nat) (h : ¬(x.last = true ∧ x.uni = false ∧ x.num.toNat = n)) :
    mget (f.used x).regs n = mget f.regs n := by
  unfold Fibre.used
  split
  · rename_i hl
    simp only [Bool.and_eq_true, Bool.not_eq_true'] at hl
    split
    · rfl
    · rw [mget_mput_ne]
      intro e
      exact h ⟨hl.1, hl.2, e.symm⟩
  · rfl

/-- A property of a fibre that last uses keep is kept as an actor's sources are released, and as all are. -/
theorem releaseAll_keeps {α : Type} (p : Fibre → α) (srcs : List Src) (v y sm : Nat)
    (a : Actor) (hp : ∀ x ∈ srcs, ∀ f, a = .fib v y sm → p (f.used x) = p f) (s : State) :
    ((s.releaseAll a srcs).fibre? v y sm).map p = (s.fibre? v y sm).map p := by
  unfold State.releaseAll
  induction srcs generalizing s with
  | nil => rfl
  | cons x r ih =>
    rw [List.foldl_cons, ih (fun x hx => hp x (List.mem_cons_of_mem _ hx)), fibre?_release]
    split
    · rename_i h
      cases s.fibre? v y sm with
      | none => rfl
      | some f => simp [hp x (List.mem_cons_self ..) f h]
    · rfl

theorem fibre?_noteAll (s : State) (pc : Word) (acts : List Actor) (srcs : List Src) (v y sm : Nat) :
    (s.noteAll pc acts srcs).fibre? v y sm = s.fibre? v y sm := by
  unfold State.noteAll
  suffices h : ∀ t : State, (acts.foldl (fun t a => srcs.foldl (fun t x => t.noteDead a.uid pc (s.readSrc a x).2) t) t).fibre? v y sm
      = t.fibre? v y sm from h s
  intro t
  induction acts generalizing t with
  | nil => rfl
  | cons a r ih =>
    rw [List.foldl_cons, ih]
    clear ih
    induction srcs generalizing t with
    | nil => rfl
    | cons x q ih => rw [List.foldl_cons, ih, fibre?_noteDead]

/-- Reading and releasing keep a property of a fibre that its own last uses keep. -/
theorem consume_keeps {α : Type} (p : Fibre → α) (s : State) (pc : Word) (acts : List Actor) (srcs : List Src) (v y sm : Nat)
    (hp : ∀ x ∈ srcs, ∀ f, .fib v y sm ∈ acts → p (f.used x) = p f) :
    ((s.consume pc acts srcs).fibre? v y sm).map p = (s.fibre? v y sm).map p := by
  unfold State.consume
  rw [← fibre?_noteAll s pc acts srcs v y sm]
  generalize s.noteAll pc acts srcs = t
  suffices h : ∀ l : List Actor, (∀ a ∈ l, a ∈ acts) → ∀ t : State,
      ((l.foldl (fun t a => t.releaseAll a srcs) t).fibre? v y sm).map p = (t.fibre? v y sm).map p from h acts (fun _ h => h) t
  intro l hl t
  induction l generalizing t with
  | nil => rfl
  | cons a r ih =>
    rw [List.foldl_cons, ih (fun a ha => hl a (List.mem_cons_of_mem _ ha))]
    exact releaseAll_keeps p srcs v y sm a (fun x hx f e => hp x hx f (e ▸ hl a (List.mem_cons_self ..))) t

/-- A register keeps its value while sources are read and released, unless a last use of it is among them. -/
theorem reg?_consume (s : State) (pc : Word) (acts : List Actor) (srcs : List Src) (v y sm n : Nat)
    (h : .fib v y sm ∈ acts → ∀ x ∈ srcs, ¬(x.last = true ∧ x.uni = false ∧ x.num.toNat = n)) :
    (s.consume pc acts srcs).reg? v y sm n = s.reg? v y sm n := by
  have := consume_keeps (fun f => mget f.regs n) s pc acts srcs v y sm (fun x hx f ha => used_regs f x n (h ha x hx))
  unfold State.reg?
  cases h1 : (s.consume pc acts srcs).fibre? v y sm <;> cases h2 : s.fibre? v y sm <;> simp_all

/-! ### Writing the results of all participants -/

/-- A fibre after a write to a register that no binding holds. -/
def Fibre.wrote (f : Fibre) (n : Nat) (v : Word) : Fibre := { f with pend := clearPend f.pend (.w n), regs := mput f.regs n (.live v) }

theorem fibre?_writeW {s : State} {u w sl n : Nat} {val : Word} (hb : ∀ f, s.fibre? u w sl = some f → mget f.binds n = none) (v y sm : Nat) :
    (s.writeW (.fib u w sl) n val).fibre? v y sm
      = if v = u ∧ y = w ∧ sm = sl then (s.fibre? u w sl).map fun f => f.wrote n val else s.fibre? v y sm := by
  cases hf : s.fibre? u w sl with
  | none =>
    simp only [State.writeW, hf, Option.map_none]
    split
    · rename_i h; obtain ⟨rfl, rfl, rfl⟩ := h; exact hf
    · rfl
  | some f =>
    rw [writeW_unbound hf (hb f hf), State.fibre?_updFibre, hf]
    rfl

theorem keeps_writeW {s : State} {u w sl n : Nat} {val : Word} (hb : ∀ f, s.fibre? u w sl = some f → mget f.binds n = none) :
    keeps u s (s.writeW (.fib u w sl) n val) := by
  cases hf : s.fibre? u w sl with
  | none => simp only [State.writeW, hf]; exact .refl u s
  | some f => rw [writeW_unbound hf (hb f hf)]; exact keeps_updFibre fun _ => rfl

theorem sched_writeW {s : State} {u w sl n : Nat} {val : Word} (hb : ∀ f, s.fibre? u w sl = some f → mget f.binds n = none) (v y : Nat) :
    (s.writeW (.fib u w sl) n val).sched v y = s.sched v y := by
  cases hf : s.fibre? u w sl with
  | none => simp only [State.writeW, hf]
  | some f => rw [writeW_unbound hf (hb f hf)]; exact sched_updFibre ..

/-- What follows each write, such as raising flags, touches no fibre and nothing that the scheduler acts on. -/
structure Quiet (g : State → Actor → State) : Prop where
  fibre : ∀ s a v y sm, (g s a).fibre? v y sm = s.fibre? v y sm
  sched : ∀ s a v y, (g s a).sched v y = s.sched v y
  keeps : ∀ s a, keeps a.uid s (g s a)
  uniform : ∀ s a v y n, (g s a).readK v y n = s.readK v y n

theorem quiet_none : Quiet fun s _ => s := ⟨fun _ _ _ _ _ => rfl, fun _ _ _ _ => rfl, fun _ _ => .refl _ _, fun _ _ _ _ _ => rfl⟩

theorem readK_updWeave {s : State} {u w : Nat} {f : Weave → Weave} (hf : ∀ x, (f x).k = x.k) (v y n : Nat) :
    (s.updWeave u w f).readK v y n = s.readK v y n := by
  unfold State.readK
  rw [State.weave?_updWeave]
  split
  · rename_i h
    obtain ⟨rfl, rfl⟩ := h
    cases s.weave? v y <;> simp [hf]
  · rfl

theorem readK_raise (s : State) (a : Actor) (fl : FFlags) (v y n : Nat) : (s.raise a fl).readK v y n = s.readK v y n := by
  unfold State.raise
  split
  · refine readK_updWeave (fun x => ?_) v y n
    rfl
  · rfl

theorem quiet_raise (fl : Actor → FFlags) : Quiet fun s a => s.raise a (fl a) :=
  ⟨fun _ _ _ _ _ => fibre?_raise .., fun _ _ _ _ => sched_raise .., fun _ _ => keeps_raise .., fun _ _ _ _ _ => readK_raise ..⟩

theorem readK_writeK (s : State) (u w n : Nat) (val : Word) (v y j : Nat) (hx : (s.weave? u w).isSome) :
    (s.writeK u w n val).readK v y j = if n ≠ 0 ∧ v = u ∧ y = w ∧ j = n then val else s.readK v y j := by
  unfold State.writeK
  by_cases hn : n = 0
  · simp [hn]
  · simp only [hn, if_false, ne_eq, not_false_eq_true, true_and]
    unfold State.readK
    rw [State.weave?_updWeave]
    by_cases h : v = u ∧ y = w
    · obtain ⟨rfl, rfl⟩ := h
      cases hw : s.weave? v y with
      | none => simp [hw] at hx
      | some x => by_cases hj : j = n <;> simp [hj]
    · have : ¬(v = u ∧ y = w ∧ j = n) := fun e => h ⟨e.1, e.2.1⟩
      simp [h, this]

theorem keeps.weave_isSome {u : Nat} {s t : State} (h : keeps u s t) (y : Nat) : (t.weave? u y).isSome = (s.weave? u y).isSome := by
  have := h.weaves y
  cases h1 : t.weave? u y <;> cases h2 : s.weave? u y <;> simp_all

/-- The uniform results of the participants of an issue, one after another. -/
def writeAllK (g : State → Actor → State) (u w n : Nat) (val : Actor → Word) (l : List Actor) (t : State) : State :=
  l.foldl (fun t a => g (t.writeK u w n (val a)) a) t

theorem fibre?_writeK_keep {α : Type} (p : Fibre → α) (hp : ∀ f l, p { f with pend := l } = p f) (s : State) (u w n : Nat) (val : Word)
    (v y sm : Nat) : ((s.writeK u w n val).fibre? v y sm).map p = (s.fibre? v y sm).map p := by
  unfold State.writeK
  split
  · rfl
  · unfold State.fibre?
    rw [State.weave?_updWeave]
    split
    · rename_i h
      obtain ⟨rfl, rfl⟩ := h
      cases s.weave? v y with
      | none => rfl
      | some x =>
        simp only [Option.map_some, Option.bind_some, mget_mmap]
        cases mget x.fibres sm <;> simp [hp]
    · rfl

/-- What `writeAllK` does: the register holds the last participant's result, k0 nothing, and every other register keeps its value. -/
theorem writeAllK_spec {g : State → Actor → State} (hg : Quiet g) (u w n : Nat) (val : Actor → Word) (l : List Actor)
    (hl : ∀ a ∈ l, a.uid = u) (t : State) (hx : (t.weave? u w).isSome) :
    keeps u t (writeAllK g u w n val l t) ∧ (∀ v y, (writeAllK g u w n val l t).sched v y = t.sched v y)
      ∧ (∀ v y sm, ((writeAllK g u w n val l t).fibre? v y sm).map Fibre.preds = (t.fibre? v y sm).map Fibre.preds)
      ∧ (∀ v y sm j, (writeAllK g u w n val l t).reg? v y sm j = t.reg? v y sm j)
      ∧ (∀ v y j, (writeAllK g u w n val l t).readK v y j
          = match l.getLast? with
            | some a => if n ≠ 0 ∧ v = u ∧ y = w ∧ j = n then val a else t.readK v y j
            | none => t.readK v y j) := by
  induction l generalizing t with
  | nil => exact ⟨.refl u t, fun _ _ => rfl, fun _ _ _ => rfl, fun _ _ _ _ => rfl, fun _ _ _ => rfl⟩
  | cons a r ih =>
    have ha := hl a (List.mem_cons_self ..)
    have hk1 : keeps u t (g (t.writeK u w n (val a)) a) := (keeps_writeK ..).trans (ha ▸ hg.keeps _ a)
    obtain ⟨i1, i2, i3, i4, i5⟩ := ih (fun a ha => hl a (List.mem_cons_of_mem _ ha)) (g (t.writeK u w n (val a)) a)
      (by rw [hk1.weave_isSome]; exact hx)
    refine ⟨hk1.trans i1, ?_, ?_, ?_, ?_⟩
    · intro v y
      exact (i2 v y).trans ((hg.sched ..).trans (sched_writeK ..))
    · intro v y sm
      refine (i3 v y sm).trans ?_
      rw [hg.fibre]
      exact fibre?_writeK_keep Fibre.preds (fun _ _ => rfl) ..
    · intro v y sm j
      refine (i4 v y sm j).trans ?_
      have := fibre?_writeK_keep (fun f => mget f.regs j) (fun _ _ => rfl) t u w n (val a) v y sm
      unfold State.reg?
      rw [hg.fibre]
      cases h1 : (t.writeK u w n (val a)).fibre? v y sm <;> cases h2 : t.fibre? v y sm <;> simp_all
    · intro v y j
      refine (i5 v y j).trans ?_
      simp only [hg.uniform, readK_writeK t u w n (val a) v y j hx]
      cases hr : r.getLast? with
      | none =>
        have : r = [] := List.getLast?_eq_none_iff.mp hr
        subst this
        simp
      | some b =>
        have : (a :: r).getLast? = some b := by
          rw [List.getLast?_cons, hr]; rfl
        rw [this]
        simp only
        split <;> simp_all

/-! ### Flags -/

theorem keeps.flagWeave {u : Nat} {s t : State} (h : keeps u s t) (w sl : Nat) : t.flagWeave u w sl = s.flagWeave u w sl := by
  have h1 := h.weaves w
  have h2 := h.fibres u w sl
  unfold State.flagWeave
  unfold State.fibre? at h2
  cases ht : t.weave? u w with
  | none => cases hs : s.weave? u w <;> simp_all
  | some x =>
    cases hs : s.weave? u w with
    | none => simp_all
    | some y =>
      simp only [ht, hs, Option.map_some, Option.some.injEq, Option.bind_some] at h1 h2
      have hk : x.kind = y.kind := by simpa [Weave.rest] using congrArg Weave.kind h1
      have hf : (mget x.fibres sl).map Fibre.kind = (mget y.fibres sl).map Fibre.kind := by
        cases hx : mget x.fibres sl <;> cases hy : mget y.fibres sl <;> simp only [hx, hy, Option.map_some, Option.map_none] at h2 ⊢
        all_goals first | cases h2 | skip
        rename_i a b
        have := congrArg (Option.map Fibre.kind) h2
        simpa [Fibre.rest] using this
      simp only [hk, hf]

theorem fpflags_updWeave {s : State} {u w : Nat} {f : Weave → Weave} (hf : ∀ x, (f x).fpflags = x.fpflags) (v y : Nat) :
    (s.updWeave u w f).fpflags v y = s.fpflags v y := by
  unfold State.fpflags
  rw [State.weave?_updWeave]
  split
  · rename_i h
    obtain ⟨rfl, rfl⟩ := h
    cases s.weave? v y <;> simp [hf]
  · rfl

/-- The results of the participants of an issue, each written to its w register d. -/
def writeAll (g : State → Actor → State) (d : Nat) (val : Actor → Word) (l : List Actor) (t : State) : State :=
  l.foldl (fun t a => g (t.writeW a d (val a)) a) t

/-- What `writeAll` does: every participant has its result, every other register of the panel keeps its value, and nothing else that the
scheduler or the memory system sees changes. -/
theorem writeAll_spec {g : State → Actor → State} (hg : Quiet g) (d : Nat) (val : Actor → Word) {u : Nat} (l : List Actor)
    (hl : ∀ a ∈ l, ∃ w sl, a = .fib u w sl) (t : State) (hb : unboundIn t l d) :
    keeps u t (writeAll g d val l t) ∧ (∀ v y, (writeAll g d val l t).sched v y = t.sched v y)
      ∧ (∀ v y sm, ((writeAll g d val l t).fibre? v y sm).map Fibre.preds = (t.fibre? v y sm).map Fibre.preds)
      ∧ (∀ v y sm n, ¬(.fib v y sm ∈ l ∧ n = d) → (writeAll g d val l t).reg? v y sm n = t.reg? v y sm n)
      ∧ (∀ v y sm, .fib v y sm ∈ l → (t.fibre? v y sm).isSome →
          (writeAll g d val l t).reg? v y sm d = some (.live (val (.fib v y sm)))) := by
  induction l generalizing t with
  | nil => exact ⟨.refl u t, fun _ _ => rfl, fun _ _ _ => rfl, fun _ _ _ _ _ => rfl, fun _ _ _ h => absurd h (List.not_mem_nil)⟩
  | cons a r ih =>
    obtain ⟨w, sl, rfl⟩ := hl a (List.mem_cons_self ..)
    have hb1 : ∀ f, t.fibre? u w sl = some f → mget f.binds d = none := fun f => hb u w sl f (List.mem_cons_self ..)
    let t1 := g (t.writeW (.fib u w sl) d (val (.fib u w sl))) (.fib u w sl)
    have hfib : ∀ v y sm, t1.fibre? v y sm
        = if v = u ∧ y = w ∧ sm = sl then (t.fibre? u w sl).map fun f => f.wrote d (val (.fib u w sl)) else t.fibre? v y sm := by
      intro v y sm
      rw [hg.fibre, fibre?_writeW hb1]
    have hb2 : unboundIn t1 r d := by
      intro v y sm f hm hf
      rw [hfib] at hf
      split at hf
      · rename_i h
        obtain ⟨rfl, rfl, rfl⟩ := h
        cases hg : t.fibre? v y sm with
        | none => simp [hg] at hf
        | some g =>
          simp only [hg, Option.map_some, Option.some.injEq] at hf
          subst hf
          exact hb v y sm g (List.mem_cons_self ..) hg
      · exact hb v y sm f (List.mem_cons_of_mem _ hm) hf
    obtain ⟨i1, i2, i3, i4, i5⟩ := ih (fun a ha => hl a (List.mem_cons_of_mem _ ha)) t1 hb2
    have hreg : ∀ v y sm n, ¬((v = u ∧ y = w ∧ sm = sl) ∧ n = d) → t1.reg? v y sm n = t.reg? v y sm n := by
      intro v y sm n h
      unfold State.reg?
      rw [hfib]
      split
      · rename_i e
        obtain ⟨rfl, rfl, rfl⟩ := e
        have hn : n ≠ d := fun e => h ⟨⟨rfl, rfl, rfl⟩, e⟩
        cases t.fibre? v y sm <;> simp [Fibre.wrote, hn]
      · rfl
    refine ⟨?_, ?_, ?_, ?_, ?_⟩
    · exact (keeps_writeW hb1).trans ((hg.keeps _ (.fib u w sl)).trans i1)
    · intro v y
      exact (i2 v y).trans ((hg.sched ..).trans (sched_writeW hb1 v y))
    · intro v y sm
      refine (i3 v y sm).trans ?_
      rw [hfib]
      split
      · rename_i e
        obtain ⟨rfl, rfl, rfl⟩ := e
        cases t.fibre? v y sm <;> rfl
      · rfl
    · intro v y sm n h
      refine (i4 v y sm n fun e => h ⟨List.mem_cons_of_mem _ e.1, e.2⟩).trans (hreg v y sm n ?_)
      rintro ⟨⟨rfl, rfl, rfl⟩, rfl⟩
      exact h ⟨List.mem_cons_self .., rfl⟩
    · intro v y sm hm hs
      have hs1 : (t1.fibre? v y sm).isSome := by
        rw [hfib]
        split
        · rename_i e
          obtain ⟨rfl, rfl, rfl⟩ := e
          cases hg : t.fibre? v y sm <;> simp_all
        · exact hs
      by_cases hr : Actor.fib v y sm ∈ r
      · exact i5 v y sm hr hs1
      · have e : Actor.fib v y sm = Actor.fib u w sl := by
          rcases List.mem_cons.mp hm with h | h
          · exact h
          · exact absurd h hr
        injection e with e1 e2 e3
        subst e1 e2 e3
        have h4 := i4 v y sm d (fun h => hr h.1)
        refine h4.trans ?_
        unfold State.reg?
        rw [hfib]
        cases hg : t.fibre? v y sm with
        | none => simp [hg] at hs
        | some f => simp [Fibre.wrote]

/-! ### A batch that goes on -/

/-- The participants of an issue are fibres of the block and weave in focus. -/
theorem acts_fib {s : State} {u w : Nat} {x : Weave} {b : Batch} {n : Nat} {g : Guard} {a : Actor}
    (h : a ∈ (fibIss s u w x b n g).batch) : ∃ sl, sl ∈ b.members ∧ a = .fib u w sl := by
  simp only [fibIss, List.mem_map] at h
  obtain ⟨sl, h1, rfl⟩ := h
  exact ⟨sl, h1, rfl⟩

theorem acts_batch {s : State} {u w : Nat} {x : Weave} {b : Batch} {n : Nat} {g : Guard} {a : Actor}
    (h : a ∈ (fibIss s u w x b n g).acts) : a ∈ (fibIss s u w x b n g).batch := (List.mem_filter.mp h).1

/-- The states before and after a batch goes on differ in that batch and in the time of its weave's last issue. -/
theorem or_foldl (fl : Actor → FFlags) (l : List Actor) (x : FFlags) :
    l.foldl (fun x a => x ||| fl a) x = x ||| l.foldl (fun x a => x ||| fl a) 0 := by
  induction l generalizing x with
  | nil => simp
  | cons a r ih =>
    simp only [List.foldl_cons]
    rw [ih (x ||| fl a), ih (0 ||| fl a)]
    simp [BitVec.or_assoc]

theorem flagsIn_cons (s : State) (u w y : Nat) (fl : Actor → FFlags) (a : Actor) (r : List Actor) :
    flagsIn s u w y fl (a :: r) = (if s.flagWeave u w a.slot = y then fl a else 0) ||| flagsIn s u w y fl r := by
  unfold flagsIn
  by_cases h : s.flagWeave u w a.slot = y
  · simp only [List.filter_cons, h, decide_true, if_true, List.foldl_cons]
    rw [or_foldl fl _ (0 ||| fl a)]
    simp
  · simp [h]

theorem fpflags_raise {s : State} {u w sl : Nat} (fl : FFlags) (y : Nat) :
    (s.raise (.fib u w sl) fl).fpflags u y = (s.fpflags u y).map fun x => x ||| if s.flagWeave u w sl = y then fl else 0 := by
  unfold State.raise State.fpflags
  simp only
  rw [State.weave?_updWeave]
  by_cases h : y = s.flagWeave u w sl
  · subst h
    cases s.weave? u (s.flagWeave u w sl) <;> simp
  · simp only [h, and_false, if_false, Ne.symm h]
    cases s.weave? u y <;> simp

/-- Writes that keep the flags, each followed by raising the actor's own: the flags of every weave of the block afterwards. -/
theorem raiseAll_flags {u w : Nat} (wr : State → Actor → State) (l : List Actor) (hl : ∀ a ∈ l, ∃ sl, a = .fib u w sl)
    (hk : ∀ t a, a ∈ l → keeps u t (wr t a)) (hf : ∀ t a y, a ∈ l → (wr t a).fpflags u y = t.fpflags u y) (fl : Actor → FFlags)
    (t : State) (y : Nat) :
    (l.foldl (fun t a => (wr t a).raise a (fl a)) t).fpflags u y = (t.fpflags u y).map fun x => x ||| flagsIn t u w y fl l := by
  induction l generalizing t with
  | nil => simp [flagsIn]
  | cons a r ih =>
    obtain ⟨sl, rfl⟩ := hl a (List.mem_cons_self ..)
    have hm := List.mem_cons_self (a := Actor.fib u w sl) (l := r)
    have hk1 : keeps u t ((wr t (.fib u w sl)).raise (.fib u w sl) (fl (.fib u w sl))) := (hk t _ hm).trans (keeps_raise _ (.fib u w sl) _)
    rw [List.foldl_cons, ih (fun a ha => hl a (List.mem_cons_of_mem _ ha)) (fun t a ha => hk t a (List.mem_cons_of_mem _ ha))
      (fun t a y ha => hf t a y (List.mem_cons_of_mem _ ha)), fpflags_raise, hf t _ y hm, (hk t _ hm).flagWeave, flagsIn_cons]
    have hfi : flagsIn ((wr t (.fib u w sl)).raise (.fib u w sl) (fl (.fib u w sl))) u w y fl r = flagsIn t u w y fl r := by
      unfold flagsIn
      congr 1
      apply List.filter_congr
      intro a _
      rw [hk1.flagWeave]
    rw [hfi]
    cases t.fpflags u y with
    | none => rfl
    | some z => simp [Actor.slot, BitVec.or_assoc]; rfl

/-! ### Instructions that write one register -/

theorem plain_flags (v : State → State → Actor → Word) (s s1 : State) (a : Actor) : (plain v s s1 a).2 = 0 := rfl
/-- The effect of an instruction that writes one register. -/
theorem regOp_exec {i : Instr} {r : RegOp} (h : i.regOp = some r) (s : State) :
    (exec i s = issue i s (lane r.srcs (writeRes r.d) r.val))
    ∨ ((∀ s s1 a, (r.val s s1 a).2 = 0) ∧ exec i s = issue i s (lane r.srcs (writeInt r.d) fun s s1 a => (r.val s s1 a).1)) := by
  unfold Instr.regOp at h
  split at h
  case h_52 => cases h
  case h_51 =>
    split at h
    · cases h
    · rename_i f dir hd
      cases h
      cases dir
      · exact .inr ⟨fun _ _ _ => rfl, rfl⟩
      · exact absurd rfl hd
  all_goals
    cases h
    first
    | (refine .inr ⟨fun _ _ _ => by with_reducible (exact plain_flags ..), ?_⟩; rfl)
    | exact .inl rfl

/-- The effect of an element instruction. -/
theorem regOp_result {i : Instr} {r : RegOp} (h : i.regOp = some r) (s : State) : exec i s = issue i s fun k s => { st := r.result k s } := by
  unfold Instr.regOp at h
  split at h
  case h_52 => cases h
  case h_51 =>
    split at h
    · cases h
    · rename_i f dir hd
      cases h
      cases dir
      · rfl
      · exact absurd rfl hd
  all_goals
    cases h
    rfl

/-- The effect of a compare. -/
theorem predOp_result {i : Instr} {r : PredOp} (h : i.predOp = some r) (s : State) : exec i s = issue i s fun k s => { st := r.result k s } := by
  unfold Instr.predOp at h
  split at h <;> cases h <;> rfl

/-- The participants of a ready instruction. -/
theorem acts_of {i : Instr} {s : State} {k : Iss} (h : readyFib i s = some k) : ∀ a ∈ k.acts, ∃ sl, a = .fib k.uid k.w sl := by
  obtain ⟨u, w, blk, x, b, hf, hb, hx, hc, rfl, -⟩ := readyFib_cases h
  intro a ha
  obtain ⟨sl, -, rfl⟩ := acts_fib (acts_batch ha)
  exact ⟨sl, rfl⟩

/-- What the results of a lane instruction change, and what they leave. -/
theorem writeAll_consume {r : RegOp} {s : State} {k : Iss} {g : State → Actor → State} (hg : Quiet g) (val : Actor → Word)
    (hl : ∀ a ∈ k.acts, ∃ sl, a = .fib k.uid k.w sl) (hp : present s k.acts) (hb : unboundIn s k.acts r.d.num.toNat) :
    lanesOnly k.uid s (writeAll g r.d.num.toNat val k.acts (s.consume k.pc k.acts r.srcs))
    ∧ (∀ a ∈ k.acts, (writeAll g r.d.num.toNat val k.acts (s.consume k.pc k.acts r.srcs)).reg? k.uid k.w a.slot r.d.num.toNat = some (.live (val a)))
    ∧ (∀ v y sl n, ¬(.fib v y sl ∈ k.acts ∧ n = r.d.num.toNat) → ¬lastUsed k.acts r.srcs v y sl n →
        (writeAll g r.d.num.toNat val k.acts (s.consume k.pc k.acts r.srcs)).reg? v y sl n = s.reg? v y sl n)
    ∧ (∀ v y sl, ((writeAll g r.d.num.toNat val k.acts (s.consume k.pc k.acts r.srcs)).fibre? v y sl).map Fibre.preds = (s.fibre? v y sl).map Fibre.preds) := by
  have hu : ∀ a ∈ k.acts, a.uid = k.uid := fun a ha => by obtain ⟨sl, rfl⟩ := hl a ha; rfl
  have hk := keeps_consume s k.pc hu r.srcs
  have hpreds : ∀ v y sl, ((s.consume k.pc k.acts r.srcs).fibre? v y sl).map Fibre.preds = (s.fibre? v y sl).map Fibre.preds :=
    fun v y sl => consume_keeps Fibre.preds s k.pc k.acts r.srcs v y sl fun x _ f _ => used_preds f x
  have hb' : unboundIn (s.consume k.pc k.acts r.srcs) k.acts r.d.num.toNat := by
    intro v y sm f hm hf
    have := consume_keeps Fibre.binds s k.pc k.acts r.srcs v y sm fun x _ f _ => used_binds f x
    rw [hf] at this
    cases hs : s.fibre? v y sm with
    | none => simp [hs] at this
    | some f' =>
      simp only [hs, Option.map_some, Option.some.injEq] at this
      rw [this]
      exact hb v y sm f' hm hs
  obtain ⟨i1, i2, i3, i4, i5⟩ := writeAll_spec hg r.d.num.toNat val k.acts (u := k.uid) (fun a ha => by obtain ⟨sl, rfl⟩ := hl a ha; exact ⟨_, _, rfl⟩)
    (s.consume k.pc k.acts r.srcs) hb'
  refine ⟨⟨hk.trans i1, fun v y => (i2 v y).trans (sched_consume ..)⟩, ?_, ?_, fun v y sl => (i3 v y sl).trans (hpreds v y sl)⟩
  · intro a ha
    obtain ⟨sl, rfl⟩ := hl a ha
    refine i5 _ _ _ ha ?_
    have h1 := hp _ ha
    have h2 := hk.fibres k.uid k.w sl
    unfold State.fib? at h1
    show ((s.consume k.pc k.acts r.srcs).fibre? k.uid k.w sl).isSome = true
    cases h : (s.consume k.pc k.acts r.srcs).fibre? k.uid k.w sl with
    | some f => rfl
    | none => rw [h] at h2; cases hs : s.fibre? k.uid k.w sl <;> simp_all
  · intro v y sl n h1 h2
    rw [i4 v y sl n h1]
    refine reg?_consume s k.pc k.acts r.srcs v y sl n fun hm x hx hh => h2 ⟨hm, x, hx, hh⟩

end Sys2Proof.Machine
end

