-- ==== Sys2Proof/Laws/Memory.lean ====
section
/-! SUPPORT. Memory: reading after writing, and that every operation on it keeps the canonical form. -/
namespace Sys2Proof.Machine

/-! ### Reading after writing, from every list of cells -/

theorem Memory.read_erase (m : Memory) (a b : Nat) : (Memory.erase m a).read b = if b = a then 0 else m.read b := by
  induction m with
  | nil => simp [Memory.erase, Memory.read]
  | cons c r ih =>
    obtain ⟨k, v⟩ := c
    by_cases h : k = a <;> by_cases hb : b = a <;> simp_all [Memory.erase, Memory.read]
    exact fun h => absurd h.symm hb

/-- A byte that is written is read, and every other byte is as before. -/
theorem Memory.read_write (m : Memory) (a b : Nat) (v : Byte) : (m.write a v).read b = if b = a then v else m.read b := by
  induction m with
  | nil =>
    by_cases hb : b = a
    · subst hb; by_cases hv : v = 0#8 <;> simp [Memory.write, Memory.read, hv]
    · by_cases hv : v = 0#8 <;> simp [Memory.write, Memory.read, hv, hb, Ne.symm hb]
  | cons c r ih =>
    obtain ⟨k, w⟩ := c
    simp only [Memory.write]
    split
    · subst_vars
      split
      · simp only [Memory.read_erase, Memory.read]; by_cases h : k = b
        · simp [h, show v = 0 from ‹v = 0›]
        · simp [h, Ne.symm h]
      · by_cases h : k = b
        · simp [Memory.read, h]
        · simp [Memory.read, h, Ne.symm h]
    · split
      · split
        · subst_vars
          by_cases h : b = a
          · subst h; simp [Memory.read, Memory.read_erase, Ne.symm ‹¬b = k›]
          · simp [Memory.read, Memory.read_erase, h]
        · by_cases h : a = b
          · simp [Memory.read, h]
          · simp [Memory.read, h, Ne.symm h]
      · by_cases h : b = a
        · subst h; simp [Memory.read, ih, Ne.symm ‹¬b = k›]
        · simp [Memory.read, ih, h]

/-! ### The canonical form -/

theorem Memory.wfFrom_mono {lo hi : Nat} (h : lo ≤ hi) {m : Memory} (w : Memory.wfFrom hi m = true) : Memory.wfFrom lo m = true := by
  cases m with
  | nil => rfl
  | cons c r => simp only [Memory.wfFrom, Bool.and_eq_true, decide_eq_true_eq] at w ⊢; exact ⟨⟨by omega, w.1.2⟩, w.2⟩

theorem Memory.wfFrom_erase {lo : Nat} {m : Memory} (a : Nat) (w : Memory.wfFrom lo m = true) : Memory.wfFrom lo (Memory.erase m a) = true := by
  induction m generalizing lo with
  | nil => rfl
  | cons c r ih =>
    obtain ⟨k, v⟩ := c
    simp only [Memory.wfFrom, Bool.and_eq_true, decide_eq_true_eq] at w
    simp only [Memory.erase]
    split
    · exact Memory.wfFrom_mono (by omega) (ih w.2)
    · simp only [Memory.wfFrom, Bool.and_eq_true, decide_eq_true_eq]; exact ⟨w.1, ih w.2⟩

theorem Memory.wfFrom_write {lo : Nat} {m : Memory} (a : Nat) (v : Byte) (h : lo ≤ a) (w : Memory.wfFrom lo m = true) :
    Memory.wfFrom lo (m.write a v) = true := by
  induction m generalizing lo with
  | nil => by_cases hv : v = 0#8 <;> simp [Memory.write, Memory.wfFrom, hv, h]
  | cons c r ih =>
    obtain ⟨k, x⟩ := c
    have w' := w
    simp only [Memory.wfFrom, Bool.and_eq_true, decide_eq_true_eq] at w
    simp only [Memory.write]
    split
    · subst_vars
      split
      · exact Memory.wfFrom_mono (by omega) (Memory.wfFrom_erase _ w.2)
      · simpa [Memory.wfFrom, h, w.2] using ‹¬v = 0›
    · split
      · split
        · simp only [Memory.wfFrom, Bool.and_eq_true, decide_eq_true_eq]; exact ⟨w.1, Memory.wfFrom_erase _ w.2⟩
        · have : ¬v = 0#8 := ‹_›
          simp [Memory.wfFrom, this, h, w.2, show a + 1 ≤ k by omega]; simpa using w.1.2
      · simp only [Memory.wfFrom, Bool.and_eq_true, decide_eq_true_eq]; exact ⟨w.1, ih (by omega) w.2⟩

/-- Writing a byte keeps the canonical form. -/
theorem Memory.wf_write {m : Memory} (a : Nat) (v : Byte) (w : m.wf = true) : (m.write a v).wf = true :=
  Memory.wfFrom_write a v (Nat.zero_le a) w

/-- Erasing an address keeps it. -/
theorem Memory.wf_erase {m : Memory} (a : Nat) (w : m.wf = true) : (Memory.erase m a).wf = true := Memory.wfFrom_erase a w

/-- Writing consecutive bytes keeps it. -/
theorem Memory.wf_writeBytes {m : Memory} (a : Nat) (l : List Byte) (w : m.wf = true) : (m.writeBytes a l).wf = true := by
  induction l generalizing m a with
  | nil => exact w
  | cons b r ih => exact ih _ (Memory.wf_write a b w)

/-- Forgetting cells by their address, as a page that is cleared does, keeps it. -/
theorem Memory.wf_filter {m : Memory} (p : Host.Cell → Bool) (w : m.wf = true) : Memory.wf (m.filter p) = true := by
  suffices h : ∀ lo, Memory.wfFrom lo m = true → Memory.wfFrom lo (m.filter p) = true from h 0 w
  clear w
  induction m with
  | nil => intro lo _; rfl
  | cons c r ih =>
    intro lo w
    obtain ⟨k, v⟩ := c
    simp only [Memory.wfFrom, Bool.and_eq_true, decide_eq_true_eq] at w
    by_cases h : p (k, v) = true
    · simp only [List.filter_cons, h, if_true, Memory.wfFrom, Bool.and_eq_true, decide_eq_true_eq]; exact ⟨w.1, ih _ w.2⟩
    · simp only [List.filter_cons, h]; exact Memory.wfFrom_mono (by omega) (ih _ w.2)

/-- Consecutive bytes that are written are read, and every other byte is as before. -/
theorem Memory.read_writeBytes (m : Memory) (a b : Nat) (l : List Byte) :
    (m.writeBytes a l).read b = if a ≤ b then (l[b - a]?).getD (m.read b) else m.read b := by
  induction l generalizing m a with
  | nil => simp [Memory.writeBytes]
  | cons x r ih =>
    simp only [Memory.writeBytes, ih, Memory.read_write]
    by_cases h1 : a + 1 ≤ b
    · have e : b - a = (b - (a + 1)) + 1 := by omega
      simp [h1, show a ≤ b by omega, e, show b ≠ a by omega]
    · by_cases h2 : b = a
      · subst h2; simp
      · simp [h1, h2, show ¬ a ≤ b by omega]

/-- The memory of the machine right after reset has the form. -/
theorem State.reset_mem_wf : State.reset.mem.wf = true := rfl

end Sys2Proof.Machine
end

