-- ==== Sys2Proof/Laws/Pages.lean ====
section
/-! SUPPORT. The service's translation tables: what a write of the device leaves alone, and when a mapping finds room. -/
namespace Sys2Proof.Machine

theorem rawWrite_service (s : State) (pa : Nat) (d : List Byte) : (rawWrite s pa d).service = s.service := by
  unfold rawWrite
  split
  · split
    · generalize windowWrites s _ d = l
      have h (l : List (Nat × Word)) (t : State) :
          (l.foldl (fun s e => s.post (.registerWrite ((pa - winBase) / winSize) e.1 e.2)) t).service = t.service := by
        induction l generalizing t with
        | nil => rfl
        | cons e r ih => exact ih _
      exact h l s
    · rfl
  · split
    · rfl
    · split <;> rfl

/-- A write of the device changes nothing of the service's own state. -/
theorem devWrite_service (s : State) (pa : Nat) (d : List Byte) : (devWrite s pa d).service = s.service := by
  show (rawWrite (ownTouch s none pa) pa d).service = s.service
  rw [rawWrite_service, ((cacheOnly.rfl' s).ownTouch none pa).service]

/-- The context's zone for tables has room for n more pages. -/
def roomy (s : State) (ctx n : Nat) : Prop :=
  let a := mcount s.service.tables ctx
  a % zoneSize ≠ 0 ∧ a % 4096 = 0 ∧ a % zoneSize + 4096 * n ≤ zoneSize

/-- A table page comes from the zone while it has room. -/
theorem tablePage_roomy (s : State) (ctx n : Nat) (h : roomy s ctx (n + 2)) : ∃ t a, tablePage s ctx = some (t, a) ∧ roomy t ctx (n + 1) := by
  obtain ⟨h1, h2, h3⟩ := h
  refine ⟨_, _, if_pos h1, ?_⟩
  have e : mcount (mput s.service.tables ctx (mcount s.service.tables ctx + 4096)) ctx = mcount s.service.tables ctx + 4096 := by
    unfold mcount; rw [mget_mput_self]; rfl
  simp only [roomy, State.updService_service, e, zoneSize] at *
  omega

/-- A leaf finds room for the tables above it. -/
theorem setLeaf_roomy (ctx va target pte : Nat) (lvl : Nat) : ∀ (s : State) (table n : Nat), target ≤ lvl → roomy s ctx (n + lvl + 1) →
    ∃ t, setLeaf s ctx va target pte lvl table = some t ∧ roomy t ctx (n + 1) := by
  have keep (s : State) (a v n : Nat) (h : roomy s ctx n) : roomy (writePte s a v) ctx n := by
    unfold roomy writePte at *; rw [devWrite_service]; exact h
  have less (s : State) (m n : Nat) (hm : m ≤ n) (h : roomy s ctx n) : roomy s ctx m := by unfold roomy at *; omega
  induction lvl with
  | zero =>
    intro s table n ht h
    obtain rfl : target = 0 := by omega
    exact ⟨_, by unfold setLeaf; exact if_pos rfl, keep _ _ _ _ h⟩
  | succ l ih =>
    intro s table n ht h
    unfold setLeaf
    by_cases e : l + 1 = target
    · rw [if_pos e]; exact ⟨_, rfl, keep _ _ _ _ (less _ _ _ (by omega) h)⟩
    · rw [if_neg e]
      dsimp only
      split
      · exact ih _ _ _ (by omega) (less _ _ _ (by omega) h)
      · obtain ⟨t, a, h1, h2⟩ := tablePage_roomy s ctx (n + l) (by rw [show n + l + 2 = n + (l + 1) + 1 from by omega]; exact h)
        rw [h1]
        exact ih _ _ _ (by omega) (keep _ _ _ _ h2)

/-- Pages of 4 KiB find room. -/
theorem mapPages_roomy (ctx root perm : Nat) (present : Bool) (k : Nat) : ∀ (s : State) (va pa n : Nat), roomy s ctx (n + 3 * k + 1) →
    ∃ t, mapPages s ctx root perm 0 present k va pa = some t ∧ roomy t ctx (n + 1) := by
  induction k with
  | zero => intro s va pa n h; exact ⟨s, rfl, h⟩
  | succ k ih =>
    intro s va pa n h
    obtain ⟨t, h1, h2⟩ := setLeaf_roomy ctx va 0 (leafFor pa perm false present) 3 s root (n + 3 * k) (by omega)
      (by rw [show n + 3 * k + 3 + 1 = n + 3 * (k + 1) + 1 from by omega]; exact h)
    obtain ⟨u, h3, h4⟩ := ih t (va + 0x1000) (pa + 0x1000) n h2
    refine ⟨u, ?_, h4⟩
    unfold mapPages
    dsimp only
    rw [show decide ((0 : Nat) = 1) = false from rfl, h1]
    exact h3

end Sys2Proof.Machine
end

