-- ==== Sys2Proof/Laws/PerInstr.lean ====
section
/-! SUPPORT. For every instruction: its layout names it again, so that no field of a well-formed term is lost between the term and its
fields. -/
open Sys2Proof
namespace Sys2Proof.Laws

/-! ### The codes and fields name what they come from -/

@[simp] theorem mform_raw (m : MForm) (n : Nat) : (m.raw n).mform = m := by
  obtain ⟨⟩ := m; rename_i o _ _ _ _ _ _; cases o <;> rfl

@[simp] theorem lform_raw (l : LForm) (n : Nat) : (l.raw n).lform = l := by
  obtain ⟨⟩ := l; rename_i b _ _ _ _ _ _; cases b <;> simp [LForm.raw, MRaw.lform]

@[simp] theorem raw_sz (m : MForm) (n : Nat) : (m.raw n).sz = BitVec.ofNat 4 n := rfl

@[simp] theorem lraw_sz (l : LForm) (n : Nat) : (l.raw n).sz = BitVec.ofNat 4 n := rfl

@[simp] theorem msize_code (z : MSize) : MSize.ofCode (z.code % 16) = z := by cases z <;> rfl

@[simp] theorem amo_code (o : AmoOp) : AmoOp.ofCode (o.code % 16) = o := by cases o <;> rfl

@[simp] theorem pref_code (k : PrefKind) : PrefKind.ofCode (k.code % 16) = k := by cases k <;> rfl

@[simp] theorem bar_code (b : Option (BitVec 4)) : barOf (barCode b) = b := by
  cases b with
  | none => rfl
  | some n => simp only [barCode, barOf, Nat.le_add_right, if_true, Option.some.injEq]; apply BitVec.eq_of_toNat_eq; simp; omega

theorem bar_split (b : Option (BitVec 4)) : barOf (16 * (barCode b / 16 % 2) + barCode b % 16) = b := by
  have h : barCode b < 32 := by cases b <;> simp only [barCode] <;> omega
  rw [show 16 * (barCode b / 16 % 2) + barCode b % 16 = barCode b by omega, bar_code]

@[simp] theorem bit_mod (b : Bool) : isOne (bit b % 2) = b := by cases b <;> rfl

@[simp] theorem cpFmt_code (x : CpFmt) : CpFmt.ofCode (x.code % 8) = x := by cases x <;> rfl

@[simp] theorem rdSrc_code (x : RdSrc) : RdSrc.ofCode (x.code % 4) = x := by cases x <;> rfl

@[simp] theorem rdOut_code (x : RdOut) : RdOut.ofCode (x.code % 4) = x := by cases x <;> rfl

theorem packBits_lt : (l : List (Nat × Nat)) → packBits l < 2 ^ (l.map Prod.fst).sum
  | [] => by simp [packBits]
  | (w, v) :: r => by
    have h := packBits_lt r
    have h1 := Nat.mod_lt v (Nat.two_pow_pos w)
    simp only [packBits, List.map_cons, List.sum_cons, Nat.pow_add]
    calc v % 2 ^ w + 2 ^ w * packBits r < 2 ^ w + 2 ^ w * packBits r := by omega
      _ = 2 ^ w * (packBits r + 1) := by rw [Nat.mul_add, Nat.mul_one, Nat.add_comm]
      _ ≤ _ := Nat.mul_le_mul_left _ h

theorem unpack_pack : (l : List (Nat × Nat)) → unpackBits (l.map Prod.fst) (packBits l) = l.map fun e => e.2 % 2 ^ e.1
  | [] => rfl
  | (w, v) :: r => by
    have h := Nat.two_pow_pos w
    simp only [List.map_cons, packBits, unpackBits, Nat.add_mul_mod_self_left, Nat.mod_mod, Nat.add_mul_div_left _ _ h,
      Nat.div_eq_of_lt (Nat.mod_lt v h), Nat.zero_add, unpack_pack r]

/-- The fields of a command come back from its bits. -/
theorem unpack_cmd (l : List (Nat × Nat)) (h : (l.map Prod.fst).sum ≤ 64) :
    unpackBits (l.map Prod.fst) (BitVec.ofNat 64 (packBits l)).toNat = l.map fun e => e.2 % 2 ^ e.1 := by
  rw [BitVec.toNat_ofNat, Nat.mod_eq_of_lt (Nat.lt_of_lt_of_le (packBits_lt l) (Nat.pow_le_pow_right (by decide) h)), unpack_pack]

theorem field_mod {w n : Nat} (x : BitVec w) (h : n = 2 ^ w) : BitVec.ofNat w (x.toNat % n) = x := by
  subst h; rw [Nat.mod_eq_of_lt x.isLt, BitVec.ofNat_toNat, BitVec.setWidth_eq]

@[simp] theorem id_code (i : IdSel) : IdSel.ofCode i.code = i := by
  cases i with
  | coord l => have := l.isLt; simp [IdSel.code, IdSel.ofCode, show ¬24 ≤ 16 + l.toNat by omega]; apply BitVec.eq_of_toNat_eq; simp; omega
  | ext l => simp [IdSel.code, IdSel.ofCode]; apply BitVec.eq_of_toNat_eq; simp; omega
  | _ => rfl

end Sys2Proof.Laws
open Sys2Proof.Laws

/-- The layout of a well-formed instruction names that instruction. -/
def Sys2Proof.Laws.Layout.Statement (i : Instr) : Prop := i.wf = true → ∀ l, i.layout = some l → l.instr = some i

theorem Sys2Proof.Laws.Layout.clause (wait : BitVec 12) (seta setb : BitVec 4) (zero : BitVec 42) : Sys2Proof.Laws.Layout.Statement (.clause wait seta setb zero) := by
  rintro - _ ⟨⟩; rfl
theorem Sys2Proof.Laws.Layout.nop (wide : Bool) : Sys2Proof.Laws.Layout.Statement (.nop wide) := by
  rintro - _ ⟨⟩; rfl
theorem Sys2Proof.Laws.Layout.add (f : AForm) (uns sat : Bool) : Sys2Proof.Laws.Layout.Statement (.add f uns sat) := by
  rintro - _ ⟨⟩; cases uns <;> cases sat <;> rfl
theorem Sys2Proof.Laws.Layout.sub (f : AForm) (uns sat : Bool) : Sys2Proof.Laws.Layout.Statement (.sub f uns sat) := by
  rintro - _ ⟨⟩; cases uns <;> cases sat <;> rfl
theorem Sys2Proof.Laws.Layout.mul (f : AForm) (uns sat : Bool) : Sys2Proof.Laws.Layout.Statement (.mul f uns sat) := by
  rintro - _ ⟨⟩; cases uns <;> cases sat <;> rfl
theorem Sys2Proof.Laws.Layout.mad (f : AForm) (uns sat : Bool) : Sys2Proof.Laws.Layout.Statement (.mad f uns sat) := by
  rintro - _ ⟨⟩; cases uns <;> cases sat <;> rfl
theorem Sys2Proof.Laws.Layout.mulhi (f : AForm) (uns : Bool) : Sys2Proof.Laws.Layout.Statement (.mulhi f uns) := by
  rintro - _ ⟨⟩; cases uns <;> rfl
theorem Sys2Proof.Laws.Layout.div (f : AForm) (uns : Bool) : Sys2Proof.Laws.Layout.Statement (.div f uns) := by
  rintro - _ ⟨⟩; cases uns <;> rfl
theorem Sys2Proof.Laws.Layout.rem (f : AForm) (uns : Bool) : Sys2Proof.Laws.Layout.Statement (.rem f uns) := by
  rintro - _ ⟨⟩; cases uns <;> rfl
theorem Sys2Proof.Laws.Layout.abs (f : AForm) (sat : Bool) : Sys2Proof.Laws.Layout.Statement (.abs f sat) := by
  rintro - _ ⟨⟩; cases sat <;> rfl
theorem Sys2Proof.Laws.Layout.min (f : AForm) (uns : Bool) : Sys2Proof.Laws.Layout.Statement (.min f uns) := by
  rintro - _ ⟨⟩; cases uns <;> rfl
theorem Sys2Proof.Laws.Layout.max (f : AForm) (uns : Bool) : Sys2Proof.Laws.Layout.Statement (.max f uns) := by
  rintro - _ ⟨⟩; cases uns <;> rfl
theorem Sys2Proof.Laws.Layout.and (f : AForm) : Sys2Proof.Laws.Layout.Statement (.and f) := by
  rintro - _ ⟨⟩; rfl
theorem Sys2Proof.Laws.Layout.or (f : AForm) : Sys2Proof.Laws.Layout.Statement (.or f) := by
  rintro - _ ⟨⟩; rfl
theorem Sys2Proof.Laws.Layout.xor (f : AForm) : Sys2Proof.Laws.Layout.Statement (.xor f) := by
  rintro - _ ⟨⟩; rfl
theorem Sys2Proof.Laws.Layout.andn (f : AForm) : Sys2Proof.Laws.Layout.Statement (.andn f) := by
  rintro - _ ⟨⟩; rfl
theorem Sys2Proof.Laws.Layout.orn (f : AForm) : Sys2Proof.Laws.Layout.Statement (.orn f) := by
  rintro - _ ⟨⟩; rfl
theorem Sys2Proof.Laws.Layout.shl (f : AForm) (sat : Bool) : Sys2Proof.Laws.Layout.Statement (.shl f sat) := by
  rintro - _ ⟨⟩; cases sat <;> rfl
theorem Sys2Proof.Laws.Layout.shr (f : AForm) : Sys2Proof.Laws.Layout.Statement (.shr f) := by
  rintro - _ ⟨⟩; rfl
theorem Sys2Proof.Laws.Layout.sar (f : AForm) : Sys2Proof.Laws.Layout.Statement (.sar f) := by
  rintro - _ ⟨⟩; rfl
theorem Sys2Proof.Laws.Layout.rol (f : AForm) : Sys2Proof.Laws.Layout.Statement (.rol f) := by
  rintro - _ ⟨⟩; rfl
theorem Sys2Proof.Laws.Layout.ror (f : AForm) : Sys2Proof.Laws.Layout.Statement (.ror f) := by
  rintro - _ ⟨⟩; rfl
theorem Sys2Proof.Laws.Layout.clz (f : AForm) : Sys2Proof.Laws.Layout.Statement (.clz f) := by
  rintro - _ ⟨⟩; rfl
theorem Sys2Proof.Laws.Layout.ctz (f : AForm) : Sys2Proof.Laws.Layout.Statement (.ctz f) := by
  rintro - _ ⟨⟩; rfl
theorem Sys2Proof.Laws.Layout.popc (f : AForm) : Sys2Proof.Laws.Layout.Statement (.popc f) := by
  rintro - _ ⟨⟩; rfl
theorem Sys2Proof.Laws.Layout.brev (f : AForm) : Sys2Proof.Laws.Layout.Statement (.brev f) := by
  rintro - _ ⟨⟩; rfl
theorem Sys2Proof.Laws.Layout.bfx (f : AForm) : Sys2Proof.Laws.Layout.Statement (.bfx f) := by
  rintro - _ ⟨⟩; rfl
theorem Sys2Proof.Laws.Layout.bfi (f : AForm) : Sys2Proof.Laws.Layout.Statement (.bfi f) := by
  rintro - _ ⟨⟩; rfl
theorem Sys2Proof.Laws.Layout.ext (f : AForm) : Sys2Proof.Laws.Layout.Statement (.ext f) := by
  rintro - _ ⟨⟩; rfl
theorem Sys2Proof.Laws.Layout.mov (f : AForm) : Sys2Proof.Laws.Layout.Statement (.mov f) := by
  rintro - _ ⟨⟩; rfl
theorem Sys2Proof.Laws.Layout.movi (f : AForm) : Sys2Proof.Laws.Layout.Statement (.movi f) := by
  rintro - _ ⟨⟩; rfl
theorem Sys2Proof.Laws.Layout.movq (f : AForm) : Sys2Proof.Laws.Layout.Statement (.movq f) := by
  rintro - _ ⟨⟩; rfl
theorem Sys2Proof.Laws.Layout.sel (f : AForm) (np : Bool) : Sys2Proof.Laws.Layout.Statement (.sel f np) := by
  rintro - _ ⟨⟩; cases np <;> rfl
theorem Sys2Proof.Laws.Layout.lea (f : AForm) (sh : BitVec 4) : Sys2Proof.Laws.Layout.Statement (.lea f sh) := by
  rintro - _ ⟨⟩; simp [Layout.instr, ofA]
theorem Sys2Proof.Laws.Layout.cmp (f : AForm) (orr : Bool) (cond : Cond) : Sys2Proof.Laws.Layout.Statement (.cmp f orr cond) := by
  rintro - _ ⟨⟩; cases orr <;> cases cond <;> rfl
theorem Sys2Proof.Laws.Layout.plog (f : AForm) (lut : BitVec 4) : Sys2Proof.Laws.Layout.Statement (.plog f lut) := by
  rintro - _ ⟨⟩; simp [Layout.instr, ofA]
theorem Sys2Proof.Laws.Layout.pmov (f : AForm) (dir : Bool) : Sys2Proof.Laws.Layout.Statement (.pmov f dir) := by
  rintro - _ ⟨⟩; cases dir <;> rfl
theorem Sys2Proof.Laws.Layout.movx (f : AForm) : Sys2Proof.Laws.Layout.Statement (.movx f) := by
  rintro - _ ⟨⟩; rfl
theorem Sys2Proof.Laws.Layout.movxw (f : AForm) : Sys2Proof.Laws.Layout.Statement (.movxw f) := by
  rintro - _ ⟨⟩; rfl
theorem Sys2Proof.Laws.Layout.fadd (f : AForm) (rm : RM) : Sys2Proof.Laws.Layout.Statement (.fadd f rm) := by
  rintro - _ ⟨⟩; cases rm <;> rfl
theorem Sys2Proof.Laws.Layout.fsub (f : AForm) (rm : RM) : Sys2Proof.Laws.Layout.Statement (.fsub f rm) := by
  rintro - _ ⟨⟩; cases rm <;> rfl
theorem Sys2Proof.Laws.Layout.fmul (f : AForm) (rm : RM) : Sys2Proof.Laws.Layout.Statement (.fmul f rm) := by
  rintro - _ ⟨⟩; cases rm <;> rfl
theorem Sys2Proof.Laws.Layout.ffma (f : AForm) (rm : RM) : Sys2Proof.Laws.Layout.Statement (.ffma f rm) := by
  rintro - _ ⟨⟩; cases rm <;> rfl
theorem Sys2Proof.Laws.Layout.fmin (f : AForm) : Sys2Proof.Laws.Layout.Statement (.fmin f) := by
  rintro - _ ⟨⟩; rfl
theorem Sys2Proof.Laws.Layout.fmax (f : AForm) : Sys2Proof.Laws.Layout.Statement (.fmax f) := by
  rintro - _ ⟨⟩; rfl
theorem Sys2Proof.Laws.Layout.fminx (f : AForm) : Sys2Proof.Laws.Layout.Statement (.fminx f) := by
  rintro - _ ⟨⟩; rfl
theorem Sys2Proof.Laws.Layout.fmaxx (f : AForm) : Sys2Proof.Laws.Layout.Statement (.fmaxx f) := by
  rintro - _ ⟨⟩; rfl
theorem Sys2Proof.Laws.Layout.fcmp (f : AForm) (orr : Bool) (cond : FCond) : Sys2Proof.Laws.Layout.Statement (.fcmp f orr cond) := by
  rintro - _ ⟨⟩; cases orr <;> cases cond <;> rfl
theorem Sys2Proof.Laws.Layout.fclass (f : AForm) : Sys2Proof.Laws.Layout.Statement (.fclass f) := by
  rintro - _ ⟨⟩; rfl
theorem Sys2Proof.Laws.Layout.fcvt (f : AForm) (sf : FFmt) (rm : RM) : Sys2Proof.Laws.Layout.Statement (.fcvt f sf rm) := by
  rintro - _ ⟨⟩; cases sf <;> cases rm <;> rfl
theorem Sys2Proof.Laws.Layout.fcvti (f : AForm) (sf : FFmt) (rm : RM) : Sys2Proof.Laws.Layout.Statement (.fcvti f sf rm) := by
  rintro - _ ⟨⟩; cases sf <;> cases rm <;> rfl
theorem Sys2Proof.Laws.Layout.icvtf (f : AForm) (nat w64 : Bool) (rm : RM) : Sys2Proof.Laws.Layout.Statement (.icvtf f nat w64 rm) := by
  rintro - _ ⟨⟩; cases nat <;> cases w64 <;> cases rm <;> rfl
theorem Sys2Proof.Laws.Layout.frnd (f : AForm) (x : Bool) (rm : RM) : Sys2Proof.Laws.Layout.Statement (.frnd f x rm) := by
  rintro - _ ⟨⟩; cases x <;> cases rm <;> rfl
theorem Sys2Proof.Laws.Layout.fsqrt (f : AForm) (rm : RM) : Sys2Proof.Laws.Layout.Statement (.fsqrt f rm) := by
  rintro - _ ⟨⟩; cases rm <;> rfl
theorem Sys2Proof.Laws.Layout.fdiv (f : AForm) (rm : RM) : Sys2Proof.Laws.Layout.Statement (.fdiv f rm) := by
  rintro - _ ⟨⟩; cases rm <;> rfl
theorem Sys2Proof.Laws.Layout.frcp (f : AForm) : Sys2Proof.Laws.Layout.Statement (.frcp f) := by
  rintro - _ ⟨⟩; rfl
theorem Sys2Proof.Laws.Layout.frsq (f : AForm) : Sys2Proof.Laws.Layout.Statement (.frsq f) := by
  rintro - _ ⟨⟩; rfl
theorem Sys2Proof.Laws.Layout.fexp2 (f : AForm) : Sys2Proof.Laws.Layout.Statement (.fexp2 f) := by
  rintro - _ ⟨⟩; rfl
theorem Sys2Proof.Laws.Layout.flog2 (f : AForm) : Sys2Proof.Laws.Layout.Statement (.flog2 f) := by
  rintro - _ ⟨⟩; rfl
theorem Sys2Proof.Laws.Layout.fsin (f : AForm) : Sys2Proof.Laws.Layout.Statement (.fsin f) := by
  rintro - _ ⟨⟩; rfl
theorem Sys2Proof.Laws.Layout.fcos (f : AForm) : Sys2Proof.Laws.Layout.Statement (.fcos f) := by
  rintro - _ ⟨⟩; rfl
theorem Sys2Proof.Laws.Layout.ftanh (f : AForm) : Sys2Proof.Laws.Layout.Statement (.ftanh f) := by
  rintro - _ ⟨⟩; rfl
theorem Sys2Proof.Laws.Layout.dot (f : AForm) (kind : DotKind) (rm : RM) : Sys2Proof.Laws.Layout.Statement (.dot f kind rm) := by
  rintro - _ ⟨⟩; cases kind <;> cases rm <;> rfl
theorem Sys2Proof.Laws.Layout.qz (f : AForm) : Sys2Proof.Laws.Layout.Statement (.qz f) := by
  rintro - _ ⟨⟩; rfl
theorem Sys2Proof.Laws.Layout.dq (f : AForm) (rm : RM) : Sys2Proof.Laws.Layout.Statement (.dq f rm) := by
  rintro - _ ⟨⟩; cases rm <;> rfl
theorem Sys2Proof.Laws.Layout.pack (f : AForm) (rm : RM) : Sys2Proof.Laws.Layout.Statement (.pack f rm) := by
  rintro - _ ⟨⟩; cases rm <;> rfl
theorem Sys2Proof.Laws.Layout.unpk (f : AForm) (hi : Bool) : Sys2Proof.Laws.Layout.Statement (.unpk f hi) := by
  rintro - _ ⟨⟩; cases hi <;> rfl
theorem Sys2Proof.Laws.Layout.bra (g : Guard) (off : BitVec 32) : Sys2Proof.Laws.Layout.Statement (.bra g off) := by
  rintro - _ ⟨⟩; rfl
theorem Sys2Proof.Laws.Layout.call (g : Guard) (link : BitVec 7) (off : BitVec 32) : Sys2Proof.Laws.Layout.Statement (.call g link off) := by
  rintro - _ ⟨⟩; simp [Layout.instr, ofB]
theorem Sys2Proof.Laws.Layout.brx (f : AForm) : Sys2Proof.Laws.Layout.Statement (.brx f) := by
  rintro - _ ⟨⟩; rfl
theorem Sys2Proof.Laws.Layout.ret (f : AForm) : Sys2Proof.Laws.Layout.Statement (.ret f) := by
  rintro - _ ⟨⟩; rfl
theorem Sys2Proof.Laws.Layout.trap (f : AForm) : Sys2Proof.Laws.Layout.Statement (.trap f) := by
  rintro - _ ⟨⟩; rfl
theorem Sys2Proof.Laws.Layout.brk (g : Guard) : Sys2Proof.Laws.Layout.Statement (.brk g) := by
  rintro - _ ⟨⟩; rfl
theorem Sys2Proof.Laws.Layout.mcall (g : Guard) (n : BitVec 6) : Sys2Proof.Laws.Layout.Statement (.mcall g n) := by
  rintro - _ ⟨⟩; simp [Layout.instr, ofA, plainForm]
theorem Sys2Proof.Laws.Layout.ld (m : MForm) (sz : MSize) : Sys2Proof.Laws.Layout.Statement (.ld m sz) := by
  rintro - _ ⟨⟩; simp [Layout.instr, ofM]
theorem Sys2Proof.Laws.Layout.st (m : MForm) (sz : MSize) : Sys2Proof.Laws.Layout.Statement (.st m sz) := by
  rintro - _ ⟨⟩; simp [Layout.instr, ofM]
theorem Sys2Proof.Laws.Layout.pref (m : MForm) (kind : PrefKind) : Sys2Proof.Laws.Layout.Statement (.pref m kind) := by
  rintro - _ ⟨⟩; simp [Layout.instr, ofM]
theorem Sys2Proof.Laws.Layout.amo (m : MForm) (op : AmoOp) : Sys2Proof.Laws.Layout.Statement (.amo m op) := by
  rintro - _ ⟨⟩; simp [Layout.instr, ofM]
theorem Sys2Proof.Laws.Layout.cas (m : MForm) (sz : MSize) : Sys2Proof.Laws.Layout.Statement (.cas m sz) := by
  rintro - _ ⟨⟩; simp [Layout.instr, ofM]
theorem Sys2Proof.Laws.Layout.cstore (m : MForm) (sz : MSize) : Sys2Proof.Laws.Layout.Statement (.cstore m sz) := by
  rintro - _ ⟨⟩; simp [Layout.instr, ofM]
theorem Sys2Proof.Laws.Layout.ldl (l : LForm) (sz : MSize) : Sys2Proof.Laws.Layout.Statement (.ldl l sz) := by
  rintro - _ ⟨⟩; simp [Layout.instr, ofM]
theorem Sys2Proof.Laws.Layout.stl (l : LForm) (sz : MSize) : Sys2Proof.Laws.Layout.Statement (.stl l sz) := by
  rintro - _ ⟨⟩; simp [Layout.instr, ofM]
theorem Sys2Proof.Laws.Layout.bind (m : MForm) (sz : MSize) : Sys2Proof.Laws.Layout.Statement (.bind m sz) := by
  rintro - _ ⟨⟩; simp [Layout.instr, ofM]
theorem Sys2Proof.Laws.Layout.unbind (g : Guard) (d : BitVec 7) : Sys2Proof.Laws.Layout.Statement (.unbind g d) := by
  rintro - _ ⟨⟩; rfl
theorem Sys2Proof.Laws.Layout.bsync (g : Guard) : Sys2Proof.Laws.Layout.Statement (.bsync g) := by
  rintro - _ ⟨⟩; rfl
theorem Sys2Proof.Laws.Layout.bwait (f : AForm) (cond : BwaitCond) : Sys2Proof.Laws.Layout.Statement (.bwait f cond) := by
  rintro - _ ⟨⟩; cases cond <;> rfl
theorem Sys2Proof.Laws.Layout.bamo (f : AForm) (op : BamoOp) : Sys2Proof.Laws.Layout.Statement (.bamo f op) := by
  rintro - _ ⟨⟩; cases op <;> rfl
theorem Sys2Proof.Laws.Layout.bcas (f : AForm) : Sys2Proof.Laws.Layout.Statement (.bcas f) := by
  rintro - _ ⟨⟩; rfl
theorem Sys2Proof.Laws.Layout.fence (g : Guard) (kind : FenceKind) (scope : BitVec 4) : Sys2Proof.Laws.Layout.Statement (.fence g kind scope) := by
  rintro - _ ⟨⟩; cases kind <;> rfl
theorem Sys2Proof.Laws.Layout.fenceOwn (g : Guard) : Sys2Proof.Laws.Layout.Statement (.fenceOwn g) := by
  rintro - _ ⟨⟩; rfl
theorem Sys2Proof.Laws.Layout.fenceFar (g : Guard) (scope : BitVec 4) : Sys2Proof.Laws.Layout.Statement (.fenceFar g scope) := by
  rintro - _ ⟨⟩; rfl
theorem Sys2Proof.Laws.Layout.shfl (f : AForm) (mode : ShflMode) : Sys2Proof.Laws.Layout.Statement (.shfl f mode) := by
  rintro - _ ⟨⟩; cases mode <;> rfl
theorem Sys2Proof.Laws.Layout.vote (f : AForm) (mode : VoteMode) : Sys2Proof.Laws.Layout.Statement (.vote f mode) := by
  rintro - _ ⟨⟩; cases mode <;> rfl
theorem Sys2Proof.Laws.Layout.matchBits (f : AForm) : Sys2Proof.Laws.Layout.Statement (.matchBits f) := by
  rintro - _ ⟨⟩; rfl
theorem Sys2Proof.Laws.Layout.matchf (f : AForm) : Sys2Proof.Laws.Layout.Statement (.matchf f) := by
  rintro - _ ⟨⟩; rfl
theorem Sys2Proof.Laws.Layout.scan (f : AForm) (op : RedOp) (exc sat : Bool) (rm : RM) : Sys2Proof.Laws.Layout.Statement (.scan f op exc sat rm) := by
  rintro h _ ⟨⟩; simp only [Instr.wf, Instr.shape, Instr.aform, Instr.modsOk, Bool.and_eq_true] at h
  have e : RM.ofCode f.c.num.toNat = rm := by have := eq_of_beq h.2.2; rw [this]; cases rm <;> rfl
  cases op <;> cases exc <;> cases sat <;> exact congrArg (fun r => some (Instr.scan f _ _ _ r)) e
theorem Sys2Proof.Laws.Layout.red (f : AForm) (op : RedOp) (sat : Bool) (rm : RM) : Sys2Proof.Laws.Layout.Statement (.red f op sat rm) := by
  rintro h _ ⟨⟩; simp only [Instr.wf, Instr.shape, Instr.aform, Instr.modsOk, Bool.and_eq_true] at h
  have e : RM.ofCode f.c.num.toNat = rm := by have := eq_of_beq h.2.2; rw [this]; cases rm <;> rfl
  cases op <;> cases sat <;> exact congrArg (fun r => some (Instr.red f _ _ r)) e
theorem Sys2Proof.Laws.Layout.fork (g : Guard) (s d : BitVec 7) (off : BitVec 32) : Sys2Proof.Laws.Layout.Statement (.fork g s d off) := by
  rintro - _ ⟨⟩; have := s.isLt; have := d.isLt
  simp only [Layout.instr, ofB, Option.some.injEq, Instr.fork.injEq, true_and, and_true]
  constructor <;> apply BitVec.eq_of_toNat_eq <;> simp only [BitVec.toNat_setWidth, BitVec.toNat_ushiftRight, Nat.shiftRight_eq_div_pow, BitVec.toNat_ofNat] <;> omega
theorem Sys2Proof.Laws.Layout.fend (g : Guard) : Sys2Proof.Laws.Layout.Statement (.fend g) := by
  rintro - _ ⟨⟩; rfl
theorem Sys2Proof.Laws.Layout.id (f : AForm) (sel : IdSel) : Sys2Proof.Laws.Layout.Statement (.id f sel) := by
  rintro - _ ⟨⟩; simp [Layout.instr, ofA]
theorem Sys2Proof.Laws.Layout.launch (f : AForm) : Sys2Proof.Laws.Layout.Statement (.launch f) := by
  rintro - _ ⟨⟩; rfl
theorem Sys2Proof.Laws.Layout.barArrive (f : AForm) (rd : Bool) (n : BitVec 4) : Sys2Proof.Laws.Layout.Statement (.barArrive f rd n) := by
  rintro h _ ⟨⟩; simp only [Instr.wf, Instr.shape, Instr.aform, Instr.modsOk, Bool.and_eq_true] at h
  have e : f.c.num.setWidth 4 = n := BitVec.eq_of_toNat_eq (by
    have := n.isLt; have := eq_of_beq h.2; simp only [BitVec.toNat_setWidth]; omega)
  cases rd <;> simp [Layout.instr, ofA, isOne, bit, e]
theorem Sys2Proof.Laws.Layout.barWait (f : AForm) (n : BitVec 4) : Sys2Proof.Laws.Layout.Statement (.barWait f n) := by
  rintro h _ ⟨⟩; simp only [Instr.wf, Instr.shape, Instr.aform, Instr.modsOk, Bool.and_eq_true] at h
  have e : f.c.num.setWidth 4 = n := BitVec.eq_of_toNat_eq (by
    have := n.isLt; have := eq_of_beq h.2; simp only [BitVec.toNat_setWidth]; omega)
  simp [Layout.instr, ofA, isOne, bit, e]
theorem Sys2Proof.Laws.Layout.barSync (f : AForm) (n : BitVec 4) : Sys2Proof.Laws.Layout.Statement (.barSync f n) := by
  rintro h _ ⟨⟩; simp only [Instr.wf, Instr.shape, Instr.aform, Instr.modsOk, Bool.and_eq_true] at h
  have e : f.c.num.setWidth 4 = n := BitVec.eq_of_toNat_eq (by
    have := n.isLt; have := eq_of_beq h.2; simp only [BitVec.toNat_setWidth]; omega)
  simp [Layout.instr, ofA, isOne, bit, e]
theorem Sys2Proof.Laws.Layout.yield (g : Guard) : Sys2Proof.Laws.Layout.Statement (.yield g) := by
  rintro - _ ⟨⟩; rfl
theorem Sys2Proof.Laws.Layout.join (g : Guard) : Sys2Proof.Laws.Layout.Statement (.join g) := by
  rintro - _ ⟨⟩; rfl
theorem Sys2Proof.Laws.Layout.qpush (f : AForm) (nb : Bool) : Sys2Proof.Laws.Layout.Statement (.qpush f nb) := by
  rintro - _ ⟨⟩; cases nb <;> rfl
theorem Sys2Proof.Laws.Layout.qpop (f : AForm) (nb : Bool) : Sys2Proof.Laws.Layout.Statement (.qpop f nb) := by
  rintro - _ ⟨⟩; cases nb <;> rfl
theorem Sys2Proof.Laws.Layout.recruit (r : RecruitForm) : Sys2Proof.Laws.Layout.Statement (.recruit r) := by
  rintro - _ ⟨⟩
  have e := unpack_cmd [(5, r.k.toNat), (7, r.shr.toNat), (20, 0), (32, r.body.toNat)] (by simp)
  simp only [List.map_cons, List.map_nil, BitVec.toNat_ofNat] at e
  simp [Layout.instr, ofA, AForm.cmdBits, plainForm, field_mod, e]
theorem Sys2Proof.Laws.Layout.hwork (f : AForm) : Sys2Proof.Laws.Layout.Statement (.hwork f) := by
  rintro - _ ⟨⟩; rfl
theorem Sys2Proof.Laws.Layout.hret (f : AForm) (op : RedOp) : Sys2Proof.Laws.Layout.Statement (.hret f op) := by
  rintro - _ ⟨⟩; cases op <;> rfl
theorem Sys2Proof.Laws.Layout.hend (g : Guard) : Sys2Proof.Laws.Layout.Statement (.hend g) := by
  rintro - _ ⟨⟩; rfl
theorem Sys2Proof.Laws.Layout.tret (g : Guard) : Sys2Proof.Laws.Layout.Statement (.tret g) := by
  rintro - _ ⟨⟩; rfl
theorem Sys2Proof.Laws.Layout.sysr (f : AForm) (ax : Bool) : Sys2Proof.Laws.Layout.Statement (.sysr f ax) := by
  rintro - _ ⟨⟩; cases ax <;> rfl
theorem Sys2Proof.Laws.Layout.sysw (f : AForm) (ax : Bool) : Sys2Proof.Laws.Layout.Statement (.sysw f ax) := by
  rintro - _ ⟨⟩; cases ax <;> rfl
theorem Sys2Proof.Laws.Layout.tread (f : AForm) : Sys2Proof.Laws.Layout.Statement (.tread f) := by
  rintro - _ ⟨⟩; rfl
theorem Sys2Proof.Laws.Layout.icinv (f : AForm) (all : Bool) : Sys2Proof.Laws.Layout.Statement (.icinv f all) := by
  rintro - _ ⟨⟩; cases all <;> rfl
theorem Sys2Proof.Laws.Layout.mcdef (f : AForm) : Sys2Proof.Laws.Layout.Statement (.mcdef f) := by
  rintro - _ ⟨⟩; rfl
theorem Sys2Proof.Laws.Layout.migrate (f : AForm) : Sys2Proof.Laws.Layout.Statement (.migrate f) := by
  rintro - _ ⟨⟩; rfl
theorem Sys2Proof.Laws.Layout.tarr (f : AForm) (rd : Bool) (tree : Bool) : Sys2Proof.Laws.Layout.Statement (.tarr f rd tree) := by
  rintro h _ ⟨⟩; simp only [Instr.wf, Instr.shape, Instr.aform, Instr.modsOk, Bool.and_eq_true] at h
  cases rd <;> cases tree <;> simp_all [Layout.instr, ofA, isOne, bit]
theorem Sys2Proof.Laws.Layout.twait (f : AForm) (tree : Bool) : Sys2Proof.Laws.Layout.Statement (.twait f tree) := by
  rintro h _ ⟨⟩; simp only [Instr.wf, Instr.shape, Instr.aform, Instr.modsOk, Bool.and_eq_true] at h
  cases tree <;> simp_all [Layout.instr, ofA]
theorem Sys2Proof.Laws.Layout.spush (f : AForm) (nb : Bool) : Sys2Proof.Laws.Layout.Statement (.spush f nb) := by
  rintro - _ ⟨⟩; cases nb <;> rfl
theorem Sys2Proof.Laws.Layout.spop (f : AForm) (nb : Bool) : Sys2Proof.Laws.Layout.Statement (.spop f nb) := by
  rintro - _ ⟨⟩; cases nb <;> rfl
theorem Sys2Proof.Laws.Layout.lbmapSwap (g : Guard) (d a : BitVec 4) : Sys2Proof.Laws.Layout.Statement (.lbmapSwap g d a) := by
  rintro - _ ⟨⟩; simp [Layout.instr, ofA, plainForm, isOne]
theorem Sys2Proof.Laws.Layout.lbmapSet (g : Guard) (d : BitVec 4) (b : BitVec 7) : Sys2Proof.Laws.Layout.Statement (.lbmapSet g d b) := by
  rintro - _ ⟨⟩; simp [Layout.instr, ofA, plainForm, isOne]
theorem Sys2Proof.Laws.Layout.cpIn (e : EForm) (db : BitVec 4) (keep : Bool) (fmt : CpFmt) (doff : BitVec 16) (k128 : BitVec 8) : Sys2Proof.Laws.Layout.Statement (.cpIn e db keep fmt doff k128) := by
  rintro - _ ⟨⟩
  have e := unpack_cmd [(32, 0), (8, k128.toNat), (16, doff.toNat), (3, fmt.code), (1, bit keep), (4, db.toNat)] (by simp)
  simp only [List.map_cons, List.map_nil, BitVec.toNat_ofNat] at e
  simp [Layout.instr, ofA, AForm.cmdBits, AForm.eform, engForm, plainForm, field_mod, e]
theorem Sys2Proof.Laws.Layout.cpOut (e : EForm) (sb : BitVec 4) (pair : Bool) (soff : BitVec 16) (scope : BitVec 4) : Sys2Proof.Laws.Layout.Statement (.cpOut e sb pair soff scope) := by
  rintro - _ ⟨⟩
  have e := unpack_cmd [(36, 0), (4, scope.toNat), (16, soff.toNat), (3, 0), (1, bit pair), (4, sb.toNat)] (by simp)
  simp only [List.map_cons, List.map_nil, BitVec.toNat_ofNat] at e
  simp [Layout.instr, ofA, AForm.cmdBits, AForm.eform, engForm, plainForm, field_mod, e]
theorem Sys2Proof.Laws.Layout.cpPeer (e : EForm) (sb tb : BitVec 4) (soff toff : BitVec 16) (scope : BitVec 4) (keep : Bool) : Sys2Proof.Laws.Layout.Statement (.cpPeer e sb tb soff toff scope keep) := by
  rintro - _ ⟨⟩
  have e := unpack_cmd [(19, 0), (1, bit keep), (4, scope.toNat), (16, toff.toNat), (16, soff.toNat), (4, tb.toNat), (4, sb.toNat)] (by simp)
  simp only [List.map_cons, List.map_nil, BitVec.toNat_ofNat] at e
  simp [Layout.instr, ofA, AForm.cmdBits, AForm.eform, engForm, plainForm, field_mod, e]
theorem Sys2Proof.Laws.Layout.cpFill (e : EForm) (db : BitVec 4) (keep glb : Bool) (doff : BitVec 16) (scope : BitVec 4) : Sys2Proof.Laws.Layout.Statement (.cpFill e db keep glb doff scope) := by
  rintro - _ ⟨⟩
  have e := unpack_cmd [(36, 0), (4, scope.toNat), (16, doff.toNat), (2, 0), (1, bit glb), (1, bit keep), (4, db.toNat)] (by simp)
  simp only [List.map_cons, List.map_nil, BitVec.toNat_ofNat] at e
  simp [Layout.instr, ofA, AForm.cmdBits, AForm.eform, engForm, plainForm, field_mod, e]
theorem Sys2Proof.Laws.Layout.pub (g : Guard) (bar : Option (BitVec 4)) (a : BitVec 7) (scope : BitVec 4) : Sys2Proof.Laws.Layout.Statement (.pub g bar a scope) := by
  rintro - _ ⟨⟩; simp [Layout.instr, ofA, plainForm]
theorem Sys2Proof.Laws.Layout.gNode (g : Guard) (n : BitVec 6) (cnt : BitVec 6) (bar : Option (BitVec 4)) : Sys2Proof.Laws.Layout.Statement (.gNode g n cnt bar) := by
  rintro - _ ⟨⟩
  have e := unpack_cmd [(47, 0), (4, barCode bar % 16), (1, barCode bar / 16), (6, cnt.toNat), (6, n.toNat)] (by simp)
  simp only [List.map_cons, List.map_nil, BitVec.toNat_ofNat] at e
  simp [Layout.instr, ofA, AForm.cmdBits, engForm, plainForm, field_mod, e, bar_split]
theorem Sys2Proof.Laws.Layout.gEdge (g : Guard) (x y : BitVec 6) : Sys2Proof.Laws.Layout.Statement (.gEdge g x y) := by
  rintro - _ ⟨⟩; simp [Layout.instr, ofA, plainForm, isOne]
theorem Sys2Proof.Laws.Layout.gRun (g : Guard) (bar : Option (BitVec 4)) : Sys2Proof.Laws.Layout.Statement (.gRun g bar) := by
  rintro - _ ⟨⟩; simp [Layout.instr, ofA, plainForm]
theorem Sys2Proof.Laws.Layout.gReset (g : Guard) : Sys2Proof.Laws.Layout.Statement (.gReset g) := by
  rintro - _ ⟨⟩; rfl
theorem Sys2Proof.Laws.Layout.mm (e : EForm) (abuf bbuf : BitVec 4) (aoff boff : BitVec 12) (tile : BitVec 2) (ow tri ia : Bool) : Sys2Proof.Laws.Layout.Statement (.mm e abuf bbuf aoff boff tile ow tri ia) := by
  rintro - _ ⟨⟩
  have e := unpack_cmd [(27, 0), (1, bit ia), (1, bit tri), (1, bit ow), (2, tile.toNat), (12, boff.toNat), (12, aoff.toNat), (4, bbuf.toNat), (4, abuf.toNat)] (by simp)
  simp only [List.map_cons, List.map_nil, BitVec.toNat_ofNat] at e
  simp [Layout.instr, ofA, AForm.cmdBits, AForm.eform, engForm, plainForm, field_mod, e]
theorem Sys2Proof.Laws.Layout.mmClr (g : Guard) (bar : Option (BitVec 4)) (tile : BitVec 2) : Sys2Proof.Laws.Layout.Statement (.mmClr g bar tile) := by
  rintro - _ ⟨⟩; simp [Layout.instr, ofA, plainForm]
theorem Sys2Proof.Laws.Layout.mmLd (g : Guard) (bar : Option (BitVec 4)) (sb : BitVec 4) (tile : BitVec 2) (lk : Bool) (soff : BitVec 12) : Sys2Proof.Laws.Layout.Statement (.mmLd g bar sb tile lk soff) := by
  rintro - _ ⟨⟩
  have e := unpack_cmd [(45, 0), (12, soff.toNat), (1, bit lk), (2, tile.toNat), (4, sb.toNat)] (by simp)
  simp only [List.map_cons, List.map_nil, BitVec.toNat_ofNat] at e
  simp [Layout.instr, ofA, AForm.cmdBits, engForm, plainForm, field_mod, e]
theorem Sys2Proof.Laws.Layout.mmRd (g : Guard) (bar : Option (BitVec 4)) (db : BitVec 4) (keep : Bool) (tile : BitVec 2) (sk : RdSrc) (ofmt : RdOut) (doff : BitVec 12) : Sys2Proof.Laws.Layout.Statement (.mmRd g bar db keep tile sk ofmt doff) := by
  rintro - _ ⟨⟩
  have e := unpack_cmd [(41, 0), (12, doff.toNat), (2, ofmt.code), (2, sk.code), (2, tile.toNat), (1, bit keep), (4, db.toNat)] (by simp)
  simp only [List.map_cons, List.map_nil, BitVec.toNat_ofNat] at e
  simp [Layout.instr, ofA, AForm.cmdBits, engForm, plainForm, field_mod, e]
theorem Sys2Proof.Laws.Layout.operationCompletion (uid op : Nat) : Sys2Proof.Laws.Layout.Statement (.operationCompletion uid op) := by
  rintro _ _ ⟨⟩
theorem Sys2Proof.Laws.Layout.watchdog : Sys2Proof.Laws.Layout.Statement (.watchdog) := by
  rintro _ _ ⟨⟩
theorem Sys2Proof.Laws.Layout.weaveDemote (uid widx : Nat) : Sys2Proof.Laws.Layout.Statement (.weaveDemote uid widx) := by
  rintro _ _ ⟨⟩
theorem Sys2Proof.Laws.Layout.weavePromote (core : Nat) : Sys2Proof.Laws.Layout.Statement (.weavePromote core) := by
  rintro _ _ ⟨⟩
theorem Sys2Proof.Laws.Layout.launchReady (ctx queue : Nat) : Sys2Proof.Laws.Layout.Statement (.launchReady ctx queue) := by
  rintro _ _ ⟨⟩
theorem Sys2Proof.Laws.Layout.blockPlacement (die : Nat) : Sys2Proof.Laws.Layout.Statement (.blockPlacement die) := by
  rintro _ _ ⟨⟩
theorem Sys2Proof.Laws.Layout.preemption (die : Nat) : Sys2Proof.Laws.Layout.Statement (.preemption die) := by
  rintro _ _ ⟨⟩
theorem Sys2Proof.Laws.Layout.launchCompletion (ctx lid : Nat) : Sys2Proof.Laws.Layout.Statement (.launchCompletion ctx lid) := by
  rintro _ _ ⟨⟩
theorem Sys2Proof.Laws.Layout.trapEntry (uid : Nat) : Sys2Proof.Laws.Layout.Statement (.trapEntry uid) := by
  rintro _ _ ⟨⟩
theorem Sys2Proof.Laws.Layout.recordCompletion (ctx seq : Nat) : Sys2Proof.Laws.Layout.Statement (.recordCompletion ctx seq) := by
  rintro _ _ ⟨⟩
theorem Sys2Proof.Laws.Layout.breakpointMatch (n : BitVec 2) : Sys2Proof.Laws.Layout.Statement (.breakpointMatch n) := by
  rintro _ _ ⟨⟩
theorem Sys2Proof.Laws.Layout.helperStart (uid pool : Nat) : Sys2Proof.Laws.Layout.Statement (.helperStart uid pool) := by
  rintro _ _ ⟨⟩
theorem Sys2Proof.Laws.Layout.releaseRequest (uid widx : Nat) : Sys2Proof.Laws.Layout.Statement (.releaseRequest uid widx) := by
  rintro _ _ ⟨⟩
theorem Sys2Proof.Laws.Layout.recruiterResume (uid pool : Nat) : Sys2Proof.Laws.Layout.Statement (.recruiterResume uid pool) := by
  rintro _ _ ⟨⟩
theorem Sys2Proof.Laws.Layout.push (core line : Nat) : Sys2Proof.Laws.Layout.Statement (.push core line) := by
  rintro _ _ ⟨⟩
theorem Sys2Proof.Laws.Layout.missRequest (core line : Nat) (own : Bool) : Sys2Proof.Laws.Layout.Statement (.missRequest core line own) := by
  rintro _ _ ⟨⟩
theorem Sys2Proof.Laws.Layout.dataReply (core line : Nat) : Sys2Proof.Laws.Layout.Statement (.dataReply core line) := by
  rintro _ _ ⟨⟩
theorem Sys2Proof.Laws.Layout.probe (core line : Nat) : Sys2Proof.Laws.Layout.Statement (.probe core line) := by
  rintro _ _ ⟨⟩
theorem Sys2Proof.Laws.Layout.writeBack (core line : Nat) : Sys2Proof.Laws.Layout.Statement (.writeBack core line) := by
  rintro _ _ ⟨⟩
theorem Sys2Proof.Laws.Layout.collapse (line : Nat) : Sys2Proof.Laws.Layout.Statement (.collapse line) := by
  rintro _ _ ⟨⟩
theorem Sys2Proof.Laws.Layout.zoneReview (zone : Nat) : Sys2Proof.Laws.Layout.Statement (.zoneReview zone) := by
  rintro _ _ ⟨⟩
theorem Sys2Proof.Laws.Layout.replWrite (zone : Nat) (v : Word) : Sys2Proof.Laws.Layout.Statement (.replWrite zone v) := by
  rintro _ _ ⟨⟩
theorem Sys2Proof.Laws.Layout.translationWalk (ctx die vpn : Nat) : Sys2Proof.Laws.Layout.Statement (.translationWalk ctx die vpn) := by
  rintro _ _ ⟨⟩
theorem Sys2Proof.Laws.Layout.commandStart (uid : Nat) (e : Engine) : Sys2Proof.Laws.Layout.Statement (.commandStart uid e) := by
  rintro _ _ ⟨⟩
theorem Sys2Proof.Laws.Layout.commandCompletion (uid cmd : Nat) : Sys2Proof.Laws.Layout.Statement (.commandCompletion uid cmd) := by
  rintro _ _ ⟨⟩
theorem Sys2Proof.Laws.Layout.commandError (uid cmd : Nat) (inner : BitVec 8) : Sys2Proof.Laws.Layout.Statement (.commandError uid cmd inner) := by
  rintro _ _ ⟨⟩
theorem Sys2Proof.Laws.Layout.seqctlEnd (uid : Nat) : Sys2Proof.Laws.Layout.Statement (.seqctlEnd uid) := by
  rintro _ _ ⟨⟩
theorem Sys2Proof.Laws.Layout.relaunchEvent (src : Reporter) (cause : BitVec 8) (addr aux : Word) : Sys2Proof.Laws.Layout.Statement (.relaunchEvent src cause addr aux) := by
  rintro _ _ ⟨⟩
theorem Sys2Proof.Laws.Layout.remoteRefusal (src : Reporter) (pa sq : Nat) : Sys2Proof.Laws.Layout.Statement (.remoteRefusal src pa sq) := by
  rintro _ _ ⟨⟩
theorem Sys2Proof.Laws.Layout.save (core frame : Nat) : Sys2Proof.Laws.Layout.Statement (.save core frame) := by
  rintro _ _ ⟨⟩
theorem Sys2Proof.Laws.Layout.restore (die core frame : Nat) : Sys2Proof.Laws.Layout.Statement (.restore die core frame) := by
  rintro _ _ ⟨⟩
theorem Sys2Proof.Laws.Layout.retire (core : Nat) : Sys2Proof.Laws.Layout.Statement (.retire core) := by
  rintro _ _ ⟨⟩
theorem Sys2Proof.Laws.Layout.returnToService (core : Nat) : Sys2Proof.Laws.Layout.Statement (.returnToService core) := by
  rintro _ _ ⟨⟩
theorem Sys2Proof.Laws.Layout.dieReset (die : Nat) : Sys2Proof.Laws.Layout.Statement (.dieReset die) := by
  rintro _ _ ⟨⟩
theorem Sys2Proof.Laws.Layout.drainDeadline (die : Nat) : Sys2Proof.Laws.Layout.Statement (.drainDeadline die) := by
  rintro _ _ ⟨⟩
theorem Sys2Proof.Laws.Layout.dieReturn (die : Nat) : Sys2Proof.Laws.Layout.Statement (.dieReturn die) := by
  rintro _ _ ⟨⟩
theorem Sys2Proof.Laws.Layout.sliceRetire (die n : Nat) : Sys2Proof.Laws.Layout.Statement (.sliceRetire die n) := by
  rintro _ _ ⟨⟩
theorem Sys2Proof.Laws.Layout.invalidation (die ctx page : Nat) (all : Bool) : Sys2Proof.Laws.Layout.Statement (.invalidation die ctx page all) := by
  rintro _ _ ⟨⟩
theorem Sys2Proof.Laws.Layout.registerWrite (die off : Nat) (v : Word) : Sys2Proof.Laws.Layout.Statement (.registerWrite die off v) := by
  rintro _ _ ⟨⟩
theorem Sys2Proof.Laws.Layout.messageArrival (uid widx : Nat) : Sys2Proof.Laws.Layout.Statement (.messageArrival uid widx) := by
  rintro _ _ ⟨⟩
theorem Sys2Proof.Laws.Layout.messageRetry (uid widx : Nat) : Sys2Proof.Laws.Layout.Statement (.messageRetry uid widx) := by
  rintro _ _ ⟨⟩
theorem Sys2Proof.Laws.Layout.handlerStart (core : Nat) : Sys2Proof.Laws.Layout.Statement (.handlerStart core) := by
  rintro _ _ ⟨⟩
theorem Sys2Proof.Laws.Layout.migrationArrival (uid : Nat) : Sys2Proof.Laws.Layout.Statement (.migrationArrival uid) := by
  rintro _ _ ⟨⟩
theorem Sys2Proof.Laws.Layout.treeReport (tree : Bool) (die : Nat) : Sys2Proof.Laws.Layout.Statement (.treeReport tree die) := by
  rintro _ _ ⟨⟩
theorem Sys2Proof.Laws.Layout.absenceNotice (tree : Bool) (uid : Nat) : Sys2Proof.Laws.Layout.Statement (.absenceNotice tree uid) := by
  rintro _ _ ⟨⟩
theorem Sys2Proof.Laws.Layout.presenceNotice (tree : Bool) (uid : Nat) : Sys2Proof.Laws.Layout.Statement (.presenceNotice tree uid) := by
  rintro _ _ ⟨⟩
theorem Sys2Proof.Laws.Layout.roundComplete (tree : Bool) : Sys2Proof.Laws.Layout.Statement (.roundComplete tree) := by
  rintro _ _ ⟨⟩
theorem Sys2Proof.Laws.Layout.treeRelease (tree : Bool) (die : Nat) : Sys2Proof.Laws.Layout.Statement (.treeRelease tree die) := by
  rintro _ _ ⟨⟩
theorem Sys2Proof.Laws.Layout.scrub (line : Nat) (r : ScrubResult) : Sys2Proof.Laws.Layout.Statement (.scrub line r) := by
  rintro _ _ ⟨⟩
theorem Sys2Proof.Laws.Layout.stepBoundary : Sys2Proof.Laws.Layout.Statement (.stepBoundary) := by
  rintro _ _ ⟨⟩
theorem Sys2Proof.Laws.Layout.droopAlarm (r : Nat) : Sys2Proof.Laws.Layout.Statement (.droopAlarm r) := by
  rintro _ _ ⟨⟩
theorem Sys2Proof.Laws.Layout.droopRecovery (r : Nat) : Sys2Proof.Laws.Layout.Statement (.droopRecovery r) := by
  rintro _ _ ⟨⟩
theorem Sys2Proof.Laws.Layout.holdExpiry (r : Nat) : Sys2Proof.Laws.Layout.Statement (.holdExpiry r) := by
  rintro _ _ ⟨⟩
theorem Sys2Proof.Laws.Layout.sessionOpen (src : Source) (m : UzMsg) : Sys2Proof.Laws.Layout.Statement (.sessionOpen src m) := by
  rintro _ _ ⟨⟩
theorem Sys2Proof.Laws.Layout.contextCreate (r : UzIn) : Sys2Proof.Laws.Layout.Statement (.contextCreate r) := by
  rintro _ _ ⟨⟩
theorem Sys2Proof.Laws.Layout.contextDestroy (src : Source) (m : UzMsg) : Sys2Proof.Laws.Layout.Statement (.contextDestroy src m) := by
  rintro _ _ ⟨⟩
theorem Sys2Proof.Laws.Layout.moduleLoad (r : UzIn) : Sys2Proof.Laws.Layout.Statement (.moduleLoad r) := by
  rintro _ _ ⟨⟩
theorem Sys2Proof.Laws.Layout.map (r : UzIn) : Sys2Proof.Laws.Layout.Statement (.map r) := by
  rintro _ _ ⟨⟩
theorem Sys2Proof.Laws.Layout.put (src : Source) (h : UzHdr) (fields data : List Byte) : Sys2Proof.Laws.Layout.Statement (.put src h fields data) := by
  rintro _ _ ⟨⟩
theorem Sys2Proof.Laws.Layout.get (src : Source) (h : UzHdr) (fields more : List Byte) : Sys2Proof.Laws.Layout.Statement (.get src h fields more) := by
  rintro _ _ ⟨⟩
theorem Sys2Proof.Laws.Layout.launchRequest (src : Source) (h : UzHdr) (ctx record more : List Byte) : Sys2Proof.Laws.Layout.Statement (.launchRequest src h ctx record more) := by
  rintro _ _ ⟨⟩
theorem Sys2Proof.Laws.Layout.quote (src : Source) (m : UzMsg) : Sys2Proof.Laws.Layout.Statement (.quote src m) := by
  rintro _ _ ⟨⟩
theorem Sys2Proof.Laws.Layout.faultReply (src : Source) (h : UzHdr) (fields more : List Byte) : Sys2Proof.Laws.Layout.Statement (.faultReply src h fields more) := by
  rintro _ _ ⟨⟩
theorem Sys2Proof.Laws.Layout.fwUpdate (r : UzIn) : Sys2Proof.Laws.Layout.Statement (.fwUpdate r) := by
  rintro _ _ ⟨⟩
theorem Sys2Proof.Laws.Layout.rmaWriteReceive (ctx va : Nat) (data : List Byte) : Sys2Proof.Laws.Layout.Statement (.rmaWriteReceive ctx va data) := by
  rintro _ _ ⟨⟩
theorem Sys2Proof.Laws.Layout.sandboxEnd (id : Nat) : Sys2Proof.Laws.Layout.Statement (.sandboxEnd id) := by
  rintro _ _ ⟨⟩
theorem Sys2Proof.Laws.Layout.boot : Sys2Proof.Laws.Layout.Statement (.boot) := by
  rintro _ _ ⟨⟩
theorem Sys2Proof.Laws.Layout.fullService : Sys2Proof.Laws.Layout.Statement (.fullService) := by
  rintro _ _ ⟨⟩
theorem Sys2Proof.Laws.Layout.illegalInstruction (g : Guard) (len : Nat) : Sys2Proof.Laws.Layout.Statement (.illegalInstruction g len) := by
  rintro _ _ ⟨⟩
theorem Sys2Proof.Laws.Layout.sessionClose (session : Nat) : Sys2Proof.Laws.Layout.Statement (.sessionClose session) := by
  rintro _ _ ⟨⟩
theorem Sys2Proof.Laws.Layout.regionBringUp (r : Nat) : Sys2Proof.Laws.Layout.Statement (.regionBringUp r) := by
  rintro _ _ ⟨⟩
theorem Sys2Proof.Laws.Layout.hartAccess (hart : Nat) (op : HartOp) : Sys2Proof.Laws.Layout.Statement (.hartAccess hart op) := by
  rintro _ _ ⟨⟩
theorem Sys2Proof.Laws.Layout.unsupportedFeatureRequest (port : Nat) : Sys2Proof.Laws.Layout.Statement (.unsupportedFeatureRequest port) := by
  rintro _ _ ⟨⟩
theorem Sys2Proof.Laws.Layout.reservedTypeRequest (r : UzIn) (ty : BitVec 16) : Sys2Proof.Laws.Layout.Statement (.reservedTypeRequest r ty) := by
  rintro _ _ ⟨⟩
end

