-- ==== Sys2Proof/Laws/Service.lean ====
section
/-! SUPPORT. What the service makes of a request that arrives as R437 and R440 ask. -/
namespace Sys2Proof.Machine

/-- The header of a request fits where its fields do and its body is no longer than the largest legal one (R437, R441). -/
theorem hdrFits_of (h : UzHdr) (major minor : Nat) (mgmt : Bool)
    (hf : (h.magic = 0x5A55 && h.major.toNat = major && h.minor.toNat = minor && h.status = 0 && h.zero = 0) = true)
    (hl : h.len.toNat ≤ legalBody mgmt) : hdrFits h major minor mgmt = true := by
  have : h.len.toNat ≤ maxBody mgmt := Nat.le_trans hl (Nat.le_add_right _ _)
  unfold hdrFits
  rw [hf, decide_eq_true this]
  rfl

/-- A request on an open session is answered with what its type makes of its body. -/
theorem receive_of {s : State} {src : Source} {m : UzMsg} {mgmt : Bool} {b : List Byte} (h : requestOk s src m mgmt b) (ty : Nat)
    (ht : mgmt = true → mgmtTakes ty = true) :
    ∃ x : Session, x.mgmt = mgmt ∧ ∀ f, receive s ty src m f = answer m.h m.h.session.toNat ty (f x b) := by
  obtain ⟨hh, hk, ⟨x, hx, hm, hf⟩, hc⟩ := h
  refine ⟨x, hm, fun f => ?_⟩
  have hs : sessionOf s src m.h ty = some x := by
    unfold sessionOf
    rw [hx]
    cases mgmt <;> simp_all
  subst hm
  simp only [receive, replyTo, hh, hs, hc, hf, if_true]

/-- The same for a request about a context of the session. -/
theorem receiveCtx_of {s : State} {src : Source} {m : UzMsg} {ctx : Nat} {c : Ctx} {b : List Byte} (h : requestIn s src m ctx c b) (ty : Nat)
    (f : Nat → Ctx → List Byte → Reply) : receiveCtx s ty src m f = answer m.h m.h.session.toNat ty (f ctx c b) := by
  obtain ⟨h, hw, hk, ho⟩ := h
  obtain ⟨x, -, hr⟩ := receive_of h ty nofun
  have he : fieldAt (toBytes 8 ctx ++ b) 0 8 = ctx := by
    simp only [fieldAt, toBytes, List.cons_append, List.nil_append, List.drop_zero, List.take_succ_cons, List.take_zero, ofBytes, BitVec.toNat_ofNat]
    omega
  have hl : 8 ≤ (toBytes 8 ctx ++ b).length := by simp [toBytes]
  have hd : (toBytes 8 ctx ++ b).drop 8 = b := by simp [toBytes]
  rw [receiveCtx, hr]
  simp only [inContext, he, hd, hk, ho, if_true]
  rw [if_neg (by simp only [Bool.or_eq_true, decide_eq_true_eq]; omega)]

end Sys2Proof.Machine
end

