-- ==== Sys2Proof/Tests/Slice0.lean ====
section
/-! SUPPORT. Tests: ill-formed terms that are refused, words of the spec's encoding tables that decode, single steps on small states, and for
every statement states that meet its hypotheses. -/
open Sys2Proof Sys2Proof.Machine
namespace Sys2Proof.Tests
set_option Elab.async false

/-! ### Terms -/

def g0 : Guard := ⟨0, false⟩
/-- A register source, one with a last use, a uniform register. -/
def w (n : BitVec 7) : Src := ⟨n, false, false, .none, false, false⟩
def wl (n : BitVec 7) : Src := { w n with last := true }
def kr (n : BitVec 7) : Src := { w n with uni := true }
def wd (n : BitVec 7) : Dst := ⟨n, false⟩
def kd (n : BitVec 7) : Dst := ⟨n, true⟩
def form (ty : Ty) (d : Dst) (a b c : Src) (ext : Ext := .a64) : AForm := { g := g0, ms := false, ty, d, a, b, c, ext }
def mform (d a b scope : Nat) (ord : MOrd) (off : BitVec 32) : MForm :=
  { g := g0, ms := false, d := BitVec.ofNat 7 d, a := BitVec.ofNat 7 a, b := BitVec.ofNat 7 b, scope := BitVec.ofNat 4 scope, ord, nb := false, la := false, lb := false, ld := false,
    wide := false, off }
def lform (d a : BitVec 7) (buf : Option (BitVec 4)) (off : BitVec 32) : LForm :=
  { g := g0, ms := false, d, a, b := 0, buf, nb := false, la := false, lb := false, ld := false, wide := false, off }
def eform (bar : Option (BitVec 4)) (a b c : BitVec 7) : EForm := ⟨g0, bar, a, b, c⟩

def addI : Instr := .add (form .s32 (wd 5) (w 3) (w 2) (w 0)) false false

/-! ### Well-formedness: a term that each check refuses, beside one that passes -/

theorem test_wf_add : addI.wf = true := by decide
theorem test_wf_type : (Instr.add (form .f32 (wd 5) (w 3) (w 2) (w 0)) false false).wf = false := by decide
theorem test_wf_ms : (Instr.add { form .s32 (wd 5) (w 3) (w 2) (w 0) with ms := true } false false).wf = false := by decide
theorem test_wf_uniform_limit : (Instr.add (form .s32 (kd 32) (w 3) (w 2) (w 0)) false false).wf = false := by decide
theorem test_wf_unused_field : (Instr.add (form .s32 (wd 5) (w 3) (w 2) (w 1)) false false).wf = false := by decide
theorem test_wf_pattern_with_uniform :
    (Instr.add (form .s32 (wd 5) { w 2 with pat := .rot 1 } (kr 3) (w 0)) false false).wf = false := by decide
theorem test_wf_modifier_needs_a96 : (Instr.add (form .s32 (wd 5) (w 3) { w 2 with neg := true } (w 0)) false false).wf = false := by decide
theorem test_wf_uns : (Instr.add (form .s32 (wd 5) (w 3) (w 2) (w 0)) true false).wf = false := by decide
theorem test_wf_sem : (Instr.add (form .cd (wd 5) (w 3) (w 2) (w 0) (.a96 0)) false false).wf = false := by decide
theorem test_wf_predicate_limit : (Instr.cmp (form .s32 (wd 16) (w 3) (w 2) (w 0)) false .eq).wf = false := by decide
theorem test_wf_short_immediate : (Instr.fmul (form .bf16 (wd 6) (w 6) (w 0) (w 0) (.i96 0x10000)) .rne).wf = false := by decide
theorem test_wf_branch_offset : (Instr.bra g0 4).wf = false := by decide
theorem test_wf_order : (Instr.ld (mform 4 1 0 2 .rel 0) .z64).wf = false := by decide
theorem test_wf_scope : (Instr.ld (mform 4 1 0 10 .plain 0) .z64).wf = false := by decide
theorem test_wf_offset : (Instr.ld (mform 4 1 0 0 .plain 4096) .z64).wf = false := by decide
theorem test_wf_store_size : (Instr.st (mform 4 1 0 0 .plain 0) .s32).wf = false := by decide
theorem test_wf_cas_pair : (Instr.cas (mform 4 1 127 0 .plain 0) .z64).wf = false := by decide
theorem test_wf_bind_size : (Instr.bind (mform 4 1 0 0 .plain 0) .z16).wf = false := by decide
theorem test_wf_buffer_base : (Instr.ldl (lform 6 1 (some 3) 0) .z32).wf = false := by decide
theorem test_wf_fence_scope : (Instr.fence g0 .acq 10).wf = false := by decide
theorem test_wf_far_scope : (Instr.fenceFar g0 1).wf = false := by decide
theorem test_wf_recruit : (Instr.recruit ⟨g0, 1, 2, false, 0, 16, 8⟩).wf = false := by decide
theorem test_wf_fill : (Instr.cpFill (eform none 1 0 0) 0 true true 0 0).wf = false := by decide
theorem test_wf_mm_strides : (Instr.mm (eform none 1 2 0) 0 1 0 0 0 false false false).wf = false := by decide
theorem test_wf_barrier_number : (Instr.barSync (form .s8 (wd 0) (w 0) (w 5) (w 1)) 2).wf = false := by decide
theorem test_wf_rounding : (Instr.scan (form .s32 (wd 3) (w 1) (w 0) (w 1)) .add false false .rtz).wf = false := by decide
theorem test_wf_event : (Instr.watchdog).wf = false := by decide

/-! ### Words of the spec's encoding tables (spec 03, 05 to 07, 09, 10, 12, 13, 15, 16, 18, 20) -/

-- clause wait=m0,m3 set=m1,m2
theorem test_decode_clause : decode 0x84027 = some (.clause 9 1 2 0) := by decide +kernel
-- (!p3) add.s32 w5, w3!, w2
theorem test_decode_guard : decode 0x0001200081854C04 = some (.add { form .s32 (wd 5) (wl 3) (w 2) (w 0) with g := ⟨3, true⟩ } false false) := by
  decide +kernel
-- add.s32 w5, w2:rot1, w3
theorem test_decode_pattern : decode 0x00482000C1050004 = some (.add (form .s32 (wd 5) { w 2 with pat := .rot 1 } (w 3) (w 0)) false false) := by
  decide +kernel
-- add.s32 k4, k2, k3
theorem test_decode_uniform : decode 0x02C02000C1040004 = some (.add (form .s32 (kd 4) (kr 2) (kr 3) (w 0)) false false) := by decide +kernel
-- add.s32 w5, w3, #-16
theorem test_decode_immediate : decode 0xFFFFFFF08000200001850005
    = some (.add (form .s32 (wd 5) (w 3) (w 0) (w 0) (.i96 0xFFFFFFF0)) false false) := by decide +kernel
-- add.s16x4.se03 w7, w1, -w2
theorem test_decode_a96 : decode 0x020300000000D00080870005
    = some (.add (form .cd (wd 7) (w 1) { w 2 with neg := true } (w 0) (.a96 3)) false false) := by decide +kernel
-- cmp.s32.lt.or p2, w4, w5, p3
theorem test_decode_cmp : decode 0x5000206142020084 = some (.cmp (form .s32 (wd 2) (w 4) (w 5) (w 3)) true .lt) := by decide +kernel
-- pmov pw, w5
theorem test_decode_pmov : decode 0x080000000280008C = some (.pmov (form .s8 (wd 0) (w 5) (w 0) (w 0)) true) := by decide +kernel
-- fcvt.bf16.f32.rup w3, w2
theorem test_decode_fcvt : decode 0x98009000010300E8 = some (.fcvt (form .bf16 (wd 3) (w 2) (w 0) (w 0)) .f32 .rup) := by decide +kernel
-- dot.bf.f32 w9, w1, w2, w9
theorem test_decode_dot : decode 0xC000A1208089011C = some (.dot (form .f32 (wd 9) (w 1) (w 2) (w 9)) .bf .rne) := by decide +kernel
-- call w20, dbl: FUNC 20, OFF32 64
theorem test_decode_call : decode 0x0014000000400208 = some (.call g0 20 0x40) := by decide +kernel
-- ret w20!
theorem test_decode_ret : decode 0x000100000A00020C = some (.ret (form .s8 (wd 0) (wl 20) (w 0) (w 0))) := by decide +kernel
-- st.64.rel.panel w5, [w2+w6+8]
theorem test_decode_st : decode 0x0040506181050144 = some (.st (mform 5 2 6 8 .rel 8) .z64) := by decide +kernel
-- amo.add.64.ar.lv1 w7, [w4+16], w8
theorem test_decode_amo : decode 0x0080E20202070154 = some (.amo { mform 7 4 8 1 .ar 16 with nb := true } .add) := by decide +kernel
-- ldl.32 w6, [lb3+0x80]
theorem test_decode_ldl : decode 0x0400464000060148 = some (.ldl (lform 6 0 (some 3) 0x80) .z32) := by decide +kernel
-- vote.ballot w6, p3
theorem test_decode_vote : decode 0x18000000018601C4 = some (.vote (form .s8 (wd 6) (w 3) (w 0) (w 0)) .ballot) := by decide +kernel
-- (p1) red.max.s32 w4, w1
theorem test_decode_red : decode 0x40002000008405D4
    = some (.red { form .s32 (wd 4) (w 1) (w 0) (w 0) with g := ⟨1, false⟩ } .max false .rne) := by decide +kernel
-- fork w6, w1, child
theorem test_decode_fork : decode 0x0086000000400240 = some (.fork g0 1 6 0x40) := by decide +kernel
-- bar.arrive w7, b1, w5
theorem test_decode_barrier : decode 0x2000002140070280 = some (.barArrive (form .s8 (wd 7) (w 0) (w 5) (w 1)) true 1) := by decide +kernel
-- qpop.nb w4, p2
theorem test_decode_qpop : decode 0x0800704000040288 = some (.qpop (form .n64 (wd 4) (w 0) (w 0) (w 2)) true) := by decide +kernel
-- recruit w40, w41, #2, body, w16: body 16 ahead
theorem test_decode_recruit : decode 0x00000010000002020000600014A80252 = some (.recruit ⟨g0, 40, 41, false, 2, 16, 16⟩) := by decide +kernel
-- hret.add.f32 w2!, k4
theorem test_decode_hret : decode 0x0001A00001040258 = some (.hret (form .f32 (wd 4) (wl 2) (w 0) (w 0)) .add) := by decide +kernel
-- bcas.s64 p3, w10, w12, w13
theorem test_decode_bcas : decode 0x000031A3018A0174 = some (.bcas (form .s64 (wd 10) (w 3) (w 12) (w 13))) := by decide +kernel
-- bwait.ge.s32 w11, #2
theorem test_decode_bwait : decode 0x0000000210002000000B016D = some (.bwait (form .s32 (wd 11) (w 0) (w 0) (w 0) (.i96 2)) .ge) := by decide +kernel
-- fence.rel.lv1
theorem test_decode_fence : decode 0x0000420000000178 = some (.fence g0 .rel 1) := by decide +kernel
-- cp.in.b9 lb0+0, [s1], s2, s0, #1
theorem test_decode_cpin : decode 0x0400000100000000000000008080030E = some (.cpIn (eform none 1 2 0) 0 false .b9 0 1) := by decide +kernel
-- cp.peer.panel lb5+0, s1, lb2+0, s2, [s3]
theorem test_decode_cppeer : decode 0x25000000008000000000006080800316 = some (.cpPeer (eform none 1 2 3) 2 5 0 0 8 false) := by
  decide +kernel
-- g.node #1, #1, b0
theorem test_decode_gnode : decode 0x0418000000000000000000000000031E = some (.gNode g0 1 1 (some 0)) := by decide +kernel
-- mm.ow.tri.int a1, lb0+0, lb1+0, s1, s2, s3
theorem test_decode_mm : decode 0x01000000780000000000006080800332 = some (.mm (eform none 1 2 3) 0 1 0 0 1 true true true) := by
  decide +kernel
-- sysr w6, sr.xaux
theorem test_decode_sysr : decode 0x00007280000602C0 = some (.sysr (form .n64 (wd 6) (w 0) (w 0) (w 20)) false) := by decide +kernel
-- trap #0x2A
theorem test_decode_trap : decode 0x0000002A0000600000000219 = some (.trap (form .n32 (wd 0) (w 0) (w 0) (w 0) (.i96 0x2A))) := by decide +kernel
-- tarr w7, t1
theorem test_decode_tarr : decode 0x200000200007028C = some (.tarr (form .s8 (wd 7) (w 0) (w 0) (w 1)) true true) := by decide +kernel
theorem test_decode_reserved : decode 0x198 = none ∧ decode 0x1F00081850004 = none ∧ decode 0x18000 = none := by decide +kernel

/-! ### Small states: one context, one block on core 0 with one fibre and a stream, both at address 0x1000 (log 3) -/

def base (seqSide : Bool) : State := placeProgram State.reset [] seqSide
def me : Actor := .fib 1 0 0
def sq : Actor := .seq 1
/-- The issue of the fibre, and of the stream. -/
def k0 (n : Nat) : Iss :=
  { uid := 1, weave := some 0, pc := 0x1000, npc := 0x1000 + BitVec.ofNat 64 n, size := n, acts := [me], batch := [me], seta := 0, setb := 1,
    mac := none, wd := 0, woke := none, inside := [] }
def kq (n : Nat) : Iss := { k0 n with weave := none, acts := [sq], batch := [sq] }
def after (o : Out) : Option State := match o with | .next s => some s | _ => none
def fib (f : Fibre → Fibre) (s : State := base false) : State := s.updFibre 1 0 0 f
/-- The fibre holds live values in w2 and w3. -/
def two (a b : Word) : State := fib fun f => { f with regs := [(2, .live a), (3, .live b)] }
def blk (f : Block → Block) (s : State := base false) : State := s.updBlock 1 f
def wv (f : Weave → Weave) (s : State := base false) : State := s.updWeave 1 0 f
def strm (f : Stream → Stream) (s : State := base true) : State := s.updStream 1 f

theorem mget_mem {α : Type} (m : Map α) (i : Nat) (v : α) (h : mget m i = some v) : (i, v) ∈ m := by
  induction m with
  | nil => cases h
  | cons e r ih =>
    obtain ⟨j, x⟩ := e
    simp only [mget] at h
    split at h
    · cases h; subst_vars; exact List.mem_cons_self
    · exact List.mem_cons_of_mem _ (ih h)
theorem noneLate (s : State) (h : ∀ e ∈ s.blocks, e.2.deadline = none) : missesInTime s := fun _ m _ b hb => h _ (mget_mem _ m.uid b hb)
theorem noBinds (s : State) (l : List Actor) (n : Nat)
    (h : (∀ e ∈ s.blocks, ∀ x ∈ e.2.weaves, ∀ f ∈ x.2.fibres, mget f.2.binds n = none)) : unboundIn s l n := by
  intro u w sl f _ hf
  obtain ⟨x, hx, hf⟩ := Option.bind_eq_some_iff.mp hf
  obtain ⟨b, hb, hx⟩ := Option.bind_eq_some_iff.mp hx
  exact h _ (mget_mem _ _ _ hb) _ (mget_mem _ _ _ hx) _ (mget_mem _ _ _ hf)

/-! ### Encoding, fetch, step -/

theorem test_round_trip : encode addI = some (8, 0x0001200081850004 - 0x1000000000000) ∧ addI.wf = true := by decide +kernel

/-- Where the word of addI stands at the PC. -/
def placed : State := State.reset.withFetchWord 64 0x0000200081850004

theorem test_step_first : dueFirst { base false with time := 600 } = some .stepBoundary := by decide +kernel
theorem test_step_event : ∃ (s : State) (i : Instr) (r : List Instr), dueFirst s = none ∧ s.inbox = i :: r :=
  ⟨{ base false with inbox := [.stepBoundary] }, .stepBoundary, [], by decide +kernel, rfl⟩
theorem test_step_due : let s := { (base false).updDie 0 fun x => { x with dcbusy := some (4, 0, 0) } with turn := .event }
    dueFirst s = none ∧ s.inbox = [] ∧ s.turn = .event ∧ due s = some (.returnToService 0) := by decide +kernel
theorem test_step_runs : dueFirst placed = none ∧ placed.inbox = [] ∧ placed.turn = .issue ∧ placed.focus = .weave 1 0
    ∧ ((placed.weave? 1 0).bind fun x => x.curBatch.map fun b => (x.core, x.active, b.runnable, b.stepDue, b.mac)) = some (0, true, true, false, none)
    ∧ ((placed.weave? 1 0).bind fun x => x.curBatch.bind fun b => (placed.block? 1).map fun y => (y.ctx, b.pc, bkpMatch y b)) = some (1, 0x1000, none)
    ∧ (fetchAt placed 1 0 1 0x1000).2 = .word 0x0000200081850004 ∧ decode 0x0000200081850004 = some addI
    ∧ fetchWaits placed (fetchAt placed 1 0 1 0x1000).1 0 = false ∧ (gateFor (fetchAt placed 1 0 1 0x1000).1 0 false addI).2 = true
    ∧ ((after (step placed)).bind fun t => t.reg? 1 0 0 5) = some (.live 0) := by decide +kernel
/-- Every miss entry of the core is taken. -/
def noMiss (s : State) : State := s.updCore 0 fun c => { c with misses := (upto 32).map fun n => ⟨0x50000000 + 256 * n, 1, 0, false, false, 0, [], none⟩ }
theorem test_fetch_waits : fetchWaits (noMiss placed) (fetchAt (noMiss placed) 1 0 1 0x1000).1 0 = true
    ∧ ((after (step (noMiss placed))).bind fun t => (t.weave? 1 0).map fun x => x.batches.map Batch.pc) = some [0x1000] := by decide +kernel
/-- Region 0 has room for one start in a step, and one core has started in it. -/
def congested : State := (base false).updRegion 0 fun x => { x with limit := 1, starts := 1 }
theorem test_step_waits : (gateFor (fetchAt ((congested.withFetchWord 64 0x0000200081850004).updCore 0 fun c => { c with started := false }) 1 0 1 0x1000).1
    0 false addI).2 = false := by decide +kernel
theorem test_core_starts : let cold := (base false).updCore 0 fun c => { c with started := false }
    let full := congested.updCore 0 fun c => { c with started := false }
    (((base false).updCore 0 fun c => { c with started := true }).core 0).started = true
    ∧ ((cold.core 0).started = false ∧ (cold.region 0).queue = [] ∧ (cold.region 0).starts < min (cold.region 0).limit 2560
        ∧ (startGate cold 0).2 = true)
    ∧ ((full.core 0).started = false ∧ (full.region 0).queue.contains 0 = false ∧ (full.region 0).limit ≠ 0
        ∧ min (full.region 0).limit 2560 ≤ (full.region 0).starts ∧ ((startGate full 0).1.region 0).defer = 1) := by decide +kernel
theorem test_step_illegal : let s := State.reset.withFetchWord 64 0x198
    (fetchAt s 1 0 1 0x1000).2 = .word 0x198 ∧ decode 0x198 = none ∧ (startGate (fetchAt s 1 0 1 0x1000).1 0).2 = true
      ∧ (after (step s)).isSome = true := by decide +kernel
theorem test_step_stream : let s := State.reset.withFetchWord 64 0x0000700001800300
    dueFirst s = none ∧ s.focus = .stream 1 ∧ (s.stream? 1).map (fun x => (x.ending, x.state, x.cmdErr)) = some (false, .run, [])
      ∧ (fetchAt s 1 0 1 0x1000).2 = .word 0x0000700001800300 ∧ decode 0x0000700001800300 = some (.spush (form .n64 (wd 0) (w 3) (w 0) (w 0)) false) := by
  decide +kernel
theorem test_fetch : (translate placed 1 0 1 0x1000 .fetch).2 = .ok 0x40001000 ∧ mget ((translate placed 1 0 1 0x1000 .fetch).1.core 0).icache 0x1000040 = none
    ∧ 0x1000 % 32 + lenOf ((translate placed 1 0 1 0x1000 .fetch).1.phys 0x40001000 8) ≤ 32
    ∧ (fetchAt placed 1 0 1 0x101C).2 = .trap 0x03 := by decide +kernel
theorem test_guard_false : let i : Instr := .add { form .s32 (wd 5) (w 3) (w 2) (w 0) with g := ⟨1, false⟩ } false false
    encode i = some (8, 0x0000200081850404) ∧ standsBy i (base false) = some { k0 8 with acts := [] }
      ∧ standsBy i (base true) = some { kq 8 with acts := [] } ∧ (∀ a b c d, i ≠ .clause a b c d) :=
  ⟨by decide +kernel, by decide +kernel, by decide +kernel, nofun⟩

/-! ### Element instructions -/

-- add.s32 of 7FFFFFFF and 1 wraps, and the result is sign-extended (R51, R73)
theorem test_lane : ∃ r, addI.regOp = some r ∧ ready addI (two 1 0x7FFFFFFF) = some (k0 8)
    ∧ after (exec addI (two 1 0x7FFFFFFF)) = some ((k0 8).ends false false (r.result (k0 8) (two 1 0x7FFFFFFF)))
    ∧ ((after (exec addI (two 1 0x7FFFFFFF))).bind fun t => t.reg? 1 0 0 5) = some (.live 0xFFFFFFFF80000000) :=
  ⟨_, rfl, by decide +kernel, by decide +kernel, by decide +kernel⟩
theorem test_lane_result : ∃ r, addI.regOp = some r ∧ readyFib addI (two 1 2) = some (k0 8) ∧ present (two 1 2) (k0 8).acts ∧ r.d.uni = false
    ∧ unboundIn (two 1 2) (k0 8).acts r.d.num.toNat :=
  ⟨_, rfl, by decide +kernel, by unfold present; decide +kernel, rfl, noBinds _ _ _ (by decide +kernel)⟩
theorem test_lane_uniform : ∃ r, (Instr.mov (form .n64 (kd 4) (w 3) (w 0) (w 0))).regOp = some r
    ∧ readyFib (.mov (form .n64 (kd 4) (w 3) (w 0) (w 0))) (two 1 2) = some (k0 8) ∧ r.d.uni = true ∧ (k0 8).acts.getLast? = some me
    ∧ ((after (exec (.mov (form .n64 (kd 4) (w 3) (w 0) (w 0))) (two 1 2))).map fun t => t.readK 1 0 4) = some 2 :=
  ⟨_, rfl, by decide +kernel, rfl, rfl, by decide +kernel⟩
theorem test_last_use : let i : Instr := .mov (form .n64 (wd 5) (wl 3) (w 0) (w 0))
    ∃ r f, i.regOp = some r ∧ readyFib i (two 1 2) = some (k0 8) ∧ r.d.uni = false ∧ unboundIn (two 1 2) (k0 8).acts r.d.num.toNat
      ∧ lastUsed (k0 8).acts r.srcs 1 0 0 3 ∧ 3 ≠ r.d.num.toNat ∧ (two 1 2).fibre? 1 0 0 = some f ∧ mget f.binds 3 = none
      ∧ (f.isHelper && decide (16 ≤ 3)) = false ∧ ((after (exec i (two 1 2))).bind fun t => t.reg? 1 0 0 3) = some .dead :=
  ⟨_, _, rfl, by decide +kernel, rfl, noBinds _ _ _ (by decide +kernel), ⟨by decide, _, List.mem_cons_self, by decide⟩, by decide, rfl,
    by decide +kernel, by decide +kernel, by decide +kernel⟩
theorem test_dead_read : let i : Instr := .mov (form .n64 (wd 5) (w 3) (w 0) (w 0))
    let s := fib fun f => { f with regs := [(3, .dead)] }
    ∃ r y, i.regOp = some r ∧ readyFib i s = some (k0 8) ∧ r.d.uni = false ∧ unboundIn s (k0 8).acts r.d.num.toNat ∧ (k0 8).acts = [me]
      ∧ r.srcs = [w 3] ∧ (s.readSrc me (w 3)).2 = some (0, 0, 3) ∧ s.weave? (k0 8).uid 0 = some y ∧ y.deadDR = false :=
  ⟨_, _, rfl, by decide +kernel, rfl, noBinds _ _ _ (by decide +kernel), rfl, rfl, by decide +kernel, rfl, by decide +kernel⟩
-- cmp.s32.lt p2, w3, w2 compares the low 32 bits
theorem test_cmp : let i : Instr := .cmp (form .s32 (wd 2) (w 3) (w 2) (w 0)) false .lt
    ∃ r, i.predOp = some r ∧ readyFib i (two 1 0x1FFFFFFFF) = some (k0 8) ∧ present (two 1 0x1FFFFFFFF) (k0 8).acts
      ∧ ((after (exec i (two 1 0x1FFFFFFFF))).map fun t => t.pred me 2) = some true :=
  ⟨_, rfl, by decide +kernel, by unfold present; decide +kernel, by decide +kernel⟩
theorem test_pmov : let f := form .s8 (wd 0) (w 3) (w 0) (w 0)
    readyFib (.pmov f true) (two 1 0x8000) = some (k0 8) ∧ present (two 1 0x8000) (k0 8).acts
      ∧ ((after (exec (.pmov f true) (two 1 0x8000))).map fun t => (t.pred me 0, t.pred me 1, t.pred me 15)) = some (true, false, true) :=
  ⟨by decide +kernel, by unfold present; decide +kernel, by decide +kernel⟩

/-- w5 is bound to the 4 bytes at physical 0x40002000. -/
def bound : State := fib (fun f => { f with binds := [(5, ⟨0x40002000, 0x2000, false, true, none, false, 0, true, []⟩)] }) (two 1 0x7FFFFFFF)
theorem test_bound : ∃ r f b y, addI.regOp = some r ∧ readyFib addI bound = some (k0 8) ∧ r.d.uni = false ∧ (k0 8).acts = [me] ∧ .fib (k0 8).uid 0 0 ∈ (k0 8).acts
    ∧ bound.fibre? (k0 8).uid (k0 8).w 0 = some f ∧ bound.fib? me = some f ∧ mget f.binds r.d.num.toNat = some b ∧ bound.block? (k0 8).uid = some y
    ∧ y.deadline = none ∧ missesInTime bound ∧ bound.buf (bound.bufOf me) = [] ∧ (∀ p, bound.frameAt p = none) ∧ b.pa + b.size ≤ panelEnd ∧ tagOk bound y.ctx b.pa = true
    ∧ ((after (exec addI bound)).map fun t => (t.reg? 1 0 0 5, t.phys 0x40002000 8)) = some (some (.live 0xFFFFFFFF80000000), 0x80000000) :=
  ⟨_, _, _, _, rfl, by decide +kernel, rfl, rfl, by decide, rfl, rfl, rfl, rfl, rfl, noneLate _ (by decide +kernel), by decide +kernel, fun _ => rfl, by decide +kernel,
    by decide +kernel, by decide +kernel⟩
theorem test_bound_push : ∃ f b, (homeWrite bound none 0x40002003 [7]).fibre? 1 0 0 = some f ∧ mget f.binds 5 = some b ∧ b.pa < 0x40002003 + [7].length
    ∧ 0x40002003 < b.pa + b.size ∧ b.pending = some 0x07000000 :=
  ⟨_, _, rfl, rfl, by decide +kernel, by decide +kernel, by decide +kernel⟩
theorem test_stream : let s := strm fun x => { x with s := [(2, 5), (3, 6)] }
    (∃ r, addI.regOp = some r ∧ readySeq addI s = some (kq 8) ∧ ((after (exec addI s)).map fun t => t.readS 1 5) = some 11)
    ∧ ∃ r, (Instr.cmp (form .s32 (wd 2) (w 3) (w 2) (w 0)) false .lt).predOp = some r
      ∧ readySeq (.cmp (form .s32 (wd 2) (w 3) (w 2) (w 0)) false .lt) s = some (kq 8)
      ∧ ((after (exec (.cmp (form .s32 (wd 2) (w 3) (w 2) (w 0)) false .lt) s)).map fun t => t.pred sq 2) = some false :=
  ⟨⟨_, rfl, by decide +kernel, by decide +kernel⟩, ⟨_, rfl, by decide +kernel, by decide +kernel⟩⟩

/-! ### Values -/

theorem test_exact : let f := form .cd (wd 3) (w 1) (w 2) (w 0)
    3 < (f.ty.shape false).1 ∧ f.ty.packed = true ∧ f.ty.semBit f.ext.sem 3 = true := by decide +kernel
-- the spec's table of packed adds, with and without saturation (spec 05)
theorem test_packed_add : let f := form .cd (wd 3) (w 1) (w 2) (w 0)
    let s := fib fun f => { f with regs := [(1, .live 0x7FF080100003FFFF), (2, .live 0x0020FFF000040001)] }
    intVal f 2 false (addE false) s s me = 0x8010800000070000 ∧ intVal f 2 false (addE true) s s me = 0x7FFF800000070000 := by decide +kernel
-- R74: a zero divisor, the most negative value by −1, truncation towards zero
theorem test_division_zero : let f := form .s32 (wd 5) (w 3) (w 2) (w 0)
    let s := two 0 7
    toI true 32 (nth (opB false false f s me) 0) = 0 ∧ (intVal f 2 false divE s s me, intVal f 2 false remE s s me) = (0xFFFFFFFFFFFFFFFF, 7) := by
  decide +kernel
theorem test_division_least : let f := form .s32 (wd 5) (w 3) (w 2) (w 0)
    let s := two 0xFFFFFFFF 0x80000000
    toI true 32 (nth (opA false f s me) 0) = -(2 ^ 31 : Nat) ∧ toI true 32 (nth (opB false false f s me) 0) = -1
      ∧ (intVal f 2 false divE s s me, intVal f 2 false remE s s me) = (0xFFFFFFFF80000000, 0) := by decide +kernel
theorem test_division_signs : let f := form .s32 (wd 5) (w 3) (w 2) (w 0)
    let s := two 2 0xFFFFFFF9
    (intVal f 2 false divE s s me, intVal f 2 false remE s s me) = (0xFFFFFFFFFFFFFFFD, 0xFFFFFFFFFFFFFFFF) := by decide +kernel
theorem test_value_steps : let f := form .s32 (wd 5) (w 3) (w 2) (w 0)
    let run (i : Instr) : Option Iss × Option WReg := (ready i (two 2 7), (after (exec i (two 2 7))).bind fun t => t.reg? 1 0 0 5)
    run (.div f false) = (some (k0 8), some (.live 3)) ∧ run (.rem f false) = (some (k0 8), some (.live 1)) ∧ run (.mulhi f false) = (some (k0 8), some (.live 0))
      ∧ run (.min f false) = (some (k0 8), some (.live 2)) ∧ run (.max f false) = (some (k0 8), some (.live 7)) := by decide +kernel
theorem test_mulhi : let f := form .n32 (wd 5) (w 3) (w 2) (w 0)
    let s := two 0xFFFFFFFF 0xFFFFFFFF
    0 < (f.ty.shape false).1 ∧ intVal f 2 false mulhiE s s me = 0xFFFFFFFE := by decide +kernel
theorem test_min_signed : let f := form .s8 (wd 5) (w 3) (w 2) (w 0)
    let s := two 0x80 0x7F
    intVal f 2 false minE s s me = 0xFFFFFFFFFFFFFF80 ∧ intVal f 2 false maxE s s me = 0x7F := by decide +kernel

/-! ### Across fibres -/

theorem test_movx : let f := form .n64 (wd 9) (w 3) (w 0) (w 0)
    readyFib (.movx f) (two 5 0x82) = some (k0 8) ∧ ((two 5 0x82).block? (k0 8).uid).map (fun b => b.hdr.regs) = some 128
      ∧ (∀ a ∈ (k0 8).acts, ((two 5 0x82).src a f.a).toNat % 128 < if (two 5 0x82).isHelper a then 32 else 128)
      ∧ ((after (exec (.movx f) (two 5 0x82))).bind fun t => t.reg? 1 0 0 9) = some (.live 5) := by decide +kernel
theorem test_movxw : let f := form .n64 (wd 0) (w 3) (w 2) (w 0)
    readyFib (.movxw f) (two 5 9) = some (k0 8)
      ∧ (∀ a ∈ (k0 8).acts, ((two 5 9).src a f.a).toNat % 128 < if (two 5 9).isHelper a then 16 else 128)
      ∧ ((after (exec (.movxw f) (two 5 9))).bind fun t => t.reg? 1 0 0 9) = some (.live 5) := by decide +kernel

/-- Two fibres of the weave in one batch, w1 holding 3 and 4. -/
def pair : State := wv fun x => { x with
  fibres := [(0, Fibre.start .block 0 [(1, .live 3)]), (1, Fibre.start .block 1 [(1, .live 4)])]
  batches := x.batches.map fun b => { b with members := [0, 1] } }
def k2 : Iss := { k0 8 with acts := [me, .fib 1 0 1], batch := [me, .fib 1 0 1] }
def two? (i : Instr) (n : Nat) : Option (Option WReg × Option WReg) := (after (exec i pair)).map fun t => (t.reg? 1 0 0 n, t.reg? 1 0 1 n)
theorem test_shfl : readyFib (.shfl (form .n64 (wd 9) (w 1) (w 1) (w 0)) .xor) pair = some k2
    ∧ two? (.shfl (form .n64 (wd 9) (w 1) (kr 0) (w 0)) .xor) 9 = some (some (.live 3), some (.live 4)) := by decide +kernel
theorem test_vote : (∀ m, m ∈ [VoteMode.any, .all, .uni] → readyFib (.vote (form .s8 (wd 2) (w 0) (w 0) (w 0)) m) pair = some k2)
    ∧ readyFib (.vote (form .s8 (wd 6) (w 0) (w 0) (w 0)) .ballot) pair = some k2
    ∧ two? (.vote (form .s8 (wd 6) (w 0) (w 0) (w 0)) .ballot) 6 = some (some (.live 3), some (.live 3)) := by decide +kernel
theorem test_match : readyFib (.matchBits (form .s32 (wd 4) (w 1) (w 0) (w 0))) pair = some k2 ∧ (form .s32 (wd 4) (w 1) (w 0) (w 0)).ty.packed = false
    ∧ readyFib (.matchBits (form .cd (wd 4) (w 1) (w 0) (w 0))) pair = some k2 ∧ (form .cd (wd 4) (w 1) (w 0) (w 0)).ty.packed = true
    ∧ two? (.matchBits (form .s32 (wd 4) (w 1) (w 0) (w 0))) 4 = some (some (.live 1), some (.live 2)) := by decide +kernel
theorem test_matchf : readyFib (.matchf (form .f32 (wd 4) (w 1) (w 0) (w 0))) pair = some k2
    ∧ two? (.matchf (form .f32 (wd 4) (w 1) (w 0) (w 0))) 4 = some (some (.live 1), some (.live 2)) := by decide +kernel
theorem test_scan : readyFib (.scan (form .s32 (wd 3) (w 1) (w 0) (w 0)) .add true false .rne) pair = some k2 ∧ k2.acts.Nodup
    ∧ two? (.scan (form .s32 (wd 3) (w 1) (w 0) (w 0)) .add false false .rne) 3 = some (some (.live 3), some (.live 7))
    ∧ two? (.scan (form .s32 (wd 3) (w 1) (w 0) (w 0)) .add true false .rne) 3 = some (some (.live 0), some (.live 3)) := by decide +kernel
theorem test_red : readyFib (.red (form .s32 (wd 4) (w 1) (w 0) (w 0)) .max false .rne) pair = some k2
    ∧ two? (.red (form .s32 (wd 4) (w 1) (w 0) (w 0)) .max false .rne) 4 = some (some (.live 4), some (.live 4)) := by decide +kernel
theorem test_id : let i : Instr := .id (form .n64 (wd 4) (w 0) (w 0) (w 0)) .fslot
    readyFib i pair = some k2 ∧ (pair.block? k2.uid).isSome = true
      ∧ (∀ b, pair.block? k2.uid = some b → ∀ a ∈ k2.acts, (idValue pair k2 .fslot b a).isSome = true)
      ∧ two? i 4 = some (some (.live 0), some (.live 1)) := by
  refine ⟨by decide +kernel, by decide +kernel, fun b h => ?_, by decide +kernel⟩
  cases h; decide +kernel
theorem test_tread : ready (.tread (form .n64 (wd 7) (w 0) (w 0) (w 0))) (base false) = some (k0 8) := by decide +kernel
-- in reduced service the second cycle begins between the ticks 1 and 2 and the third on tick 3 (R1): counters read 1 and 3
theorem test_tread_reduced : let s (n : Nat) : State := { State.reset with time := n, clock := 4 * n, service := { State.reset.service with mode := 1 } }
    (dieTime (s 2) 60, dieTime (s 3) 60) = (1, 3) := by decide +kernel
theorem test_long : ∃ r, (Instr.fsqrt (form .f32 (wd 7) (w 2) (w 0) (w 0)) .rne).longOp = some r
    ∧ readyFib (.fsqrt (form .f32 (wd 7) (w 2) (w 0) (w 0)) .rne) (two 0x40800000 0) = some (k0 8) ∧ present (two 0x40800000 0) (k0 8).acts
    ∧ (k0 8).markOf (.fsqrt (form .f32 (wd 7) (w 2) (w 0) (w 0)) .rne) < 12
    ∧ ((after (exec (.fsqrt (form .f32 (wd 7) (w 2) (w 0) (w 0)) .rne) (two 0x40800000 0))).map fun t => (t.markCount 1 (some 0) 0, (t.pendOf me).map Pend.val))
        = some (1, [0x40000000]) :=
  ⟨_, rfl, by decide +kernel, by unfold present; decide +kernel, by decide, by decide +kernel⟩

/-! ### Control flow -/

/-- Memory holds a clause header at 0x1040, and at 0x1008. -/
def heads (s : State) : State :=
  { s with mem := (s.mem.writeBytes 0x40001040 (toBytes 8 0x003FC003)).writeBytes 0x40001008 (toBytes 8 0x003FC003) }
theorem test_transfer (i : Instr) (h : i = .bra g0 0x40 ∨ i = .call g0 20 0x40 ∨ i = .brx (form .s8 (wd 0) (w 3) (w 0) (w 0))
      ∨ i = .ret (form .s8 (wd 0) (w 3) (w 0) (w 0))) :
    ∃ j, i.jump = some j ∧ readyFib i (heads (two 0 0x1040)) = some (k0 8)
      ∧ passes (j.step (k0 8) (heads (two 0 0x1040))) (j.ok (k0 8) (heads (two 0 0x1040))) (k0 8).acts (j.start (k0 8) (heads (two 0 0x1040)))
      ∧ fetchesHeld (k0 8) (heads (two 0 0x1040)) ((k0 8).acts.foldl (j.step (k0 8) (heads (two 0 0x1040))) (j.start (k0 8) (heads (two 0 0x1040))))
      ∧ ((after (exec i (heads (two 0 0x1040)))).bind fun t => (t.weave? 1 0).map fun x => x.batches.map Batch.pc) = some [0x1040] := by
  rcases h with rfl | rfl | rfl | rfl <;>
    exact ⟨_, rfl, by decide +kernel, ⟨⟨by decide +kernel, fun h => absurd h (by decide +kernel), fun h => absurd h (by decide +kernel)⟩, trivial⟩,
      by unfold fetchesHeld; decide +kernel, by decide +kernel⟩
-- with every miss entry taken, the fetch of a target in another line waits, and the transfer with it (R248)
theorem test_transfer_waits : ((after (exec (.bra g0 0x40) (noMiss (heads (base false))))).bind fun t => (t.weave? 1 0).map fun x => x.batches.map Batch.pc)
    = some [0x1000] := by decide +kernel
theorem test_transfer_back : let s := (heads (wv (fun x => { x with batches := x.batches.map fun b => { b with pc := 0x1080 } })))
    let k := { k0 8 with pc := 0x1080, npc := 0x1088 }
    ∃ j, (Instr.bra g0 0xFFFFFFC0).jump = some j ∧ readyFib (.bra g0 0xFFFFFFC0) s = some k
      ∧ passes (j.step k s) (j.ok k s) k.acts (j.start k s) ∧ fetchesHeld k s (k.acts.foldl (j.step k s) (j.start k s)) :=
  ⟨_, rfl, by decide +kernel, ⟨⟨by decide +kernel, fun _ _ b h => by cases h; decide +kernel, fun _ => by unfold refreshesWell; decide +kernel⟩, trivial⟩,
    by unfold fetchesHeld; decide +kernel⟩
theorem test_transfer_stream : let s := heads (base true)
    ∃ j, (Instr.bra g0 0x40).jump = some j ∧ readySeq (.bra g0 0x40) s = some (kq 8) ∧ j.ok (kq 8) s (j.start (kq 8) s) (.seq (kq 8).uid)
      ∧ fetchesHeld (kq 8) s (j.step (kq 8) s (j.start (kq 8) s) (.seq (kq 8).uid))
      ∧ ((after (exec (.bra g0 0x40) s)).bind fun t => (t.stream? 1).map Stream.pc) = some 0x1040 :=
  ⟨_, rfl, by decide +kernel, ⟨by decide +kernel, fun h => absurd h (by decide +kernel), fun h => absurd h (by decide +kernel)⟩, by unfold fetchesHeld; decide +kernel, by decide +kernel⟩

/-- The block has a trap routine at 0x1020. -/
def routine (s : State := base false) : State := blk (fun b => { b with hdr := { b.hdr with trapEntry := 1 } }) s
theorem ready_routine (s : State) (k : Iss) (b : Block) (c : Ctx) (hb : s.block? k.uid = some b) (hc : s.ctx? b.ctx = some c) (hf : s.frames = [])
    (h : b.hdr.trapEntry ≠ 0 ∧ k.mac = none ∧ (∀ a ∈ k.acts, ((s.fib? a).any fun f => !f.tr.inTrap && f.pend.isEmpty && !f.isHelper) = true)
      ∧ (∀ a ∈ k.acts, ((s.weave? k.uid k.w).all fun x => decide ((x.batchOf a.slot).map Prod.fst = x.cur)) = true)
      ∧ c.recAddr c.seq + 64 ≤ panelEnd ∧ c.bell + 8 ≤ panelEnd ∧ (c.bell + 8 ≤ c.recAddr c.seq ∨ c.recAddr c.seq + 64 ≤ c.bell)) :
    routineReady k b c s := by
  obtain ⟨h1, h2, h3, h4, h5, h6, h7⟩ := h
  refine ⟨hb, hc, h1, h2, fun a ha => ?_, fun a ha x hx => ?_, fun p => by simp [State.frameAt, hf], h5, h6, h7⟩
  · have := h3 a ha
    cases hfa : s.fib? a <;> simp_all
  · have := h4 a ha
    simp_all
theorem test_bad_target (i : Instr) (h : i = .bra g0 0x40 ∨ i = .call g0 20 0x40 ∨ i = .brx (form .s8 (wd 0) (w 3) (w 0) (w 0))
      ∨ i = .ret (form .s8 (wd 0) (w 3) (w 0) (w 0))) :
    let s := routine (two 0 0x1040)
    ∃ j b c, i.jump = some j ∧ readyFib i s = some (k0 8) ∧ ctxCause 0x04 = false
      ∧ (let r := targetCheck (j.start (k0 8) s) 1 ((j.start (k0 8) s).coreOf me) ((j.start (k0 8) s).ctxOf 1) (j.target (k0 8) s me);
          r.2 = some 0x04 ∧ fetchWaits s r.1 0 = false ∧ routineReady (k0 8) b c r.1)
      ∧ ((after (exec i s)).bind fun r => (r.fib? me).map fun f => (f.tr.cause, f.tr.xaddr)) = some (0x04, 0x1040) := by
  rcases h with rfl | rfl | rfl | rfl <;>
    exact ⟨_, _, _, rfl, by decide +kernel, rfl,
      ⟨by decide +kernel, by decide +kernel, ready_routine _ _ _ _ rfl rfl (by decide +kernel) (by decide +kernel)⟩, by decide +kernel⟩
theorem test_bad_target_stream : let s := routine (base true)
    ∃ j b x, (Instr.bra g0 0x40).jump = some j ∧ readySeq (.bra g0 0x40) s = some (kq 8)
      ∧ (let r := targetCheck (j.start (kq 8) s) 1 ((j.start (kq 8) s).coreOf sq) ((j.start (kq 8) s).ctxOf 1) (j.target (kq 8) s sq);
          r.2 = some 0x04 ∧ fetchWaits s r.1 0 = false ∧ r.1.block? 1 = some b ∧ r.1.stream? 1 = some x) ∧ b.hdr.trapEntry ≠ 0 ∧ x.tr.inTrap = false ∧ x.pend = []
      ∧ ((after (exec (.bra g0 0x40) s)).bind fun r => (r.stream? 1).map fun x => (x.tr.cause, x.tr.xaddr, x.pc)) = some (0x04, 0x1040, 0x1020) :=
  ⟨_, _, _, rfl, by decide +kernel, ⟨by decide +kernel, by decide +kernel, rfl, rfl⟩, by decide +kernel, rfl, rfl, by decide +kernel⟩
theorem test_illegal : let s := routine
    ∃ b c x z, s.focus = .weave 1 0 ∧ s.weave? 1 0 = some x ∧ x.curBatch = some z ∧ z.entry = false ∧ x.ss = false
      ∧ (fibIss s 1 0 x z 8 g0).acts ≠ [] ∧ routineReady (fibIss s 1 0 x z 8 g0) b c s
      ∧ ((after (exec (.illegalInstruction g0 8) s)).bind fun r => (r.fib? me).map fun f => f.tr.cause) = some 0x01 :=
  ⟨_, _, _, _, rfl, rfl, rfl, rfl, rfl, by decide +kernel, ready_routine _ _ _ _ rfl rfl rfl (by decide +kernel), by decide +kernel⟩
-- no instruction begins at offset 28 of its fetch block (R43)
theorem test_fetch_overrun : let s := routine (wv fun x => { x with batches := x.batches.map fun b => { b with pc := 0x101C } })
    ∃ b c x z, dueFirst s = none ∧ s.inbox = [] ∧ s.turn = .issue ∧ s.focus = .weave 1 0 ∧ s.block? 1 = some b ∧ s.weave? 1 0 = some x
      ∧ x.curBatch = some z ∧ (x.active, z.runnable, z.stepDue, z.mac, bkpMatch b z) = (true, true, false, none, none) ∧ z.members ≠ []
      ∧ (fetchAt s 1 x.core b.ctx z.pc).2 = .trap 0x03 ∧ fetchWaits s (fetchAt s 1 x.core b.ctx z.pc).1 x.core = false
      ∧ routineReady (fibIss (fetchAt s 1 x.core b.ctx z.pc).1 1 0 x z 8 ⟨0, false⟩) b c (fetchAt s 1 x.core b.ctx z.pc).1
      ∧ ((after (step s)).bind fun r => (r.fib? me).map fun f => (f.tr.cause, f.tr.xpc)) = some (0x03, 0x101C) :=
  ⟨_, _, _, _, by decide +kernel, rfl, rfl, rfl, rfl, rfl, rfl, by decide +kernel, by decide +kernel, by decide +kernel, by decide +kernel,
    ready_routine _ _ _ _ rfl rfl rfl (by decide +kernel), by decide +kernel⟩
theorem test_bad_header : let s := routine
    ∃ b c x z, s.focus = .weave 1 0 ∧ s.weave? 1 0 = some x ∧ x.curBatch = some z ∧ badHeader z.pc 12 15 0 = true ∧ z.members ≠ []
      ∧ routineReady (fibIss s 1 0 x z 8 ⟨0, false⟩) b c s
      ∧ ((after (exec (.clause 0 12 15 0) s)).bind fun r => (r.fib? me).map fun f => f.tr.cause) = some 0x02 :=
  ⟨_, _, _, _, rfl, rfl, rfl, by decide +kernel, by decide +kernel, ready_routine _ _ _ _ rfl rfl rfl (by decide +kernel), by decide +kernel⟩
-- the record of `trap #0x2A`: cause at byte 4, the PC, the doorbell (R351)
theorem test_trap : let s := routine
    let i : Instr := .trap (form .n32 (wd 0) (w 0) (w 0) (w 0) (.i96 0x2A))
    ∃ b c, readyFib i s = some (k0 12) ∧ routineReady (k0 12) b c s
      ∧ ((after (exec i s)).bind fun r => (r.fib? me).map fun f => (f.tr.cause, f.tr.xaux, f.tr.xpc, f.tr.inTrap)) = some (0x0F, 0x2A, 0x100C, true)
      ∧ ((after (exec i s)).map fun r => (r.phys 0x20000 8, (r.weave? 1 0).map fun x => x.batches.map Batch.pc)) = some (1, some [0x1020]) :=
  ⟨_, _, by decide +kernel, ready_routine _ _ _ _ rfl rfl rfl (by decide +kernel), by decide +kernel, by decide +kernel⟩
theorem test_brk : ∃ b c, readyFib (.brk g0) routine = some (k0 8) ∧ routineReady (k0 8) b c routine :=
  ⟨_, _, by decide +kernel, ready_routine _ _ _ _ rfl rfl rfl (by decide +kernel)⟩

/-- The launch of the block, of one block in all. -/
def lnch : Launch := { Launch.queued 1 0 0x9000 with state := .ready, total := 1, next := 1 }
def launched (s : State := base false) : State := s.updCtx 1 fun c => { c with launches := [lnch], nextLid := 2 }
theorem test_trap_kills : let s := launched
    ∃ b l, readyFib (.brk g0) s = some (k0 8) ∧ s.block? (k0 8).uid = some b ∧ s.launch? b.ctx b.lid = some l
      ∧ (∀ a ∈ (k0 8).acts, (s.fib? a).isSome = true ∧ s.isHelper a = false) ∧ b.hdr.trapEntry = 0
      ∧ ((after (exec (.brk g0) s)).map fun t => ((t.block? 1).isNone, (t.launch? 1 1).map Launch.killed)) = some (true, some 1) :=
  ⟨_, _, by decide +kernel, rfl, rfl, by decide +kernel, by decide +kernel, by decide +kernel⟩
theorem test_tret : let s := fib fun f => { f with tr := { f.tr with inTrap := true, xpc := 0x1004, seta := 3 } }
    readyFib (.tret g0) s = some { k0 8 with inside := [0] } ∧ (k0 8).acts.Nodup
      ∧ (∀ a ∈ (k0 8).acts, ((s.fib? a).any fun f => f.tr.inTrap && f.pend.isEmpty && decide (f.tr.xpc.toNat % 4 = 0)) = true)
      ∧ ((after (exec (.tret g0) s)).bind fun t => (t.weave? 1 0).map fun x => x.batches.map fun b => (b.pc, b.seta)) = some [(0x1004, 3)] := by
  decide +kernel
theorem test_tret_stream : let s := strm fun x => { x with tr := { x.tr with inTrap := true, xpc := 0x1004 } }
    ∃ x, readySeq (.tret g0) s = some { kq 8 with inside := [0] } ∧ s.stream? (kq 8).uid = some x ∧ x.tr.inTrap = true ∧ x.pend = []
      ∧ x.tr.xpc.toNat % 4 = 0 :=
  ⟨_, by decide +kernel, rfl, rfl, rfl, by decide +kernel⟩
theorem test_hints : ready (.nop false) (base false) = some (k0 8) ∧ ready (.fenceOwn g0) (base false) = some (k0 8)
    ∧ ready (.fence g0 .rel 0) (base false) = some (k0 8) ∧ ready (.yield g0) (base false) = some (k0 8) ∧ ready (.bsync g0) (base false) = some (k0 8)
    ∧ (refresh (base false) me false).2 = none
    ∧ after (exec (.nop false) (base false)) = some ((k0 8).ends false false (base false)) := by decide +kernel
theorem test_join : readyFib (.join g0) (base false) = some (k0 8) ∧ refreshAllWell (k0 8) (base false) ∧ (refreshed (k0 8) (base false)).weave? (k0 8).uid (k0 8).w ≠ none
    ∧ (k0 8).acts = (k0 8).batch ∧ ((after (exec (.join g0) (base false))).bind fun t => (t.weave? 1 0).map fun x => x.batches.map Batch.pc) = some [0x1008] :=
  ⟨by decide +kernel, ⟨by unfold refreshesWell; decide +kernel, trivial⟩, by decide +kernel, rfl, by decide +kernel⟩
-- with a runnable batch beside it, the fibre parks at the join (R181)
theorem test_join_parks : let s := wv fun x => { x with
      fibres := x.fibres ++ [(1, Fibre.start .block 1 [])], batches := x.batches ++ [Batch.start [1] 0x1040] }
    readyFib (.join g0) s = some (k0 8) ∧ ((after (exec (.join g0) s)).bind fun t => (t.weave? 1 0).map fun x => x.batches.map fun b => (b.members, b.pc, b.state))
      = some [([0], 0x1000, .parked), ([1], 0x1040, .run)] := by decide +kernel
theorem test_mcall : readyFib (.mcall g0 3) (base false) = some (k0 8) ∧ macroOps (base false) (k0 8).uid 3 = []
    ∧ macroOps ((base false).updCore 0 fun c => { c with macs := [(3, ⟨0x1000, 1, 3, [0x20000080850004]⟩)] }) (k0 8).uid 3 ≠ [] := by decide +kernel

/-! ### Memory -/

/-- The micro-TLB of the core maps the page at 0x2000 to physical 0x40002000. -/
def mapped (s : State) : State := s.updCore 0 fun c => { c with utlb := [⟨1, 0x22000, 4096, 0x40002000, true, true, true, true⟩] }
def stores (s : State) : State := { s with mem := s.mem.writeBytes 0x40002000 [0x80, 1, 2, 3, 4, 5, 6, 7] }
def memS : State := stores (mapped (two 0x55 0x22000))
theorem tlb_maps (acc : Acc) (h : acc = .load ∨ acc = .store ∨ acc = .rw) : tlbMaps memS me 0x22000 acc 0x40002000 := by
  rcases h with rfl | rfl | rfl <;> exact ⟨by decide +kernel, _, rfl, by decide +kernel, by decide +kernel, by decide +kernel⟩
-- ld.32 of 80 01 02 03 (R149): little-endian, zero-extended, and lands under m0
theorem test_ld : let m := mform 5 3 0 0 .plain 0
    ready (.ld m .z32) memS = some (k0 8) ∧ loadOk m .z32 { st := memS.noteAll 0x1000 [me] (m.srcs (!m.nb && m.b != 0) false) } me
      ∧ missesOver (loadOne (k0 8) m .z32 ((k0 8).markOf (.ld m .z32)) { st := memS.noteAll 0x1000 [me] (m.srcs (!m.nb && m.b != 0) false) } me).st 0 = false
      ∧ ((after (exec (.ld m .z32) memS)).map fun t => ((t.pendOf me).map Pend.val, t.markCount 1 (some 0) 0)) = some ([0x03020180], 1) :=
  ⟨by decide +kernel, ⟨.inl ⟨0x40002000, by decide +kernel⟩, fun h => absurd h (by decide)⟩, by decide +kernel, by decide +kernel⟩
theorem test_ld_effect : let m := mform 5 3 0 0 .plain 0
    readyFib (.ld m .s8) memS = some (k0 8) ∧ (k0 8).acts = [me] ∧ (memS.fib? me).isSome = true
      ∧ (∀ e ∈ memS.blocks, e.2.deadline = none) ∧ (memS.core 0).misses.length < 32 ∧ effAddr memS me m (!m.nb) = 0x22000 ∧ (effAddr memS me m (!m.nb)).toNat % MSize.s8.bytes = 0 ∧ m.ord.isAcq = false
      ∧ ((after (exec (.ld m .s8) memS)).map fun t => (t.pendOf me).map Pend.val) = some [0xFFFFFFFFFFFFFF80] :=
  ⟨by decide +kernel, rfl, by decide +kernel, by decide +kernel, by decide +kernel, by decide +kernel, by decide +kernel, rfl, by decide +kernel⟩
theorem test_st : let m := mform 2 3 0 0 .plain 0
    readyFib (.st m .z64) memS = some (k0 8) ∧ storeOk m .z64 { st := memS.noteAll 0x1000 [me] (m.srcs (m.b != 0) true) } me
      ∧ (effAddr memS me m true).toNat = 0x22000 ∧ commits memS me m.ord.isRel m.scope = false
      ∧ bufFull memS (memS.bufOf me) (lineOf 0x40002000) = false
      ∧ ((after (exec (.st m .z64) memS)).map fun t => (seen t (.block 1) 0x40002000 8, t.phys 0x40002000 8)) = some (0x55, 0x0706050403020180) :=
  ⟨by decide +kernel, ⟨0x40002000, by decide +kernel⟩, by decide +kernel, by decide +kernel, by decide +kernel, by decide +kernel⟩
theorem test_pref : let m := mform 0 3 0 0 .plain 0
    ready (.pref m .rd) memS = some (k0 8)
      ∧ missesOver (prefOne m .rd (memS.noteAll 0x1000 [me] (m.srcs (m.b != 0) false)) me) 0 = false := by decide +kernel
-- a prefetch changes no memory, the A bit of the leaf that its walk meets included (R153)
theorem test_pref_walk : let s := { base false with mem := (base false).mem.writeBytes placeNext (toBytes 8 (placePage / 4096 * 1024 + 0x9F)) }
    (translateHint s 1 0 1 0x2000).2 = some (0x40002000, true) ∧ (translateHint s 1 0 1 0x2000).1.mem = s.mem
      ∧ (walkFor s 1 0x2000 .load).1.mem ≠ s.mem := by decide +kernel
theorem test_amo : let m := { mform 5 3 2 8 .plain 0 with nb := true }
    let x : MAcc := { st := memS.noteAll 0x1000 [me] (m.srcs true false) }
    readyFib (.amo m .add) memS = some (k0 8) ∧ atomicOk m (amoBytes m) (m.srcs true false) (amoValue m .add) x me
      ∧ ((after (exec (.amo { m with scope := 0 } .add) memS)).map fun t => ((t.pendOf me).map Pend.val, t.phys 0x40002000 8))
          = some ([0x0706050403020180], 0x07060504030201D5) :=
  ⟨by decide +kernel, .inl ⟨0x40002000, by decide +kernel, by unfold refreshesWell observesWell; decide +kernel⟩, by decide +kernel⟩
theorem test_cas : let m := mform 5 3 6 0 .plain 0
    let s := fib (fun f => { f with regs := [(3, .live 0x22000), (6, .live 0x03020180), (7, .live 9)] }) memS
    readyFib (.cas m .z32) s = some (k0 8)
      ∧ atomicOk m 4 (casSrcs m) (casValue m 4) { st := s.noteAll 0x1000 [me] (casSrcs m) } me
      ∧ ((after (exec (.cas m .z32) s)).map fun t => t.phys 0x40002000 8) = some 0x0706050400000009 :=
  ⟨by decide +kernel, .inl ⟨0x40002000, by decide +kernel, by unfold refreshesWell observesWell; decide +kernel⟩, by decide +kernel⟩
theorem test_atomic : let m := { mform 5 3 2 0 .plain 0 with nb := true }
    readyFib (.amo m .add) memS = some (k0 8) ∧ (memS.fib? me).isSome = true ∧ plainAt memS 1 0x40002000 8 ∧ memS.poisoned 0x40002000 8 = false
      ∧ tlbMaps memS me (effAddr memS me m false) .rw 0x40002000 ∧ (effAddr memS me m false).toNat % 8 = 0
      ∧ (wide m.scope || commits memS me m.ord.isRel m.scope) = false
      ∧ (∀ e ∈ memS.buf (memS.bufOf me), 0x40002000 + 8 ≤ e.pa ∨ e.pa + e.data.length ≤ 0x40002000) ∧ (∀ f, memS.fib? me = some f → f.binds = []) :=
  ⟨by decide +kernel, by decide +kernel, ⟨by decide, fun _ => rfl, fun b h => by cases h; decide +kernel, noneLate _ (by decide +kernel)⟩, by decide +kernel,
    ⟨by decide +kernel, _, rfl, by decide +kernel, by decide +kernel, by decide +kernel⟩, by decide +kernel, by decide +kernel, by decide +kernel,
    fun f h => by cases h; rfl⟩
-- the pointer at 0x22000 moves by 4 and the element enters the buffer where it stood (R157)
theorem test_cstore : let s : State := { memS with mem := memS.mem.writeBytes 0x40002000 (toBytes 8 0x22010) }
    let m := mform 9 3 2 0 .plain 0
    let g := groupBy (fun a => effAddr s a m false) (k0 8).acts
    let one := cstoreGroup (k0 8) m MSize.z32.bytes ((k0 8).markOf (.cstore m .z32)) fun a => s.src a (plainSrc m.b false)
    let x : MAcc := { st := s.noteAll (k0 8).pc (k0 8).acts (m.srcs true false) }
    ready (.cstore m .z32) s = some (k0 8) ∧ (∀ a ∈ (k0 8).acts, replays s (k0 8) a = false) ∧ (g.foldl one x).traps = []
      ∧ ((after (exec (.cstore m .z32) s)).map fun t => (t.phys 0x40002000 8, seen t (.block 1) 0x40002010 4, (t.pendOf me).map Pend.val))
          = some (0x22014, 0x55, [1]) := by decide +kernel
-- a commit: the younger of two overlapping stores wins (R281, R362)
theorem test_commit : let s := blk fun b => { b with sbuf := [⟨1, 0x40002000, [1, 2], none, false⟩, ⟨2, 0x40002001, [3], none, false⟩] }
    ∃ b, s.block? (Buf.block 1).uid = some b ∧ b.deadline = none ∧ missesInTime s ∧ (∀ p, s.frameAt p = none)
      ∧ (∀ e ∈ s.buf (.block 1), e.pa + e.data.length ≤ panelEnd ∧ tagOk s b.ctx e.pa = true)
      ∧ (commitBuf s (.block 1)).phys 0x40002000 2 = 0x0301 :=
  ⟨_, rfl, rfl, noneLate _ (by decide +kernel), fun _ => rfl, by decide +kernel, by decide +kernel⟩

/-- The block has 256 bytes of local store. -/
def local_ (s : State) : State := blk (fun b => { b with hdr := { b.hdr with lstore := 16 }, slots := [0], lstore := [(0x10, 0xFF), (0x11, 1)] }) s
theorem test_ldl : let s := local_ (two 0x55 0x10)
    let l := lform 6 3 none 0
    ∃ b, readyFib (.ldl l .s8) s = some (k0 8) ∧ s.block? (k0 8).uid = some b ∧ localCheck b l 1 (localAddr s b me l) = .ok 0x10 ∧ (0x10 : Nat) < portWindow
      ∧ (s.fib? me).isSome = true ∧ ((after (exec (.ldl l .s8) s)).map fun t => (t.pendOf me).map Pend.val) = some [0xFFFFFFFFFFFFFFFF] :=
  ⟨_, by decide +kernel, rfl, by decide +kernel, by decide, by decide +kernel, by decide +kernel⟩
theorem test_stl : let s := local_ (two 0x1234 0x10)
    let l := lform 2 3 none 0
    ∃ b, ready (.stl l .z16) s = some (k0 8) ∧ (k0 8).woke = none ∧ asmNeed s (k0 8) l .z16 = 0 ∧ s.block? (k0 8).uid = some b
      ∧ localCheck b l 2 (localAddr s b me l) = .ok 0x10
      ∧ (((after (exec (.stl l .z16) s)).bind fun t => t.block? 1).map fun b => lsBytes b 0x10 2) = some [0x34, 0x12] :=
  ⟨_, by decide +kernel, rfl, by decide +kernel, rfl, by decide +kernel, by decide +kernel⟩
-- a store into the port window fills the assembly buffer (R387)
theorem test_stl_port : let s := two 0x1234 0x10000
    let l := lform 2 3 none 0
    ready (.stl l .z64) s = some (k0 8) ∧ asmUsed s 0 + asmNeed s (k0 8) l .z64 ≤ 64
      ∧ portOk (k0 8) l .z64 (s.noteAll 0x1000 [me] (l.srcs true)) me
      ∧ (((after (exec (.stl l .z64) s)).bind fun t => t.fib? me).map Fibre.asm) = some (some [(0, 0x1234)]) :=
  ⟨by decide +kernel, by decide +kernel, ⟨_, 0x10000, rfl, by decide +kernel, by decide, by decide, rfl, rfl, .inl rfl⟩, by decide +kernel⟩

/-! ### Bound registers -/

theorem test_bind : let m := mform 10 3 0 0 .plain 0
    readyFib (.bind m .z64) memS = some (k0 8) ∧ bindOk (k0 8) m .z64 { st := memS.noteAll 0x1000 [me] (m.srcs false false) } me
      ∧ (((after (exec (.bind m .z64) memS)).bind fun t => t.fib? me).map fun f => f.binds.map Prod.fst) = some [10] :=
  ⟨by decide +kernel, ⟨_, _, 0x40002000, rfl, rfl, by decide +kernel, by decide +kernel, by decide, by unfold refreshesWell; decide +kernel⟩, by decide +kernel⟩
theorem test_unbind : readyFib (.unbind g0 5) bound = some (k0 8) ∧ unbindOk 5 { st := bound } me
    ∧ (((after (exec (.unbind g0 5) bound)).bind fun t => t.fib? me).map Fibre.binds) = some [] :=
  ⟨by decide +kernel, ⟨by decide +kernel, by unfold refreshesWell; decide +kernel, by decide +kernel⟩, by decide +kernel⟩
theorem test_bamo : let f := form .s32 (wd 5) (w 0) (w 2) (w 0)
    readyFib (.bamo f .add) bound = some (k0 8) ∧ boundOk f { st := bound.noteAll 0x1000 [me] [f.b] } me
      ∧ ((after (exec (.bamo f .add) bound)).map fun t => t.phys 0x40002000 4) = some 1 :=
  ⟨by decide +kernel, ⟨by decide +kernel, by unfold refreshesWell; decide +kernel⟩, by decide +kernel⟩
theorem test_bcas : let f := form .s32 (wd 5) (w 1) (w 9) (w 2)
    readyFib (.bcas f) bound = some (k0 8) ∧ boundOk f { st := bound.noteAll 0x1000 [me] [f.b, f.c] } me
      ∧ ((after (exec (.bcas f) bound)).map fun t => t.phys 0x40002000 4) = some 1 :=
  ⟨by decide +kernel, ⟨by decide +kernel, by unfold refreshesWell; decide +kernel⟩, by decide +kernel⟩
theorem test_bwait : let f := form .s32 (wd 5) (w 0) (w 9) (w 0)
    let x : MAcc := { st := bound.noteAll 0x1000 [me] [f.b] }
    let y := bwaitLand (k0 8) f x me
    let z := (bwaitRefresh (k0 8) y me).st
    readyFib (.bwait f .ge) bound = some (k0 8) ∧ (k0 8).woke = none ∧ bwaitOk f x me ∧ refreshesWell y.st me
      ∧ bwaitTest f .ge (boundOperand f bound) z (k0 8).acts = [0] ∧ refreshAllWell (k0 8) (z.releaseAll me [f.b])
      ∧ ((after (exec (.bwait f .ge) bound)).bind fun t => (t.weave? 1 0).map fun x => x.batches.map Batch.pc) = some [0x1008] :=
  ⟨by decide +kernel, rfl, ⟨by decide +kernel, by decide +kernel⟩, by unfold refreshesWell; decide +kernel, by decide +kernel,
    ⟨by unfold refreshesWell; decide +kernel, trivial⟩, by decide +kernel⟩
theorem test_bwait_waits : let f := form .s32 (wd 5) (w 0) (w 2) (w 0)
    let x : MAcc := { st := bound.noteAll 0x1000 [me] [f.b] }
    let z := (bwaitRefresh (k0 8) (bwaitLand (k0 8) f x me) me).st
    readyFib (.bwait f .ge) bound = some (k0 8) ∧ bwaitTest f .ge (boundOperand f bound) z (k0 8).acts = [] := by decide +kernel
def woken (q : Wait) (s : State) : State := wv (fun x => { x with batches := x.batches.map fun b => { b with state := .woke q } }) s
theorem test_bwait_woken : let f := form .s32 (wd 5) (w 0) (w 2) (w 0)
    let q : Wait := .bwait 5 .ge .s32 [(0, 1)] [0]
    readyFib (.bwait f .ge) (woken q bound) = some { k0 8 with woke := some q } ∧ refreshAllWell { k0 8 with woke := some q } (woken q bound) :=
  ⟨by decide +kernel, ⟨by unfold refreshesWell; decide +kernel, trivial⟩⟩

/-! ### Clauses, landing, fences -/

/-- A completed result waits under m0 for w4. -/
def landing (done : Bool) : State :=
  fib (fun f => { f with pend := [⟨7, 0, .w 4, 0x99, none, false, 0, none, 0x1000, done⟩] })
    ((if done then id else fun s => wv (fun x => { x with marks := [(0, 1)] }) (blk (fun b => { b with ops := [(7, (some 0, 0))] }) s))
      ((base false).updCore 0 fun c => { c with started := true }))
theorem test_clause : let s := landing true
    ∃ b x z, s.block? 1 = some b ∧ b.stop = false ∧ b.farStop = [] ∧ s.focus = .weave 1 0 ∧ s.weave? 1 0 = some x ∧ x.curBatch = some z ∧ z.members ≠ []
      ∧ badHeader z.pc 15 15 0 = false ∧ (s.core x.core).started = true ∧ marksBusy s 1 (some 0) 1 = false
      ∧ (∀ a ∈ (fibIss s 1 0 x z 8 ⟨0, false⟩).batch, ∀ p ∈ s.pendOf a, p.done = true ∧ p.mark < 12 ∧ (1 : BitVec 12).getLsbD p.mark = true → p.poison = none)
      ∧ ((after (exec (.clause 1 15 15 0) s)).map fun t => (t.reg? 1 0 0 4, (t.weave? 1 0).map fun x => x.batches.map Batch.pc))
          = some (some (.live 0x99), some [0x1008]) :=
  ⟨_, _, _, rfl, rfl, rfl, rfl, rfl, rfl, by decide +kernel, by decide +kernel, by decide +kernel, by decide +kernel, by decide +kernel, by decide +kernel⟩
theorem test_clause_stream : let s := (base true).updCore 0 fun c => { c with started := true }
    ∃ b x, s.block? 1 = some b ∧ s.focus = .stream 1 ∧ s.stream? 1 = some x ∧ badHeader x.pc 15 15 0 = false ∧ (s.core b.core).started = true
      ∧ marksBusy s 1 none 4 = false ∧ x.pend = [] :=
  ⟨_, _, rfl, rfl, rfl, by decide +kernel, by decide +kernel, by decide +kernel, rfl⟩
theorem test_operation : let s := landing false
    ∃ b x, s.block? 1 = some b ∧ mget b.ops 7 = some (some 0, 0) ∧ mget b.weaves 0 = some x
      ∧ ((after (exec (.operationCompletion 1 7) s)).map fun t => (t.markCount 1 (some 0) 0, (t.pendOf me).map Pend.done, t.reg? 1 0 0 4))
          = some (0, [true], none) :=
  ⟨_, _, rfl, rfl, rfl, by decide +kernel⟩
/-- The stream waits for w4's result under m0. -/
def streamLanding : State := strm (fun x => { x with pend := [⟨7, 0, .w 4, 0x99, none, false, 0, none, 0x1000, false⟩], marks := [(0, 1)] })
  (blk (fun b => { b with ops := [(7, (none, 0))] }) (base true))
theorem test_operation_stream : let s := streamLanding
    ∃ b x, s.block? 1 = some b ∧ mget b.ops 7 = some (none, 0) ∧ b.stream = some x
      ∧ ((after (exec (.operationCompletion 1 7) s)).map fun t => (t.markCount 1 none 0, (t.stream? 1).map fun x => x.pend.map Pend.done))
          = some (0, some [true]) :=
  ⟨_, _, rfl, rfl, rfl, by decide +kernel⟩
-- the reply that the operation waits for has come, and its entry is gone with the operation (R249)
theorem test_operation_reply : let s := (landing false).updCore 0 fun c => { c with misses := [⟨0x40002000, 1, 0, false, true, 0, [7], none⟩] }
    (∀ x ∈ (s.core 0).misses, x.ops.contains 7 = true → ((s.core 0).miss? x.line).map Miss.replied = some true)
      ∧ ((after (exec (.operationCompletion 1 7) s)).map fun t => ((t.core 0).misses, t.markCount 1 (some 0) 0)) = some ([], 0) := by decide +kernel
-- the NX that a special function's result carries is raised with its completion (R82)
theorem test_operation_flags : let s := (landing false).updFibre 1 0 0 fun f => { f with pend := f.pend.map fun p => { p with flags := 1 } }
    s.flagWeave 1 0 0 = 0 ∧ (s.fibre? 1 0 0).map (fun f => carried f 7) = some 1
      ∧ ((after (exec (.operationCompletion 1 7) s)).bind fun t => t.fpflags 1 0) = some 1 := by decide +kernel
theorem test_fences : let s := base false
    ready (.fence g0 .rel 2) s = some (k0 8) ∧ ready (.fence g0 .acq 2) s = some (k0 8) ∧ ready (.fence g0 .full 2) s = some (k0 8)
      ∧ ready (.fenceFar g0 2) s = some (k0 8) ∧ (refresh s me false).2 = none
      ∧ (refresh ((k0 8).acts.foldl (fun t a => fenceCommit t a 2) s) me false).2 = none ∧ (fartgtOf s me).getLsbD 32 = false := by decide +kernel
-- a target that is resident nowhere is no reason to hold the fence
theorem test_fence_far : let s := wv fun x => { x with fartgt := 0x100000005 }
    (fartgtOf s me).getLsbD 32 = true ∧ farTargets s (k0 8).acts = [5] ∧ (farTries (1, s.nextOp) s.stamp.1 [5]).2 = [] ∧ (after (exec (.fenceFar g0 2) s)).isSome = true := by decide +kernel
theorem test_fence_far_woken : ready (.fenceFar g0 2) (woken (.far 3 [] []) (base false)) = some { k0 8 with woke := some (.far 3 [] []) } := by decide +kernel
-- a held batch tries at the end of a step although another batch is the current one (R291)
theorem test_fence_far_polls : let s := wv fun x => { x with
      batches := [Batch.start [1] 0x1080] ++ x.batches.map fun b => { b with state := .wait (.far 3 [5] []) } }
    ∃ x b, s.weave? 1 0 = some x ∧ x.batches[1]? = some b ∧ b.state = .wait (.far 3 [5] []) ∧ (farTries (1, 3) s [5]).2 = []
      ∧ (((pollFar s).weave? 1 0).map fun x => (x.cur, x.batches.map Batch.state)) = some (some 0, [.run, .woke (.far 3 [] [])]) :=
  ⟨_, _, rfl, rfl, rfl, by decide +kernel, by decide +kernel⟩
-- the other block of the launch stands at its end of work and holds a store, which the fence commits
theorem test_fence_far_served : let s := wv (fun x => { x with fartgt := 0x100000001 })
    let s := { s with blocks := s.blocks ++ (s.blocks.map fun e => (2, { e.2 with idx := 1, weaves := [], stream := none, sbuf := [⟨1, 0x40002000, [9], none, false⟩] })) }
    ∃ b y, s.block? (k0 8).uid = some b ∧ 1 ≠ b.idx ∧ farTarget s b 1 = some (some 2) ∧ s.block? 2 = some y ∧ blockStopped s 2 = true ∧ y.farStop = []
      ∧ ((after (exec (.fenceFar g0 2) s)).map fun t => (t.phys 0x40002000 1, (t.weave? 1 0).map fun x => x.batches.map Batch.pc)) = some (9, some [0x1008]) :=
  ⟨_, _, rfl, by decide +kernel, by decide +kernel, rfl, by decide +kernel, rfl, by decide +kernel⟩

/-! ### Fibres, launches, barriers, queues -/

theorem test_fork : let s := heads (two 7 0)
    ∃ b f, readyFib (.fork g0 2 6 0x40) s = some (k0 8)
      ∧ (targetCheck s 1 (s.coreOf ((k0 8).acts.headD (.seq 0))) (s.ctxOf (k0 8).uid) ((k0 8).pc + (0x40 : BitVec 32).signExtend 64)).2 = none
      ∧ (∀ a ∈ (k0 8).acts, missesFull s (s.coreOf a) = false)
      ∧ (k0 8).acts = [me] ∧ s.block? (k0 8).uid = some b ∧ s.fib? me = some f ∧ f.kind = .block ∧ mget f.binds (6 : BitVec 7).toNat = none
      ∧ childSlot b (k0 8).w = some (0, 1)
      ∧ ((after (exec (.fork g0 2 6 0x40) s)).map fun t => (t.reg? 1 0 0 6, t.reg? 1 0 1 0)) = some (some (.live 1), some (.live 7)) :=
  ⟨_, _, by decide +kernel, by decide +kernel, by decide +kernel, rfl, rfl, rfl, by decide +kernel, by decide +kernel, by decide +kernel, by decide +kernel⟩
theorem test_fork_full : let s := heads (wv fun x => { x with fibres := (upto 32).map fun n => (n, Fibre.start .block n []) })
    ∃ b, readyFib (.fork g0 2 6 0x40) s = some (k0 8) ∧ s.block? (k0 8).uid = some b ∧ childSlot b (k0 8).w = none
      ∧ ((after (exec (.fork g0 2 6 0x40) s)).bind fun t => t.reg? 1 0 0 6) = some (.live 0xFFFFFFFFFFFFFFFF) :=
  ⟨_, by decide +kernel, rfl, by decide +kernel, by decide +kernel⟩
theorem test_fend : let s := wv fun x => { x with
      fibres := x.fibres ++ [(1, Fibre.start .block 1 [])], batches := x.batches ++ [Batch.start [1] 0x1040] }
    ∃ x, readyFib (.fend g0) s = some (k0 8) ∧ s.weave? (k0 8).uid (k0 8).w = some x ∧ x.kind = .block
      ∧ (∀ a ∈ (k0 8).acts, ((s.fib? a).all fun f => f.pend.isEmpty && f.pool.isNone) = true) ∧ (mget x.fibres 1).isSome = true ∧ .fib 1 0 1 ∉ (k0 8).acts
      ∧ ((after (exec (.fend g0) s)).bind fun t => (t.weave? 1 0).map fun x => x.fibres.map Prod.fst) = some [1] :=
  ⟨_, by decide +kernel, rfl, rfl, by decide +kernel, by decide +kernel, by decide, by decide +kernel⟩
theorem test_fend_last : let s := launched (blk fun b => { b with stream := none })
    ∃ x b l, readyFib (.fend g0) s = some (k0 8) ∧ s.weave? 1 0 = some x ∧ s.block? (k0 8).uid = some b ∧ b.weaves = [((k0 8).w, x)]
      ∧ (∀ e ∈ x.fibres, .fib (k0 8).uid (k0 8).w e.1 ∈ (k0 8).acts) ∧ x.sbuf = [] ∧ b.sbuf = [] ∧ b.stream = none ∧ b.cpReady = [] ∧ b.mmReady = []
      ∧ b.running = [] ∧ b.grun = none ∧ s.inbox = [] ∧ s.launch? b.ctx b.lid = some l
      ∧ ((after (exec (.fend g0) s)).map fun t => ((t.block? 1).isNone, (t.launch? 1 1).map Launch.ended)) = some (true, some 1) :=
  ⟨_, _, _, by decide +kernel, rfl, rfl, rfl, by decide +kernel, rfl, rfl, rfl, rfl, rfl, rfl, rfl, rfl, rfl, by decide +kernel⟩
theorem test_launch : let s := two 0 0x9000
    let f := form .s8 (wd 3) (w 3) (w 2) (w 0)
    ready (.launch f) s = some (k0 8) ∧ (∀ a ∈ (k0 8).acts, (s.src a f.a).toNat % 64 = 0) ∧ (∀ a ∈ (k0 8).acts, s.buf (s.bufOf a) = [])
      ∧ (k0 8).acts.Nodup ∧ ((after (exec (.launch f) s)).map fun t => (t.pred me 3, (t.ctx? 1).map fun c => c.launches.map Launch.record))
          = some (true, some [0x9000]) := by decide +kernel
theorem test_launch_full : let s := (two 0 0x9000).updCtx 1 fun c => { c with launches := (upto 64).map fun n => Launch.queued (n + 1) 0 0 }
    let f := form .s8 (wd 3) (w 3) (w 2) (w 0)
    ready (.launch f) s = some (k0 8) ∧ ((after (exec (.launch f) s)).map fun t => t.pred me 3) = some false := by decide +kernel

def bars (b : Barrier) (s : State) : State := blk (fun x => { x with bars := [(1, b)] }) s
-- the second arrival of a phase of 2 completes it (R201, R202)
theorem test_barrier : (Barrier.mk 4 1 (some 2)).arrive (some 9) = (⟨5, 0, none⟩, 4) ∧ (Barrier.mk 4 0 none).arrive (some 2) = (⟨4, 1, some 2⟩, 4) := by
  decide +kernel
theorem test_bar_arrive : let f := form .s8 (wd 7) (w 0) (w 2) (w 1)
    ready (.barArrive f true 1) (two 2 0) = some (k0 8) ∧ ((after (exec (.barArrive f true 1) (two 2 0))).bind fun t => t.reg? 1 0 0 7) = some (.live 0) := by
  decide +kernel
theorem test_bar_wait : let f := form .s8 (wd 0) (w 3) (w 0) (w 1)
    let s := bars ⟨1, 0, none⟩ (two 0 0)
    readyFib (.barWait f 1) s = some (k0 8) ∧ holdRegion s (k0 8).uid = none ∧ (k0 8).woke = none
      ∧ (∀ e ∈ (k0 8).acts.map fun a => (a.slot, (s.src a f.a).toNat % 2 ^ 32), tokenDone 1 e.2 = true) ∧ (refresh s me false).2 = none
      ∧ ((after (exec (.barWait f 1) s)).bind fun t => (t.weave? 1 0).map fun x => x.batches.map fun b => (b.pc, b.state)) = some [(0x1008, .run)] := by
  decide +kernel
theorem test_bar_wait_waits : let f := form .s8 (wd 0) (w 3) (w 0) (w 1)
    readyFib (.barWait f 1) (two 0 0) = some (k0 8) ∧ (∃ e ∈ (k0 8).acts.map fun a => (a.slot, ((two 0 0).src a f.a).toNat % 2 ^ 32), tokenDone 0 e.2 = false)
      ∧ ((after (exec (.barWait f 1) (two 0 0))).bind fun t => (t.weave? 1 0).map fun x => x.batches.map fun b => (b.pc, b.state))
          = some [(0x1000, .wait (.bar 1 [(0, 0)]))] := by decide +kernel
theorem test_bar_sync : let f := form .s8 (wd 0) (w 0) (w 2) (w 1)
    let s := two 1 0
    let x := arriveAll (k0 8) (s.consume 0x1000 (k0 8).acts [f.b]) 1 fun a => barCount (s.src a f.b)
    readyFib (.barSync f 1) s = some (k0 8) ∧ (∀ e ∈ x.2, tokenDone (((x.1.block? 1).map fun b => (b.bar 1).p).getD 0) e.2 = true)
      ∧ (refresh x.1 me false).2 = none := by decide +kernel
theorem test_bar_woken : let f := form .s8 (wd 0) (w 0) (w 2) (w 1)
    let s := woken (.bar 1 [(0, 0)]) (base false)
    readyFib (.barSync f 1) s = some { k0 8 with woke := some (.bar 1 [(0, 0)]) } ∧ holdRegion s 1 = none ∧ (refresh s me false).2 = none := by
  decide +kernel

/-- The block has a stream of its own, and its queues hold elements. -/
def queued (fq sq : List Word) (s : State) : State := blk (fun b => { b with hdr := { b.hdr with seqEntry := 1 }, fq, sq }) s
theorem no_waits (b : Block) (h : (b.weaves.all fun w => w.2.batches.all fun y => match y.state with | .wait _ => false | _ => true) = true
    ∧ (match b.stream with | some x => (match x.state with | .wait _ => false | _ => true) | none => true) = true) : noWaits b := by
  obtain ⟨h1, h2⟩ := h
  refine ⟨fun w hw y hy q e => ?_, fun x hx q e => ?_⟩
  · have := List.all_eq_true.mp (List.all_eq_true.mp h1 w hw) y hy
    simp [e] at this
  · simp [hx, e] at h2
theorem test_qpush : let f := form .n64 (wd 0) (w 3) (w 0) (w 0)
    let s := queued [1] [] (two 0 9)
    ∃ b, ready (.qpush f false) s = some (k0 8) ∧ s.block? (k0 8).uid = some b ∧ (∀ ok n v p, (k0 8).woke ≠ some (.qpush ok n v p)) ∧ b.hdr.seqEntry ≠ 0
      ∧ (pushValues (k0 8) f s).length + (b.outQueue true).length ≤ 64 ∧ noWaits b
      ∧ ((after (exec (.qpush f false) s)).bind fun t => (t.block? 1).map Block.fq) = some [1, 9] :=
  ⟨_, by decide +kernel, rfl, nofun, by decide +kernel, by decide +kernel, no_waits _ (by decide +kernel), by decide +kernel⟩
theorem test_spush_full : let f := form .n64 (wd 5) (w 3) (w 0) (w 0)
    let s := queued [] (List.replicate 64 1) (base true)
    ∃ b, ready (.spush f true) s = some (kq 8) ∧ s.block? (kq 8).uid = some b ∧ 64 < (pushValues (kq 8) f s).length + (b.outQueue false).length
      ∧ ((after (exec (.spush f true) s)).map fun t => (t.pred sq 5, (t.block? 1).map fun b => b.sq.length)) = some (false, some 64) :=
  ⟨_, by decide +kernel, rfl, by decide +kernel, by decide +kernel⟩
theorem test_push_woken : ready (.qpush (form .n64 (wd 0) (w 3) (w 0) (w 0)) false) (woken (.qpush true 0 [9] [0]) (base false))
    = some { k0 8 with woke := some (.qpush true 0 [9] [0]) } := by decide +kernel
theorem test_qpop : let f := form .n64 (wd 4) (w 0) (w 0) (w 0)
    let s := queued [] [5, 6] (base false)
    ∃ b, ready (.qpop f false) s = some (k0 8) ∧ s.block? (k0 8).uid = some b ∧ b.hdr.seqEntry ≠ 0 ∧ popCount (k0 8) f ≤ (b.inQueue true).length
      ∧ ((after (exec (.qpop f false) s)).map fun t => ((t.pendOf me).map Pend.val, (t.block? 1).map Block.sq)) = some ([5], some [6]) :=
  ⟨_, by decide +kernel, rfl, by decide +kernel, by decide +kernel, by decide +kernel⟩
theorem test_spop_empty : let f := form .n64 (wd 4) (w 0) (w 0) (w 2)
    let s := queued [] [] (base true)
    ∃ b, ready (.spop f true) s = some (kq 8) ∧ s.block? (kq 8).uid = some b ∧ (b.inQueue false).length < popCount (kq 8) f
      ∧ ((after (exec (.spop f true) s)).map fun t => t.pred sq 2) = some false :=
  ⟨_, by decide +kernel, rfl, by decide +kernel, by decide +kernel⟩
theorem test_pop_woken : let q : Wait := .qpop true 0 [5] [0] 1 none [(3, 0)]
    let s := woken q (base false)
    let i : Instr := .qpop (form .n64 (wd 4) (w 0) (w 0) (w 0)) false
    ready i s = some { k0 8 with woke := some q } ∧ (∀ a ∈ (k0 8).acts, ∀ e ∈ [((3 : Nat), (0 : Word))], e.1 ≠ a.slot)
      ∧ ((after (exec i s)).map fun t => (t.pendOf me).map Pend.val) = some [5] := by decide +kernel

/-! ### Recruitment -/

theorem test_recruit : let s := heads (two 0 5)
    let r : RecruitForm := ⟨g0, 4, 3, false, 1, 16, 0x40⟩
    ∃ b f, readyFib (.recruit r) s = some (k0 16) ∧ (k0 16).woke = none ∧ s.block? (k0 16).uid = some b ∧ s.fib? me = some f ∧ f.kind = .block
      ∧ f.pend = [] ∧ b.hlp = false ∧ b.sbuf = [] ∧ poolsOn s (s.coreOf me) < 32 ∧ mget f.binds r.d.toNat = none
      ∧ (targetCheck s 1 (s.coreOf me) (s.ctxOf (k0 16).uid) ((k0 16).pc + r.body.signExtend 64)).2 = none ∧ missesFull s (s.coreOf me) = false
      ∧ ((after (exec (.recruit r) s)).map fun t => (t.reg? 1 0 0 4, ((t.fib? me).bind Fibre.pool).map fun p => (p.n, p.u, p.p))) = some (some (.live 5), some (5, 0, 0)) :=
  ⟨_, _, by decide +kernel, rfl, rfl, rfl, rfl, rfl, rfl, rfl, by decide +kernel, by decide +kernel, by decide +kernel, by decide +kernel⟩
theorem test_recruit_released : readyFib (.recruit ⟨g0, 4, 3, false, 1, 16, 0x40⟩) (woken (.recruit []) (base false))
    = some { k0 16 with woke := some (.recruit []) } := by decide +kernel

def aPool (u p h : Nat) : Pool := ⟨5, u, p, [], [], [], h, 0x1040, 16, [], 4, false⟩
def pooled (u p : Nat) : State := fib fun f => { f with pool := some (aPool u p 0) }
theorem test_hwork : let f := form .n64 (wd 6) (w 0) (w 0) (w 2)
    let s := pooled 3 0
    let x := workAll (k0 8) f { st := s } false (k0 8).acts
    readyFib (.hwork f) s = some (k0 8) ∧ x.traps = [] ∧ x.gone.isEmpty = true ∧ x.left.isEmpty = true ∧ f.d.uni = false
      ∧ ((after (exec (.hwork f) s)).map fun t => (t.reg? 1 0 0 6, t.pred me 2)) = some (some (.live 3), true)
      ∧ (((after (exec (.hwork f) s)).bind fun t => t.fib? me).map fun f => f.pool.map Pool.u) = some (some 4) :=
  ⟨by decide +kernel, rfl, by decide +kernel, by decide +kernel, rfl, by decide +kernel, by decide +kernel⟩
theorem test_hwork_closes : let f := form .n64 (wd 6) (w 0) (w 0) (w 2)
    readyFib (.hwork f) (pooled 5 5) = some (k0 8)
      ∧ ((after (exec (.hwork f) (pooled 5 5))).map fun t => (t.pred me 2, (t.fib? me).map fun f => f.pool.isNone)) = some (false, some true) := by
  decide +kernel
theorem test_hret : let f := form .s32 (wd 4) (w 3) (w 0) (w 0)
    let s := fib (fun f => { f with cur := some (2, []) }) (two 0 9)
    readyFib (.hret f .add) s = some (k0 8) ∧ (k0 8).acts.Nodup
      ∧ (∀ a ∈ (k0 8).acts, (((s.fib? a).bind Fibre.cur).any fun x => decide (x.2.length < 4)) = true)
      ∧ ((after (exec (.hret f .add) s)).bind fun t => (t.fib? me).bind Fibre.cur) = some (2, [⟨.add, .s32, 4, 9⟩]) := by decide +kernel
theorem test_hend : readyFib (.hend g0) (base false) = some (k0 8) ∧ (∀ a ∈ (k0 8).acts, (base false).isHelper a = false)
    ∧ after (exec (.hend g0) (base false)) = some ((k0 8).after false (base false)) := by decide +kernel
/-- The fibre in focus is a helper of the fibre in slot 1. -/
def helping : State := wv fun x => { x with
  fibres := [(0, Fibre.start (.helper 0 1 0) 1024 []), (1, { Fibre.start .block 1 [] with pool := some (aPool 5 0 1) })]
  batches := x.batches ++ [{ Batch.start [1] 0x1080 with state := .parked }] }
theorem test_hend_helper : ∃ h r p, readyFib (.hend g0) helping = some (k0 8) ∧ (k0 8).acts = [me] ∧ helping.fib? me = some h ∧ h.kind = .helper 0 1 0
      ∧ h.pend = [] ∧ h.pool = none ∧ helping.fibre? (k0 8).uid 0 1 = some r ∧ r.pool = some p ∧ ¬(0 = (k0 8).w ∧ 1 = me.slot)
      ∧ ((after (exec (.hend g0) helping)).map fun t => ((t.fib? me).isNone, ((t.fibre? 1 0 1).bind Fibre.pool).map Pool.helpers)) = some (true, some 0) :=
  ⟨_, _, _, by decide +kernel, rfl, rfl, rfl, rfl, rfl, rfl, rfl, by decide +kernel, by decide +kernel⟩

/-! ### System registers and instructions -/

theorem test_sysr : let f := form .n64 (wd 6) (w 0) (w 0) (w 0x0B)
    let s := wv fun x => { x with fartgt := 0x100000005 }
    ready (.sysr f false) s = some (k0 8) ∧ sysNamed (k0 8) f = some .fartgt ∧ SysReg.fartgt.readForm false (isImm f) = true ∧ SysReg.fartgt.zoned = false
      ∧ SysReg.fartgt.indices = none ∧ ((after (exec (.sysr f false) s)).bind fun t => t.reg? 1 0 0 6) = some (.live 0x100000005) := by decide +kernel
theorem test_sysr_indexed : let f := form .n64 (wd 6) (w 3) (w 0) (w 0x22)
    ready (.sysr f true) (two 0 9) = some (k0 8) ∧ sysNamed (k0 8) f = some .tmask ∧ SysReg.tmask.readForm true (isImm f) = true
      ∧ SysReg.tmask.indices = some 10 ∧ (∀ a ∈ (k0 8).acts, sysIndex f (two 0 9) a < 10) := by decide +kernel
theorem test_sysr_zone : let f := form .n64 (wd 6) (w 3) (w 0) (w 0x08)
    ready (.sysr f true) memS = some (k0 8) ∧ sysNamed (k0 8) f = some .repl ∧ SysReg.repl.zoned = true
      ∧ (translate memS 1 0 1 (memS.src me f.a) .load).2 = .ok 0x40002000
      ∧ ((after (exec (.sysr f true) memS)).bind fun t => t.reg? 1 0 0 6) = some (.live 0x60) := by decide +kernel
theorem test_sysw : let f := form .n64 (wd 0) (w 0) (w 2) (w 0x0B)
    ready (.sysw f false) (two 0x100000007 0) = some (k0 8) ∧ sysNamed (k0 8) f = some .fartgt ∧ SysReg.fartgt.writable = true
      ∧ SysReg.fartgt.writeForm false = true ∧ (sysPut ((two 0x100000007 0).noteAll 0x1000 [me] (sysSrcs f false true)) me .fartgt (sysData f (two 0x100000007 0) me)).isSome = true
      ∧ ((after (exec (.sysw f false) (two 0x100000007 0))).map fun t => fartgtOf t me) = some 0x100000007 := by decide +kernel
theorem test_sysw_zone : let f := form .n64 (wd 0) (w 3) (w 2) (w 0x08)
    let s := stores (mapped (two 0x52 0x22000))
    let s := { s with zones := [(zoneOf 0x40002000, { Zone.reset with tag := some 1 })] }
    ready (.sysw f true) s = some (k0 8) ∧ sysNamed (k0 8) f = some .repl ∧ (zoneForWrite s 1 0 1 (s.src me f.a)).2 = .ok 0x40002000
      ∧ replOk (sysData f s me) = true
      ∧ ((after (exec (.sysw f true) s)).map fun t => ((t.zone (zoneOf 0x40002000)).floor, (t.zone (zoneOf 0x40002000)).ceil)) = some (2, 5) := by
  decide +kernel
theorem test_sysw_read_only : let f := form .n64 (wd 0) (w 0) (w 2) (w 0x10)
    ∃ b c, ready (.sysw f false) routine = some (k0 8) ∧ sysNamed (k0 8) f = some .xcause ∧ SysReg.xcause.writable = false ∧ (k0 8).weave.isSome = true
      ∧ routineReady (k0 8) b c routine :=
  ⟨_, _, by decide +kernel, by decide +kernel, rfl, rfl, ready_routine _ _ _ _ rfl rfl rfl (by decide +kernel)⟩
theorem test_sys_registers : ∃ b x f, (base false).block? 1 = some b ∧ (base false).weave? 1 0 = some x ∧ (base false).fibre? 1 0 0 = some f ∧ f.kind = .block
      ∧ f.tr.inTrap = false ∧ ((sysPut (base false) me (.bkp 3) 0xFFFFFFFFFFFFFFFF).map fun t => sysValue t me (.bkp 3) 0) = some 0x01FCFFFFFFFFFFFC
      ∧ ((sysPut (wv fun x => { x with fpflags := 0x1F }) me .fpflags 5).map fun t => sysValue t me .fpflags 0) = some 0x1A :=
  ⟨_, _, _, rfl, rfl, rfl, rfl, rfl, by decide +kernel, by decide +kernel⟩
theorem test_sys_in_trap : let s := fib fun f => { f with tr := { f.tr with inTrap := true } }
    (s.fibre? 1 0 0).map (fun f => f.tr.inTrap) = some true ∧ ((sysPut s me .xpc 0x2000).map fun t => sysValue t me .xpc 0) = some 0x2000 := by
  decide +kernel
theorem test_icinv : let f := form .n64 (wd 0) (w 3) (w 0) (w 0)
    ready (.icinv (form .n64 (wd 0) (w 0) (w 0) (w 0)) true) memS = some (k0 8) ∧ ready (.icinv f false) memS = some (k0 8) ∧ (k0 8).acts = [me]
      ∧ (translate (memS.noteAll 0x1000 [me] [f.a]) 1 (memS.coreOf me) (memS.ctxOf 1) (memS.src me f.a) .line).2 = .ok 0x40002000 := by decide +kernel
theorem test_mcdef : let f := form .n64 (wd 0) (w 3) (w 2) (w 5)
    let s : State := { mapped (two 0x41 0x22000) with mem := (mapped (base false)).mem.writeBytes 0x40002000 (toBytes 8 0x0000200081850004) }
    ready (.mcdef f) s = some (k0 8) ∧ ((k0 8).acts.foldl (mcdefOne (k0 8) f s) { st := s.noteAll (k0 8).pc (k0 8).acts [f.a, f.b] }).traps = []
      ∧ readsWait s ((k0 8).acts.foldl (mcdefOne (k0 8) f s) { st := s.noteAll (k0 8).pc (k0 8).acts [f.a, f.b] }).st 0 = false
      ∧ ((after (exec (.mcdef f) s)).map fun t => (t.core 0).macs.map fun e => (e.2.n, e.2.ops)) = some [(5, [0x0000200081850004])] := by decide +kernel

/-! ### Trees and migration -/

def member (s : State) : State := s.updCtx 1 fun c => { c with flags := 0xFFFF }
theorem test_tarr : let f := form .s8 (wd 7) (w 0) (w 0) (w 0)
    ∃ b, (member (base false)).block? (k0 8).uid = some b ∧ inTree (member (base false)) b false = true
      ∧ readyFib (.tarr f true false) (member (base false)) = some (k0 8)
      ∧ ((after (exec (.tarr f true false) (member (base false)))).map fun t => (t.reg? 1 0 0 7, (t.block? 1).map Block.arr0)) = some (some (.live 0), some true) :=
  ⟨_, rfl, by decide +kernel, by decide +kernel, by decide +kernel⟩
theorem test_twait : let f := form .s8 (wd 0) (w 3) (w 0) (w 0)
    let s := (member (two 0 0)).updDie 0 fun d => { d with seg0 := ⟨false, 1⟩ }
    let t := s.consume 0x1000 (k0 8).acts [f.a]
    readyFib (.twait f false) s = some (k0 8) ∧ holdRegion s (k0 8).uid = none
      ∧ (∀ a ∈ (k0 8).acts, tokenDone (BitVec.ofNat 32 (roundsAt s 1 0 false)) ((s.src a f.a).toNat % 2 ^ 32) = true) ∧ (refresh t me false).2 = none
      ∧ ((after (exec (.twait f false) s)).bind fun t => (t.weave? 1 0).map fun x => x.batches.map Batch.pc) = some [0x1008] := by decide +kernel
theorem test_twait_woken : let f := form .s8 (wd 0) (w 3) (w 0) (w 0)
    let s := member (woken (.twait false [(0, 0)]) (base false))
    readyFib (.twait f false) s = some { k0 8 with woke := some (.twait false [(0, 0)]) } ∧ holdRegion s 1 = none ∧ (refresh s me false).2 = none := by
  decide +kernel
theorem test_migrate : let f := form .n64 (wd 3) (w 3) (w 0) (w 0)
    let m := moveAddrs (k0 8) (memS.noteAll (k0 8).pc (k0 8).acts [f.a]) f
    ∃ b, readyFib (.migrate f) memS = some (k0 8) ∧ (∀ c, (k0 8).woke ≠ some (.migrate c)) ∧ m.2.1 = [] ∧ m.1.block? (k0 8).uid = some b
      ∧ mayMove (k0 8) m.1 b = false ∧ ((after (exec (.migrate f) memS)).map fun t => t.pred me 3) = some false :=
  ⟨_, by decide +kernel, nofun, by rfl, rfl, by decide +kernel, by decide +kernel⟩
/-- The block may move, and the address is homed on its die. -/
def movable (s : State) : State :=
  launched (blk (fun b => { b with stream := none }) { s with service := { s.service with mode := 2 }, regions := [(0, { Region.reset with up := true })] })
theorem test_migrate_home : let f := form .n64 (wd 3) (w 3) (w 0) (w 0)
    let s := movable memS
    let m := moveAddrs (k0 8) (s.noteAll (k0 8).pc (k0 8).acts [f.a]) f
    readyFib (.migrate f) s = some (k0 8) ∧ m.2.2 = [(0x22000, 0x40002000)] ∧ ((m.1.block? 1).map fun b => mayMove (k0 8) m.1 b) = some true
      ∧ homeFor m.1 0x40002000 128 = some (coreDie 0) ∧ (refresh (outcomes (k0 8) m.1 3 true) me false).2 = none
      ∧ ((after (exec (.migrate f) s)).map fun t => t.pred me 3) = some true := by decide +kernel
theorem test_migrate_woken : readyFib (.migrate (form .n64 (wd 3) (w 3) (w 0) (w 0))) (woken (.migrate 5) (base false))
    = some { k0 8 with woke := some (.migrate 5) } := by decide +kernel
theorem test_migrate_arrived : let s := woken (.migrate 0) (base false)
    readyFib (.migrate (form .n64 (wd 3) (w 3) (w 0) (w 0))) s = some { k0 8 with woke := some (.migrate 0) } ∧ (s.block? 1).map Block.core = some 0
      ∧ ((after (exec (.migrate (form .n64 (wd 3) (w 3) (w 0) (w 0))) s)).map fun t => t.pred me 3) = some true := by decide +kernel

/-! ### Commands and the graph -/

/-- Buffers lb0 to lb2 of 8 slots of 1,024 bytes, the stream holding addresses and lengths in s1 to s3. -/
def engineS : State := strm (fun x => { x with s := [(1, 0x22000), (2, 16), (3, 32), (6, 0x00010104), (7, 8)] })
  (blk (fun b => { b with hdr := { b.hdr with seqEntry := 1, lstore := 2112, bufs := [8, 8, 8] ++ List.replicate 13 0 }, starts := [(0, 0), (1, 8), (2, 16)], slots := upto 33, pool := [32] })
    (base true))
theorem test_commands (i : Instr) (h : i = .cpIn (eform none 1 3 0) 0 false .bytes 0 0 ∨ i = .cpOut (eform none 1 3 0) 0 false 0 8
      ∨ i = .cpPeer (eform none 1 3 0) 0 1 0 0 8 false ∨ i = .cpFill (eform none 0 3 0) 0 false false 0 0 ∨ i = .pub g0 none 1 8
      ∨ i = .mmClr g0 none 1 ∨ i = .mmLd g0 none 2 1 false 0 ∨ i = .mmRd g0 none 2 false 1 .f .f32 0) :
    ∃ r b x, i.cmdOp (engineS.service.mode = 1) = some r ∧ readySeq i engineS = some (kq i.size) ∧ engineS.block? (kq i.size).uid = some b
      ∧ engineS.stream? (kq i.size).uid = some x ∧ r.ok i (kq i.size) engineS b ∧ x.capture = none ∧ b.queued i.engine < 8
      ∧ after (exec i engineS) = some ((kq i.size).afterSeq (engineS.updBlock 1 fun b => b.ready (r.cmd i (kq i.size) engineS))) := by
  rcases h with rfl | rfl | rfl | rfl | rfl | rfl | rfl | rfl <;>
    exact ⟨_, _, _, rfl, by decide +kernel, rfl, rfl, ⟨by decide +kernel, by decide +kernel⟩, rfl, by decide +kernel, by decide +kernel⟩
theorem test_mm : let i : Instr := .mm (eform none 6 0 0) 0 1 0 0 0 true false false
    ∃ r b x, i.cmdOp (engineS.service.mode = 1) = some r ∧ readySeq i engineS = some (kq 16) ∧ engineS.block? (kq 16).uid = some b
      ∧ engineS.stream? (kq 16).uid = some x ∧ r.ok i (kq 16) engineS b ∧ x.capture = none ∧ b.queued i.engine < 8 :=
  ⟨_, _, _, rfl, by decide +kernel, rfl, rfl, ⟨by decide +kernel, by decide +kernel⟩, rfl, by decide +kernel⟩
theorem test_capture : let s := strm (fun x => { x with capture := some (3, 0, none) }) engineS
    ∃ r b x, (Instr.mmClr g0 none 1).cmdOp false = some r ∧ readySeq (.mmClr g0 none 1) s = some (kq 8) ∧ s.block? (kq 8).uid = some b
      ∧ s.stream? (kq 8).uid = some x ∧ r.ok (.mmClr g0 none 1) (kq 8) s b ∧ x.capture = some (3, 0, none) ∧ r.bar = none :=
  ⟨_, _, _, rfl, by decide +kernel, rfl, rfl, ⟨by decide +kernel, by decide +kernel⟩, rfl, rfl⟩
theorem test_lbmap : let i (n : Nat) (b : Block) : Prop := b.slotsOf n ≠ 0 ∧ writing engineS 1 n = false ∧ b.reading n = false
    ∃ b, engineS.block? (kq 8).uid = some b ∧ readySeq (.lbmapSwap g0 0 1) engineS = some (kq 8) ∧ i 0 b ∧ i 1 b ∧ b.slotsOf 0 = b.slotsOf 1
      ∧ (((after (exec (.lbmapSwap g0 0 1) engineS)).bind fun t => t.block? 1).map Block.starts) = some [(0, 8), (1, 0), (2, 16)] :=
  ⟨_, rfl, by decide +kernel, by decide +kernel, by decide +kernel, by decide +kernel, by decide +kernel⟩
theorem test_lbmap_set : let s := strm (fun x => { x with s := [(4, 24)] }) engineS
    ∃ b, s.block? (kq 8).uid = some b ∧ readySeq (.lbmapSet g0 0 4) s = some (kq 8) ∧ b.slotsOf 0 ≠ 0 ∧ writing s 1 0 = false ∧ b.reading 0 = false
      ∧ (∀ n, n < b.slotsOf 0 → b.plain ((s.readS (kq 8).uid 4).toNat + n) = true) :=
  ⟨_, rfl, by decide +kernel, by decide +kernel, by decide +kernel, by decide +kernel, by decide +kernel⟩
theorem test_graph : ∃ b, engineS.block? (kq 8).uid = some b ∧ b.grun = none ∧ readySeq (.gNode g0 1 0 none) engineS = some (kq 16)
    ∧ readySeq (.gEdge g0 1 2) engineS = some (kq 8) ∧ ((mget b.edges 1).getD []).length < 16 ∧ readySeq (.gRun g0 none) engineS = some (kq 8)
    ∧ b.badEdge = false ∧ (∀ n ∈ b.graph, n.2.st ≠ .error) ∧ readySeq (.gReset g0) engineS = some (kq 8) ∧ (∀ n ∈ b.graph, n.2.st ≠ .running)
    ∧ (((after (exec (.gEdge g0 1 2) engineS)).bind fun t => t.block? 1).map Block.edges) = some [(1, [2])] :=
  ⟨_, rfl, rfl, by decide +kernel, by decide +kernel, by decide +kernel, by decide +kernel, by decide +kernel, by decide +kernel, by decide +kernel,
    by decide +kernel, by decide +kernel⟩

/-! ### Engine events -/

def did (i : Instr) (s : State) : State := (after (exec i s)).getD s
/-- The block has a fibre too. -/
def peopled (s : State) : State := blk (fun b => { b with weaves := ((base false).block? 1).elim [] Block.weaves }) s
theorem populated_of (b : Block) (h : (b.weaves.any fun w => !w.2.fibres.isEmpty) = true) : b.populated := by
  obtain ⟨w, hw, h⟩ := List.any_eq_true.mp h
  exact ⟨w, hw, fun e => by simp [e] at h⟩
/-- 16 slots are in the shadow pool, lb0 holds 1 and 2, and 0x22000 is mapped. -/
def engineQ : State := stores (mapped (blk (fun b =>
  { b with hdr := { b.hdr with lstore := 3072 }, slots := upto 48, pool := (upto 16).map (32 + ·), lstore := [(0, 1), (1, 2)] }) engineS))
/-- A `cp.in` of 16 bytes into lb0 is ready. -/
def engineR : State := did (.cpIn (eform none 1 3 0) 0 false .bytes 0 0) engineQ
/-- A command runs. -/
def running (i : Instr) : State := peopled (did (.commandStart 1 i.engine) (did i engineQ))
theorem test_command_start : ∃ b c b' lo, engineR.block? 1 = some b ∧ b.takeReady .copy = some (c, b') ∧ b.runningOn .copy < engineRoom .copy
    ∧ c.ins.writes = some (0, false) ∧ ¬Instr.peers c.ins ∧ writing engineR 1 0 = false ∧ b.slotsOf 0 ≠ 0
    ∧ shadowRun (engineR.setBlock 1 b') 1 b (b.slotsOf 0) = some lo :=
  ⟨_, _, _, _, rfl, rfl, by decide +kernel, rfl, nofun, by decide +kernel, by decide +kernel, rfl⟩
theorem test_command_start_out : let s := did (.cpOut (eform none 1 3 0) 0 false 0 8) (mapped engineS)
    ∃ b c b' c' t, s.block? 1 = some b ∧ b.takeReady .copy = some (c, b') ∧ b.runningOn .copy < engineRoom .copy ∧ c.ins.writes = none
      ∧ resolvePair (s.setBlock 1 b') 1 c = (t, .ok c') :=
  ⟨_, _, _, _, _, rfl, rfl, by decide +kernel, rfl, rfl⟩
theorem test_command_start_peer : let s := did (.cpPeer (eform none 4 3 0) 0 1 0 0 8 false) engineQ
    ∃ b c b' lo z, s.block? 1 = some b ∧ b.takeReady .copy = some (c, b') ∧ b.runningOn .copy < engineRoom .copy ∧ c.ins.writes = some (1, false)
      ∧ Instr.peers c.ins ∧ coreDown s (peerCore c) = false ∧ peerTarget s b.ctx (peerCore c) = some (1, z) ∧ s.block? 1 = some z ∧ writing s 1 1 = false ∧ z.slotsOf 1 ≠ 0
      ∧ peerEnd c ≤ z.bufSize 1 ∧ shadowRun (s.setBlock 1 b') 1 z (z.slotsOf 1) = some lo
      ∧ (((did (.commandStart 1 .copy) s).block? 1).map fun b => b.running.map Running.run) = some [some (1, lo)] :=
  ⟨_, _, _, _, _, rfl, rfl, by decide +kernel, rfl, ⟨_, _, _, _, _, _, _, rfl⟩, by decide +kernel, rfl, rfl, by decide +kernel, by decide +kernel, by decide +kernel, rfl,
    by decide +kernel⟩
/-- The `cp.in` runs. -/
def engineG : State := running (.cpIn (eform none 1 3 0) 0 false .bytes 0 0)
theorem test_command_completion : ∃ r s2, cmdCompletes 1 0 r engineG ∧ finishCmd engineG 1 r = (s2, .ok ()) := ⟨_, _, ⟨rfl, rfl, rfl⟩, rfl⟩
theorem test_cp_in : ∃ r b s1 b1 x, cmdCompletes 1 0 r engineG ∧ engineG.block? 1 = some b ∧ r.run = some (0, 32) ∧ r.target = 1 ∧ s1.block? 1 = some b1
    ∧ b1.populated ∧ runWrite engineG 1 b r = some (s1, x) ∧ r.cmd.rb ≠ 0 ∧ r.cmd.ra.toNat % 256 + r.cmd.rb.toNat ≤ 256
    ∧ tlbMaps engineG (.seq 1) r.cmd.ra .load 0x40002000 ∧ engineG.poisoned 0x40002000 r.cmd.rb.toNat = false
    ∧ (((did (.commandCompletion 1 0) engineG).block? 1).map fun b => (b.running, b.startOf 0, mget b.lstore 0x8000, mget b.lstore 0x8001))
        = some ([], 32, some 0x80, some 1) :=
  ⟨_, _, _, _, _, ⟨rfl, rfl, rfl⟩, rfl, rfl, rfl, rfl, populated_of _ (by decide +kernel), rfl, by decide +kernel, by decide +kernel,
    ⟨by decide +kernel, _, rfl, by decide +kernel, by decide +kernel, by decide +kernel⟩, by decide +kernel, by decide +kernel⟩
theorem test_run_written (i : Instr) (h : i = .cpFill (eform none 0 3 1) 0 false false 1 0 ∨ i = .mmRd g0 none 0 false 1 .f .f32 0) :
    ∃ r b x, cmdCompletes 1 0 r (running i) ∧ (running i).block? 1 = some b ∧ b.populated ∧ r.run = some (0, 32) ∧ r.target = 1
      ∧ runWrite (running i) 1 b r = some (running i, x) := by
  rcases h with rfl | rfl <;> exact ⟨_, _, _, ⟨rfl, rfl, rfl⟩, rfl, populated_of _ (by decide +kernel), rfl, rfl, rfl⟩
-- 16 bytes into the run, at offset 16 (R320)
theorem test_cp_fill : (((did (.commandCompletion 1 0) (running (.cpFill (eform none 0 3 1) 0 false false 1 0))).block? 1).map fun b =>
    (b.startOf 0, mget b.lstore 0x8000, (upto 4).map fun n => lsByte b (0x8010 + n))) = some (32, none, [0, 0x20, 2, 0]) := by decide +kernel
theorem test_cp_peer : let s := running (.cpPeer (eform none 4 3 0) 0 1 0 0 8 false)
    ∃ r b, cmdCompletes 1 0 r s ∧ s.block? 1 = some b ∧ b.populated ∧ r.run = some (1, 32) ∧ s.block? r.target = some b ∧ r.cmd.rc = 0 ∧ s.buf (.block 1) = []
      ∧ (((did (.commandCompletion 1 0) s).block? 1).map fun b => (b.startOf 1, mget b.lstore 0x8000, mget b.lstore 0x8001)) = some (32, some 1, some 2) :=
  ⟨_, _, ⟨rfl, rfl, rfl⟩, rfl, populated_of _ (by decide +kernel), rfl, rfl, by decide +kernel, rfl, by decide +kernel⟩
theorem test_memory_written (i : Instr) (h : i = .cpOut (eform none 1 3 0) 0 false 0 8 ∨ i = .cpFill (eform none 1 3 1) 0 false true 0 8) :
    ∃ r b d, cmdCompletes 1 0 r (running i) ∧ (running i).block? 1 = some b ∧ b.populated ∧ memWrite b r = some d ∧ d.length = 32
      ∧ tlbMaps (running i) (.seq 1) r.cmd.ra .store 0x40002000 ∧ r.cmd.ra.toNat = 0x22000 ∧ tagOk (running i) b.ctx 0x40002000 = true
      ∧ (∀ p, (running i).frameAt p = none) ∧ (running i).buf (.block 1) = [] ∧ (∀ e ∈ (running i).blocks, e.2.deadline = none)
      ∧ (did (.commandCompletion 1 0) (running i)).phys 0x40002000 2 = if i = .cpOut (eform none 1 3 0) 0 false 0 8 then 0x0201 else 0x2000 := by
  rcases h with rfl | rfl <;>
    exact ⟨_, _, _, ⟨rfl, rfl, rfl⟩, rfl, populated_of _ (by decide +kernel), rfl, by decide +kernel,
      ⟨by decide +kernel, _, rfl, by decide +kernel, by decide +kernel, by decide +kernel⟩, by decide +kernel, by decide +kernel, fun _ => rfl, rfl,
      by decide +kernel, by decide +kernel⟩
theorem test_tile_written (i : Instr) (h : i = .mm (eform none 6 0 0) 0 1 0 0 0 true false false ∨ i = .mmClr g0 none 1 ∨ i = .mmLd g0 none 2 1 false 0) :
    ∃ r b x, cmdCompletes 1 0 r (running i) ∧ (running i).block? 1 = some b ∧ b.populated ∧ tileWrite (running i) b r = some x := by
  rcases h with rfl | rfl | rfl <;> exact ⟨_, _, _, ⟨rfl, rfl, rfl⟩, rfl, populated_of _ (by decide +kernel), rfl⟩
theorem test_command_error : ∃ r x, engineG.running? 1 0 = some r ∧ engineG.stream? 1 = some x ∧ x.state ≠ .ended ∧ (0x12 : BitVec 8) ≠ 0x16
    ∧ (((did (.commandError 1 0 0x12) engineG).stream? 1).map Stream.cmdErr) = some [(0x12, 0x1000)] :=
  ⟨_, _, rfl, rfl, by decide +kernel, by decide, by decide +kernel⟩
theorem test_stream_end : let s := strm (fun x => { x with ending := true }) (blk (fun b => { b with weaves := ((base false).block? 1).elim [] Block.weaves }) (base true))
    ∃ b x, s.block? 1 = some b ∧ s.stream? 1 = some x ∧ x.ending = true ∧ x.state ≠ .ended ∧ x.pend = [] ∧ x.cmdErr = [] ∧ b.populated
      ∧ ((did (.seqctlEnd 1) s).stream? 1).map Stream.state = some .ended :=
  ⟨_, _, rfl, rfl, by decide +kernel, by decide +kernel, by decide +kernel, rfl, populated_of _ (by decide +kernel), by decide +kernel⟩

/-! ### Traps between instructions -/

theorem test_command_error_trap : let s := routine (strm fun x => { x with cmdErr := [(0x12, 0x1010)] })
    ∃ b c x, s.block? 1 = some b ∧ s.ctx? b.ctx = some c ∧ s.stream? 1 = some x ∧ x.cmdErr = [(0x12, 0x1010)] ∧ x.state = .run ∧ x.pend = []
      ∧ x.tr.inTrap = false ∧ b.hdr.trapEntry ≠ 0
      ∧ (((did (.trapEntry 1) s).stream? 1).map fun x => (x.tr.cause, x.tr.inner, x.tr.xfpc)) = some (0x12, 0x12, 0x1010) :=
  ⟨_, _, _, rfl, rfl, rfl, rfl, rfl, rfl, rfl, by decide +kernel, by decide +kernel⟩
theorem test_breakpoint : let s := routine (blk fun b => { b with bkp := [(2, 0x0100000000001000)] })
    ∃ b c x z, s.focus = .weave 1 0 ∧ s.weave? 1 0 = some x ∧ x.curBatch = some z ∧ z.members ≠ [] ∧ bkpMatch b z = some (2 : BitVec 2).toNat
      ∧ routineReady (fibIss s 1 0 x z 8 ⟨0, false⟩) b c s
      ∧ (((did (.breakpointMatch 2) s).fibre? 1 0 0).map fun f => (f.tr.cause, f.tr.xaux)) = some (0x10, 0x102) :=
  ⟨_, _, _, _, rfl, rfl, rfl, by decide +kernel, by decide +kernel, ready_routine _ _ _ _ rfl rfl rfl (by decide +kernel), by decide +kernel⟩
/-- A backward `bra` stands at 0x1080, and its batch has taken 2 backward transfers, as many as the watchdog admits. -/
def barking : State :=
  let s := routine (heads (wv (fun x => { x with batches := x.batches.map fun b => { b with pc := 0x1080, wd := 2 } }) (blk fun b => { b with wdog := 1 })))
  { s with mem := s.mem.writeBytes 0x40001080 (toBytes 8 (((encode (.bra g0 0xFFFFFFC0)).map Prod.snd).getD 0)) }
theorem test_watchdog : let j := (Instr.bra g0 0xFFFFFFC0).jump.getD ⟨fun _ s => s, fun _ s _ => s, fun _ _ _ => 0⟩
    let t := (takeTurn barking).1
    let k : Iss := { k0 8 with pc := 0x1080, npc := 0x1088, wd := 2 }
    ∃ b c z, takeTurn barking = (t, .run (.bra g0 0xFFFFFFC0)) ∧ readyFib (.bra g0 0xFFFFFFC0) t = some k ∧ (j.target k t me).toNat ≤ k.pc.toNat
      ∧ (t.weave? k.uid k.w).bind Weave.curBatch = some z ∧ b.wdog ≠ 0 ∧ 2 ^ b.wdog ≤ z.wd
      ∧ (targetCheck (j.start k t) k.uid ((j.start k t).coreOf me) (t.ctxOf k.uid) (j.target k t me)).2 = none
      ∧ fetchWaits t (targetCheck (j.start k t) k.uid ((j.start k t).coreOf me) (t.ctxOf k.uid) (j.target k t me)).1 (t.coreOf me) = false
      ∧ routineReady k b c (targetCheck (j.start k t) k.uid ((j.start k t).coreOf me) (t.ctxOf k.uid) (j.target k t me)).1 :=
  ⟨_, _, _, by decide +kernel, by decide +kernel, by decide +kernel, rfl, by decide +kernel, by decide +kernel, by decide +kernel,
    by decide +kernel, ready_routine _ _ _ _ rfl rfl rfl (by decide +kernel)⟩
theorem test_watchdog_traps : (((did .watchdog barking).fibre? 1 0 0).map fun f => (f.tr.cause, f.tr.xpc)) = some (0x0E, 0x1080) := by decide +kernel
/-- Record 3 of the context has completed with success, in a session that is open; a batch waits for it. -/
def recorded : State :=
  let s := (wv fun x => { x with batches := x.batches.map fun b => { b with state := .wait (.record 3) } }).updCtx 1 fun c => { c with awaited := [3] }
  { s with mem := (s.mem.writeBytes (0x10000 + 192) (toBytes 4 3)).writeBytes (0x10000 + 192 + 0x3C) (toBytes 4 3),
           service := { s.service with sessions := [(0, ⟨false, 1, 0⟩)] } }
theorem test_record : ∃ x, recorded.ctx? 1 = some x ∧ x.awaited.contains 3 = true ∧ recordState recorded x 3 = some true
    ∧ (((did (.recordCompletion 1 3) recorded).weave? 1 0).map fun x => x.batches.map Batch.state) = some [.run] :=
  ⟨_, rfl, by decide +kernel, by decide +kernel, by decide +kernel⟩

/-! ### Weaves, helpers, recruiters -/

theorem test_demote : let s := wv fun x => { x with cur := none }
    ∃ b x, s.block? 1 = some b ∧ s.weave? 1 0 = some x ∧ x.active = true ∧ mayDemote s 1 0 b.ctx x = true :=
  ⟨_, _, rfl, rfl, rfl, by decide +kernel⟩
theorem test_promote : let s := wv fun x => { x with active := false }
    ∃ x, activeOn s 0 < 8 ∧ toPromote s 0 = some (1, 0, x) ∧ (((did (.weavePromote 0) s).weave? 1 0).map Weave.active) = some true :=
  ⟨_, by decide +kernel, rfl, by decide +kernel⟩
theorem test_helper_start : let s := woken (.start true) helping
    let s := s.updWeave 1 0 fun x => { x with batches := x.batches.map fun b => { b with state := .wait (.start true) } }
    ∃ b, s.block? 1 = some b ∧ (∃ w ∈ b.weaves, ∃ z ∈ w.2.batches, startsOf w.2 (poolKey 0 1) z = true) :=
  ⟨_, rfl, by decide +kernel⟩
theorem test_release : let s := wv (fun x => { x with fibres := x.fibres.map fun f => (f.1, { f.2 with cur := some (3, []) }) }) helping
    ∃ x, s.weave? 1 0 = some x ∧ releasable x ≠ [] ∧ (∀ e ∈ releasable x, e.2.cur.isSome = true)
      ∧ ((did (.releaseRequest 1 0) s).fibre? 1 0 0).map Fibre.release = some true :=
  ⟨_, rfl, by decide +kernel, by decide +kernel, by decide +kernel⟩
theorem test_recruiter : let s := fib fun f => { f with pool := some { aPool 5 5 0 with waiting := true } }
    ∃ f p, s.fibre? 1 0 0 = some f ∧ f.pool = some p ∧ p.waiting = true ∧ p.helpers = 0 ∧ mget f.binds p.dst = none
      ∧ (did (.recruiterResume 1 (poolKey 0 0)) s).reg? 1 0 0 p.dst = some (.live (ofNat64 p.left)) :=
  ⟨_, _, rfl, rfl, rfl, rfl, rfl, by decide +kernel⟩

/-! ### Caches -/

/-- The core waits for a line. -/
def missing (replied : Bool) (s : State := base false) : State := s.updCore 0 fun c => { c with misses := [⟨0x40002000, 1, 0, true, replied, 0, [], none⟩] }
theorem test_miss : ∃ m, ((missing false).core 0).miss? 0x40002000 = some m ∧ m.replied = false ∧ m.own = true
    ∧ (∀ x ∈ missesTo (missing false) 0 0x40002000, x.line ≠ 0x40002000 → x.replied = true) ∧ m.pkt = none :=
  ⟨_, rfl, rfl, rfl, by decide +kernel, rfl⟩
theorem test_reply : (∃ m, ((missing true).core 0).miss? 0x40002000 = some m ∧ m.replied = true) ∧ (missesTo (missing true) 0 0x40002000).length = 1
    ∧ ((did (.dataReply 0 0x40002000) (missing true)).core 0).l1 = [(0x40002000, .e)] :=
  ⟨⟨_, rfl, rfl⟩, by decide +kernel, by decide +kernel⟩
/-- The L1 of the core holds a modified line. -/
def dirty : State := (base false).updCore 0 fun c => { c with l1 := [(0x40002000, .m)] }
theorem test_probe : (0x40002000, LineSt.m) ∈ (dirty.core 0).l1 ∧ uncommitted dirty 0 0x40002000 = false ∧ boundOn dirty 0 0x40002000 = false
    ∧ ((did (.probe 0 0x40002000) dirty).core 0).l1 = [] := by decide +kernel
theorem test_write_back : 0x40002000 ∈ (did (.writeBack 0 0x40002000) dirty).homeDirty ∧ ((did (.writeBack 0 0x40002000) dirty).core 0).l1 = [] := by decide +kernel
theorem test_probe_miss : ∃ m, ((missing true).core 0).miss? 0x40002000 = some m ∧ m.replied = true := ⟨_, rfl, rfl⟩
theorem test_collapse : ∃ s : State, ∃ r ∈ s.replicas, r.2 = 0x40002000 := ⟨{ base false with replicas := [(3, 0x40002000)] }, _, List.mem_cons_self, rfl⟩
theorem test_push : boundOn bound 0 0x40002000 = true ∧ ∃ x f b, bound.weave? 1 0 = some x ∧ x.core = 0
    ∧ (did (.push 0 0x40002000) bound).fibre? 1 0 0 = some f ∧ mget f.binds 5 = some b ∧ b.pa < 0x40002000 + 256 ∧ 0x40002000 < b.pa + b.size
    ∧ (∀ y, bound.block? 1 = some y → ownLater y.sbuf 0 0 b = false) ∧ b.pending = some (b.extend (bound.phys b.pa b.size)) :=
  ⟨by decide +kernel, _, _, _, rfl, rfl, rfl, rfl, by decide +kernel, by decide +kernel, fun y h => by cases h; rfl, by decide +kernel⟩
theorem test_zone_review : let s := { base false with clock := 1200000, zones := [(3, { Zone.reset with deg := 2, wcoll := 4, whit := 3 })] }
    (s.zone 3).reviewed < s.window 3 ∧ ((did (.zoneReview 3) s).zone 3).deg = 1 := by decide +kernel
theorem test_repl : replOk 0x52 = true ∧ ((did (.replWrite 3 0x52) (base false)).zone 3).deg = 2 := by decide +kernel
theorem test_walk : let s := walkReads (base false) 1 (2 * 4096) fun s a => readMiss s 0 (lineOf a)
    let t := (walkFor s 1 (2 * 4096) .load).1
    ∃ e, ((base false).ctx? 1).isSome = true ∧ canonicalVA (2 * 4096) = true ∧ walkFor s 1 (2 * 4096) .load = (t, .ok e)
    ∧ (((did (.translationWalk 1 0 2) (base false)).die 0).tlb.map Tlb.pa) = [0x40000000] :=
  ⟨⟨1, 0, 2 ^ 30, 0x40000000, true, true, true, true⟩, by decide +kernel⟩

/-! ### Launches -/

/-- A kernel header at 0x8000 and a launch record at 0x9000, of n blocks of one fibre, are in memory; the record is in queue 0 (R32, R163, R165). -/
def submitted (n : Nat) : State :=
  let hdr : List Byte := [0xB7, 0x10, 8, 0, 0, 0, 1, 0, 0, 0, 0, 0, 2, 0, 0, 0] ++ List.replicate 48 0
  let lvl (e : Nat) (d : Byte) : List Byte := toBytes 4 e ++ [d] ++ List.replicate 11 0
  let rec_ : List Byte := toBytes 8 0x8000 ++ List.replicate 56 0 ++ lvl 1 0 ++ lvl n 0x11 ++ List.replicate 160 0
  let s := (base false).updCtx 1 fun c => { c with launches := [Launch.queued 1 0 0x9000], nextLid := 2 }
  { s with mem := (s.mem.writeBytes 0x40008000 hdr).writeBytes 0x40009000 rec_ }
theorem test_launch_ready : let l0 := Launch.queued 1 0 0x9000
    let q := readVA (submitted 3) 1 256 0x9000
    let t := q.1
    let d := q.2.getD []
    let r := (readyChecks t 1 (parseRecord l0 d)).1
    let m := (((did (.launchReady 1 0) (submitted 3)).launch? 1 1).getD l0)
    (((submitted 3).ctx? 1).bind fun x => x.head 0) = some l0 ∧ l0.state = .queued ∧ readVA (submitted 3) 1 256 l0.record.toNat = (t, some d)
      ∧ recordOkFields (parseRecord l0 d) d = true ∧ (parseRecord l0 d).depcount = 0 ∧ readyChecks t 1 (parseRecord l0 d) = (r, .ok m)
      ∧ (m.state, m.total, m.hdr.map fun h => (h.regs, h.fibres, h.entry)) = (.ready, 3, some (8, 1, 2)) := by
  decide +kernel
theorem test_launch_bad : let l0 := Launch.queued 1 0 0x8000
    let s := (submitted 3).updCtx 1 fun c => { c with launches := [l0] }
    let q := readVA s 1 256 0x8000
    let t := q.1
    let d := q.2.getD []
    ((s.ctx? 1).bind fun x => x.head 0) = some l0 ∧ readVA s 1 256 l0.record.toNat = (t, some d) ∧ recordOkFields (parseRecord l0 d) d = false := by
  decide +kernel
theorem test_launch_unreadable : let l0 := Launch.queued 1 0 0x80000000
    let s := (submitted 3).updCtx 1 fun c => { c with launches := [l0] }
    let t := (readVA s 1 256 0x80000000).1
    ((s.ctx? 1).bind fun x => x.head 0) = some l0 ∧ readVA s 1 256 l0.record.toNat = (t, none) := by decide +kernel
/-- The launch is ready, and its die places blocks. -/
def placing : State := { did (.launchReady 1 0) (submitted 3) with regions := [(0, { Region.reset with up := true })] }
theorem test_place : let l := (placing.launch? 1 1).getD lnch
    let h := l.hdr.getD Hdr.placed
    diePlaces placing 0 = true ∧ (placing.die 0).dcbusy = none ∧ readyLaunches placing = (1, l) :: []
    ∧ placing.launch? 1 l.lid = some l ∧ l.hdr = some h ∧ nextBlock placing 1 l = some 0 ∧ l.gangOf 0 = none ∧ savedOf placing 1 l.lid = []
    ∧ bestCore placing (openCores placing 1 l h 0 (avoided l 6 [0] 0) (dieCores 0)) = some 1 := by
  decide +kernel
/-- The ready launch is permitted on core 0 alone, where a block without a quantum left holds a local slot. -/
def crowded : State :=
  let s := placing.updCtx 1 fun c => { c with frames := 2, launches := c.launches.map fun l =>
    { l with masks := [(1, [1])], levels := l.levels.set 1 ⟨3, 1, 1, false, 1⟩, hdr := l.hdr.map fun h => { h with lstore := 4096 } } }
  { s.updBlock 1 fun b => { b with lid := 9, hdr := { b.hdr with lstore := 16 }, slots := [0] } with clock := 40000000 }
theorem test_preempt : let l := (crowded.launch? 1 1).getD lnch
    let b := (crowded.block? 1).getD (Block.start 1 1 0 0 0 0 Hdr.placed)
    readyLaunches crowded = (1, l) :: [] ∧ mayUse crowded 0 1 l = true ∧ diePlaces crowded 0 = true ∧ placeNextOf crowded 0 1 l = none ∧ crowded.blocks = [(1, b)]
    ∧ coreDie b.core = 0 ∧ gangIndices crowded b = [b.idx] ∧ mayPreempt crowded (l.flags.toNat % 4) b = true ∧ freeFrames crowded b.ctx ≠ [] := by
  decide +kernel
theorem test_preempt_any : let l := (crowded.launch? 1 1).getD lnch
    let b := (crowded.block? 1).getD (Block.start 1 1 0 0 0 0 Hdr.placed)
    (readyLaunches crowded).find? (fun e => mayUse crowded 0 e.1 e.2) = some (1, l)
      ∧ (∀ e ∈ crowded.blocks, coreDie e.2.core = 0 → e.2.saving.map Prod.snd ≠ some 1)
      ∧ ((1, b) ∈ crowded.blocks ∧ coreDie b.core = 0 ∧ (∀ x ∈ preemptSet crowded b, mayPreempt crowded (l.flags.toNat % 4) x.2 = true)
          ∧ (preemptSet crowded b).length ≤ (freeFrames crowded b.ctx).length)
      ∧ ((did (.preemption 0) crowded).block? 1).map Block.stop = some true := by decide +kernel
theorem test_complete : let s := launched.updCtx 1 fun c => { c with launches := [{ lnch with ended := 1 }] }
    ∃ l, s.launch? 1 1 = some l ∧ l.state = .ready ∧ l.ended + l.killed = l.total ∧ l.done = 0 := ⟨_, rfl, rfl, rfl, rfl⟩
theorem test_complete_done : let s := launched.updCtx 1 fun c => { c with launches := [{ lnch with killed := 1, done := 0x2000 }] }
    let t := (devTranslate s 1 0x2000 .store).1
    ∃ l, s.launch? 1 1 = some l ∧ l.state = .ready ∧ l.ended + l.killed = l.total ∧ l.done ≠ 0 ∧ l.done % 8 = 0
      ∧ devTranslate s 1 l.done .store = (t, .ok 0x40002000) ∧ (0x40002000 + 8 ≤ panelEnd ∧ ∀ p, t.frameAt p = none)
      ∧ (did (.launchCompletion 1 1) s).phys 0x40002000 8 = 0x100000003 :=
  ⟨_, rfl, rfl, rfl, by decide, by decide, by decide +kernel, ⟨by decide, fun _ => rfl⟩, by decide +kernel⟩
theorem test_relaunch (n : Nat) (h : n = 2 ∨ n = 3) : let s := launched (blk fun b => { b with relaunches := n })
    ∃ b l, s.block? 1 = some b ∧ s.launch? b.ctx b.lid = some l ∧ gangIndices s b = [b.idx] ∧ blockOf s b.ctx b.lid b.idx = some (1, b) ∧ s.frames = []
      ∧ ((b.wopen = true ∧ b.relaunches < 3) ↔ n = 2)
      ∧ ((did (.relaunchEvent ⟨1, 0⟩ 0x13 0 0) s).launch? 1 1).map (fun y => (y.again, y.killed)) = some (if n = 2 then [(0, 3, 1)] else [], if n = 2 then 0 else 1) := by
  rcases h with rfl | rfl <;> exact ⟨_, _, rfl, rfl, by decide +kernel, rfl, rfl, by decide +kernel, by decide +kernel⟩

/-! ### Saves and restores -/

/-- The controller of die 0 carries out a command. -/
def busy (n i a : Nat) (s : State) : State := s.updDie 0 fun d => { d with dcbusy := some (n, i, a) }
/-- The context has one frame, at 0x30000. -/
def framed (s : State := base false) : State := s.updCtx 1 fun c => { c with frames := 1 }
theorem test_save_begins : let s := busy 1 0 0x30000 framed
    ∃ b x, (s.die 0).dcbusy = some (1, coreIdx 0, 0x30000) ∧ frameClaimed s 0x30000 = false ∧ saveVictim s 0 = some (1, b) ∧ s.block? 1 = some b
      ∧ s.ctx? b.ctx = some x ∧ x.ownsFrame 0x30000 = true ∧ saveHeld s b = false :=
  ⟨_, _, rfl, by decide +kernel, rfl, rfl, rfl, by decide +kernel, by decide +kernel⟩
theorem test_save_nobody : let s := busy 1 5 0x30000 framed
    (s.die 0).dcbusy = some (1, coreIdx 5, 0x30000) ∧ frameClaimed s 0x30000 = false ∧ saveVictim s 5 = none := by decide +kernel
/-- The block has stopped, its save under way. -/
def stopping : State := blk (fun b => { b with stop := true, saving := some (0x30000, 0), stream := none, weaves := b.weaves.map fun w => (w.1, { w.2 with batches := w.2.batches.map fun z => { z with stopped := true } }) }) (busy 1 0 0x30000 framed)
theorem test_save_ends : ∃ b, (stopping.blocks.find? fun b => b.2.core = 0 && (b.2.saving.map Prod.fst) == some 0x30000) = some (1, b) ∧ stopping.block? 1 = some b
    ∧ b.saving = some (0x30000, 0) ∧ saveReady stopping 1 b = true :=
  ⟨_, rfl, rfl, rfl, by decide +kernel⟩
/-- The saved block is to come back. -/
def saved : State := busy 2 7 0x30000 (did (.save 0 0x30000) stopping)
theorem test_restore : let f := (mget saved.frames 0x30000).getD ⟨0, 0, false, false, [], none, 0, 0⟩
    let b := f.block.getD (Block.start 1 1 0 0 0 0 Hdr.placed)
    ∃ x, (saved.die 0).dcbusy = some (2, 7, 0x30000) ∧ mget saved.frames 0x30000 = some f ∧ f.saved = true ∧ f.block = some b
    ∧ saved.ctx? f.ctx = some x ∧ x.ownsFrame 0x30000 = true ∧ releaseDue saved 0 b = false ∧ f.touched = false ∧ 7 < 320
    ∧ mayRestore saved 0 b (320 * 0 + 7) = true ∧ ((did (.restore 0 7 0x30000) saved).block? 1).map Block.core = some 7 :=
  ⟨(saved.ctx? 1).getD (Ctx.start 0 0 0 0 0 0 0 0 [] 0 0), by decide +kernel⟩
theorem test_restore_never_saved : let s := busy 2 7 0x30000 framed
    (s.die 0).dcbusy = some (2, 7, 0x30000) ∧ mget s.frames 0x30000 = none ∧ (∃ x ∈ s.ctxs, x.2.ownsFrame 0x30000 = true) :=
  ⟨rfl, rfl, by decide +kernel⟩
theorem test_retire : let s := busy 3 0 0 (base false)
    let t := (busy 3 5 0 (base false)).updCore 5 fun c => { c with retired := true }
    ((s.die 0).dcbusy = some (3, coreIdx 0, 0) ∧ (s.core 0).retired = false)
      ∧ (t.die 0).dcbusy = some (3, coreIdx 5, 0) ∧ (t.core 5).retired = true ∧ (∀ b ∈ t.blocks, b.2.core ≠ 5) ∧ retiring t (coreDie 5) = none
      ∧ ((did (.retire 5) t).die 0).dcbusy = none := by decide +kernel
theorem test_return : let s := (busy 4 5 0 (base false)).updCore 5 fun c => { c with retired := true }
    (s.die 0).dcbusy = some (4, coreIdx 5, 0) ∧ ((did (.returnToService 5) s).core 5).retired = false := by decide +kernel

/-! ### Dies -/

theorem test_die_reset (n : Nat) (h : n = 0 ∨ n = 1 ∨ n = 2) : let s := (busy 8 0 0 State.reset).updDie 0 fun d => { d with drstate := n }
    (s.die 0).dcbusy = some (8, 0, 0) ∧ blocksOn s 0 = [] ∧ (((s.die 0).drstate ≠ 1 ∧ (s.die 0).drstate ≠ 2) ↔ n = 0)
      ∧ ((did (.dieReset 0) s).die 0).drstate = n + 1 := by
  rcases h with rfl | rfl | rfl <;> decide +kernel
theorem test_drain : let s := { (busy 8 0 0 (base false)).updDie 0 fun d => { d with drstate := 1, drtime := 2 } with time := 1200 }
    (s.die 0).drstate = 1 ∧ (s.die 0).drainAt + 600 * max 1 (s.die 0).drtime ≤ s.time
      ∧ (((did (.drainDeadline 0) s).die 0).drforced, (did (.drainDeadline 0) s).blocks) = (true, []) := by decide +kernel
-- nothing comes between the fence of a die and its re-homing (R404)
theorem test_rehome_first : dueFirst { (busy 8 0 0 State.reset).updDie 0 fun d => { d with drstate := 2 } with time := 600 } = some (.dieReset 0) := by
  decide +kernel
theorem test_die_return : let s := (busy 9 0 0 State.reset).updDie 0 fun d => { d with drstate := 3 }
    (s.die 0).dcbusy = some (9, 0, 0) ∧ (s.die 0).drstate = 3 := by decide +kernel
theorem test_slice : let s := busy 10 3 0 State.reset
    (s.die 0).dcbusy = some (10, 3, 0) ∧ (s.die 0).slret.getLsbD 3 = false ∧ (∃ m ∈ liveSlices (s.die 0) (decide (16 ≤ 3)), m ≠ 3 % 16)
      ∧ sliceOf ((did (.sliceRetire 0 3) s).die 0).homeB 3 = 0 := by decide +kernel
theorem test_invalidation : let s := (mapped (base false)).updDie 0 fun d => { d with invalBusy := true, inval := 0x0001000000022000 }
    (s.die 0).invalBusy = true ∧ fld (s.die 0).inval 48 16 = 1 ∧ fld (s.die 0).inval 12 36 = 0x22 ∧ (s.die 0).inval.getLsbD 0 = false
      ∧ ((did (.invalidation 0 1 0x22 false) s).core 0).utlb = [] := by decide +kernel
theorem test_register : (3 < 128 ∧ 0x30 % 8 = 0 ∧ 0x30 < winSize) ∧ dieReg (did (.registerWrite 3 0x30 0x12345) State.reset) 3 0x30 = 0x2345
    ∧ dieReg (did (.registerWrite 3 0x08 0x12345) State.reset) 3 0x08 = 0x12345 ∧ dieReg (did (.registerWrite 3 0x20 0x1000000012) State.reset) 3 0x20 = 0x12 := by
  decide +kernel

/-! ### Messages -/

/-- The fibre holds a message to core 2, for handler 1, that waits to be answered. -/
def posting (retry : Option Nat) : State :=
  wv (fun x => { x with batches := x.batches.map fun b => { b with state := .wait (.send [(0, 2)] none retry 1 0) } })
    (fib fun f => { f with asm := some [(0, 0x21001), (1, 7)] })
theorem test_message (again : Bool) : let s := { posting (if again then some 0 else none) with clock := 400 }
    let y : Sending := ⟨0, [(0, 2)], none, if again then some 0 else none, 1, 0⟩
    ∃ b x m, s.block? 1 = some b ∧ s.weave? 1 0 = some x ∧ sending x = some y
      ∧ msgOf s 1 0 0 2 (if again then s.time else y.sent) = some m ∧ coreDown s m.target = false ∧ (s.core m.target).inq.length < 64
      ∧ sendsBefore s m.src m.target y.stamp = false
      ∧ (again = false ∧ y.retry = none ∨ again = true ∧ ∃ t0, y.retry = some t0 ∧ cycles 64 ≤ s.ran (coreDie b.core) t0)
      ∧ ((did (if again then .messageRetry 1 0 else .messageArrival 1 0) s).core 2).inq.map Msg.words = [[0x21001, 7]] := by
  cases again
  · refine ⟨_, _, _, rfl, rfl, rfl, rfl, ?_, ?_, ?_, .inl ⟨rfl, rfl⟩, ?_⟩ <;> decide +kernel
  · refine ⟨_, _, _, rfl, rfl, rfl, rfl, ?_, ?_, ?_, .inr ⟨rfl, 0, rfl, by decide +kernel⟩, ?_⟩ <;> decide +kernel
/-- A message for handler 1 of the block's kernel. -/
def note : Msg := ⟨2, 9, 1, 0, 0, none, 0x1000, [0x1001, 7]⟩
/-- It waits at core 0. -/
def posted (entry : Nat) : State :=
  blk (fun b => { b with hdr := { b.hdr with handlers := [0, entry] } }) ((base false).updCore 0 fun c => { c with inq := [note] })
theorem test_handler : ∃ b ws wr, ((posted 1).core 0).inq = [note] ∧ msgTarget (posted 1) 0 note = some (1, b)
    ∧ (posted 1).block? 1 = some b ∧ nth b.hdr.handlers (fld (0x1001 : Word) 12 4) ≠ 0 ∧ b.saving = none ∧ handlersOn (posted 1) 0 < 8
    ∧ freeWslots (posted 1) 0 = ws :: wr ∧ hasRegs (posted 1) 1 0 (handlerRegs b.hdr note).length = true ∧ (((did (.handlerStart 0) (posted 1)).fibre? 1 32 0).bind fun f => mget f.regs 1) = some (.live 7) :=
  ⟨_, 1, _, rfl, rfl, rfl, by decide +kernel, rfl, by decide +kernel, rfl, by decide +kernel, by decide +kernel⟩
theorem test_handler_absent : ∃ b, ((posted 0).core 0).inq = [note] ∧ msgTarget (posted 0) 0 note = some (1, b)
    ∧ nth b.hdr.handlers (fld (([0x1001, 7] : List Word).headD 0) 12 4) = 0 := ⟨_, rfl, rfl, by decide +kernel⟩
theorem test_migration_arrival : let s := wv fun x => { x with batches := x.batches.map fun b => { b with state := .wait (.migrate 400) } }
    let s := { s with regions := [(0, { Region.reset with up := true })] }
    ∃ b, s.block? 1 = some b ∧ b.headed = some 400 ∧ releaseDue s (coreDie 400) b = false ∧ landingPlace s b 400 = some 400 ∧ ((did (.migrationArrival 1) s).block? 1).map (fun b => (b.core, b.landing)) = some (400, true) :=
  ⟨_, rfl, by decide +kernel, by decide +kernel, by decide +kernel, by decide +kernel⟩

/-! ### Trees -/

theorem test_tree_report : let s := member (blk fun b => { b with arr0 := true })
    treeHeld s false = true ∧ reportedHere s 0 false = false ∧ ((s.die 0).seg false).rounds = (s.root false).rounds ∧ dieArrived s false 0 = true
      ∧ ((did (.treeReport false 0) s).root false).seen = [0] := by decide +kernel
theorem test_absence : let s := member (blk fun b => { b with saving := some (0x30000, 0) })
    ∃ b, memberBlock s 1 = some b ∧ inTree s b true = true ∧ away s 1 = true ∧ (s.root true).absent.contains 1 = false :=
  ⟨_, rfl, by decide +kernel, by decide +kernel, by decide +kernel⟩
theorem test_presence : let s := { member (base false) with root0 := ⟨3, [], [1], 0⟩ }
    ∃ b, s.block? 1 = some b ∧ away s 1 = false ∧ (s.root false).absent.contains 1 = true := ⟨_, rfl, by decide +kernel, by decide +kernel⟩
theorem test_round : let s := { member (blk fun b => { b with arr0 := true }) with root0 := ⟨3, upto 128, [], 0⟩, dies := (upto 128).map fun d => (d, { Die.reset with seg0 := ⟨false, if d = 0 then 2 else 3⟩ }) }
    ((s.root false).seen.length = 128 ∧ (s.root false).absent = []) ∧ ((s.die 0).seg false).rounds < (s.root false).rounds ∧ releasedNearer s false 0 = true
      ∧ (∃ b, s.block? 1 = some b ∧ coreDie b.core = 0 ∧ inTree s b false = true)
      ∧ ((did (.treeRelease false 0) s).block? 1).map Block.arr0 = some false :=
  ⟨by decide +kernel, by decide +kernel, by decide +kernel, ⟨_, rfl, by decide +kernel, by decide +kernel⟩, by decide +kernel⟩

-- die 1 is nearer to the root than die 0, unless a region on its way is stretched (R426)
theorem test_round_stretched : let s := { base false with root0 := ⟨3, [], [], 0⟩ }
    crossings 1 60 < crossings 0 60 ∧ releasedNearer s false 0 = false ∧ stretchedTo s false 1 = false
      ∧ stretchedTo (s.updRegion 5 fun x => { x with stretch := true }) false 1 = true := by decide +kernel

/-! ### Scrub and power -/

theorem test_scrub : (0x40002000 < panelEnd ∧ 0x40002000 % 256 = 0) ∧ copied dirty 0x40002000 = true
    ∧ (did (.scrub 0x40002000 .uncorrectable) dirty).poison = [] ∧ ((did (.scrub 0x40002100 .corrected) dirty).chan 1).corr = 1 := by
  refine ⟨by decide, by decide +kernel, ?_, by decide +kernel⟩
  have h : copied dirty 0x40002000 = true := by decide +kernel
  show (match scrubLine dirty 0x40002000 .uncorrectable with | some s => s | none => dirty).poison = []
  simp only [scrubLine, failLine, h]
  rfl
theorem test_scrub_poisons : copied (base false) 0x40002000 = false ∧ (did (.scrub 0x40002000 .uncorrectable) (base false)).poison = [0x40002000] := by
  decide +kernel
theorem test_boundary : let s := { base false with time := 250 }
    s.steps < s.time / 120 ∧ (did .stepBoundary s).steps = 2 := by decide +kernel
theorem test_droop : let s := did (.droopAlarm 5) (base false)
    (5 < 16 ∧ 6 ∈ regionsBeside 5 ∧ (s.region 6).hold = true) ∧ (s.region 5).stretch = true ∧ (s.region 5).holdAt + 600 ≤ ({ s with time := 600 } : State).time
      ∧ ((did (.droopRecovery 5) { s with time := 600 }).region 5).stretch = false := by decide +kernel
theorem test_hold : let s := { wv (fun x => { x with batches := x.batches.map fun b => { b with state := .wait (.hold 2 [3] 0) } }) with time := 1200 }
    ∃ b x y, (1, b) ∈ s.blocks ∧ (0, x) ∈ b.weaves ∧ y ∈ x.batches ∧ y.state = .wait (.hold 2 [3] 0) ∧ 0 + 600 * (s.region 2).holdcap ≤ s.time
      ∧ (((did (.holdExpiry 2) s).weave? 1 0).map fun x => x.batches.map Batch.state) = some [.woke (.hold 2 [3] 0)] :=
  ⟨_, _, _, List.mem_cons_self, List.mem_cons_self, List.mem_cons_self, rfl, by decide +kernel, by decide +kernel⟩

/-! ### The service -/

/-- The panel is booted, region 0 is up with die 0 alone in service, session 2 is a client's and session 3 the management port's; sandbox 9 runs on a
hart of port die 1, its second stage mapping the first gigabyte to physical 0x40000000. -/
def served (s : State := base false) : State :=
  { s with regions := [(0, { Region.reset with up := true })]
           dies := [1, 8, 9, 16, 17, 24, 25].map fun d => (d, { Die.reset with drstate := 3 })
           mem := (s.mem.writeBytes 0x6000 (toBytes 8 (7 * 1024 + 1))).writeBytes 0x7000 (toBytes 8 (0x40000 * 1024 + 0xDF))
           service := { s.service with booted := true, mode := 1, regionsUp := 1, sessions := [(2, ⟨false, 1, 2⟩), (3, ⟨true, 1, 2⟩)], nextSession := 4
                                       sandboxes := [(9, ⟨1, [9], 0x6000, [0x40002000]⟩)] } }
/-- The context is session 2's. -/
def owned : State := served.updCtx 1 fun c => { c with session := 2 }
/-- A request on a session, with REQ 77 (R437). -/
def request (major minor : Byte) (session : Word) (b : List Byte) : UzMsg := ⟨⟨0x5A55, major, minor, 0, session, 77, BitVec.ofNat 32 b.length, 0⟩, b⟩
theorem request_content (j n : Byte) (x : Word) (b : List Byte) (h : b.length ≤ 8192) : content (request j n x b) = some b := by
  have : (request j n x b).h.len.toNat = b.length := by simp only [request, BitVec.toNat_ofNat]; omega
  show (if (request j n x b).h.len.toNat ≤ b.length then some (b.take (request j n x b).h.len.toNat) else none) = some b
  rw [this, if_pos (Nat.le_refl _), List.take_length]
theorem request_fits (j n : Byte) (x : Word) (b : List Byte) (mgmt : Bool) (h : b.length ≤ 8192) : hdrFits (request j n x b).h j.toNat n.toNat mgmt = true := by
  refine hdrFits_of _ _ _ _ (by simp [request]) ?_
  simp only [request, BitVec.toNat_ofNat, legalBody]
  split <;> omega
theorem client_says (s : State) (hs : s.service = owned.service) (hr : s.regions = owned.regions) (b : List Byte) (h : b.length ≤ 8192) :
    requestOk s (.port 1) (request 1 2 2 b) false b := by
  refine ⟨?_, rfl, ⟨⟨false, 1, 2⟩, by rw [hs]; rfl, rfl, request_fits _ _ _ _ _ h⟩, request_content _ _ _ _ h⟩
  simp only [heard, portUp, State.region, hs, hr]
  decide +kernel
theorem manager_says (b : List Byte) (h : b.length ≤ 8192) : requestOk owned .mgmt (request 1 2 3 b) true b :=
  ⟨rfl, rfl, ⟨_, rfl, rfl, request_fits _ _ _ _ _ h⟩, request_content _ _ _ _ h⟩
/-- A request of the client about its context. -/
def about (b : List Byte) : UzMsg := request 1 2 2 (toBytes 8 1 ++ b)
def ctx1 (s : State) : Ctx := (s.ctx? 1).getD (Ctx.start 0 0 0 0 0 0 0 0 [] 0 0)
theorem client_asks (b : List Byte) (h : b.length ≤ 8184) : requestIn owned (.port 1) (about b) 1 (ctx1 owned) b :=
  ⟨client_says owned rfl rfl _ (by simp only [List.length_append, toBytes, List.length_cons, List.length_nil]; omega), by decide, rfl, rfl⟩
-- versions (1, 0), (2, 3) and (1, 9): major 1, minor 2 (R438)
theorem test_session_open : let b : List Byte := [3, 0, 0, 0, 0, 0, 0, 0, 1, 0, 2, 3, 1, 9]
    heard served (.port 1) = true ∧ hdrFits (request 0 0 0 b).h 0 0 false = true ∧ content (request 0 0 0 b) = some b
      ∧ pairsOf b = some [(1, 0), (2, 3), (1, 9)] ∧ commonMinor [(1, 0), (2, 3), (1, 9)] = some 2 :=
  ⟨by decide +kernel, request_fits 0 0 0 _ false (by decide), request_content _ _ _ _ (by decide), by decide, by decide⟩
theorem test_session_close : mget (did (.sessionClose 2) served).service.sessions 2 = none := by decide +kernel
theorem test_reserved_type : requestOk owned (.port 1) (request 1 2 2 []) false [] ∧ (0x40 : BitVec 16).toNat < 0x8000 :=
  ⟨client_says owned rfl rfl _ (by decide), by decide⟩
theorem test_quote : requestOk owned .mgmt (request 1 2 3 (List.replicate 64 0 ++ [])) true (List.replicate 64 0 ++ []) ∧ (List.replicate 64 (0 : Byte)).length = 64 :=
  ⟨manager_says _ (by decide), List.length_replicate⟩
theorem test_fw : ∃ target version image sig, target ≤ 2 ∧ version < 2 ^ 32 ∧ image.length ≤ 67108864 ∧ sig.length = 4627 ∧ owned.service.rollback ≤ version
    ∧ requestOk owned .mgmt (request 1 2 3 (fwBytes target version image ++ sig ++ [])) true (fwBytes target version image ++ sig ++ []) :=
  ⟨1, 4, [1], List.replicate 4627 0, by decide, by decide, by decide, List.length_replicate, by decide,
    manager_says _ (by simp only [List.length_append, List.length_replicate, fwBytes, toBytes, List.length_cons, List.length_nil]; decide)⟩
theorem test_fw_bytes : fwBytes 1 4 [7, 8] = [1, 0, 0, 0, 4, 0, 0, 0, 2, 0, 0, 0, 0, 0, 0, 0, 7, 8] := by decide
theorem test_sandbox : let s := served.updCore (portCache 1) fun c => { c with l1 := [(0x40002100, .m)] }
    (mget s.service.sandboxes 9).isSome = true ∧ mget (did (.sandboxEnd 9) s).service.sandboxes 9 = none
      ∧ ((did (.sandboxEnd 9) s).core (portCache 1)).l1 = [(0x40002100, .e)] := by decide +kernel
theorem test_boot : State.reset.service.booted = false ∧ served.service.booted = true ∧ (did .boot State.reset).blocks = [] := by
  refine ⟨rfl, rfl, ?_⟩
  show (bootRom State.reset).blocks = []
  unfold bootRom
  split <;> rfl
theorem test_regions : let s := State.reset.updService fun v => { v with booted := true }
    (s.service.booted = true ∧ s.service.regionsUp = 0) ∧ (bringUp s 0).isSome = true ∧ bringUp s 1 = none := by decide +kernel
theorem test_full_service : let s := ({ State.reset with time := 120 } : State).updService fun v => { v with booted := true, mode := 1, regionsUp := 16 }
    s.service.mode = 1 ∧ s.service.regionsUp = 16 ∧ boundaryDue s = true ∧ (did .fullService s).service.mode = 2 := by decide +kernel
theorem test_harts : (7 < 256 ∧ portUp served (7 / 8) = true) ∧ plainRange served 0x40002000 4 ∧ hartAt served 7 true 0x40002000 4 = some 0x40002000
    ∧ served.poisoned 0x40002000 4 = false ∧ 0x40002000 % 4 = 0
    ∧ (did (.hartAccess 7 (.amo .add 0x40002000 4 5)) (stores served)).phys 0x40002000 4 = 0x03020185 :=
  ⟨by decide +kernel, ⟨by decide, fun _ => rfl⟩, by decide +kernel, by decide +kernel, by decide, by decide +kernel⟩
-- the guest's address 0x2000 lies at physical 0x40002000
theorem test_guest : portUp served (9 / 8) = true ∧ (sandboxAt served 9).isSome = true ∧ hartAt served 9 false 0x2000 4 = some 0x40002000
    ∧ hartAt served 9 true 0x2000 4 = some 0x40002000 ∧ (did (.hartAccess 9 (.store 0x2000 4 7)) served).phys 0x40002000 4 = 7
    ∧ (did (.hartAccess 9 (.load 0x40000000 4)) served).out = [.hartReply 9 none] := by decide +kernel

/-! ### Requests about a context -/

theorem gives_one (s : State) (ctx n k d : Nat) (h : ((inService s).filter fun d => (s.die d).drstate = 0) = [d]) :
    giveSomewhere s ctx n k = giveRange s.tick ctx d n k := by
  simp [giveSomewhere, choiceOf, h, Nat.mod_one]
def newTables : State := (giveRange (served.updService fun v => { v with tables := mdel v.tables 2 }).tick 2 0 zoneSize zoneSize).elim served
  fun r => r.1.updService fun v => { v with tables := mput v.tables 2 (r.2 + 4096) }
theorem new_tables : tablePage (served.updService fun v => { v with tables := mdel v.tables 2 }) 2 = some (newTables, 0x200000) := by
  unfold tablePage
  rw [gives_one _ _ _ _ 0 (by decide +kernel)]
  decide +kernel
def newRing : State := (giveRange newTables.tick 2 0 8192 zoneSize).elim served fun r => r.1
-- where the service places the ring is open, yet its pages find room (log 10)
theorem test_create : let b := toBytes 2 0 ++ toBytes 1 6 ++ toBytes 1 0 ++ toBytes 4 0 ++ toBytes 8 0 ++ [] ++ []
    requestOk owned (.port 1) (request 1 2 2 b) false b ∧ ctxBody 2 b = some ⟨2, 0, 6, 0, []⟩ := ⟨client_says owned rfl rfl _ (by decide), by decide⟩
theorem test_create_room : treeTaken served (BitVec.ofNat 16 0) = false ∧ freeCtx served (served.ctxs.length + 1) 1 = some 2
      ∧ ∃ t c, contextMemory served 2 ⟨2, 0, 6, 0, []⟩ = some (t, c) := by
  refine ⟨by decide +kernel, by decide +kernel, ?_⟩
  obtain ⟨t, h, -⟩ := mapPages_roomy 2 0x200000 1 true 2
    newRing.tick (ringPlace (Config.serviceVA newRing.fresh)) 0x400000 0 (by unfold roomy; decide +kernel)
  have g : giveRange newTables.tick 2 0 8192 zoneSize = some (newRing, 0x400000) := by decide +kernel
  suffices hh : (contextMemory served 2 ⟨2, 0, 6, 0, []⟩).isSome = true by
    obtain ⟨⟨t, c⟩, h⟩ := Option.isSome_iff_exists.mp hh
    exact ⟨t, c, h⟩
  unfold contextMemory
  rw [new_tables]
  dsimp only
  rw [gives_one newTables _ _ _ 0 (by decide +kernel)]
  rw [show (64 * 2 ^ (6 : Nat) + 4096 : Nat) = 8192 from rfl, g]
  show (Option.map _ (mapPages _ 2 0x200000 1 0 true 2 _ 0x400000)).isSome = true
  rw [Option.isSome_map]
  exact Option.isSome_iff_exists.mpr ⟨t, h⟩
theorem test_destroy : requestIn owned (.port 1) (about []) 1 (ctx1 owned) [] ∧ (removeContext owned 1).ctx? 1 = none := ⟨client_asks _ (by decide), by decide +kernel⟩
theorem test_module : let b := toBytes 8 0x2FFE ++ toBytes 8 3 ++ toBytes 4 0 ++ toBytes 4 0 ++ [1, 2, 3] ++ [] ++ []
    requestIn owned (.port 1) (about b) 1 (ctx1 owned) b ∧ rangePieces owned (ctx1 owned).root writablePte 0x2FFE 3 = some [(0x40002FFE, 2), (0x40003000, 1)]
      ∧ (ctx1 owned).flags.getLsbD 4 = false ∧ tagsOk owned 1 [(0x40002FFE, 2), (0x40003000, 1)] = true
      ∧ modBody 2 1 false b = some ⟨2, 1, 0x2FFE, 0, [1, 2, 3], []⟩ :=
  ⟨client_asks _ (by decide), by decide +kernel, by decide +kernel, by decide +kernel, by decide⟩
/-- The context's one page stands at 0x5000, in tables of four levels. -/
def paged : State :=
  let put (m : Memory) (a v : Nat) : Memory := m.writeBytes a (toBytes 8 v)
  { owned with mem := put (put (put (put [] 0x1000 (2 * 1024 + 1)) 0x2000 (3 * 1024 + 1)) 0x3000 (4 * 1024 + 1)) 0x4028 (0x40005 * 1024 + 0xDF) }
theorem test_map : let q : MapReq := ⟨2, 1, 0x5000, 0x1000, 2, 1, 0, 0xFFFF, 0⟩
    let b := toBytes 8 0x5000 ++ toBytes 8 0x1000 ++ [2, 1, 0, 0, 0xFF, 0xFF, 0, 0] ++ []
    let t := (changeMap paged 0x1000 q).getD paged
    requestIn paged (.port 1) (about b) 1 (ctx1 paged) b ∧ straddles paged (ctx1 paged).root q.va q.size = false
      ∧ changeMap paged (ctx1 paged).root q = some t ∧ mapOk paged q = true
      ∧ ¬q.home < 128 ∧ t.phys 0x4028 8 = 0x40005 * 1024 + 0xD3 ∧ mapBody 2 1 b = some q :=
  ⟨⟨client_says paged rfl rfl _ (by decide), by decide, rfl, rfl⟩, by decide +kernel, by decide +kernel, by decide +kernel, by decide, by decide +kernel,
    by decide⟩
theorem test_put : let b := toBytes 8 0x2000 ++ toBytes 8 2 ++ [7, 8] ++ []
    requestIn owned (.port 1) (about b) 1 (ctx1 owned) b ∧ rangePieces owned (ctx1 owned).root (fun _ => true) 0x2000 2 = some [(0x40002000, 2)]
      ∧ (putData owned 1 (ctx1 owned) 0x2000 [7, 8]).st.phys 0x40002000 2 = 0x0807 ∧ tagsOk owned 1 [(0x40002000, 2)] = true ∧ putBody b = some (0x2000, [7, 8]) :=
  ⟨client_asks _ (by decide), by decide +kernel, by decide +kernel, by decide +kernel, by decide⟩
theorem test_get : let b := toBytes 8 0x2000 ++ toBytes 8 2 ++ []
    requestIn owned (.port 1) (about b) 1 (ctx1 owned) b ∧ (getData (stores owned) (ctx1 owned) 0x2000 2).body = [0x80, 1]
      ∧ (∀ e ∈ [(0x40002000, 2)], decodedPA e.1 = true ∧ owned.poisoned e.1 e.2 = false) ∧ getBody b = some (0x2000, 2) :=
  ⟨client_asks _ (by decide), by decide +kernel, by decide +kernel, by decide⟩
theorem test_launch_request : let b := toBytes 8 0x9000 ++ toBytes 1 4 ++ toBytes 7 0 ++ []
    requestIn owned (.port 1) (about b) 1 (ctx1 owned) b ∧ ((ctx1 owned).launches.filter fun l => l.queue = 4 && l.state != .done).length < 64 ∧ launchBody b = some (0x9000, 4)
      ∧ ((submitRecord owned 1 0x9000 4).st.ctx? 1).map (fun c => c.launches.map Launch.queue) = some [4] :=
  ⟨client_asks _ (by decide), by decide +kernel, by decide, by decide +kernel⟩
-- port die 8 is in a region that is still down (R442)
theorem test_launch_down : owned.service.booted = true ∧ owned.service.mode ≠ 0 ∧ portUp owned (8 : BitVec 5).toNat = false := by decide +kernel
/-- The service has sent record 77 of the context to its session, which has still to answer. -/
def faulted : State := { owned.updCtx 1 fun c => { c with awaited := [77] } with mem := owned.mem.writeBytes (0x10000 + 64 * 13) (toBytes 4 77) }
theorem test_fault_reply : requestIn faulted (.port 1) (about (toBytes 4 1)) 1 (ctx1 faulted) (toBytes 4 1)
    ∧ (ctx1 faulted).awaited.contains (about (toBytes 4 1)).h.req.toNat = true ∧ faulted.phys ((ctx1 faulted).recAddr 77) 4 = 77
    ∧ plainRange faulted ((ctx1 faulted).recAddr 77) 64 ∧ resultBody (toBytes 8 1 ++ toBytes 4 1) = some (1, true)
    ∧ (completeFault faulted 2 1 77 true).phys (0x10000 + 64 * 13 + 0x3C) 4 = 0x8000004D :=
  ⟨⟨client_says faulted rfl rfl (toBytes 8 1 ++ toBytes 4 1) (by decide), by decide, rfl, rfl⟩, by decide +kernel, by decide +kernel, ⟨by decide +kernel, fun _ => rfl⟩, by decide,
    by decide +kernel⟩
theorem test_rma : ∃ c, owned.ctx? 1 = some c ∧ rangePieces owned c.root presentPte 0x2000 2 = some [(0x40002000, 2)]
    ∧ (did (.rmaWriteReceive 1 0x2000 [7, 8]) owned).phys 0x40002000 2 = 0x0807 := ⟨_, rfl, by decide +kernel, by decide +kernel⟩

/-! ### Reset and memory -/

theorem test_canonical : MemoryCanonical memS ∧ ¬MemoryCanonical { memS with mem := [(1, 0)] } := by unfold MemoryCanonical; decide +kernel

end Sys2Proof.Tests
end

section
/-! PROOFS. What a `sysw` of a special register leaves to be read on the fibre side (O43): what each register reads where its holder stands, then what
a write of each register leaves. -/
namespace Sys2Proof.Machine

/-! ### Bits of a written word -/

/-- Where a 1 is written to a sticky bit, it falls (R5). -/
theorem setWidth_and_not_setWidth (x : BitVec 5) (v : Word) : (x &&& ~~~(v.setWidth 5)).setWidth 64 = x.setWidth 64 &&& ~~~v := by
  ext i hi
  by_cases h : i < 5
  · simp [BitVec.getLsbD_eq_getElem, h, hi]
  · simp [BitVec.getLsbD_of_ge x i (by omega)]

theorem ofNat64_bit_getLsbD_zero (v : Word) : ofNat64 (bit (v.getLsbD 0)) = v &&& 1 := by
  rw [show (1 : Word) = 1#64 from rfl, BitVec.and_one_eq_setWidth_ofBool_getLsbD]
  cases v.getLsbD 0 <;> rfl

/-- DR is bit 0 of sr.deadrd (R39). -/
theorem Weave.deadWord_getLsbD_zero (x : Weave) : x.deadWord.getLsbD 0 = x.deadDR := by
  have low : (at_ 8 x.deadSlot + at_ 1 x.deadReg + bit x.deadDR) % 2 = bit x.deadDR := by
    cases x.deadDR <;> simp only [at_, bit, if_true, Bool.false_eq_true, if_false] <;> omega
  rw [Weave.deadWord, ofNat64, BitVec.getLsbD_ofNat, Nat.testBit_zero, low]
  cases x.deadDR <;> rfl

section
variable {s : State} {u w sl : Nat} {b : Block} {x : Weave} {f : Fibre}

/-! ### The block and the weave of an update -/

theorem State.block?_updBlock_of_some (h : s.block? u = some b) (g : Block → Block) : (s.updBlock u g).block? u = some (g b) := by
  rw [State.block?_updBlock_self, h, Option.map_some]
theorem State.weave?_updWeave_of_some (h : s.weave? u w = some x) (g : Weave → Weave) : (s.updWeave u w g).weave? u w = some (g x) := by
  rw [State.weave?_updWeave_self, h, Option.map_some]

/-! ### What a register reads -/

theorem sysValue_fpflags (h : s.weave? u w = some x) (i : Nat) : sysValue s (.fib u w sl) .fpflags i = x.fpflags.setWidth 64 := by
  simp [sysValue, h]
theorem sysValue_deadrd (h : s.weave? u w = some x) (i : Nat) : sysValue s (.fib u w sl) .deadrd i = x.deadWord := by
  simp [sysValue, h]
theorem sysValue_deadpc (h : s.weave? u w = some x) (i : Nat) : sysValue s (.fib u w sl) .deadpc i = x.deadPc := by
  simp [sysValue, h]
theorem sysValue_dbg (h : s.weave? u w = some x) (i : Nat) : sysValue s (.fib u w sl) .dbg i = ofNat64 (bit x.ss) := by
  simp [sysValue, h]
theorem sysValue_bkp (h : s.block? u = some b) (n i : Nat) : sysValue s (.fib u w sl) (.bkp n) i = (mget b.bkp n).getD 0 := by
  simp [sysValue, Actor.uid, h]
theorem sysValue_fartgt_of_block (h : s.weave? u w = some x) (hf : mget x.fibres sl = some f) (hk : f.kind = .block) (i : Nat) :
    sysValue s (.fib u w sl) .fartgt i = x.fartgt.setWidth 64 := by
  simp [sysValue, fartgtOf, State.fibre?, h, hf, hk]
theorem trapRegs_of_fibre (h : s.fibre? u w sl = some f) : s.trapRegs (.fib u w sl) = f.tr := by
  simp [State.trapRegs, h]

/-! ### Registers of the weave -/

theorem sysPut_fpflags (h : s.weave? u w = some x) (v : Word) :
    ∃ t, sysPut s (.fib u w sl) .fpflags v = some t ∧
      sysValue t (.fib u w sl) .fpflags 0 = sysValue s (.fib u w sl) .fpflags 0 &&& ~~~v := by
  refine ⟨_, rfl, ?_⟩
  rw [sysValue_fpflags h, sysValue_fpflags (State.weave?_updWeave_of_some h _)]
  exact setWidth_and_not_setWidth x.fpflags v

theorem sysPut_deadrd (h : s.weave? u w = some x) (v : Word) :
    ∃ t, sysPut s (.fib u w sl) .deadrd v = some t ∧
      (sysValue t (.fib u w sl) .deadrd 0).getLsbD 0 = (x.deadDR && !v.getLsbD 0) ∧
      sysValue t (.fib u w sl) .deadpc 0 = sysValue s (.fib u w sl) .deadpc 0 := by
  refine ⟨_, rfl, ?_, ?_⟩
  · rw [sysValue_deadrd (State.weave?_updWeave_of_some h _), Weave.deadWord_getLsbD_zero]
  · rw [sysValue_deadpc (State.weave?_updWeave_of_some h _), sysValue_deadpc h]

theorem sysPut_dbg (h : s.weave? u w = some x) (v : Word) :
    ∃ t, sysPut s (.fib u w sl) .dbg v = some t ∧ sysValue t (.fib u w sl) .dbg 0 = v &&& 1 := by
  refine ⟨_, rfl, ?_⟩
  rw [sysValue_dbg (State.weave?_updWeave_of_some h _)]
  exact ofNat64_bit_getLsbD_zero v

/-- A block fibre reads sr.fartgt of its own weave, where the write goes (R291, R293). -/
theorem sysPut_fartgt (h : s.weave? u w = some x) (hf : s.fibre? u w sl = some f) (hk : f.kind = .block) (v : Word) :
    ∃ t, sysPut s (.fib u w sl) .fartgt v = some t ∧ sysValue t (.fib u w sl) .fartgt 0 = (v.setWidth 33).setWidth 64 := by
  have hsl : mget x.fibres sl = some f := by simpa [State.fibre?, h] using hf
  refine ⟨_, rfl, ?_⟩
  rw [sysValue_fartgt_of_block (State.weave?_updWeave_of_some h _) hsl hk]

/-! ### Registers of the fibre -/

/-- Inside a trap sr.xpc takes the data, and the rest of the record stays (R353). -/
theorem sysPut_xpc (hf : s.fibre? u w sl = some f) (ht : f.tr.inTrap = true) (v : Word) :
    ∃ t, sysPut s (.fib u w sl) .xpc v = some t ∧
      t.trapRegs (.fib u w sl) = { f.tr with xpc := v, stepv := false, step := 0, entry := false } := by
  simp [sysPut, State.updTrap, State.updFib, State.trapRegs, hf, ht]

/-- Outside a trap a write of sr.xpc traps (R353). -/
theorem sysPut_xpc_outside (hf : s.fibre? u w sl = some f) (ht : f.tr.inTrap = false) (v : Word) : sysPut s (.fib u w sl) .xpc v = none := by
  simp [sysPut, trapRegs_of_fibre hf, ht]

theorem sysPut_bstat (hf : s.fibre? u w sl = some f) (v : Word) :
    ∃ t, sysPut s (.fib u w sl) .bstat v = some t ∧
      t.fibre? u w sl = some { f with bfull := f.bfull && !v.getLsbD 37, blost := f.blost && !v.getLsbD 36 } := by
  refine ⟨_, rfl, ?_⟩
  rw [State.updFib, State.fibre?_updFibre_self, hf, Option.map_some]

/-! ### Registers of the block -/

/-- A breakpoint register takes the data in its writable bits, and every other one stays (R355). -/
theorem sysPut_bkp (hb : s.block? u = some b) (n : Nat) (v : Word) :
    ∃ t, sysPut s (.fib u w sl) (.bkp n) v = some t ∧ sysValue t (.fib u w sl) (.bkp n) 0 = v &&& bkpMask ∧
      ∀ m, m ≠ n → sysValue t (.fib u w sl) (.bkp m) 0 = sysValue s (.fib u w sl) (.bkp m) 0 := by
  refine ⟨_, rfl, ?_, fun m hm => ?_⟩
  · rw [Actor.uid, sysValue_bkp (State.block?_updBlock_of_some hb _), mget_mput_self, Option.getD_some]
  · rw [Actor.uid, sysValue_bkp (State.block?_updBlock_of_some hb _), sysValue_bkp hb, mget_mput_ne _ _ hm]

theorem sysPut_gstat (hb : s.block? u = some b) (v : Word) :
    ∃ t, sysPut s (.fib u w sl) .gstat v = some t ∧
      t.block? u = some { b with gErr := b.gErr && !v.getLsbD 39, gExtra := b.gExtra && !v.getLsbD 0 } :=
  ⟨_, rfl, State.block?_updBlock_of_some hb _⟩

theorem sysPut_mstat (hb : s.block? u = some b) (v : Word) :
    ∃ t, sysPut s (.fib u w sl) .mstat v = some t ∧
      t.block? u = some { b with mRetry := if fld v 24 8 = 0 then b.mRetry else 0, mInf := b.mInf && !v.getLsbD 1, mNan := b.mNan && !v.getLsbD 0 } :=
  ⟨_, rfl, State.block?_updBlock_of_some hb _⟩

theorem sysPut_sbstat (hb : s.block? u = some b) (v : Word) :
    ∃ t, sysPut s (.fib u w sl) .sbstat v = some t ∧ t.block? u = some { b with cretry := if fld v 32 8 = 0 then b.cretry else 0 } :=
  ⟨_, rfl, State.block?_updBlock_of_some hb _⟩

theorem sysPut_msgstat (hb : s.block? u = some b) (v : Word) :
    ∃ t, sysPut s (.fib u w sl) .msgstat v = some t ∧
      t.block? u = some { b with notgt := if fld v 32 16 = 0 then b.notgt else 0, refused := if fld v 16 16 = 0 then b.refused else 0,
                                 handled := if fld v 0 16 = 0 then b.handled else 0 } :=
  ⟨_, rfl, State.block?_updBlock_of_some hb _⟩

end

/-- Settles O43, from what a write of each register leaves. -/
theorem sysWriteRule : Obligations.SysWriteRule := by
  intro s u w sl v b x f hb hx hf a put get
  have weaken {r : SysReg} {p q : State → Prop} (h : ∃ t, sysPut s a r v = some t ∧ p t) (imp : ∀ t, p t → q t) : put r q :=
    h.imp fun t ht => ⟨ht.1, imp t ht.2⟩
  refine ⟨fun hk => sysPut_fartgt hx hf hk v, fun ht => weaken (sysPut_xpc hf ht v) fun t h => ?_, fun ht => sysPut_xpc_outside hf ht v,
    fun n => sysPut_bkp hb n v, sysPut_dbg hx v, sysPut_fpflags hx v, sysPut_deadrd hx v, weaken (sysPut_bstat hf v) fun t h => ?_,
    weaken (sysPut_gstat hb v) fun t h => ?_, weaken (sysPut_mstat hb v) fun t h => ?_, weaken (sysPut_sbstat hb v) fun t h => ?_,
    weaken (sysPut_msgstat hb v) fun t h => ?_⟩
  · simp [get, sysValue, h, trapRegs_of_fibre hf, a]
  all_goals simp [h]

end Sys2Proof.Machine
end

section
/-! SUPPORT. O60: every step keeps memory canonical (the form: log 2; R16, R17, R280).

The bytes of memory change in three places: `rawWrite` stores a run of bytes, `zeroRange` removes a range, and a reset
of the panel forgets them all. Everything else reaches memory through these, or leaves it alone. So each operation of
the model has one lemma here, in the order of the model's files: `f_mem` says that `f` leaves memory as it is, `f_wf`
that `f` keeps it canonical; the proofs cite the lemmas of the operations that `f` is made of. `exec_wf` joins them by
a case split over the instructions and `step_wf` over what is due in a step. -/
namespace Sys2Proof.Machine
variable {s t : State}

/-! ### Where memory stays the same, and folds over operations that keep it -/

/-- A state whose memory another one shares is canonical with it. -/
theorem wf_of_mem (e : t.mem = s.mem) (h : s.mem.wf = true) : t.mem.wf = true := e ▸ h

/-- An operation done for each member of a list keeps memory canonical when one of them does. -/
theorem foldl_wf {α : Type} {f : State → α → State} {l : List α} {s : State} (hs : s.mem.wf = true)
    (h : ∀ t a, t.mem.wf = true → (f t a).mem.wf = true) : (l.foldl f s).mem.wf = true :=
  List.foldlRecOn l f hs fun t ht a _ => h t a ht

theorem foldl_fst_wf {α β : Type} {f : State × β → α → State × β} {l : List α} {s : State × β}
    (hs : s.1.mem.wf = true) (h : ∀ t a, t.1.mem.wf = true → (f t a).1.mem.wf = true) :
    (l.foldl f s).1.mem.wf = true :=
  List.foldlRecOn (motive := fun x => x.1.mem.wf = true) l f hs fun t ht a _ => h t a ht

theorem foldl_st_wf {α : Type} {f : Done → α → Done} {l : List α} {s : Done} (hs : s.st.mem.wf = true)
    (h : ∀ t a, t.st.mem.wf = true → (f t a).st.mem.wf = true) : (l.foldl f s).st.mem.wf = true :=
  List.foldlRecOn (motive := fun x => x.st.mem.wf = true) l f hs fun t ht a _ => h t a ht

theorem foldl_acc_wf {α : Type} {f : MAcc → α → MAcc} {l : List α} {s : MAcc} (hs : s.st.mem.wf = true)
    (h : ∀ t a, t.st.mem.wf = true → (f t a).st.mem.wf = true) : (l.foldl f s).st.mem.wf = true :=
  List.foldlRecOn (motive := fun x => x.st.mem.wf = true) l f hs fun t ht a _ => h t a ht

theorem foldl_pacc_wf {α : Type} {f : PAcc → α → PAcc} {l : List α} {s : PAcc}
    (hs : s.acc.st.mem.wf = true) (h : ∀ t a, t.acc.st.mem.wf = true → (f t a).acc.st.mem.wf = true) :
    (l.foldl f s).acc.st.mem.wf = true :=
  List.foldlRecOn (motive := fun x => x.acc.st.mem.wf = true) l f hs fun t ht a _ => h t a ht

theorem foldl_mem {α : Type} {f : State → α → State} {l : List α} {s : State}
    (h : ∀ t a, (f t a).mem = t.mem) : (l.foldl f s).mem = s.mem :=
  List.foldlRecOn (motive := fun x => x.mem = s.mem) l f rfl fun t ht a _ => (h t a).trans ht

theorem foldl_fst_mem {α β : Type} {f : State × β → α → State × β} {l : List α} {s : State × β}
    (h : ∀ t a, (f t a).1.mem = t.1.mem) : (l.foldl f s).1.mem = s.1.mem :=
  List.foldlRecOn (motive := fun x => x.1.mem = s.1.mem) l f rfl fun t ht a _ => (h t a).trans ht

/-! ### Caches, stores and translation: every byte is written by `rawWrite` -/

@[simp] theorem homeTouch_mem {line} : (homeTouch s line).mem = s.mem := ((cacheOnly.rfl' s).homeTouch _).mem

@[simp] theorem toHome_mem {line} : (toHome s line).mem = s.mem := ((cacheOnly.rfl' s).toHome _).mem

@[simp] theorem probeIf_mem {line p} : (probeIf s line p).mem = s.mem := ((cacheOnly.rfl' s).probeIf _ _).mem

@[simp] theorem giveUp_mem {line} : (giveUp s line).mem = s.mem := ((cacheOnly.rfl' s).giveUp _).mem

@[simp] theorem setL1_mem {c f} : (setL1 s c f).mem = s.mem := ((cacheOnly.rfl' s).setL1 _ _).mem

@[simp] theorem lendWays_mem {c} : (lendWays s c).mem = s.mem := setL1_mem

@[simp] theorem readMiss_mem {r line} : (readMiss s r line).mem = s.mem := ((cacheOnly.rfl' s).readMiss _ _).mem

@[simp] theorem addMiss_mem {uid c line own} : (addMiss s uid c line own).mem = s.mem := rfl

@[simp] theorem deliverReply_mem {c line} : (deliverReply s c line).mem = s.mem :=
  ((cacheOnly.rfl' s).deliverReply _ _).mem

@[simp] theorem deliverThrough_mem {c line} : (deliverThrough s c line).mem = s.mem :=
  ((cacheOnly.rfl' s).deliverThrough _ _).mem

@[simp] theorem readTouch_mem {c pa} : (readTouch s c pa).mem = s.mem := ((cacheOnly.rfl' s).readTouch _ _).mem

@[simp] theorem collapseLine_mem {line keep} : (collapseLine s line keep).mem = s.mem :=
  ((cacheOnly.rfl' s).collapseLine _ _).mem

@[simp] theorem serveOwn_mem {c line} : (serveOwn s c line).mem = s.mem := ((cacheOnly.rfl' s).serveOwn _ _).mem

@[simp] theorem ownTouch_mem {c pa} : (ownTouch s c pa).mem = s.mem := ((cacheOnly.rfl' s).ownTouch _ _).mem

@[simp] theorem push_mem {pa n} : (push s pa n).mem = s.mem := rfl

@[simp] theorem poisonLine_mem {line} : (poisonLine s line).mem = s.mem := rfl

/-- A run of bytes is stored by `writeBytes` or refused; a port window takes no byte of memory. -/
theorem rawWrite_wf {pa data} (h : s.mem.wf = true) : (rawWrite s pa data).mem.wf = true := by
  unfold rawWrite
  split
  · split
    · exact foldl_wf h fun _ _ ht => ht
    · exact h
  · split
    · exact h
    · split
      · exact h
      · exact Memory.wf_writeBytes _ _ h

@[simp] theorem clearPoison_mem {pa n} : (clearPoison s pa n).mem = s.mem := rfl

theorem homeWrite_wf {c pa data} (h : s.mem.wf = true) : (homeWrite s c pa data).mem.wf = true :=
  wf_of_mem push_mem (wf_of_mem clearPoison_mem (rawWrite_wf (wf_of_mem ownTouch_mem h)))

theorem devWrite_wf {pa data} (h : s.mem.wf = true) : (devWrite s pa data).mem.wf = true := homeWrite_wf h

@[simp] theorem sendUz_mem {session type status req body} :
    (sendUz s session type status req body).mem = s.mem := rfl

theorem writeRecord_wf {ctx r await} (h : s.mem.wf = true) : (writeRecord s ctx r await).1.mem.wf = true := by
  unfold writeRecord
  grind [devWrite_wf, State.updCtx_mem, State.post_mem, sendUz_mem, foldl_wf]

theorem latePacket_wf {x} (h : s.mem.wf = true) : (latePacket s x).mem.wf = true := by
  unfold latePacket
  split
  · exact h
  · grind [writeRecord_wf, State.updCtx_mem, State.tick_mem]

theorem latePackets_wf {p n} (h : s.mem.wf = true) : (latePackets s p n).mem.wf = true := by
  induction n generalizing s with
  | zero => exact h
  | succ n ih =>
    unfold latePackets
    cases p with
    | none => exact h
    | some x => exact ih (latePacket_wf h)

theorem countLates_wf (h : s.mem.wf = true) : (countLates s).mem.wf = true :=
  foldl_wf h fun _ _ w => latePacket_wf w

theorem lateDelivery_wf {uid core n} (h : s.mem.wf = true) : (lateDelivery s uid core n).mem.wf = true :=
  latePackets_wf h

theorem serveMiss_wf {c line} (h : s.mem.wf = true) : (serveMiss s c line).mem.wf = true := by
  unfold serveMiss
  split
  · exact h
  · split
    · exact h
    · split
      · exact wf_of_mem (State.updCore_mem _ _ _) (wf_of_mem serveOwn_mem (latePackets_wf h))
      · exact wf_of_mem (State.updCore_mem _ _ _) (wf_of_mem readMiss_mem (latePackets_wf h))

theorem serveThrough_wf {c line} (h : s.mem.wf = true) : (serveThrough s c line).mem.wf = true :=
  foldl_wf h fun _ _ w => serveMiss_wf w

theorem ahead_wf {c line dest} (h : s.mem.wf = true) : (ahead s c line dest).mem.wf = true :=
  foldl_wf h fun _ _ w => wf_of_mem deliverReply_mem (serveMiss_wf w)

@[simp] theorem deliverOps_mem {op} : (deliverOps s op).mem = s.mem :=
  foldl_mem fun _ _ => foldl_mem fun _ _ => deliverThrough_mem

theorem loadTouch_wf {uid c pa op} (h : s.mem.wf = true) : (loadTouch s uid c pa op).mem.wf = true := by
  unfold loadTouch
  dsimp only
  split
  · exact wf_of_mem readTouch_mem h
  · split
    · exact wf_of_mem (State.updCore_mem _ _ _) (serveThrough_wf h)
    · exact wf_of_mem (State.updCore_mem _ _ _) (serveThrough_wf (wf_of_mem addMiss_mem h))

theorem readBy_wf {uid c pa} (h : s.mem.wf = true) : (readBy s uid c pa).mem.wf = true := by
  unfold readBy
  split
  · exact wf_of_mem readTouch_mem h
  · exact lateDelivery_wf (wf_of_mem readTouch_mem (ahead_wf h))

@[simp] theorem bindTouch_mem {pa} : (bindTouch s pa).mem = s.mem := ((cacheOnly.rfl' s).bindTouch _).mem

theorem readThrough_wf {uid c pa} (h : s.mem.wf = true) : (readThrough s uid c pa).mem.wf = true := by
  unfold readThrough
  split
  · exact h
  · exact wf_of_mem readMiss_mem (lateDelivery_wf h)

theorem coreRead_wf {uid c pa} (h : s.mem.wf = true) : (coreRead s uid c pa).mem.wf = true := by
  unfold coreRead
  split
  · exact h
  · exact readThrough_wf (ahead_wf h)

theorem homeRead_wf {uid c pa} (h : s.mem.wf = true) : (homeRead s uid c pa).mem.wf = true := by
  unfold homeRead
  split
  · exact h
  · exact wf_of_mem giveUp_mem (wf_of_mem homeTouch_mem (lateDelivery_wf (ahead_wf h)))

theorem storeAhead_wf {l1 c pa} (h : s.mem.wf = true) : (storeAhead s l1 c pa).mem.wf = true := by
  unfold storeAhead
  split
  · split
    · exact h
    · exact ahead_wf h
  · split
    · exact h
    · exact ahead_wf h

@[simp] theorem refuseWrite_mem {uid c ctx pa seq} : (refuseWrite s uid c ctx pa seq).mem = s.mem := rfl

theorem blockWrite_wf {uid c l1 pa seq data} (h : s.mem.wf = true) :
    (blockWrite s uid c l1 pa seq data).mem.wf = true := by
  unfold blockWrite
  split
  · exact h
  · dsimp only
    split
    · exact homeWrite_wf (lateDelivery_wf (storeAhead_wf h))
    · exact wf_of_mem refuseWrite_mem (lateDelivery_wf (storeAhead_wf h))

@[simp] theorem State.setBuf_mem {q l} : (s.setBuf q l).mem = s.mem := by
  unfold State.setBuf
  split <;> rfl

theorem lineWrite_wf {uid c l line} (h : s.mem.wf = true) : (lineWrite s uid c l line).mem.wf = true := by
  unfold lineWrite
  grind [storeAhead_wf, ownTouch_mem, lateDelivery_wf, clearPoison_mem, rawWrite_wf, push_mem, foldl_wf]

theorem drain_wf {uid c l} (h : s.mem.wf = true) : (drain s uid c l).mem.wf = true := by
  unfold drain
  split
  · exact h
  · exact foldl_wf (foldl_wf h fun _ _ w => wf_of_mem refuseWrite_mem w) fun _ _ w => lineWrite_wf w

theorem commitBuf_wf {q} (h : s.mem.wf = true) : (commitBuf s q).mem.wf = true :=
  wf_of_mem (State.updBlock_mem _ _ _) (drain_wf (wf_of_mem State.setBuf_mem h))

theorem forcedCommit_wf {q} (h : s.mem.wf = true) : (forcedCommit s q).mem.wf = true := commitBuf_wf h

theorem bufStore_wf {q pa data who helper} (h : s.mem.wf = true) :
    (bufStore s q pa data who helper).mem.wf = true := by
  unfold bufStore
  grind [forcedCommit_wf, State.updFibre_mem, State.updBlock_mem, State.setBuf_mem, commitBuf_wf, setL1_mem]

theorem commitSome_wf {q sel left} (h : s.mem.wf = true) : (commitSome s q sel left).mem.wf = true :=
  drain_wf (wf_of_mem State.setBuf_mem h)

theorem flushWord_wf {q pa n} (h : s.mem.wf = true) : (flushWord s q pa n).mem.wf = true := commitSome_wf h

theorem walkReads_wf {ctx va} {touch : State → Nat → State} (h : s.mem.wf = true)
    (ht : ∀ t a, t.mem.wf = true → (touch t a).mem.wf = true) : (walkReads s ctx va touch).mem.wf = true := by
  unfold walkReads
  split
  · exact h
  · refine foldl_wf h fun t a w => ?_
    split
    · exact w
    · exact ht t a w

/-- The reads of a walk that a core asks for. -/
theorem walkReads_readThrough_wf {uid c ctx va} (h : s.mem.wf = true) :
    (walkReads s ctx va fun s a => readThrough s uid c a).mem.wf = true :=
  walkReads_wf h fun _ _ w => readThrough_wf w

theorem walkFor_wf {ctx va k} (h : s.mem.wf = true) : (walkFor s ctx va k).1.mem.wf = true := by
  unfold walkFor
  grind [devWrite_wf]

theorem walkMiss_wf {uid c ctx va k} (h : s.mem.wf = true) : (walkMiss s uid c ctx va k).1.mem.wf = true := by
  unfold walkMiss
  have reads := walkReads_readThrough_wf (uid := uid) (c := c) (ctx := ctx) (va := va) h
  grind [walkFor_wf, State.updDie_mem]

theorem translate_wf {uid c ctx addr k} (h : s.mem.wf = true) :
    (translate s uid c ctx addr k).1.mem.wf = true := by
  unfold translate
  grind [State.updCore_mem, walkMiss_wf]

theorem translateHint_wf {uid c ctx addr} (h : s.mem.wf = true) :
    (translateHint s uid c ctx addr).1.mem.wf = true := by
  unfold translateHint
  have reads := walkReads_readThrough_wf (uid := uid) (c := c) (ctx := ctx) (va := addr.toNat) h
  grind [translate_wf]

theorem devTranslate_wf {ctx va k} (h : s.mem.wf = true) : (devTranslate s ctx va k).1.mem.wf = true := by
  unfold devTranslate
  grind [walkFor_wf]

theorem readPages_wf {ctx k n va} (h : s.mem.wf = true) : (readPages s ctx k n va).1.mem.wf = true := by
  induction k generalizing s n va with
  | zero => exact h
  | succ k ih =>
    unfold readPages
    grind [devTranslate_wf]

theorem readVA_wf {ctx n va} (h : s.mem.wf = true) : (readVA s ctx n va).1.mem.wf = true := readPages_wf h

/-! ### Reading and writing operands -/

@[simp] theorem State.updFib_mem {a f} : (s.updFib a f).mem = s.mem := by
  unfold State.updFib
  split <;> rfl

@[simp] theorem State.noteDead_mem {uid pc r} : (s.noteDead uid pc r).mem = s.mem := by
  unfold State.noteDead
  split <;> rfl

@[simp] theorem State.release_mem {a x} : (s.release a x).mem = s.mem := by
  unfold State.release
  split
  · rfl
  · split <;> rfl

@[simp] theorem State.noteAll_mem {pc acts srcs} : (s.noteAll pc acts srcs).mem = s.mem :=
  foldl_mem fun _ _ => foldl_mem fun _ _ => State.noteDead_mem

@[simp] theorem State.releaseAll_mem {a srcs} : (s.releaseAll a srcs).mem = s.mem :=
  foldl_mem fun _ _ => State.release_mem

@[simp] theorem State.consume_mem {pc acts srcs} : (s.consume pc acts srcs).mem = s.mem :=
  (foldl_mem (fun _ _ => State.releaseAll_mem)).trans State.noteAll_mem

theorem boundStore_wf {a b n v} (h : s.mem.wf = true) : (boundStore s a b n v).mem.wf = true :=
  commitBuf_wf (bufStore_wf (wf_of_mem State.updFib_mem h))

@[simp] theorem State.unspill_mem {uid w sl n} : (s.unspill uid w sl n).mem = s.mem := rfl

theorem State.writeW_wf {a n v} (h : s.mem.wf = true) : (s.writeW a n v).mem.wf = true := by
  unfold State.writeW
  grind [State.updStream_mem, State.updFibre_mem, boundStore_wf]

@[simp] theorem State.writeK_mem {uid w n v} : (s.writeK uid w n v).mem = s.mem := by
  unfold State.writeK
  split <;> rfl

theorem State.writeD_wf {a d v} (h : s.mem.wf = true) : (s.writeD a d v).mem.wf = true := by
  unfold State.writeD
  split
  · split
    · exact wf_of_mem State.writeK_mem h
    · exact State.writeW_wf h
  · exact State.writeW_wf h

@[simp] theorem State.writeP_mem {a n v} : (s.writeP a n v).mem = s.mem := by
  unfold State.writeP
  split
  · rfl
  · split <;> rfl

/-! ### Flags -/

@[simp] theorem State.raise_mem {a fl} : (s.raise a fl).mem = s.mem := by
  unfold State.raise
  split <;> rfl

/-! ### Batches and blocks that end -/

@[simp] theorem State.stamp_mem : (s.stamp).1.mem = s.mem := rfl

@[simp] theorem State.setMark_mem {uid w m n} : (s.setMark uid w m n).mem = s.mem := by
  unfold State.setMark
  split <;> rfl

@[simp] theorem State.openOp_mem {uid w mark} : (s.openOp uid w mark).1.mem = s.mem := by
  unfold State.openOp
  split
  · exact State.setMark_mem
  · rfl

@[simp] theorem State.updPend_mem {a f} : (s.updPend a f).mem = s.mem := by
  unfold State.updPend
  split <;> rfl

@[simp] theorem State.addPend_mem {a p} : (s.addPend a p).mem = s.mem := by
  unfold State.addPend
  grind [State.updWeave_mem, State.updPend_mem]

@[simp] theorem completeOp_mem {uid op} : (completeOp s uid op).mem = s.mem := by
  unfold completeOp
  grind [State.updBlock_mem, deliverOps_mem, State.setMark_mem, State.updStream_mem, State.updPend_mem,
    State.raise_mem, foldl_mem]

theorem landPend_wf {a p} (h : s.mem.wf = true) : (landPend s a p).mem.wf = true := by
  unfold landPend
  grind [State.updFibre_mem, State.writeW_wf, State.writeK_mem, State.writeP_mem]

theorem landSel_wf {a sel} (h : s.mem.wf = true) : (landSel s a sel).1.mem.wf = true := by
  unfold landSel
  grind [State.updPend_mem, landPend_wf, foldl_fst_wf]

theorem flush_wf {a} (h : s.mem.wf = true) : (flush s a).1.mem.wf = true :=
  landSel_wf (foldl_wf h fun _ _ w => wf_of_mem completeOp_mem w)

@[simp] theorem wakeIf_mem {uid p} : (wakeIf s uid p).mem = s.mem := rfl

@[simp] theorem dropBind_mem {a n} : (dropBind s a n).mem = s.mem := State.updFib_mem

@[simp] theorem refreshBut_mem {a quiet own} : (refreshBut s a quiet own).1.mem = s.mem := by
  unfold refreshBut
  split
  · rfl
  · exact State.updFib_mem

@[simp] theorem refresh_mem {a quiet} : (refresh s a quiet).1.mem = s.mem := refreshBut_mem

/-! ### Traps and the end of an instruction -/

@[simp] theorem poolFreed_mem {c} : (poolFreed s c).mem = s.mem := by
  unfold poolFreed
  dsimp only
  split <;> rfl

@[simp] theorem tidyCores_mem {uid} : (tidyCores s uid).mem = s.mem := rfl

@[simp] theorem State.updAnywhere_mem {uid f} : (s.updAnywhere uid f).mem = s.mem := rfl

@[simp] theorem wakeEngine_mem {uid} : (wakeEngine s uid).mem = s.mem := rfl

@[simp] theorem unplace_mem {uid} : (unplace s uid).mem = s.mem := by
  unfold unplace
  grind [poolFreed_mem, tidyCores_mem, wakeEngine_mem, foldl_mem]

@[simp] theorem leaveRoots_mem {uid} : (leaveRoots s uid).mem = s.mem := rfl

@[simp] theorem dropBlock_mem {uid f} : (dropBlock s uid f).mem = s.mem := by
  unfold dropBlock
  split
  · rfl
  · exact unplace_mem

@[simp] theorem killBlock_mem {uid} : (killBlock s uid).mem = s.mem := dropBlock_mem

theorem tryEnd_wf {uid} (h : s.mem.wf = true) : (tryEnd s uid).mem.wf = true := by
  unfold tryEnd
  grind [commitBuf_wf, dropBlock_mem, wakeIf_mem]

theorem trapLand_wf {as} (h : s.mem.wf = true) : (trapLand s as).1.mem.wf = true :=
  foldl_fst_wf h fun _ _ w => wf_of_mem refresh_mem (flush_wf w)

theorem takeTrap_wf {uid w ts noFH hr} (h : s.mem.wf = true) : (takeTrap s uid w ts noFH hr).mem.wf = true := by
  unfold takeTrap
  grind [trapLand_wf, writeRecord_wf, State.updFib_mem, State.updWeave_mem, killBlock_mem, foldl_wf]

theorem takeTrapSeq_wf {uid y noFH} (h : s.mem.wf = true) : (takeTrapSeq s uid y noFH).mem.wf = true := by
  unfold takeTrapSeq
  grind [trapLand_wf, State.updStream_mem, writeRecord_wf, killBlock_mem]

@[simp] theorem dropHelperStores_mem {uid w sl} : (dropHelperStores s uid w sl).mem = s.mem := State.setBuf_mem

@[simp] theorem coreIdle_mem {c} : (coreIdle s c).mem = s.mem := by
  unfold coreIdle
  split <;> rfl

@[simp] theorem dropIdle_mem {uid w} : (dropIdle s uid w).mem = s.mem := by
  unfold dropIdle
  split
  · split
    · exact coreIdle_mem.trans (State.updBlock_mem _ _ _)
    · rfl
  · rfl

theorem dropFibre_wf {uid w sl} (h : s.mem.wf = true) : (dropFibre s uid w sl).mem.wf = true := by
  unfold dropFibre
  grind [flush_wf, State.setBuf_mem, State.updWeave_mem, poolFreed_mem]

theorem helperGone_wf {uid w sl} (h : s.mem.wf = true) : (helperGone s uid w sl).mem.wf = true := by
  unfold helperGone
  grind [State.updFibre_mem, dropFibre_wf, State.post_mem]

@[simp] theorem dropFar_mem {uid w sl} : (dropFar s uid w sl).mem = s.mem := by
  unfold dropFar
  split
  · split
    · split <;> rfl
    · rfl
  · rfl

@[simp] theorem wakeHwork_mem {uid} : (wakeHwork s uid).mem = s.mem := by
  unfold wakeHwork
  split <;> rfl

theorem releaseHelper_wf {uid w sl} (h : s.mem.wf = true) : (releaseHelper s uid w sl).mem.wf = true := by
  unfold releaseHelper
  grind [wakeHwork_mem, dropIdle_mem, helperGone_wf, State.updWeave_mem, dropFar_mem]

@[simp] theorem holdIteration_mem {uid w sl wait} : (holdIteration s uid w sl wait).mem = s.mem := by
  unfold holdIteration
  grind [dropHelperStores_mem, State.updFibre_mem]

@[simp] theorem recruitReady_mem {uid w} : (recruitReady s uid w).mem = s.mem := rfl

theorem recruiterTrap_wf {uid rw rs cause inner addr aux hr} (h : s.mem.wf = true) :
    (recruiterTrap s uid rw rs cause inner addr aux hr).mem.wf = true := by
  unfold recruiterTrap
  grind [releaseHelper_wf, holdIteration_mem, State.updFibre_mem, State.writeW_wf, State.unspill_mem,
    State.updWeave_mem, recruitReady_mem, takeTrap_wf, foldl_wf]

theorem helperTrap_wf {y} (h : s.mem.wf = true) : (helperTrap s y).mem.wf = true := by
  unfold helperTrap
  grind [flush_wf, writeRecord_wf, holdIteration_mem, State.updFibre_mem, releaseHelper_wf, recruiterTrap_wf]

theorem helperTraps_wf {ts} (h : s.mem.wf = true) : (helperTraps s ts).mem.wf = true :=
  foldl_wf h fun _ _ w => helperTrap_wf w

theorem enterTraps_wf {uid w ts} (h : s.mem.wf = true) : (enterTraps s uid w ts).mem.wf = true :=
  helperTraps_wf (takeTrap_wf h)

theorem finish_wf {k w d} (h : s.mem.wf = true) : (finish s k w d).mem.wf = true := by
  unfold finish
  grind [State.updWeave_mem, enterTraps_wf, tryEnd_wf, dropIdle_mem, foldl_wf]

theorem finishSeq_wf {k d} (h : s.mem.wf = true) : (finishSeq s k d).mem.wf = true := by
  unfold finishSeq
  grind [takeTrapSeq_wf, State.updStream_mem]

/-! ### Register pressure: spills and fills -/

theorem spillReg_wf {uid w sl n} (h : s.mem.wf = true) : (spillReg s uid w sl n).mem.wf = true := by
  unfold spillReg
  grind [State.updFibre_mem, lendWays_mem, State.updCore_mem, devTranslate_wf, devWrite_wf, State.post_mem]

theorem spillWeave_wf {uid w} (h : s.mem.wf = true) : (spillWeave s uid w).mem.wf = true := by
  unfold spillWeave
  split
  · exact h
  · exact foldl_wf h fun _ _ w => foldl_wf w fun _ _ w2 => spillReg_wf w2

theorem relieve_wf {uid w c n fuel} (h : s.mem.wf = true) : (relieve s uid w c n fuel).1.mem.wf = true := by
  induction fuel generalizing s with
  | zero => exact h
  | succ k ih =>
    unfold relieve
    grind [spillWeave_wf]

theorem fillReg_wf {uid w sl n} (h : s.mem.wf = true) : (fillReg s uid w sl n).mem.wf = true := by
  unfold fillReg
  grind [State.updFibre_mem, State.updCore_mem, devTranslate_wf, State.post_mem]

theorem fillWeave_wf {uid w} (h : s.mem.wf = true) : (fillWeave s uid w).mem.wf = true := by
  unfold fillWeave
  split
  · exact h
  · exact foldl_wf h fun _ _ w => foldl_wf w fun _ _ w2 => fillReg_wf w2

/-! ### Issue: an instruction keeps memory when its body does -/

@[simp] theorem checkedIssue_mem {uid c on} : (checkedIssue s uid c on).1.mem = s.mem := by
  unfold checkedIssue
  grind [State.tick_mem, State.updBlock_mem, State.post_mem]

/-- An instruction's body, whatever its participants, keeps memory canonical. -/
def KeepsMemory (body : Iss → State → Done) : Prop := ∀ k s, s.mem.wf = true → (body k s).st.mem.wf = true

theorem issueFib_wf {i uid w blk x b} {body : Iss → State → Done} (h : s.mem.wf = true)
    (hb : KeepsMemory body) : (issueFib i s uid w blk x b body).mem.wf = true := by
  unfold issueFib
  unfold KeepsMemory at hb
  grind [finish_wf, relieve_wf, checkedIssue_mem]

theorem issueSeq_wf {i uid blk x} {body : Iss → State → Done} (h : s.mem.wf = true)
    (hb : KeepsMemory body) : (issueSeq i s uid blk x body).mem.wf = true := by
  unfold issueSeq
  unfold KeepsMemory at hb
  grind [finishSeq_wf, takeTrapSeq_wf, State.updStream_mem]

/-- The frame of every issued instruction: what goes on before and after its body keeps memory canonical, so the body decides. -/
theorem issue_wf {i} {body : Iss → State → Done} (h : s.mem.wf = true) (hb : KeepsMemory body)
    (e : issue i s body = .next t) : t.mem.wf = true := by
  unfold issue at e
  grind [issueFib_wf, issueSeq_wf]

theorem event_eq_next {name r} (e : event name r = .next t) : r = some t := by
  unfold event at e
  grind

theorem next_wf {u : State} (e : (.next u : Out) = .next t) (hu : u.mem.wf = true) : t.mem.wf = true := by
  cases e
  exact hu

/-- An event that happens keeps memory canonical when its operation does. -/
theorem event_wf {name r} (hr : ∀ u, r = some u → u.mem.wf = true) (e : event name r = .next t) :
    t.mem.wf = true := hr t (event_eq_next e)

/-- The same for an operation that leaves memory alone. -/
theorem event_mem_wf {name r} (h : s.mem.wf = true) (hr : ∀ u, r = some u → u.mem = s.mem)
    (e : event name r = .next t) : t.mem.wf = true := event_wf (fun u eu => wf_of_mem (hr u eu) h) e

theorem event_ite_wf {name} {u : State} {p : Prop} [Decidable p] (hu : u.mem.wf = true)
    (e : event name (if p then some u else none) = .next t) : t.mem.wf = true :=
  event_wf (fun v ev => by grind) e

/-! ### Integer instructions -/

/-- An element instruction writes its result through one operation for each participant. -/
theorem lane_keeps {α : Type} {srcs} {write : State → Actor → α → State} {val : State → State → Actor → α}
    (hw : ∀ t a v, t.mem.wf = true → (write t a v).mem.wf = true) : KeepsMemory (lane srcs write val) := by
  intro k s h
  exact foldl_wf (wf_of_mem State.consume_mem h) fun t a w => hw t a _ w

theorem lane_writeP_keeps {srcs n val} : KeepsMemory (lane srcs (fun t a v => t.writeP a n v) val) :=
  lane_keeps fun _ _ _ w => wf_of_mem State.writeP_mem w

theorem writeRes_wf {d a r} (h : s.mem.wf = true) : (writeRes d s a r).mem.wf = true :=
  wf_of_mem State.raise_mem (State.writeD_wf h)

theorem lane_writeRes_keeps {srcs d val} : KeepsMemory (lane srcs (writeRes d) val) :=
  lane_keeps fun _ _ _ w => writeRes_wf w

theorem writeInt_wf {d a r} (h : s.mem.wf = true) : (writeInt d s a r).mem.wf = true := State.writeD_wf h

theorem lane_writeInt_keeps {srcs d val} : KeepsMemory (lane srcs (writeInt d) val) :=
  lane_keeps fun _ _ _ w => writeInt_wf w

theorem laneInt_keeps {f n uns} {op : (w : Nat) → (sg : Bool) → (a b c : Nat) → Nat} : KeepsMemory
    (laneInt f n uns op) := lane_keeps fun _ _ _ h => writeInt_wf h

@[simp] theorem writePreds_mem {a v} : (writePreds s a v).mem = s.mem := foldl_mem fun _ _ => State.writeP_mem

theorem execPmov_wf {f dir} (h : s.mem.wf = true) (e : execPmov f dir s = .next t) : t.mem.wf = true := by
  refine issue_wf h ?_ e
  split
  · exact lane_keeps fun _ _ _ w => wf_of_mem writePreds_mem w
  · exact lane_writeInt_keeps

theorem indexed_keeps {lim f} {body : Iss → State → Done} (hb : KeepsMemory body) : KeepsMemory
    (indexed lim f body) := by
  intro k s h
  unfold indexed
  split
  · exact h
  · exact hb k s h

theorem execMovx_wf {f} (h : s.mem.wf = true) (e : execMovx f s = .next t) : t.mem.wf = true := by
  refine issue_wf h (indexed_keeps fun k s h => ?_) e
  grind [State.noteDead_mem, State.release_mem, State.writeD_wf, foldl_wf]

/-! ### Fetch -/

theorem icLine_wf {uid c pa} (h : s.mem.wf = true) : (icLine s uid c pa).1.mem.wf = true := by
  unfold icLine
  dsimp only
  split
  · exact h
  · exact coreRead_wf h

theorem icBytes_wf {uid c pa n} (h : s.mem.wf = true) : (icBytes s uid c pa n).1.mem.wf = true := icLine_wf h

theorem fetchAt_wf {uid c ctx pc} (h : s.mem.wf = true) : (fetchAt s uid c ctx pc).1.mem.wf = true := by
  unfold fetchAt
  grind [translate_wf, icBytes_wf]

theorem fetchEntry_wf {k d} (h : s.mem.wf = true) (hd : d.st.mem.wf = true) :
    (fetchEntry k s d).st.mem.wf = true := by
  unfold fetchEntry
  split
  · exact h
  · exact hd

theorem targetCheck_wf {uid c ctx pc} (h : s.mem.wf = true) : (targetCheck s uid c ctx pc).1.mem.wf = true := by
  unfold targetCheck
  grind [translate_wf, icBytes_wf]

/-! ### Control transfers -/

theorem landMarks_wf {a wait} (h : s.mem.wf = true) : (landMarks s a wait).1.mem.wf = true := landSel_wf h

theorem clauseBody_keeps {wait seta setb} : KeepsMemory (clauseBody wait seta setb) := by
  intro k s h
  exact foldl_fst_wf h fun _ _ w => landMarks_wf w

theorem execClause_wf {wait seta setb zero} (h : s.mem.wf = true)
    (e : execClause wait seta setb zero s = .next t) : t.mem.wf = true := by
  unfold execClause at e
  have body (k : Iss) := clauseBody_keeps (wait := wait) (seta := seta) (setb := setb) k s h
  grind [finish_wf, takeTrapSeq_wf, State.updWeave_mem, State.updStream_mem]

theorem transfer_wf {k l} {link : State → Actor → State} (h : s.mem.wf = true)
    (hl : ∀ t a, t.mem.wf = true → (link t a).mem.wf = true) : (transfer k s link l).st.mem.wf = true := by
  unfold transfer
  refine foldl_st_wf h fun d e w => ?_
  grind [targetCheck_wf, refresh_mem]

theorem bra_keeps {off : BitVec 32} : KeepsMemory fun k s => fetchEntry k s
    (transfer k s (fun s _ => s) (k.acts.map fun a => (a, k.pc + off.signExtend 64))) :=
  fun _ _ h => fetchEntry_wf h (transfer_wf h fun _ _ w => w)

theorem call_keeps {link : BitVec 7} {off : BitVec 32} : KeepsMemory fun k s => fetchEntry k s
    (transfer k s (fun s a => s.writeW a link.toNat (k.pc + 8)) (k.acts.map fun a => (a, k.pc + off.signExtend 64))) :=
  fun _ _ h => fetchEntry_wf h (transfer_wf h fun _ _ w => State.writeW_wf w)

theorem indirect_keeps {f} : KeepsMemory (indirect f) := by
  intro k s h
  unfold indirect
  exact fetchEntry_wf h (transfer_wf (wf_of_mem State.noteAll_mem h) fun t a w => wf_of_mem State.release_mem w)

theorem execTrap_wf {f} (h : s.mem.wf = true) (e : execTrap f s = .next t) : t.mem.wf = true :=
  issue_wf h (fun _ _ h => wf_of_mem State.consume_mem h) e

theorem execBrk_wf {g} (h : s.mem.wf = true) (e : execBrk g s = .next t) : t.mem.wf = true :=
  issue_wf h (fun _ _ h => h) e

theorem execMcall_wf {g n} (h : s.mem.wf = true) (e : execMcall g n s = .next t) : t.mem.wf = true := by
  refine issue_wf h (fun k s h => ?_) e
  split <;> exact h

@[simp] theorem State.updTrap_mem {a f} : (s.updTrap a f).mem = s.mem := by
  unfold State.updTrap
  split <;> rfl

theorem trapReturn_wf {k a} (h : s.mem.wf = true) : (trapReturn s k a).1.mem.wf = true := by
  unfold trapReturn
  grind [flush_wf, State.updTrap_mem, State.updFib_mem, refresh_mem]

theorem execTret_wf {g} (h : s.mem.wf = true) (e : execTret g s = .next t) : t.mem.wf = true := by
  refine issue_wf h (fun k s h => ?_) e
  grind [trapReturn_wf, foldl_st_wf]

@[simp] theorem refreshAll_mem {k here} : (refreshAll k s here).1.mem = s.mem :=
  foldl_fst_mem fun _ _ => refresh_mem

theorem execYield_wf {g} (h : s.mem.wf = true) (e : execYield g s = .next t) : t.mem.wf = true :=
  issue_wf h (fun _ _ h => wf_of_mem refreshAll_mem h) e

theorem execJoin_wf {g} (h : s.mem.wf = true) (e : execJoin g s = .next t) : t.mem.wf = true :=
  issue_wf h (fun _ _ h => wf_of_mem refreshAll_mem h) e

theorem execIllegalInstruction_wf {g len} (h : s.mem.wf = true)
    (e : execIllegalInstruction g len s = .next t) : t.mem.wf = true := by
  unfold execIllegalInstruction at e
  grind [finish_wf, takeTrapSeq_wf, finishSeq_wf, State.updStream_mem]

/-! ### Loads, stores and atomics -/

theorem checkAccess_wf {a va n k} (h : s.mem.wf = true) : (checkAccess s a va n k).1.mem.wf = true := by
  unfold checkAccess
  split
  · exact h
  · exact translate_wf h

@[simp] theorem MAcc.close_mem {m : MAcc} {k mark sw} : (m.close k mark sw).st.mem = m.st.mem := by
  unfold MAcc.close
  split
  · exact (foldl_mem (fun _ _ => State.addPend_mem)).trans State.openOp_mem
  · rfl

theorem MAcc.trap_st {x : MAcc} {t} : (x.trap t).st = x.st := rfl

theorem MAcc.row_st {x : MAcc} {r} : (x.row s r).st = s := rfl

theorem loadOne_wf {x : MAcc} {k m sz mark a} (h : x.st.mem.wf = true) :
    (loadOne k m sz mark x a).st.mem.wf = true := by
  unfold loadOne
  grind [checkAccess_wf, refresh_mem, State.writeP_mem, State.releaseAll_mem, loadTouch_wf, MAcc.trap_st,
    MAcc.row_st]

theorem execLd_wf {m sz} (h : s.mem.wf = true) (e : execLd m sz s = .next t) : t.mem.wf = true := by
  refine issue_wf h (fun k s h => ?_) e
  dsimp only
  split
  · exact h
  · exact wf_of_mem MAcc.close_mem (foldl_acc_wf (wf_of_mem State.noteAll_mem h) fun _ _ w => loadOne_wf w)

theorem storeAt_wf {a pa data commits} (h : s.mem.wf = true) : (storeAt s a pa data commits).mem.wf = true := by
  unfold storeAt
  split
  · exact commitBuf_wf (bufStore_wf (commitBuf_wf h))
  · exact bufStore_wf h

theorem storeOne_wf {x : MAcc} {k m sz a} (h : x.st.mem.wf = true) :
    (storeOne k m sz x a).st.mem.wf = true := by
  unfold storeOne
  grind [checkAccess_wf, storeAt_wf, State.releaseAll_mem, MAcc.trap_st]

theorem execSt_wf {m sz} (h : s.mem.wf = true) (e : execSt m sz s = .next t) : t.mem.wf = true := by
  refine issue_wf h (fun k s h => ?_) e
  dsimp only
  split
  · exact h
  · exact foldl_acc_wf (wf_of_mem State.noteAll_mem h) fun _ _ w => storeOne_wf w

@[simp] theorem prefLine_mem {uid c pa own} : (prefLine s uid c pa own).mem = s.mem := by
  unfold prefLine
  grind [readTouch_mem, addMiss_mem]

theorem prefOne_wf {m kind a} (h : s.mem.wf = true) : (prefOne m kind s a).mem.wf = true := by
  unfold prefOne
  grind [translateHint_wf, prefLine_mem, coreRead_wf, State.releaseAll_mem]

theorem execPref_wf {m kind} (h : s.mem.wf = true) (e : execPref m kind s = .next t) : t.mem.wf = true := by
  refine issue_wf h (fun k s h => ?_) e
  dsimp only
  split
  · exact h
  · exact foldl_wf (wf_of_mem State.noteAll_mem h) fun _ _ w => prefOne_wf w

theorem beforeAtomic_wf {a pa n m} (h : s.mem.wf = true) : (beforeAtomic s a pa n m).mem.wf = true := by
  unfold beforeAtomic
  split
  · exact commitBuf_wf h
  · exact flushWord_wf h

theorem atomicWrite_wf {a pa n v} (h : s.mem.wf = true) : (atomicWrite s a pa n v).mem.wf = true :=
  blockWrite_wf h

theorem atomicRead_wf {a pa} (h : s.mem.wf = true) : (atomicRead s a pa).mem.wf = true := by
  unfold atomicRead
  split
  · exact homeRead_wf h
  · exact h

@[simp] theorem poisonEvent_mem {a pa} : (poisonEvent s a pa).mem = s.mem := rfl

@[simp] theorem MAcc.observe_mem {x : MAcc} {k d a} : (x.observe k d a).st.mem = x.st.mem := by
  unfold MAcc.observe
  grind [refreshBut_mem, MAcc.trap_st]

theorem atomicAct_wf {x : MAcc} {k m n mark srcs va pa a} {new : Nat → Option Nat} (h : s.mem.wf = true) :
    (atomicAct k m n mark srcs new va pa x a s).st.mem.wf = true := by
  unfold atomicAct
  grind [beforeAtomic_wf, atomicRead_wf, atomicWrite_wf, poisonEvent_mem, State.releaseAll_mem, MAcc.row_st]

theorem atomicOne_wf {x : MAcc} {k m n mark srcs a} {f : State → Actor → Nat → Option Nat}
    (h : x.st.mem.wf = true) : (atomicOne k m n mark srcs f x a).st.mem.wf = true := by
  unfold atomicOne
  grind [checkAccess_wf, refresh_mem, atomicAct_wf, MAcc.observe_mem, State.releaseAll_mem, MAcc.trap_st,
    MAcc.row_st]

theorem MAcc.atomics_wf {x : MAcc} {k mark} (hx : x.st.mem.wf = true) (h : s.mem.wf = true) :
    (x.atomics s k mark).st.mem.wf = true := by
  unfold MAcc.atomics
  split
  · exact h
  · exact wf_of_mem MAcc.close_mem hx

theorem execAmo_wf {m op} (h : s.mem.wf = true) (e : execAmo m op s = .next t) : t.mem.wf = true :=
  issue_wf h (fun _ _ h => MAcc.atomics_wf
    (foldl_acc_wf (wf_of_mem State.noteAll_mem h) fun _ _ w => atomicOne_wf w) h) e

theorem execCas_wf {m sz} (h : s.mem.wf = true) (e : execCas m sz s = .next t) : t.mem.wf = true :=
  issue_wf h (fun _ _ h => MAcc.atomics_wf
    (foldl_acc_wf (wf_of_mem State.noteAll_mem h) fun _ _ w => atomicOne_wf w) h) e

theorem elements_wf {x : MAcc} {k n cnt old commits l} {val : Actor → Word} (h : x.st.mem.wf = true) :
    (elements k n cnt old val commits x l).st.mem.wf = true := by
  induction l generalizing x with
  | nil => exact h
  | cons e r ih =>
    unfold elements
    grind [checkAccess_wf, storeAt_wf, State.updFib_mem, MAcc.trap_st]

theorem cstoreGroup_wf {x : MAcc} {k m n mark g} {val : Actor → Word} (h : x.st.mem.wf = true) :
    (cstoreGroup k m n mark val x g).st.mem.wf = true := by
  unfold cstoreGroup
  grind [checkAccess_wf, beforeAtomic_wf, atomicRead_wf, atomicWrite_wf, poisonEvent_mem, commitBuf_wf,
    elements_wf, MAcc.observe_mem, foldl_mem, foldl_acc_wf, State.releaseAll_mem, MAcc.trap_st, MAcc.row_st]

theorem replayOne_wf {x : MAcc} {k m n mark a} (h : x.st.mem.wf = true) :
    (replayOne k m n mark x a).st.mem.wf = true := by
  unfold replayOne
  grind [checkAccess_wf, storeAt_wf, State.updFib_mem, MAcc.observe_mem, MAcc.trap_st, MAcc.row_st]

theorem execCstore_wf {m sz} (h : s.mem.wf = true) (e : execCstore m sz s = .next t) : t.mem.wf = true := by
  refine issue_wf h (fun k s h => ?_) e
  grind [replayOne_wf, cstoreGroup_wf, foldl_acc_wf, State.noteAll_mem, MAcc.atomics_wf]

/-! ### Bound registers -/

/-- A run of operations each of which may refuse. -/
theorem foldl_bind_wf {α : Type} {l : List α} {r} {f : State → α → Option State}
    (hr : ∀ s, r = some s → s.mem.wf = true)
    (hf : ∀ s a u, s.mem.wf = true → f s a = some u → u.mem.wf = true)
    (e : (l.foldl (fun r a => r.bind fun s => f s a) r) = some t) : t.mem.wf = true := by
  induction l generalizing r with
  | nil => exact hr t e
  | cons a l ih =>
    refine ih (fun u eu => ?_) e
    obtain ⟨s, es, eu⟩ := Option.bind_eq_some_iff.mp eu
    exact hf s a u (hr s es) eu

theorem bindOne_wf {x : MAcc} {k m sz mark a} (h : x.st.mem.wf = true) :
    (bindOne k m sz mark x a).st.mem.wf = true := by
  unfold bindOne
  split
  · dsimp only
    split
    · exact h
    · grind [checkAccess_wf, refresh_mem, State.updFib_mem, State.writeP_mem, State.releaseAll_mem,
        loadTouch_wf, bindTouch_mem, MAcc.trap_st, MAcc.row_st]
  · exact h

theorem execBind_wf {m sz} (h : s.mem.wf = true) (e : execBind m sz s = .next t) : t.mem.wf = true := by
  refine issue_wf h (fun k s h => ?_) e
  dsimp only
  split
  · exact h
  · exact wf_of_mem MAcc.close_mem (foldl_acc_wf (wf_of_mem State.noteAll_mem h) fun _ _ w => bindOne_wf w)

theorem landReg_wf {a n} (h : s.mem.wf = true) : (landReg s a n).1.mem.wf = true :=
  landSel_wf (foldl_wf h fun _ _ w => wf_of_mem completeOp_mem w)

theorem unbindOne_wf {x : MAcc} {k d a} (h : x.st.mem.wf = true) : (unbindOne k d x a).st.mem.wf = true := by
  unfold unbindOne
  grind [refresh_mem, landReg_wf, dropBind_mem, MAcc.trap_st]

theorem execUnbind_wf {g d} (h : s.mem.wf = true) (e : execUnbind g d s = .next t) : t.mem.wf = true :=
  issue_wf h (fun _ _ h => foldl_acc_wf h fun _ _ w => unbindOne_wf w) e

theorem execBsync_wf {g} (h : s.mem.wf = true) (e : execBsync g s = .next t) : t.mem.wf = true :=
  issue_wf h (fun _ _ h => wf_of_mem refreshAll_mem h) e

theorem boundAtomic_wf {x : MAcc} {k f mark srcs ps a} {new : Nat → Option Nat} (h : x.st.mem.wf = true) :
    (boundAtomic k f mark srcs new ps x a).st.mem.wf = true := by
  unfold boundAtomic
  grind [refresh_mem, commitBuf_wf, atomicWrite_wf, atomicRead_wf, State.releaseAll_mem, MAcc.trap_st,
    MAcc.row_st]

theorem execBamo_wf {f op} (h : s.mem.wf = true) (e : execBamo f op s = .next t) : t.mem.wf = true :=
  issue_wf h (fun _ _ h => wf_of_mem MAcc.close_mem
    (foldl_acc_wf (wf_of_mem State.noteAll_mem h) fun _ _ w => boundAtomic_wf w)) e

theorem execBcas_wf {f} (h : s.mem.wf = true) (e : execBcas f s = .next t) : t.mem.wf = true :=
  issue_wf h (fun _ _ h => wf_of_mem MAcc.close_mem
    (foldl_acc_wf (wf_of_mem State.noteAll_mem h) fun _ _ w => boundAtomic_wf w)) e

theorem bwaitLand_wf {x : MAcc} {k f a} (h : x.st.mem.wf = true) : (bwaitLand k f x a).st.mem.wf = true := by
  unfold bwaitLand
  grind [landReg_wf, MAcc.trap_st]

@[simp] theorem bwaitRefresh_mem {x : MAcc} {k a} : (bwaitRefresh k x a).st.mem = x.st.mem := by
  unfold bwaitRefresh
  grind [refresh_mem, MAcc.trap_st]

@[simp] theorem completeWait_mem {k sw} : (completeWait k s sw).st.mem = s.mem := refreshAll_mem

theorem execBwait_wf {f cond} (h : s.mem.wf = true) (e : execBwait f cond s = .next t) : t.mem.wf = true := by
  refine issue_wf h (fun k s h => ?_) e
  grind [completeWait_mem, bwaitLand_wf, bwaitRefresh_mem, foldl_acc_wf, foldl_mem, State.noteAll_mem,
    State.releaseAll_mem]

/-! ### Panel-local memory -/

@[simp] theorem ldlOne_mem {x : MAcc} {k l sz mark a} : (ldlOne k l sz mark x a).st.mem = x.st.mem := by
  unfold ldlOne
  grind [State.releaseAll_mem, MAcc.trap_st, MAcc.row_st]

@[simp] theorem MAcc.holdSlots_mem {x : MAcc} {uid slots} : (x.holdSlots uid slots).st.mem = x.st.mem := by
  unfold MAcc.holdSlots
  split <;> rfl

theorem execLdl_wf {l sz} (h : s.mem.wf = true) (e : execLdl l sz s = .next t) : t.mem.wf = true := by
  refine issue_wf h (fun k s h => ?_) e
  grind [ldlOne_mem, foldl_acc_wf, State.noteAll_mem, MAcc.holdSlots_mem, MAcc.close_mem]

@[simp] theorem setOutcome_mem {a l v} : (setOutcome s a l v).mem = s.mem := by
  unfold setOutcome
  split
  · exact State.writeP_mem
  · rfl

@[simp] theorem refuse_mem {a l} : (refuse s a l).mem = s.mem := setOutcome_mem

theorem stlOne_wf {x : PAcc} {k l sz a} (h : x.acc.st.mem.wf = true) :
    (stlOne k l sz x a).acc.st.mem.wf = true := by
  unfold stlOne
  dsimp only
  split
  · exact h
  · split
    · exact h
    · split
      · rw [State.updBlock_mem, State.releaseAll_mem]; exact h
      · split
        · exact h
        · split
          · rw [refuse_mem, State.releaseAll_mem]; exact h
          · split
            · exact wf_of_mem State.updFib_mem h
            · split
              · exact commitBuf_wf (wf_of_mem State.releaseAll_mem (wf_of_mem State.updFib_mem h))
              · rw [setOutcome_mem, State.releaseAll_mem, State.updFib_mem]; exact h

theorem execStl_wf {l sz} (h : s.mem.wf = true) (e : execStl l sz s = .next t) : t.mem.wf = true := by
  refine issue_wf h (fun k s h => ?_) e
  grind [stlOne_wf, foldl_pacc_wf, State.noteAll_mem, State.stamp_mem]

/-! ### Float instructions -/

theorem laneFp_keeps {f n} {op : Fmt → (a b c : Nat) → Nat × FFlags} : KeepsMemory (laneFp f n op) :=
  lane_keeps fun _ _ _ h => writeRes_wf h

theorem execFcmp_wf {f orr cond} (h : s.mem.wf = true) (e : execFcmp f orr cond s = .next t) :
    t.mem.wf = true :=
  issue_wf h (lane_keeps fun _ _ _ w => wf_of_mem State.raise_mem (wf_of_mem State.writeP_mem w)) e

theorem laneLong_keeps {i f n} {op : Fmt → (a b : Nat) → Nat × FFlags} : KeepsMemory (laneLong i f n op) := by
  intro k s h
  unfold laneLong
  grind [State.consume_mem, State.openOp_mem, State.addPend_mem, foldl_mem]

/-! ### Cross-lane instructions, forks, launches and barriers -/

theorem crossWrite_wf {α : Type} {k fl} {write : State → Actor → α → State} {val : Actor → α}
    (h : s.mem.wf = true) (hw : ∀ t a v, t.mem.wf = true → (write t a v).mem.wf = true) :
    (crossWrite k s write val fl).st.mem.wf = true := by
  unfold crossWrite
  have all : (k.acts.foldl (fun t a => write t a (val a)) s).mem.wf = true := foldl_wf h fun t a w => hw t a _ w
  grind [State.raise_mem]

theorem execShfl_wf {f mode} (h : s.mem.wf = true) (e : execShfl f mode s = .next t) : t.mem.wf = true := by
  refine issue_wf h (fun k s h => ?_) e
  grind [crossWrite_wf, writeInt_wf, foldl_mem, State.noteDead_mem, State.releaseAll_mem]

theorem execVote_wf {f mode} (h : s.mem.wf = true) (e : execVote f mode s = .next t) : t.mem.wf = true := by
  refine issue_wf h (fun k s h => ?_) e
  grind [crossWrite_wf, writeInt_wf, State.writeP_mem]

theorem execMatchBits_wf {f} (h : s.mem.wf = true) (e : execMatchBits f s = .next t) : t.mem.wf = true :=
  issue_wf h (fun _ _ h => crossWrite_wf (wf_of_mem State.consume_mem h) fun _ _ _ w => writeInt_wf w) e

theorem execMatchf_wf {f} (h : s.mem.wf = true) (e : execMatchf f s = .next t) : t.mem.wf = true :=
  issue_wf h (fun _ _ h => crossWrite_wf (wf_of_mem State.consume_mem h) fun _ _ _ w => writeInt_wf w) e

theorem reduce_keeps {f op sat rm} {pick : List (List Nat) → List (List Nat)} : KeepsMemory
    (reduce f op sat rm pick) := by
  intro k s h
  exact crossWrite_wf (wf_of_mem State.consume_mem h) fun _ _ _ w => writeInt_wf w

theorem foldl_fork_wf {α : Type} {f : ForkAcc → α → ForkAcc} {l : List α} {s : ForkAcc}
    (hs : s.st.mem.wf = true) (h : ∀ t a, t.st.mem.wf = true → (f t a).st.mem.wf = true) :
    (l.foldl f s).st.mem.wf = true :=
  List.foldlRecOn (motive := fun x => x.st.mem.wf = true) l f hs fun t ht a _ => h t a ht

theorem forkOne_wf {x : ForkAcc} {uid w dst a} {v : Actor → Word} (h : x.st.mem.wf = true) :
    (forkOne uid w dst v x a).st.mem.wf = true := by
  unfold forkOne
  split
  · split
    · split
      · exact State.writeW_wf h
      · exact State.writeW_wf (wf_of_mem (State.updWeave_mem _ _ _ _) h)
    · exact State.writeW_wf h
  · exact State.writeW_wf h

@[simp] theorem kidBatches_mem {uid pc kids} : (kidBatches s uid pc kids).mem = s.mem :=
  foldl_mem fun _ _ => State.updWeave_mem _ _ _ _

theorem execFork_wf {g sn d off} (h : s.mem.wf = true) (e : execFork g sn d off s = .next t) :
    t.mem.wf = true := by
  refine issue_wf h (fun k s h => ?_) e
  grind [targetCheck_wf, fetchEntry_wf, forkOne_wf, foldl_fork_wf, kidBatches_mem, State.noteAll_mem]

theorem endFibre_wf {a} (h : s.mem.wf = true) : (endFibre s a).mem.wf = true := by
  unfold endFibre
  split
  · exact dropFibre_wf (flush_wf h)
  · exact h

theorem execFend_wf {g} (h : s.mem.wf = true) (e : execFend g s = .next t) : t.mem.wf = true :=
  issue_wf h (fun _ _ h => foldl_wf h fun _ _ w => endFibre_wf w) e

theorem execId_wf {f sel} (h : s.mem.wf = true) (e : execId f sel s = .next t) : t.mem.wf = true := by
  refine issue_wf h (fun k s h => ?_) e
  split
  · exact h
  · split
    · exact h
    · exact foldl_wf h fun _ _ w => State.writeD_wf w

@[simp] theorem submitLaunch_mem {ctx queue record} : (submitLaunch s ctx queue record).1.mem = s.mem := by
  unfold submitLaunch
  split
  · rfl
  · split <;> rfl

theorem launchOne_wf {x : State × List Trp} {k f a} (h : x.1.mem.wf = true) :
    (launchOne k f x a).1.mem.wf = true := by
  unfold launchOne
  grind [submitLaunch_mem, commitBuf_wf, State.releaseAll_mem, State.writeP_mem]

theorem execLaunch_wf {f} (h : s.mem.wf = true) (e : execLaunch f s = .next t) : t.mem.wf = true :=
  issue_wf h (fun _ _ h => foldl_fst_wf (wf_of_mem State.noteAll_mem h) fun _ _ w => launchOne_wf w) e

@[simp] theorem arriveBar_mem {uid n count} : (arriveBar s uid n count).1.mem = s.mem := by
  unfold arriveBar
  split
  · rfl
  · split
    · split
      · exact State.updBlock_mem _ _ _
      · exact wakeIf_mem.trans (State.updBlock_mem _ _ _)

@[simp] theorem barRelease_mem {k} : (barRelease k s).st.mem = s.mem := refreshAll_mem

@[simp] theorem barComplete_mem {k} : (barComplete k s).st.mem = s.mem := by
  unfold barComplete
  grind [barRelease_mem, State.updWeave_mem]

@[simp] theorem barWaitFor_mem {k n toks} : (barWaitFor k s n toks).st.mem = s.mem := by
  unfold barWaitFor
  dsimp only
  split
  · exact barComplete_mem
  · rfl

@[simp] theorem arriveAll_mem {k n} {count : Actor → Nat} : (arriveAll k s n count).1.mem = s.mem :=
  foldl_fst_mem fun _ _ => arriveBar_mem

theorem execBarArrive_wf {f rd n} (h : s.mem.wf = true) (e : execBarArrive f rd n s = .next t) :
    t.mem.wf = true := by
  refine issue_wf h (fun k s h => ?_) e
  split
  · exact foldl_wf (wf_of_mem arriveAll_mem (wf_of_mem State.consume_mem h)) fun _ _ w => State.writeD_wf w
  · exact wf_of_mem arriveAll_mem (wf_of_mem State.consume_mem h)

theorem execBarWait_wf {f n} (h : s.mem.wf = true) (e : execBarWait f n s = .next t) : t.mem.wf = true := by
  refine issue_wf h (fun k s h => ?_) e
  split
  · exact wf_of_mem barComplete_mem h
  · exact wf_of_mem barWaitFor_mem (wf_of_mem State.consume_mem h)

theorem execBarSync_wf {f n} (h : s.mem.wf = true) (e : execBarSync f n s = .next t) : t.mem.wf = true := by
  refine issue_wf h (fun k s h => ?_) e
  split
  · exact wf_of_mem barComplete_mem h
  · exact wf_of_mem barWaitFor_mem (wf_of_mem arriveAll_mem (wf_of_mem State.consume_mem h))

/-! ### Engines and commands -/

@[simp] theorem writeRun_mem {r off data} : (writeRun s r off data).mem = s.mem := by
  unfold writeRun
  split <;> rfl

@[simp] theorem publish_mem {r} : (publish s r).mem = s.mem := by
  unfold publish
  split <;> rfl

@[simp] theorem wakeEngines_mem {uid target} : (wakeEngines s uid target).mem = s.mem := by
  unfold wakeEngines
  split <;> rfl

@[simp] theorem arriveOpt_mem {uid bar} : (arriveOpt s uid bar).mem = s.mem := by
  unfold arriveOpt
  split
  · exact arriveBar_mem
  · rfl

@[simp] theorem endRun_mem {uid} : (endRun s uid).mem = s.mem := by
  unfold endRun
  split
  · split
    · split
      · exact arriveOpt_mem.trans (State.updBlock_mem _ _ _)
      · rfl
    · rfl
  · rfl

@[simp] theorem completeNode_mem {uid n} : (completeNode s uid n).mem = s.mem := by
  unfold completeNode
  split
  · rfl
  · exact endRun_mem.trans ((State.updBlock_mem _ _ _).trans (arriveOpt_mem.trans (State.updBlock_mem _ _ _)))

theorem retireCmd_wf {uid r} (h : s.mem.wf = true) : (retireCmd s uid r).mem.wf = true := by
  unfold retireCmd
  grind [State.updBlock_mem, completeNode_mem, arriveOpt_mem, tryEnd_wf, wakeEngines_mem]

theorem endedError_wf {uid inner pc} (h : s.mem.wf = true) : (endedError s uid inner pc).mem.wf = true := by
  unfold endedError
  split
  · exact h
  · exact wf_of_mem killBlock_mem (writeRecord_wf h)

theorem failCmd_wf {uid r inner} (h : s.mem.wf = true) : (failCmd s uid r inner).mem.wf = true := by
  unfold failCmd
  grind [State.updBlock_mem, State.tick_mem, wakeEngines_mem, State.post_mem, State.updStream_mem,
    endedError_wf]

theorem command_mem {i a b c bar k} {limit : Block → Word → Word → Word → Option (BitVec 8)} :
    (command i a b c bar limit k s).st.mem = s.mem := by
  unfold command
  grind [State.updBlock_mem, State.updStream_mem]

theorem command_keeps {i a b c bar limit} : KeepsMemory (command i a b c bar limit) :=
  fun _ _ h => wf_of_mem command_mem h

@[simp] theorem remap_mem {k names} {f : Block → Option Block} : (remap k s names f).st.mem = s.mem := by
  unfold remap
  grind [engineTrap, State.setBlock_mem]

theorem execLbmapSwap_wf {g d a} (h : s.mem.wf = true) (e : execLbmapSwap g d a s = .next t) :
    t.mem.wf = true := issue_wf h (fun _ _ h => wf_of_mem remap_mem h) e

theorem execLbmapSet_wf {g d b} (h : s.mem.wf = true) (e : execLbmapSet g d b s = .next t) :
    t.mem.wf = true := issue_wf h (fun _ _ h => wf_of_mem remap_mem h) e

theorem execGNode_wf {g n cnt bar} (h : s.mem.wf = true) (e : execGNode g n cnt bar s = .next t) :
    t.mem.wf = true := by
  refine issue_wf h (fun k s h => ?_) e
  grind [engineTrap, State.updStream_mem]

theorem execGEdge_wf {g x y} (h : s.mem.wf = true) (e : execGEdge g x y s = .next t) : t.mem.wf = true := by
  refine issue_wf h (fun k s h => ?_) e
  grind [engineTrap, State.updBlock_mem]

theorem execGRun_wf {g bar} (h : s.mem.wf = true) (e : execGRun g bar s = .next t) : t.mem.wf = true := by
  refine issue_wf h (fun k s h => ?_) e
  grind [engineTrap, endRun_mem, State.setBlock_mem]

theorem execGReset_wf {g} (h : s.mem.wf = true) (e : execGReset g s = .next t) : t.mem.wf = true := by
  refine issue_wf h (fun k s h => ?_) e
  split
  · exact h
  · split
    · exact h
    · exact wf_of_mem (State.updBlock_mem _ _ _) h

/-! ### Helpers -/

@[simp] theorem addHelpers_mem {uid w rw rs l pc} : (addHelpers s uid w rw rs l pc).mem = s.mem := rfl

@[simp] theorem addHelperWeave_mem {uid rw rs core ws lfsr l pc} :
    (addHelperWeave s uid rw rs core ws lfsr l pc).mem = s.mem := rfl

@[simp] theorem placeHelpers_mem {uid rw rs lfsr places pc} :
    (placeHelpers s uid rw rs lfsr places pc).mem = s.mem := by
  unfold placeHelpers
  grind [addHelpers_mem, addHelperWeave_mem, foldl_mem]

theorem recruitLand_wf {a} (h : s.mem.wf = true) : (recruitLand s a).1.mem.wf = true := by
  unfold recruitLand
  grind [flush_wf, commitBuf_wf]

theorem recruitOpen_wf {k w r a} (h : s.mem.wf = true) : (recruitOpen k w r s a).mem.wf = true := by
  unfold recruitOpen
  grind [State.noteAll_mem, State.releaseAll_mem, State.updFib_mem, State.writeW_wf, placeHelpers_mem,
    State.post_mem]

theorem recruitOne_wf {x : State × List Trp × List Nat} {k w r again a} (h : x.1.mem.wf = true) :
    (recruitOne k w r again x a).1.mem.wf = true := by
  unfold recruitOne
  grind [recruitLand_wf, recruitOpen_wf]

@[simp] theorem mergeStarts_mem {s0 uid} : (mergeStarts s0 s uid).mem = s.mem := rfl

theorem recruitBody_keeps {r} : KeepsMemory (recruitBody r) := by
  intro k s h
  unfold recruitBody
  have go (w : Nat) (again : Bool) (l : List Actor) (t : State) (ht : t.mem.wf = true) :
      (l.foldl (recruitOne k w r again) (t, [], [])).1.mem.wf = true := foldl_fst_wf ht fun _ _ w =>
        recruitOne_wf w
  grind [mergeStarts_mem, targetCheck_wf, fetchEntry_wf]

@[simp] theorem applyOne_mem {uid rw c} : (applyOne s uid rw c).mem = s.mem := State.writeK_mem

@[simp] theorem applyPool_mem {n uid rw rs} : (applyPool n s uid rw rs).mem = s.mem := by
  induction n generalizing s with
  | zero => rfl
  | succ n ih =>
    unfold applyPool
    grind [applyOne_mem, foldl_mem, State.updFibre_mem]

theorem commitOwn_wf {w sl a} (h : s.mem.wf = true) : (commitOwn s w sl a).mem.wf = true := by
  unfold commitOwn
  split
  · exact commitBuf_wf h
  · exact commitSome_wf h

@[simp] theorem mergeFlags_mem {uid w f} : (mergeFlags s uid w f).mem = s.mem := by
  unfold mergeFlags
  split
  · split
    · exact State.updWeave_mem _ _ _ _
    · rfl
  · rfl

theorem commitIteration_wf {a} (h : s.mem.wf = true) : (commitIteration s a).mem.wf = true := by
  unfold commitIteration
  grind [commitOwn_wf, State.updFib_mem, State.updFibre_mem, applyPool_mem, wakeHwork_mem, mergeFlags_mem]

/-- The state a helper work step ends in, whatever its outcome. -/
def Worked.st : Worked → State
  | .done s | .gone s | .wait s | .trap s => s

theorem workOne_wf {f again a} (h : s.mem.wf = true) : (workOne f again s a).st.mem.wf = true := by
  unfold workOne
  dsimp only
  split
  · split
    · exact h
    · grind [commitIteration_wf, commitOwn_wf, helperGone_wf, poolFreed_mem, State.updFibre_mem,
        State.updFib_mem, State.writeW_wf, State.writeP_mem, Worked.st]
  · exact h

theorem workAll_wf {x : HAcc} {k f again l} (h : x.st.mem.wf = true) :
    (workAll k f x again l).st.mem.wf = true := by
  induction l generalizing x again with
  | nil => exact h
  | cons a r ih =>
    unfold workAll
    have one := workOne_wf (f := f) (again := again) (a := a) h
    grind [Worked.st]

theorem execHwork_wf {f} (h : s.mem.wf = true) (e : execHwork f s = .next t) : t.mem.wf = true := by
  refine issue_wf h (fun k s h => ?_) e
  split <;> exact workAll_wf h

@[simp] theorem hretOne_mem {x : State × List Trp} {k f op v a} : (hretOne k f op v x a).1.mem = x.1.mem := by
  unfold hretOne
  split
  · rfl
  · split
    · rfl
    · exact State.updFib_mem.trans State.releaseAll_mem

theorem execHret_wf {f op} (h : s.mem.wf = true) (e : execHret f op s = .next t) : t.mem.wf = true :=
  issue_wf h (fun _ _ h => wf_of_mem (foldl_fst_mem (fun _ _ => hretOne_mem)) (wf_of_mem State.noteAll_mem h)) e

theorem hendOne_wf {x : State × List Nat} {a} (h : x.1.mem.wf = true) : (hendOne x a).1.mem.wf = true := by
  unfold hendOne
  split
  · split
    · exact helperGone_wf (commitOwn_wf (commitIteration_wf (flush_wf h)))
    · exact h
  · exact h

theorem execHend_wf {g} (h : s.mem.wf = true) (e : execHend g s = .next t) : t.mem.wf = true :=
  issue_wf h (fun _ _ h => foldl_fst_wf h fun _ _ w => hendOne_wf w) e

/-! ### Fences -/

theorem fenceCommit_wf {a scope} (h : s.mem.wf = true) : (fenceCommit s a scope).mem.wf = true := by
  unfold fenceCommit
  split
  · exact commitBuf_wf h
  · exact h

theorem fenceBody_keeps {kind scope} : KeepsMemory (fenceBody kind scope) := by
  intro k s h
  unfold fenceBody
  split
  · exact foldl_wf h fun _ _ w => fenceCommit_wf w
  · split
    · exact wf_of_mem refreshAll_mem h
    · exact foldl_wf (wf_of_mem refreshAll_mem h) fun _ _ w => fenceCommit_wf w

theorem commitAll_wf {uid} (h : s.mem.wf = true) : (commitAll s uid).mem.wf = true := by
  unfold commitAll
  grind [commitBuf_wf, foldl_wf]

theorem farPacket_wf {uid y} (h : s.mem.wf = true) : (farPacket s uid y).mem.wf = true := by
  unfold farPacket
  dsimp only
  split
  · exact h
  · exact lateDelivery_wf h

theorem farTry_wf {q idx} (h : s.mem.wf = true) : (farTry q s idx).1.mem.wf = true := by
  unfold farTry
  grind [farPacket_wf, commitAll_wf, State.updBlock_mem]

theorem farTries_wf {q l} (h : s.mem.wf = true) : (farTries q s l).1.mem.wf = true := by
  induction l generalizing s with
  | nil => exact h
  | cons t r ih =>
    unfold farTries
    grind [farTry_wf]

theorem execFenceFar_wf {g scope} (h : s.mem.wf = true) (e : execFenceFar g scope s = .next t) :
    t.mem.wf = true := by
  refine issue_wf h (fun k s h => ?_) e
  have fenced := fenceBody_keeps (kind := .full) (scope := scope) k s h
  grind [farTries_wf, State.stamp_mem]

theorem pollBatch_wf {uid w i} (h : s.mem.wf = true) : (pollBatch s uid w i).mem.wf = true := by
  unfold pollBatch
  split
  · exact farTries_wf h
  · exact h

theorem pollStream_wf {uid} (h : s.mem.wf = true) : (pollStream s uid).mem.wf = true := by
  unfold pollStream
  split
  · exact farTries_wf h
  · exact h

@[simp] theorem letPass_mem {uid w} : (letPass s uid w).mem = s.mem := by
  unfold letPass
  split
  · split
    · exact State.updWeave_mem _ _ _ _
    · rfl
  · rfl

theorem pollFar_wf (h : s.mem.wf = true) : (pollFar s).mem.wf = true := by
  unfold pollFar
  grind [pollStream_wf, pollBatch_wf, letPass_mem, foldl_wf]

/-! ### Turns -/

theorem stepJoin_wf {uid w x b} (h : s.mem.wf = true) : (stepJoin s uid w x b).mem.wf = true := by
  unfold stepJoin
  dsimp only
  split
  · exact h
  · exact finish_wf h

@[simp] theorem startGate_mem {c} : (startGate s c).1.mem = s.mem := by
  unfold startGate
  split
  · rfl
  · dsimp only
    split
    · rfl
    · split
      · exact (State.updCore_mem _ _ _).trans (State.updRegion_mem _ _ _)
      · exact State.updRegion_mem _ _ _

@[simp] theorem gateFor_mem {c halts i} : (gateFor s c halts i).1.mem = s.mem := by
  unfold gateFor
  split
  · rfl
  · exact startGate_mem

@[simp] theorem gated_mem {x : State × Turned} {c halts} : (gated c halts x).1.mem = x.1.mem := by
  unfold gated
  grind [gateFor_mem]

theorem batchTurn_wf {uid w blk x b} (h : s.mem.wf = true) : (batchTurn s uid w blk x b).1.mem.wf = true := by
  unfold batchTurn
  grind [stepJoin_wf, fetchAt_wf, finish_wf]

theorem weaveTurn_wf {uid w} (h : s.mem.wf = true) : (weaveTurn s uid w).1.mem.wf = true := by
  unfold weaveTurn
  split
  · split
    · exact h
    · split
      · exact h
      · exact wf_of_mem gated_mem (batchTurn_wf h)
  · exact h

theorem streamFetch_wf {uid blk x} (h : s.mem.wf = true) : (streamFetch s uid blk x).1.mem.wf = true := by
  unfold streamFetch
  grind [fetchAt_wf, takeTrapSeq_wf]

theorem streamTurn_wf {uid} (h : s.mem.wf = true) : (streamTurn s uid).1.mem.wf = true := by
  unfold streamTurn
  split
  · split
    · exact wf_of_mem gated_mem (streamFetch_wf h)
    · exact wf_of_mem gated_mem (streamFetch_wf h)
    · exact h
  · exact h

theorem takeTurn_wf (h : s.mem.wf = true) : (takeTurn s).1.mem.wf = true := by
  unfold takeTurn
  split
  · exact h
  · exact weaveTurn_wf h
  · exact streamTurn_wf h

theorem passTurn_wf (h : s.mem.wf = true) : (passTurn s).mem.wf = true := by
  unfold passTurn
  dsimp only
  split <;> exact countLates_wf (pollFar_wf h)

/-! ### Launches -/

@[simp] theorem emptyL1_mem : (emptyL1 s).mem = s.mem := by
  unfold emptyL1
  grind [setL1_mem, foldl_mem]

theorem writeDone_wf {ctx l v} (h : s.mem.wf = true) : (writeDone s ctx l v).mem.wf = true := by
  unfold writeDone
  grind [devTranslate_wf, sendUz_mem, devWrite_wf, writeRecord_wf, State.tick_mem]

theorem closeLaunch_wf {ctx l v} (h : s.mem.wf = true) : (closeLaunch s ctx l v).mem.wf = true :=
  wf_of_mem emptyL1_mem (wf_of_mem (State.updCtx_mem _ _ _) (writeDone_wf h))

theorem reject_wf {ctx l reason} (h : s.mem.wf = true) : (reject s ctx l reason).mem.wf = true :=
  closeLaunch_wf h

theorem readMacros_wf {ctx table lens n} (h : s.mem.wf = true) :
    (readMacros s ctx table lens n).1.mem.wf = true := by
  induction lens generalizing s n with
  | nil => exact h
  | cons k r ih =>
    unfold readMacros
    grind [readVA_wf]

theorem readTable_wf {ctx kernel hdr} (h : s.mem.wf = true) : (readTable s ctx kernel hdr).1.mem.wf = true := by
  unfold readTable
  grind [readVA_wf, readMacros_wf]

theorem readMasks_wf {ctx n l} (h : s.mem.wf = true) : (readMasks s ctx n l).1.mem.wf = true := by
  induction l generalizing s n with
  | nil => exact h
  | cons x r ih =>
    unfold readMasks
    grind [readVA_wf]

theorem readyChecks_wf {ctx l} (h : s.mem.wf = true) : (readyChecks s ctx l).1.mem.wf = true := by
  unfold readyChecks
  grind [readVA_wf, readTable_wf, readMasks_wf]

theorem depWord_wf {ctx l} (h : s.mem.wf = true) : (depWord s ctx l).1.mem.wf = true := by
  unfold depWord
  grind [devTranslate_wf]

theorem readRecord_wf {ctx l} (h : s.mem.wf = true) : (readRecord s ctx l).1.mem.wf = true := by
  unfold readRecord
  grind [readVA_wf]

theorem makeReady_wf {ctx l} (h : s.mem.wf = true) : (makeReady s ctx l).mem.wf = true := by
  unfold makeReady
  grind [readyChecks_wf, State.updLaunch_mem, reject_wf]

theorem readyLaunch_wf {ctx queue} (h : s.mem.wf = true) (e : readyLaunch s ctx queue = some t) :
    t.mem.wf = true := by
  unfold readyLaunch at e
  grind [readRecord_wf, reject_wf, makeReady_wf, depWord_wf, State.updLaunch_mem]

theorem completeLaunch_wf {ctx lid} (h : s.mem.wf = true) (e : completeLaunch s ctx lid = some t) :
    t.mem.wf = true := by
  unfold completeLaunch at e
  split at e
  · cases e
  · split at e
    · cases e
      exact closeLaunch_wf h
    · cases e

theorem loadMacros_wf {c kernel hdr ctx macs} (h : s.mem.wf = true) :
    (loadMacros s c kernel hdr ctx macs).mem.wf = true := by
  unfold loadMacros
  dsimp only
  split
  · exact h
  · exact readTable_wf h

theorem placeOn_wf {ctx l hdr i relaunches c} (h : s.mem.wf = true) :
    (placeOn s ctx l hdr i relaunches c).mem.wf = true := loadMacros_wf h

/-! ### System instructions -/

theorem zonePackets_wf {k a} (h : s.mem.wf = true) : (zonePackets s k a).mem.wf = true := lateDelivery_wf h

theorem sysrOne_wf {x : MAcc} {k f ax r s0 a} (h : x.st.mem.wf = true) :
    (sysrOne k f ax r s0 x a).st.mem.wf = true := by
  unfold sysrOne
  grind [translate_wf, zonePackets_wf, State.releaseAll_mem, State.writeD_wf, MAcc.trap_st]

theorem execSysr_wf {f ax} (h : s.mem.wf = true) (e : execSysr f ax s = .next t) : t.mem.wf = true := by
  refine issue_wf h (fun k s h => ?_) e
  grind [sysrOne_wf, foldl_acc_wf, State.noteAll_mem, sysTrap]

@[simp] theorem setDegree_mem {z deg} : (setDegree s z deg).mem = s.mem := by
  unfold setDegree
  dsimp only
  split <;> rfl

@[simp] theorem writeRepl_mem {z v} : (writeRepl s z v).mem = s.mem := setDegree_mem

@[simp] theorem writeReplc_mem {z v} : (writeReplc s z v).mem = s.mem := rfl

theorem sysPut_mem {a r v} (e : sysPut s a r v = some t) : t.mem = s.mem := by
  unfold sysPut at e
  grind [State.updBlock_mem, State.updWeave_mem, State.updFib_mem, State.updStream_mem, State.post_mem,
    State.updTrap_mem, State.updCtx_mem]

theorem zoneForWrite_wf {uid c ctx va} (h : s.mem.wf = true) :
    (zoneForWrite s uid c ctx va).1.mem.wf = true := by
  unfold zoneForWrite
  grind [translate_wf]

theorem syswOne_wf {x : MAcc} {k f ax r s0 a} (h : x.st.mem.wf = true) :
    (syswOne k f ax r s0 x a).st.mem.wf = true := by
  unfold syswOne
  grind [zoneForWrite_wf, zonePackets_wf, writeRepl_mem, writeReplc_mem, sysPut_mem, State.releaseAll_mem,
    MAcc.trap_st]

@[simp] theorem noteFrom_mem {s0 pc acts srcs} : (noteFrom s0 s pc acts srcs).mem = s.mem :=
  foldl_mem fun _ _ => foldl_mem fun _ _ => State.noteDead_mem

theorem execSysw_wf {f ax} (h : s.mem.wf = true) (e : execSysw f ax s = .next t) : t.mem.wf = true := by
  refine issue_wf h (fun k s h => ?_) e
  grind [syswOne_wf, foldl_acc_wf, noteFrom_mem, sysTrap]

theorem execTread_wf {f} (h : s.mem.wf = true) (e : execTread f s = .next t) : t.mem.wf = true :=
  issue_wf h (fun _ _ h => foldl_wf h fun _ _ w => State.writeD_wf w) e

@[simp] theorem dropCode_mem {line} : (dropCode s line).mem = s.mem := rfl

theorem icinvOne_wf {x : MAcc} {k f s0 a} (h : x.st.mem.wf = true) :
    (icinvOne k f s0 x a).st.mem.wf = true := by
  unfold icinvOne
  grind [translate_wf, fenceCommit_wf, dropCode_mem, State.releaseAll_mem, MAcc.trap_st]

theorem execIcinv_wf {f al} (h : s.mem.wf = true) (e : execIcinv f al s = .next t) : t.mem.wf = true := by
  refine issue_wf h (fun k s h => ?_) e
  split
  · split
    · exact h
    · exact wf_of_mem dropCode_mem (foldl_wf h fun _ _ w => fenceCommit_wf w)
  · exact foldl_acc_wf (wf_of_mem State.noteAll_mem h) fun _ _ w => icinvOne_wf w

theorem loadWords_wf {a va n} (h : s.mem.wf = true) : (loadWords s a va n).1.mem.wf = true := by
  induction n generalizing s va with
  | zero => exact h
  | succ n ih =>
    unfold loadWords
    split
    · grind [checkAccess_wf]
    · rename_i t pa eq
      split
      · grind [checkAccess_wf]
      · have here : t.mem.wf = true := by grind [checkAccess_wf]
        have rest := ih (va := va + 8) (readBy_wf (uid := a.uid) (c := t.coreOf a) (pa := pa) here)
        dsimp only
        split <;> grind

theorem mcdefOne_wf {x : MAcc} {k f s0 a} (h : x.st.mem.wf = true) :
    (mcdefOne k f s0 x a).st.mem.wf = true := by
  unfold mcdefOne
  grind [loadWords_wf, State.releaseAll_mem, State.updCore_mem, MAcc.trap_st]

theorem execMcdef_wf {f} (h : s.mem.wf = true) (e : execMcdef f s = .next t) : t.mem.wf = true := by
  refine issue_wf h (fun k s h => ?_) e
  dsimp only
  split
  · exact h
  · exact foldl_acc_wf (wf_of_mem State.noteAll_mem h) fun _ _ w => mcdefOne_wf w

/-! ### Cache events -/

theorem missServe_wf {c line own} (h : s.mem.wf = true) (e : missServe s c line own = some t) :
    t.mem.wf = true := by
  unfold missServe at e
  split at e
  · cases e
  · split at e
    · cases e
    · cases e
      exact serveMiss_wf h

theorem missReply_mem {c line} (e : missReply s c line = some t) : t.mem = s.mem := by
  unfold missReply at e
  split at e
  · cases e
  · split at e
    · cases e
      exact deliverReply_mem
    · cases e

theorem probeCore_mem {c line} (e : probeCore s c line = some t) : t.mem = s.mem := by
  unfold probeCore at e
  split at e
  · cases e
    exact probeIf_mem
  · cases e

theorem writeBackLine_mem {c line} (e : writeBackLine s c line = some t) : t.mem = s.mem := by
  unfold writeBackLine at e
  split at e
  · cases e
    exact setL1_mem
  · cases e

theorem pushCore_mem {c line} (e : pushCore s c line = some t) : t.mem = s.mem := by
  unfold pushCore at e
  split at e
  · cases e
  · cases e
    rfl

theorem reviewZone_mem {z} (e : reviewZone s z = some t) : t.mem = s.mem := by
  unfold reviewZone at e
  dsimp only at e
  split at e
  · cases e
  · cases e
    exact (State.updZone_mem _ _ _).trans setDegree_mem

theorem walkPage_wf {ctx d vpn} (h : s.mem.wf = true) (e : walkPage s ctx d vpn = some t) :
    t.mem.wf = true := by
  unfold walkPage at e
  have reads : (walkReads s ctx (vpn * 4096) fun s a => readMiss s d (lineOf a)).mem.wf = true :=
    walkReads_wf h fun t a w => wf_of_mem readMiss_mem w
  grind [walkFor_wf, State.updDie_mem]

/-! ### The copy engine -/

theorem engineTouch_wf {uid pa} (h : s.mem.wf = true) : (engineTouch s uid pa).mem.wf = true := coreRead_wf h

@[simp] theorem engineRefused_mem {uid pa} : (engineRefused s uid pa).mem = s.mem := rfl

theorem engineStore_wf {uid pa data} (h : s.mem.wf = true) : (engineStore s uid pa data).mem.wf = true :=
  homeWrite_wf (lateDelivery_wf (storeAhead_wf (wf_of_mem State.setBuf_mem h)))

theorem engineRead_wf {uid k n va} (h : s.mem.wf = true) : (engineRead s uid k n va).1.mem.wf = true := by
  induction k generalizing s n va with
  | zero => exact h
  | succ k ih =>
    unfold engineRead
    grind [translate_wf, engineTouch_wf]

theorem readGlobal_wf {uid n va} (h : s.mem.wf = true) : (readGlobal s uid n va).1.mem.wf = true :=
  engineRead_wf h

theorem engineWrite_wf {uid k va data} (h : s.mem.wf = true) :
    (engineWrite s uid k va data).1.mem.wf = true := by
  induction k generalizing s va data with
  | zero => exact h
  | succ k ih =>
    unfold engineWrite
    grind [translate_wf, engineStore_wf, engineRefused_mem]

theorem writeGlobal_wf {uid va data} (h : s.mem.wf = true) : (writeGlobal s uid va data).1.mem.wf = true :=
  engineWrite_wf h

theorem engineAdd_wf {uid va} {first : State → State} (h : s.mem.wf = true)
    (hf : ∀ t, t.mem.wf = true → (first t).mem.wf = true) : (engineAdd s uid va first).1.mem.wf = true := by
  unfold engineAdd
  grind [translate_wf, engineStore_wf, engineRefused_mem]

theorem readRows_wf {uid fmt k ra rb rc n i} (h : s.mem.wf = true) :
    (readRows s uid fmt k ra rb rc n i).1.mem.wf = true := by
  induction n generalizing s i with
  | zero => exact h
  | succ n ih =>
    unfold readRows
    grind [readGlobal_wf]

theorem cpInData_wf {uid fmt k128 c} (h : s.mem.wf = true) : (cpInData s uid fmt k128 c).1.mem.wf = true := by
  unfold cpInData
  grind [readGlobal_wf, readRows_wf]

theorem resolvePair_wf {uid c} (h : s.mem.wf = true) : (resolvePair s uid c).1.mem.wf = true := by
  unfold resolvePair
  grind [readGlobal_wf]

theorem copyWork_wf {uid r} (h : s.mem.wf = true) : (copyWork s uid r).1.mem.wf = true := by
  unfold copyWork
  grind [cpInData_wf, writeRun_mem, writeGlobal_wf, lateDelivery_wf]

theorem copyEnd_wf {uid r} (h : s.mem.wf = true) : (copyEnd s uid r).1.mem.wf = true := by
  unfold copyEnd
  grind [commitBuf_wf, publish_mem, engineAdd_wf]

/-! ### Relaunches -/

theorem eventRecord_wf {b core cause addr aux ended relaunched} (h : s.mem.wf = true) :
    (eventRecord s b core cause addr aux ended relaunched).mem.wf = true := writeRecord_wf h

@[simp] theorem relaunchOne_mem {core uid} : (relaunchOne s core uid).mem = s.mem := by
  unfold relaunchOne
  split
  · rfl
  · exact dropBlock_mem

@[simp] theorem killOne_mem {uid} : (killOne s uid).mem = s.mem := by
  unfold killOne
  split
  · rfl
  · exact killBlock_mem

@[simp] theorem killSaved_mem {ctx lid is} : (killSaved s ctx lid is).mem = s.mem := by
  unfold killSaved
  grind [State.updCtx_mem, State.updLaunch_mem, leaveRoots_mem, foldl_mem]

theorem relaunchRule_wf {uid c cause addr aux} (h : s.mem.wf = true) :
    (relaunchRule s uid c cause addr aux).mem.wf = true := by
  unfold relaunchRule
  grind [eventRecord_wf, relaunchOne_mem, State.updLaunch_mem, killSaved_mem, killOne_mem, foldl_wf]

theorem relaunchSaved_wf {c b cause addr aux} (h : s.mem.wf = true) :
    (relaunchSaved s c b cause addr aux).mem.wf = true :=
  wf_of_mem killSaved_mem (foldl_wf (eventRecord_wf h) fun _ _ w => wf_of_mem killOne_mem w)

theorem relaunchEvent_wf {uid c cause addr aux} (h : s.mem.wf = true)
    (e : relaunchEvent s uid c cause addr aux = some t) : t.mem.wf = true := by
  unfold relaunchEvent at e
  grind [eventRecord_wf, relaunchRule_wf, relaunchSaved_wf]

/-! ### Trap events, demotion and helper events -/

theorem enterCmdErr_wf {uid} (h : s.mem.wf = true) (e : enterCmdErr s uid = some t) : t.mem.wf = true := by
  unfold enterCmdErr at e
  split at e
  · cases e
  · split at e
    · split at e
      · cases e
        exact takeTrapSeq_wf (wf_of_mem (State.updStream_mem _ _ _) h)
      · cases e
    · cases e

theorem stopAtBkp_wf {n} (h : s.mem.wf = true) (e : stopAtBkp s n = some t) : t.mem.wf = true := by
  unfold stopAtBkp at e
  grind [finish_wf]

theorem execTransfer_wf {i} (h : s.mem.wf = true) (e : execTransfer i s = some (.next t)) :
    t.mem.wf = true := by
  unfold execTransfer at e
  split at e
  · exact issue_wf h bra_keeps (Option.some.inj e)
  · exact issue_wf h call_keeps (Option.some.inj e)
  · exact issue_wf h indirect_keeps (Option.some.inj e)
  · exact issue_wf h indirect_keeps (Option.some.inj e)
  · contradiction

theorem watchdogTrap_wf (h : s.mem.wf = true) (e : watchdogTrap s = some t) : t.mem.wf = true := by
  unfold watchdogTrap at e
  grind [takeTurn_wf, execTransfer_wf]

@[simp] theorem recordOk_mem {ctx seq} : (recordOk s ctx seq).mem = s.mem := foldl_mem fun _ _ => wakeHwork_mem

theorem batchFails_wf {uid w seq} (h : s.mem.wf = true) : (batchFails s uid w seq).mem.wf = true := by
  unfold batchFails
  split
  · exact h
  · exact takeTrap_wf h

theorem helperFails_wf {uid w sl seq} (h : s.mem.wf = true) : (helperFails s uid w sl seq).mem.wf = true := by
  unfold helperFails
  grind [recruiterTrap_wf, wakeHwork_mem, State.updFibre_mem]

theorem blockFails_wf {uid seq} (h : s.mem.wf = true) : (blockFails s uid seq).mem.wf = true := by
  unfold blockFails
  grind [helperFails_wf, batchFails_wf, takeTrapSeq_wf, foldl_wf]

theorem completeRecord_wf {ctx seq} (h : s.mem.wf = true) (e : completeRecord s ctx seq = some t) :
    t.mem.wf = true := by
  unfold completeRecord at e
  grind [State.updCtx_mem, recordOk_mem, blockFails_wf, foldl_wf]

theorem demote_mem {uid w} (e : demote s uid w = some t) : t.mem = s.mem := by
  unfold demote at e
  split at e
  · split at e
    · cases e
      exact State.updWeave_mem _ _ _ _
    · cases e
  · cases e

theorem promote_wf {c} (h : s.mem.wf = true) (e : promote s c = some t) : t.mem.wf = true := by
  unfold promote at e
  split at e
  · cases e
  · split at e
    · cases e
    · cases e
      exact wf_of_mem (State.updWeave_mem _ _ _ _) (fillWeave_wf h)

theorem startHelpers_mem {uid key} (e : startHelpers s uid key = some t) : t.mem = s.mem := by
  unfold startHelpers at e
  split at e
  · cases e
  · split at e
    · cases e
      exact State.updBlock_mem _ _ _
    · cases e

theorem askRelease_wf {uid w} (h : s.mem.wf = true) (e : askRelease s uid w = some t) : t.mem.wf = true := by
  unfold askRelease at e
  grind [State.updFibre_mem, releaseHelper_wf, foldl_wf]

theorem askRelease_getD_wf {uid w} (h : s.mem.wf = true) : ((askRelease s uid w).getD s).mem.wf = true := by
  cases e : askRelease s uid w with
  | none => exact h
  | some t => exact askRelease_wf h e

theorem resumeRecruiter_wf {uid key} (h : s.mem.wf = true) (e : resumeRecruiter s uid key = some t) :
    t.mem.wf = true := by
  unfold resumeRecruiter at e
  grind [State.updFibre_mem, State.updWeave_mem, State.unspill_mem, recruitReady_mem, State.writeW_wf]

/-! ### Save and restore -/

@[simp] theorem State.updRoot_mem {tree f} : (s.updRoot tree f).mem = s.mem := by
  unfold State.updRoot
  split <;> rfl

@[simp] theorem State.updSeg_mem {d tree f} : (s.updSeg d tree f).mem = s.mem := rfl

@[simp] theorem withdraw_mem {d tree} : (withdraw s d tree).mem = s.mem := by
  unfold withdraw
  split
  · exact State.updRoot_mem
  · rfl

@[simp] theorem joinTrees_mem {ctx d} : (joinTrees s ctx d).mem = s.mem := by
  unfold joinTrees
  grind [withdraw_mem, foldl_mem]

@[simp] theorem goAbsent_mem {uid b} : (goAbsent s uid b).mem = s.mem := by
  unfold goAbsent
  grind [State.post_mem, foldl_mem]

@[simp] theorem comeBack_mem {uid b} : (comeBack s uid b).mem = s.mem := by
  unfold comeBack
  grind [State.post_mem, foldl_mem]

theorem askAll_wf {uid b} (h : s.mem.wf = true) : (askAll s uid b).mem.wf = true :=
  foldl_wf h fun _ _ w => askRelease_getD_wf w

theorem beginSave_wf {uid frame why} (h : s.mem.wf = true) : (beginSave s uid frame why).mem.wf = true := by
  unfold beginSave
  split
  · exact h
  · exact wf_of_mem goAbsent_mem (wf_of_mem (State.updBlock_mem _ _ _) (askAll_wf h))

theorem saveLand_wf {a} (h : s.mem.wf = true) : (saveLand s a).mem.wf = true :=
  landSel_wf (foldl_wf h fun _ _ w => wf_of_mem completeOp_mem w)

@[simp] theorem countDropped_mem {uid} : (countDropped s uid).mem = s.mem := rfl

@[simp] theorem takeMsgs_mem {uid c} : (takeMsgs s uid c).1.mem = s.mem := rfl

theorem settleBlock_wf {uid} (h : s.mem.wf = true) : (settleBlock s uid).mem.wf = true := by
  unfold settleBlock
  split
  · exact h
  · exact forcedCommit_wf (foldl_wf (foldl_wf h fun _ _ w => fillWeave_wf w) fun _ _ w => saveLand_wf w)

theorem finishSave_wf {uid frame why} (h : s.mem.wf = true) : (finishSave s uid frame why).mem.wf = true := by
  unfold finishSave
  grind [settleBlock_wf, takeMsgs_mem, unplace_mem]

@[simp] theorem dcDone_mem {d res} : (dcDone s d res).mem = s.mem := rfl

theorem saveStep_wf {c frame} (h : s.mem.wf = true) (e : saveStep s c frame = some t) : t.mem.wf = true := by
  unfold saveStep at e
  grind [askAll_wf, finishSave_wf, dcDone_mem, beginSave_wf]

theorem rebind_wf {a n y} (h : s.mem.wf = true) : (rebind s a n y).mem.wf = true := by
  unfold rebind
  grind [State.updFib_mem, translate_wf, bindTouch_mem, readBy_wf, State.updWeave_mem]

theorem rebindAll_wf {uid} (h : s.mem.wf = true) : (rebindAll s uid).mem.wf = true := by
  unfold rebindAll
  split
  · exact h
  · exact foldl_wf (wf_of_mem (State.updBlock_mem _ _ _) h) fun _ _ w => rebind_wf w

theorem seatBlock_wf {uid c landing b} (h : s.mem.wf = true) : (seatBlock s uid c landing b).mem.wf = true :=
  wf_of_mem comeBack_mem (rebindAll_wf (wf_of_mem (State.updCore_mem _ _ _) (loadMacros_wf h)))

theorem restoreOn_wf {frame c f b} (h : s.mem.wf = true) : (restoreOn s frame c f b).mem.wf = true :=
  seatBlock_wf h

theorem failFrame_wf {frame b} (h : s.mem.wf = true) : (failFrame s frame b).mem.wf = true := relaunchSaved_wf h

@[simp] theorem restoreResult_mem {d n cmd} : (restoreResult s d n cmd).mem = s.mem := by
  unfold restoreResult
  split
  · rfl
  · split <;> rfl

theorem restoreFrame_wf {d i frame cmd} (h : s.mem.wf = true)
    (e : restoreFrame s d i frame cmd = some t) : t.mem.wf = true := by
  unfold restoreFrame at e
  grind [restoreResult_mem, failFrame_wf, restoreOn_wf]

theorem restoreStep_wf {d i frame} (h : s.mem.wf = true) (e : restoreStep s d i frame = some t) :
    t.mem.wf = true := by
  unfold restoreStep at e
  grind [dcDone_mem, restoreFrame_wf]

@[simp] theorem setMask_mem {c v} : (setMask s c v).mem = s.mem := rfl

theorem retireBlocks_wf {c} (h : s.mem.wf = true) : (retireBlocks s c).mem.wf = true := by
  unfold retireBlocks
  grind [beginSave_wf, restoreResult_mem, relaunchSaved_wf, foldl_wf]

theorem retireStep_wf {c} (h : s.mem.wf = true) (e : retireStep s c = some t) : t.mem.wf = true := by
  unfold retireStep at e
  grind [State.updCore_mem, retireBlocks_wf, State.updDie_mem, dcDone_mem, setMask_mem]

@[simp] theorem unbar_mem {c} : (unbar s c).mem = s.mem := rfl

theorem returnStep_mem {c} (e : returnStep s c = some t) : t.mem = s.mem := by
  unfold returnStep at e
  dsimp only at e
  split at e
  · split at e
    · cases e
    · cases e
      exact dcDone_mem.trans ((State.updCore_mem _ _ _).trans (unbar_mem.trans setMask_mem))
  · cases e

/-! ### Dies -/

@[simp] theorem writeDccmd_mem {d v} : (writeDccmd s d v).mem = s.mem := by
  unfold writeDccmd
  grind [dcDone_mem, State.post_mem, State.updDie_mem]

@[simp] theorem clearChan_mem {k v} : (clearChan s k v).mem = s.mem := rfl

@[simp] theorem writeInval_mem {d v} : (writeInval s d v).mem = s.mem := by
  unfold writeInval
  split <;> rfl

@[simp] theorem writeRegion_mem {r off v} : (writeRegion s r off v).mem = s.mem := rfl

@[simp] theorem writeReg_mem {d off v} : (writeReg s d off v).mem = s.mem := by
  unfold writeReg
  grind [writeDccmd_mem, State.updDie_mem, writeInval_mem, clearChan_mem, writeRegion_mem]

@[simp] theorem dropPage_mem {d ctx page all} : (dropPage s d ctx page all).mem = s.mem := rfl

theorem invalidate_mem {d ctx page all} (e : invalidate s d ctx page all = some t) : t.mem = s.mem := by
  unfold invalidate at e
  dsimp only at e
  split at e
  · cases e
  · cases e
    exact (State.updDie_mem _ _ _).trans dropPage_mem

@[simp] theorem rehome_mem {d eng} : (rehome s d eng).mem = s.mem := by
  unfold rehome
  split <;> rfl

@[simp] theorem freshZones_mem {was} : (freshZones s was).mem = s.mem := rfl

@[simp] theorem evictBlock_mem {uid} : (evictBlock s uid).mem = s.mem := by
  unfold evictBlock
  split
  · rfl
  · dsimp only
    split
    · exact foldl_mem fun _ _ => relaunchOne_mem
    · exact killSaved_mem.trans (foldl_mem fun _ _ => killOne_mem)

@[simp] theorem dropQueues_mem {d} : (dropQueues s d).mem = s.mem := foldl_mem fun _ _ => countDropped_mem

@[simp] theorem dropCaches_mem {d} : (dropCaches s d).mem = s.mem := rfl

@[simp] theorem fenceDie_mem {d forced} : (fenceDie s d forced).mem = s.mem := by
  unfold fenceDie
  grind [poisonLine_mem, toHome_mem, dropCaches_mem, dropQueues_mem, State.updDie_mem, foldl_mem]

@[simp] theorem rehomeDie_mem {d} : (rehomeDie s d).mem = s.mem := by
  unfold rehomeDie
  grind [rehome_mem, homeTouch_mem, State.updDie_mem, freshZones_mem, foldl_mem]

theorem resetStep_wf {d} (h : s.mem.wf = true) (e : resetStep s d = some t) : t.mem.wf = true := by
  unfold resetStep at e
  grind [rehomeDie_mem, evictBlock_mem, fenceDie_mem, askRelease_getD_wf, foldl_wf, State.updDie_mem,
    State.updBlock_mem]

theorem expireDrain_mem {d} (e : expireDrain s d = some t) : t.mem = s.mem := by
  unfold expireDrain at e
  dsimp only at e
  split at e
  · cases e
  · cases e
    exact fenceDie_mem.trans (foldl_mem fun _ _ => evictBlock_mem)

theorem returnDie_mem {d} (e : returnDie s d = some t) : t.mem = s.mem := by
  unfold returnDie at e
  split at e
  · cases e
    exact dcDone_mem.trans (State.updDie_mem _ _ _)
  · cases e

@[simp] theorem retireSlice_mem {d n} : (retireSlice s d n).mem = s.mem := by
  unfold retireSlice
  dsimp only
  split
  · rfl
  · split
    · exact State.updDie_mem _ _ _
    · exact (foldl_mem (fun _ _ => homeTouch_mem)).trans (State.updDie_mem _ _ _)

@[simp] theorem logCrossing_mem {d} : (logCrossing s d).mem = s.mem := rfl

theorem sliceErrors_mem {d n} (e : sliceErrors s d n = some t) : t.mem = s.mem := by
  unfold sliceErrors at e
  grind [retireSlice_mem, State.updDie_mem, logCrossing_mem]

theorem sliceStep_mem {d n} (e : sliceStep s d n = some t) : t.mem = s.mem := by
  unfold sliceStep at e
  grind [dcDone_mem, retireSlice_mem, sliceErrors_mem]

/-! ### The matrix engine -/

@[simp] theorem mmWork_mem {uid r abuf bbuf tile ow tri ia} :
    (mmWork s uid r abuf bbuf tile ow tri ia).1.mem = s.mem := by
  unfold mmWork
  grind [State.updBlock_mem]

@[simp] theorem arrayWork_mem {uid r} : (arrayWork s uid r).1.mem = s.mem := by
  unfold arrayWork
  split
  · exact mmWork_mem
  · exact State.updBlock_mem _ _ _
  · exact State.updBlock_mem _ _ _
  · exact (State.updBlock_mem _ _ _).trans (publish_mem.trans writeRun_mem)
  · rfl

/-! ### Queues -/

@[simp] theorem serveQueues_mem {uid} : (serveQueues s uid).mem = s.mem := rfl

@[simp] theorem popLand_mem {i k waited d part vals} : (popLand i k waited s d part vals).st.mem = s.mem := by
  unfold popLand
  grind [State.openOp_mem, State.addPend_mem, foldl_mem, refreshAll_mem]

@[simp] theorem doPush_mem {k f nb fib} : (doPush k f nb fib s).st.mem = s.mem := by
  unfold doPush
  grind [State.releaseAll_mem, State.noteAll_mem, State.writeP_mem, State.updBlock_mem, State.stamp_mem,
    serveQueues_mem, foldl_mem, queueTrap]

@[simp] theorem doPop_mem {i k f nb fib} : (doPop i k f nb fib s).st.mem = s.mem := by
  unfold doPop
  grind [popLand_mem, State.writeP_mem, State.updBlock_mem, State.stamp_mem, serveQueues_mem, foldl_mem,
    queueTrap]

@[simp] theorem pushed_mem {k f nb fib ok} : (pushed k f nb fib ok s).st.mem = s.mem := by
  unfold pushed
  split
  · exact (foldl_mem (fun _ _ => State.releaseAll_mem)).trans State.noteAll_mem
  · exact doPush_mem

@[simp] theorem popped_mem {i k f nb fib ok vals bad} : (popped i k f nb fib ok vals bad s).st.mem = s.mem := by
  unfold popped
  split
  · exact popLand_mem
  · exact doPop_mem

theorem execQpush_wf {f nb} (h : s.mem.wf = true) (e : execQpush f nb s = .next t) : t.mem.wf = true := by
  refine issue_wf h (fun k s h => ?_) e
  split
  · exact wf_of_mem pushed_mem h
  · exact wf_of_mem doPush_mem h

theorem execQpop_wf {f nb} (h : s.mem.wf = true) (e : execQpop f nb s = .next t) : t.mem.wf = true := by
  refine issue_wf h (fun k s h => ?_) e
  split
  · exact wf_of_mem popped_mem h
  · exact wf_of_mem doPop_mem h

theorem execSpush_wf {f nb} (h : s.mem.wf = true) (e : execSpush f nb s = .next t) : t.mem.wf = true := by
  refine issue_wf h (fun k s h => ?_) e
  split
  · exact wf_of_mem pushed_mem h
  · exact wf_of_mem doPush_mem h

theorem execSpop_wf {f nb} (h : s.mem.wf = true) (e : execSpop f nb s = .next t) : t.mem.wf = true := by
  refine issue_wf h (fun k s h => ?_) e
  split
  · exact wf_of_mem popped_mem h
  · exact wf_of_mem doPop_mem h

/-! ### Command events -/

theorem peerRefused_wf {uid} (h : s.mem.wf = true) : (peerRefused s uid).mem.wf = true := lateDelivery_wf h

theorem takeRun_mem {r q n keep} {b : Block} (e : takeRun s b r n keep = .ok (t, q)) : t.mem = s.mem := by
  unfold takeRun at e
  grind [State.updAnywhere_mem]

@[simp] theorem beginRun_mem {uid r err} : (beginRun s uid r err).mem = s.mem := by
  unfold beginRun
  split
  · exact wakeEngines_mem
  · exact wakeEngines_mem

theorem startOn_wf {uid b c target y} (h : s.mem.wf = true) : (startOn s uid b c target y).mem.wf = true := by
  unfold startOn
  grind [resolvePair_wf, beginRun_mem, takeRun_mem]

theorem startCmd_wf {uid eng} (h : s.mem.wf = true) (e : startCmd s uid eng = some t) : t.mem.wf = true := by
  unfold startCmd at e
  grind [beginRun_mem, peerRefused_wf, State.setBlock_mem, startOn_wf]

theorem finishCmd_wf {uid r} (h : s.mem.wf = true) : (finishCmd s uid r).1.mem.wf = true := by
  unfold finishCmd
  grind [arrayWork_mem, copyWork_wf, copyEnd_wf]

theorem completeCmd_wf {uid id} (h : s.mem.wf = true) (e : completeCmd s uid id = some t) :
    t.mem.wf = true := by
  unfold completeCmd at e
  grind [State.post_mem, peerRefused_wf, finishCmd_wf, retireCmd_wf]

theorem execCommandError_wf {uid cmd inner} (h : s.mem.wf = true)
    (e : execCommandError uid cmd inner s = .next t) : t.mem.wf = true := by
  obtain ⟨r, -, rfl⟩ := Option.map_eq_some_iff.mp (event_eq_next e)
  exact failCmd_wf h

theorem endStream_wf {uid} (h : s.mem.wf = true) (e : endStream s uid = some t) : t.mem.wf = true := by
  unfold endStream at e
  grind [State.updStream_mem, flush_wf, endedError_wf, tryEnd_wf, wakeIf_mem]

/-! ### Barrier trees -/

@[simp] theorem markArrived_mem {uid tree} : (markArrived s uid tree).mem = s.mem := rfl

theorem execTarr_wf {f rd tree} (h : s.mem.wf = true) (e : execTarr f rd tree s = .next t) :
    t.mem.wf = true := by
  refine issue_wf h (fun k s h => ?_) e
  split
  · exact h
  · split
    · exact h
    · split
      · exact foldl_wf (wf_of_mem markArrived_mem (commitBuf_wf h)) fun _ _ w => State.writeD_wf w
      · exact wf_of_mem markArrived_mem (commitBuf_wf h)

theorem execTwait_wf {f tree} (h : s.mem.wf = true) (e : execTwait f tree s = .next t) : t.mem.wf = true := by
  refine issue_wf h (fun k s h => ?_) e
  split
  · exact wf_of_mem barComplete_mem h
  · split
    · exact h
    · dsimp only
      split
      · exact wf_of_mem barComplete_mem (wf_of_mem State.consume_mem h)
      · exact wf_of_mem State.consume_mem h

theorem noteAbsent_mem {tree uid} (e : noteAbsent s tree uid = some t) : t.mem = s.mem := by
  unfold noteAbsent at e
  split at e
  · cases e
  · split at e
    · cases e
      exact State.updRoot_mem
    · cases e

theorem notePresent_mem {tree uid} (e : notePresent s tree uid = some t) : t.mem = s.mem := by
  unfold notePresent at e
  split at e
  · cases e
  · split at e
    · cases e
    · cases e
      split
      · exact State.updRoot_mem
      · exact withdraw_mem.trans State.updRoot_mem

theorem reportDie_mem {tree d} (e : reportDie s tree d = some t) : t.mem = s.mem := by
  unfold reportDie at e
  split at e
  · cases e
  · cases e
    exact State.updRoot_mem.trans State.updSeg_mem

theorem completeRound_mem {tree} (e : completeRound s tree = some t) : t.mem = s.mem := by
  unfold completeRound at e
  dsimp only at e
  split at e
  · cases e
    exact State.updRoot_mem
  · cases e

theorem releaseRound_mem {tree d} (e : releaseRound s tree d = some t) : t.mem = s.mem := by
  unfold releaseRound at e
  split at e
  · cases e
  · cases e
    exact (foldl_mem (fun _ _ => wakeIf_mem.trans (State.updBlock_mem _ _ _))).trans State.updSeg_mem

/-! ### Messages -/

theorem msgServed_wf {m} (h : s.mem.wf = true) : (msgServed s m).mem.wf = true := by
  unfold msgServed
  split
  · exact latePacket_wf h
  · exact h

theorem answerPackets_wf {m refused} (h : s.mem.wf = true) : (answerPackets s m refused).mem.wf = true := by
  unfold answerPackets
  split
  · exact msgServed_wf (msgServed_wf h)
  · exact msgServed_wf h

theorem offer_mem {m} (e : offer s m = .accepted t) : t.mem = s.mem := by
  unfold offer at e
  grind [countDropped_mem, State.updCore_mem]

@[simp] theorem setSending_mem {uid w y} : (setSending s uid w y).mem = s.mem := rfl

@[simp] theorem sendOutcome_mem {uid w sl pred v} : (sendOutcome s uid w sl pred v).mem = s.mem := by
  unfold sendOutcome
  split
  · exact State.writeP_mem
  · rfl

theorem deliver_wf {uid w again} (h : s.mem.wf = true) (e : deliver s uid w again = some t) :
    t.mem.wf = true := by
  unfold deliver at e
  split at e
  · split at e
    · contradiction
    · rw [Option.ite_none_left_eq_some] at e
      grind [offer_mem, answerPackets_wf, sendOutcome_mem, setSending_mem, State.updFibre_mem,
        State.updBlock_mem]
  · contradiction

@[simp] theorem startHandler_mem {c uid b m n ws} : (startHandler s c uid b m n ws).mem = s.mem := rfl

theorem handleHead_wf {c} (h : s.mem.wf = true) (e : handleHead s c = some t) : t.mem.wf = true := by
  unfold handleHead at e
  grind [countDropped_mem, State.updCore_mem, msgServed_wf, relieve_wf, startHandler_mem]

/-! ### Migration -/

theorem moveAddrs_wf {k f} (h : s.mem.wf = true) : (moveAddrs k s f).1.mem.wf = true := by
  refine foldl_fst_wf h fun x a w => ?_
  grind [translate_wf]

@[simp] theorem outcome_mem {k f v} : (outcome k s f v).mem = s.mem := foldl_mem fun _ _ => State.writeP_mem

@[simp] theorem moved_mem {k f c} : (moved k s f c).st.mem = s.mem := by
  unfold moved
  split
  · exact (foldl_mem (fun _ _ => refresh_mem)).trans outcome_mem
  · exact outcome_mem

theorem depart_wf {k b c} (h : s.mem.wf = true) : (depart k s b c).st.mem.wf = true :=
  wf_of_mem (State.post_mem _ _) (wf_of_mem goAbsent_mem (settleBlock_wf h))

theorem migrateBody_wf {k f addrs} (h : s.mem.wf = true) : (migrateBody k s f addrs).st.mem.wf = true := by
  unfold migrateBody
  grind [outcome_mem, refreshAll_mem, depart_wf]

theorem execMigrate_wf {f} (h : s.mem.wf = true) (e : execMigrate f s = .next t) : t.mem.wf = true := by
  refine issue_wf h (fun k s h => ?_) e
  grind [moved_mem, moveAddrs_wf, migrateBody_wf, foldl_mem, State.noteAll_mem, State.releaseAll_mem,
    State.writeP_mem]

@[simp] theorem endMove_mem {uid} : (endMove s uid).mem = s.mem := rfl

theorem arriveMigrated_wf {uid} (h : s.mem.wf = true) (e : arriveMigrated s uid = some t) :
    t.mem.wf = true := by
  unfold arriveMigrated at e
  grind [comeBack_mem, endMove_mem, takeMsgs_mem, seatBlock_wf, unplace_mem]

/-! ### Placing blocks -/

@[simp] theorem drawCore_mem {draw l} : (drawCore s draw l).1.mem = s.mem := by
  unfold drawCore
  dsimp only
  split <;> rfl

theorem placeOne_wf {ctx l hdr i c} (h : s.mem.wf = true) : (placeOne s ctx l hdr i c).mem.wf = true := by
  unfold placeOne
  split
  · split
    · exact restoreOn_wf h
    · exact h
  · exact wf_of_mem joinTrees_mem (placeOn_wf h)

theorem placeAll_wf {draw ctx lid hdr g cores l} (h : s.mem.wf = true)
    (e : placeAll s draw ctx lid hdr g cores l = some t) : t.mem.wf = true := by
  induction l generalizing s with
  | nil => unfold placeAll at e; grind
  | cons i r ih =>
    unfold placeAll at e
    grind [failFrame_wf, drawCore_mem, placeOne_wf]

theorem placeNextOf_wf {d ctx l} (h : s.mem.wf = true) (e : placeNextOf s d ctx l = some t) :
    t.mem.wf = true := by
  unfold placeNextOf at e
  split at e
  · dsimp only at e
    split at e
    · exact placeAll_wf h e
    · split at e
      · contradiction
      · obtain ⟨cores, -, e⟩ := List.exists_of_findSome?_eq_some e
        grind [placeAll_wf]
  · contradiction

theorem placeFirst_wf {d l} (h : s.mem.wf = true) (e : placeFirst s d l = some t) : t.mem.wf = true := by
  induction l with
  | nil => unfold placeFirst at e; grind
  | cons x r ih =>
    unfold placeFirst at e
    grind [placeNextOf_wf]

theorem placeBlock_wf {d} (h : s.mem.wf = true) (e : placeBlock s d = some t) : t.mem.wf = true := by
  unfold placeBlock at e
  grind [placeFirst_wf]

theorem preemptAll_wf {l} (h : s.mem.wf = true) : (preemptAll s l).mem.wf = true := by
  induction l generalizing s with
  | nil => exact h
  | cons x r ih =>
    unfold preemptAll
    grind [beginSave_wf, State.updCore_mem]

theorem preemptStep_wf {d} (h : s.mem.wf = true) (e : preemptStep s d = some t) : t.mem.wf = true := by
  unfold preemptStep at e
  grind [preemptAll_wf]

/-! ### Power -/

@[simp] theorem countCorrected_mem {line} : (countCorrected s line).mem = s.mem := by
  unfold countCorrected
  dsimp only
  split <;> rfl

@[simp] theorem failLine_mem {line} : (failLine s line).mem = s.mem := by
  unfold failLine
  split <;> rfl

theorem scrubLine_mem {line r} (e : scrubLine s line r = some t) : t.mem = s.mem := by
  unfold scrubLine at e
  grind [countCorrected_mem, failLine_mem]

@[simp] theorem regionStep_mem {r} : (regionStep s r).mem = s.mem :=
  (foldl_mem (fun _ _ => State.updCore_mem _ _ _)).trans (State.updRegion_mem _ _ _)

@[simp] theorem oneStep_mem : (oneStep s).mem = s.mem := by
  unfold oneStep
  grind [regionStep_mem, foldl_mem]

@[simp] theorem manySteps_mem {n} : (manySteps n s).mem = s.mem := by
  induction n generalizing s with
  | zero => rfl
  | succ n ih => exact ih.trans oneStep_mem

@[simp] theorem readmit_mem : (readmit s).mem = s.mem := by
  unfold readmit
  split
  · rfl
  · dsimp only
    split
    · exact State.tick_mem _
    · exact State.updDie_mem _ _ _

theorem passBoundary_mem (e : passBoundary s = some t) : t.mem = s.mem := by
  unfold passBoundary at e
  split at e
  · cases e
    exact readmit_mem.trans manySteps_mem
  · cases e

@[simp] theorem everyBlock_mem {f} : (everyBlock s f).mem = s.mem := rfl

theorem alarm_mem {r} (e : alarm s r = some t) : t.mem = s.mem := by
  unfold alarm at e
  grind [State.updRegion_mem, everyBlock_mem, foldl_mem]

@[simp] theorem endHold_mem {n} : (endHold s n).mem = s.mem := rfl

theorem recover_mem {r} (e : recover s r = some t) : t.mem = s.mem := by
  unfold recover at e
  dsimp only at e
  split at e
  · cases e
  · cases e
    exact everyBlock_mem.trans ((foldl_mem (fun _ _ => endHold_mem)).trans (State.updRegion_mem _ _ _))

theorem expireHold_mem {r} (e : expireHold s r = some t) : t.mem = s.mem := by
  unfold expireHold at e
  split at e
  · cases e
    exact everyBlock_mem
  · cases e

/-! ### Page tables: `zeroRange` removes a range -/

/-- Removing a range leaves the rest in order. -/
theorem zeroRange_wf {lo n} (h : s.mem.wf = true) : (zeroRange s lo n).mem.wf = true := Memory.wf_filter _ h

@[simp] theorem tagZones_mem {ctx pa n} : (tagZones s ctx pa n).mem = s.mem :=
  foldl_mem fun _ _ => State.updZone_mem _ _ _

theorem giveRange_wf {a ctx d n align} (h : s.mem.wf = true)
    (e : giveRange s ctx d n align = some (t, a)) : t.mem.wf = true := by
  unfold giveRange at e
  dsimp only at e
  split at e
  · contradiction
  · cases e
    rw [tagZones_mem]
    exact zeroRange_wf h

theorem giveSomewhere_wf {a ctx n align} (h : s.mem.wf = true)
    (e : giveSomewhere s ctx n align = some (t, a)) : t.mem.wf = true := by
  obtain ⟨d, -, e⟩ := List.exists_of_findSome?_eq_some e
  exact giveRange_wf (s := s.tick) h e

theorem tablePage_wf {a ctx} (h : s.mem.wf = true) (e : tablePage s ctx = some (t, a)) : t.mem.wf = true := by
  unfold tablePage at e
  dsimp only at e
  split at e
  · cases e; exact h
  · obtain ⟨⟨u, b⟩, eu, et⟩ := Option.map_eq_some_iff.mp e
    have given := giveSomewhere_wf h eu
    cases et; exact given

theorem writePte_wf {a v} (h : s.mem.wf = true) : (writePte s a v).mem.wf = true := devWrite_wf h

theorem setLeaf_wf {ctx va target pte lvl table} (h : s.mem.wf = true)
    (e : setLeaf s ctx va target pte lvl table = some t) : t.mem.wf = true := by
  induction lvl generalizing s table with
  | zero => unfold setLeaf at e; grind [writePte_wf]
  | succ l ih =>
    unfold setLeaf at e
    grind [writePte_wf, tablePage_wf]

theorem editLeaf_wf {root va f} (h : s.mem.wf = true) : (editLeaf s root va f).mem.wf = true := by
  unfold editLeaf
  grind [writePte_wf, foldl_wf]

theorem editRange_wf {root va n f} (h : s.mem.wf = true) : (editRange s root va n f).mem.wf = true :=
  foldl_wf h fun _ _ w => editLeaf_wf w

theorem mapPages_wf {ctx root perm pgsz present k va pa} (h : s.mem.wf = true)
    (e : mapPages s ctx root perm pgsz present k va pa = some t) : t.mem.wf = true := by
  induction k generalizing s va pa with
  | zero => unfold mapPages at e; grind
  | succ k ih =>
    unfold mapPages at e
    dsimp only at e
    split at e
    · contradiction
    · rename_i u eu
      refine ih ?_ e
      split at eu
      · exact setLeaf_wf h eu
      · exact foldl_bind_wf (fun s es => by cases es; exact h) (fun s i u hs eu => setLeaf_wf hs eu) eu
      · exact setLeaf_wf h eu
      · exact setLeaf_wf h eu

@[simp] theorem invalidateAll_mem {ctx all pages} : (invalidateAll s ctx all pages).mem = s.mem :=
  foldl_mem fun _ _ => foldl_mem fun _ _ => (State.updDie_mem _ _ _).trans dropPage_mem

theorem writePieces_wf {l d} (h : s.mem.wf = true) : (writePieces s l d).mem.wf = true := by
  induction l generalizing s d with
  | nil => exact h
  | cons e r ih => exact ih (devWrite_wf h)

@[simp] theorem refusedPieces_mem {ctx l} : (refusedPieces s ctx l).mem = s.mem := by
  unfold refusedPieces
  split <;> rfl

theorem rmaWrite_wf {ctx root need va data} (h : s.mem.wf = true) :
    (rmaWrite s ctx root need va data).1.mem.wf = true := by
  unfold rmaWrite
  split
  · exact h
  · split
    · exact writePieces_wf h
    · exact wf_of_mem refusedPieces_mem h

@[simp] theorem readPieces_mem {l} : (readPieces s l).1.mem = s.mem := by
  induction l generalizing s with
  | nil => rfl
  | cons e r ih =>
    unfold readPieces
    grind

/-! ### The service, its contexts and the reset of the panel -/

@[simp] theorem denied_mem {status} : (denied s status).st.mem = s.mem := rfl

@[simp] theorem grant_mem {body} : (grant s body).st.mem = s.mem := rfl

theorem answer_mem {session ty r} (h : UzHdr) : (answer h session ty r).mem = r.st.mem := rfl

theorem replyTo_wf {ty src m} {f : Session → List Byte → Reply} (h : s.mem.wf = true)
    (hf : ∀ x b, (f x b).st.mem.wf = true) : (replyTo s ty src m f).st.mem.wf = true := by
  unfold replyTo
  grind [denied]

theorem receive_wf {ty src m} {f : Session → List Byte → Reply} (h : s.mem.wf = true)
    (hf : ∀ x b, (f x b).st.mem.wf = true) : (receive s ty src m f).mem.wf = true := by
  unfold receive
  split
  · exact replyTo_wf h hf
  · exact h

theorem inContext_wf {session b} {f : Nat → Ctx → List Byte → Reply} (h : s.mem.wf = true)
    (hf : ∀ n c b, (f n c b).st.mem.wf = true) : (inContext s session b f).st.mem.wf = true := by
  unfold inContext
  grind [denied]

theorem receiveCtx_wf {ty src m} {f : Nat → Ctx → List Byte → Reply} (h : s.mem.wf = true)
    (hf : ∀ n c b, (f n c b).st.mem.wf = true) : (receiveCtx s ty src m f).mem.wf = true :=
  receive_wf h fun _ _ => inContext_wf h hf

@[simp] theorem openSession_mem {src m} : (openSession s src m).mem = s.mem := by
  unfold openSession
  grind [answer_mem, denied_mem, grant_mem, State.updService_mem]

@[simp] theorem closeSession_mem {session} : (closeSession s session).mem = s.mem := by
  unfold closeSession
  grind [State.updService_mem, State.post_mem, foldl_mem]

theorem execReservedTypeRequest_wf {r ty} (h : s.mem.wf = true)
    (e : execReservedTypeRequest r ty s = .next t) : t.mem.wf = true := by
  refine next_wf e ?_
  split
  · exact h
  · exact receive_wf h fun _ _ => h

@[simp] theorem resetTree_mem {tree} : (resetTree s tree).mem = s.mem := State.updRoot_mem

theorem contextMemory_wf {c ctx r} (h : s.mem.wf = true) (e : contextMemory s ctx r = some (t, c)) :
    t.mem.wf = true := by
  unfold contextMemory at e
  split at e
  · contradiction
  · rename_i s1 root e1
    have h1 := tablePage_wf (s := s.updService _) h e1
    split at e
    · contradiction
    · rename_i s2 ring e2
      have h2 := giveSomewhere_wf h1 e2
      split at e
      · contradiction
      · rename_i s3 pool e3
        have h3 : s3.mem.wf = true := by grind [giveSomewhere_wf]
        obtain ⟨u, eu, et⟩ := Option.map_eq_some_iff.mp e
        cases et
        exact mapPages_wf (s := s3.tick) h3 eu

theorem createContext_wf {r} (h : s.mem.wf = true) : (createContext s r).st.mem.wf = true := by
  unfold createContext
  split
  · exact h
  · split
    · exact h
    · split
      · exact h
      · grind [contextMemory_wf, resetTree_mem, grant]

theorem withBody_wf {α : Type} {x} {f : α → Reply} (h : s.mem.wf = true)
    (hf : ∀ a, (f a).st.mem.wf = true) : (withBody s x f).st.mem.wf = true := by
  cases x with
  | none => exact h
  | some a => exact hf a

theorem discard_wf {ctx l} (h : s.mem.wf = true) : (discard s ctx l).mem.wf = true := by
  unfold discard
  grind [readVA_wf, reject_wf]

@[simp] theorem killAll_mem {ctx} : (killAll s ctx).mem = s.mem := by
  unfold killAll
  grind [killOne_mem, foldl_mem]

theorem closePending_wf {ctx l} (h : s.mem.wf = true) : (closePending s ctx l).mem.wf = true := closeLaunch_wf h

theorem removeContext_wf {ctx} (h : s.mem.wf = true) : (removeContext s ctx).mem.wf = true := by
  unfold removeContext
  grind [discard_wf, killAll_mem, closePending_wf, invalidateAll_mem, foldl_wf]

theorem loadModule_wf {c r} (h : s.mem.wf = true) : (loadModule s c r).st.mem.wf = true := by
  unfold loadModule
  split
  · exact wf_of_mem denied_mem h
  · split
    · exact wf_of_mem denied_mem (wf_of_mem refusedPieces_mem h)
    · split
      · exact wf_of_mem denied_mem h
      · exact wf_of_mem grant_mem (writePieces_wf h)

theorem putData_wf {ctx c va data} (h : s.mem.wf = true) : (putData s ctx c va data).st.mem.wf = true := by
  unfold putData
  grind [rmaWrite_wf, grant_mem, denied_mem]

@[simp] theorem getData_mem {c va size} : (getData s c va size).st.mem = s.mem := by
  unfold getData
  split
  · rfl
  · split
    · exact readPieces_mem
    · rfl

@[simp] theorem submitRecord_mem {ctx record queue} : (submitRecord s ctx record queue).st.mem = s.mem := by
  unfold submitRecord
  grind [submitLaunch_mem, grant_mem, denied_mem]

theorem requestLaunch_wf {src m} (h : s.mem.wf = true) : (requestLaunch s src m).mem.wf = true := by
  unfold requestLaunch
  split
  · exact wf_of_mem (answer_mem _) (wf_of_mem denied_mem h)
  · exact receiveCtx_wf h fun _ _ _ => withBody_wf h fun _ => wf_of_mem submitRecord_mem h

theorem clearRange_wf {root r} (h : s.mem.wf = true) : (clearRange s root r).mem.wf = true := editRange_wf h

theorem sharePages_wf {r pa} (h : s.mem.wf = true) (e : sharePages s r pa = some t) : t.mem.wf = true := by
  unfold sharePages at e
  split at e
  · cases e; exact h
  · obtain ⟨u, eu, et⟩ := Option.map_eq_some_iff.mp e
    have mapped := mapPages_wf h eu
    cases et; exact mapped

theorem mapFresh_wf {root r} (h : s.mem.wf = true) (e : mapFresh s root r = some t) : t.mem.wf = true := by
  unfold mapFresh at e
  split at e
  · contradiction
  · rename_i u pa eq
    have given : u.mem.wf = true := by
      split at eq
      · exact giveSomewhere_wf h eq
      · exact giveRange_wf h eq
    obtain ⟨v, ev, e⟩ := Option.bind_eq_some_iff.mp e
    have mapped := mapPages_wf (clearRange_wf given) ev
    split at e
    · cases e; exact mapped
    · exact sharePages_wf mapped e

theorem changeMap_wf {root r} (h : s.mem.wf = true) (e : changeMap s root r = some t) : t.mem.wf = true := by
  unfold changeMap at e
  grind [clearRange_wf, editRange_wf, mapFresh_wf]

theorem mapRequest_wf {c r} (h : s.mem.wf = true) : (mapRequest s c r).st.mem.wf = true := by
  unfold mapRequest
  grind [denied_mem, changeMap_wf, grant_mem, invalidateAll_mem]

theorem completeFault_wf {session ctx seq fail} (h : s.mem.wf = true) :
    (completeFault s session ctx seq fail).mem.wf = true := by
  unfold completeFault
  split
  · dsimp only
    split
    · generalize eq : devWrite s _ _ = u
      have hu : u.mem.wf = true := eq ▸ devWrite_wf h
      cases e : completeRecord u ctx seq with
      | none => exact hu
      | some t => exact completeRecord_wf hu e
    · exact h
  · exact h

theorem replyFault_wf {src m} (h : s.mem.wf = true) : (replyFault s src m).mem.wf = true := by
  unfold replyFault
  split
  · exact h
  · split
    · split
      · exact completeFault_wf h
      · exact h
    · exact h

@[simp] theorem stageFw_mem {r} : (stageFw s r).st.mem = s.mem := by
  unfold stageFw
  split
  · rfl
  · split <;> rfl

theorem execFwUpdate_wf {r} (h : s.mem.wf = true) (e : execFwUpdate r s = .next t) : t.mem.wf = true := by
  refine next_wf e (receive_wf h fun x b => ?_)
  split
  · exact withBody_wf h fun _ => wf_of_mem stageFw_mem h
  · exact h

@[simp] theorem quoteReply_mem {b} : (quoteReply s b).st.mem = s.mem := by
  unfold quoteReply
  split <;> rfl

/-- A reset leaves the empty memory. -/
theorem panelReset_wf : (panelReset s).mem.wf = true := rfl

@[simp] theorem bootRom_mem : (bootRom s).mem = s.mem := by
  unfold bootRom
  split <;> rfl

theorem execBoot_wf (h : s.mem.wf = true) (e : execBoot s = .next t) : t.mem.wf = true := by
  refine next_wf e ?_
  rw [bootRom_mem]
  split
  · exact panelReset_wf
  · exact h

@[simp] theorem excuseCores_mem {d} : (excuseCores s d).mem = s.mem := rfl

theorem startSandbox_wf {p g} (h : s.mem.wf = true) : (startSandbox s p g).mem.wf = true := by
  unfold startSandbox
  grind [giveSomewhere_wf, State.updService_mem]

theorem startSandboxes_wf {r} (h : s.mem.wf = true) : (startSandboxes s r).mem.wf = true :=
  foldl_wf h fun _ _ w => startSandbox_wf w

theorem bringUp_wf {r} (h : s.mem.wf = true) (e : bringUp s r = some t) : t.mem.wf = true := by
  unfold bringUp at e
  grind [startSandboxes_wf, State.updService_mem, State.updRegion_mem, excuseCores_mem, foldl_wf]

theorem beginFull_mem (e : beginFull s = some t) : t.mem = s.mem := by
  unfold beginFull at e
  grind [State.updService_mem]

theorem receiveRma_wf {ctx va data} (h : s.mem.wf = true) : (receiveRma s ctx va data).mem.wf = true := by
  unfold receiveRma
  split
  · exact h
  · exact rmaWrite_wf h

@[simp] theorem portInstall_mem {p line st} : (portInstall s p line st).mem = s.mem := setL1_mem

@[simp] theorem portRead_mem {p line} : (portRead s p line).mem = s.mem := by
  unfold portRead
  split
  · rfl
  · split
    · exact portInstall_mem
    · exact portInstall_mem.trans (giveUp_mem.trans readMiss_mem)

@[simp] theorem portOwn_mem {p line} : (portOwn s p line).mem = s.mem := by
  unfold portOwn
  grind [serveOwn_mem, toHome_mem, portInstall_mem]

theorem portStore_wf {p pa data} (h : s.mem.wf = true) : (portStore s p pa data).mem.wf = true := by
  unfold portStore
  grind [portOwn_mem, push_mem, clearPoison_mem, rawWrite_wf, foldl_wf]

theorem endSandbox_wf {id} (h : s.mem.wf = true) (e : endSandbox s id = some t) : t.mem.wf = true := by
  unfold endSandbox at e
  split at e
  · cases e
  · cases e
    exact wf_of_mem (State.updService_mem _ _) (zeroRange_wf (wf_of_mem setL1_mem h))

@[simp] theorem hartFault_mem {hart} : (hartFault s hart).mem = s.mem := by
  unfold hartFault
  dsimp only
  split <;> rfl

theorem hartDoes_wf {hart op} (h : s.mem.wf = true) : (hartDoes s hart op).mem.wf = true := by
  unfold hartDoes
  grind [State.send_mem, State.tick_mem, hartFault_mem, portRead_mem, portStore_wf, devWrite_wf, foldl_wf]

theorem hartRuns_wf {hart op} (h : s.mem.wf = true) (e : hartRuns s hart op = some t) : t.mem.wf = true := by
  unfold hartRuns at e
  grind [hartDoes_wf, hartFault_mem]

/-! ### Every instruction and every event -/

/-- Every instruction and event keeps memory canonical: a case split over them, each settled by its own lemma. -/
theorem exec_wf {i} (h : s.mem.wf = true) (e : exec i s = .next t) : t.mem.wf = true := by
  cases i with
  | clause => exact execClause_wf h e
  | nop => exact issue_wf h (fun _ _ w => w) e
  | add => exact issue_wf h laneInt_keeps e
  | sub => exact issue_wf h laneInt_keeps e
  | mul => exact issue_wf h laneInt_keeps e
  | mad => exact issue_wf h laneInt_keeps e
  | mulhi => exact issue_wf h laneInt_keeps e
  | div => exact issue_wf h laneInt_keeps e
  | rem => exact issue_wf h laneInt_keeps e
  | abs => exact issue_wf h laneInt_keeps e
  | min => exact issue_wf h laneInt_keeps e
  | max => exact issue_wf h laneInt_keeps e
  | and => exact issue_wf h laneInt_keeps e
  | or => exact issue_wf h laneInt_keeps e
  | xor => exact issue_wf h laneInt_keeps e
  | andn => exact issue_wf h laneInt_keeps e
  | orn => exact issue_wf h laneInt_keeps e
  | shl => exact issue_wf h laneInt_keeps e
  | shr => exact issue_wf h laneInt_keeps e
  | sar => exact issue_wf h laneInt_keeps e
  | rol => exact issue_wf h laneInt_keeps e
  | ror => exact issue_wf h laneInt_keeps e
  | clz => exact issue_wf h laneInt_keeps e
  | ctz => exact issue_wf h laneInt_keeps e
  | popc => exact issue_wf h laneInt_keeps e
  | brev => exact issue_wf h laneInt_keeps e
  | bfx => exact issue_wf h laneInt_keeps e
  | bfi => exact issue_wf h laneInt_keeps e
  | ext => exact issue_wf h laneInt_keeps e
  | mov => exact issue_wf h laneInt_keeps e
  | movi => exact issue_wf h lane_writeInt_keeps e
  | movq => exact issue_wf h lane_writeInt_keeps e
  | sel => exact issue_wf h lane_writeInt_keeps e
  | lea => exact issue_wf h laneInt_keeps e
  | cmp => exact issue_wf h lane_writeP_keeps e
  | plog => exact issue_wf h lane_writeP_keeps e
  | pmov => exact execPmov_wf h e
  | movx => exact execMovx_wf h e
  | movxw => exact issue_wf h (indexed_keeps (lane_keeps fun _ _ _ w => State.writeW_wf w)) e
  | fadd => exact issue_wf h laneFp_keeps e
  | fsub => exact issue_wf h laneFp_keeps e
  | fmul => exact issue_wf h laneFp_keeps e
  | ffma => exact issue_wf h laneFp_keeps e
  | fmin => exact issue_wf h laneFp_keeps e
  | fmax => exact issue_wf h laneFp_keeps e
  | fminx => exact issue_wf h laneFp_keeps e
  | fmaxx => exact issue_wf h laneFp_keeps e
  | fcmp => exact execFcmp_wf h e
  | fclass => exact issue_wf h lane_writeInt_keeps e
  | fcvt => exact issue_wf h lane_writeRes_keeps e
  | fcvti => exact issue_wf h lane_writeRes_keeps e
  | icvtf => exact issue_wf h lane_writeRes_keeps e
  | frnd => exact issue_wf h laneFp_keeps e
  | fsqrt => exact issue_wf h laneLong_keeps e
  | fdiv => exact issue_wf h laneLong_keeps e
  | frcp => exact issue_wf h laneLong_keeps e
  | frsq => exact issue_wf h laneLong_keeps e
  | fexp2 => exact issue_wf h laneLong_keeps e
  | flog2 => exact issue_wf h laneLong_keeps e
  | fsin => exact issue_wf h laneLong_keeps e
  | fcos => exact issue_wf h laneLong_keeps e
  | ftanh => exact issue_wf h laneLong_keeps e
  | dot => exact issue_wf h lane_writeRes_keeps e
  | qz => exact issue_wf h lane_writeRes_keeps e
  | dq => exact issue_wf h lane_writeRes_keeps e
  | pack => exact issue_wf h lane_writeRes_keeps e
  | unpk => exact issue_wf h lane_writeRes_keeps e
  | bra => exact issue_wf h bra_keeps e
  | call => exact issue_wf h call_keeps e
  | brx => exact issue_wf h indirect_keeps e
  | ret => exact issue_wf h indirect_keeps e
  | trap => exact execTrap_wf h e
  | brk => exact execBrk_wf h e
  | mcall => exact execMcall_wf h e
  | ld => exact execLd_wf h e
  | st => exact execSt_wf h e
  | pref => exact execPref_wf h e
  | amo => exact execAmo_wf h e
  | cas => exact execCas_wf h e
  | cstore => exact execCstore_wf h e
  | ldl => exact execLdl_wf h e
  | stl => exact execStl_wf h e
  | bind => exact execBind_wf h e
  | unbind => exact execUnbind_wf h e
  | bsync => exact execBsync_wf h e
  | bwait => exact execBwait_wf h e
  | bamo => exact execBamo_wf h e
  | bcas => exact execBcas_wf h e
  | fence => exact issue_wf h fenceBody_keeps e
  | fenceOwn => exact issue_wf h (fun _ _ w => w) e
  | fenceFar => exact execFenceFar_wf h e
  | shfl => exact execShfl_wf h e
  | vote => exact execVote_wf h e
  | matchBits => exact execMatchBits_wf h e
  | matchf => exact execMatchf_wf h e
  | scan => exact issue_wf h reduce_keeps e
  | red => exact issue_wf h reduce_keeps e
  | fork => exact execFork_wf h e
  | fend => exact execFend_wf h e
  | id => exact execId_wf h e
  | launch => exact execLaunch_wf h e
  | barArrive => exact execBarArrive_wf h e
  | barWait => exact execBarWait_wf h e
  | barSync => exact execBarSync_wf h e
  | yield => exact execYield_wf h e
  | join => exact execJoin_wf h e
  | qpush => exact execQpush_wf h e
  | qpop => exact execQpop_wf h e
  | recruit => exact issue_wf h recruitBody_keeps e
  | hwork => exact execHwork_wf h e
  | hret => exact execHret_wf h e
  | hend => exact execHend_wf h e
  | tret => exact execTret_wf h e
  | sysr => exact execSysr_wf h e
  | sysw => exact execSysw_wf h e
  | tread => exact execTread_wf h e
  | icinv => exact execIcinv_wf h e
  | mcdef => exact execMcdef_wf h e
  | migrate => exact execMigrate_wf h e
  | tarr => exact execTarr_wf h e
  | twait => exact execTwait_wf h e
  | spush => exact execSpush_wf h e
  | spop => exact execSpop_wf h e
  | lbmapSwap => exact execLbmapSwap_wf h e
  | lbmapSet => exact execLbmapSet_wf h e
  | cpIn => exact issue_wf h command_keeps e
  | cpOut => exact issue_wf h command_keeps e
  | cpPeer => exact issue_wf h command_keeps e
  | cpFill => exact issue_wf h command_keeps e
  | pub => exact issue_wf h command_keeps e
  | gNode => exact execGNode_wf h e
  | gEdge => exact execGEdge_wf h e
  | gRun => exact execGRun_wf h e
  | gReset => exact execGReset_wf h e
  | mm => exact issue_wf h command_keeps e
  | mmClr => exact issue_wf h command_keeps e
  | mmLd => exact issue_wf h command_keeps e
  | mmRd => exact issue_wf h command_keeps e
  | operationCompletion => exact event_ite_wf (wf_of_mem completeOp_mem h) e
  | watchdog => exact event_wf (fun _ => watchdogTrap_wf h) e
  | weaveDemote => exact event_mem_wf h (fun _ => demote_mem) e
  | weavePromote => exact event_wf (fun _ => promote_wf h) e
  | launchReady => exact event_wf (fun _ => readyLaunch_wf h) e
  | blockPlacement => exact event_wf (fun _ => placeBlock_wf h) e
  | preemption => exact event_wf (fun _ => preemptStep_wf h) e
  | launchCompletion => exact event_wf (fun _ => completeLaunch_wf h) e
  | trapEntry => exact event_wf (fun _ => enterCmdErr_wf h) e
  | recordCompletion => exact event_wf (fun _ => completeRecord_wf h) e
  | breakpointMatch => exact event_wf (fun _ => stopAtBkp_wf h) e
  | helperStart => exact event_mem_wf h (fun _ => startHelpers_mem) e
  | releaseRequest => exact event_wf (fun _ => askRelease_wf h) e
  | recruiterResume => exact event_wf (fun _ => resumeRecruiter_wf h) e
  | push => exact event_mem_wf h (fun _ => pushCore_mem) e
  | missRequest => exact event_wf (fun _ => missServe_wf h) e
  | dataReply => exact event_mem_wf h (fun _ => missReply_mem) e
  | probe => exact event_mem_wf h (fun _ => probeCore_mem) e
  | writeBack => exact event_mem_wf h (fun _ => writeBackLine_mem) e
  | collapse => exact event_ite_wf (wf_of_mem collapseLine_mem h) e
  | zoneReview => exact event_mem_wf h (fun _ => reviewZone_mem) e
  | replWrite => exact event_ite_wf (wf_of_mem writeRepl_mem h) e
  | translationWalk => exact event_wf (fun _ => walkPage_wf h) e
  | commandStart => exact event_wf (fun _ => startCmd_wf h) e
  | commandCompletion => exact event_wf (fun _ => completeCmd_wf h) e
  | commandError => exact execCommandError_wf h e
  | seqctlEnd => exact event_wf (fun _ => endStream_wf h) e
  | relaunchEvent => exact event_wf (fun _ => relaunchEvent_wf h) e
  | remoteRefusal => exact event_wf (fun _ => relaunchEvent_wf h) e
  | save => exact event_wf (fun _ => saveStep_wf h) e
  | restore => exact event_wf (fun _ => restoreStep_wf h) e
  | retire => exact event_wf (fun _ => retireStep_wf h) e
  | returnToService => exact event_mem_wf h (fun _ => returnStep_mem) e
  | dieReset => exact event_wf (fun _ => resetStep_wf h) e
  | drainDeadline => exact event_mem_wf h (fun _ => expireDrain_mem) e
  | dieReturn => exact event_mem_wf h (fun _ => returnDie_mem) e
  | sliceRetire => exact event_mem_wf h (fun _ => sliceStep_mem) e
  | invalidation => exact event_mem_wf h (fun _ => invalidate_mem) e
  | registerWrite => exact event_ite_wf (wf_of_mem writeReg_mem h) e
  | messageArrival => exact event_wf (fun _ => deliver_wf h) e
  | messageRetry => exact event_wf (fun _ => deliver_wf h) e
  | handlerStart => exact event_wf (fun _ => handleHead_wf h) e
  | migrationArrival => exact event_wf (fun _ => arriveMigrated_wf h) e
  | treeReport => exact event_mem_wf h (fun _ => reportDie_mem) e
  | absenceNotice => exact event_mem_wf h (fun _ => noteAbsent_mem) e
  | presenceNotice => exact event_mem_wf h (fun _ => notePresent_mem) e
  | roundComplete => exact event_mem_wf h (fun _ => completeRound_mem) e
  | treeRelease => exact event_mem_wf h (fun _ => releaseRound_mem) e
  | scrub => exact event_mem_wf h (fun _ => scrubLine_mem) e
  | stepBoundary => exact event_mem_wf h (fun _ => passBoundary_mem) e
  | droopAlarm => exact event_mem_wf h (fun _ => alarm_mem) e
  | droopRecovery => exact event_mem_wf h (fun _ => recover_mem) e
  | holdExpiry => exact event_mem_wf h (fun _ => expireHold_mem) e
  | sessionOpen => exact next_wf e (wf_of_mem openSession_mem h)
  | contextCreate => exact next_wf e (receive_wf h fun _ _ => withBody_wf h fun _ => createContext_wf h)
  | contextDestroy => exact next_wf e (receiveCtx_wf h fun _ _ _ => removeContext_wf h)
  | moduleLoad => exact next_wf e (receiveCtx_wf h fun _ _ _ => withBody_wf h fun _ => loadModule_wf h)
  | map => exact next_wf e (receiveCtx_wf h fun _ _ _ => withBody_wf h fun _ => mapRequest_wf h)
  | put => exact next_wf e (receiveCtx_wf h fun _ _ _ => withBody_wf h fun _ => putData_wf h)
  | get => exact next_wf e (receiveCtx_wf h fun _ _ _ => withBody_wf h fun _ => wf_of_mem getData_mem h)
  | launchRequest => exact next_wf e (requestLaunch_wf h)
  | quote => exact next_wf e (receive_wf h fun _ _ => wf_of_mem quoteReply_mem h)
  | faultReply => exact next_wf e (replyFault_wf h)
  | fwUpdate => exact execFwUpdate_wf h e
  | rmaWriteReceive => exact next_wf e (receiveRma_wf h)
  | sandboxEnd => exact event_wf (fun _ => endSandbox_wf h) e
  | boot => exact execBoot_wf h e
  | fullService => exact event_mem_wf h (fun _ => beginFull_mem) e
  | illegalInstruction => exact execIllegalInstruction_wf h e
  | sessionClose => exact next_wf e (wf_of_mem closeSession_mem h)
  | regionBringUp => exact event_wf (fun _ => bringUp_wf h) e
  | hartAccess => exact event_wf (fun _ => hartRuns_wf h) e
  | unsupportedFeatureRequest => exact next_wf e h
  | reservedTypeRequest => exact execReservedTypeRequest_wf h e

/-! ### The step -/

theorem soften_wf {o} (h : s.mem.wf = true) (ho : ∀ u, o = .next u → u.mem.wf = true)
    (e : soften s o = .next t) : t.mem.wf = true := by
  unfold soften at e
  grind

theorem endStep_wf {o} (ho : ∀ u, o = .next u → u.mem.wf = true) (e : endStep o = .next t) :
    t.mem.wf = true := by
  unfold endStep at e
  grind [passTurn_wf]

theorem stepIssue_wf (h : s.mem.wf = true) (e : stepIssue s = .next t) : t.mem.wf = true := by
  unfold stepIssue at e
  grind [takeTurn_wf, exec_wf]

/-- A step runs what is due, an item of the inbox or a core's turn, and passes the turn on. -/
theorem step_wf (h : s.mem.wf = true) (e : step s = .next t) : t.mem.wf = true := by
  unfold step at e
  split at e
  · exact soften_wf h (fun _ => exec_wf h) e
  · rename_i i r _ _
    have taken : ({ s with inbox := r } : State).mem.wf = true := h
    exact soften_wf taken (fun _ => exec_wf taken) e
  · split at e
    · exact endStep_wf (fun _ => soften_wf h fun _ => exec_wf h) e
    · exact endStep_wf (fun u eu => by cases eu; exact h) e
    · exact endStep_wf (fun _ => stepIssue_wf h) e

/-- Settles O60: a step is made of operations that each keep memory canonical (`step_wf`). -/
theorem stepKeepsMemory : Obligations.StepKeepsMemory := fun _ _ => step_wf

end Sys2Proof.Machine
end

section
/-! PROOFS. Statements of the fibre machine that fail, each with a state in which it does. -/
namespace Sys2Proof.Machine

/-- The state that a step leaves, where it leaves one. -/
def stateAfter : Out → Option State
  | .next t => some t
  | _ => none

/-! ### A completion that delivers a late reply (O35) -/

/-- An operation of the fibre's weave waits for a reply that bears a deadline field, and the deadline has passed (R249, R386). -/
def lateReply : State :=
  { ((placeProgram State.reset [] false).updBlock 1 fun b => { b with ops := [(7, (some 0, 0))] }).updCore 0 fun c =>
      { c with misses := [⟨0x40002000, 1, 0, false, true, 0, [7], some ⟨1, 0, 0, 0, 32767⟩⟩] } with time := 64 * 40000 }

theorem lateReply_noted :
    (stateAfter (exec (.operationCompletion 1 7) lateReply)).map State.lates = some [⟨1, 0, 0, 0, 32767⟩] := by decide +kernel

/-- Refutes O35: the reply that the completion awaits is delivered, and one that comes after its deadline joins the late
packets of the step (R386), which the statement wants to stand as they were. -/
theorem not_operationCompletes : ¬ Obligations.OperationCompletes := by
  unfold Obligations.OperationCompletes
  intro h
  obtain ⟨t, ht, hpanel, -⟩ := h 1 7 0 lateReply _ (some 0) rfl rfl
  have hlates : t.lates = [] := congrArg State.lates hpanel
  have hnoted := lateReply_noted
  rw [ht, stateAfter, Option.map_some, hlates] at hnoted
  exact absurd hnoted (by decide)

/-! ### A clause header in front of two results of one operation (O34) -/

/-- Operation 7 has left the fibre two completed results: a poisoned one on m3, and one for w4 on m0. -/
def twoResults : State :=
  (placeProgram State.reset [] false).updFibre 1 0 0 fun f =>
    { f with pend := [⟨7, 3, .none, 0, none, false, 0, some 0, 0x1000, true⟩, ⟨7, 0, .w 4, 0x99, none, false, 0, none, 0x1000, true⟩] }

theorem twoResults_traps : (stateAfter (exec (.clause 1 15 15 0) twoResults)).map (fun t => (t.block? 1).isSome) = some false := by
  decide +kernel

/-- Refutes O34: a landing looks a result up by its operation, and finds the poisoned one on m3 for which the header does not wait;
the fibre traps, and without a routine its block ends. Nothing in the statement says that the results of a fibre are of
different operations. -/
theorem not_clauseBegins : ¬ Obligations.ClauseBegins := by
  unfold Obligations.ClauseBegins
  intro h
  obtain ⟨fibres, -⟩ := h 1 15 15 1 twoResults _ rfl rfl rfl
  obtain ⟨d, hd, rfl, -⟩ := fibres 0 _ _ rfl rfl rfl (by decide +kernel) (by decide +kernel) (by decide +kernel) (by decide +kernel)
    (by decide +kernel)
  have htraps := twoResults_traps
  rw [hd] at htraps
  exact absurd htraps (by decide +kernel)

/-! ### An illegal header at a transfer's target (O22) -/

/-- The block has a trap routine, and its fibre has just come to its instruction by a transfer (R34). -/
def atTarget : State :=
  ((placeProgram State.reset [] false).updBlock 1 fun b => { b with hdr := { b.hdr with trapEntry := 1 } }).updWeave 1 0 fun x =>
    { x with batches := x.batches.map fun b => { b with entry := true } }

/-- The fibre's batch there, and the issue of an 8-byte instruction by it. -/
def targetBatch : Batch := { Batch.start [0] 0x1000 with seta := 0, setb := 1 }
def targetIss : Iss := fibIss atTarget 1 0 (Weave.start .block 0 0 true 1 [] targetBatch 0) targetBatch 8 ⟨0, false⟩

theorem targetIss_acts : targetIss.acts = [.fib 1 0 0] := by decide +kernel

theorem targetIss_ready : ∃ blk c, routineReady targetIss blk c atTarget := by
  refine ⟨_, _, {
    block := rfl, ctx := rfl, routine := by decide +kernel, outsideMacro := rfl, frames := fun _ => rfl
    fibres := fun a ha => ?_, batch := fun a ha y hy => ?_
    ring := by decide, bell := by decide, apart := by decide }⟩ <;> obtain rfl := List.mem_singleton.mp (targetIss_acts ▸ ha)
  · exact ⟨_, rfl, rfl, rfl, rfl⟩
  · obtain rfl := Option.some.inj hy
    decide +kernel

/-- What a comparison of trap registers by `Fibre.trapped` shows has the model's note of an entry cleared. -/
theorem trapped_entry {f : Option Fibre} {r : TrapRegs} (h : f.map Fibre.trapped = some r) : r.entry = false := by
  obtain ⟨x, -, rfl⟩ := Option.map_eq_some_iff.mp h
  rfl

/-- Refutes O22: in its third clause the header may stand at a transfer's target. The statement clears the model's note of
an entry from the trap registers that it reads, and yet expects them to hold it. -/
theorem not_controlTraps : ¬ Obligations.ControlTraps := by
  unfold Obligations.ControlTraps
  intro h
  obtain ⟨-, -, headers, -⟩ := h
  obtain ⟨x, hx⟩ : ∃ x, atTarget.weave? 1 0 = some x := ⟨_, rfl⟩
  have hbatch : x.curBatch = some targetBatch := by
    obtain rfl := Option.some.inj hx
    rfl
  obtain ⟨blk, c, ready⟩ := targetIss_ready
  obtain ⟨t, -, taken⟩ := headers 0 12 15 0 1 0 atTarget blk c x targetBatch rfl hx hbatch (by decide) (by decide) ready
  have registers := taken.registers (.fib 1 0 0) (targetIss_acts ▸ List.mem_singleton_self _) _ rfl
  have hentry : targetIss.entry atTarget = false := trapped_entry registers
  exact absurd hentry (by decide +kernel)

end Sys2Proof.Machine
end

section
/-! PROOFS. An instruction whose guard is true for nobody: its own effect is never reached, and its agent goes on behind it. -/
namespace Sys2Proof.Machine

/-- Every encoded instruction but a clause header runs its effect through the common issue. -/
theorem exec_issues {i : Instr} (h : i.wf = true) (hc : ∀ a b c d, i ≠ .clause a b c d) (s : State) :
    ∃ body, exec i s = issue i s body := by
  cases i
  case clause a b c d => exact absurd rfl (hc a b c d)
  all_goals first | exact ⟨_, rfl⟩ | exact absurd h Bool.false_ne_true

theorem wf_of_encode {i : Instr} {n w : Nat} (h : encode i = some (n, w)) : i.wf = true := by
  unfold encode at h
  split at h
  · assumption
  · cases h

/-- With no participant a batch's issue ends without the instruction's effect. -/
theorem issueFib_idle {i : Instr} {s : State} {u w : Nat} {blk : Block} {x : Weave} {b : Batch} (body : Iss → State → Done)
    (he : b.entry = false) (ha : (fibIss s u w x b i.size i.guard).acts = []) :
    issueFib i s u w blk x b body = finish s (fibIss s u w x b i.size i.guard) w { st := s } := by
  simp [issueFib, he, ha]

/-- With a false guard the stream's issue discards the capture and ends without the instruction's effect. -/
theorem issueSeq_idle {i : Instr} {s : State} {u : Nat} {blk : Block} {x : Stream} (body : Iss → State → Done)
    (he : x.entry = false) (ha : (seqIss s u x i.size i.guard).acts = []) :
    issueSeq i s u blk x body = finishSeq (s.updStream u fun x => { x with capture := none }) (seqIss s u x i.size i.guard) { st := s } := by
  simp [issueSeq, he, ha]

/-- What an agent that stands by is: a weave's current batch, or the stream. -/
theorem standsBy_cases {i : Instr} {s : State} {k : Iss} (h : standsBy i s = some k) :
    (∃ u w blk x b, s.focus = .weave u w ∧ s.block? u = some blk ∧ s.weave? u w = some x ∧ x.curBatch = some b
      ∧ k = fibIss s u w x b i.size i.guard ∧ b.entry = false ∧ x.ss = false ∧ k.acts = [] ∧ b.members ≠ [])
    ∨ ∃ u blk x, s.focus = .stream u ∧ s.block? u = some blk ∧ s.stream? u = some x ∧ k = seqIss s u x i.size i.guard
      ∧ x.entry = false ∧ x.ss = false ∧ k.acts = [] := by
  unfold standsBy at h
  split at h
  case h_1 u w hf =>
    split at h
    · rename_i blk x hb hx
      split at h
      · rename_i b hc
        dsimp only at h
        split at h
        · rename_i hg
          obtain rfl := Option.some.inj h
          simp only [Bool.and_eq_true, Bool.not_eq_true', List.isEmpty_iff, List.isEmpty_eq_false_iff] at hg
          obtain ⟨⟨⟨he, hs⟩, ha⟩, hm⟩ := hg
          exact .inl ⟨u, w, blk, x, b, hf, hb, hx, hc, rfl, he, hs, ha, hm⟩
        · cases h
      · cases h
    · cases h
  case h_2 u hf =>
    split at h
    · rename_i blk x hb hx
      dsimp only at h
      split at h
      · rename_i hg
        obtain rfl := Option.some.inj h
        simp only [Bool.and_eq_true, Bool.not_eq_true', List.isEmpty_iff] at hg
        obtain ⟨⟨he, hs⟩, ha⟩ := hg
        exact .inr ⟨u, blk, x, hf, hb, hx, rfl, he, hs, ha⟩
      · cases h
    · cases h
  case h_3 => cases h

/-- Settles O7: with no participants the instruction's own effect is not reached (`issueFib_idle`, `issueSeq_idle`), and the batch or the stream goes
on as behind an effect that changes nothing (`finish_after`, `finishSeq_after`). -/
theorem guardFalse : Obligations.GuardFalse := by
  intro i s k w henc hclause hk
  obtain ⟨body, hexec⟩ := exec_issues (wf_of_encode henc) hclause s
  rw [hexec]
  obtain ⟨u, v, blk, x, b, hf, hb, hx, hc, rfl, he, hs, ha, hm⟩ | ⟨u, blk, x, hf, hb, hx, rfl, he, hs, ha⟩ := standsBy_cases hk
  · have hcur : s.cursor u v = some (x.cur.getD 0, b, false) := by simp [State.cursor, hx, hc, hs]
    have hend := finish_after (k := { fibIss s u v x b i.size i.guard with acts := [.seq u] }) (d := { st := s }) hcur hm
      rfl rfl rfl rfl (List.cons_ne_nil _ _)
    simp only [issue, hf, hb, hx, hc, issueFib_idle body he ha]
    exact congrArg _ hend
  · simp only [issue, hf, hb, hx, issueSeq_idle body he ha]
    refine congrArg _ (finishSeq_after (sw := false) (wd0 := false) rfl rfl ?_)
    simp [seqIss, hx, hs]

end Sys2Proof.Machine
end

section
/-! PROOFS. Element instructions in fibre registers: what the fold of the participants' writes leaves, part by part. -/
namespace Sys2Proof.Machine

/-! ### What a fold of steps leaves alone -/

/-- What every step of a fold leaves as it is, the fold leaves as it is. -/
theorem foldl_same {α β σ : Type} {p : σ → β} {f : σ → α → σ} {l : List α} (h : ∀ t, ∀ a ∈ l, p (f t a) = p t) (t : σ) :
    p (l.foldl f t) = p t :=
  List.foldlRecOn (motive := fun x => p x = p t) l f rfl fun x hx a ha => (h x a ha).trans hx

/-- A part of every weave that a change leaves alone. -/
theorem weave?_map_updWeave {α : Type} {p : Weave → α} {f : Weave → Weave} (hf : ∀ x, p (f x) = p x) (s : State) (u w v y : Nat) :
    ((s.updWeave u w f).weave? v y).map p = (s.weave? v y).map p := by
  rw [State.weave?_updWeave]
  split
  · rename_i h
    obtain ⟨rfl, rfl⟩ := h
    cases s.weave? v y <;> simp [hf]
  · rfl

/-- A part of every fibre that a change of one fibre leaves alone. -/
theorem fibre?_map_updFibre {α : Type} {p : Fibre → α} {f : Fibre → Fibre} (hf : ∀ x, p (f x) = p x) (s : State) (u w sl v y sm : Nat) :
    ((s.updFibre u w sl f).fibre? v y sm).map p = (s.fibre? v y sm).map p := by
  rw [State.fibre?_updFibre]
  split
  · rename_i h
    obtain ⟨rfl, rfl, rfl⟩ := h
    cases s.fibre? v y sm <;> simp [hf]
  · rfl

theorem reg?_eq_map (s : State) (v y sl n : Nat) : s.reg? v y sl n = ((s.fibre? v y sl).map fun f => mget f.regs n).join := by
  unfold State.reg?
  cases s.fibre? v y sl <;> rfl

/-- Registers stand where the fibres keep theirs. -/
theorem reg?_congr {s t : State} {v y sl n : Nat}
    (h : (t.fibre? v y sl).map (fun f => mget f.regs n) = (s.fibre? v y sl).map (fun f => mget f.regs n)) : t.reg? v y sl n = s.reg? v y sl n := by
  rw [reg?_eq_map, reg?_eq_map, h]

/-- The streams stand where no more than parts of weaves differ. -/
theorem keeps.stream {u : Nat} {s t : State} (h : keeps u s t) (v : Nat) : t.stream? v = s.stream? v := by
  unfold State.stream?
  by_cases hv : v = u
  · subst hv
    have hb := congrArg (Option.map Block.stream) h.block
    simp only [Option.map_map] at hb
    cases ht : t.block? v <;> cases hs : s.block? v <;> simp_all [Block.rest]
  · rw [h.others v hv]

theorem keeps.fibre_isSome {u : Nat} {s t : State} (h : keeps u s t) (v y sl : Nat) : (t.fibre? v y sl).isSome = (s.fibre? v y sl).isSome := by
  have := congrArg Option.isSome (h.fibres v y sl)
  simpa using this

theorem keeps.present {u : Nat} {s t : State} (h : keeps u s t) {l : List Actor} (hp : present s l) : present t l := by
  intro a ha
  cases a with
  | fib v y sl => exact (h.fibre_isSome v y sl).trans (hp _ ha)
  | seq v => exact hp _ ha

theorem flagsIn_congr {u : Nat} {s t : State} (h : keeps u s t) (w y : Nat) (fl : Actor → FFlags) (l : List Actor) :
    flagsIn t u w y fl l = flagsIn s u w y fl l := by
  unfold flagsIn
  congr 1
  exact List.filter_congr fun a _ => by rw [h.flagWeave]

/-! ### Reading and releasing sources -/

theorem readK_noteDead (s : State) (uid : Nat) (pc : Word) (r : Option (Nat × Nat × Nat)) (v y n : Nat) :
    (s.noteDead uid pc r).readK v y n = s.readK v y n := by
  unfold State.noteDead
  split
  · rfl
  · exact readK_updWeave (fun x => by split <;> rfl) v y n

theorem fpflags_noteDead (s : State) (uid : Nat) (pc : Word) (r : Option (Nat × Nat × Nat)) (v y : Nat) :
    (s.noteDead uid pc r).fpflags v y = s.fpflags v y := by
  unfold State.noteDead
  split
  · rfl
  · exact fpflags_updWeave (fun x => by split <;> rfl) v y

/-- A part of the weaves that no change of a fibre touches stands as registers are released. -/
theorem weave?_map_release {α : Type} {p : Weave → α} (hp : ∀ (x : Weave) l, p { x with fibres := l } = p x) (s : State) (a : Actor) (x : Src)
    (v y : Nat) : ((s.release a x).weave? v y).map p = (s.weave? v y).map p := by
  unfold State.release
  split
  · rfl
  · split
    · exact weave?_map_updWeave (fun z => hp z _) ..
    · rfl

theorem readK_eq_map (s : State) (v y n : Nat) : s.readK v y n = (((s.weave? v y).map Weave.k).bind fun k => mget k n).getD 0 := by
  unfold State.readK
  cases s.weave? v y <;> rfl

theorem readK_release (s : State) (a : Actor) (x : Src) (v y n : Nat) : (s.release a x).readK v y n = s.readK v y n := by
  rw [readK_eq_map, readK_eq_map, weave?_map_release fun _ _ => rfl]

theorem fpflags_release (s : State) (a : Actor) (x : Src) (v y : Nat) : (s.release a x).fpflags v y = s.fpflags v y :=
  weave?_map_release (fun _ _ => rfl) ..

/-- What noting dead reads and releasing registers each leave alone, reading all sources does. -/
theorem consume_same {β : Type} {p : State → β} (hn : ∀ t uid pc r, p (State.noteDead t uid pc r) = p t)
    (hr : ∀ t a x, p (State.release t a x) = p t) (s : State) (pc : Word) (acts : List Actor) (srcs : List Src) :
    p (s.consume pc acts srcs) = p s :=
  (foldl_same (fun t a _ => foldl_same (fun t x _ => hr t a x) t) _).trans
    (foldl_same (fun t _ _ => foldl_same (fun t _ _ => hn t _ _ _) t) s)

theorem predsOf_consume (s : State) (pc : Word) (acts : List Actor) (srcs : List Src) (v y sl : Nat) :
    ((s.consume pc acts srcs).fibre? v y sl).map Fibre.preds = (s.fibre? v y sl).map Fibre.preds :=
  consume_keeps Fibre.preds s pc acts srcs v y sl fun x _ f _ => used_preds f x

/-- Reading the sources of all participants releases last uses, and changes nothing else but the record of dead reads. -/
theorem released_consume (k : Iss) (srcs : List Src) (s : State) (hu : ∀ a ∈ k.acts, a.uid = k.uid) :
    released k srcs s (s.consume k.pc k.acts srcs) where
  rest := { keeps_consume s k.pc hu srcs with sched := sched_consume _ _ _ _ }
  kept v y sl n h := reg?_consume s k.pc k.acts srcs v y sl n fun ha x hx hl => h ⟨ha, x, hx, hl⟩
  preds := predsOf_consume _ _ _ _
  uniform v y n := consume_same (p := fun t => t.readK v y n) (fun _ _ _ _ => readK_noteDead ..) (fun _ _ _ => readK_release ..) ..
  flags v y := consume_same (p := fun t => t.fpflags v y) (fun _ _ _ _ => fpflags_noteDead ..) (fun _ _ _ => fpflags_release ..) ..

/-! ### Sticky flags of a fold -/

/-- Steps that each raise one participant's flags: the flags of every weave of the block afterwards. -/
theorem foldl_flags {u w : Nat} {step : State → Actor → State} {fl : Actor → FFlags} {ok : State → Prop} {l : List Actor}
    (hok : ∀ t, ∀ a ∈ l, ok t → ok (step t a)) (hk : ∀ t, ∀ a ∈ l, ok t → keeps u t (step t a))
    (hf : ∀ t, ∀ a ∈ l, ok t → ∀ y,
      (step t a).fpflags u y = (t.fpflags u y).map fun x => x ||| if t.flagWeave u w a.slot = y then fl a else 0)
    (t : State) (ht : ok t) (y : Nat) :
    (l.foldl step t).fpflags u y = (t.fpflags u y).map fun x => x ||| flagsIn t u w y fl l := by
  induction l generalizing t with
  | nil => simp [flagsIn]
  | cons a r ih =>
    have ha := List.mem_cons_self (a := a) (l := r)
    have hr {b : Actor} (hb : b ∈ r) : b ∈ a :: r := List.mem_cons_of_mem _ hb
    rw [List.foldl_cons, ih (fun t b hb => hok t b (hr hb)) (fun t b hb => hk t b (hr hb)) (fun t b hb => hf t b (hr hb)) _ (hok t a ha ht),
      flagsIn_congr (hk t a ha ht), hf t a ha ht, flagsIn_cons]
    cases t.fpflags u y <;> simp [BitVec.or_assoc]

/-! ### Results in fibre registers -/

theorem unboundIn_of_binds {s t : State} {l : List Actor} {n : Nat}
    (h : ∀ v y sl, (t.fibre? v y sl).map Fibre.binds = (s.fibre? v y sl).map Fibre.binds) (hb : unboundIn s l n) : unboundIn t l n := by
  intro v y sl f hm hf
  have e := h v y sl
  rw [hf] at e
  cases hs : s.fibre? v y sl with
  | none => simp [hs] at e
  | some f' =>
    simp only [hs, Option.map_some, Option.some.injEq] at e
    exact e ▸ hb v y sl f' hm hs

theorem keeps.binds {u : Nat} {s t : State} (h : keeps u s t) (v y sl : Nat) :
    (t.fibre? v y sl).map Fibre.binds = (s.fibre? v y sl).map Fibre.binds := by
  have := congrArg (Option.map Fibre.binds) (h.fibres v y sl)
  simpa [Function.comp_def, Fibre.rest] using this

/-- A write to a register that no binding holds leaves all of a weave but its fibres. -/
theorem weave?_map_writeW {α : Type} {p : Weave → α} (hp : ∀ (x : Weave) l, p { x with fibres := l } = p x) {s : State} {u w sl n : Nat}
    {val : Word} (hb : ∀ f, s.fibre? u w sl = some f → mget f.binds n = none) (v y : Nat) :
    ((s.writeW (.fib u w sl) n val).weave? v y).map p = (s.weave? v y).map p := by
  cases hf : s.fibre? u w sl with
  | none => simp only [State.writeW, hf]
  | some f =>
    rw [writeW_unbound hf (hb f hf)]
    exact weave?_map_updWeave (fun x => hp x _) ..

/-- What a participant of an element instruction does behind the write of its result: a float instruction raises flags. -/
def raiseIf (fp : Bool) (fl : Actor → FFlags) (t : State) (a : Actor) : State := if fp then t.raise a (fl a) else t

theorem quiet_raiseIf (fp : Bool) (fl : Actor → FFlags) : Quiet (raiseIf fp fl) := by
  cases fp
  · exact quiet_none
  · exact quiet_raise fl

theorem fpflags_raiseIf (fp : Bool) (fl : Actor → FFlags) (t : State) (u w sl y : Nat) :
    (raiseIf fp fl t (.fib u w sl)).fpflags u y
      = (t.fpflags u y).map fun x => x ||| if t.flagWeave u w sl = y then (if fp then fl (.fib u w sl) else 0) else 0 := by
  cases fp
  · cases h : t.fpflags u y <;> simp [raiseIf, h]
  · exact fpflags_raise ..

/-- The result of an element instruction into a fibre register, as the writes of its participants. -/
theorem RegOp.result_writeAll {r : RegOp} {s : State} {k : Iss} (hl : ∀ a ∈ k.acts, ∃ sl, a = .fib k.uid k.w sl) (hd : r.d.uni = false) :
    r.result k s = writeAll (raiseIf r.fp fun a => (r.val s (s.consume k.pc k.acts r.srcs) a).2) r.d.num.toNat
      (fun a => (r.val s (s.consume k.pc k.acts r.srcs) a).1) k.acts (s.consume k.pc k.acts r.srcs) := by
  refine List.foldl_ext _ _ _ fun t a ha => ?_
  obtain ⟨sl, rfl⟩ := hl a ha
  cases h : r.fp <;> simp [RegOp.write, raiseIf, State.writeD, hd, h]

section
variable {g : State → Actor → State} {d u w : Nat} {val : Actor → Word} {l : List Actor} (hg : Quiet g)
  (hl : ∀ a ∈ l, ∃ sl, a = .fib u w sl)
include hg hl

/-- One participant's write, and what follows it, keeps the registers of all participants unbound. -/
theorem unboundIn_write {t : State} {a : Actor} (ha : a ∈ l) (hb : unboundIn t l d) : unboundIn (g (t.writeW a d (val a)) a) l d := by
  obtain ⟨sl, rfl⟩ := hl a ha
  exact unboundIn_of_binds (((keeps_writeW fun f => hb u w sl f ha).trans (hg.keeps _ (.fib u w sl))).binds) hb

theorem readK_writeAll {t : State} (hb : unboundIn t l d) (v y n : Nat) : (writeAll g d val l t).readK v y n = t.readK v y n := by
  refine (List.foldlRecOn (motive := fun x => unboundIn x l d ∧ x.readK v y n = t.readK v y n) l _ ⟨hb, rfl⟩ fun x hx a ha => ?_).2
  refine ⟨unboundIn_write hg hl ha hx.1, ?_⟩
  obtain ⟨sl, rfl⟩ := hl a ha
  rw [hg.uniform, readK_eq_map, weave?_map_writeW (fun _ _ => rfl) fun f => hx.1 u w sl f ha, ← readK_eq_map, hx.2]

theorem flags_writeAll {fl : Actor → FFlags} {t : State} (hb : unboundIn t l d)
    (hf : ∀ t sl y, (g t (.fib u w sl)).fpflags u y
      = (t.fpflags u y).map fun x => x ||| if t.flagWeave u w sl = y then fl (.fib u w sl) else 0) (y : Nat) :
    (writeAll g d val l t).fpflags u y = (t.fpflags u y).map fun x => x ||| flagsIn t u w y fl l := by
  refine foldl_flags (ok := fun t => unboundIn t l d) (fun t a ha ht => unboundIn_write hg hl ha ht) (fun t a ha ht => ?_)
    (fun t a ha ht y => ?_) t hb y
  · obtain ⟨sl, rfl⟩ := hl a ha
    exact (keeps_writeW fun f => ht u w sl f ha).trans (hg.keeps _ (.fib u w sl))
  · obtain ⟨sl, rfl⟩ := hl a ha
    have hw : ∀ f, t.fibre? u w sl = some f → mget f.binds d = none := fun f => ht u w sl f ha
    rw [hf, (keeps_writeW hw).flagWeave]
    exact congrArg (Option.map _) (weave?_map_writeW (fun _ _ => rfl) hw u y)
end

/-- An instruction that writes a fibre register completes with its results in place. -/
theorem regOp_completes {i : Instr} {r : RegOp} {s : State} {k : Iss} (h : i.regOp = some r) (hk : readyFib i s = some k) (hd : r.d.uni = false)
    (hb : unboundIn s k.acts r.d.num.toNat) : exec i s = .next (k.after false (r.result k s)) := by
  have hl := acts_of hk
  have hu : ∀ a ∈ k.acts, a.uid = k.uid := fun a ha => by obtain ⟨sl, rfl⟩ := hl a ha; rfl
  have hb' := unboundIn_of_binds (keeps_consume s k.pc hu r.srcs).binds hb
  rw [regOp_result h]
  refine completes (d := r.result k s) (sw := false) (wd0 := false) hk rfl (cursor_of_sched ?_)
  rw [RegOp.result_writeAll hl hd]
  exact ((writeAll_spec (quiet_raiseIf _ _) _ _ k.acts (u := k.uid) (fun a ha => ⟨_, hl a ha⟩) _ hb').2.1 ..).trans (sched_consume ..)

/-- Settles O9: the result is the fold of the participants' writes over the state with last uses released (`RegOp.result_writeAll`), and each part of
the frame is kept by every one of those writes. -/
theorem laneResult : Obligations.LaneResult := by
  intro i r s k h hk hp hd hb
  have hl := acts_of hk
  have hu : ∀ a ∈ k.acts, a.uid = k.uid := fun a ha => by obtain ⟨sl, rfl⟩ := hl a ha; rfl
  have hrel := released_consume k r.srcs s hu
  have hb' := unboundIn_of_binds hrel.rest.binds hb
  have hg := quiet_raiseIf r.fp fun a => (r.val s (s.consume k.pc k.acts r.srcs) a).2
  obtain ⟨hlanes, hval, hregs, hpreds⟩ := writeAll_consume hg (fun a => (r.val s (s.consume k.pc k.acts r.srcs) a).1) hl hp hb
  refine ⟨r.result k s, regOp_completes h hk hd hb, ?_⟩
  rw [RegOp.result_writeAll hl hd]
  refine ⟨hlanes, hval, hregs, hpreds, fun v y n => (readK_writeAll hg hl hb' v y n).trans (hrel.uniform v y n), fun y => ?_⟩
  rw [flags_writeAll hg hl hb' (fl := fun a => if r.fp then (r.val s (s.consume k.pc k.acts r.srcs) a).2 else 0) (fun t sl y => fpflags_raiseIf ..),
    hrel.flags, flagsIn_congr hrel.rest.tokeeps]

end Sys2Proof.Machine
end

section
/-! PROOFS. Registers that last uses release, and the record of reads of dead ones. -/
namespace Sys2Proof.Machine

/-! ### Last uses and dead reads -/

/-- A fold reaches a goal that one of its steps reaches from wherever the fold may stand, and that every step keeps. -/
theorem foldl_reaches {α σ : Type} {P Q : σ → Prop} {f : σ → α → σ} {l : List α} (hP : ∀ t, ∀ a ∈ l, P t → P (f t a))
    (hQ : ∀ t, ∀ a ∈ l, Q t → Q (f t a)) {a : α} (ha : a ∈ l) (h : ∀ t, P t → Q (f t a)) {t : σ} (ht : P t) : Q (l.foldl f t) := by
  obtain ⟨l1, l2, rfl⟩ := List.append_of_mem ha
  rw [List.foldl_append, List.foldl_cons]
  have h1 : P (l1.foldl f t) := List.foldlRecOn (motive := P) l1 f ht fun x hx b hb => hP x b (by simp [hb]) hx
  exact List.foldlRecOn (motive := Q) l2 f (h _ h1) fun x hx b hb => hQ x b (by simp [hb]) hx

/-- A last use of register n would release it: no binding holds it, and it is none of a helper's shared range. -/
def Fibre.releases (f : Fibre) (n : Nat) : Prop := mget f.binds n = none ∧ (f.isHelper && decide (16 ≤ n)) = false

/-- Register n is dead, and a last use releases it. -/
def Fibre.deadAt (f : Fibre) (n : Nat) : Prop := f.releases n ∧ mget f.regs n = some .dead

/-- A fibre stands in its slot and is as p says. -/
def State.fibreHas (s : State) (u w sl : Nat) (p : Fibre → Prop) : Prop := ∃ f, s.fibre? u w sl = some f ∧ p f

theorem Fibre.used_rest (f : Fibre) (x : Src) : (f.used x).rest = f.rest := by
  unfold Fibre.used
  split
  · split <;> rfl
  · rfl

theorem Fibre.releases.used {f : Fibre} {n : Nat} (h : f.releases n) (x : Src) : (f.used x).releases n :=
  ⟨(congrArg (fun g : Fibre => mget g.binds n) (f.used_rest x)).trans h.1,
    (congrArg (fun g : Fibre => g.isHelper && decide (16 ≤ n)) (f.used_rest x)).trans h.2⟩

theorem Fibre.releases.used_dead {f : Fibre} {x : Src} (h : f.releases x.num.toNat) (hl : x.last = true) (hu : x.uni = false) :
    (f.used x).deadAt x.num.toNat := by
  refine ⟨h.used x, ?_⟩
  obtain ⟨hb, hh⟩ := h
  simp [Fibre.used, hl, hu, hb, hh]

theorem Fibre.deadAt.used {f : Fibre} {n : Nat} (h : f.deadAt n) (x : Src) : (f.used x).deadAt n := by
  by_cases hx : x.last = true ∧ x.uni = false ∧ x.num.toNat = n
  · obtain ⟨hl, hu, rfl⟩ := hx
    exact h.1.used_dead hl hu
  · exact ⟨h.1.used x, (used_regs f x n hx).trans h.2⟩

/-- Releasing a source leaves a fibre as it says, if last uses do. -/
theorem State.fibreHas.release {s : State} {u w sl : Nat} {p : Fibre → Prop} (h : s.fibreHas u w sl p) (hp : ∀ f x, p f → p (f.used x))
    (a : Actor) (x : Src) : (s.release a x).fibreHas u w sl p := by
  obtain ⟨f, hf, hpf⟩ := h
  by_cases ha : a = .fib u w sl
  · exact ⟨f.used x, by simp [fibre?_release, ha, hf], hp f x hpf⟩
  · exact ⟨f, by simp [fibre?_release, ha, hf], hpf⟩

theorem State.fibreHas.releaseAll {s : State} {u w sl : Nat} {p : Fibre → Prop} (h : s.fibreHas u w sl p) (hp : ∀ f x, p f → p (f.used x))
    (a : Actor) (srcs : List Src) : (s.releaseAll a srcs).fibreHas u w sl p :=
  List.foldlRecOn (motive := fun t => State.fibreHas t u w sl p) srcs _ h fun _ ht x _ => ht.release hp a x

/-- A last use makes its register dead, and so it stands when all sources are released. -/
theorem fibreHas_consume_deadAt {s : State} {pc : Word} {acts : List Actor} {srcs : List Src} {u w sl n : Nat} (hl : lastUsed acts srcs u w sl n)
    (hf : s.fibreHas u w sl fun f => f.releases n) : (s.consume pc acts srcs).fibreHas u w sl fun f => f.deadAt n := by
  obtain ⟨ha, x, hx, hlast, huni, rfl⟩ := hl
  have hnote : (s.noteAll pc acts srcs).fibreHas u w sl fun f => f.releases x.num.toNat := by
    unfold State.fibreHas
    rw [fibre?_noteAll]
    exact hf
  have hR {f : Fibre} (y : Src) (h : f.releases x.num.toNat) := h.used y
  have hD {f : Fibre} (y : Src) (h : f.deadAt x.num.toNat) := h.used y
  refine foldl_reaches (P := fun t => State.fibreHas t u w sl fun f => f.releases x.num.toNat)
    (Q := fun t => State.fibreHas t u w sl fun f => f.deadAt x.num.toNat)
    (fun t b _ h => h.releaseAll (fun _ y => hR y) b srcs) (fun t b _ h => h.releaseAll (fun _ y => hD y) b srcs) ha (fun t ht => ?_) hnote
  refine foldl_reaches (P := fun t => State.fibreHas t u w sl fun f => f.releases x.num.toNat)
    (Q := fun t => State.fibreHas t u w sl fun f => f.deadAt x.num.toNat)
    (fun t y _ h => h.release (fun _ z => hR z) _ y) (fun t y _ h => h.release (fun _ z => hD z) _ y) hx (fun t ht => ?_) ht
  obtain ⟨f, hf, hr⟩ := ht
  exact ⟨f.used x, by simp [fibre?_release, hf], hr.used_dead hlast huni⟩

/-- A dead register that is the fibre's own reads as 0 and is recorded. -/
theorem readW_of_deadAt {s : State} {u w sl n : Nat} {f : Fibre} (hf : s.fibre? u w sl = some f) (hh : (f.isHelper && decide (16 ≤ n)) = false)
    (hr : mget f.regs n = some .dead) : s.readW u w sl n = (0, some (w, f.fslot, n)) := by
  unfold State.readW
  simp only [hf, hh, hr, Bool.false_eq_true, if_false]

/-- A read that is recorded as dead gives 0. -/
theorem readW_eq_zero {s : State} {u w sl n : Nat} {r : Nat × Nat × Nat} (h : (s.readW u w sl n).2 = some r) : (s.readW u w sl n).1 = 0 := by
  unfold State.readW at h ⊢
  split at h
  · cases h
  · split at h
    · split at h
      · split at h
        · split at h
          · split at h
            · rename_i hd
              simp [*]
            · cases h
          · cases h
        · cases h
      · cases h
    · split at h
      · cases h
      · cases h
      · simp [*]

theorem src_eq_zero {s : State} {a : Actor} {x : Src} {r : Nat × Nat × Nat} (h : (s.readSrc a x).2 = some r) : s.src a x = 0 := by
  cases a with
  | seq u => cases h
  | fib u w sl =>
    unfold State.src
    unfold State.readSrc at h ⊢
    dsimp only at h ⊢
    split at h
    · cases h
    · rename_i hu
      rw [if_neg hu]
      exact readW_eq_zero h

/-- The record of a dead read (R39). -/
structure DeadRecord where
  dr : Bool
  slot : Nat
  reg : Nat
  pc : Word

def Weave.deadRecord (x : Weave) : DeadRecord := ⟨x.deadDR, x.deadSlot, x.deadReg, x.deadPc⟩

theorem deadRecord_raiseIf (fp : Bool) (fl : Actor → FFlags) (t : State) (a : Actor) (v y : Nat) :
    ((raiseIf fp fl t a).weave? v y).map Weave.deadRecord = (t.weave? v y).map Weave.deadRecord := by
  unfold raiseIf State.raise
  split
  · split
    · refine weave?_map_updWeave (p := Weave.deadRecord) (fun x => ?_) ..
      rfl
    · rfl
  · rfl

/-- What an element instruction of one participant with one source leaves recorded: what noting that source does. -/
theorem deadRecord_result {r : RegOp} {s : State} {k : Iss} {a : Actor} {x : Src} (hl : ∀ a ∈ k.acts, ∃ sl, a = .fib k.uid k.w sl)
    (hd : r.d.uni = false) (hb : unboundIn s k.acts r.d.num.toNat) (ha : k.acts = [a]) (hx : r.srcs = [x]) (v : Nat) :
    ((r.result k s).weave? k.uid v).map Weave.deadRecord
      = ((s.noteDead k.uid k.pc (s.readSrc a x).2).weave? k.uid v).map Weave.deadRecord := by
  have hu : ∀ a ∈ k.acts, a.uid = k.uid := fun a ha => by obtain ⟨sl, rfl⟩ := hl a ha; rfl
  have hb' := unboundIn_of_binds (keeps_consume s k.pc hu r.srcs).binds hb
  have hc : s.consume k.pc k.acts r.srcs = (s.noteDead k.uid k.pc (s.readSrc a x).2).release a x := by
    rw [ha, hx, ← hu a (by simp [ha])]
    rfl
  rw [RegOp.result_writeAll hl hd]
  obtain ⟨sl, rfl⟩ := hl a (by simp [ha])
  rw [ha, writeAll, List.foldl_cons, List.foldl_nil, deadRecord_raiseIf,
    weave?_map_writeW (p := Weave.deadRecord) (fun _ _ => rfl) (fun f => ha ▸ hb' k.uid k.w sl f (by simp [ha])), ← ha, hc,
    weave?_map_release (p := Weave.deadRecord) fun _ _ => rfl]

/-- Settles O11: a last use makes its register dead and no later release or write of the instruction revives it (`fibreHas_consume_deadAt`); the
record of a dead read is the one that `State.noteDead` leaves (`deadRecord_result`). -/
theorem registerLife : Obligations.RegisterLife := by
  refine ⟨fun i r s k u w sl n f h hk hd hb hlast hn hf hbind hh => ?_, fun i r s k v fs n a x y h hk hd hb ha hx hdead hy => ?_⟩
  · have hl := acts_of hk
    have hu : ∀ a ∈ k.acts, a.uid = k.uid := fun a ha => by obtain ⟨sl, rfl⟩ := hl a ha; rfl
    have hkc := keeps_consume s k.pc hu r.srcs
    have hg := quiet_raiseIf r.fp fun a => (r.val s (s.consume k.pc k.acts r.srcs) a).2
    obtain ⟨hkw, -, -, hregs, -⟩ := writeAll_spec hg r.d.num.toNat (fun a => (r.val s (s.consume k.pc k.acts r.srcs) a).1) k.acts (u := k.uid)
      (fun a ha => ⟨_, hl a ha⟩) _ (unboundIn_of_binds hkc.binds hb)
    rw [← RegOp.result_writeAll hl hd] at hkw hregs
    obtain ⟨f1, hf1, -, hr1⟩ := fibreHas_consume_deadAt (pc := k.pc) hlast ⟨f, hf, hbind, hh⟩
    have hreg : (r.result k s).reg? u w sl n = some .dead := by
      rw [hregs u w sl n fun e => hn e.2]
      simp [State.reg?, hf1, hr1]
    have hrest := (hkc.trans hkw).fibres u w sl
    rw [hf, Option.map_some, Option.map_eq_some_iff] at hrest
    obtain ⟨f2, hf2, he⟩ := hrest
    have hr2 : mget f2.regs n = some .dead := by simpa [State.reg?, hf2] using hreg
    have hslot : f2.fslot = f.fslot := (congrArg Fibre.fslot he :)
    have hhelp : f2.isHelper = f.isHelper := (congrArg Fibre.isHelper he :)
    exact ⟨_, regOp_completes h hk hd hb, hreg, hslot ▸ readW_of_deadAt hf2 (hhelp ▸ hh) hr2⟩
  · have hrec := deadRecord_result (acts_of hk) hd hb ha hx v
    rw [hdead, State.noteDead, State.weave?_updWeave_self, hy] at hrec
    simp only [Option.map_some, Option.map_eq_some_iff] at hrec
    obtain ⟨z, hz, he⟩ := hrec
    refine ⟨src_eq_zero hdead, _, z, regOp_completes h hk hd hb, hz, ?_⟩
    unfold Weave.deadRecord at he
    injection he with hdr hslot hreg hpc
    cases hy : y.deadDR <;> simp_all

end Sys2Proof.Machine
end

section
/-! PROOFS. Instructions that write predicates. -/
namespace Sys2Proof.Machine

/-! ### Predicates -/

/-- The predicates of an actor that is there. -/
def State.preds? (s : State) : Actor → Option (BitVec 16)
  | .fib u w sl => (s.fibre? u w sl).map Fibre.preds
  | .seq u => (s.stream? u).map Stream.preds

theorem predsOf_eq (s : State) (a : Actor) : s.predsOf a = (s.preds? a).getD 0 := by cases a <;> rfl

theorem stream?_updWeave (s : State) (u w : Nat) (f : Weave → Weave) (v : Nat) : (s.updWeave u w f).stream? v = s.stream? v := by
  unfold State.stream? State.updWeave
  by_cases h : v = u
  · subst h
    cases hb : s.block? v <;> simp [hb, Block.updWeave]
  · simp [h]

theorem fibre?_updStream (s : State) (u : Nat) (f : Stream → Stream) (v y sl : Nat) : (s.updStream u f).fibre? v y sl = s.fibre? v y sl := by
  unfold State.fibre? State.weave? State.updStream
  by_cases h : v = u
  · subst h
    cases hb : s.block? v <;> simp [hb, Block.updStream]
  · simp [h]

theorem stream?_updStream (s : State) (u : Nat) (f : Stream → Stream) (v : Nat) :
    (s.updStream u f).stream? v = if v = u then (s.stream? u).map f else s.stream? v := by
  split
  · subst_vars; simp
  · rename_i h
    simp [State.stream?, State.updStream, h]

theorem preds?_updFibre (s : State) (u w sl : Nat) (f : Fibre → Fibre) (b : Actor) :
    (s.updFibre u w sl f).preds? b = if b = .fib u w sl then (s.fibre? u w sl).map fun x => (f x).preds else s.preds? b := by
  cases b with
  | fib v y sm =>
    simp only [State.preds?, State.fibre?_updFibre, Actor.fib.injEq]
    split <;> simp [Function.comp_def]
  | seq v => simp [State.preds?, State.updFibre, stream?_updWeave]

theorem preds?_updStream (s : State) (u : Nat) (f : Stream → Stream) (b : Actor) :
    (s.updStream u f).preds? b = if b = .seq u then (s.stream? u).map fun x => (f x).preds else s.preds? b := by
  cases b with
  | fib v y sm => simp [State.preds?, fibre?_updStream]
  | seq v =>
    simp only [State.preds?, stream?_updStream, Actor.seq.injEq]
    split <;> simp [Function.comp_def]

theorem writeP_zero (s : State) (a : Actor) (v : Bool) : s.writeP a 0 v = s := rfl

theorem writeP_fib {s : State} {u w sl n : Nat} {v : Bool} (hn : n ≠ 0) :
    s.writeP (.fib u w sl) n v = s.updFibre u w sl fun f =>
      { f with preds := setBit16 (s.predsOf (.fib u w sl)) n v, pend := clearPendPred f.pend (BitVec.ofNat 4 n) } := by
  unfold State.writeP
  rw [if_neg hn]
  simp only [State.setPreds, State.updFibre, State.updWeave_updWeave]
  congr 1
  funext x
  simp [Weave.updFibre, mupd_mupd]

theorem writeP_seq {s : State} {u n : Nat} {v : Bool} (hn : n ≠ 0) :
    s.writeP (.seq u) n v = s.updStream u fun x =>
      { x with preds := setBit16 (s.predsOf (.seq u)) n v, pend := clearPendPred x.pend (BitVec.ofNat 4 n) } := by
  unfold State.writeP
  rw [if_neg hn]
  simp only [State.setPreds, State.updStream, State.updBlock_updBlock]
  congr 1
  funext x
  simp only [Block.updStream, Option.map_map]
  rfl

theorem getLsbD_setBit16 {x : BitVec 16} {n : Nat} (hn : n < 16) (v : Bool) (m : Nat) :
    (setBit16 x n v).getLsbD m = if m = n then v else x.getLsbD m := by
  unfold setBit16
  by_cases hm : m < 16
  · cases v <;> simp only [if_true, if_false, Bool.false_eq_true, BitVec.getLsbD_or, BitVec.getLsbD_and, BitVec.getLsbD_not,
      BitVec.getLsbD_shiftLeft, BitVec.getLsbD_one] <;> grind
  · have hmn : m ≠ n := by omega
    rw [if_neg hmn, BitVec.getLsbD_of_ge _ _ (by omega), BitVec.getLsbD_of_ge _ _ (by omega)]

theorem preds?_writeP (s : State) (a : Actor) {n : Nat} (hn : n ≠ 0) (v : Bool) (b : Actor) :
    (s.writeP a n v).preds? b = if b = a then (s.preds? a).map fun _ => setBit16 (s.predsOf a) n v else s.preds? b := by
  cases a with
  | fib u w sl => rw [writeP_fib hn, preds?_updFibre]; simp [State.preds?, Function.comp_def]
  | seq u => rw [writeP_seq hn, preds?_updStream]; simp [State.preds?, Function.comp_def]

theorem pred_congr {s t : State} {b : Actor} (h : t.preds? b = s.preds? b) (m : Nat) : t.pred b m = s.pred b m := by
  unfold State.pred
  rw [predsOf_eq, predsOf_eq, h]

theorem preds?_writeP_isSome (s : State) (a : Actor) (n : Nat) (v : Bool) (b : Actor) :
    ((s.writeP a n v).preds? b).isSome = (s.preds? b).isSome := by
  by_cases hn : n = 0
  · subst hn
    rw [writeP_zero]
  · rw [preds?_writeP s a hn v b]
    split
    · subst_vars; simp
    · rfl

/-- A predicate after a write to one of p0 to p15 of an actor that is there. -/
theorem pred_writeP {s : State} {a : Actor} (ha : (s.preds? a).isSome) {n : Nat} (hn : n < 16) (v : Bool) (b : Actor) (m : Nat) :
    (s.writeP a n v).pred b m = if b = a ∧ m = n then n = 0 || v else s.pred b m := by
  by_cases h0 : n = 0
  · subst h0
    rw [writeP_zero]
    split
    · rename_i h
      simp [State.pred, h.2]
    · rfl
  · by_cases hb : b = a
    · subst hb
      obtain ⟨p, hp⟩ := Option.isSome_iff_exists.mp ha
      have hw := preds?_writeP s b h0 v b
      simp only [hp, if_true, Option.map_some] at hw
      simp only [State.pred, predsOf_eq (s.writeP b n v), hw, Option.getD_some, getLsbD_setBit16 hn, true_and]
      by_cases hm : m = n
      · subst hm; simp [h0]
      · simp [hm]
    · rw [if_neg fun h => hb h.1]
      exact pred_congr ((preds?_writeP s a h0 v b).trans (if_neg hb)) m

/-- Steps that each give one actor's predicates of K their values: the predicates afterwards. -/
theorem foldl_pred {step : State → Actor → State} {K : Nat → Prop} {val : Actor → Nat → Bool} {l : List Actor}
    (hs : ∀ t, ∀ a ∈ l, ∀ b, ((step t a).preds? b).isSome = (t.preds? b).isSome)
    (h1 : ∀ t, ∀ a ∈ l, (t.preds? a).isSome → ∀ m, K m → (step t a).pred a m = val a m)
    (h2 : ∀ t, ∀ a ∈ l, (t.preds? a).isSome → ∀ b m, ¬(b = a ∧ K m) → (step t a).pred b m = t.pred b m)
    {t : State} (ht : ∀ a ∈ l, (t.preds? a).isSome) (b : Actor) (m : Nat) :
    (K m → b ∈ l → (l.foldl step t).pred b m = val b m) ∧ (¬(b ∈ l ∧ K m) → (l.foldl step t).pred b m = t.pred b m) := by
  induction l generalizing t with
  | nil => exact ⟨fun _ h => (List.not_mem_nil h).elim, fun _ => rfl⟩
  | cons a r ih =>
    have ha := List.mem_cons_self (a := a) (l := r)
    have hr {b : Actor} (hb : b ∈ r) : b ∈ a :: r := List.mem_cons_of_mem _ hb
    obtain ⟨i1, i2⟩ := ih (t := step t a) (fun t b hb => hs t b (hr hb)) (fun t b hb => h1 t b (hr hb)) (fun t b hb => h2 t b (hr hb))
      fun b hb => (hs t a ha b).trans (ht b (hr hb))
    rw [List.foldl_cons]
    refine ⟨fun hm hb => ?_, fun h => ?_⟩
    · by_cases hbr : b ∈ r
      · exact i1 hm hbr
      · obtain rfl := (List.mem_cons.mp hb).resolve_right hbr
        exact (i2 fun h => hbr h.1).trans (h1 t b ha (ht b ha) m hm)
    · refine (i2 fun e => h ⟨hr e.1, e.2⟩).trans (h2 t a ha (ht a ha) b m fun e => h ⟨e.1 ▸ ha, e.2⟩)

/-- Beyond what `lanesOnly` says, every register and uniform register stands as it was. -/
structure predsOnly (u : Nat) (s t : State) : Prop extends lanesOnly u s t where
  regs : ∀ v y sl n, t.reg? v y sl n = s.reg? v y sl n
  uniform : ∀ v y n, t.readK v y n = s.readK v y n

theorem predsOnly.refl (u : Nat) (s : State) : predsOnly u s s := ⟨⟨.refl u s, fun _ _ => rfl⟩, fun _ _ _ _ => rfl, fun _ _ _ => rfl⟩

theorem lanesOnly.trans {u : Nat} {s t r : State} (h : lanesOnly u s t) (g : lanesOnly u t r) : lanesOnly u s r :=
  ⟨h.tokeeps.trans g.tokeeps, fun v y => (g.sched v y).trans (h.sched v y)⟩

theorem predsOnly.trans {u : Nat} {s t r : State} (h : predsOnly u s t) (g : predsOnly u t r) : predsOnly u s r :=
  ⟨h.tolanesOnly.trans g.tolanesOnly, fun v y sl n => (g.regs v y sl n).trans (h.regs v y sl n),
    fun v y n => (g.uniform v y n).trans (h.uniform v y n)⟩

theorem predsOnly_foldl {α : Type} {u : Nat} {f : State → α → State} {l : List α} (h : ∀ t, ∀ a ∈ l, predsOnly u t (f t a)) (s : State) :
    predsOnly u s (l.foldl f s) :=
  List.foldlRecOn (motive := fun t => predsOnly u s t) l f (.refl u s) fun t ht a ha => ht.trans (h t a ha)

theorem readK_updFibre (s : State) (u w sl : Nat) (f : Fibre → Fibre) (v y n : Nat) : (s.updFibre u w sl f).readK v y n = s.readK v y n :=
  readK_updWeave (f := fun x => x.updFibre sl f) (fun _ => rfl) v y n

theorem fpflags_updFibre (s : State) (u w sl : Nat) (f : Fibre → Fibre) (v y : Nat) : (s.updFibre u w sl f).fpflags v y = s.fpflags v y :=
  fpflags_updWeave (f := fun x => x.updFibre sl f) (fun _ => rfl) v y

/-- A change of a fibre's predicates and outstanding results alone. -/
theorem predsOnly_updFibre {f : Fibre → Fibre} (hf : ∀ x, (f x).rest = x.rest) (hr : ∀ x, (f x).regs = x.regs) (s : State) (u w sl : Nat) :
    predsOnly u s (s.updFibre u w sl f) where
  tolanesOnly := ⟨keeps_updFibre hf, fun v y => sched_updFibre ..⟩
  regs v y sm n := reg?_congr (fibre?_map_updFibre (p := fun f => mget f.regs n) (fun x => by rw [hr]) ..)
  uniform v y n := readK_updFibre ..

theorem predsOnly_writeP (s : State) (u w sl n : Nat) (v : Bool) : predsOnly u s (s.writeP (.fib u w sl) n v) := by
  by_cases hn : n = 0
  · subst hn
    rw [writeP_zero]
    exact .refl u s
  · rw [writeP_fib hn]
    refine predsOnly_updFibre (fun x => ?_) (fun x => ?_) s u w sl <;> rfl

theorem fpflags_writeP (s : State) (u w sl n : Nat) (b : Bool) (v y : Nat) : (s.writeP (.fib u w sl) n b).fpflags v y = s.fpflags v y := by
  by_cases hn : n = 0
  · subst hn
    rfl
  · rw [writeP_fib hn]
    exact fpflags_updFibre ..

theorem predsOnly_raiseIf (fp : Bool) (fl : Actor → FFlags) (s : State) (u w sl : Nat) : predsOnly u s (raiseIf fp fl s (.fib u w sl)) := by
  have hg := quiet_raiseIf fp fl
  refine ⟨⟨hg.keeps s (.fib u w sl), fun v y => hg.sched ..⟩, fun v y sm n => ?_, fun v y n => hg.uniform ..⟩
  unfold State.reg?
  rw [hg.fibre]

theorem preds?_raiseIf (fp : Bool) (fl : Actor → FFlags) (s : State) (u w sl : Nat) (b : Actor) :
    (raiseIf fp fl s (.fib u w sl)).preds? b = s.preds? b := by
  have hg := quiet_raiseIf fp fl
  cases b with
  | fib v y sm => exact congrArg (Option.map Fibre.preds) (hg.fibre ..)
  | seq v => exact congrArg (Option.map Stream.preds) ((hg.keeps s (.fib u w sl)).stream v)

/-- Released sources leave every predicate. -/
theorem released.preds? {k : Iss} {srcs : List Src} {s t : State} (h : released k srcs s t) (b : Actor) : t.preds? b = s.preds? b := by
  cases b with
  | fib v y sm => exact h.preds ..
  | seq v => exact congrArg (Option.map Stream.preds) (h.rest.tokeeps.stream v)

/-- The participants' predicates are there where their fibres are. -/
theorem preds?_of_present {s : State} {k : Iss} (hl : ∀ a ∈ k.acts, ∃ sl, a = .fib k.uid k.w sl) (hp : present s k.acts) :
    ∀ a ∈ k.acts, (s.preds? a).isSome := by
  intro a ha
  have := hp a ha
  obtain ⟨sl, rfl⟩ := hl a ha
  simpa [State.preds?, State.fib?] using this

/-- The destination of a well-formed compare is one of p0 to p15. -/
theorem predOp_lt {i : Instr} {r : PredOp} (h : i.predOp = some r) (hw : i.wf = true) : r.p < 16 := by
  unfold Instr.predOp at h
  split at h <;> cases h <;> simp_all [Instr.wf, Instr.shape, Instr.aform, AForm.ok, Dst.ok]

/-- What passes the checks at its issue is well formed. -/
theorem wf_of_issueCheck {s : State} {k : Iss} {i : Instr} {h : Hdr} {a : Actor} (hc : issueCheck s k i h a = none) : i.wf = true := by
  unfold issueCheck at hc
  cases hw : i.wf with
  | true => rfl
  | false => simp [hw] at hc

theorem wf_of_readyFib {i : Instr} {s : State} {k : Iss} (h : readyFib i s = some k) : i.wf = true := by
  obtain ⟨u, w, blk, x, b, -, -, -, -, -, -, -, -, hne, hcheck, -⟩ := readyFib_cases h
  obtain ⟨a, ha⟩ := List.exists_mem_of_ne_nil _ hne
  exact wf_of_issueCheck (hcheck a ha)

/-! ### Instructions that write predicates -/

/-- The result of a compare, as the writes of its participants. -/
theorem PredOp.write_eq (r : PredOp) (t : State) (a : Actor) (v : Bool × FFlags) :
    r.write t a v = raiseIf r.fp (fun _ => v.2) (t.writeP a r.p v.1) a := rfl

theorem predsOnly_write (r : PredOp) (t : State) (u w sl : Nat) (v : Bool × FFlags) : predsOnly u t (r.write t (.fib u w sl) v) := by
  rw [PredOp.write_eq]
  exact (predsOnly_writeP ..).trans (predsOnly_raiseIf ..)

theorem predsOnly_writePreds (t : State) (u w sl : Nat) (v : Word) : predsOnly u t (writePreds t (.fib u w sl) v) :=
  predsOnly_foldl (fun _ _ _ => predsOnly_writeP ..) t

theorem fpflags_writePreds (t : State) (u w sl : Nat) (v : Word) (x y : Nat) : (writePreds t (.fib u w sl) v).fpflags x y = t.fpflags x y :=
  foldl_same (p := fun t => t.fpflags x y) (fun _ _ _ => fpflags_writeP ..) t

theorem preds?_writePreds_isSome (t : State) (a : Actor) (v : Word) (b : Actor) : ((writePreds t a v).preds? b).isSome = (t.preds? b).isSome :=
  foldl_same (p := fun t => (t.preds? b).isSome) (fun _ _ _ => preds?_writeP_isSome ..) t

/-- Predicates n to n + l - 1 of a participant from the bits of a word of the same numbers. -/
theorem pred_writeRange {t : State} {a : Actor} (ha : (t.preds? a).isSome) (v : Word) {l n : Nat} (hn : n ≠ 0) (hl : n + l ≤ 16)
    (b : Actor) (m : Nat) :
    ((List.range' n l).foldl (fun t i => t.writeP a i (v.getLsbD i)) t).pred b m
      = if b = a ∧ n ≤ m ∧ m < n + l then v.getLsbD m else t.pred b m := by
  induction l generalizing t n with
  | zero => rw [if_neg (by omega)]; rfl
  | succ l ih =>
    rw [List.range'_succ, List.foldl_cons, ih (by rwa [preds?_writeP_isSome]) (by omega) (by omega), pred_writeP ha (by omega)]
    by_cases hb : b = a
    · by_cases hm : m = n
      · subst hm
        simp [hb, hn]
      · have : (n + 1 ≤ m ∧ m < n + 1 + l) ↔ (n ≤ m ∧ m < n + (l + 1)) := by omega
        simp only [hb, hm, this, and_false, if_false]
    · simp [hb]

theorem pred_writePreds {t : State} {a : Actor} (ha : (t.preds? a).isSome) (v : Word) (b : Actor) (m : Nat) :
    (writePreds t a v).pred b m = if b = a ∧ 1 ≤ m ∧ m < 16 then v.getLsbD m else t.pred b m := by
  unfold writePreds
  exact pred_writeRange ha v (by decide) (by decide) b m

/-- What the participants' writes leave of a state with last uses released. -/
theorem released.frame {k : Iss} {srcs : List Src} {s t d : State} (h : released k srcs s t) (g : predsOnly k.uid t d) :
    lanesOnly k.uid s d ∧ (∀ v y sl n, ¬lastUsed k.acts srcs v y sl n → d.reg? v y sl n = s.reg? v y sl n)
      ∧ ∀ v y n, d.readK v y n = s.readK v y n :=
  ⟨h.rest.trans g.tolanesOnly, fun v y sl n hn => (g.regs v y sl n).trans (h.kept v y sl n hn),
    fun v y n => (g.uniform v y n).trans (h.uniform v y n)⟩

theorem completes_lanesOnly {i : Instr} {s d : State} {k : Iss} (hk : readyFib i s = some k) {body : Iss → State → Done}
    (hd : body k s = { st := d }) (h : lanesOnly k.uid s d) : issue i s body = .next (k.after false d) :=
  completes hk (sw := false) (wd0 := false) hd (cursor_of_sched (h.sched ..))

theorem comparePredicates {i : Instr} {r : PredOp} {s : State} {k : Iss} (h : i.predOp = some r) (hk : readyFib i s = some k)
    (hp : present s k.acts) :
    ∃ d, exec i s = .next (k.after false d) ∧ lanesOnly k.uid s d
      ∧ (∀ a ∈ k.acts, d.pred a r.p = (r.p = 0 || (r.val s (s.consume k.pc k.acts r.srcs) a).1))
      ∧ (∀ a n, ¬(a ∈ k.acts ∧ n = r.p) → d.pred a n = s.pred a n)
      ∧ (∀ v y sl n, ¬lastUsed k.acts r.srcs v y sl n → d.reg? v y sl n = s.reg? v y sl n)
      ∧ (∀ v y n, d.readK v y n = s.readK v y n)
      ∧ ∀ y, d.fpflags k.uid y = (s.fpflags k.uid y).map fun x =>
          x ||| flagsIn s k.uid k.w y (fun a => if r.fp then (r.val s (s.consume k.pc k.acts r.srcs) a).2 else 0) k.acts := by
  have hl := acts_of hk
  have hu : ∀ a ∈ k.acts, a.uid = k.uid := fun a ha => by obtain ⟨sl, rfl⟩ := hl a ha; rfl
  have hrel := released_consume k r.srcs s hu
  have hlt := predOp_lt h (wf_of_readyFib hk)
  have hstep : ∀ t, ∀ a ∈ k.acts, predsOnly k.uid t (r.write t a (r.val s (s.consume k.pc k.acts r.srcs) a)) := fun t a ha => by
    obtain ⟨sl, rfl⟩ := hl a ha
    exact predsOnly_write ..
  obtain ⟨hlanes, hregs, hk'⟩ := hrel.frame (predsOnly_foldl hstep (s.consume k.pc k.acts r.srcs))
  have hpre : ∀ a ∈ k.acts, ((s.consume k.pc k.acts r.srcs).preds? a).isSome := fun a ha => by
    rw [hrel.preds?]
    exact preds?_of_present hl hp a ha
  have hwrite : ∀ t, ∀ a ∈ k.acts, ∀ b, (r.write t a (r.val s (s.consume k.pc k.acts r.srcs) a)).preds? b
      = (t.writeP a r.p (r.val s (s.consume k.pc k.acts r.srcs) a).1).preds? b := fun t a ha b => by
    obtain ⟨sl, rfl⟩ := hl a ha
    rw [PredOp.write_eq, preds?_raiseIf]
  have hpred := foldl_pred (step := fun t a => r.write t a (r.val s (s.consume k.pc k.acts r.srcs) a)) (K := fun m => m = r.p)
    (val := fun a _ => r.p = 0 || (r.val s (s.consume k.pc k.acts r.srcs) a).1)
    (fun t a ha b => by rw [hwrite t a ha, preds?_writeP_isSome])
    (fun t a ha hs m hm => by rw [pred_congr (hwrite t a ha a), pred_writeP hs hlt, if_pos ⟨rfl, hm⟩])
    (fun t a ha hs b m hm => by rw [pred_congr (hwrite t a ha b), pred_writeP hs hlt, if_neg hm]) hpre
  have hflags := foldl_flags (u := k.uid) (w := k.w) (step := fun t a => r.write t a (r.val s (s.consume k.pc k.acts r.srcs) a))
    (fl := fun a => if r.fp then (r.val s (s.consume k.pc k.acts r.srcs) a).2 else 0) (ok := fun _ => True) (fun _ _ _ _ => trivial)
    (fun t a ha _ => (hstep t a ha).tokeeps)
    (fun t a ha _ y => by
      obtain ⟨sl, rfl⟩ := hl a ha
      rw [PredOp.write_eq, fpflags_raiseIf, fpflags_writeP, (predsOnly_writeP ..).tokeeps.flagWeave]
      rfl) (s.consume k.pc k.acts r.srcs) trivial
  refine ⟨r.result k s, ?_, hlanes, fun a ha => (hpred a r.p).1 rfl ha, fun a n hn => ?_, hregs, hk', fun y => ?_⟩
  · rw [predOp_result h]
    exact completes_lanesOnly hk rfl hlanes
  · exact ((hpred a n).2 hn).trans (pred_congr (hrel.preds? a) n)
  · exact (hflags y).trans (by rw [hrel.flags, flagsIn_congr hrel.rest.tokeeps])

theorem movedPredicates {f : AForm} {s : State} {k : Iss} (hk : readyFib (.pmov f true) s = some k) (hp : present s k.acts) :
    ∃ d, exec (.pmov f true) s = .next (k.after false d) ∧ lanesOnly k.uid s d
      ∧ (∀ a ∈ k.acts, ∀ n, n < 16 → d.pred a n = (n = 0 || (s.src a f.a).getLsbD n))
      ∧ (∀ a n, a ∉ k.acts → d.pred a n = s.pred a n)
      ∧ (∀ v y sl n, ¬lastUsed k.acts [f.a] v y sl n → d.reg? v y sl n = s.reg? v y sl n)
      ∧ (∀ v y n, d.readK v y n = s.readK v y n) ∧ ∀ v y, d.fpflags v y = s.fpflags v y := by
  have hl := acts_of hk
  have hu : ∀ a ∈ k.acts, a.uid = k.uid := fun a ha => by obtain ⟨sl, rfl⟩ := hl a ha; rfl
  have hrel := released_consume k [f.a] s hu
  obtain ⟨hlanes, hregs, hk'⟩ := hrel.frame (predsOnly_foldl (f := fun t a => writePreds t a (s.src a f.a)) (l := k.acts) (fun t a ha => by
    obtain ⟨sl, rfl⟩ := hl a ha
    exact predsOnly_writePreds ..) (s.consume k.pc k.acts [f.a]))
  have hpre : ∀ a ∈ k.acts, ((s.consume k.pc k.acts [f.a]).preds? a).isSome := fun a ha => by
    rw [hrel.preds?]
    exact preds?_of_present hl hp a ha
  have hpred := foldl_pred (step := fun t a => writePreds t a (s.src a f.a)) (K := fun m => 1 ≤ m ∧ m < 16)
    (val := fun a m => (s.src a f.a).getLsbD m)
    (fun t a _ b => preds?_writePreds_isSome ..)
    (fun t a _ hs m hm => by rw [pred_writePreds hs, if_pos ⟨rfl, hm⟩])
    (fun t a _ hs b m hm => by rw [pred_writePreds hs, if_neg hm]) hpre
  refine ⟨_, completes_lanesOnly hk (body := lane [f.a] writePreds fun s _ a => s.src a f.a) rfl hlanes, hlanes, fun a ha n hn => ?_,
    fun a n ha => ?_, hregs, hk', fun v y => ?_⟩
  · by_cases h0 : n = 0
    · simp [State.pred, h0]
    · rw [(hpred a n).1 ⟨by omega, hn⟩ ha]
      simp [h0]
  · exact ((hpred a n).2 fun h => ha h.1).trans (pred_congr (hrel.preds? a) n)
  · refine (foldl_same (p := fun t : State => t.fpflags v y) (fun t a ha => ?_) _).trans (hrel.flags v y)
    obtain ⟨sl, rfl⟩ := hl a ha
    exact fpflags_writePreds ..

/-- Settles O12: the participants' writes give their predicates the values (`foldl_pred`) and leave all else (`predsOnly`), over the state with last
uses released. -/
theorem predicateResult : Obligations.PredicateResult :=
  ⟨fun _ _ _ _ => comparePredicates, fun _ _ _ => movedPredicates⟩

end Sys2Proof.Machine
end

section
/-! PROOFS. Element instructions of the stream. -/
namespace Sys2Proof.Machine

/-! ### Element instructions of the stream -/

/-- A stream but for its registers, its predicates and its outstanding results. -/
def Stream.rest (x : Stream) : Stream := { x with s := [], preds := 0, pend := [] }

theorem streamOnly.refl (u : Nat) (s : State) : streamOnly u s s := ⟨rfl, fun _ _ => rfl, rfl, rfl⟩

theorem streamOnly_updStream {f : Stream → Stream} (hf : ∀ x, (f x).rest = x.rest) (s : State) (u : Nat) : streamOnly u s (s.updStream u f) where
  panel := rfl
  others v hv := State.block?_updBlock_ne s _ hv
  block := by
    unfold State.updStream
    rw [State.block?_updBlock_self]
    cases s.block? u <;> rfl
  stream := by
    rw [State.stream?_updStream_self]
    cases s.stream? u with
    | none => rfl
    | some x => exact congrArg some (hf x)

/-- The stream reads no register that can be dead and releases none. -/
theorem consume_seq (s : State) (pc : Word) (u : Nat) (srcs : List Src) : s.consume pc [.seq u] srcs = s :=
  (foldl_same (p := id) (fun _ _ _ => rfl) _).trans (foldl_same (p := id) (fun _ _ _ => rfl) s)

theorem RegOp.result_seq {r : RegOp} {s : State} {k : Iss} (ha : k.acts = [.seq k.uid]) :
    r.result k s = s.writeW (.seq k.uid) r.d.num.toNat (r.val s (s.consume k.pc k.acts r.srcs) (.seq k.uid)).1 := by
  unfold RegOp.result RegOp.write
  rw [ha, consume_seq]
  cases r.fp <;> rfl

theorem PredOp.result_seq {r : PredOp} {s : State} {k : Iss} (ha : k.acts = [.seq k.uid]) :
    r.result k s = s.writeP (.seq k.uid) r.p (r.val s (s.consume k.pc k.acts r.srcs) (.seq k.uid)).1 := by
  unfold PredOp.result PredOp.write
  rw [ha, consume_seq]
  cases r.fp <;> rfl

theorem writeW_seq {s : State} {u n : Nat} (hn : n ≠ 0) (v : Word) :
    s.writeW (.seq u) n v = s.updStream u fun x => { x with s := mput x.s n v, pend := clearPend x.pend (.s n) } := if_neg hn

theorem streamOnly_writeW (s : State) (u n : Nat) (v : Word) : streamOnly u s (s.writeW (.seq u) n v) := by
  by_cases hn : n = 0
  · subst hn
    exact .refl u s
  · rw [writeW_seq hn]
    refine streamOnly_updStream (fun x => ?_) s u
    rfl

theorem streamOnly_writeP (s : State) (u n : Nat) (v : Bool) : streamOnly u s (s.writeP (.seq u) n v) := by
  by_cases hn : n = 0
  · subst hn
    exact .refl u s
  · rw [writeP_seq hn]
    refine streamOnly_updStream (fun x => ?_) s u
    rfl

theorem readS_updStream (s : State) (u : Nat) {f : Stream → Stream} (hf : ∀ x, (f x).s = x.s) (v n : Nat) :
    (s.updStream u f).readS v n = s.readS v n := by
  unfold State.readS
  rw [stream?_updStream]
  split
  · subst_vars
    cases s.stream? v <;> simp [hf]
  · rfl

theorem readS_writeP (s : State) (u m : Nat) (b : Bool) (v n : Nat) : (s.writeP (.seq u) m b).readS v n = s.readS v n := by
  by_cases hm : m = 0
  · subst hm
    rfl
  · rw [writeP_seq hm]
    refine readS_updStream s u (fun x => ?_) v n
    rfl

/-- Register s0 discards a write; any other holds it. -/
theorem readS_writeW {s : State} {u : Nat} (hs : (s.stream? u).isSome) (m : Nat) (x : Word) (v n : Nat) :
    (s.writeW (.seq u) m x).readS v n = if v = u ∧ n = m ∧ n ≠ 0 then x else s.readS v n := by
  by_cases hm : m = 0
  · subst hm
    rw [if_neg fun h => h.2.2 h.2.1]
    rfl
  · rw [writeW_seq hm]
    unfold State.readS
    rw [stream?_updStream]
    by_cases hv : v = u
    · subst hv
      obtain ⟨y, hy⟩ := Option.isSome_iff_exists.mp hs
      by_cases hn : n = m
      · subst hn
        simp [hy, hm]
      · simp [hy, hn]
    · simp [hv]

theorem preds?_writeW_seq (s : State) (u n : Nat) (v : Word) (b : Actor) : (s.writeW (.seq u) n v).preds? b = s.preds? b := by
  by_cases hn : n = 0
  · subst hn
    rfl
  · rw [writeW_seq hn, preds?_updStream]
    split
    · subst_vars; rfl
    · rfl

/-- What a ready instruction of the stream finds. -/
structure StreamReady (i : Instr) (s : State) (k : Iss) : Prop where
  weave : k.weave = none
  mac : k.mac = none
  acts : k.acts = [.seq k.uid]
  stream : (s.stream? k.uid).isSome
  ss : ((s.stream? k.uid).map Stream.ss).getD false = false
  wf : i.wf = true

theorem streamReady {i : Instr} {s : State} {k : Iss} (h : readySeq i s = some k) : StreamReady i s k := by
  obtain ⟨u, blk, x, -, -, hx, rfl, -, hss, hacts, -, -, hcheck, -⟩ := readySeq_cases h
  refine ⟨rfl, rfl, hacts, ?_, ?_, wf_of_issueCheck hcheck⟩ <;> simp [seqIss, hx, hss]

theorem streamOnly.ss {u : Nat} {s t : State} (h : streamOnly u s t) : (t.stream? u).map Stream.ss = (s.stream? u).map Stream.ss := by
  have := congrArg (Option.map Stream.ss) h.stream
  simpa [Function.comp_def] using this

/-- An instruction of the stream whose effect stays within the stream's registers and predicates completes. -/
theorem completes_streamOnly {i : Instr} {s d : State} {k : Iss} (h : readySeq i s = some k) {body : Iss → State → Done}
    (hd : body k s = { st := d }) (hs : streamOnly k.uid s d) : issue i s body = .next (k.afterSeq d) := by
  have hr := streamReady h
  rw [issue_readySeq h, hd, finishSeq_after (sw := false) (wd0 := false) hr.mac hr.weave (by rw [hs.ss, hr.ss]), Iss.ends, hr.weave]
  rfl

/-- Settles O14: the stream's one write is all that the instruction leaves (`RegOp.result_seq`, `PredOp.result_seq`), since reading its sources
changes nothing (`consume_seq`). -/
theorem streamResult : Obligations.StreamResult := by
  refine ⟨fun i r s k h hk => ?_, fun i r s k h hk => ?_⟩
  · have hr := streamReady hk
    have hd := RegOp.result_seq (r := r) (s := s) hr.acts
    have hs := streamOnly_writeW s k.uid r.d.num.toNat (r.val s (s.consume k.pc k.acts r.srcs) (.seq k.uid)).1
    refine ⟨_, ?_, hs, readS_writeW hr.stream _ _, ?_⟩
    · rw [regOp_result h]
      exact completes_streamOnly hk (by rw [hd]) hs
    · rw [predsOf_eq, predsOf_eq, preds?_writeW_seq]
  · have hr := streamReady hk
    have hd := PredOp.result_seq (r := r) (s := s) hr.acts
    have hs := streamOnly_writeP s k.uid r.p (r.val s (s.consume k.pc k.acts r.srcs) (.seq k.uid)).1
    have hp : (s.preds? (.seq k.uid)).isSome := by simpa [State.preds?] using hr.stream
    refine ⟨_, ?_, hs, readS_writeP s _ _ _, fun n => ?_⟩
    · rw [predOp_result h]
      exact completes_streamOnly hk (by rw [hd]) hs
    · rw [pred_writeP hp (predOp_lt h hr.wf)]
      by_cases hn : n = r.p <;> simp [hn]

end Sys2Proof.Machine
end

section
/-! PROOFS. Special functions: one operation opened on the mark, one result outstanding for each participant. -/
namespace Sys2Proof.Machine

/-! ### Special functions: one operation opened, one result outstanding for each participant -/

/-- Of the panel only outstanding results differ, in block u. -/
structure pendsOnly (u : Nat) (s t : State) : Prop where
  panel : t = { s with blocks := t.blocks }
  others : ∀ v, v ≠ u → t.block? v = s.block? v
  ops : (t.block? u).map Block.ops = (s.block? u).map Block.ops
  sched : ∀ v y, t.sched v y = s.sched v y
  regs : ∀ v y sl n, t.reg? v y sl n = s.reg? v y sl n
  uniform : ∀ v y n, t.readK v y n = s.readK v y n
  preds : ∀ a, t.preds? a = s.preds? a
  flags : ∀ v y, t.fpflags v y = s.fpflags v y
  fibres : ∀ v y sl, (t.fibre? v y sl).isSome = (s.fibre? v y sl).isSome

theorem pendsOnly.refl (u : Nat) (s : State) : pendsOnly u s s :=
  ⟨rfl, fun _ _ => rfl, rfl, fun _ _ => rfl, fun _ _ _ _ => rfl, fun _ _ _ => rfl, fun _ => rfl, fun _ _ => rfl, fun _ _ _ => rfl⟩

theorem pendsOnly.trans {u : Nat} {s t r : State} (h : pendsOnly u s t) (g : pendsOnly u t r) : pendsOnly u s r where
  panel := by rw [g.panel, h.panel]
  others v hv := (g.others v hv).trans (h.others v hv)
  ops := g.ops.trans h.ops
  sched v y := (g.sched v y).trans (h.sched v y)
  regs v y sl n := (g.regs v y sl n).trans (h.regs v y sl n)
  uniform v y n := (g.uniform v y n).trans (h.uniform v y n)
  preds a := (g.preds a).trans (h.preds a)
  flags v y := (g.flags v y).trans (h.flags v y)
  fibres v y sl := (g.fibres v y sl).trans (h.fibres v y sl)

theorem ops_updWeave (s : State) (u w : Nat) (f : Weave → Weave) (v : Nat) :
    ((s.updWeave u w f).block? v).map Block.ops = (s.block? v).map Block.ops := by
  unfold State.updWeave
  by_cases h : v = u
  · subst h
    cases hb : s.block? v <;> simp [hb, Block.updWeave]
  · simp [h]

/-- A fibre but for its outstanding results. -/
def Fibre.restPend (f : Fibre) : Fibre := { f with pend := [] }

/-- Changes of a weave's fibres that reach their outstanding results alone. -/
theorem pendsOnly_updWeave {f : Weave → Weave} {g : Weave → Map Fibre} (hf : ∀ x, f x = { x with fibres := g x })
    (hg : ∀ x sl, (mget (g x) sl).map Fibre.restPend = (mget x.fibres sl).map Fibre.restPend) (s : State) (u w : Nat) :
    pendsOnly u s (s.updWeave u w f) := by
  have hfib : ∀ v y sl, ((s.updWeave u w f).fibre? v y sl).map Fibre.restPend = (s.fibre? v y sl).map Fibre.restPend := fun v y sl => by
    unfold State.fibre?
    rw [State.weave?_updWeave]
    split
    · rename_i h
      obtain ⟨rfl, rfl⟩ := h
      cases s.weave? v y <;> simp [hf, hg]
    · rfl
  have part {α : Type} (p : Fibre → α) (v y sl : Nat) :
      ((s.updWeave u w f).fibre? v y sl).map (fun x => p x.restPend) = (s.fibre? v y sl).map fun x => p x.restPend := by
    simpa [Function.comp_def] using congrArg (Option.map p) (hfib v y sl)
  refine ⟨rfl, fun v hv => State.block?_updBlock_ne s _ hv, ops_updWeave .., fun v y => sched_updWeave (fun x => by rw [hf]; rfl) v y,
    fun v y sl n => reg?_congr (part (fun x => mget x.regs n) v y sl), fun v y n => readK_updWeave (fun x => by rw [hf]) v y n, fun a => ?_,
    fun v y => fpflags_updWeave (fun x => by rw [hf]) v y, fun v y sl => by simpa using congrArg Option.isSome (hfib v y sl)⟩
  cases a with
  | fib v y sl => exact part Fibre.preds v y sl
  | seq v => exact congrArg (Option.map Stream.preds) (stream?_updWeave ..)

theorem pendsOnly_updPend (s : State) (u w sl : Nat) (f : List Pend → List Pend) : pendsOnly u s (s.updPend (.fib u w sl) f) := by
  refine pendsOnly_updWeave (g := fun x => mupd x.fibres sl fun y => { y with pend := f y.pend }) (fun _ => rfl) (fun x sm => ?_) s u w
  rw [mget_mupd]
  split
  · subst_vars
    cases mget x.fibres sm <;> rfl
  · rfl

/-- Earlier results for a destination are discarded: for a uniform register those of every fibre of the weave (R31). -/
def State.discard (s : State) (u w sl : Nat) : PDst → State
  | .k n => s.updWeave u w fun x => { x with fibres := mmap x.fibres fun _ f => { f with pend := clearPend f.pend (.k n) } }
  | .none => s
  | d => s.updPend (.fib u w sl) fun l => clearPend l d

theorem addPend_eq {p : Pend} (hp : p.pred = none) (s : State) (u w sl : Nat) :
    s.addPend (.fib u w sl) p = (s.discard u w sl p.dst).updPend (.fib u w sl) fun l => l ++ [p] := by
  unfold State.addPend
  rw [hp]
  cases p.dst <;> rfl

theorem pendsOnly_discard (s : State) (u w sl : Nat) (d : PDst) : pendsOnly u s (s.discard u w sl d) := by
  unfold State.discard
  split
  · rename_i n
    refine pendsOnly_updWeave (g := fun x => mmap x.fibres fun _ f => { f with pend := clearPend f.pend (.k n) }) (fun _ => rfl)
      (fun x sm => ?_) s u w
    rw [mget_mmap]
    cases mget x.fibres sm <;> rfl
  · exact .refl u s
  · exact pendsOnly_updPend ..

theorem pendsOnly_addPend {p : Pend} (hp : p.pred = none) (s : State) (u w sl : Nat) : pendsOnly u s (s.addPend (.fib u w sl) p) := by
  rw [addPend_eq hp]
  exact (pendsOnly_discard ..).trans (pendsOnly_updPend ..)

/-- The newest outstanding result of an actor. -/
def State.newest (s : State) (a : Actor) : Option Pend := (s.pendOf a).getLast?

theorem newest_addPend {p : Pend} (hp : p.pred = none) {s : State} {u w sl : Nat} (h : (s.fibre? u w sl).isSome) :
    (s.addPend (.fib u w sl) p).newest (.fib u w sl) = some p := by
  rw [addPend_eq hp]
  obtain ⟨f, hf⟩ := Option.isSome_iff_exists.mp (((pendsOnly_discard s u w sl p.dst).fibres u w sl).trans h)
  simp [State.newest, State.pendOf, State.updPend, hf]

theorem getLast?_clearPend {l : List Pend} {d : PDst} {q : Pend} (h : l.getLast? = some q) (hq : q.dst ≠ d) :
    (clearPend l d).getLast? = some q := by
  simp [clearPend, h, hq]

/-- A fibre's newest outstanding result stands as another fibre gains one, unless that discards it. -/
theorem newest_addPend_ne {p q : Pend} (hp : p.pred = none) {s : State} {u w sl sm : Nat} (hne : sm ≠ sl)
    (hq : ∀ n, p.dst = .k n → q.dst ≠ .k n) (h : s.newest (.fib u w sm) = some q) :
    (s.addPend (.fib u w sl) p).newest (.fib u w sm) = some q := by
  have hupd (t : State) (f : List Pend → List Pend) : (t.updPend (.fib u w sl) f).newest (.fib u w sm) = t.newest (.fib u w sm) := by
    simp [State.newest, State.pendOf, State.updPend, State.fibre?_updFibre, hne]
  rw [addPend_eq hp, hupd]
  unfold State.discard
  split
  · rename_i n hd
    unfold State.newest State.pendOf at h ⊢
    dsimp only at h ⊢
    unfold State.fibre? at h ⊢
    rw [State.weave?_updWeave_self]
    cases hx : s.weave? u w with
    | none => simp [hx] at h
    | some x =>
      cases hf : mget x.fibres sm with
      | none => simp [hx, hf] at h
      | some f =>
        simp only [hx, hf, Option.bind_some, Option.map_some, Option.getD_some] at h
        simp only [Option.map_some, Option.bind_some, mget_mmap, hf, Option.getD_some]
        exact getLast?_clearPend h (hq n hd)
  · exact h
  · rw [hupd]
    exact h

/-- Participants that each gain a result: the newest of each is its own, where none discards another's. -/
theorem newest_foldl {pend : Actor → Pend} (hp : ∀ a, (pend a).pred = none) {u w : Nat} {l : List Actor}
    (hl : ∀ a ∈ l, ∃ sl, a = .fib u w sl) (hne : ∀ a ∈ l, ∀ b ∈ l, b ≠ a → ∀ n, (pend a).dst = .k n → (pend b).dst ≠ .k n)
    {s : State} (hs : ∀ a ∈ l, (s.fib? a).isSome) {b : Actor} (hb : b ∈ l) :
    (l.foldl (fun t a => t.addPend a (pend a)) s).newest b = some (pend b) := by
  induction l generalizing s with
  | nil => exact (List.not_mem_nil hb).elim
  | cons a r ih =>
    have hr {c : Actor} (hc : c ∈ r) : c ∈ a :: r := List.mem_cons_of_mem _ hc
    have ha := List.mem_cons_self (a := a) (l := r)
    obtain ⟨sl, rfl⟩ := hl a ha
    rw [List.foldl_cons]
    by_cases hbr : b ∈ r
    · refine ih (fun c hc => hl c (hr hc)) (fun c hc e he => hne c (hr hc) e (hr he)) (fun c hc => ?_) hbr
      obtain ⟨sm, rfl⟩ := hl c (hr hc)
      exact ((pendsOnly_addPend (hp _) s u w sl).fibres u w sm).trans (hs _ (hr hc))
    · obtain rfl := (List.mem_cons.mp hb).resolve_right hbr
      refine List.foldlRecOn (motive := fun t => State.newest t (.fib u w sl) = some (pend (.fib u w sl))) r _ (newest_addPend (hp _) (hs _ hb))
        fun t ht c hc => ?_
      have hcne : c ≠ .fib u w sl := fun e => hbr (e ▸ hc)
      obtain ⟨sm, rfl⟩ := hl c (hr hc)
      exact newest_addPend_ne (hp _) (fun e => hcne (by rw [e])) (hne _ (hr hc) _ hb hcne.symm) ht

theorem weave?_updBlock {f : Block → Block} (hf : ∀ b, (f b).weaves = b.weaves) (s : State) (u v y : Nat) :
    (s.updBlock u f).weave? v y = s.weave? v y := by
  unfold State.weave?
  by_cases h : v = u
  · subst h
    cases hb : s.block? v <;> simp [hb, hf]
  · simp [h]

/-- A weave whose mark m counts one operation more; 15 counts nowhere (R28, R30). -/
def Weave.counted (x : Weave) (m : Nat) : Weave := if m < 12 then { x with marks := mputCount x.marks m (mcount x.marks m + 1) } else x

theorem stream?_updBlock {f : Block → Block} (hf : ∀ b, (f b).stream = b.stream) (s : State) (u v : Nat) :
    (s.updBlock u f).stream? v = s.stream? v := by
  unfold State.stream?
  by_cases h : v = u
  · subst h
    cases hb : s.block? v <;> simp [hb, hf]
  · simp [h]

/-- A block learns of operation n, of a weave's mark m. -/
def State.registerOp (s : State) (u w m n : Nat) : State :=
  { s.updBlock u fun b => { b with ops := mput b.ops n (some w, m) } with nextOp := n + 1 }

theorem weave?_registerOp (s : State) (u w m n v y : Nat) : (s.registerOp u w m n).weave? v y = s.weave? v y := by
  refine weave?_updBlock (fun b => ?_) s u v y
  rfl

theorem stream?_registerOp (s : State) (u w m n v : Nat) : (s.registerOp u w m n).stream? v = s.stream? v := by
  refine stream?_updBlock (fun b => ?_) s u v
  rfl

theorem ops_registerOp (s : State) (u w m n : Nat) :
    ((s.registerOp u w m n).block? u).map Block.ops = ((s.block? u).map Block.ops).map fun l => mput l n (some w, m) :=
  (congrArg (Option.map Block.ops) (State.block?_updBlock_self s u _)).trans (by cases s.block? u <;> rfl)

theorem openOp_eq (s : State) (u w m : Nat) :
    (s.openOp u (some w) m).1 = (if m < 12 then s.setMark u (some w) m (s.markCount u (some w) m + 1) else s).registerOp u w m s.nextOp := rfl

theorem weave?_openOp (s : State) (u w m v y : Nat) :
    (s.openOp u (some w) m).1.weave? v y = if v = u ∧ y = w then (s.weave? u w).map fun x => x.counted m else s.weave? v y := by
  rw [openOp_eq, weave?_registerOp]
  split
  · rename_i hm
    simp only [State.setMark, State.weave?_updWeave, State.markCount, State.marks]
    split
    · cases s.weave? u w <;> simp [Weave.counted, hm]
    · rfl
  · rename_i hm
    split
    · rename_i h
      obtain ⟨rfl, rfl⟩ := h
      cases s.weave? v y <;> simp [Weave.counted, hm]
    · rfl

/-- An operation opens: its mark counts it, the block knows it, and no part of a weave but its marks changes. -/
structure opens (u w m : Nat) (s t : State) : Prop where
  panel : t = { s with blocks := t.blocks, nextOp := s.nextOp + 1 }
  others : ∀ v, v ≠ u → t.block? v = s.block? v
  ops : (t.block? u).map Block.ops = (s.block? u).map fun b => mput b.ops s.nextOp (some w, m)
  stream : ∀ v, t.stream? v = s.stream? v
  weaves : ∀ v y, t.weave? v y = if v = u ∧ y = w then (s.weave? u w).map fun x => x.counted m else s.weave? v y

theorem opens_openOp (s : State) (u w m : Nat) : opens u w m s (s.openOp u (some w) m).1 where
  panel := by
    unfold State.openOp
    split <;> rfl
  others v hv := by
    unfold State.openOp
    split
    · exact (State.block?_updBlock_ne _ _ hv).trans (State.block?_updBlock_ne s _ hv)
    · exact State.block?_updBlock_ne s _ hv
  ops := by
    rw [openOp_eq, ops_registerOp]
    split
    · rw [State.setMark, ops_updWeave, Option.map_map]
      rfl
    · rw [Option.map_map]
      rfl
  stream v := by
    rw [openOp_eq, stream?_registerOp]
    split
    · exact stream?_updWeave ..
    · rfl
  weaves := weave?_openOp s u w m

section
variable {u w m : Nat} {s t : State} (h : opens u w m s t)
include h

theorem opens.part {α : Type} {p : Weave → α} (hp : ∀ (x : Weave) l, p { x with marks := l } = p x) (v y : Nat) :
    (t.weave? v y).map p = (s.weave? v y).map p := by
  rw [h.weaves]
  split
  · rename_i e
    obtain ⟨rfl, rfl⟩ := e
    have hc : ∀ x : Weave, p (x.counted m) = p x := fun x => by
      unfold Weave.counted
      split
      · exact hp x _
      · rfl
    cases s.weave? v y <;> simp [hc]
  · rfl

theorem opens.fibre? (v y sl : Nat) : t.fibre? v y sl = s.fibre? v y sl := by
  have := congrArg (fun o : Option (Map Fibre) => o.bind fun l => mget l sl) (h.part (p := Weave.fibres) (fun _ _ => rfl) v y)
  unfold State.fibre?
  cases ht : t.weave? v y <;> cases hs : s.weave? v y <;> simp_all

theorem opens.preds? (a : Actor) : t.preds? a = s.preds? a := by
  cases a with
  | fib v y sl => exact congrArg (Option.map Fibre.preds) (h.fibre? ..)
  | seq v => exact congrArg (Option.map Stream.preds) (h.stream v)

theorem opens.reg? (v y sl n : Nat) : t.reg? v y sl n = s.reg? v y sl n := by
  unfold State.reg?
  rw [h.fibre?]

theorem opens.readK (v y n : Nat) : t.readK v y n = s.readK v y n := by
  rw [readK_eq_map, readK_eq_map, h.part (p := Weave.k) fun _ _ => rfl]

theorem opens.fpflags (v y : Nat) : t.fpflags v y = s.fpflags v y := h.part (p := Weave.fpflags) (fun _ _ => rfl) v y

theorem opens.cursor (v y : Nat) : t.cursor v y = s.cursor v y := by
  have := h.part (p := fun x => x.curBatch.map fun b => (x.cur.getD 0, b, x.ss)) (fun _ _ => rfl) v y
  unfold State.cursor
  cases ht : t.weave? v y <;> cases hs : s.weave? v y <;> simp_all

theorem opens.markCount (hw : (s.weave? u w).isSome) (hm : m < 12) (j : Nat) :
    t.markCount u (some w) j = s.markCount u (some w) j + if j = m then 1 else 0 := by
  obtain ⟨x, hx⟩ := Option.isSome_iff_exists.mp hw
  have ht := h.weaves u w
  simp only [hx, and_self, if_true, Option.map_some, Weave.counted, hm] at ht
  unfold State.markCount State.marks
  simp only [ht, hx, Option.map_some, Option.getD_some]
  by_cases hj : j = m
  · subst hj; simp
  · simp [hj]
end

theorem markCount_of_sched {s t : State} {u w : Nat} (h : t.sched u w = s.sched u w) (m : Nat) :
    t.markCount u (some w) m = s.markCount u (some w) m := by
  have := congrArg (Option.map Sched.marks) h
  unfold State.markCount State.marks
  unfold State.sched at this
  cases ht : t.weave? u w <;> cases hs : s.weave? u w <;> simp_all [Weave.sched]

/-- The result of a special function that a participant waits for, of the operation `op`. -/
def LongOp.pend (r : LongOp) (i : Instr) (k : Iss) (s : State) (op : Nat) (a : Actor) : Pend :=
  mkPend k op (k.markOf i) (if r.f.d.uni && some a != k.acts.getLast? then .none else landDst a r.f.d) (r.val s a).1 (r.val s a).2 none

/-- The state that a special function leaves. -/
def LongOp.result (r : LongOp) (i : Instr) (k : Iss) (s : State) : State :=
  k.acts.foldl (fun t a => t.addPend a (r.pend i k s s.nextOp a)) ((s.consume k.pc k.acts (readsOf r.f r.n)).openOp k.uid k.weave (k.markOf i)).1

theorem nextOp_consume (s : State) (pc : Word) (acts : List Actor) (srcs : List Src) : (s.consume pc acts srcs).nextOp = s.nextOp :=
  consume_same (p := State.nextOp) (fun t uid pc r => by cases r <;> rfl)
    (fun t a x => by
      unfold State.release
      split
      · rfl
      · split <;> rfl) ..

theorem longOp_result {i : Instr} {r : LongOp} (h : i.longOp = some r) (s : State) :
    exec i s = issue i s fun k s => { st := r.result i k s } := by
  have hlong : ∀ (j : Instr) (f : AForm) (n : Nat) (op : Fmt → (a b : Nat) → Nat × FFlags),
      laneLong j f n op = fun k s => { st := (⟨f, n, op⟩ : LongOp).result j k s } := fun j f n op => by
    funext k s
    unfold laneLong LongOp.result LongOp.pend
    rw [← nextOp_consume s k.pc k.acts (readsOf f n)]
    rfl
  unfold Instr.longOp at h
  split at h <;> cases h <;> exact congrArg (issue _ s) (hlong ..)

/-- Of the results that participants wait for, no two go to one uniform register. -/
theorem LongOp.pend_unique (r : LongOp) (i : Instr) (k : Iss) (s : State) (op : Nat) {a b : Actor} (hba : b ≠ a) (n : Nat)
    (ha : (r.pend i k s op a).dst = .k n) : (r.pend i k s op b).dst ≠ .k n := by
  simp only [LongOp.pend, mkPend] at ha ⊢
  split at ha
  · cases ha
  · rename_i hta
    split
    · exact PDst.noConfusion
    · rename_i htb
      cases hu : r.f.d.uni with
      | true =>
        simp only [hu, Bool.true_and, bne_iff_ne, ne_eq, Decidable.not_not] at hta htb
        exact absurd (Option.some.inj (htb.trans hta.symm)) hba
      | false =>
        unfold landDst
        cases b <;> simp [hu]

/-- Settles O20: sources are read (`released_consume`), one operation opens (`opens_openOp`), and each participant gains one outstanding result
(`pendsOnly_addPend`, `newest_foldl`). -/
theorem longLatency : Obligations.LongLatency := by
  intro i r s k h hk hp
  have hl := acts_of hk
  have hu : ∀ a ∈ k.acts, a.uid = k.uid := fun a ha => by obtain ⟨sl, rfl⟩ := hl a ha; rfl
  obtain ⟨hw, hweave⟩ : k.weave = some k.w ∧ (s.weave? k.uid k.w).isSome := by
    obtain ⟨u, w, blk, x, b, -, -, hx, -, rfl, -⟩ := readyFib_cases hk
    exact ⟨rfl, by simp [fibIss, Iss.w, hx]⟩
  have hrel := released_consume k (readsOf r.f r.n) s hu
  have hkc := hrel.rest.tokeeps
  have hopen := opens_openOp (s.consume k.pc k.acts (readsOf r.f r.n)) k.uid k.w (k.markOf i)
  have hpend : pendsOnly k.uid _ (r.result i k s) := List.foldlRecOn (motive := pendsOnly k.uid _) k.acts _ (.refl k.uid _) fun t ht a ha => by
    obtain ⟨sl, rfl⟩ := hl a ha
    exact ht.trans (pendsOnly_addPend rfl ..)
  rw [hw] at hpend
  have hblock := hkc.weave_isSome k.w
  refine ⟨r.result i k s, ?_, ?_, fun v hv => ?_, fun hm m => ?_, ?_, fun a ha => ?_, fun v y sl n hn => ?_, fun v y n => ?_, fun a => ?_,
    fun v y => ?_⟩
  · rw [longOp_result h]
    refine completes (d := r.result i k s) (sw := false) (wd0 := false) hk rfl ?_
    rw [cursor_of_sched (hpend.sched ..), hopen.cursor, cursor_of_sched (hrel.rest.sched ..)]
  · rw [hpend.panel, hopen.panel, nextOp_consume, hkc.panel]
  · rw [hpend.others v hv, hopen.others v hv, hkc.others v hv]
  · rw [hw, markCount_of_sched (hpend.sched ..), hopen.markCount (hblock.trans hweave) hm, markCount_of_sched (hrel.rest.sched ..)]
  · have hops := hpend.ops.trans hopen.ops
    have hcb := congrArg (Option.map Block.ops) hkc.block
    obtain ⟨x, hx⟩ := Option.isSome_iff_exists.mp hweave
    obtain ⟨b, hb, -⟩ := Option.bind_eq_some_iff.mp hx
    cases hd : (r.result i k s).block? k.uid with
    | none => cases hc : (s.consume k.pc k.acts (readsOf r.f r.n)).block? k.uid <;> simp_all
    | some b' => cases hc : (s.consume k.pc k.acts (readsOf r.f r.n)).block? k.uid <;> simp_all [nextOp_consume]
  · refine newest_foldl (pend := r.pend i k s s.nextOp) (fun _ => rfl) hl (fun a _ b _ hba n => r.pend_unique i k s s.nextOp hba n)
      (fun c hc => ?_) ha
    have hpc := hp c hc
    obtain ⟨sl, rfl⟩ := hl c hc
    rw [hw]
    show (State.fibre? _ k.uid k.w sl).isSome = true
    rw [hopen.fibre?, hkc.fibre_isSome]
    exact hpc
  · rw [hpend.regs, hopen.reg?, hrel.kept v y sl n hn]
  · rw [hpend.uniform, hopen.readK, hrel.uniform]
  · rw [predsOf_eq, predsOf_eq, hpend.preds, hopen.preds?, hrel.preds?]
  · rw [hpend.flags, hopen.fpflags, hrel.flags]

end Sys2Proof.Machine
end

section
/-! PROOFS. What any write of a register may do to the places where agents stand, a store to a bound register among them: batches may wake and buffers
commit, and every current batch stays current, with its members. -/
namespace Sys2Proof.Machine

/-! ### Places -/

/-- From x to y the batches of a weave keep their members and the current one stays current; single step stays as it was. -/
structure Weave.stays (x y : Weave) : Prop where
  ss : y.ss = x.ss
  members : y.batches.map Batch.members = x.batches.map Batch.members
  cur : ∀ i, x.cur = some i → y.cur = some i

theorem Weave.stays.refl (x : Weave) : x.stays x := ⟨rfl, rfl, fun _ h => h⟩

theorem Weave.stays.trans {x y z : Weave} (h : x.stays y) (g : y.stays z) : x.stays z :=
  ⟨g.ss.trans h.ss, g.members.trans h.members, fun i hi => g.cur i (h.cur i hi)⟩

theorem Weave.stays_foldl {α : Type} {f : Weave → α → Weave} (h : ∀ (x : Weave) a, x.stays (f x a)) (l : List α) (x : Weave) :
    x.stays (l.foldl f x) :=
  List.foldlRecOn (motive := fun y => x.stays y) l f (.refl x) fun y hy a _ => hy.trans (h y a)

/-- Every weave and every stream stands where it stood. -/
structure seated (s t : State) : Prop where
  weaves : ∀ u w x, s.weave? u w = some x → ∃ y, t.weave? u w = some y ∧ x.stays y
  streams : ∀ u, (t.stream? u).map Stream.ss = (s.stream? u).map Stream.ss

theorem seated.refl (s : State) : seated s s := ⟨fun _ _ x h => ⟨x, h, .refl x⟩, fun _ => rfl⟩

theorem seated.trans {s t r : State} (h : seated s t) (g : seated t r) : seated s r where
  weaves u w x hx := by
    obtain ⟨y, hy, hxy⟩ := h.weaves u w x hx
    obtain ⟨z, hz, hyz⟩ := g.weaves u w y hy
    exact ⟨z, hz, hxy.trans hyz⟩
  streams u := (g.streams u).trans (h.streams u)

/-- A change that reaches no block. -/
theorem seated_of_blocks {s t : State} (h : t.blocks = s.blocks) : seated s t := by
  have hb : ∀ u, t.block? u = s.block? u := fun u => congrArg (mget · u) h
  refine ⟨fun u w x hx => ⟨x, ?_, .refl x⟩, fun u => ?_⟩
  · rw [← hx]
    exact congrArg (fun o : Option Block => o.bind fun b => mget b.weaves w) (hb u)
  · exact congrArg (fun o : Option Block => (o.bind Block.stream).map Stream.ss) (hb u)

theorem cacheOnly.seated {s t : State} (h : cacheOnly s t) : seated s t := seated_of_blocks h.blocks

theorem seated_updWeave {f : Weave → Weave} (hf : ∀ x : Weave, x.stays (f x)) (s : State) (u w : Nat) : seated s (s.updWeave u w f) where
  weaves v y x hx := by
    rw [State.weave?_updWeave]
    split
    · rename_i h
      obtain ⟨rfl, rfl⟩ := h
      exact ⟨f x, by rw [hx]; rfl, hf x⟩
    · exact ⟨x, hx, .refl x⟩
  streams v := by rw [stream?_updWeave]

theorem seated_updFibre (f : Fibre → Fibre) (s : State) (u w sl : Nat) : seated s (s.updFibre u w sl f) :=
  seated_updWeave (f := fun x => x.updFibre sl f) (fun _ => ⟨rfl, rfl, fun _ h => h⟩) s u w

theorem seated_updBlock {f : Block → Block} (hw : ∀ b, (f b).weaves = b.weaves) (hs : ∀ b, (f b).stream = b.stream) (s : State) (u : Nat) :
    seated s (s.updBlock u f) where
  weaves v y x hx := ⟨x, (weave?_updBlock hw s u v y).trans hx, .refl x⟩
  streams v := by rw [stream?_updBlock hs]

theorem seated_updStream {f : Stream → Stream} (hf : ∀ x, (f x).ss = x.ss) (s : State) (u : Nat) : seated s (s.updStream u f) where
  weaves v y x hx := by
    refine ⟨x, ?_, .refl x⟩
    rw [← hx]
    exact weave?_updBlock (f := fun b => b.updStream f) (fun _ => rfl) s u v y
  streams v := by
    rw [stream?_updStream]
    split
    · subst_vars
      cases s.stream? v <;> simp [hf]
    · rfl

/-! ### Pushes -/

theorem map_members_set {l : List Batch} {i : Nat} {b c : Batch} (h : l[i]? = some b) (hm : c.members = b.members) :
    (l.set i c).map Batch.members = l.map Batch.members := by
  refine List.ext_getElem? fun j => ?_
  rw [List.getElem?_map, List.getElem?_map, List.getElem?_set]
  by_cases hj : i = j
  · subst hj
    rw [if_pos rfl, if_pos (List.getElem?_eq_some_iff.mp h).1, h]
    exact congrArg some hm
  · rw [if_neg hj]

theorem Weave.stays_set {x : Weave} {i : Nat} {b c : Batch} (h : x.batches[i]? = some b) (hm : c.members = b.members) :
    x.stays { x with batches := x.batches.set i c } := ⟨rfl, map_members_set h hm, fun _ hi => hi⟩

/-- A batch that wakes becomes current only where none is (R180). -/
theorem Weave.stays_wake (x : Weave) (i : Nat) : x.stays (x.wake i) := by
  unfold Weave.wake
  split
  · rename_i b hb
    split
    · exact ⟨rfl, map_members_set hb rfl, fun j hj => by simp [hj]⟩
    · exact .refl x
  · exact .refl x

theorem Weave.stays_latch (x : Weave) (slot n : Nat) (v : Word) : x.stays (x.latch slot n v) := by
  refine Weave.stays_foldl (fun x i => ?_) _ x
  split
  · rename_i b hb
    split
    · split
      · split
        · dsimp only
          split
          · refine .trans (Weave.stays_set hb ?_) (Weave.stays_wake ..)
            rfl
          · refine Weave.stays_set hb ?_
            rfl
        · exact .refl x
      · exact .refl x
    · exact .refl x
  · exact .refl x

theorem Weave.stays_pushed (s : State) (buf : List SEntry) (wx pa n : Nat) (x : Weave) : x.stays (x.pushed s buf wx pa n) := by
  unfold Weave.pushed
  dsimp only
  split
  · exact .refl x
  · exact .trans (y := { x with fibres := mmap x.fibres fun sl f => f.pushed s buf wx sl pa n }) ⟨rfl, rfl, fun _ h => h⟩
      (Weave.stays_foldl (fun y (h : Nat × Nat × Word) => y.stays_latch h.1 h.2.1 h.2.2) _ _)

theorem push_seated {s t : State} {pa n : Nat} (h : seated s t) : seated s (push t pa n) := by
  have hb : ∀ u, (push t pa n).block? u = (t.block? u).map fun b => { b with weaves := mmap b.weaves fun k w => w.pushed t b.sbuf k pa n } :=
    fun u => by
      unfold push State.block?
      rw [mget_mmap]
  refine h.trans ⟨fun u w x hx => ?_, fun u => ?_⟩
  · obtain ⟨b, hbu, hxb⟩ := Option.bind_eq_some_iff.mp hx
    refine ⟨x.pushed t b.sbuf w pa n, ?_, x.stays_pushed t b.sbuf w pa n⟩
    unfold State.weave?
    simp only [hb, hbu, Option.map_some, Option.bind_some, mget_mmap, hxb]
  · unfold State.stream?
    rw [hb]
    cases t.block? u <;> rfl

/-! ### Stores, records and requests -/

section
variable {s t : State}

theorem seated.blocks {r : State} (h : seated s t) (hb : r.blocks = t.blocks) : seated s r := h.trans (seated_of_blocks hb)

theorem foldl_seated {α : Type} {f : State → α → State} {l : List α} (hf : ∀ t a, seated s t → seated s (f t a)) (h : seated s t) :
    seated s (l.foldl f t) :=
  List.foldlRecOn (motive := seated s) l f h fun t ht a _ => hf t a ht

theorem clearPoison_seated {pa n : Nat} (h : seated s t) : seated s (clearPoison t pa n) := h.blocks rfl

theorem ownTouch_seated {c : Option Nat} {pa : Nat} (h : seated s t) : seated s (ownTouch t c pa) := h.trans ((cacheOnly.rfl' t).ownTouch c pa).seated

theorem rawWrite_seated {pa : Nat} {data : List Byte} (h : seated s t) : seated s (rawWrite t pa data) := by
  unfold rawWrite
  split
  · split
    · exact foldl_seated (fun _ _ ht => ht.blocks (State.post_blocks ..)) h
    · exact h
  · split
    · exact h
    · split <;> exact h.blocks rfl

theorem homeWrite_seated {c : Option Nat} {pa : Nat} {data : List Byte} (h : seated s t) : seated s (homeWrite t c pa data) :=
  push_seated (clearPoison_seated (rawWrite_seated (ownTouch_seated h)))

theorem devWrite_seated {pa : Nat} {data : List Byte} (h : seated s t) : seated s (devWrite t pa data) := homeWrite_seated h

theorem updCtx_seated {ctx : Nat} {f : Ctx → Ctx} (h : seated s t) : seated s (t.updCtx ctx f) := h.blocks rfl

theorem post_seated {i : Instr} (h : seated s t) : seated s (t.post i) := h.blocks rfl

theorem tick_seated (h : seated s t) : seated s t.tick := h.blocks rfl

theorem sendUz_seated {session ty status : Nat} {req : Word} {body : List Byte} (h : seated s t) : seated s (sendUz t session ty status req body) :=
  h.blocks rfl

theorem updCore_seated {c : Nat} {f : Core → Core} (h : seated s t) : seated s (t.updCore c f) := h.blocks rfl

theorem writeRecord_seated {ctx : Nat} {r : Rec} {await : Bool} (h : seated s t) : seated s (writeRecord t ctx r await).1 := by
  unfold writeRecord
  split
  · exact h
  · dsimp only
    have hposts {t : State} {l : List Nat} (ht : seated s t) : seated s (l.foldl (fun s o => s.post (.recordCompletion ctx o)) t) :=
      foldl_seated (fun _ _ => post_seated) ht
    split
    · exact sendUz_seated (updCtx_seated (hposts (updCtx_seated (devWrite_seated (devWrite_seated h)))))
    · exact hposts (updCtx_seated (devWrite_seated (devWrite_seated h)))

theorem latePacket_seated {x : Packet} (h : seated s t) : seated s (latePacket t x) := by
  unfold latePacket
  split
  · exact h
  · dsimp only
    split
    · exact writeRecord_seated (tick_seated (updCtx_seated h))
    · exact updCtx_seated h

theorem latePackets_seated {p : Option Packet} {n : Nat} (h : seated s t) : seated s (latePackets t p n) := by
  induction n generalizing t with
  | zero => exact h
  | succ n ih =>
    unfold latePackets
    cases p with
    | none => exact h
    | some x => exact ih (latePacket_seated h)

theorem lateDelivery_seated {uid core n : Nat} (h : seated s t) : seated s (lateDelivery t uid core n) := latePackets_seated h

theorem serveMiss_seated {c line : Nat} (h : seated s t) : seated s (serveMiss t c line) := by
  unfold serveMiss
  split
  · exact h
  · split
    · exact h
    · dsimp only
      split
      · exact updCore_seated ((latePackets_seated h).trans ((cacheOnly.rfl' _).serveOwn _ _).seated)
      · exact updCore_seated ((latePackets_seated h).trans ((cacheOnly.rfl' _).readMiss _ _).seated)

theorem ahead_seated {c line dest : Nat} (h : seated s t) : seated s (ahead t c line dest) :=
  foldl_seated (fun _ _ ht => (serveMiss_seated ht).trans ((cacheOnly.rfl' _).deliverReply _ _).seated) h

theorem storeAhead_seated {l1 : Option Nat} {c pa : Nat} (h : seated s t) : seated s (storeAhead t l1 c pa) := by
  unfold storeAhead
  split
  · split
    · exact h
    · exact ahead_seated h
  · split
    · exact h
    · exact ahead_seated h

theorem refuseWrite_seated {uid c ctx pa seq : Nat} (h : seated s t) : seated s (refuseWrite t uid c ctx pa seq) := h.blocks rfl

theorem lineWrite_seated {uid c : Nat} {l : List SEntry} {line : Nat} (h : seated s t) : seated s (lineWrite t uid c l line) := by
  unfold lineWrite
  exact foldl_seated (fun _ _ => push_seated) (foldl_seated (fun _ _ ht => clearPoison_seated (rawWrite_seated ht))
    (ownTouch_seated (lateDelivery_seated (storeAhead_seated h))))

theorem drain_seated {uid c : Nat} {l : List SEntry} (h : seated s t) : seated s (drain t uid c l) := by
  unfold drain
  split
  · exact h
  · exact foldl_seated (fun _ _ => lineWrite_seated) (foldl_seated (fun _ _ => refuseWrite_seated) h)

/-! ### Store buffers -/

theorem setBuf_seated {q : Buf} {l : List SEntry} (h : seated s t) : seated s (t.setBuf q l) := by
  unfold State.setBuf
  split
  · refine h.trans (seated_updBlock (fun b => ?_) (fun b => ?_) ..) <;> rfl
  · refine h.trans (seated_updWeave (fun x => ?_) ..)
    exact ⟨rfl, rfl, fun _ hi => hi⟩

theorem commitBuf_seated {q : Buf} (h : seated s t) : seated s (commitBuf t q) := by
  refine (drain_seated (setBuf_seated h)).trans (seated_updBlock (fun b => ?_) (fun b => ?_) ..) <;> rfl

theorem forcedCommit_seated {q : Buf} (h : seated s t) : seated s (forcedCommit t q) := updCtx_seated (commitBuf_seated h)

theorem setL1_seated {c : Nat} {f : List (Nat × LineSt) → List (Nat × LineSt)} (h : seated s t) : seated s (setL1 t c f) :=
  h.trans ((cacheOnly.rfl' t).setL1 c f).seated

theorem discard_seated {u pa n : Nat} {who : Option (Nat × Nat)} (h : seated s t) :
    seated s (match who with | some (w, sl) => t.updFibre u w sl fun f => f.discards pa n | none => t) := by
  split
  · exact h.trans (seated_updFibre ..)
  · exact h

theorem bufStore_seated {q : Buf} {pa : Nat} {data : List Byte} {who : Option (Nat × Nat)} {helper : Bool} (h : seated s t) :
    seated s (bufStore t q pa data who helper) := by
  have hforced : seated s (if bufFull t q (lineOf pa) then forcedCommit t q else t) := by
    split
    · exact forcedCommit_seated h
    · exact h
  have hcount {r : State} (hr : seated s r) : seated s (r.updBlock q.uid fun b => { b with stseq := b.stseq + 1 }) := by
    refine hr.trans (seated_updBlock (fun b => ?_) (fun b => ?_) ..) <;> rfl
  unfold bufStore
  dsimp only
  generalize (if bufFull t q (lineOf pa) then forcedCommit t q else t) = r at hforced ⊢
  split
  · exact commitBuf_seated (setBuf_seated (hcount (discard_seated hforced)))
  · exact setL1_seated (setBuf_seated (hcount (discard_seated hforced)))

/-! ### Writing operands -/

theorem boundStore_seated {a : Actor} {b : Binding} {n : Nat} {v : Word} (h : seated s t) : seated s (boundStore t a b n v) := by
  unfold boundStore State.updFib
  cases a with
  | fib u w sl => exact commitBuf_seated (bufStore_seated (h.trans (seated_updFibre ..)))
  | seq u => exact commitBuf_seated (bufStore_seated h)

theorem writeW_seated {a : Actor} {n : Nat} {v : Word} (h : seated s t) : seated s (t.writeW a n v) := by
  unfold State.writeW
  split
  · split
    · exact h
    · refine h.trans (seated_updStream (fun x => ?_) ..)
      rfl
  · split
    · exact h
    · dsimp only
      split
      · exact boundStore_seated (h.trans (seated_updFibre ..))
      · exact (h.trans (seated_updFibre ..)).trans (seated_updFibre ..)

theorem writeD_seated {a : Actor} {d : Dst} {v : Word} (h : seated s t) : seated s (t.writeD a d v) := by
  unfold State.writeD State.writeK
  split
  · split
    · split
      · exact h
      · refine h.trans (seated_updWeave (fun x => ?_) ..)
        exact ⟨rfl, rfl, fun _ hi => hi⟩
    · exact writeW_seated h
  · exact writeW_seated h

theorem writeP_seated {a : Actor} {n : Nat} {v : Bool} (h : seated s t) : seated s (t.writeP a n v) := by
  by_cases hn : n = 0
  · subst hn
    exact h
  · cases a with
    | fib u w sl =>
      rw [writeP_fib hn]
      exact h.trans (seated_updFibre ..)
    | seq u =>
      rw [writeP_seq hn]
      refine h.trans (seated_updStream (fun x => ?_) ..)
      rfl

theorem raise_seated {a : Actor} {fl : FFlags} (h : seated s t) : seated s (t.raise a fl) := by
  unfold State.raise
  split
  · refine h.trans (seated_updWeave (fun x => ?_) ..)
    exact ⟨rfl, rfl, fun _ hi => hi⟩
  · exact h

theorem noteDead_seated {uid : Nat} {pc : Word} {r : Option (Nat × Nat × Nat)} (h : seated s t) : seated s (t.noteDead uid pc r) := by
  unfold State.noteDead
  split
  · exact h
  · refine h.trans (seated_updWeave (fun x => ?_) ..)
    split <;> exact ⟨rfl, rfl, fun _ hi => hi⟩

theorem release_seated {a : Actor} {x : Src} (h : seated s t) : seated s (t.release a x) := by
  unfold State.release
  split
  · exact h
  · split
    · exact h.trans (seated_updFibre ..)
    · exact h

theorem consume_seated {pc : Word} {acts : List Actor} {srcs : List Src} (h : seated s t) : seated s (t.consume pc acts srcs) :=
  foldl_seated (fun _ _ => foldl_seated fun _ _ => release_seated) (foldl_seated (fun _ _ => foldl_seated fun _ _ => noteDead_seated) h)

theorem RegOp.result_seated (r : RegOp) (k : Iss) (s : State) : seated s (r.result k s) :=
  foldl_seated (fun t a ht => by
    unfold RegOp.write
    split
    · exact raise_seated (writeD_seated ht)
    · exact writeD_seated ht) (consume_seated (.refl s))

theorem PredOp.result_seated (r : PredOp) (k : Iss) (s : State) : seated s (r.result k s) :=
  foldl_seated (fun t a ht => by
    unfold PredOp.write
    split
    · exact raise_seated (writeP_seated ht)
    · exact writeP_seated ht) (consume_seated (.refl s))

/-! ### Completion -/

/-- The current batch after agents have kept their places: it may have woken or latched, but it is current and has its members. -/
theorem seated.cursor {u w n : Nat} {b : Batch} {ss : Bool} (h : seated s t) (hc : s.cursor u w = some (n, b, ss)) :
    ∃ c, t.cursor u w = some (n, c, ss) ∧ c.members = b.members := by
  obtain ⟨x, hx, hi, hb, -, hss⟩ := cursor_weave hc
  obtain ⟨y, hy, hstay⟩ := h.weaves u w x hx
  have hm := congrArg (·[n]?) hstay.members
  simp only [List.getElem?_map, hb, Option.map_some, Option.map_eq_some_iff] at hm
  obtain ⟨c, hyc, hcm⟩ := hm
  have hcur := hstay.cur n hi
  exact ⟨c, by simp [State.cursor, Weave.curBatch, hy, hcur, hyc, hstay.ss, hss], hcm⟩

/-- A ready instruction whose effect leaves agents in their places completes. -/
theorem completes_seated {i : Instr} {k : Iss} (h : ready i s = some k) {body : Iss → State → Done} (hd : body k s = { st := t })
    (hs : seated s t) : issue i s body = .next (k.ends false false t) := by
  unfold ready at h
  split at h
  · have hr := streamReady h
    rw [issue_readySeq h, hd, finishSeq_after hr.mac hr.weave (by rw [hs.streams, hr.ss])]
  · obtain ⟨n, b, hcur, hne, hacts⟩ := readyFib_cursor h
    obtain ⟨c, hc, hm⟩ := hs.cursor hcur
    obtain ⟨u, w, blk, x, b', -, -, -, -, hk, -⟩ := readyFib_cases h
    have hweave : k.weave.isNone = false := by rw [hk]; rfl
    rw [issue_readyFib h, hd, finish_after hc (hm ▸ hne) rfl rfl rfl rfl hacts, Iss.ends, hweave]
    rfl

end

/-- Settles O8: the effect is the fold of reads, releases and writes (`regOp_result`, `predOp_result`), and none of these, a store to a bound register
among them, takes the agent from its place (`RegOp.result_seated`, `PredOp.result_seated`). -/
theorem laneCompletes : Obligations.LaneCompletes := by
  refine ⟨fun i r s k h hk => ?_, fun i r s k h hk => ?_⟩
  · rw [regOp_result h]
    exact completes_seated hk rfl (r.result_seated k s)
  · rw [predOp_result h]
    exact completes_seated hk rfl (r.result_seated k s)

end Sys2Proof.Machine
end

section
/-! PROOFS. Encoding and decoding (R42 to R61): the fields that the encoder packs come back from the bits, layout by layout. -/
namespace Sys2Proof.Laws

/-! ### Fields of a packed word -/

theorem unpackBits_add_high : (ws : List Nat) → (n x y : Nat) → ws.sum ≤ n →
    unpackBits ws (x + 2 ^ n * y) = unpackBits ws x
  | [], _, _, _, _ => rfl
  | w :: ws, n, x, y, h => by
    obtain ⟨m, rfl⟩ : ∃ m, n = w + m := ⟨n - w, by simp only [List.sum_cons] at h; omega⟩
    have hm : ws.sum ≤ m := by simp only [List.sum_cons] at h; omega
    simp only [unpackBits, Nat.pow_add, Nat.mul_assoc, Nat.add_mul_mod_self_left,
      Nat.add_mul_div_left _ _ (Nat.two_pow_pos w), unpackBits_add_high ws m _ y hm]

/-- The fields of a packed word come back, whatever stands above it. -/
theorem unpack_pack_high (l : List (Nat × Nat)) (n y : Nat) (h : (l.map Prod.fst).sum ≤ n) :
    unpackBits (l.map Prod.fst) (packBits l + 2 ^ n * y) = l.map fun e => e.2 % 2 ^ e.1 := by
  rw [unpackBits_add_high _ n _ y h, unpack_pack]

theorem ofNat_toNat_mod {w : Nat} (x : BitVec w) : BitVec.ofNat w (x.toNat % 2 ^ w) = x := field_mod x rfl

theorem isOne_bit (b : Bool) : isOne (bit b % 2 ^ 1) = b := bit_mod b

theorem ty_ofCode_code (t : Ty) : Ty.ofCode (t.code % 2 ^ 4) = t := by cases t <;> rfl

theorem guardOf_bits (g : Guard) : guardOf (g.pred.toNat % 2 ^ 4) (bit g.neg % 2 ^ 1) = g := by
  rw [guardOf, ofNat_toNat_mod, isOne_bit]

theorem pattern_ofCode_code (p : Pattern) : Pattern.ofCode (p.code.1 % 2 ^ 3) (p.code.2 % 2 ^ 5) = p := by
  cases p <;> simp [Pattern.code, Pattern.ofCode, field_mod]

theorem pattern_code_beq_zero (p : Pattern) : (p.code.1 % 2 ^ 3 == 0) = decide (p = .none) := by
  cases p <;> rfl

/-- Three bits packed into one field. -/
theorem isOne_three_bits (x y z : Bool) : isOne ((bit x + 2 * bit y + 4 * bit z) % 2 ^ 3 / 2 ^ 0 % 2) = x
    ∧ isOne ((bit x + 2 * bit y + 4 * bit z) % 2 ^ 3 / 2 ^ 1 % 2) = y ∧ isOne ((bit x + 2 * bit y + 4 * bit z) % 2 ^ 3 / 2 ^ 2 % 2) = z := by
  cases x <;> cases y <;> cases z <;> decide

/-- Four bits packed into one field. -/
theorem isOne_four_bits (x y z u : Bool) : isOne ((bit x + 2 * bit y + 4 * bit z + 8 * bit u) % 2 ^ 5 / 2 ^ 0 % 2) = x
    ∧ isOne ((bit x + 2 * bit y + 4 * bit z + 8 * bit u) % 2 ^ 5 / 2 ^ 1 % 2) = y
    ∧ isOne ((bit x + 2 * bit y + 4 * bit z + 8 * bit u) % 2 ^ 5 / 2 ^ 2 % 2) = z
    ∧ isOne ((bit x + 2 * bit y + 4 * bit z + 8 * bit u) % 2 ^ 5 / 2 ^ 3 % 2) = u := by
  cases x <;> cases y <;> cases z <;> cases u <;> decide

/-! ### Forms that the A64 family's bits hold -/

/-- A pattern on A leaves no room for UC bits (R48, R444). -/
def UniRoom (f : AForm) : Prop := f.a.pat = .none ∨ (f.d.uni = false ∧ f.a.uni = false ∧ f.b.uni = false ∧ f.c.uni = false)

/-- Neither a modifier nor, on B and C, a pattern stands in the form (R48). -/
def Unmodified (f : AForm) : Prop :=
  f.b.pat = .none ∧ f.c.pat = .none ∧ f.a.noMods = true ∧ f.b.noMods = true ∧ f.c.noMods = true

/-- The forms that the bits of the A64 family hold under an opcode (R48 to R53, R60): modifiers and patterns on B and C need an A96 form, and the opcode
says which 96-bit forms it has. -/
def Fits (op : Nat) (f : AForm) : Prop :=
  UniRoom f ∧ match f.ext with
    | .a96 _ => onlyI96 op = false
    | .i96 _ => (hasIF op || onlyI96 op) = true ∧ Unmodified f
    | _ => Unmodified f

/-- IF of a form: set on an immediate form of an opcode that has the bit (R52). -/
def ifBit (op : Nat) (f : AForm) : Bool := match f.ext with | .i96 _ => hasIF op | _ => false

/-- FN has 4 bits under an opcode with IF, and else 5 (R52). -/
def fnLimit (op : Nat) : Nat := if hasIF op then 16 else 32

theorem hasIF_of_ifBit {op : Nat} {f : AForm} (h : ifBit op f = true) : hasIF op = true := by
  unfold ifBit at h; split at h
  · exact h
  · cases h

/-- FN and IF come back from bits [63:59]. -/
theorem fn_split {op fn : Nat} (hfn : fn < fnLimit op) (b : Bool) (hb : b = true → hasIF op = true) :
    (if hasIF op then (fn + 16 * bit b) % 2 ^ 5 % 16 else (fn + 16 * bit b) % 2 ^ 5) = fn
    ∧ (hasIF op && decide (16 ≤ (fn + 16 * bit b) % 2 ^ 5)) = b := by
  unfold fnLimit at hfn
  cases hop : hasIF op <;> cases b <;> simp_all [bit] <;> omega

/-- XN, which holds the UC bits where A has no pattern. -/
def xnOf (f : AForm) : Nat :=
  if f.a.pat.code.1 = 0 then bit f.a.uni + 2 * bit f.b.uni + 4 * bit f.c.uni + 8 * bit f.d.uni else f.a.pat.code.2

theorem pattern_of_xn (f : AForm) : Pattern.ofCode (f.a.pat.code.1 % 2 ^ 3) (xnOf f % 2 ^ 5) = f.a.pat := by
  have h := pattern_ofCode_code f.a.pat
  unfold xnOf
  cases hp : f.a.pat <;> simp_all [Pattern.code, Pattern.ofCode]

/-- The UC bits come back, from XN where A has no pattern and else as 0. -/
theorem uni_of_xn {f : AForm} (h : UniRoom f) :
    (f.a.pat.code.1 % 2 ^ 3 == 0 && isOne (xnOf f % 2 ^ 5 / 2 ^ 0 % 2)) = f.a.uni
    ∧ (f.a.pat.code.1 % 2 ^ 3 == 0 && isOne (xnOf f % 2 ^ 5 / 2 ^ 1 % 2)) = f.b.uni
    ∧ (f.a.pat.code.1 % 2 ^ 3 == 0 && isOne (xnOf f % 2 ^ 5 / 2 ^ 2 % 2)) = f.c.uni
    ∧ (f.a.pat.code.1 % 2 ^ 3 == 0 && isOne (xnOf f % 2 ^ 5 / 2 ^ 3 % 2)) = f.d.uni := by
  rw [pattern_code_beq_zero]
  by_cases hp : f.a.pat = .none
  · simpa only [xnOf, hp, Pattern.code, if_true, decide_true, Bool.true_and] using isOne_four_bits f.a.uni f.b.uni f.c.uni f.d.uni
  · obtain ⟨hd, ha, hb, hc⟩ := h.resolve_left hp
    simp only [hp, ha, hb, hc, hd, decide_false, Bool.false_and, and_self]

/-! ### The A64 family's fields come back -/

theorem unpack_aWord (len op fn : Nat) (iff : Bool) (f : AForm) (y : Nat) :
    unpackBits [2, 8, 4, 1, 1, 7, 7, 7, 7, 4, 3, 3, 5, 5] (aWord len op fn iff f + 2 ^ 64 * y)
      = [len % 2 ^ 2, op % 2 ^ 8, f.g.pred.toNat % 2 ^ 4, bit f.g.neg % 2 ^ 1, bit f.ms % 2 ^ 1, f.d.num.toNat % 2 ^ 7, f.a.num.toNat % 2 ^ 7,
        f.b.num.toNat % 2 ^ 7, f.c.num.toNat % 2 ^ 7, f.ty.code % 2 ^ 4, (bit f.a.last + 2 * bit f.b.last + 4 * bit f.c.last) % 2 ^ 3,
        f.a.pat.code.1 % 2 ^ 3, xnOf f % 2 ^ 5, (fn + 16 * bit iff) % 2 ^ 5] :=
  unpack_pack_high [(2, len), (8, op), (4, f.g.pred.toNat), (1, bit f.g.neg), (1, bit f.ms), (7, f.d.num.toNat), (7, f.a.num.toNat),
    (7, f.b.num.toNat), (7, f.c.num.toNat), (4, f.ty.code), (3, bit f.a.last + 2 * bit f.b.last + 4 * bit f.c.last), (3, f.a.pat.code.1),
    (5, xnOf f), (5, fn + 16 * bit iff)] 64 y (by simp)

theorem aWord_div (len op fn : Nat) (iff : Bool) (f : AForm) (y : Nat) : (aWord len op fn iff f + 2 ^ 64 * y) / 2 ^ 64 = y := by
  have h : aWord len op fn iff f < 2 ^ 64 := packBits_lt _
  rw [Nat.add_mul_div_left _ _ (by decide), Nat.div_eq_of_lt h, Nat.zero_add]

theorem unpack_a96Word (sem : BitVec 8) (f : AForm) :
    unpackBits [3, 5, 3, 5, 8, 1, 1, 1, 1, 1, 1] (a96Word sem f)
      = [f.b.pat.code.1 % 2 ^ 3, f.b.pat.code.2 % 2 ^ 5, f.c.pat.code.1 % 2 ^ 3, f.c.pat.code.2 % 2 ^ 5, sem.toNat % 2 ^ 8, bit f.a.neg % 2 ^ 1,
        bit f.b.neg % 2 ^ 1, bit f.c.neg % 2 ^ 1, bit f.a.abs % 2 ^ 1, bit f.b.abs % 2 ^ 1, bit f.c.abs % 2 ^ 1] :=
  congrArg (List.take 11) (unpack_pack [(3, f.b.pat.code.1), (5, f.b.pat.code.2), (3, f.c.pat.code.1), (5, f.c.pat.code.2), (8, sem.toNat),
    (1, bit f.a.neg), (1, bit f.b.neg), (1, bit f.c.neg), (1, bit f.a.abs), (1, bit f.b.abs), (1, bit f.c.abs), (2, 0)])

/-- A form without modifiers is what its unmodified fields make. -/
theorem eq_of_unmodified {f : AForm} (h : Unmodified f) :
    { f with a := ⟨f.a.num, f.a.uni, f.a.last, f.a.pat, false, false⟩, b := ⟨f.b.num, f.b.uni, f.b.last, .none, false, false⟩,
             c := ⟨f.c.num, f.c.uni, f.c.last, .none, false, false⟩ } = f := by
  obtain ⟨g, ms, ty, d, ⟨⟩, ⟨⟩, ⟨⟩, ext⟩ := f
  simp_all [Unmodified, Src.noMods]

/-- Whether bits [95:64] are an immediate, by LEN, OP and IF (R52, R60). -/
def isI96 (len op : Nat) (iff : Bool) : Bool := len == 1 && (onlyI96 op || iff)

/-- What bits [127:64] are, by LEN. -/
def extBits (len : Nat) (i96 : Bool) (sem y : Nat) : Ext :=
  match len with
  | 0 => .a64
  | 1 => if i96 then .i96 (BitVec.ofNat 32 y) else .a96 (BitVec.ofNat 8 sem)
  | _ => .q128 (BitVec.ofNat 64 y)

/-- The form read from a word: the encoded form's fields of bits [63:0], and what the bits y above them give. -/
theorem aLayout_aWord {len op fn y xpb xnb xpc xnc sem na nb nc aa ab ac : Nat} {f : AForm} (hlen : len < 4) (hop : op < 256)
    (hfn : fn < fnLimit op) (hu : UniRoom f)
    (hy : unpackBits [3, 5, 3, 5, 8, 1, 1, 1, 1, 1, 1] y = [xpb, xnb, xpc, xnc, sem, na, nb, nc, aa, ab, ac]) :
    aLayout (aWord len op fn (ifBit op f) f + 2 ^ 64 * y) =
      let i96 := isI96 len op (ifBit op f)
      let m := len == 1 && !i96
      some (.a op fn (ifBit op f) { f with
        a := ⟨f.a.num, f.a.uni, f.a.last, f.a.pat, m && isOne na, m && isOne aa⟩
        b := ⟨f.b.num, f.b.uni, f.b.last, if m then Pattern.ofCode xpb xnb else .none, m && isOne nb, m && isOne ab⟩
        c := ⟨f.c.num, f.c.uni, f.c.last, if m then Pattern.ofCode xpc xnc else .none, m && isOne nc, m && isOne ac⟩
        ext := extBits len i96 sem y }) := by
  obtain ⟨ua, ub, uc, ud⟩ := uni_of_xn hu
  obtain ⟨la, lb, lc⟩ := isOne_three_bits f.a.last f.b.last f.c.last
  obtain ⟨hf1, hf2⟩ := fn_split hfn (ifBit op f) hasIF_of_ifBit
  have hop' : op % 2 ^ 8 = op := Nat.mod_eq_of_lt hop
  have hlen' : len % 2 ^ 2 = len := Nat.mod_eq_of_lt hlen
  simp only [aLayout, unpack_aWord, aWord_div, hy, hop', hlen', hf1, hf2, ua, ub, uc, ud, la, lb, lc, ofNat_toNat_mod, isOne_bit, ty_ofCode_code,
    guardOf_bits, pattern_of_xn]
  rfl

/-- A form without modifiers comes back from every word that is no A96 form. -/
theorem aLayout_unmodified {len op fn y : Nat} {f : AForm} (hlen : len < 4) (hop : op < 256) (hfn : fn < fnLimit op) (hu : UniRoom f)
    (hm : Unmodified f) (h96 : (len == 1 && !isI96 len op (ifBit op f)) = false)
    (hx : ∀ sem, extBits len (isI96 len op (ifBit op f)) sem y = f.ext) :
    aLayout (aWord len op fn (ifBit op f) f + 2 ^ 64 * y) = some (.a op fn (ifBit op f) f) := by
  rw [aLayout_aWord hlen hop hfn hu rfl]
  simp only [h96, hx, Bool.false_and]
  exact congrArg (fun f' => some (Layout.a op fn (ifBit op f) f')) (eq_of_unmodified hm)

theorem aLayout_bits {op fn : Nat} {f : AForm} (hop : op < 256) (hfn : fn < fnLimit op) (h : Fits op f) :
    aLayout (Layout.a op fn (ifBit op f) f).bits.2 = some (.a op fn (ifBit op f) f) := by
  obtain ⟨hu, hext⟩ := h
  cases hx : f.ext with
  | a64 =>
    simp only [hx] at hext
    have e := aLayout_unmodified (len := 0) (y := 0) (by decide) hop hfn hu hext rfl fun _ => hx.symm
    rw [Nat.mul_zero, Nat.add_zero] at e
    simpa only [Layout.bits, hx] using e
  | a96 sem =>
    simp only [hx] at hext
    have hi : isI96 1 op (ifBit op f) = false := by simp [isI96, ifBit, hx, hext]
    have e := aLayout_aWord (len := 1) (by decide) hop hfn hu (unpack_a96Word sem f)
    simp only [hi, extBits, pattern_ofCode_code, isOne_bit, ofNat_toNat_mod, beq_self_eq_true, Bool.not_false, Bool.and_true, Bool.true_and,
      Bool.false_eq_true, if_false, if_true] at e
    simpa only [Layout.bits, hx] using e.trans (by rw [← hx])
  | i96 imm =>
    simp only [hx] at hext
    have hi : isI96 1 op (ifBit op f) = true := by simpa [isI96, ifBit, hx, Bool.or_comm] using hext.1
    simpa only [Layout.bits, hx] using aLayout_unmodified (len := 1) (by decide) hop hfn hu hext.2 (by rw [hi]; rfl)
      fun sem => by simp [hi, extBits, hx]
  | q128 imm =>
    simp only [hx] at hext
    simpa only [Layout.bits, hx] using aLayout_unmodified (len := 2) (by decide) hop hfn hu hext rfl
      fun sem => by simp [extBits, hx]

/-! ### The other formats -/

theorem unpack_mWord (len op off13 : Nat) (r : MRaw) (y : Nat) :
    unpackBits [2, 8, 4, 1, 1, 7, 7, 7, 4, 4, 2, 1, 3, 13] (mWord len op off13 r + 2 ^ 64 * y)
      = [len % 2 ^ 2, op % 2 ^ 8, r.g.pred.toNat % 2 ^ 4, bit r.g.neg % 2 ^ 1, bit r.ms % 2 ^ 1, r.d.toNat % 2 ^ 7, r.a.toNat % 2 ^ 7, r.b.toNat % 2 ^ 7,
        r.sz.toNat % 2 ^ 4, r.sc.toNat % 2 ^ 4, r.ord.toNat % 2 ^ 2, bit r.nb % 2 ^ 1, (bit r.la + 2 * bit r.lb + 4 * bit r.ld) % 2 ^ 3,
        off13 % 2 ^ 13] :=
  unpack_pack_high [(2, len), (8, op), (4, r.g.pred.toNat), (1, bit r.g.neg), (1, bit r.ms), (7, r.d.toNat), (7, r.a.toNat), (7, r.b.toNat),
    (4, r.sz.toNat), (4, r.sc.toNat), (2, r.ord.toNat), (1, bit r.nb), (3, bit r.la + 2 * bit r.lb + 4 * bit r.ld), (13, off13)] 64 y (by simp)

theorem mWord_div (len op off13 : Nat) (r : MRaw) (y : Nat) : (mWord len op off13 r + 2 ^ 64 * y) / 2 ^ 64 = y := by
  have h : mWord len op off13 r < 2 ^ 64 := packBits_lt _
  rw [Nat.add_mul_div_left _ _ (by decide), Nat.div_eq_of_lt h, Nat.zero_add]

/-- Three last-use bits, as the M formats read them. -/
theorem isOne_lastUse (x y z : Bool) : isOne ((bit x + 2 * bit y + 4 * bit z) % 2 ^ 3 % 2) = x
    ∧ isOne ((bit x + 2 * bit y + 4 * bit z) % 2 ^ 3 / 2 % 2) = y ∧ isOne ((bit x + 2 * bit y + 4 * bit z) % 2 ^ 3 / 4) = z := by
  cases x <;> cases y <;> cases z <;> decide

/-- The offset of an M64 form is the sign-extension of its low 13 bits; M96 holds any (R54, R55). -/
theorem mLayout_bits {op : Nat} {r : MRaw} (hop : op < 256) (h : offOk r.wide r.off = true) : mLayout (Layout.m op r).bits.2 = some (.m op r) := by
  obtain ⟨la, lb, ld⟩ := isOne_lastUse r.la r.lb r.ld
  have hop' : op % 2 ^ 8 = op := Nat.mod_eq_of_lt hop
  cases hw : r.wide with
  | false =>
    have e := unpack_mWord 0 op (r.off.toNat % 2 ^ 13) r 0
    rw [Nat.mul_zero, Nat.add_zero] at e
    have ho : (BitVec.ofNat 13 (r.off.toNat % 2 ^ 13 % 2 ^ 13)).signExtend 32 = r.off := by
      rw [Nat.mod_mod, ← BitVec.toNat_setWidth, BitVec.ofNat_toNat, BitVec.setWidth_eq]
      simpa only [offOk, hw, Bool.false_or, beq_iff_eq] using h
    simp only [Layout.bits, hw, mLayout, Bool.false_eq_true, if_false, e, hop', la, lb, ld, ofNat_toNat_mod, isOne_bit, guardOf_bits]
    rw [show ((0 : Nat) % 2 ^ 2 == 1) = r.wide from hw.symm, if_neg (by rw [hw]; decide), ho]
  | true =>
    have e := unpack_mWord 1 op 0 r r.off.toNat
    simp only [Layout.bits, hw, mLayout, if_true, e, mWord_div, hop', la, lb, ld, ofNat_toNat_mod, isOne_bit, guardOf_bits]
    rw [show ((1 : Nat) % 2 ^ 2 == 1) = r.wide from hw.symm, if_pos hw, BitVec.ofNat_toNat, BitVec.setWidth_eq]

theorem bLayout_bits {op : Nat} (hop : op < 256) (g : Guard) (off : BitVec 32) (func : BitVec 16) :
    bLayout (Layout.b op g off func).bits.2 = some (.b op g off func) := by
  have e := unpack_pack [(2, 0), (8, op), (4, g.pred.toNat), (1, bit g.neg), (1, 0), (32, off.toNat), (16, func.toNat)]
  simp only [List.map_cons, List.map_nil] at e
  simp only [bLayout, Layout.bits, e, guardOf_bits, ofNat_toNat_mod]
  rw [Nat.mod_eq_of_lt (show op < 2 ^ 8 from hop)]

/-! ### Length, opcode and layout of a word -/

/-- LEN and OP of a word of the A64 family, an M format or B64 stand in its lowest 10 bits. -/
theorem packBits_len_op (len op y : Nat) (r : List (Nat × Nat)) :
    (packBits ((2, len) :: (8, op) :: r) + 2 ^ 64 * y) % 4 = len % 4 ∧ (packBits ((2, len) :: (8, op) :: r) + 2 ^ 64 * y) / 4 % 256 = op % 256 := by
  simp only [packBits]; omega

/-- LEN 0, 1 and 2 give 8, 12 and 16 bytes (R42). -/
theorem lenOf_of_mod {w len : Nat} (hlen : len < 3) (h : w % 4 = len % 4) : lenOf w = 8 + 4 * len := by
  unfold lenOf; rw [h]; interval_cases len <;> rfl

theorem word_lt {x len y : Nat} (hlen : len < 3) (hx : x < 2 ^ 64) (hy : y < 2 ^ (32 * len)) : x + 2 ^ 64 * y < 2 ^ (8 * (8 + 4 * len)) := by
  interval_cases len <;> omega

theorem aWord_len_op (len op fn : Nat) (iff : Bool) (f : AForm) (y : Nat) :
    (aWord len op fn iff f + 2 ^ 64 * y) % 4 = len % 4 ∧ (aWord len op fn iff f + 2 ^ 64 * y) / 4 % 256 = op % 256 := packBits_len_op ..

theorem mWord_len_op (len op off13 : Nat) (r : MRaw) (y : Nat) :
    (mWord len op off13 r + 2 ^ 64 * y) % 4 = len % 4 ∧ (mWord len op off13 r + 2 ^ 64 * y) / 4 % 256 = op % 256 := packBits_len_op ..

/-- A layout that its bits hold: a known opcode of the format, FN and IF within their bits, and the form or the offset one that fits. -/
def Kept : Layout → Prop
  | .h .. | .nop _ => True
  | .a op fn iff f => (op < 256 ∧ op ≠ 0 ∧ formatOf op = 0) ∧ fn < fnLimit op ∧ iff = ifBit op f ∧ Fits op f
  | .m op r => (op < 256 ∧ op ≠ 0 ∧ formatOf op = 1) ∧ offOk r.wide r.off = true
  | .b op _ _ _ => op < 256 ∧ op ≠ 0 ∧ formatOf op = 2

theorem bits_a (op fn : Nat) (iff : Bool) (f : AForm) : ∃ len y, len < 3 ∧ y < 2 ^ (32 * len)
    ∧ (Layout.a op fn iff f).bits = (8 + 4 * len, aWord len op fn iff f + 2 ^ 64 * y) := by
  cases hx : f.ext with
  | a64 => exact ⟨0, 0, by decide, by decide, by simp only [Layout.bits, hx, Nat.mul_zero, Nat.add_zero]⟩
  | a96 sem => exact ⟨1, a96Word sem f, by decide, packBits_lt _, by simp only [Layout.bits, hx]⟩
  | i96 imm => exact ⟨1, imm.toNat, by decide, imm.isLt, by simp only [Layout.bits, hx]⟩
  | q128 imm => exact ⟨2, imm.toNat, by decide, imm.isLt, by simp only [Layout.bits, hx]⟩

theorem bits_m (op : Nat) (r : MRaw) : ∃ len off13 y, len < 3 ∧ y < 2 ^ (32 * len)
    ∧ (Layout.m op r).bits = (8 + 4 * len, mWord len op off13 r + 2 ^ 64 * y) := by
  cases hw : r.wide with
  | false =>
    exact ⟨0, r.off.toNat % 2 ^ 13, 0, by decide, by decide, by
      rw [Layout.bits, hw, if_neg Bool.false_ne_true, Nat.mul_zero, Nat.mul_zero, Nat.add_zero, Nat.add_zero]⟩
  | true => exact ⟨1, 0, r.off.toNat, by decide, r.off.isLt, by rw [Layout.bits, hw, if_pos rfl]⟩

theorem bits_b (op : Nat) (g : Guard) (off : BitVec 32) (func : BitVec 16) : ∃ r,
    (Layout.b op g off func).bits = (8, packBits ((2, 0) :: (8, op) :: r) + 2 ^ 64 * 0) := by
  exact ⟨_, by rw [Nat.mul_zero, Nat.add_zero, Layout.bits]⟩

/-- A layout's bits lie within its length. -/
theorem bits_lt (l : Layout) : l.bits.2 < 2 ^ (8 * l.bits.1) := by
  cases l with
  | h => exact packBits_lt _
  | nop w => cases w <;> decide
  | a op fn iff f =>
    obtain ⟨len, y, hlen, hy, e⟩ := bits_a op fn iff f
    rw [e]; exact word_lt hlen (packBits_lt _) hy
  | m op r =>
    obtain ⟨len, off13, y, hlen, hy, e⟩ := bits_m op r
    rw [e]; exact word_lt hlen (packBits_lt _) hy
  | b => exact packBits_lt _

/-- LEN gives the length of a layout. -/
theorem lenOf_bits (l : Layout) : lenOf l.bits.2 = l.bits.1 := by
  cases l with
  | h w sa sb z =>
    have h : (Layout.h w sa sb z).bits.2 % 4 = 3 := by simp only [Layout.bits, packBits]; omega
    unfold lenOf; rw [h]; rfl
  | nop w => cases w <;> rfl
  | a op fn iff f =>
    obtain ⟨len, y, hlen, -, e⟩ := bits_a op fn iff f
    rw [e]; exact lenOf_of_mod hlen (aWord_len_op ..).1
  | m op r =>
    obtain ⟨len, off13, y, hlen, -, e⟩ := bits_m op r
    rw [e]; exact lenOf_of_mod hlen (mWord_len_op ..).1
  | b op g off func =>
    obtain ⟨r, e⟩ := bits_b op g off func
    rw [e]; exact lenOf_of_mod (len := 0) (by decide) (packBits_len_op ..).1

/-- OP selects how a word's fields are read (R60). -/
theorem layoutOf_of_op {w op len : Nat} (hlen : len < 3) (h : w % 4 = len % 4 ∧ w / 4 % 256 = op % 256) (hop : op < 256) (h0 : op ≠ 0) :
    (formatOf op = 0 → layoutOf w = aLayout w) ∧ (formatOf op = 1 → layoutOf w = mLayout w) ∧ (formatOf op = 2 → layoutOf w = bLayout w) := by
  obtain ⟨hl, ho⟩ := h
  rw [Nat.mod_eq_of_lt hop] at ho
  refine ⟨fun hf => ?_, fun hf => ?_, fun hf => ?_⟩ <;> simp only [layoutOf, ho, hf, if_neg h0, if_neg (show ¬w % 4 = 3 by omega)]

theorem layoutOf_bits {l : Layout} (h : Kept l) : layoutOf l.bits.2 = some l := by
  cases l with
  | h w sa sb z =>
    have h3 : (Layout.h w sa sb z).bits.2 % 4 = 3 := by simp only [Layout.bits, packBits]; omega
    have e := unpack_pack [(2, 3), (12, w.toNat), (4, sa.toNat), (4, sb.toNat), (42, z.toNat)]
    simp only [List.map_cons, List.map_nil] at e
    rw [layoutOf, if_pos h3]
    simp only [Layout.bits, e, ofNat_toNat_mod]
  | nop w => cases w <;> rfl
  | a op fn iff f =>
    obtain ⟨⟨hop, h0, hf⟩, hfn, rfl, hfit⟩ := h
    obtain ⟨len, y, hlen, -, e⟩ := bits_a op fn (ifBit op f) f
    rw [(layoutOf_of_op hlen (e ▸ aWord_len_op ..) hop h0).1 hf]
    exact aLayout_bits hop hfn hfit
  | m op r =>
    obtain ⟨⟨hop, h0, hf⟩, hoff⟩ := h
    obtain ⟨len, off13, y, hlen, -, e⟩ := bits_m op r
    rw [(layoutOf_of_op hlen (e ▸ mWord_len_op ..) hop h0).2.1 hf]
    exact mLayout_bits hop hoff
  | b op g off func =>
    obtain ⟨hop, h0, hf⟩ := h
    obtain ⟨r, e⟩ := bits_b op g off func
    rw [(layoutOf_of_op (len := 0) (by decide) (e ▸ packBits_len_op ..) hop h0).2.2 hf]
    exact bLayout_bits hop g off func

/-! ### Well-formed instructions have layouts that their bits hold -/

theorem noMods_of_src_ok {u : Use} {pat : Bool} {x : Src} (h : x.ok u pat false = true) : x.noMods = true := by
  cases u with
  | none | dst | dstW => rw [of_decide_eq_true h]; rfl
  | src | srcW | srcBare | pred | num => simp_all [Src.ok, Src.noMods]

theorem pat_none_of_src_ok {u : Use} {mods : Bool} {x : Src} (h : x.ok u false mods = true) : x.pat = .none := by
  cases u with
  | none | dst | dstW => rw [of_decide_eq_true h]; rfl
  | src | srcW | srcBare | pred | num => simp_all [Src.ok]

theorem uniRoom_of_ok {sh : Shape} {f : AForm} (h : f.ok sh = true) : UniRoom f := by
  simp only [AForm.ok, Bool.and_eq_true, Bool.or_eq_true, decide_eq_true_eq, Bool.not_eq_true'] at h
  obtain ⟨⟨-, hu⟩, -⟩ := h
  rcases hu with hp | ⟨⟨⟨hd, ha⟩, hb⟩, hc⟩
  · exact .inl hp
  · exact .inr ⟨hd, ha, hb, hc⟩

/-- An A64-family opcode whose 96-bit forms are those of the shape (R60). -/
def shapeFits (sh : Shape) : Bool :=
  decide (sh.op < 256) && sh.op != 0 && formatOf sh.op == 0 && (!sh.a96 || !onlyI96 sh.op) && (!sh.i96 || hasIF sh.op || onlyI96 sh.op)

theorem shapeFits_of_shape {i : Instr} {sh : Shape} (h : i.shape = some sh) : shapeFits sh = true := by
  cases i with
  | pmov f dir => cases dir <;> cases h <;> rfl
  | _ => cases h <;> rfl

theorem unmodified_of_ok {sh : Shape} {f : AForm} (h : f.ok sh = true) (hx : ∀ sem, f.ext ≠ .a96 sem) : Unmodified f := by
  simp only [AForm.ok, Bool.and_eq_true] at h
  obtain ⟨⟨⟨⟨⟨-, ha⟩, hb⟩, hc⟩, -⟩, -⟩ := h
  cases he : f.ext with
  | a96 sem => exact absurd he (hx sem)
  | _ =>
    simp only [he, Bool.and_false] at ha hb hc
    exact ⟨pat_none_of_src_ok hb, pat_none_of_src_ok hc, noMods_of_src_ok ha, noMods_of_src_ok hb, noMods_of_src_ok hc⟩

theorem fits_of_ok {sh : Shape} {f : AForm} (hs : shapeFits sh = true) (h : f.ok sh = true) : Fits sh.op f := by
  simp only [shapeFits, Bool.and_eq_true, Bool.or_eq_true, Bool.not_eq_true'] at hs
  obtain ⟨⟨-, h96⟩, hi96⟩ := hs
  refine ⟨uniRoom_of_ok h, ?_⟩
  have hm := unmodified_of_ok h
  simp only [AForm.ok, Bool.and_eq_true] at h
  obtain ⟨-, hext⟩ := h
  cases he : f.ext with
  | a64 => exact hm (by simp [he])
  | a96 sem =>
    simp only [he, Bool.and_eq_true] at hext
    simpa [hext.1] using h96
  | i96 imm =>
    simp only [he, Bool.and_eq_true] at hext
    exact ⟨by simpa [hext.1] using hi96, hm (by simp [he])⟩
  | q128 imm => exact hm (by simp [he])

theorem id_code_lt (x : IdSel) : x.code < 32 := by
  cases x with
  | coord l | ext l => have := l.isLt; simp only [IdSel.code]; omega
  | _ => decide

/-- The layout of an instruction that carries a form of the A64 family: the opcode of its shape, an FN within its bits, and the form. -/
theorem layout_of_aform {i : Instr} {sh : Shape} {f : AForm} (hs : i.shape = some sh) (hf : i.aform = some f) :
    ∃ fn, fn < fnLimit sh.op ∧ i.layout = some (.a sh.op fn (ifBit sh.op f) f) := by
  cases i with
  | add _ u s | sub _ u s | mul _ u s | mad _ u s => cases hs; cases hf; exact ⟨_, by cases u <;> cases s <;> decide, rfl⟩
  | mulhi _ b | div _ b | rem _ b | min _ b | max _ b | abs _ b | shl _ b | sel _ b | unpk _ b | qpush _ b | qpop _ b | sysr _ b | sysw _ b
  | icinv _ b | spush _ b | spop _ b | tarr _ b _ | barArrive _ b _ =>
    cases hs; cases hf; exact ⟨_, by cases b <;> decide, rfl⟩
  | pmov _ b => cases hf; cases b <;> cases hs <;> exact ⟨_, by decide, rfl⟩
  | lea _ x => cases hs; cases hf; exact ⟨_, x.isLt, rfl⟩
  | plog _ x => cases hs; cases hf; exact ⟨_, Nat.lt_trans x.isLt (by decide), rfl⟩
  | cmp _ o c | fcmp _ o c => cases hs; cases hf; exact ⟨_, by cases o <;> cases c <;> decide, rfl⟩
  | fadd _ r | fsub _ r | fmul _ r | ffma _ r | fsqrt _ r | fdiv _ r | dq _ r | pack _ r => cases hs; cases hf; exact ⟨_, by cases r <;> decide, rfl⟩
  | fcvt _ x r | fcvti _ x r | frnd _ x r | dot _ x r => cases hs; cases hf; exact ⟨_, by cases x <;> cases r <;> decide, rfl⟩
  | icvtf _ n w r => cases hs; cases hf; exact ⟨_, by cases n <;> cases w <;> cases r <;> decide, rfl⟩
  | bwait _ c | bamo _ c | shfl _ c | vote _ c | hret _ c => cases hs; cases hf; exact ⟨_, by cases c <;> decide, rfl⟩
  | scan _ o e s _ => cases hs; cases hf; exact ⟨4 * o.code + 2 * bit e + bit s, show _ < fnLimit 0x74 by cases o <;> cases e <;> cases s <;> decide, rfl⟩
  | red _ o s _ => cases hs; cases hf; exact ⟨4 * o.code + bit s, show _ < fnLimit 0x75 by cases o <;> cases s <;> decide, rfl⟩
  | id _ sel => cases hs; cases hf; exact ⟨_, id_code_lt sel, rfl⟩
  | trap => cases hs; cases hf; exact ⟨0, show 0 < fnLimit 0x86 by decide, rfl⟩
  | and | or | xor | andn | orn | shr | sar | rol | ror | clz | ctz | popc | brev | bfx | bfi | ext | mov | movi | movq | movx | movxw | fmin | fmax
  | fminx | fmaxx | fclass | frcp | frsq | fexp2 | flog2 | fsin | fcos | ftanh | qz | bcas | matchBits | matchf | brx | ret | launch | hwork
  | migrate | barWait | barSync | twait | mcdef | tread =>
    cases hs; cases hf; exact ⟨_, by decide, rfl⟩
  | _ => cases hf

/-- A well-formed instruction that carries a form has a shape that the form obeys. -/
theorem form_of_wf {i : Instr} {f : AForm} (hf : i.aform = some f) (hw : i.wf = true) : ∃ sh, i.shape = some sh ∧ f.ok sh = true := by
  cases i with
  | _ => cases hf <;> exact ⟨_, rfl, (Bool.and_eq_true_iff.mp hw).1⟩

theorem kept_of_aform {i : Instr} {f : AForm} {l : Layout} (hf : i.aform = some f) (hw : i.wf = true) (hl : i.layout = some l) : Kept l := by
  obtain ⟨sh, hs, hok⟩ := form_of_wf hf hw
  obtain ⟨fn, hfn, e⟩ := layout_of_aform hs hf
  cases e.symm.trans hl
  have h := shapeFits_of_shape hs
  refine ⟨?_, hfn, rfl, fits_of_ok h hok⟩
  simp only [shapeFits, Bool.and_eq_true, decide_eq_true_eq, bne_iff_ne, beq_iff_eq] at h
  obtain ⟨⟨⟨⟨hop, h0⟩, hfmt⟩, -⟩, -⟩ := h
  exact ⟨hop, h0, hfmt⟩

theorem kept_plain {op fn : Nat} {g : Guard} {ty : Ty} {d a b c : BitVec 7} {x : Ext} (hop : op < 256 ∧ op ≠ 0 ∧ formatOf op = 0)
    (hfn : fn < fnLimit op) (hx : x = .a64 ∨ ∃ n, x = .q128 n) : Kept (.a op fn false (plainForm g ty d a b c x)) := by
  rcases hx with rfl | ⟨n, rfl⟩
  · exact ⟨hop, hfn, rfl, .inl rfl, rfl, rfl, rfl, rfl, rfl⟩
  · exact ⟨hop, hfn, rfl, .inl rfl, rfl, rfl, rfl, rfl, rfl⟩

theorem barCode_lt (b : Option (BitVec 4)) : barCode b < 32 := by
  cases b with
  | none => decide
  | some n => have := n.isLt; simp only [barCode]; omega

theorem offOk_of_mform_ok {m : MForm} {o n b p d l} (h : m.ok o n b p d l = true) : offOk m.wide m.off = true := by
  simp only [MForm.ok, Bool.and_eq_true] at h
  exact h.2

theorem offOk_of_lform_ok {m : LForm} {st} (h : m.ok st = true) : offOk m.wide m.off = true := by
  simp only [LForm.ok, Bool.and_eq_true] at h
  exact h.2

/-- A well-formed instruction without a form has a layout that its bits hold. -/
theorem kept_of_no_aform {i : Instr} {l : Layout} (hf : i.aform = none) (hw : i.wf = true) (hl : i.layout = some l) : Kept l := by
  cases i with
  | clause | nop => cases hl; trivial
  | lbmapSwap | lbmapSet | gEdge | gReset | unbind | bsync | yield | join | brk | mcall | tret | fend | hend =>
    cases hl; exact kept_plain (by decide) (by decide) (.inl rfl)
  | gRun _ bar | pub _ bar | mmClr _ bar => cases hl; exact kept_plain (by decide) (barCode_lt bar) (.inl rfl)
  | gNode => cases hl; exact kept_plain (by decide) (by decide) (.inr ⟨_, rfl⟩)
  | mmLd _ bar | mmRd _ bar => cases hl; exact kept_plain (by decide) (barCode_lt bar) (.inr ⟨_, rfl⟩)
  | cpIn e | cpOut e | cpPeer e | cpFill e | mm e => cases hl; exact kept_plain (by decide) (barCode_lt e.bar) (.inr ⟨_, rfl⟩)
  | recruit r => cases hl; exact ⟨by decide, by decide, rfl, .inl rfl, rfl, rfl, rfl, rfl, rfl⟩
  | bra | call | fork => cases hl; exact ⟨by decide, by decide, rfl⟩
  | fence | fenceOwn | fenceFar => cases hl; exact ⟨by decide, rfl⟩
  | ld | amo => simp only [Instr.wf] at hw; cases hl; exact ⟨by decide, offOk_of_mform_ok hw⟩
  | st | cstore | bind =>
    simp only [Instr.wf, Bool.and_eq_true] at hw
    cases hl; exact ⟨by decide, offOk_of_mform_ok hw.1⟩
  | pref | cas =>
    simp only [Instr.wf, Bool.and_eq_true] at hw
    cases hl; exact ⟨by decide, offOk_of_mform_ok hw.1.1⟩
  | ldl => cases hl; exact ⟨by decide, offOk_of_lform_ok hw⟩
  | stl => cases hl; exact ⟨by decide, offOk_of_lform_ok (Bool.and_eq_true_iff.mp hw).1⟩
  | _ => cases hf <;> cases hl

/-- A well-formed instruction's layout is one that its bits hold. -/
theorem kept_of_wf {i : Instr} {l : Layout} (hw : i.wf = true) (hl : i.layout = some l) : Kept l := by
  cases hf : i.aform with
  | none => exact kept_of_no_aform hf hw hl
  | some f => exact kept_of_aform hf hw hl

/-- The layout of every well-formed instruction names it again. -/
theorem instr_of_layout (i : Instr) : Layout.Statement i := by
  cases i with
  | clause wait seta setb zero => exact Layout.clause wait seta setb zero
  | nop wide => exact Layout.nop wide
  | add f uns sat => exact Layout.add f uns sat
  | sub f uns sat => exact Layout.sub f uns sat
  | mul f uns sat => exact Layout.mul f uns sat
  | mad f uns sat => exact Layout.mad f uns sat
  | mulhi f uns => exact Layout.mulhi f uns
  | div f uns => exact Layout.div f uns
  | rem f uns => exact Layout.rem f uns
  | abs f sat => exact Layout.abs f sat
  | min f uns => exact Layout.min f uns
  | max f uns => exact Layout.max f uns
  | and f => exact Layout.and f
  | or f => exact Layout.or f
  | xor f => exact Layout.xor f
  | andn f => exact Layout.andn f
  | orn f => exact Layout.orn f
  | shl f sat => exact Layout.shl f sat
  | shr f => exact Layout.shr f
  | sar f => exact Layout.sar f
  | rol f => exact Layout.rol f
  | ror f => exact Layout.ror f
  | clz f => exact Layout.clz f
  | ctz f => exact Layout.ctz f
  | popc f => exact Layout.popc f
  | brev f => exact Layout.brev f
  | bfx f => exact Layout.bfx f
  | bfi f => exact Layout.bfi f
  | ext f => exact Layout.ext f
  | mov f => exact Layout.mov f
  | movi f => exact Layout.movi f
  | movq f => exact Layout.movq f
  | sel f np => exact Layout.sel f np
  | lea f sh => exact Layout.lea f sh
  | cmp f orr cond => exact Layout.cmp f orr cond
  | plog f lut => exact Layout.plog f lut
  | pmov f dir => exact Layout.pmov f dir
  | movx f => exact Layout.movx f
  | movxw f => exact Layout.movxw f
  | fadd f rm => exact Layout.fadd f rm
  | fsub f rm => exact Layout.fsub f rm
  | fmul f rm => exact Layout.fmul f rm
  | ffma f rm => exact Layout.ffma f rm
  | fmin f => exact Layout.fmin f
  | fmax f => exact Layout.fmax f
  | fminx f => exact Layout.fminx f
  | fmaxx f => exact Layout.fmaxx f
  | fcmp f orr cond => exact Layout.fcmp f orr cond
  | fclass f => exact Layout.fclass f
  | fcvt f sf rm => exact Layout.fcvt f sf rm
  | fcvti f sf rm => exact Layout.fcvti f sf rm
  | icvtf f nat w64 rm => exact Layout.icvtf f nat w64 rm
  | frnd f x rm => exact Layout.frnd f x rm
  | fsqrt f rm => exact Layout.fsqrt f rm
  | fdiv f rm => exact Layout.fdiv f rm
  | frcp f => exact Layout.frcp f
  | frsq f => exact Layout.frsq f
  | fexp2 f => exact Layout.fexp2 f
  | flog2 f => exact Layout.flog2 f
  | fsin f => exact Layout.fsin f
  | fcos f => exact Layout.fcos f
  | ftanh f => exact Layout.ftanh f
  | dot f kind rm => exact Layout.dot f kind rm
  | qz f => exact Layout.qz f
  | dq f rm => exact Layout.dq f rm
  | pack f rm => exact Layout.pack f rm
  | unpk f hi => exact Layout.unpk f hi
  | bra g off => exact Layout.bra g off
  | call g link off => exact Layout.call g link off
  | brx f => exact Layout.brx f
  | ret f => exact Layout.ret f
  | trap f => exact Layout.trap f
  | brk g => exact Layout.brk g
  | mcall g n => exact Layout.mcall g n
  | ld m sz => exact Layout.ld m sz
  | st m sz => exact Layout.st m sz
  | pref m kind => exact Layout.pref m kind
  | amo m op => exact Layout.amo m op
  | cas m sz => exact Layout.cas m sz
  | cstore m sz => exact Layout.cstore m sz
  | ldl l sz => exact Layout.ldl l sz
  | stl l sz => exact Layout.stl l sz
  | bind m sz => exact Layout.bind m sz
  | unbind g d => exact Layout.unbind g d
  | bsync g => exact Layout.bsync g
  | bwait f cond => exact Layout.bwait f cond
  | bamo f op => exact Layout.bamo f op
  | bcas f => exact Layout.bcas f
  | fence g kind scope => exact Layout.fence g kind scope
  | fenceOwn g => exact Layout.fenceOwn g
  | fenceFar g scope => exact Layout.fenceFar g scope
  | shfl f mode => exact Layout.shfl f mode
  | vote f mode => exact Layout.vote f mode
  | matchBits f => exact Layout.matchBits f
  | matchf f => exact Layout.matchf f
  | scan f op exc sat rm => exact Layout.scan f op exc sat rm
  | red f op sat rm => exact Layout.red f op sat rm
  | fork g s d off => exact Layout.fork g s d off
  | fend g => exact Layout.fend g
  | id f sel => exact Layout.id f sel
  | launch f => exact Layout.launch f
  | barArrive f rd n => exact Layout.barArrive f rd n
  | barWait f n => exact Layout.barWait f n
  | barSync f n => exact Layout.barSync f n
  | yield g => exact Layout.yield g
  | join g => exact Layout.join g
  | qpush f nb => exact Layout.qpush f nb
  | qpop f nb => exact Layout.qpop f nb
  | recruit r => exact Layout.recruit r
  | hwork f => exact Layout.hwork f
  | hret f op => exact Layout.hret f op
  | hend g => exact Layout.hend g
  | tret g => exact Layout.tret g
  | sysr f ax => exact Layout.sysr f ax
  | sysw f ax => exact Layout.sysw f ax
  | tread f => exact Layout.tread f
  | icinv f all => exact Layout.icinv f all
  | mcdef f => exact Layout.mcdef f
  | migrate f => exact Layout.migrate f
  | tarr f rd tree => exact Layout.tarr f rd tree
  | twait f tree => exact Layout.twait f tree
  | spush f nb => exact Layout.spush f nb
  | spop f nb => exact Layout.spop f nb
  | lbmapSwap g d a => exact Layout.lbmapSwap g d a
  | lbmapSet g d b => exact Layout.lbmapSet g d b
  | cpIn e db keep fmt doff k128 => exact Layout.cpIn e db keep fmt doff k128
  | cpOut e sb pair soff scope => exact Layout.cpOut e sb pair soff scope
  | cpPeer e sb tb soff toff scope keep => exact Layout.cpPeer e sb tb soff toff scope keep
  | cpFill e db keep glb doff scope => exact Layout.cpFill e db keep glb doff scope
  | pub g bar a scope => exact Layout.pub g bar a scope
  | gNode g n cnt bar => exact Layout.gNode g n cnt bar
  | gEdge g x y => exact Layout.gEdge g x y
  | gRun g bar => exact Layout.gRun g bar
  | gReset g => exact Layout.gReset g
  | mm e abuf bbuf aoff boff tile ow tri ia => exact Layout.mm e abuf bbuf aoff boff tile ow tri ia
  | mmClr g bar tile => exact Layout.mmClr g bar tile
  | mmLd g bar sb tile lk soff => exact Layout.mmLd g bar sb tile lk soff
  | mmRd g bar db keep tile sk ofmt doff => exact Layout.mmRd g bar db keep tile sk ofmt doff
  | _ => rintro _ _ ⟨⟩

theorem decode_of_encode {i : Instr} {n w : Nat} (h : encode i = some (n, w)) : decode w = some i := by
  have he := h
  unfold encode at h
  split at h
  case isFalse => cases h
  case isTrue hw =>
    obtain ⟨l, hl, hb⟩ := Option.map_eq_some_iff.mp h
    have hlen : lenOf w = n := by simpa only [hb] using lenOf_bits l
    have hlay : layoutOf w = some l := by simpa only [hb] using layoutOf_bits (kept_of_wf hw hl)
    have hv : w % 2 ^ (8 * lenOf w) = w := Nat.mod_eq_of_lt (by simpa only [hb, hlen] using bits_lt l)
    rw [← hlen] at he
    simp only [decode, hv, hlay, Option.bind_some, instr_of_layout i hw l hl, he, if_true]

/-- Settles O1: a well-formed instruction's layout is one that its bits hold (`kept_of_wf`), the layout comes back from its bits (`layoutOf_bits`) and names
the instruction (`instr_of_layout`). -/
theorem roundTrip : Obligations.RoundTrip := fun _ _ _ => decode_of_encode

theorem encode_of_decode {w : Nat} {i : Instr} (h : decode w = some i) : encode i = some (lenOf w, w % 2 ^ (8 * lenOf w)) := by
  simp only [decode] at h
  split at h
  case h_1 j _ =>
    obtain ⟨he, rfl⟩ : _ ∧ j = i := by simpa using h
    exact he
  case h_2 => cases h

/-- Settles O2: the decoder accepts an instruction only where the encoder gives the word's bits for it. -/
theorem decodeSound : Obligations.DecodeSound := fun _ _ h => ⟨Machine.wf_of_encode (encode_of_decode h), encode_of_decode h⟩

/-- Settles O3: each word is the encoding of its instruction, so it decodes to it (`decode_of_encode`), and what the fields of the three others name is not
encoded as the word. -/
theorem decodeWords : Obligations.DecodeWords :=
  ⟨⟨decode_of_encode (n := 8) (by decide +kernel), decode_of_encode (n := 8) (by decide +kernel), decode_of_encode (n := 16) (by decide +kernel),
    decode_of_encode (n := 8) (by decide +kernel)⟩, by decide +kernel⟩

end Sys2Proof.Laws
end

section
/-! PROOFS. The bytes that a fetch reads through a cold instruction cache. -/
namespace Sys2Proof.Machine

theorem State.bytes_drop (s : State) : (k pa n : Nat) → (s.bytes pa n).drop k = s.bytes (pa + k) (n - k)
  | 0, _, _ => rfl
  | _ + 1, _, 0 => by simp [State.bytes]
  | k + 1, pa, n + 1 => by
    rw [State.bytes, List.drop_succ_cons, s.bytes_drop k, Nat.add_sub_add_right, Nat.add_assoc, Nat.add_comm 1 k]

theorem State.bytes_take (s : State) : (k pa n : Nat) → k ≤ n → (s.bytes pa n).take k = s.bytes pa k
  | 0, _, _, _ => by simp [State.bytes]
  | k + 1, pa, n + 1, h => by
    rw [State.bytes, List.take_succ_cons, s.bytes_take k _ n (by omega), ← State.bytes]

/-- n bytes from an offset within a 64-byte line are memory's bytes at their address. -/
theorem State.bytes_of_line (s : State) {pa n : Nat} (h : pa % 64 + n ≤ 64) : ((s.bytes (64 * (pa / 64)) 64).drop (pa % 64)).take n = s.bytes pa n := by
  rw [s.bytes_drop, s.bytes_take _ _ _ (by omega), Nat.div_add_mod]

/-- A miss fills the line from memory, and the next fetch of the line finds it (R43). -/
theorem icLine_of_miss {s : State} {c pa : Nat} (uid : Nat) (h : mget (s.core c).icache (pa / 64) = none) :
    (icLine s uid c pa).2 = s.bytes (64 * (pa / 64)) 64
    ∧ mget ((icLine s uid c pa).1.core c).icache (pa / 64) = some (s.bytes (64 * (pa / 64)) 64) := by
  simp only [icLine, h, State.core_updCore_self, mget_mput_self, and_self]

theorem icLine_of_hit {s : State} {c pa : Nat} {b : List Byte} (uid : Nat) (h : mget (s.core c).icache (pa / 64) = some b) :
    icLine s uid c pa = (s, b) := by
  simp only [icLine, h]

/-- LEN gives 8 bytes at least. -/
theorem le_lenOf (w : Nat) : 8 ≤ lenOf w := by unfold lenOf; split <;> decide

/-- Settles O6: the first word's line is filled from memory (`icLine_of_miss`), the second read finds it (`icLine_of_hit`), and both take the bytes at the
address, which one fetch block and so one line holds (`State.bytes_of_line`). -/
theorem fetchReadsMemory : Obligations.FetchReadsMemory := by
  intro s t uid c ctx pa pc ht hpa hic
  obtain ⟨hb, hm⟩ := icLine_of_miss uid hic
  have hlen := le_lenOf (t.phys pa 8)
  rw [fetchAt, ht]
  by_cases ho : 32 < pc.toNat % 32 + 8
  · rw [if_neg (by omega)]
    simp only [ho, if_true]
  · have hw : ofBytes (((t.bytes (64 * (pa / 64)) 64).drop (pa % 64)).take 8) = t.phys pa 8 := by
      rw [t.bytes_of_line (by omega)]; rfl
    simp only [ho, if_false, icBytes, hb, hw, icLine_of_hit uid hm]
    by_cases hl : pc.toNat % 32 + lenOf (t.phys pa 8) ≤ 32
    · rw [if_pos hl, if_neg (by omega), t.bytes_of_line (by omega)]; rfl
    · rw [if_neg hl, if_pos (by omega)]

end Sys2Proof.Machine
end

section
/-! PROOFS. What one step executes (log 4): its cases, then the turn of a batch and of a stream that fetch a word. -/
namespace Sys2Proof.Machine

/-! ### The cases of a step -/

theorem step_of_dueFirst {s : State} {i : Instr} (h : dueFirst s = some i) : step s = soften s (exec i s) := by
  simp only [step, h]

theorem step_of_inbox {s : State} {i : Instr} {r : List Instr} (h : dueFirst s = none) (hi : s.inbox = i :: r) :
    step s = soften { s with inbox := r } (exec i { s with inbox := r }) := by
  simp only [step, h, hi]

theorem step_of_due {s : State} {i : Instr} (h : dueFirst s = none) (hi : s.inbox = []) (ht : s.turn = .event) (hd : due s = some i) :
    step s = endStep (soften s (exec i s)) := by
  simp only [step, h, hi, ht, hd]

theorem step_of_issue {s : State} (h : dueFirst s = none) (hi : s.inbox = []) (ht : s.turn = .issue) : step s = endStep (stepIssue s) := by
  simp only [step, h, hi, ht]

/-! ### The gate -/

theorem instrOf_of_decode {bits : Nat} {i : Instr} (h : decode bits = some i) : instrOf bits = i := by rw [instrOf, h]; rfl

theorem instrOf_of_reserved {bits : Nat} (h : decode bits = none) : instrOf bits = .illegalInstruction (guardBits bits) (lenOf bits) := by
  rw [instrOf, h]; rfl

theorem gateFor_illegal (s : State) (c : Nat) (halts : Bool) (g : Guard) (n : Nat) : gateFor s c halts (.illegalInstruction g n) = startGate s c := by
  simp only [gateFor, isClause, Bool.and_false, Bool.false_eq_true, if_false]

theorem gated_run_pass {s r : State} {c : Nat} {halts : Bool} {i : Instr} (h : gateFor s c halts i = (r, true)) :
    gated c halts (s, .run i) = (r, .run i) := by
  simp only [gated, h]

theorem gated_run_wait {s r : State} {c : Nat} {halts : Bool} {i : Instr} (h : gateFor s c halts i = (r, false)) :
    gated c halts (s, .run i) = (r, .over) := by
  simp only [gated, h]

theorem stepIssue_of_run {s t : State} {i : Instr} (h : takeTurn s = (t, .run i)) : stepIssue s = exec i t := by simp only [stepIssue, h]

theorem stepIssue_of_over {s t : State} (h : takeTurn s = (t, .over)) : stepIssue s = .next t := by simp only [stepIssue, h]

/-! ### A turn that fetches a word -/

/-- A batch that has neither a single step, a breakpoint nor an `mcall` before it runs the word it fetches, unless the fetch waits for a miss entry. -/
theorem batchTurn_of_word {s t : State} {u w bits : Nat} {blk : Block} {x : Weave} {b : Batch} (hs : b.stepDue = false) (hm : b.mac = none)
    (hb : outside x b = false ∨ bkpMatch blk b = none) (hf : fetchAt s u x.core blk.ctx b.pc = (t, .word bits)) :
    batchTurn s u w blk x b = if fetchWaits s t x.core then (s, .over) else (t, .run (instrOf bits)) := by
  cases ho : outside x b with
  | false => simp only [batchTurn, hs, hm, ho, hf, Bool.false_eq_true, if_false]
  | true =>
    have hn := hb.resolve_left (by rw [ho]; decide)
    simp only [batchTurn, hs, hm, ho, hn, hf, Bool.false_eq_true, if_false]

theorem takeTurn_weave {s : State} {u w : Nat} {blk : Block} {x : Weave} {b : Batch} (hf : s.focus = .weave u w) (hk : s.block? u = some blk)
    (hx : s.weave? u w = some x) (hb : x.curBatch = some b) (ha : x.active = true) (hr : b.runnable = true) :
    takeTurn s = gated x.core (blk.haltsAt (b.members.any fun sl => s.isHelper (.fib u w sl))) (batchTurn s u w blk x b) := by
  simp only [takeTurn, hf, weaveTurn, hk, hx, hb, ha, hr, Bool.not_true, Bool.or_self, Bool.false_eq_true, if_false]

theorem streamFetch_of_word {s t : State} {u bits : Nat} {blk : Block} {x : Stream} (he : x.cmdErr = [])
    (hf : fetchAt s u blk.core blk.ctx x.pc = (t, .word bits)) (hw : fetchWaits s t blk.core = false) :
    streamFetch s u blk x = (t, .run (instrOf bits)) := by
  simp only [streamFetch, he, hf, hw, List.isEmpty_nil, Bool.not_true, Bool.false_and, Bool.false_eq_true, if_false]

theorem takeTurn_stream {s : State} {u : Nat} {blk : Block} {x : Stream} (hf : s.focus = .stream u) (hk : s.block? u = some blk)
    (hx : s.stream? u = some x) (he : x.ending = false) (hr : x.state = .run ∨ ∃ q, x.state = .woke q) :
    takeTurn s = gated blk.core blk.halted (streamFetch s u blk x) := by
  rcases hr with hr | ⟨q, hr⟩ <;> simp only [takeTurn, hf, streamTurn, hk, hx, he, hr]

/-- Settles O4: the step's cases (`step_of_dueFirst` and those behind it), then at the issue's turn the fetch (`batchTurn_of_word`, `streamFetch_of_word`)
and the gate (`gated_run_pass`, `gated_run_wait`). -/
theorem stepRunsDecoded : Obligations.StepRunsDecoded := by
  refine ⟨fun s i => step_of_dueFirst, fun s i r => step_of_inbox, fun s i => step_of_due, ?_, ?_⟩
  · intro s t u w bits blk x b hd hi ht hf hk hx hb ha hr hs hm hbk hfetch
    have hturn := takeTurn_weave hf hk hx hb ha hr
    rw [batchTurn_of_word hs hm hbk hfetch] at hturn
    rw [step_of_issue hd hi ht]
    refine ⟨fun hw => ?_, fun hw => ?_, fun r => rfl⟩
    · rw [hw, if_neg Bool.false_ne_true] at hturn
      refine ⟨fun i r hdec hg => ?_, fun r hdec hg => ?_, fun i r hdec hg => ?_⟩
      · rw [instrOf_of_decode hdec, gated_run_pass hg] at hturn
        rw [stepIssue_of_run hturn]
      · rw [instrOf_of_reserved hdec, gated_run_pass (by rw [gateFor_illegal, hg])] at hturn
        rw [stepIssue_of_run hturn]
      · rw [instrOf_of_decode hdec, gated_run_wait hg] at hturn
        rw [stepIssue_of_over hturn]
    · rw [hw, if_pos rfl] at hturn
      rw [stepIssue_of_over hturn]
  · intro s t u bits blk x hd hi ht hf hk hx he hr hce hfetch hw
    have hturn := takeTurn_stream hf hk hx he hr
    rw [streamFetch_of_word hce hfetch hw] at hturn
    rw [step_of_issue hd hi ht]
    refine ⟨fun i r hdec hg => ?_, fun r hdec hg => ?_⟩
    · rw [instrOf_of_decode hdec, gated_run_pass hg] at hturn
      rw [stepIssue_of_run hturn]
    · rw [instrOf_of_reserved hdec, gated_run_pass (by rw [gateFor_illegal, hg])] at hturn
      rw [stepIssue_of_run hturn]

end Sys2Proof.Machine
end

section
/-! PROOFS. Element instructions in uniform registers: the last participant's result stands, and the frame of the participants' writes. -/
namespace Sys2Proof.Machine

theorem fpflags_writeK (s : State) (u w n : Nat) (val : Word) (v y : Nat) : (s.writeK u w n val).fpflags v y = s.fpflags v y := by
  unfold State.writeK
  split
  · rfl
  · exact fpflags_updWeave (by intro x; rfl) v y

/-- The result of an element instruction into a uniform register, as the writes of its participants. -/
theorem RegOp.result_writeAllK {r : RegOp} {s : State} {k : Iss} (hl : ∀ a ∈ k.acts, ∃ sl, a = .fib k.uid k.w sl) (hd : r.d.uni = true) :
    r.result k s = writeAllK (raiseIf r.fp fun a => (r.val s (s.consume k.pc k.acts r.srcs) a).2) k.uid k.w r.d.num.toNat
      (fun a => (r.val s (s.consume k.pc k.acts r.srcs) a).1) k.acts (s.consume k.pc k.acts r.srcs) := by
  refine List.foldl_ext _ _ _ fun t a ha => ?_
  obtain ⟨sl, rfl⟩ := hl a ha
  cases h : r.fp <;> simp [RegOp.write, raiseIf, State.writeD, hd, h]

/-- Every participant's flags are raised, whatever uniform register the results go to. -/
theorem flags_writeAllK {g : State → Actor → State} (hg : Quiet g) {u w n : Nat} {val : Actor → Word} {l : List Actor}
    (hl : ∀ a ∈ l, ∃ sl, a = .fib u w sl) {fl : Actor → FFlags}
    (hf : ∀ t sl y, (g t (.fib u w sl)).fpflags u y
      = (t.fpflags u y).map fun x => x ||| if t.flagWeave u w sl = y then fl (.fib u w sl) else 0) (t : State) (y : Nat) :
    (writeAllK g u w n val l t).fpflags u y = (t.fpflags u y).map fun x => x ||| flagsIn t u w y fl l := by
  refine foldl_flags (ok := fun _ => True) (fun _ _ _ _ => trivial) (fun t a ha _ => ?_) (fun t a ha _ y => ?_) t trivial y
  · obtain ⟨sl, rfl⟩ := hl a ha
    exact (keeps_writeK ..).trans (hg.keeps _ (.fib u w sl))
  · obtain ⟨sl, rfl⟩ := hl a ha
    rw [hf, fpflags_writeK, (keeps_writeK t u w n _).flagWeave]
    rfl

/-- The weave of a ready instruction stands. -/
theorem readyFib_weave {i : Instr} {s : State} {k : Iss} (h : readyFib i s = some k) : (s.weave? k.uid k.w).isSome := by
  obtain ⟨n, b, hc, -, -⟩ := readyFib_cursor h
  cases hx : s.weave? k.uid k.w with
  | none => rw [State.cursor, hx] at hc; cases hc
  | some x => rfl

/-- Settles O10: the result is the fold of the participants' writes of one uniform register (`RegOp.result_writeAllK`), of which the last stands
(`writeAllK_spec`), over the state with last uses released (`released_consume`). -/
theorem laneUniform : Obligations.LaneUniform := by
  intro i r s k a h hk hd ha
  have hl := acts_of hk
  have hu : ∀ a ∈ k.acts, a.uid = k.uid := fun a ha => by obtain ⟨sl, rfl⟩ := hl a ha; rfl
  have hrel := released_consume k r.srcs s hu
  have hg := quiet_raiseIf r.fp fun a => (r.val s (s.consume k.pc k.acts r.srcs) a).2
  obtain ⟨hkeeps, hsched, hpreds, hregs, hreadK⟩ := writeAllK_spec hg k.uid k.w r.d.num.toNat
    (fun a => (r.val s (s.consume k.pc k.acts r.srcs) a).1) k.acts hu (s.consume k.pc k.acts r.srcs)
    (by rw [hrel.rest.weave_isSome]; exact readyFib_weave hk)
  have hlanes : lanesOnly k.uid s (r.result k s) := by
    rw [RegOp.result_writeAllK hl hd]
    exact { hrel.rest.tokeeps.trans hkeeps with sched := fun v y => (hsched v y).trans (hrel.rest.sched v y) }
  refine ⟨r.result k s, ?_, hlanes, ?_⟩
  · rw [regOp_result h]
    exact completes (sw := false) (wd0 := false) hk rfl (cursor_of_sched (hlanes.sched ..))
  · rw [RegOp.result_writeAllK hl hd]
    refine ⟨fun v y n => ?_, fun v y sl n hn => (hregs v y sl n).trans (hrel.kept v y sl n hn), fun v y sl => (hpreds v y sl).trans (hrel.preds v y sl),
      fun y => ?_⟩
    · rw [hreadK, ha, hrel.uniform]
      refine if_congr ?_ rfl rfl
      constructor
      · rintro ⟨h0, rfl, rfl, rfl⟩; exact ⟨rfl, rfl, rfl, h0⟩
      · rintro ⟨rfl, rfl, rfl, h0⟩; exact ⟨h0, rfl, rfl, rfl⟩
    · rw [flags_writeAllK hg hl (fl := fun a => if r.fp then (r.val s (s.consume k.pc k.acts r.srcs) a).2 else 0) fun t sl y => fpflags_raiseIf ..,
        hrel.flags, flagsIn_congr hrel.rest.tokeeps]

end Sys2Proof.Machine
end

section
/-! PROOFS. Element results that exceed their width: the statement of exact results bounds no operation where it speaks of masked elements. -/
namespace Sys2Proof.Machine

/-- A packed form of four 16-bit elements of which the mask selects the lowest alone. -/
def lowestOnly : AForm :=
  { g := ⟨0, false⟩, ms := false, ty := .cd, d := ⟨0, false⟩, a := .zero, b := .zero, c := .zero, ext := .a96 1 }

/-- An operation whose result is one more than an element of width w holds. -/
def tooWide (w : Nat) (_sg : Bool) (_a _b _c : Nat) : Nat := 2 ^ w

/-- The excess of element 0 reaches element 1, which the mask leaves out and which was 0. -/
theorem elemAt_tooWide : elemAt 16 (intVal lowestOnly 1 false tooWide .reset .reset (.seq 0)).toNat 1 = 1
    ∧ elemAt 16 (State.reset.oldD (.seq 0) lowestOnly.d).toNat 1 = 0 := by decide

/-- Refutes O15: its last clause, on the elements that the mask leaves out, is for every operation and not for those alone whose results fit an element;
the result of `tooWide` for the selected element 0 carries into element 1, which is not selected. -/
theorem not_exactThenNarrow : ¬ Obligations.ExactThenNarrow := by
  rintro ⟨-, h⟩
  obtain ⟨-, -, hmask⟩ := h lowestOnly 1 false tooWide .reset .reset (.seq 0)
  have e := hmask rfl 1 (by decide) (by decide)
  exact absurd (elemAt_tooWide.1.symm.trans (e.trans elemAt_tooWide.2)) (by decide)

end Sys2Proof.Machine
end

section

/-! PROOFS. What a load does where an earlier request of its core is pending (O28) -/

namespace Sys2Proof.Machine
open Sys2Proof.Tests

/-- The core has asked for the line at 0x40002000 by a packet whose deadline has passed since, and context 1 wants records of late
packets (R386). Its ring lies past the panel's memory, so that a record leaves no byte and its doorbell at 0x20000 alone rings. -/
def latePending : State :=
  { (memS.updCore 0 fun c => { c with
        misses := [⟨0x40002000, 1, readPlace memS 0 0x40002000, false, false, 0, [], some ⟨1, 0, 0, 0, 32767⟩⟩] }).updCtx 1
      fun x => { x with flags := 2, ring := panelEnd } with time := 64 * 40000 }

/-- A plain load to w5 from the address in w3. -/
def plainLoad : MForm := mform 5 3 0 0 .plain 0

theorem latePending_ready : readyFib (.ld plainLoad .s8) latePending = some (k0 8) := by decide +kernel

theorem latePending_blocks (u : Nat) (b : Block) (h : latePending.block? u = some b) : b.deadline = none := by
  have none_late : ∀ e ∈ latePending.blocks, e.2.deadline = none := by decide +kernel
  exact none_late _ (mget_mem _ u b h)

theorem latePending_maps : tlbMaps latePending me (effAddr latePending me plainLoad (!plainLoad.nb)) .load 0x40002000 :=
  ⟨by decide +kernel, _, rfl, by decide +kernel, by decide +kernel, by decide +kernel⟩

theorem latePending_bell_silent : latePending.byte 0x20000 = 0 := by decide +kernel

theorem latePending_load_rings :
    (stateAfter (exec (.ld plainLoad .s8) latePending)).map (fun t => t.byte 0x20000) = some 1 := by decide +kernel

/-- What an instruction leaves in its weave is no byte of panel memory. -/
theorem byte_after (k : Iss) (wd0 : Bool) (d : State) (p : Nat) (h : p < panelEnd) : (k.after wd0 d).byte p = d.byte p := by
  simp only [State.byte, Nat.not_le.mpr h, if_false]
  rfl

/-- Refutes O28: the load shares the pending request of its line, which is served as the load issues (R247, R248); the packets of that
request come late, and the record of it rings the doorbell (R386). That no block has a deadline now says nothing about the
packets that are on their way. -/
theorem not_loadEffect : ¬ Obligations.LoadEffect := by
  unfold Obligations.LoadEffect
  intro h
  obtain ⟨d, hd, -, -, -, bytes, -⟩ := h plainLoad .s8 latePending (k0 8) me 0x40002000 latePending_ready rfl (by decide +kernel)
    latePending_blocks (by decide +kernel) latePending_maps (by decide +kernel) (fun acq => absurd acq (by decide))
  have rings := latePending_load_rings
  rw [hd, stateAfter, Option.map_some, byte_after _ _ _ _ (by decide), bytes _ (by decide), latePending_bell_silent] at rings
  exact absurd rings (by decide)

end Sys2Proof.Machine

end

section
/-! PROOFS. Instructions across the fibres of a batch: every value comes from the state before, and the participants write one after another. -/
namespace Sys2Proof.Machine

/-! ### Completion of a batch-wide computation -/

section
variable {i : Instr} {s t : State} {k : Iss}

theorem ready_of_readyFib (h : readyFib i s = some k) : ready i s = some k := by
  obtain ⟨u, w, -, -, -, hf, -⟩ := readyFib_cases h
  simp only [ready, hf, h]

theorem ready_of_readySeq (h : readySeq i s = some k) : ready i s = some k := by
  obtain ⟨u, -, -, hf, -⟩ := readySeq_cases h
  simp only [ready, hf, h]

theorem Iss.ends_of_readyFib (h : readyFib i s = some k) (d : State) : k.ends false false d = k.after false d := by
  obtain ⟨u, w, blk, x, b, -, -, -, -, rfl, -⟩ := readyFib_cases h
  rfl

/-- Flags are raised once, by the lowest participant (log 90). -/
def raiseFirst (l : List Actor) (fl : FFlags) (t : State) : State := match l with | a :: _ => if fl = 0 then t else t.raise a fl | [] => t

theorem raiseFirst_zero (l : List Actor) (t : State) : raiseFirst l 0 t = t := by
  cases l <;> simp [raiseFirst]

theorem raiseFirst_seated {l : List Actor} {fl : FFlags} (h : seated s t) : seated s (raiseFirst l fl t) := by
  unfold raiseFirst
  split
  · split
    · exact h
    · exact raise_seated h
  · exact h

theorem crossWrite_eq {α : Type} (k : Iss) (s : State) (write : State → Actor → α → State) (val : Actor → α) (fl : FFlags) :
    crossWrite k s write val fl = { st := raiseFirst k.acts fl (k.acts.foldl (fun t a => write t a (val a)) s) } := rfl

/-- A batch-wide computation completes where reading its sources and each write leave agents in their places. -/
theorem crossWrite_completes {α : Type} {write : State → Actor → α → State} {val : Actor → α} {fl : FFlags} {body : Iss → State → Done}
    (h : readyFib i s = some k) (hb : body k s = crossWrite k t write val fl) (ht : seated s t)
    (hw : ∀ r a v, seated s r → seated s (write r a v)) :
    issue i s body = .next (k.after false (raiseFirst k.acts fl (k.acts.foldl (fun r a => write r a (val a)) t))) := by
  rw [← Iss.ends_of_readyFib h]
  exact completes_seated (ready_of_readyFib h) (hb.trans (crossWrite_eq ..)) (raiseFirst_seated (foldl_seated (fun r a => hw r a _) ht))

/-- The same where no flag is raised. -/
theorem crossWrite_completes_noFlags {α : Type} {write : State → Actor → α → State} {val : Actor → α} {body : Iss → State → Done}
    (h : readyFib i s = some k) (hb : body k s = crossWrite k t write val 0) (ht : seated s t)
    (hw : ∀ r a v, seated s r → seated s (write r a v)) :
    issue i s body = .next (k.after false (k.acts.foldl (fun r a => write r a (val a)) t)) := by
  rw [crossWrite_completes h hb ht hw, raiseFirst_zero]

end

/-! ### Sources that one instruction reads in its own way -/

section
variable {k : Iss} {srcs : List Src} {s t : State}

theorem released.refl (k : Iss) (srcs : List Src) (s : State) : released k srcs s s :=
  ⟨{ keeps.refl k.uid s with sched := fun _ _ => rfl }, fun _ _ _ _ _ => rfl, fun _ _ _ => rfl, fun _ _ _ => rfl, fun _ _ => rfl⟩

theorem released.trans {r : State} (h : released k srcs s t) (g : released k srcs t r) : released k srcs s r where
  rest := { h.rest.tokeeps.trans g.rest.tokeeps with sched := fun v y => (g.rest.sched v y).trans (h.rest.sched v y) }
  kept v y sl n hn := (g.kept v y sl n hn).trans (h.kept v y sl n hn)
  preds v y sl := (g.preds v y sl).trans (h.preds v y sl)
  uniform v y n := (g.uniform v y n).trans (h.uniform v y n)
  flags v y := (g.flags v y).trans (h.flags v y)

theorem released.foldl {α : Type} {step : State → α → State} {l : List α} (hstep : ∀ r, ∀ a ∈ l, released k srcs r (step r a))
    (h : released k srcs s t) : released k srcs s (l.foldl step t) :=
  List.foldlRecOn (motive := released k srcs s) l step h fun r hr a ha => hr.trans (hstep r a ha)

theorem released_noteDead (k : Iss) (srcs : List Src) (s : State) (pc : Word) (r : Option (Nat × Nat × Nat)) :
    released k srcs s (s.noteDead k.uid pc r) where
  rest := { keeps_noteDead s k.uid pc r with sched := sched_noteDead _ _ _ _ }
  kept _ _ _ _ _ := reg?_congr (by rw [fibre?_noteDead])
  preds _ _ _ := by rw [fibre?_noteDead]
  uniform := readK_noteDead _ _ _ _
  flags := fpflags_noteDead _ _ _ _

/-- A part of a fibre that the actor's last use of a source leaves alone. -/
theorem fibre?_map_release {α : Type} {p : Fibre → α} {a : Actor} {x : Src} {v y sl : Nat}
    (hp : a = .fib v y sl → ∀ f : Fibre, p (f.used x) = p f) (s : State) : ((s.release a x).fibre? v y sl).map p = (s.fibre? v y sl).map p := by
  rw [fibre?_release]
  split
  · rename_i h
    cases s.fibre? v y sl <;> simp [hp h]
  · rfl

theorem released_release {a : Actor} {x : Src} (ha : a ∈ k.acts) (hu : a.uid = k.uid) (hx : x ∈ srcs) (s : State) :
    released k srcs s (s.release a x) where
  rest := { hu ▸ keeps_release s a x with sched := sched_release _ _ _ }
  kept _ _ _ n hn := reg?_congr (fibre?_map_release (fun e f => used_regs f x n fun hl => hn ⟨e ▸ ha, x, hx, hl⟩) s)
  preds _ _ _ := fibre?_map_release (fun _ f => used_preds f x) s
  uniform := readK_release _ _ _
  flags := fpflags_release _ _ _

end

/-- The sources of `shfl`: A of another slot and the participant's own B are noted where they are dead, then last uses release. -/
def shflReleased (f : AForm) (mode : ShflMode) (k : Iss) (s : State) : State :=
  k.acts.foldl (fun t a => t.releaseAll a [f.a, f.b])
    (k.acts.foldl (fun t a =>
      (t.noteDead k.uid k.pc (slotRead s a f.a (shflSlot mode a.slot (shflB f s a))).2).noteDead k.uid k.pc (s.readSrc a f.b).2) s)

theorem released_shfl (f : AForm) (mode : ShflMode) {k : Iss} (s : State) (hu : ∀ a ∈ k.acts, a.uid = k.uid) :
    released k [f.a, f.b] s (shflReleased f mode k s) := by
  refine .foldl (fun r a ha => .foldl (fun r x hx => released_release ha (hu a ha) hx r) (.refl ..)) (.foldl (fun r a _ => ?_) (.refl ..))
  exact (released_noteDead ..).trans (released_noteDead ..)

theorem shflReleased_seated (f : AForm) (mode : ShflMode) (k : Iss) (s : State) : seated s (shflReleased f mode k s) :=
  foldl_seated (fun _ _ => foldl_seated fun _ _ => release_seated)
    (foldl_seated (fun _ _ ht => noteDead_seated (noteDead_seated ht)) (.refl s))

/-! ### `scan` and `red` -/

theorem length_chain (op : RedOp) (sat : Bool) (rm : RM) (t : Ty) (l : List (List Nat)) (acc : List Nat) :
    (chain op sat rm t acc l).1.length = l.length := by
  induction l generalizing acc with
  | nil => rfl
  | cons v r ih => simp [chain, ih]

theorem length_inclusive (op : RedOp) (sat : Bool) (rm : RM) (t : Ty) (l : List (List Nat)) : (inclusive op sat rm t l).1.length = l.length := by
  cases l with
  | nil => rfl
  | cons v r => simp [inclusive, length_chain]

theorem atActor_of_mem {l : List (Actor × List Nat)} (hn : (l.map Prod.fst).Nodup) {e : Actor × List Nat} (he : e ∈ l) : atActor l e.1 = e.2 := by
  induction l with
  | nil => cases he
  | cons x r ih =>
    obtain ⟨hx, hr⟩ := List.nodup_cons.mp hn
    rcases List.mem_cons.mp he with rfl | he
    · simp [atActor]
    · have hne : x.1 ≠ e.1 := fun h => hx (h ▸ List.mem_map_of_mem he)
      have hcons : atActor (x :: r) e.1 = atActor r e.1 := by simp [atActor, hne]
      rw [hcons, ih hr he]

/-- Each participant in turn with the elements at its place: the participants paired with the elements, in turn. -/
theorem foldl_atActor {σ : Type} (g : σ → Actor → List Nat → σ) {l : List Actor} {r : List (List Nat)} (hn : l.Nodup) (hlen : l.length ≤ r.length)
    (t : σ) : l.foldl (fun t a => g t a (atActor (l.zip r) a)) t = (l.zip r).foldl (fun t e => g t e.1 e.2) t := by
  have hfst : (l.zip r).map Prod.fst = l := List.map_fst_zip hlen
  calc l.foldl (fun t a => g t a (atActor (l.zip r) a)) t
      = ((l.zip r).map Prod.fst).foldl (fun t a => g t a (atActor (l.zip r) a)) t := by rw [hfst]
    _ = (l.zip r).foldl (fun t e => g t e.1 (atActor (l.zip r) e.1)) t := List.foldl_map ..
    _ = (l.zip r).foldl (fun t e => g t e.1 e.2) t :=
        List.foldl_ext _ _ _ fun t e he => by rw [atActor_of_mem (hfst.symm ▸ hn) he]

/-- One element in front of as many as there are participants: nobody takes the last. -/
theorem zip_cons_dropLast {α β : Type} (l : List α) (x : β) {r : List β} (h : r.length = l.length) : l.zip (x :: r) = l.zip (x :: r.dropLast) := by
  induction l generalizing x r with
  | nil => rfl
  | cons a l ih =>
    match r, h with
    | [y], h => rw [List.length_eq_zero_iff.mp (Nat.succ.inj h).symm]; rfl
    | y :: z :: r, h => exact congrArg ((a, x) :: ·) (ih y (Nat.succ.inj h))

theorem map_const_eq {α β γ : Type} {l : List α} {r : List β} (h : r.length = l.length) (c : γ) : (r.map fun _ => c) = l.map fun _ => c := by
  simp [List.map_const', h]

/-- A `scan` or `red` completes: each participant, paired with its elements, writes its destination, and the chain's flags are raised once. -/
theorem reduce_completes {i : Instr} {s : State} {k : Iss} (h : readyFib i s = some k) (hn : k.acts.Nodup) (f : AForm) (op : RedOp) (sat : Bool)
    (rm : RM) {pick : List (List Nat) → List (List Nat)} (hp : ∀ l, l.length ≤ (pick l).length) :
    let t := s.consume k.pc k.acts [f.a]
    let r := inclusive op sat rm f.ty (k.acts.map fun a => elemsOf false f.ty f.a (s.src a f.a))
    issue i s (reduce f op sat rm pick) = .next (k.after false (raiseFirst k.acts r.2 ((k.acts.zip (pick r.1)).foldl
      (fun x e => x.writeD e.1 f.d (mergeElems false f.ty f.ext.sem (t.oldD e.1 f.d) e.2)) t))) := by
  intro t r
  have hlen : k.acts.length ≤ (pick r.1).length :=
    calc k.acts.length = r.1.length := ((length_inclusive ..).trans (List.length_map _)).symm
      _ ≤ (pick r.1).length := hp r.1
  rw [← foldl_atActor (fun x a e => State.writeD x a f.d (mergeElems false f.ty f.ext.sem (t.oldD a f.d) e)) hn hlen]
  exact crossWrite_completes h rfl (consume_seated (.refl s)) fun _ _ _ => writeD_seated

theorem uid_of_readyFib {i : Instr} {s : State} {k : Iss} (h : readyFib i s = some k) : ∀ a ∈ k.acts, a.uid = k.uid := fun a ha => by
  obtain ⟨sl, rfl⟩ := acts_of h a ha
  rfl

/-- What a participant of a `match` writes of its mask: in a packed type the elements that the form selects (R51, R195). -/
def matchResult (f : AForm) (t : State) (a : Actor) (v : Word) : Word :=
  if f.ty.packed then
    mergeElems false f.ty f.ext.sem (t.oldD a f.d) ((upto (f.ty.shape false).1).map fun i => elemAt (f.ty.shape false).2 v.toNat i)
  else v

theorem matchResult_lone {f : AForm} (h : f.ty.packed = false) (t : State) (a : Actor) (v : Word) : matchResult f t a v = v := by
  simp [matchResult, h]

theorem matchResult_packed {f : AForm} (h : f.ty.packed = true) (t : State) (a : Actor) (v : Word) :
    matchResult f t a v = mergeElems false f.ty f.ext.sem (t.oldD a f.d)
      ((upto (f.ty.shape false).1).map fun i => elemAt (f.ty.shape false).2 v.toNat i) := by
  simp [matchResult, h]

theorem matchBits_completes {f : AForm} {s : State} {k : Iss} (h : readyFib (.matchBits f) s = some k) :
    exec (.matchBits f) s = .next (k.after false (k.acts.foldl (fun r a => r.writeD a f.d
      (matchResult f (s.consume k.pc k.acts [f.a]) a (maskBy k.acts fun b => matchKey s f a = matchKey s f b))) (s.consume k.pc k.acts [f.a]))) :=
  crossWrite_completes_noFlags h rfl (consume_seated (.refl s)) fun _ _ _ => writeD_seated

/-- `id` completes where its selector has a value for every participant (R199). -/
theorem id_completes {f : AForm} {sel : IdSel} {s : State} {k : Iss} {blk : Block} (h : ready (.id f sel) s = some k)
    (hblk : s.block? k.uid = some blk) (hval : ∀ a ∈ k.acts, (idValue s k sel blk a).isSome = true) :
    exec (.id f sel) s
      = .next (k.ends false false (k.acts.foldl (fun r a => r.writeD a f.d ((idValue s k sel blk a).getD 0)) s)) := by
  have hall : (k.acts.any fun a => (idValue s k sel blk a).isNone) = false := by
    rw [List.any_eq_false]
    intro a ha
    simpa [Option.isSome_iff_ne_none] using hval a ha
  refine completes_seated h ?_ (foldl_seated (fun _ _ => writeD_seated) (.refl s))
  simp only [hblk, hall, Bool.false_eq_true, if_false]

/-- Settles O19: each effect writes participant by participant over the state with last uses released (`crossWrite_completes`), which leaves agents
in their places; the elements at a participant's place are those it is paired with (`foldl_atActor`). -/
theorem crossLaneCompletes : Obligations.CrossLaneCompletes := by
  refine ⟨fun f s k => ⟨fun mode h => ?shfl, fun h => ?any, fun h => ?all, fun h => ?uni, fun h => ?ballot, fun h hty => ?lone, fun h hty => ?packed,
    fun h => ?matchf, fun sel blk h hblk hval => ?id, fun h => ?tread⟩, fun f op sat rm s k i h => ?reduce⟩
  case shfl =>
    exact ⟨_, released_shfl f mode s (uid_of_readyFib h),
      crossWrite_completes_noFlags h rfl (shflReleased_seated f mode k s) fun _ _ _ => writeD_seated⟩
  case any | all | uni => exact crossWrite_completes_noFlags h rfl (.refl s) fun _ _ _ => writeP_seated
  case ballot => exact crossWrite_completes_noFlags h rfl (.refl s) fun _ _ _ => writeD_seated
  case lone =>
    refine ⟨_, released_consume k [f.a] s (uid_of_readyFib h), ?_⟩
    simp only [matchBits_completes h, matchResult_lone hty]
  case packed =>
    refine ⟨_, released_consume k [f.a] s (uid_of_readyFib h), ?_⟩
    simp only [matchBits_completes h, matchResult_packed hty]
  case matchf =>
    exact ⟨_, _, released_consume k [f.a] s (uid_of_readyFib h), rfl,
      crossWrite_completes h rfl (consume_seated (.refl s)) fun _ _ _ => writeD_seated⟩
  case id => exact id_completes (h.elim ready_of_readyFib ready_of_readySeq) hblk hval
  case tread => exact completes_seated h rfl (foldl_seated (fun _ _ => writeD_seated) (.refl s))
  case reduce =>
    intro r res hn
    have hrel := released_consume k [f.a] s (uid_of_readyFib h)
    have hlen : r.1.length = k.acts.length := (length_inclusive ..).trans (List.length_map _)
    refine ⟨?inclusive, ?exclusive, ?red⟩
    case inclusive =>
      rintro rfl
      exact ⟨_, _, hrel, rfl, reduce_completes h hn f op sat rm (pick := fun l => l) fun _ => le_rfl⟩
    case exclusive =>
      rintro rfl
      refine ⟨_, _, hrel, rfl, ?_⟩
      rw [← zip_cons_dropLast _ _ hlen]
      exact reduce_completes h hn f op sat rm (pick := (List.replicate _ (identityE op f.ty) :: ·)) fun l => Nat.le_succ l.length
    case red =>
      rintro rfl
      refine ⟨_, _, hrel, rfl, ?_⟩
      rw [← map_const_eq hlen, List.getLastD_eq_getLast?]
      exact reduce_completes h hn f op sat rm (pick := fun l => l.map fun _ => l.getLast?.getD []) fun l => (List.length_map _).ge

end Sys2Proof.Machine
end

section
/-! PROOFS. Elements of an integer result, and division by element: the elements that an operation gives are those of the register that it writes, and
quotient and remainder are those of truncated division, which fit the element but for the two cases of R74. -/
namespace Sys2Proof.Machine

/-! ### Elements -/

theorem elemAt_lt (w v i : Nat) : elemAt w v i < 2 ^ w := Nat.mod_lt _ (Nat.two_pow_pos w)

theorem nth_map_upto (g : Nat → Nat) {n i : Nat} (h : i < n) : nth ((upto n).map g) i = g i := by
  simp [nth, upto, h]

theorem two_pow_halves {w : Nat} (hw : 0 < w) : 2 ^ w = 2 ^ (w - 1) + 2 ^ (w - 1) := by
  rw [← Nat.two_mul, ← Nat.pow_succ', Nat.succ_eq_add_one, Nat.sub_add_cancel hw]

/-- A source modifier gives an element of the same width (R51). -/
theorem modElem_lt (flt ng ab : Bool) {w x : Nat} (hw : 0 < w) (hx : x < 2 ^ w) : modElem flt w ng ab x < 2 ^ w := by
  have hhalf := two_pow_halves hw
  unfold modElem
  split
  · have hm : x % 2 ^ (w - 1) < 2 ^ (w - 1) := Nat.mod_lt _ (Nat.two_pow_pos _)
    dsimp only
    split <;> omega
  · dsimp only
    split
    · exact Nat.mod_lt _ (Nat.two_pow_pos _)
    · split
      · exact Nat.mod_lt _ (Nat.two_pow_pos _)
      · exact hx

theorem shape_width_pos (fl : Bool) (t : Ty) : 0 < (t.shape fl).2 := by
  cases t <;> cases fl <;> decide

theorem packed_bits {t : Ty} (h : t.packed = true) (fl : Bool) : (t.shape fl).2 * (t.shape fl).1 = 64 := by
  revert h
  cases t <;> cases fl <;> decide

theorem scalar_elems {t : Ty} (h : t.packed = false) : (t.shape false).1 = 1 := by
  revert h
  cases t <;> decide

theorem nth_elemsOf_lt (fl : Bool) (t : Ty) (x : Src) (v : Word) {i : Nat} (h : i < (t.shape fl).1) :
    nth (elemsOf fl t x v) i < 2 ^ (t.shape fl).2 := by
  simp only [elemsOf, nth_map_upto _ h]
  exact modElem_lt _ _ _ (shape_width_pos fl t) (elemAt_lt ..)

theorem nth_immElems_lt (fl uns : Bool) (t : Ty) (imm : BitVec 32) {i : Nat} (h : i < (t.shape fl).1) :
    nth (immElems fl uns t imm) i < 2 ^ (t.shape fl).2 := by
  simp only [immElems, nth_map_upto _ h]
  exact elemAt_lt ..

theorem nth_opA_lt (fl : Bool) (f : AForm) (s : State) (a : Actor) {i : Nat} (h : i < (f.ty.shape fl).1) :
    nth (opA fl f s a) i < 2 ^ (f.ty.shape fl).2 := nth_elemsOf_lt _ _ _ _ h

theorem nth_opB_lt (fl uns : Bool) (f : AForm) (s : State) (a : Actor) {i : Nat} (h : i < (f.ty.shape fl).1) :
    nth (opB fl uns f s a) i < 2 ^ (f.ty.shape fl).2 := by
  unfold opB
  split
  · exact nth_immElems_lt _ _ _ _ h
  · exact nth_elemsOf_lt _ _ _ _ h

/-- Elements that fit their width come back from the packed word. -/
theorem elemAt_packElems {w : Nat} {l : List Nat} (hl : ∀ e ∈ l, e < 2 ^ w) {i : Nat} (hi : i < l.length) : elemAt w (packElems w l) i = nth l i := by
  induction l generalizing i with
  | nil => cases hi
  | cons e r ih =>
    have he := hl e (List.mem_cons_self ..)
    cases i with
    | zero => simp [elemAt, packElems, nth, Nat.mod_eq_of_lt he]
    | succ i =>
      have htail : packElems w (e :: r) / 2 ^ (w * (i + 1)) = packElems w r / 2 ^ (w * i) := by
        rw [packElems, Nat.mul_succ, Nat.add_comm (w * i), Nat.pow_add, ← Nat.div_div_eq_div_mul, Nat.add_mul_div_left _ _ (Nat.two_pow_pos w),
          Nat.div_eq_of_lt he, Nat.zero_add]
      have := ih (fun e he => hl e (List.mem_cons_of_mem _ he)) (Nat.lt_of_succ_lt_succ hi)
      rw [elemAt, htail]
      exact this

theorem packElems_lt {w : Nat} {l : List Nat} (hl : ∀ e ∈ l, e < 2 ^ w) : packElems w l < 2 ^ (w * l.length) := by
  induction l with
  | nil => exact Nat.one_pos
  | cons e r ih =>
    have he := hl e (List.mem_cons_self ..)
    have hr := ih fun e he => hl e (List.mem_cons_of_mem _ he)
    calc packElems w (e :: r) < 2 ^ w + 2 ^ w * packElems w r := Nat.add_lt_add_right he _
      _ = 2 ^ w * (packElems w r + 1) := by ring
      _ ≤ 2 ^ w * 2 ^ (w * r.length) := Nat.mul_le_mul_left _ hr
      _ = 2 ^ (w * (e :: r).length) := by rw [← Nat.pow_add, List.length_cons, Nat.mul_succ, Nat.add_comm]

/-- Extension keeps the low bits. -/
theorem signExtend_low {w v x : Nat} (hv : w ≤ v) (hx : x < 2 ^ w) : ((BitVec.ofNat w x).signExtend v).toNat % 2 ^ w = x := by
  have h : ((BitVec.ofNat w x).signExtend v).setWidth w = BitVec.ofNat w x := by
    refine BitVec.eq_of_getLsbD_eq fun i hi => ?_
    rw [BitVec.getLsbD_setWidth, BitVec.getLsbD_signExtend]
    simp [hi, hi.trans_le hv]
  rw [← BitVec.toNat_setWidth, h, BitVec.toNat_ofNat, Nat.mod_eq_of_lt hx]

theorem toNat_ofNat64 {x w : Nat} (hw : w ≤ 64) (hx : x < 2 ^ w) : (ofNat64 x).toNat = x := by
  rw [ofNat64, BitVec.toNat_ofNat, Nat.mod_eq_of_lt (hx.trans_le (Nat.pow_le_pow_right Nat.two_pos hw))]

/-- A scalar result keeps its element in the low bits, however it is extended (R72). -/
theorem elemAt_regOf (t : Ty) {x : Nat} (hx : x < 2 ^ (t.shape false).2) : elemAt (t.shape false).2 (regOf t x).toNat 0 = x := by
  have hw : (t.shape false).2 ≤ 64 := by cases t <;> decide
  have hplain : elemAt (t.shape false).2 (ofNat64 x).toNat 0 = x := by
    rw [toNat_ofNat64 hw hx, elemAt, Nat.mul_zero, Nat.pow_zero, Nat.div_one, Nat.mod_eq_of_lt hx]
  have hsigned : elemAt (t.shape false).2 ((BitVec.ofNat (t.shape false).2 x).signExtend 64).toNat 0 = x := by
    rw [elemAt, Nat.mul_zero, Nat.pow_zero, Nat.div_one, signExtend_low hw hx]
  cases t
  case s8 | s16 | s32 => exact hsigned
  all_goals exact hplain

/-- The element that a packed destination gets: the operation's where the mask selects it, else the old one (R51). -/
def mergedElem (t : Ty) (sem : BitVec 8) (old : Word) (r : List Nat) (j : Nat) : Nat :=
  if t.semBit sem j then nth r j else elemAt (t.shape false).2 old.toNat j

theorem mergedElem_lt {t : Ty} {r : List Nat} {j : Nat} (hr : nth r j < 2 ^ (t.shape false).2) (sem : BitVec 8) (old : Word) :
    mergedElem t sem old r j < 2 ^ (t.shape false).2 := by
  unfold mergedElem
  split
  · exact hr
  · exact elemAt_lt ..

section
variable {t : Ty} {r : List Nat} (hr : ∀ j < (t.shape false).1, nth r j < 2 ^ (t.shape false).2) (sem : BitVec 8) (old : Word) {i : Nat}
  (hi : i < (t.shape false).1)
include hr hi

theorem elemAt_mergeElems_packed (hp : t.packed = true) : elemAt (t.shape false).2 (mergeElems false t sem old r).toNat i = mergedElem t sem old r i := by
  have hlen : ((upto (t.shape false).1).map (mergedElem t sem old r)).length = (t.shape false).1 := by simp [upto]
  have hfit : ∀ e ∈ (upto (t.shape false).1).map (mergedElem t sem old r), e < 2 ^ (t.shape false).2 := by
    intro e he
    obtain ⟨j, hj, rfl⟩ := List.mem_map.mp he
    exact mergedElem_lt (hr j (List.mem_range.mp hj)) sem old
  have hword : (mergeElems false t sem old r).toNat = packElems (t.shape false).2 ((upto (t.shape false).1).map (mergedElem t sem old r)) := by
    simp only [mergeElems, hp, if_true]
    exact toNat_ofNat64 (hlen ▸ packed_bits hp false).le (packElems_lt hfit)
  rw [hword, elemAt_packElems hfit (hlen.symm ▸ hi), nth_map_upto _ hi]

/-- A selected element of the result is the one that the operation gives (R51, R72). -/
theorem elemAt_mergeElems (hsel : t.packed = true → t.semBit sem i = true) :
    elemAt (t.shape false).2 (mergeElems false t sem old r).toNat i = nth r i := by
  cases hp : t.packed with
  | true => rw [elemAt_mergeElems_packed hr sem old hi hp, mergedElem, if_pos (hsel hp)]
  | false =>
    obtain rfl : i = 0 := Nat.lt_one_iff.mp (scalar_elems hp ▸ hi)
    simp only [mergeElems, hp, Bool.false_eq_true, if_false]
    exact elemAt_regOf t (hr 0 hi)

end

/-- A selected element of an integer result of two sources, of an operation whose results fit an element. -/
theorem elemAt_intVal {f : AForm} {u : Bool} {op : Nat → Bool → Nat → Nat → Nat → Nat}
    (hop : ∀ w sg a b c, a < 2 ^ w → b < 2 ^ w → op w sg a b c < 2 ^ w) (s s1 : State) (a : Actor) {i : Nat} (hi : i < (f.ty.shape false).1)
    (hsel : f.ty.packed = true → f.ty.semBit f.ext.sem i = true) :
    elemAt (f.ty.shape false).2 (intVal f 2 u op s s1 a).toNat i
      = op (f.ty.shape false).2 (f.ty.signed u) (nth (opA false f s a) i) (nth (opB false u f s a) i) (nth [] i) := by
  unfold intVal
  rw [elemAt_mergeElems (fun j hj => ?_) _ _ hi hsel, nth_map_upto _ hi]
  · rfl
  · rw [nth_map_upto _ hj]
    exact hop _ _ _ _ _ (nth_opA_lt false f s a hj) (nth_opB_lt false u f s a hj)

/-! ### Integers of an element -/

/-- An integer that an element of width w holds (R72). -/
def fitsElem (sg : Bool) (w : Nat) (x : Int) : Prop :=
  if sg then -(2 ^ (w - 1) : Nat) ≤ x ∧ x < (2 ^ (w - 1) : Nat) else 0 ≤ x ∧ x < (2 ^ w : Nat)

theorem toI_natural (w x : Nat) : toI false w x = x := by simp [toI]

theorem toI_signed (w x : Nat) : toI true w x = if 2 ^ (w - 1) ≤ x then (x : Int) - (2 ^ w : Nat) else x := by
  simp [toI]

theorem fitsElem_toI (sg : Bool) {w x : Nat} (hw : 0 < w) (hx : x < 2 ^ w) : fitsElem sg w (toI sg w x) := by
  have hhalf := two_pow_halves hw
  cases sg with
  | false => simp only [fitsElem, toI_natural, Bool.false_eq_true, if_false]; omega
  | true =>
    simp only [fitsElem, toI_signed, if_true]
    split <;> omega

theorem toI_eq_zero {sg : Bool} {w x : Nat} (hx : x < 2 ^ w) : toI sg w x = 0 ↔ x = 0 := by
  cases sg with
  | false => rw [toI_natural]; omega
  | true =>
    have hpos := Nat.two_pow_pos (w - 1)
    rw [toI_signed]
    split <;> omega

theorem ofI_lt (w : Nat) (x : Int) : ofI w x < 2 ^ w := by
  have hpos : (0 : Int) < (2 ^ w : Nat) := Int.natCast_pos.mpr (Nat.two_pow_pos w)
  have h1 := Int.emod_nonneg x hpos.ne'
  have h2 := Int.emod_lt_of_pos x hpos
  unfold ofI
  omega

theorem ofI_of_nonneg {w : Nat} {x : Int} (h0 : 0 ≤ x) (h1 : x < (2 ^ w : Nat)) : (ofI w x : Int) = x := by
  rw [ofI, Int.emod_eq_of_lt h0 h1, Int.toNat_of_nonneg h0]

/-- Integers that differ by 2^w have the same low bits. -/
theorem ofI_add_two_pow (w : Nat) (x : Int) : ofI w (x + (2 ^ w : Nat)) = ofI w x := by
  rw [ofI, Int.add_emod_right, ofI]

/-- An integer that fits is read back from its low bits. -/
theorem toI_ofI {sg : Bool} {w : Nat} {x : Int} (hw : 0 < w) (hx : fitsElem sg w x) : toI sg w (ofI w x) = x := by
  have hhalf := two_pow_halves hw
  cases sg with
  | false =>
    simp only [fitsElem, Bool.false_eq_true, if_false] at hx
    rw [toI_natural, ofI_of_nonneg hx.1 hx.2]
  | true =>
    simp only [fitsElem, if_true] at hx
    rw [toI_signed]
    rcases le_or_gt 0 x with h0 | h0
    · have h := ofI_of_nonneg (w := w) h0 (by omega)
      rw [if_neg (by omega), h]
    · have h := ofI_of_nonneg (w := w) (x := x + (2 ^ w : Nat)) (by omega) (by omega)
      rw [ofI_add_two_pow] at h
      rw [if_pos (by omega), h, add_sub_cancel_right]

/-! ### Quotient and remainder -/

theorem divE_lt {w : Nat} {sg : Bool} {a b c : Nat} : divE w sg a b c < 2 ^ w := by
  have := Nat.two_pow_pos w
  unfold divE
  split
  · omega
  · exact ofI_lt ..

theorem remE_lt {w : Nat} {sg : Bool} {a b c : Nat} (ha : a < 2 ^ w) : remE w sg a b c < 2 ^ w := by
  unfold remE
  split
  · exact ha
  · exact ofI_lt ..

/-- A truncated quotient fits where it is not the most negative value by −1 (R74). -/
theorem fitsElem_tdiv {sg : Bool} {w : Nat} {x y : Int} (hx : fitsElem sg w x) (hy : fitsElem sg w y)
    (h : ¬(sg = true ∧ x = -(2 ^ (w - 1) : Nat) ∧ y = -1)) : fitsElem sg w (x.tdiv y) := by
  cases sg with
  | false =>
    simp only [fitsElem, Bool.false_eq_true, if_false] at *
    have h0 := Int.tdiv_nonneg hx.1 hy.1
    have h1 := Int.tdiv_le_self y hx.1
    omega
  | true =>
    simp only [fitsElem, if_true, true_and] at *
    rcases (by omega : y = 0 ∨ y = 1 ∨ y = -1 ∨ 2 ≤ y.natAbs) with rfl | rfl | rfl | hy2
    · rw [Int.tdiv_zero]; omega
    · rw [Int.tdiv_one]; exact hx
    · rw [Int.tdiv_neg, Int.tdiv_one]; omega
    · have hle : (x.tdiv y).natAbs ≤ x.natAbs / 2 := by
        rw [Int.natAbs_tdiv]
        exact Nat.div_le_div_left hy2 Nat.two_pos
      omega

/-- The remainder takes the sign of the dividend (R74). -/
theorem tmod_sign (x y : Int) : x.tmod y = 0 ∨ (0 < x.tmod y ↔ 0 < x) := by
  rcases le_or_gt 0 x with h | h
  · have := Int.tmod_nonneg y h
    by_cases hx : x = 0
    · exact .inl (by rw [hx, Int.zero_tmod])
    · omega
  · have := Int.tmod_nonneg y (a := -x) (by omega)
    rw [Int.neg_tmod] at this
    omega

theorem natAbs_tmod_lt (x : Int) {y : Int} (hy : y ≠ 0) : (x.tmod y).natAbs < y.natAbs := by
  rw [Int.natAbs_tmod]
  exact Nat.mod_lt _ (Int.natAbs_pos.mpr hy)

theorem fitsElem_tmod {sg : Bool} {w : Nat} {x y : Int} (hx : fitsElem sg w x) (hy : fitsElem sg w y) (h0 : y ≠ 0) : fitsElem sg w (x.tmod y) := by
  have hlt := natAbs_tmod_lt x h0
  cases sg with
  | false =>
    simp only [fitsElem, Bool.false_eq_true, if_false] at *
    have := Int.tmod_nonneg y hx.1
    omega
  | true =>
    simp only [fitsElem, if_true] at *
    omega

/-- A divisor of zero gives all ones and the dividend, without a trap or flag (R74). -/
theorem divE_zero (w : Nat) (sg : Bool) (a c : Nat) : divE w sg a 0 c = 2 ^ w - 1 := rfl
theorem remE_zero (w : Nat) (sg : Bool) (a c : Nat) : remE w sg a 0 c = a := rfl

theorem divE_of_ne {w : Nat} {sg : Bool} {a b c : Nat} (hb : b ≠ 0) : divE w sg a b c = ofI w ((toI sg w a).tdiv (toI sg w b)) := if_neg hb
theorem remE_of_ne {w : Nat} {sg : Bool} {a b c : Nat} (hb : b ≠ 0) : remE w sg a b c = ofI w ((toI sg w a).tmod (toI sg w b)) := if_neg hb

/-- The most negative value by −1 gives itself and 0 (R74). -/
theorem divE_least {w a b c : Nat} {sg : Bool} (hw : 0 < w) (hb0 : b ≠ 0) (hsg : sg = true) (ha : toI sg w a = -(2 ^ (w - 1) : Nat))
    (hb : toI sg w b = -1) : toI sg w (divE w sg a b c) = toI sg w a ∧ remE w sg a b c = 0 := by
  subst hsg
  have hhalf := two_pow_halves hw
  have hpos := Nat.two_pow_pos (w - 1)
  have hquot : (toI true w a).tdiv (toI true w b) = toI true w a + (2 ^ w : Nat) := by
    rw [ha, hb, Int.tdiv_neg, Int.tdiv_one]
    omega
  constructor
  · rw [divE_of_ne hb0, hquot, ofI_add_two_pow, toI_ofI hw]
    rw [ha]
    simp only [fitsElem, if_true]
    omega
  · rw [remE_of_ne hb0, hb, Int.tmod_neg, Int.tmod_one]
    simp [ofI]

/-- The two results of a division where neither case of R74 stands: those of truncated division. -/
theorem divE_remE {w a b c : Nat} {sg : Bool} (hw : 0 < w) (ha : a < 2 ^ w) (hb : b < 2 ^ w) (hb0 : b ≠ 0)
    (h : ¬(sg = true ∧ toI sg w a = -(2 ^ (w - 1) : Nat) ∧ toI sg w b = -1)) :
    toI sg w (divE w sg a b c) = (toI sg w a).tdiv (toI sg w b) ∧ toI sg w (remE w sg a b c) = (toI sg w a).tmod (toI sg w b) := by
  have hx := fitsElem_toI sg hw ha
  have hy := fitsElem_toI sg hw hb
  rw [divE_of_ne hb0, remE_of_ne hb0]
  exact ⟨toI_ofI hw (fitsElem_tdiv hx hy h), toI_ofI hw (fitsElem_tmod hx hy (mt (toI_eq_zero hb).mp hb0))⟩

/-- Settles O16: the elements of the register are those of the operation (`elemAt_intVal`), and these are quotient and remainder of truncated division
(`divE_remE`) but for a divisor of zero and the most negative value by −1 (`divE_least`). -/
theorem divisionRule : Obligations.DivisionRule := by
  refine ⟨?step, fun f u s s1 a i hi hsel => ?_⟩
  case step =>
    rintro f u i op (⟨rfl, rfl⟩ | ⟨rfl, rfl⟩) <;>
      exact ⟨_, rfl, rfl, rfl, rfl, fun s k => laneCompletes.1 _ _ s k rfl⟩
  intro w sg x y q r
  have hw : 0 < w := shape_width_pos false f.ty
  have ha := nth_opA_lt false f s a hi
  have hb := nth_opB_lt false u f s a hi
  have hq : q = divE w sg (nth (opA false f s a) i) (nth (opB false u f s a) i) (nth [] i) :=
    elemAt_intVal (fun _ _ _ _ _ _ _ => divE_lt) s s1 a hi hsel
  have hr : r = remE w sg (nth (opA false f s a) i) (nth (opB false u f s a) i) (nth [] i) :=
    elemAt_intVal (fun _ _ _ _ _ h _ => remE_lt h) s s1 a hi hsel
  have hy : y = 0 ↔ nth (opB false u f s a) i = 0 := toI_eq_zero hb
  rw [hq, hr]
  refine ⟨fun h0 => ?zero, ?least, fun h0 hne => ?truncated⟩
  case zero =>
    rw [hy.mp h0]
    exact ⟨divE_zero .., remE_zero ..⟩
  case least =>
    rintro ⟨hsg, hx, hy1⟩
    exact divE_least hw (mt hy.mpr (by omega)) hsg hx hy1
  case truncated =>
    obtain ⟨hquot, hrem⟩ := divE_remE (c := nth [] i) hw ha hb (mt hy.mpr h0) hne
    rw [hquot, hrem]
    exact ⟨Int.tdiv_mul_add_tmod .., natAbs_tmod_lt x h0, tmod_sign ..⟩

end Sys2Proof.Machine
end

section
/-! PROOFS. The high half of a product, and minimum and maximum by element: the first is bits [2w − 1:w] of the exact product, the others are one of the
two integers compared, which an element holds. -/
namespace Sys2Proof.Machine

/-! ### The high half of a product -/

/-- The upper of the two lowest digits to a base: by a shift first, or by a cut to two digits first. -/
theorem ediv_emod_eq_emod_mul_ediv (z : Int) {n : Int} (hn : 0 < n) : z / n % n = z % (n * n) / n := by
  have hcut : z % (n * n) = z + n * -(n * (z / n / n)) := by
    rw [Int.emod_def, Int.ediv_ediv_of_nonneg hn.le]
    ring
  rw [hcut, Int.add_mul_ediv_left _ _ hn.ne', Int.emod_def, sub_eq_add_neg]

/-- Bits [2w − 1:w] of an integer (R101). -/
theorem ofI_ediv_two_pow (w : Nat) (z : Int) : ofI w (z / (2 ^ w : Nat)) = (z % (2 ^ (2 * w) : Nat)).toNat / 2 ^ w := by
  have hpos : (0 : Int) < (2 ^ w : Nat) := Int.natCast_pos.mpr (Nat.two_pow_pos w)
  have hsq : ((2 ^ w : Nat) : Int) * (2 ^ w : Nat) = (2 ^ (2 * w) : Nat) := by rw [← Int.natCast_mul, ← Nat.pow_add, Nat.two_mul]
  obtain ⟨n, hn⟩ := Int.eq_ofNat_of_zero_le (Int.emod_nonneg z (b := (2 ^ (2 * w) : Nat)) (hsq ▸ (mul_pos hpos hpos).ne'))
  rw [ofI, ediv_emod_eq_emod_mul_ediv z hpos, hsq, hn, ← Int.natCast_ediv, Int.toNat_natCast, Int.toNat_natCast]

theorem mulhiE_lt {w : Nat} {sg : Bool} {a b c : Nat} : mulhiE w sg a b c < 2 ^ w := ofI_lt ..

/-! ### Minimum and maximum -/

theorem minI_eq_min (x y : Int) : minI x y = min x y := by
  unfold minI
  split <;> omega

theorem maxI_eq_max (x y : Int) : maxI x y = max x y := by
  unfold maxI
  split <;> omega

theorem minE_lt {w : Nat} {sg : Bool} {a b c : Nat} : minE w sg a b c < 2 ^ w := ofI_lt ..
theorem maxE_lt {w : Nat} {sg : Bool} {a b c : Nat} : maxE w sg a b c < 2 ^ w := ofI_lt ..

section
variable {w a b c : Nat} (sg : Bool) (hw : 0 < w) (ha : a < 2 ^ w) (hb : b < 2 ^ w)
include hw ha hb

/-- The smaller of two elements, read by type, fits since it is one of them (R104). -/
theorem toI_minE : toI sg w (minE w sg a b c) = min (toI sg w a) (toI sg w b) := by
  rw [minE, minI_eq_min]
  exact toI_ofI hw (min_rec' (fitsElem sg w) (fitsElem_toI sg hw ha) (fitsElem_toI sg hw hb))

theorem toI_maxE : toI sg w (maxE w sg a b c) = max (toI sg w a) (toI sg w b) := by
  rw [maxE, maxI_eq_max]
  exact toI_ofI hw (max_rec' (fitsElem sg w) (fitsElem_toI sg hw ha) (fitsElem_toI sg hw hb))

end

/-- Settles O17: the elements of the register are those of the operation (`elemAt_intVal`), and these are the high half of the exact product
(`ofI_ediv_two_pow`) and minimum and maximum of the two integers (`toI_minE`, `toI_maxE`). -/
theorem mulhiMinMaxRule : Obligations.MulhiMinMaxRule := by
  refine ⟨?step, fun f u s s1 a i hi hsel => ?mulhi, fun f u s s1 a i hi hsel => ?minMax⟩
  case step =>
    rintro f u i op (⟨rfl, rfl⟩ | ⟨rfl, rfl⟩ | ⟨rfl, rfl⟩) <;>
      exact ⟨_, rfl, rfl, rfl, rfl, fun s k => laneCompletes.1 _ _ s k rfl⟩
  case mulhi =>
    exact (elemAt_intVal (fun _ _ _ _ _ _ _ => mulhiE_lt) s s1 a hi hsel).trans (ofI_ediv_two_pow ..)
  case minMax =>
    intro w sg x y least greatest
    have hw : 0 < w := shape_width_pos false f.ty
    have ha := nth_opA_lt false f s a hi
    have hb := nth_opB_lt false u f s a hi
    have hleast : least = min x y :=
      (congrArg (toI sg w) (elemAt_intVal (fun _ _ _ _ _ _ _ => minE_lt) s s1 a hi hsel)).trans (toI_minE sg hw ha hb)
    have hgreatest : greatest = max x y :=
      (congrArg (toI sg w) (elemAt_intVal (fun _ _ _ _ _ _ _ => maxE_lt) s s1 a hi hsel)).trans (toI_maxE sg hw ha hb)
    rw [hleast, hgreatest]
    exact ⟨min_choice x y, min_le_left x y, min_le_right x y, max_choice x y, le_max_left x y, le_max_right x y⟩

end Sys2Proof.Machine
end

section
/-! PROOFS. Registers named by an index: where every index is below its limit the instruction reads, releases and writes like one that names the register. -/
namespace Sys2Proof.Machine

/-- Every participant's index is below its registers, a helper's below a limit of its own (R119, R120, R214). -/
def indexesFit (lim : Nat) (f : AForm) (k : Iss) (blk : Block) (s : State) : Prop :=
  ∀ a ∈ k.acts, indexOf s f a < if s.isHelper a then lim else blk.hdr.regs

theorem indexTrap_of_lt {lim uid : Nat} {f : AForm} {s : State} {a : Actor} {blk : Block} (hblk : s.block? uid = some blk)
    (h : indexOf s f a < if s.isHelper a then lim else blk.hdr.regs) : indexTrap s uid lim f a = none := by
  unfold indexTrap
  split
  case isTrue hh =>
    rw [if_pos hh] at h
    exact if_neg h.not_ge
  case isFalse hh =>
    rw [if_neg hh] at h
    simp only [hblk, if_neg h.not_ge]

/-- Indexes that fit reach the instruction's own effect. -/
theorem indexed_of_fit {lim : Nat} {f : AForm} {k : Iss} {blk : Block} {s : State} (hblk : s.block? k.uid = some blk)
    (h : indexesFit lim f k blk s) (body : Iss → State → Done) : indexed lim f body k s = body k s := by
  have hnone : (k.acts.any fun a => (indexTrap s k.uid lim f a).isSome) = false :=
    List.any_eq_false.mpr fun a ha => by simp [indexTrap_of_lt hblk (h a ha)]
  simp only [indexed, hnone, Bool.false_eq_true, if_false]

/-- An indexed instruction completes where the indexes fit and its own effect leaves agents in their places. -/
theorem indexed_completes {i : Instr} {lim : Nat} {f : AForm} {k : Iss} {blk : Block} {s t : State} {body : Iss → State → Done}
    (h : readyFib i s = some k) (hblk : s.block? k.uid = some blk) (hfit : indexesFit lim f k blk s) (hb : body k s = { st := t }) (ht : seated s t) :
    issue i s (indexed lim f body) = .next (k.after false t) := by
  rw [← Iss.ends_of_readyFib h]
  exact completes_seated (ready_of_readyFib h) ((indexed_of_fit hblk hfit body).trans hb) ht

/-- The register that an index names, as a source. -/
def indexedSrc (f : AForm) (s : State) (a : Actor) : Src := ⟨BitVec.ofNat 7 (indexOf s f a), false, false, .none, false, false⟩

/-- The sources of `movx`: the index and the register that it names are noted where they are dead, then a last use releases the index's own (R119). -/
def movxReleased (f : AForm) (k : Iss) (s : State) : State :=
  k.acts.foldl (fun t a => t.release a f.a)
    (k.acts.foldl (fun t a =>
      (t.noteDead k.uid k.pc (s.readSrc a f.a).2).noteDead k.uid k.pc (s.readSrc a (indexedSrc f s a)).2) s)

theorem released_movx (f : AForm) {k : Iss} (s : State) (hu : ∀ a ∈ k.acts, a.uid = k.uid) : released k [f.a] s (movxReleased f k s) :=
  .foldl (fun r a ha => released_release ha (hu a ha) (List.mem_singleton_self f.a) r)
    (.foldl (fun _ _ _ => (released_noteDead ..).trans (released_noteDead ..)) (.refl ..))

theorem movxReleased_seated (f : AForm) (k : Iss) (s : State) : seated s (movxReleased f k s) :=
  foldl_seated (fun _ _ => release_seated) (foldl_seated (fun _ _ ht => noteDead_seated (noteDead_seated ht)) (.refl s))

/-- Settles O18: where indexes fit, the effect completes (`indexed_completes`): it writes participant by participant over the state with last uses
released (`released_movx`, `released_consume`), which leaves agents in their places. -/
theorem indexedCompletes : Obligations.IndexedCompletes := by
  refine fun f s k blk hblk => ⟨fun h hfit => ?movx, fun h hfit => ?movxw⟩
  case movx =>
    exact ⟨_, released_movx f s (uid_of_readyFib h),
      indexed_completes h hblk hfit rfl (foldl_seated (fun _ _ => writeD_seated) (movxReleased_seated f k s))⟩
  case movxw =>
    exact ⟨_, released_consume k [f.a, f.b] s (uid_of_readyFib h),
      indexed_completes h hblk hfit rfl (foldl_seated (fun _ _ => writeW_seated) (consume_seated (.refl s)))⟩

end Sys2Proof.Machine
end

section
/-! PROOFS. The trap of a breakpoint at a transfer's target (O47). -/
namespace Sys2Proof.Machine

/-- The fibre that stands at a transfer's target (`atTarget`), with breakpoint register 0 enabled for its PC (R355). -/
def brokenAtTarget : State := atTarget.updBlock 1 fun b => { b with bkp := [(0, ofNat64 (2 ^ 56 + 0x1000))] }

/-- The issue that the breakpoint stops. -/
def brokenIss : Iss := fibIss brokenAtTarget 1 0 (Weave.start .block 0 0 true 1 [] targetBatch 0) targetBatch 8 ⟨0, false⟩

theorem brokenIss_acts : brokenIss.acts = [.fib 1 0 0] := by decide +kernel

theorem brokenIss_ready : ∃ blk c, routineReady brokenIss blk c brokenAtTarget ∧ bkpMatch blk targetBatch = some 0 := by
  refine ⟨_, _, {
    block := rfl, ctx := rfl, routine := by decide +kernel, outsideMacro := rfl, frames := fun _ => rfl
    fibres := fun a ha => ?_, batch := fun a ha y hy => ?_
    ring := by decide, bell := by decide, apart := by decide }, by decide +kernel⟩ <;> obtain rfl := List.mem_singleton.mp (brokenIss_acts ▸ ha)
  · exact ⟨_, rfl, rfl, rfl, rfl⟩
  · obtain rfl := Option.some.inj hy
    decide +kernel

/-- Refutes O47: in its second clause the batch may stand at a transfer's target, whose first word has still to be checked. The trap registers then keep
that note (R34), which the statement clears from the registers that it reads and yet expects them to hold. -/
theorem not_trapEventsTake : ¬ Obligations.TrapEventsTake := by
  unfold Obligations.TrapEventsTake
  intro h
  obtain ⟨x, hx⟩ : ∃ x, brokenAtTarget.weave? 1 0 = some x := ⟨_, rfl⟩
  have hbatch : x.curBatch = some targetBatch := by
    obtain rfl := Option.some.inj hx
    rfl
  obtain ⟨blk, c, ready, hmatch⟩ := brokenIss_ready
  obtain ⟨-, breakpoints, -⟩ := h brokenAtTarget blk c
  obtain ⟨t, -, taken⟩ := breakpoints 0 1 0 x targetBatch rfl hx hbatch (by decide) hmatch ready
  have registers := taken.registers (.fib 1 0 0) (brokenIss_acts ▸ List.mem_singleton_self _) _ rfl
  have hentry : brokenIss.entry brokenAtTarget = false := trapped_entry registers
  exact absurd hentry (by decide +kernel)

end Sys2Proof.Machine
end

section
/-! PROOFS. Instructions that only go on, and the switch points: `nop`, `fence.own`, a release of fibre scope, `yield`, `bsync` and `join` (O25). -/
namespace Sys2Proof.Machine
variable {s t d : State} {k : Iss}

/-! ### Refreshes of every participant -/

/-- Bindings that all refresh well leave no trap behind. -/
theorem refreshAll_of_well (here : Bool) (h : refreshAllWell k s) : refreshAll k s here = (refreshed k s, []) := by
  unfold refreshAll refreshed
  unfold refreshAllWell at h
  generalize k.acts = l at h ⊢
  induction l generalizing s with
  | nil => rfl
  | cons a r ih =>
    obtain ⟨hwell, hrest⟩ := h
    simp only [List.foldl_cons, show (refresh s a false).2 = none from hwell]
    exact ih hrest

theorem sched_refresh (s : State) (a : Actor) (quiet : Bool) (u w : Nat) : (refresh s a quiet).1.sched u w = s.sched u w := by
  unfold refresh refreshBut
  split
  · rfl
  · cases a with
    | fib v y sl => exact sched_updFibre ..
    | seq v => rfl

theorem sched_refreshed (k : Iss) (s : State) (u w : Nat) : (refreshed k s).sched u w = s.sched u w :=
  sched_foldl _ u w (fun t a => sched_refresh t a false u w) _ _

theorem stream?_refresh (s : State) (a : Actor) (quiet : Bool) (u : Nat) : (refresh s a quiet).1.stream? u = s.stream? u := by
  unfold refresh refreshBut
  split
  · rfl
  · cases a with
    | fib v y sl => exact stream?_updWeave ..
    | seq v => rfl

theorem stream?_refreshed (k : Iss) (s : State) (u : Nat) : (refreshed k s).stream? u = s.stream? u :=
  foldl_same (p := fun t => State.stream? t u) (fun t a _ => stream?_refresh t a false u) s

theorem place_refreshed (k : Iss) (s : State) : k.place (refreshed k s) = k.place s := by
  unfold Iss.place
  rw [stream?_refreshed]
  split
  · rw [cursor_of_sched (sched_refreshed ..)]
  · rfl

/-- An instruction whose effect is a refresh of every participant, at a switch point. -/
theorem refreshes_complete {i : Instr} (h : ready i s = some k) (hw : refreshAllWell k s) :
    (issue i s fun k s => { st := (refreshAll k s false).1, traps := (refreshAll k s false).2, sw := true })
      = .next (k.ends true false (refreshed k s)) :=
  completes_ready h (by rw [refreshAll_of_well false hw]) (place_refreshed k s)

/-- A release of fibre scope commits nothing. -/
theorem fenceBody_rel_fibre (k : Iss) (s : State) : fenceBody .rel 0 k s = { st := s } := by
  have hstep (t : State) (a : Actor) : fenceCommit t a 0 = t := if_neg (by simp [wide])
  unfold fenceBody
  simp only [hstep, List.foldl_fixed]

/-! ### `join` -/

/-- What a weave that settles on a batch keeps: all but its batches, the choice among them and the LFSR. -/
theorem unsched_merge (x : Weave) : x.merge.unsched = x.unsched := by
  unfold Weave.merge
  split
  · rfl
  · dsimp only
    split <;> rfl

theorem unsched_choose (x : Weave) (base : Option Nat) : (x.choose base).unsched = x.unsched := by
  unfold Weave.choose
  split
  · exact unsched_merge x
  · rfl

theorem unsched_settle (x : Weave) (base : Option Nat) : (x.settle base).unsched = x.unsched := by
  unfold Weave.settle
  split
  · split
    · rfl
    · split
      · rfl
      · exact unsched_choose ..
  · exact unsched_choose ..

theorem insertKey_ne_nil (k : Nat × Nat) (l : List (Nat × Nat)) : insertKey k l ≠ [] := by
  cases l with
  | nil => exact List.cons_ne_nil _ _
  | cons h r =>
    unfold insertKey
    split <;> exact List.cons_ne_nil _ _

/-- A runnable batch is among those that the weave chooses from. -/
theorem runnables_ne_nil {x : Weave} (base : Option Nat) {j : Nat} {b : Batch} (hb : x.batches[j]? = some b) (hr : b.runnable = true) :
    x.runnables base none ≠ [] := by
  unfold Weave.runnables
  rw [ne_eq, List.map_eq_nil_iff]
  refine foldl_reaches (P := fun _ => True) (Q := fun l => l ≠ []) (fun _ _ _ _ => trivial) (fun l i _ hl => ?_)
    (List.mem_range.mpr (lt_of_batch hb)) (fun l _ => ?_) trivial
  · split
    · split
      · apply insertKey_ne_nil
      · exact hl
    · exact hl
  · simp [hb, hr, insertKey_ne_nil]

/-- With a runnable batch to turn to, a weave that settles changes no batch. -/
theorem batches_settle {x : Weave} (base : Option Nat) {j : Nat} {b : Batch} (hb : x.batches[j]? = some b) (hr : b.runnable = true) :
    (x.settle base).batches = x.batches := by
  have hchoose (o : Option Nat) : (x.choose o).batches = x.batches := by
    unfold Weave.choose
    split
    · rename_i he
      exact absurd he (runnables_ne_nil o hb hr)
    · rfl
  unfold Weave.settle
  split
  · split
    · rfl
    · split
      · rfl
      · exact hchoose _
  · exact hchoose _

/-- A batch that some of its fibres leave for a `join`, where they park. -/
def Batch.parkedAt (b : Batch) (p : List Nat) : Batch :=
  { b with members := p, mac := none, skipBkp := false, stopped := false, stepDue := false, entry := false, state := .parked }

/-- The batches that a batch at a `join` becomes: with fibres that do not take part it parks the others and goes on; a lone batch goes on as a whole;
else it parks (R181, R204). -/
def Iss.joinParts (k : Iss) (x : Weave) (b : Batch) : List Batch :=
  let acts := k.acts.map Actor.slot
  let p := b.members.filter acts.contains
  let o := b.members.filter fun m => !acts.contains m
  if o.isEmpty then (if x.batches.length = 1 then [b.at b.members (k.fall true) b.wd] else [b.parkedAt p])
  else [b.at o (k.fall false) b.wd, b.parkedAt p]

/-- The weave behind a `join` of its current batch, i, which has become the batches `bs`. -/
def Weave.afterJoin (x : Weave) (i : Nat) (b : Batch) (bs : List Batch) (now : Nat) : Weave :=
  Weave.settle { Weave.settle { x.splice i bs with cur := some i } (some b.low) with lastIssue := now } (some b.low)

theorem finish_park {x : Weave} {i : Nat} {b : Batch} (hx : s.weave? k.uid k.w = some x) (hi : x.cur = some i) (hb : x.curBatch = some b)
    (hss : x.ss = false) (hsome : b.members.filter (k.acts.map Actor.slot).contains ≠ []) :
    finish s k k.w { st := d, how := .park } = s.updWeave k.uid k.w fun _ => x.afterJoin i b (k.joinParts x b) s.clock := by
  have hm : b.members.isEmpty = false := by
    rw [List.isEmpty_eq_false_iff]
    intro e
    exact hsome (by rw [e]; rfl)
  have hp : (b.members.filter (k.acts.map Actor.slot).contains).isEmpty = false := List.isEmpty_eq_false_iff.mpr hsome
  have hrest : (b.members.filter fun m => !([] : List Nat).contains m).filter (fun m => !([] : List Trp).any fun t => t.who.slot = m)
      = b.members := by simp
  have hparts : trapParts s k b { st := d, how := .park } = [] := rfl
  unfold finish Iss.joinParts
  simp only [hx, hi, hb, hrest, hparts, hm, hss]
  generalize b.members.filter (k.acts.map Actor.slot).contains = p at hp
  generalize b.members.filter (fun m => !(k.acts.map Actor.slot).contains m) = o
  cases ho : o.isEmpty with
  | false =>
    simp [hp, causesOf, sortNat, State.updWeave_updWeave]
    rfl
  | true => by_cases hl : x.batches.length = 1 <;> simp [hl, causesOf, sortNat, State.updWeave_updWeave] <;> rfl

theorem curBatch_splice {x : Weave} {i : Nat} {b c : Batch} {r : List Batch} (hb : x.batches[i]? = some b) :
    ({ x.splice i (c :: r) with cur := some i } : Weave).curBatch = some c := by
  have hlt := lt_of_batch hb
  simp [Weave.curBatch, Weave.splice, List.getElem?_append, Nat.le_of_lt hlt]

/-- Where the batch that goes on first is runnable, it stays current. -/
theorem afterJoin_of_runnable {x : Weave} {i : Nat} {b c : Batch} {r : List Batch} (now : Nat) (hb : x.batches[i]? = some b)
    (hr : c.runnable = true) : (x.afterJoin i b (c :: r) now).batches = x.batches.take i ++ (c :: r) ++ x.batches.drop (i + 1) := by
  have hc := curBatch_splice (c := c) (r := r) hb
  unfold Weave.afterJoin
  rw [Weave.settle_of_runnable _ hc hr, Weave.settle_of_runnable _ (b := c) (by exact hc) hr]
  rfl

theorem unsched_afterJoin (x : Weave) (i : Nat) (b : Batch) (bs : List Batch) (now : Nat) : (x.afterJoin i b bs now).unsched = x.unsched := by
  unfold Weave.afterJoin
  rw [unsched_settle]
  exact unsched_settle { x.splice i bs with cur := some i } _

/-- A batch that parks whole is still one of the weave's where another can take its turn. -/
theorem afterJoin_of_other {x : Weave} {i j : Nat} {b c e : Batch} (now : Nat) (hb : x.batches[i]? = some b) (he : x.batches[j]? = some e) (hj : j ≠ i)
    (hr : e.runnable = true) : c ∈ (x.afterJoin i b [c] now).batches := by
  have hlt := lt_of_batch hb
  have hsplice : (x.splice i [c]).batches = x.batches.set i c := by simp [Weave.splice, List.set_eq_take_append_cons_drop, hlt]
  have hother : (x.splice i [c]).batches[j]? = some e := by rw [hsplice, List.getElem?_set_ne hj.symm, he]
  have hfirst : ({ x.splice i [c] with cur := some i } : Weave).batches[j]? = some e := hother
  have hkept := batches_settle (some b.low) hfirst hr
  have hsecond : ({ Weave.settle { x.splice i [c] with cur := some i } (some b.low) with lastIssue := now } : Weave).batches[j]? = some e := by
    show (Weave.settle { x.splice i [c] with cur := some i } (some b.low)).batches[j]? = some e
    rw [hkept]
    exact hother
  unfold Weave.afterJoin
  rw [batches_settle (some b.low) hsecond hr]
  show c ∈ (Weave.settle { x.splice i [c] with cur := some i } (some b.low)).batches
  rw [hkept, hsplice]
  exact List.mem_set hlt c

/-- The place of a fibre in a batch that a `join` has left runnable at the head of the weave's new batches. -/
theorem standsAt_of_mem {y : Weave} {b : Batch} {sl : Nat} {m : List Nat} {t : Target} {wd : Nat} (hb : b.at m t wd ∈ y.batches) (hm : sl ∈ m) :
    y.standsAt sl t.pc := ⟨_, hb, hm, rfl, rfl⟩

/-- The batch of a ready instruction, and who takes part. -/
theorem readyFib_batch {i : Instr} (h : readyFib i s = some k) : ∃ n b, s.cursor k.uid k.w = some (n, b, false) ∧ b.pc = k.pc ∧ k.acts ≠ []
    ∧ k.batch = b.members.map (.fib k.uid k.w) ∧ ∀ a ∈ k.acts, a ∈ k.batch := by
  obtain ⟨u, w, blk, x, b, -, -, hx, hc, rfl, -, hss, -, hne, -⟩ := readyFib_cases h
  refine ⟨x.cur.getD 0, b, ?_, rfl, hne, rfl, fun a ha => acts_batch ha⟩
  show s.cursor u w = _
  simp [State.cursor, hx, hc, hss]

/-- The fibres of a batch that take part, and those that do not, by their slots. -/
theorem parks_iff {b : Batch} (hbatch : k.batch = b.members.map (.fib k.uid k.w)) (hin : ∀ a ∈ k.acts, a ∈ k.batch) {sl : Nat} (hm : sl ∈ b.members) :
    (k.acts.map Actor.slot).contains sl = true ↔ .fib k.uid k.w sl ∈ k.acts := by
  rw [List.contains_iff_mem, List.mem_map]
  constructor
  · rintro ⟨a, ha, rfl⟩
    obtain ⟨sl, -, rfl⟩ := List.mem_map.mp (hbatch ▸ hin a ha)
    exact ha
  · exact fun h => ⟨_, h, rfl⟩

/-- Behind a `join` that parks, each participant's batch is parked at it, and the others stand behind it. -/
theorem joinParts_parks {x : Weave} {i : Nat} {b : Batch} (now : Nat) (hb : x.batches[i]? = some b) (hcur : x.cur = some i) (hpc : b.pc = k.pc)
    (hbatch : k.batch = b.members.map (.fib k.uid k.w)) (hin : ∀ a ∈ k.acts, a ∈ k.batch)
    (hother : (∃ a ∈ k.batch, a ∉ k.acts) ∨ ∃ j e, x.batches[j]? = some e ∧ some j ≠ x.cur ∧ e.runnable = true) :
    (∀ a ∈ k.acts, ∃ e ∈ (x.afterJoin i b (k.joinParts x b) now).batches, a.slot ∈ e.members ∧ e.pc = k.pc ∧ e.state = .parked)
      ∧ ∀ a ∈ k.batch, a ∉ k.acts → (x.afterJoin i b (k.joinParts x b) now).standsAt a.slot (k.fall false).pc := by
  have hparked {bs : List Batch} (hmem : b.parkedAt (b.members.filter (k.acts.map Actor.slot).contains) ∈ bs) :
      ∀ a ∈ k.acts, ∃ e ∈ bs, a.slot ∈ e.members ∧ e.pc = k.pc ∧ e.state = .parked := by
    intro a ha
    obtain ⟨sl, hm, rfl⟩ := List.mem_map.mp (hbatch ▸ hin a ha)
    exact ⟨_, hmem, List.mem_filter.mpr ⟨hm, (parks_iff hbatch hin hm).mpr ha⟩, hpc, rfl⟩
  cases ho : (b.members.filter fun m => !(k.acts.map Actor.slot).contains m).isEmpty with
  | true =>
    have hall : ∀ a ∈ k.batch, a ∈ k.acts := by
      intro a ha
      obtain ⟨sl, hm, rfl⟩ := List.mem_map.mp (hbatch ▸ ha)
      by_contra hout
      have hleft := List.filter_eq_nil_iff.mp (List.isEmpty_iff.mp ho) sl hm
      exact hleft (by rw [Bool.not_eq_true', Bool.eq_false_iff, ne_eq, parks_iff hbatch hin hm]; exact hout)
    refine ⟨?_, fun a ha hout => absurd (hall a ha) hout⟩
    obtain ⟨a, ha, hout⟩ | ⟨j, e, he, hj, hr⟩ := hother
    · exact absurd (hall a ha) hout
    · have hj : j ≠ i := fun h => hj (h ▸ hcur.symm)
      have hlen : x.batches.length ≠ 1 := by
        have := lt_of_batch hb
        have := lt_of_batch he
        omega
      unfold Iss.joinParts
      simp only [ho, if_true, if_neg hlen]
      exact hparked (afterJoin_of_other now hb he hj hr)
  | false =>
    unfold Iss.joinParts
    simp only [ho, Bool.false_eq_true, if_false]
    have hbs := afterJoin_of_runnable (r := [b.parkedAt (b.members.filter (k.acts.map Actor.slot).contains)]) now hb
      (show (b.at (b.members.filter fun m => !(k.acts.map Actor.slot).contains m) (k.fall false) b.wd).runnable = true from rfl)
    refine ⟨hparked (by rw [hbs]; simp), fun a ha hout => ?_⟩
    obtain ⟨sl, hm, rfl⟩ := List.mem_map.mp (hbatch ▸ ha)
    refine standsAt_of_mem (b := b) (m := b.members.filter fun m => !(k.acts.map Actor.slot).contains m) (wd := b.wd) (by rw [hbs]; simp) ?_
    have hleft : ¬(k.acts.map Actor.slot).contains sl = true := mt (parks_iff hbatch hin hm).mp hout
    exact List.mem_filter.mpr ⟨hm, by rw [Bool.not_eq_true', Bool.eq_false_iff]; exact hleft⟩

/-- A weave that is one batch, all of it at the `join`, goes on behind it. -/
theorem joinParts_goes {x : Weave} {i : Nat} {b : Batch} (now : Nat) (hb : x.batches[i]? = some b)
    (hbatch : k.batch = b.members.map (.fib k.uid k.w)) (hall : k.acts = k.batch) (hlen : x.batches.length = 1) :
    ∀ a ∈ k.acts, (x.afterJoin i b (k.joinParts x b) now).standsAt a.slot (k.fall true).pc := by
  have ho : (b.members.filter fun m => !(k.acts.map Actor.slot).contains m).isEmpty = true := by
    rw [List.isEmpty_iff, List.filter_eq_nil_iff]
    intro sl hm
    rw [Bool.not_eq_true', Bool.eq_false_iff, ne_eq, parks_iff hbatch (fun a ha => hall ▸ ha) hm, not_not, hall, hbatch]
    exact List.mem_map_of_mem hm
  unfold Iss.joinParts
  simp only [ho, hlen, if_true]
  have hbs := afterJoin_of_runnable (r := []) now hb (show (b.at b.members (k.fall true) b.wd).runnable = true from rfl)
  intro a ha
  rw [hall, hbatch] at ha
  obtain ⟨sl, hm, rfl⟩ := List.mem_map.mp ha
  exact standsAt_of_mem (b := b) (m := b.members) (wd := b.wd) (by rw [hbs]; simp) hm

/-- A `join` whose bindings refresh well. -/
theorem join_completes {g : Guard} {x : Weave} {i : Nat} {b : Batch} (h : readyFib (.join g) s = some k) (hw : refreshAllWell k s)
    (hx : (refreshed k s).weave? k.uid k.w = some x) (hi : x.cur = some i) (hb : x.curBatch = some b) (hss : x.ss = false)
    (hsome : b.members.filter (k.acts.map Actor.slot).contains ≠ []) :
    exec (.join g) s = .next ((refreshed k s).updWeave k.uid k.w fun _ => x.afterJoin i b (k.joinParts x b) (refreshed k s).clock) := by
  have hexec : exec (.join g) s = execJoin g s := rfl
  rw [hexec, execJoin, issue_readyFib h]
  simp only [refreshAll_of_well false hw]
  rw [finish_park hx hi hb hss hsome]

/-- Settles O25: the instructions that only go on leave their agent's place as it was, and a `join` parks its participants while others can run. -/
theorem hintsComplete : Obligations.HintsComplete := by
  unfold Obligations.HintsComplete
  refine ⟨fun i s k g h => ⟨?_, ?_⟩, fun g s k x h hw hx => ?_⟩
  · rintro (⟨wide, rfl⟩ | rfl | rfl)
    · exact completes_ready h rfl rfl
    · exact completes_ready h rfl rfl
    · exact completes_ready h (fenceBody_rel_fibre k s) rfl
  · rintro (rfl | rfl) hw
    · exact refreshes_complete h hw
    · exact refreshes_complete h hw
  · obtain ⟨n, b, hcursor, hpc, hne, hbatch, hin⟩ := readyFib_batch h
    obtain ⟨x', hx', hi, hbi, hb, hss⟩ := cursor_weave ((cursor_of_sched (sched_refreshed k s k.uid k.w)).trans hcursor)
    obtain rfl : x' = x := Option.some.inj (hx'.symm.trans hx)
    have hsome : b.members.filter (k.acts.map Actor.slot).contains ≠ [] := by
      obtain ⟨a, ha⟩ := List.exists_mem_of_ne_nil _ hne
      obtain ⟨sl, hm, rfl⟩ := List.mem_map.mp (hbatch ▸ hin a ha)
      exact List.ne_nil_of_mem (List.mem_filter.mpr ⟨hm, (parks_iff hbatch hin hm).mpr ha⟩)
    exact ⟨_, join_completes h hw hx hi hb hss hsome, unsched_afterJoin .., joinParts_parks _ hbi hi hpc hbatch hin,
      joinParts_goes _ hbi hbatch⟩

end Sys2Proof.Machine
end

section
/-! PROOFS. Weaves that leave and enter the active set, helpers that start and are asked to release, recruiters that resume (O48). -/
namespace Sys2Proof.Machine

/-! ### Helpers start -/

/-- A weave whose waiting helpers of a pool have started. -/
def Weave.starting (x : Weave) (key : Nat) : Weave := (upto x.batches.length).foldl (fun y i =>
  match x.batches[i]? with
  | some z => if startsOf x key z then y.resume i else y
  | none => y) x

/-- The batch at index i is z, but for its state. -/
def Weave.holdsAt (y : Weave) (i : Nat) (z : Batch) : Prop := ∃ st, y.batches[i]? = some { z with state := st }

theorem holdsAt_resume {y : Weave} {i : Nat} {z : Batch} (h : y.holdsAt i z) (j : Nat) : (y.resume j).holdsAt i z := by
  obtain ⟨st, h⟩ := h
  unfold Weave.resume
  split
  · rename_i b hb
    by_cases hj : j = i
    · subst hj
      obtain rfl := Option.some.inj (hb.symm.trans h)
      exact ⟨.run, by simp [lt_of_batch hb]⟩
    · exact ⟨st, by simp [List.getElem?_set_ne hj, h]⟩
  · exact ⟨st, h⟩

theorem runs_resume_self {y : Weave} {i : Nat} {z : Batch} (h : y.holdsAt i z) : (y.resume i).batches[i]? = some { z with state := .run } := by
  obtain ⟨st, h⟩ := h
  unfold Weave.resume
  rw [h]
  exact List.getElem?_set_self (lt_of_batch h)

theorem runs_resume {y : Weave} {i : Nat} {z : Batch} (h : y.batches[i]? = some { z with state := .run }) (j : Nat) :
    (y.resume j).batches[i]? = some { z with state := .run } := by
  unfold Weave.resume
  split
  · rename_i b hb
    by_cases hj : j = i
    · subst hj
      obtain rfl := Option.some.inj (hb.symm.trans h)
      simp [lt_of_batch hb]
    · simp [List.getElem?_set_ne hj, h]
  · exact h

/-- Every batch of the pool's waiting helpers runs in the weave that has started them. -/
theorem starting_runs {x : Weave} {key i : Nat} {z : Batch} (hz : x.batches[i]? = some z) (hs : startsOf x key z = true) :
    (x.starting key).batches[i]? = some { z with state := .run } := by
  unfold Weave.starting
  refine foldl_reaches (P := fun y : Weave => y.holdsAt i z) (Q := fun y : Weave => y.batches[i]? = some { z with state := .run }) (fun y j _ hy => ?_)
    (fun y j _ hy => ?_) (List.mem_range.mpr (lt_of_batch hz)) (fun y hy => ?_) ⟨z.state, hz⟩
  · split
    · split
      · exact holdsAt_resume hy j
      · exact hy
    · exact hy
  · split
    · split
      · exact runs_resume hy j
      · exact hy
    · exact hy
  · rw [hz]
    simp only [hs, if_true]
    exact runs_resume_self hy

theorem startHelpers_of {s : State} {u key : Nat} {b : Block} (hb : s.block? u = some b)
    (h : ∃ w ∈ b.weaves, ∃ z ∈ w.2.batches, startsOf w.2 key z = true) :
    startHelpers s u key = some (s.updBlock u fun b => { b with weaves := mmap b.weaves fun _ x => x.starting key }) := by
  obtain ⟨w, hw, z, hz, hs⟩ := h
  unfold startHelpers
  simp only [hb]
  rw [if_pos (List.any_eq_true.mpr ⟨w, hw, List.any_eq_true.mpr ⟨z, hz, hs⟩⟩)]
  rfl

/-! ### Helpers are asked to release -/

/-- Helpers that all have an iteration are asked to release at their next `hwork`. -/
theorem askRelease_of_busy {s : State} {u w : Nat} {x : Weave} (hx : s.weave? u w = some x) (hne : releasable x ≠ [])
    (hbusy : ∀ e ∈ releasable x, e.2.cur.isSome = true) :
    askRelease s u w = some ((releasable x).foldl (fun t e => t.updFibre u w e.1 fun g => { g with release := true }) s) := by
  unfold askRelease
  simp only [hx, List.isEmpty_iff, if_neg hne]
  refine congrArg some (List.foldl_ext _ _ _ fun t e he => ?_)
  obtain ⟨i, hi⟩ := Option.isSome_iff_exists.mp (hbusy e he)
  simp only [hi]

theorem fibreHas_asked {t : State} {u w sl : Nat} {p : Fibre → Prop} (hp : ∀ g, p g → p { g with release := true }) (h : t.fibreHas u w sl p) (m : Nat) :
    (t.updFibre u w m fun g => { g with release := true }).fibreHas u w sl p := by
  obtain ⟨g, hg, hpg⟩ := h
  unfold State.fibreHas
  rw [State.fibre?_updFibre]
  split
  · rename_i hsame
    obtain ⟨-, -, rfl⟩ := hsame
    exact ⟨_, by rw [hg]; rfl, hp g hpg⟩
  · exact ⟨g, hg, hpg⟩

/-- Every helper of the weave is then asked to release. -/
theorem asked_helpers {s : State} {u w sl : Nat} {x : Weave} {f : Fibre} (hx : s.weave? u w = some x) (hf : mget x.fibres sl = some f)
    (hh : f.isHelper = true) :
    ((releasable x).foldl (fun t e => t.updFibre u w e.1 fun g => { g with release := true }) s).fibreHas u w sl fun g => g.release = true := by
  have hsf : s.fibre? u w sl = some f := by rw [State.fibre?, hx]; exact hf
  cases hr : f.release with
  | true =>
    exact List.foldlRecOn (motive := fun t => State.fibreHas t u w sl fun g => g.release = true) _ _ ⟨f, hsf, hr⟩
      fun t ht e _ => fibreHas_asked (fun _ _ => rfl) ht e.1
  | false =>
    have hmem : (sl, f) ∈ releasable x := List.mem_filter.mpr ⟨Tests.mget_mem _ _ _ hf, by simp [hh, hr]⟩
    refine foldl_reaches (P := fun t => State.fibreHas t u w sl fun _ => True) (Q := fun t => State.fibreHas t u w sl fun g => g.release = true)
      (fun t e _ ht => fibreHas_asked (fun _ _ => trivial) ht e.1)
      (fun t e _ ht => fibreHas_asked (fun _ _ => rfl) ht e.1) hmem (fun t ht => ?_) ⟨f, hsf, trivial⟩
    obtain ⟨g, hg, -⟩ := ht
    exact ⟨_, by rw [State.fibre?_updFibre_self, hg]; rfl, rfl⟩

/-! ### Recruiters resume -/

theorem fibres_splitOff (x : Weave) (sl : Nat) : (x.splitOff sl).fibres = x.fibres := by
  unfold Weave.splitOff
  split
  · rfl
  · dsimp only
    split <;> rfl

theorem fibres_wake (x : Weave) (i : Nat) : (x.wake i).fibres = x.fibres := by
  unfold Weave.wake
  split
  · split <;> rfl
  · rfl

theorem fibre?_recruitReady (s : State) (u w v y sl : Nat) : (recruitReady s u w).fibre? v y sl = s.fibre? v y sl := by
  refine fibre?_updWeave_keep (fun x => ?_) v y sl
  refine foldl_same (p := Weave.fibres) (fun z i _ => ?_) x
  split
  · split
    · exact fibres_wake ..
    · rfl
  · rfl

theorem fibre?_unspill_self (s : State) (u w sl n : Nat) :
    (s.unspill u w sl n).fibre? u w sl = (s.fibre? u w sl).map fun f => { f with spilt := f.spilt.filter fun m => m != n } :=
  State.fibre?_updFibre_self ..

/-- A recruiter that waits for its last helper, which is gone, resumes with the iterations that are left in D. -/
theorem resumeRecruiter_of {s : State} {u rw rs : Nat} {f : Fibre} {p : Pool} (hrs : rs < 32) (hf : s.fibre? u rw rs = some f) (hp : f.pool = some p)
    (hw : p.waiting = true) (hh : p.helpers = 0) (hd : mget f.binds p.dst = none) : ∃ t, resumeRecruiter s u (poolKey rw rs) = some t
      ∧ t.fibre? u rw rs = some (Fibre.wrote { f with pool := some { p with waiting := false }, spilt := f.spilt.filter fun m => m != p.dst }
          p.dst (ofNat64 p.left)) := by
  have hkw : poolKey rw rs / 32 = rw := by unfold poolKey; omega
  have hks : poolKey rw rs % 32 = rs := by unfold poolKey; omega
  have hpool : (s.fibre? u rw rs).bind Fibre.pool = some p := by rw [hf]; exact hp
  unfold resumeRecruiter
  simp only [hkw, hks, hpool]
  rw [if_neg (by simp [hw, hh])]
  refine ⟨_, rfl, ?_⟩
  have hready (t : State) : ((t.unspill u rw rs p.dst).updWeave u rw fun x => x.splitOff rs).fibre? u rw rs
      = (t.fibre? u rw rs).map fun g => { g with spilt := g.spilt.filter fun m => m != p.dst } := by
    rw [fibre?_updWeave_keep (fun x => fibres_splitOff x rs), fibre?_unspill_self]
  have hbefore := hready (s.updFibre u rw rs fun g => { g with pool := g.pool.map fun p => { p with waiting := false } })
  rw [State.fibre?_updFibre_self, hf, Option.map_some, Option.map_some] at hbefore
  rw [fibre?_recruitReady, fibre?_writeW, if_pos ⟨rfl, rfl, rfl⟩, hbefore, hp]
  · rfl
  · intro g hg
    obtain rfl := Option.some.inj (hbefore.symm.trans hg)
    exact hd

/-- Settles O48, event by event. -/
theorem weavesMove : Obligations.WeavesMove := by
  unfold Obligations.WeavesMove
  refine fun s => ⟨fun u w b x hb hx ha hm => ?_, fun c u w x hc hx => ?_, fun u key b hb hs => ?_, fun u w x hx hne hbusy => ?_,
    fun u rw rs f p hrs hf hp hw hh hd => ?_⟩
  · show event _ (demote s u w) = _
    simp only [demote, hb, hx, ha, hm, Bool.and_self, if_true, event]
  · show event _ (promote s c) = _
    rw [promote, if_neg (Nat.not_le.mpr hc), hx]
    rfl
  · refine ⟨_, congrArg (event _) (startHelpers_of hb hs), fun w y hy z hz hst => ?_⟩
    obtain ⟨i, hi⟩ := List.mem_iff_getElem?.mp hz
    refine ⟨y.starting key, ?_, _, List.mem_of_getElem? (starting_runs hi hst), rfl, rfl, rfl⟩
    rw [State.weave?, State.block?_updBlock_self, hb]
    simp [mget_mmap, hy]
  · refine ⟨_, congrArg (event _) (askRelease_of_busy hx hne hbusy), fun sl f hf hh => ?_⟩
    obtain ⟨g, hg, hr⟩ := asked_helpers hx hf hh
    rw [hg, Option.map_some, hr]
  · obtain ⟨t, ht, hfib⟩ := resumeRecruiter_of hrs hf hp hw hh hd
    refine ⟨t, congrArg (event _) ht, ?_, ?_⟩
    · rw [State.reg?, hfib]
      simp [Fibre.wrote]
    · rw [hfib]
      rfl

end Sys2Proof.Machine
end

section
/-! SUPPORT. What the device's own operations do to blocks, frames and contexts: a read or a write of memory, a record, a packet that is late and a walk
push values to bound registers, and leave all else of a block as it is (`device`). -/
namespace Sys2Proof.Machine

/-! ### States that agree in what is resident -/

/-- What a frame holds, but for its bytes. -/
def Frame.holding (f : Frame) : Bool × Nat × Nat × Nat × Bool := (f.saved, f.ctx, f.uid, f.why, f.block.isSome)

/-- The pool of frames that a context owns. -/
def Ctx.area (x : Ctx) : Nat × Nat := (x.pool, x.frames)

/-- The same blocks, frames and pools. -/
structure alike (s t : State) : Prop where
  blocks : t.blocks = s.blocks
  nextUid : t.nextUid = s.nextUid
  frames : ∀ k, (mget t.frames k).map Frame.holding = (mget s.frames k).map Frame.holding
  areas : ∀ c, (t.ctx? c).map Ctx.area = (s.ctx? c).map Ctx.area

/-- What the device's own operations may do, one after another: push values to bound registers, and change what leaves states alike. -/
inductive device (s : State) : State → Prop where
  | refl : device s s
  | still {t r : State} : device s t → alike t r → device s r
  | push {t : State} (pa n : Nat) : device s t → device s (push t pa n)

theorem device.trans {s t r : State} (h : device s t) (g : device t r) : device s r := by
  induction g with
  | refl => exact h
  | still _ ha ih => exact ih.still ha
  | push pa n _ ih => exact ih.push pa n

section
variable {s t : State}

theorem cacheOnly.alike (h : cacheOnly s t) : alike s t :=
  ⟨h.blocks, by rw [h], fun _ => by rw [h.frames], fun c => by rw [State.ctx?, State.ctx?, h.ctxs]⟩

theorem device.cached {r : State} (h : device s t) (g : cacheOnly t r) : device s r := h.still g.alike

theorem foldl_device {α : Type} {f : State → α → State} {l : List α} (hf : ∀ t a, device s t → device s (f t a)) (h : device s t) :
    device s (l.foldl f t) :=
  List.foldlRecOn (motive := device s) l f h fun t ht a _ => hf t a ht

/-! ### Memory -/

theorem clearPoison_device {pa n : Nat} (h : device s t) : device s (clearPoison t pa n) := h.still ⟨rfl, rfl, fun _ => rfl, fun _ => rfl⟩

theorem post_device {i : Instr} (h : device s t) : device s (t.post i) := h.still ⟨rfl, rfl, fun _ => rfl, fun _ => rfl⟩

theorem updCore_device {c : Nat} {f : Core → Core} (h : device s t) : device s (t.updCore c f) := h.still ⟨rfl, rfl, fun _ => rfl, fun _ => rfl⟩

theorem updDie_device {d : Nat} {f : Die → Die} (h : device s t) : device s (t.updDie d f) := h.still ⟨rfl, rfl, fun _ => rfl, fun _ => rfl⟩

theorem updCtx_device {ctx : Nat} {f : Ctx → Ctx} (hf : ∀ x, (f x).area = x.area) (h : device s t) : device s (t.updCtx ctx f) := by
  refine h.still ⟨rfl, rfl, fun _ => rfl, fun c => ?_⟩
  unfold State.updCtx State.ctx?
  rw [mget_mupd]
  split
  · subst_vars
    cases mget t.ctxs c <;> simp [hf]
  · rfl

/-- A frame that holds an address is the one that stands at its base. -/
theorem mget_of_frameAt {pa base : Nat} {f : Frame} (h : s.frameAt pa = some (base, f)) : mget s.frames base = some f := by
  unfold State.frameAt at h
  generalize s.frames = l at h ⊢
  induction l with
  | nil => cases h
  | cons e r ih =>
    rw [List.find?_cons] at h
    split at h
    · obtain rfl := Option.some.inj h
      simp [mget]
    · rename_i hout
      have hin := List.find?_some h
      have hne : e.1 ≠ base := by
        rintro rfl
        rw [hout] at hin
        cases hin
      obtain ⟨k, g⟩ := e
      rw [mget, if_neg hne, ih h]

theorem rawWrite_device {pa : Nat} {data : List Byte} (h : device s t) : device s (rawWrite t pa data) := by
  unfold rawWrite
  split
  · split
    · exact foldl_device (fun _ _ => post_device) h
    · exact h
  · split
    · exact h
    · split
      · rename_i base f hf
        refine h.still ⟨rfl, rfl, fun k => ?_, fun _ => rfl⟩
        dsimp only
        rw [mget_mput]
        split
        · subst_vars
          rw [mget_of_frameAt hf]
          rfl
        · rfl
      · exact h.still ⟨rfl, rfl, fun _ => rfl, fun _ => rfl⟩

theorem ownTouch_device {c : Option Nat} {pa : Nat} (h : device s t) : device s (ownTouch t c pa) := h.cached ((cacheOnly.rfl' t).ownTouch c pa)

theorem homeWrite_device {c : Option Nat} {pa : Nat} {data : List Byte} (h : device s t) : device s (homeWrite t c pa data) :=
  (clearPoison_device (rawWrite_device (ownTouch_device h))).push pa data.length

theorem devWrite_device {pa : Nat} {data : List Byte} (h : device s t) : device s (devWrite t pa data) := homeWrite_device h

/-! ### Records and late packets -/

theorem sendUz_device {session ty status : Nat} {req : Word} {body : List Byte} (h : device s t) : device s (sendUz t session ty status req body) :=
  h.still ⟨rfl, rfl, fun _ => rfl, fun _ => rfl⟩

theorem tick_device (h : device s t) : device s t.tick := h.still ⟨rfl, rfl, fun _ => rfl, fun _ => rfl⟩

theorem writeRecord_device {ctx : Nat} {r : Rec} {await : Bool} (h : device s t) : device s (writeRecord t ctx r await).1 := by
  unfold writeRecord
  split
  · exact h
  · dsimp only
    have hposts {t : State} {l : List Nat} (ht : device s t) : device s (l.foldl (fun s o => s.post (.recordCompletion ctx o)) t) :=
      foldl_device (fun _ _ => post_device) ht
    split
    · exact sendUz_device (updCtx_device (fun _ => rfl) (hposts (updCtx_device (fun _ => rfl) (devWrite_device (devWrite_device h)))))
    · exact hposts (updCtx_device (fun _ => rfl) (devWrite_device (devWrite_device h)))

theorem latePacket_device {x : Packet} (h : device s t) : device s (latePacket t x) := by
  unfold latePacket
  split
  · exact h
  · dsimp only
    split
    · exact writeRecord_device (tick_device (updCtx_device (fun _ => rfl) h))
    · exact updCtx_device (fun _ => rfl) h

theorem latePackets_device {p : Option Packet} {n : Nat} (h : device s t) : device s (latePackets t p n) := by
  induction n generalizing t with
  | zero => exact h
  | succ n ih =>
    unfold latePackets
    cases p with
    | none => exact h
    | some x => exact ih (latePacket_device h)

theorem lateDelivery_device {uid core n : Nat} (h : device s t) : device s (lateDelivery t uid core n) := latePackets_device h

/-! ### Requests of cores -/

theorem serveMiss_device {c line : Nat} (h : device s t) : device s (serveMiss t c line) := by
  unfold serveMiss
  split
  · exact h
  · split
    · exact h
    · dsimp only
      split
      · exact updCore_device ((latePackets_device h).cached ((cacheOnly.rfl' _).serveOwn _ _))
      · exact updCore_device ((latePackets_device h).cached ((cacheOnly.rfl' _).readMiss _ _))

theorem ahead_device {c line dest : Nat} (h : device s t) : device s (ahead t c line dest) :=
  foldl_device (fun _ _ ht => (serveMiss_device ht).cached ((cacheOnly.rfl' _).deliverReply _ _)) h

theorem readBy_device {uid c pa : Nat} (h : device s t) : device s (readBy t uid c pa) := by
  unfold readBy
  split
  · exact h.cached ((cacheOnly.rfl' _).readTouch _ _)
  · exact lateDelivery_device ((ahead_device h).cached ((cacheOnly.rfl' _).readTouch _ _))

theorem bindTouch_device {pa : Nat} (h : device s t) : device s (bindTouch t pa) := h.cached ((cacheOnly.rfl' _).bindTouch _)

theorem readThrough_device {uid c pa : Nat} (h : device s t) : device s (readThrough t uid c pa) := by
  unfold readThrough
  split
  · exact h
  · exact (lateDelivery_device h).cached ((cacheOnly.rfl' _).readMiss _ _)

theorem coreRead_device {uid c pa : Nat} (h : device s t) : device s (coreRead t uid c pa) := by
  unfold coreRead
  split
  · exact h
  · exact readThrough_device (ahead_device h)

/-- A store's request, with what its core has asked for before. -/
theorem storeAhead_device {l1 : Option Nat} {c pa : Nat} (h : device s t) : device s (storeAhead t l1 c pa) := by
  unfold storeAhead
  split <;> split
  · exact h
  · exact ahead_device h
  · exact h
  · exact ahead_device h

theorem refuseWrite_device {uid c ctx pa seq : Nat} (h : device s t) : device s (refuseWrite t uid c ctx pa seq) := post_device (updDie_device h)

theorem lineWrite_device {uid c : Nat} {l : List SEntry} {line : Nat} (h : device s t) : device s (lineWrite t uid c l line) :=
  foldl_device (fun _ _ ht => ht.push _ _) (foldl_device (fun _ _ ht => clearPoison_device (rawWrite_device ht))
    (ownTouch_device (lateDelivery_device (storeAhead_device h))))

theorem drain_device {uid c : Nat} {l : List SEntry} (h : device s t) : device s (drain t uid c l) := by
  unfold drain
  split
  · exact h
  · exact foldl_device (fun _ _ => lineWrite_device) (foldl_device (fun _ _ => refuseWrite_device) h)

/-! ### Translation -/

theorem walkReads_device {ctx va : Nat} {touch : State → Nat → State} (ht : ∀ t a, device s t → device s (touch t a)) (h : device s t) :
    device s (walkReads t ctx va touch) := by
  unfold walkReads
  split
  · exact h
  · refine foldl_device (fun r a hr => ?_) h
    split
    · exact hr
    · exact ht r a hr

theorem walkFor_device {ctx va : Nat} {k : Acc} (h : device s t) : device s (walkFor t ctx va k).1 := by
  unfold walkFor
  split
  · exact h
  · split
    · exact h
    · split
      · exact h
      · dsimp only
        split
        · exact h
        · exact devWrite_device h

theorem walkMiss_device {uid c ctx va : Nat} {k : Acc} (h : device s t) : device s (walkMiss t uid c ctx va k).1 := by
  have hwalk := walkFor_device (ctx := ctx) (va := va) (k := k) (walkReads_device (ctx := ctx) (va := va) (touch := fun s a => readThrough s uid c a)
    (fun _ _ => readThrough_device) h)
  unfold walkMiss
  split
  · exact h
  · split
    · rename_i hw
      rw [hw] at hwalk
      exact hwalk.still ⟨rfl, rfl, fun _ => rfl, fun _ => rfl⟩
    · rename_i hw
      rw [hw] at hwalk
      dsimp only
      exact updDie_device hwalk

theorem translate_device {uid c ctx : Nat} {addr : Word} {k : Acc} (h : device s t) : device s (translate t uid c ctx addr k).1 := by
  have huse {r : State} (hr : device s r) (p : Prop) [Decidable p] (x y : Tr) : device s (if p then (r, x) else (r, y)).1 := by
    split <;> exact hr
  have hmiss := walkMiss_device (uid := uid) (c := c) (ctx := ctx) (va := addr.toNat) (k := k) h
  unfold translate
  dsimp only
  split
  · exact h
  · split
    · exact huse h ..
    · split
      · exact huse (updCore_device h) ..
      · split
        · rename_i hw
          rw [hw] at hmiss
          exact hmiss
        · rename_i hw
          rw [hw] at hmiss
          exact huse (updCore_device hmiss) ..

theorem devTranslate_device {ctx va : Nat} {k : Acc} (h : device s t) : device s (devTranslate t ctx va k).1 := by
  have hwalk := walkFor_device (ctx := ctx) (va := va) (k := k) h
  unfold devTranslate
  split
  · exact h
  · split <;> rename_i hw <;> rw [hw] at hwalk <;> exact hwalk

theorem readPages_device {ctx fuel n va : Nat} (h : device s t) : device s (readPages t ctx fuel n va).1 := by
  induction fuel generalizing t n va with
  | zero => exact h
  | succ k ih =>
    have htr := devTranslate_device (ctx := ctx) (va := va) (k := .load) h
    unfold readPages
    split
    · exact h
    · dsimp only
      split
      · rename_i hw
        rw [hw] at htr
        exact htr
      · rename_i r pa hw
        rw [hw] at htr
        split
        · exact htr
        · have hrest := ih (n := n - min n (4096 - va % 4096)) (va := va + min n (4096 - va % 4096)) htr
          split <;> rename_i hr <;> rw [hr] at hrest <;> exact hrest

theorem readVA_device {ctx n va : Nat} (h : device s t) : device s (readVA t ctx n va).1 := readPages_device h

/-! ### Code -/

theorem icLine_device {uid c pa : Nat} (h : device s t) : device s (icLine t uid c pa).1 := by
  unfold icLine
  dsimp only
  split
  · exact h
  · dsimp only
    exact updCore_device (coreRead_device h)

theorem icBytes_device {uid c pa n : Nat} (h : device s t) : device s (icBytes t uid c pa n).1 := icLine_device h

theorem targetCheck_device {uid c ctx : Nat} {pc : Word} (h : device s t) : device s (targetCheck t uid c ctx pc).1 := by
  have htr := translate_device (uid := uid) (c := c) (ctx := ctx) (addr := pc) (k := .fetch) h
  unfold targetCheck
  split
  · rename_i hw
    rw [hw] at htr
    exact htr
  · rename_i hw
    rw [hw] at htr
    split
    · exact htr
    · exact icBytes_device (n := 8) htr

end

/-! ### What blocks keep -/

/-- Agents keep their places. -/
theorem device.seated {s t : State} (h : device s t) : seated s t := by
  induction h with
  | refl => exact .refl s
  | still _ ha ih => exact ih.blocks ha.blocks
  | push pa n _ ih => exact push_seated ih

end Sys2Proof.Machine
end

section
/-! PROOFS. `fork` starts children (O37, R197). -/
namespace Sys2Proof.Machine
variable {s t : State} {k : Iss}

/-! ### Which slots are idle -/

theorem slotIdle_updWeave {f : Weave → Weave} (hf : ∀ x, (f x).fibres = x.fibres) (b : Block) (v w sl : Nat) :
    slotIdle (b.updWeave v f) w sl = slotIdle b w sl := by
  unfold slotIdle Block.updWeave
  rw [mget_mupd]
  by_cases h : w = v
  · subst h
    cases mget b.weaves w <;> simp [hf]
  · simp [h]

theorem filter_mput {α : Type} (p : Nat × α → Bool) (m : Map α) (n : Nat) (v : α) :
    (mput m n v).filter (fun e => p e && e.1 != n) = m.filter fun e => p e && e.1 != n := by
  induction m with
  | nil => simp [mput]
  | cons e r ih =>
    obtain ⟨i, x⟩ := e
    unfold mput
    split
    · subst_vars
      simp
    · split
      · simp
      · rw [List.filter_cons, List.filter_cons, ih]

/-- The block's own weaves but one, in order. -/
def Block.siblings (b : Block) (w : Nat) : List Nat := (b.weaves.filter fun x => x.2.kind == .block && x.1 != w).map Prod.fst

/-- The choice of a slot for a child depends on which slots are idle and on the order of the block's weaves. -/
theorem childSlot_congr {b c : Block} {w : Nat} (hidle : ∀ v sl, slotIdle c v sl = slotIdle b v sl) (hsib : c.siblings w = b.siblings w) :
    childSlot c w = childSlot b w := by
  have hfirst : idleSlot c = idleSlot b := by
    funext v
    unfold idleSlot
    simp only [hidle]
  have hothers (d : Block) : ((d.weaves.filter fun x => x.2.kind == .block && x.1 != w).findSome? fun x => (idleSlot d x.1).map fun sl => (x.1, sl))
      = (d.siblings w).findSome? fun v => (idleSlot d v).map fun sl => (v, sl) := by
    unfold Block.siblings
    rw [List.findSome?_map]
    rfl
  unfold childSlot
  rw [hothers, hothers, hfirst, hsib]

/-- A change of a weave that leaves its fibres alone changes no choice of a slot for a child from it. -/
theorem childSlot_updWeave {f : Weave → Weave} (hf : ∀ x, (f x).fibres = x.fibres) (b : Block) (w : Nat) :
    childSlot (b.updWeave w f) w = childSlot b w := by
  refine childSlot_congr (fun v sl => slotIdle_updWeave hf ..) ?_
  unfold Block.siblings Block.updWeave mupd
  dsimp only
  split
  · rw [filter_mput fun x : Nat × Weave => x.2.kind == .block]
  · rfl

/-- So does a change of every weave that keeps the kinds of weaves and the slots that fibres hold. -/
theorem childSlot_mmap {f : Nat → Weave → Weave} (hk : ∀ w x, (f w x).kind = x.kind)
    (hf : ∀ w x sl, (mget (f w x).fibres sl).isNone = (mget x.fibres sl).isNone) (b : Block) (w : Nat) :
    childSlot { b with weaves := mmap b.weaves f } w = childSlot b w := by
  refine childSlot_congr (fun v sl => ?_) ?_
  · unfold slotIdle
    simp only [mget_mmap]
    cases mget b.weaves v <;> simp [hf]
  · simp [Block.siblings, mmap, List.filter_map, Function.comp_def, hk]

/-! ### What a push leaves of a fibre -/

/-- What a push to bound registers leaves of a fibre. -/
def Fibre.unpushed (f : Fibre) : FKind × (Nat → Bool) := (f.kind, fun n => (mget f.binds n).isNone)

theorem Fibre.unpushed_pushed (s : State) (buf : List SEntry) (wx sl pa n : Nat) (f : Fibre) : (f.pushed s buf wx sl pa n).unpushed = f.unpushed := by
  have hkeys (n : Nat) (g : Nat → Binding → Binding) : (mget (mmap f.binds g) n).isNone = (mget f.binds n).isNone := by
    rw [mget_mmap, Option.isNone_map]
  unfold Fibre.pushed Fibre.unpushed
  simp only [hkeys]

theorem fibres_latch (x : Weave) (slot n : Nat) (v : Word) : (x.latch slot n v).fibres = x.fibres := by
  refine foldl_same (p := Weave.fibres) (fun y i _ => ?_) x
  split
  · split
    · split
      · split
        · dsimp only
          split
          · exact fibres_wake ..
          · rfl
        · rfl
      · rfl
    · rfl
  · rfl

theorem kind_wake (x : Weave) (i : Nat) : (x.wake i).kind = x.kind := by
  unfold Weave.wake
  split
  · split <;> rfl
  · rfl

theorem kind_latch (x : Weave) (slot n : Nat) (v : Word) : (x.latch slot n v).kind = x.kind := by
  refine foldl_same (p := Weave.kind) (fun y i _ => ?_) x
  split
  · split
    · split
      · split
        · dsimp only
          split
          · exact kind_wake ..
          · rfl
        · rfl
      · rfl
    · rfl
  · rfl

theorem Weave.kind_pushed (s : State) (buf : List SEntry) (wx pa n : Nat) (x : Weave) : (x.pushed s buf wx pa n).kind = x.kind := by
  unfold Weave.pushed
  dsimp only
  split
  · rfl
  · exact foldl_same (p := Weave.kind) (fun y h _ => kind_latch ..) _

theorem Weave.mget_pushed (s : State) (buf : List SEntry) (wx pa n : Nat) (x : Weave) (sl : Nat) :
    (mget (x.pushed s buf wx pa n).fibres sl).map Fibre.unpushed = (mget x.fibres sl).map Fibre.unpushed := by
  unfold Weave.pushed
  dsimp only
  split
  · rfl
  · rw [foldl_same (p := Weave.fibres) (fun y h _ => fibres_latch ..)]
    simp only [mget_mmap, Option.map_map, Function.comp_def, Fibre.unpushed_pushed]

theorem block?_push (s : State) (pa n u : Nat) :
    (push s pa n).block? u = (s.block? u).map fun b => { b with weaves := mmap b.weaves fun k w => w.pushed s b.sbuf k pa n } := by
  unfold push State.block?
  rw [mget_mmap]

theorem device.fibre (h : device s t) (u w sl : Nat) : (t.fibre? u w sl).map Fibre.unpushed = (s.fibre? u w sl).map Fibre.unpushed := by
  induction h with
  | refl => rfl
  | still _ ha ih => rw [← ih, State.fibre?, State.weave?, State.block?, ha.blocks]; rfl
  | push pa n _ ih =>
    rw [← ih, State.fibre?, State.weave?, block?_push, State.fibre?, State.weave?]
    cases State.block? _ u with
    | none => rfl
    | some b =>
      simp only [Option.map_some, Option.bind_some, mget_mmap]
      cases mget b.weaves w with
      | none => rfl
      | some x => exact x.mget_pushed ..

theorem device.childSlot (h : device s t) (u w : Nat) : (t.block? u).map (childSlot · w) = (s.block? u).map (childSlot · w) := by
  induction h with
  | refl => rfl
  | still _ ha ih => rw [← ih, State.block?, ha.blocks]; rfl
  | push pa n _ ih =>
    rw [← ih, block?_push, Option.map_map]
    refine congrArg (fun f => Option.map f _) (funext fun b => childSlot_mmap (fun v x => x.kind_pushed ..) (fun v x sl => ?_) b w)
    simpa using congrArg Option.isNone (x.mget_pushed _ b.sbuf v pa n sl)

/-! ### The children of a `fork` -/

/-- The children that a `fork` of s makes where its target check has left r. -/
def forkKids (src dst : BitVec 7) (k : Iss) (s r : State) : ForkAcc :=
  k.acts.foldl (forkOne k.uid k.w dst fun a => s.src a (plainSrc src false)) { st := r.noteAll k.pc k.acts [plainSrc src false] }

/-- The effect of that `fork`. -/
def forkEffect (src dst : BitVec 7) (pc : Word) (k : Iss) (s r : State) : State :=
  kidBatches (forkKids src dst k s r).st k.uid pc (forkKids src dst k s r).kids

theorem noteAll_seated {pc : Word} {acts : List Actor} {srcs : List Src} (h : seated s t) : seated s (t.noteAll pc acts srcs) :=
  foldl_seated (fun _ _ => foldl_seated fun _ _ => noteDead_seated) h

theorem forkOne_seated {uid w : Nat} {dst : BitVec 7} {v : Actor → Word} {x : ForkAcc} (a : Actor) (h : seated s x.st) :
    seated s (forkOne uid w dst v x a).st := by
  unfold forkOne
  dsimp only
  split
  · split
    · split
      · exact writeW_seated h
      · exact writeW_seated (h.trans (seated_updWeave (fun y => by exact ⟨rfl, rfl, fun _ h => h⟩) _ _ _))
    · exact writeW_seated h
  · exact writeW_seated h

theorem forkKids_seated (src dst : BitVec 7) (k : Iss) {r : State} (h : seated s r) : seated s (forkKids src dst k s r).st :=
  List.foldlRecOn (motive := fun x : ForkAcc => seated s x.st) _ _ (noteAll_seated h) fun _ hx a _ => forkOne_seated a hx

/-- New batches leave the current one where it is. -/
theorem cursor_addBatch {u w n : Nat} {c : Batch} {ss : Bool} (h : s.cursor u w = some (n, c, ss)) (v y : Nat) (b : Batch) :
    (s.updWeave v y fun x => x.addBatch b).cursor u w = some (n, c, ss) := by
  obtain ⟨x, hx, hcur, hb, -, rfl⟩ := cursor_weave h
  unfold State.cursor
  rw [State.weave?_updWeave]
  split
  · rename_i hsame
    obtain ⟨rfl, rfl⟩ := hsame
    simp [hx, Weave.addBatch, Weave.curBatch, hcur, List.getElem?_append_left (lt_of_batch hb), hb]
  · simp [hx, Weave.curBatch, hcur, hb]

theorem cursor_kidBatches {u w n : Nat} {c : Batch} {ss : Bool} (h : s.cursor u w = some (n, c, ss)) (v : Nat) (pc : Word) (kids : List (Nat × Nat)) :
    (kidBatches s v pc kids).cursor u w = some (n, c, ss) :=
  List.foldlRecOn (motive := fun t => State.cursor t u w = some (n, c, ss)) _ _ h fun _ ht _ _ => cursor_addBatch ht ..

/-- A `fork` whose target is a clause header goes on behind it. -/
theorem fork_completes {g : Guard} {src dst : BitVec 7} {off : BitVec 32} (h : readyFib (.fork g src dst off) s = some k)
    (hroom : ∀ a ∈ k.acts, missesFull s (s.coreOf a) = false) {r : State}
    (hcheck : targetCheck s k.uid (s.coreOf (k.acts.headD (.seq 0))) (s.ctxOf k.uid) (k.pc + off.signExtend 64) = (r, none)) :
    exec (.fork g src dst off) s = .next (k.after false (forkEffect src dst (k.pc + off.signExtend 64) k s r)) := by
  obtain ⟨n, b, hcur, hne, hacts⟩ := readyFib_cursor h
  have hw : k.weave = some k.w := by
    obtain ⟨u, w, blk, x, b, -, -, -, -, rfl, -⟩ := readyFib_cases h
    rfl
  have hdev : device s r := by
    have := targetCheck_device (uid := k.uid) (c := s.coreOf (k.acts.headD (.seq 0))) (ctx := s.ctxOf k.uid) (pc := k.pc + off.signExtend 64) (device.refl (s := s))
    rwa [hcheck] at this
  obtain ⟨c, hc, hm⟩ := (forkKids_seated src dst k hdev.seated).cursor hcur
  have hend := cursor_kidBatches hc k.uid (k.pc + off.signExtend 64) (forkKids src dst k s r).kids
  have hbody : exec (.fork g src dst off) s = .next (finish (forkEffect src dst (k.pc + off.signExtend 64) k s r) k k.w
      { st := forkEffect src dst (k.pc + off.signExtend 64) k s r }) := by
    have hexec : exec (.fork g src dst off) s = execFork g src dst off s := rfl
    rw [hexec, execFork, issue_readyFib h]
    simp only [hw]
    obtain ⟨a, l, hl⟩ := List.exists_cons_of_ne_nil hacts
    have hhead : k.acts.headD (.seq 0) = a := by rw [hl]; rfl
    rw [hhead] at hcheck
    have hkept (d : Done) : fetchEntry k s d = d := fetchEntry_of_held (fetchesHeld_of_room hroom)
    simp only [hkept]
    unfold forkEffect forkKids
    simp only [hl, hcheck]
  rw [hbody]
  exact congrArg _ (finish_after hend (hm ▸ hne) rfl rfl rfl rfl hacts)

/-! ### The child of a lone participant -/

/-- A read of an ordinary fibre's register notes a dead one in the fibre's own weave. -/
theorem note_of_plain {u w sl : Nat} {f : Fibre} (hf : s.fibre? u w sl = some f) (hk : f.isHelper = false) (n : BitVec 7) :
    (s.readSrc (.fib u w sl) (plainSrc n false)).2 = none ∨ ∃ fs m, (s.readSrc (.fib u w sl) (plainSrc n false)).2 = some (w, fs, m) := by
  unfold State.readSrc State.readW plainSrc
  simp only [srcSlot, hf, hk, Bool.false_and, Bool.false_eq_true, if_false]
  split
  · exact .inl rfl
  · exact .inl rfl
  · exact .inr ⟨_, _, rfl⟩

/-- That read changes no choice of a slot for a child. -/
theorem childSlot_noteAll {u w sl : Nat} {f : Fibre} (hf : s.fibre? u w sl = some f) (hk : f.isHelper = false) (pc : Word) (n : BitVec 7) :
    ((s.noteAll pc [.fib u w sl] [plainSrc n false]).block? u).map (childSlot · w) = (s.block? u).map (childSlot · w) := by
  show ((s.noteDead u pc _).block? u).map _ = _
  obtain hnote | ⟨fs, m, hnote⟩ := note_of_plain hf hk n <;> rw [hnote]
  · rfl
  · show ((s.updWeave u w _).block? u).map _ = _
    unfold State.updWeave
    rw [State.block?_updBlock_self, Option.map_map]
    refine congrArg (fun g => Option.map g (s.block? u)) (funext fun b => childSlot_updWeave (fun x => ?_) b w)
    split <;> rfl

/-- A slot that is idle holds no fibre, and its weave is there. -/
theorem slotIdle_of_childSlot {b : Block} {w cw sl : Nat} (h : childSlot b w = some (cw, sl)) : slotIdle b cw sl = true := by
  unfold childSlot at h
  split at h
  · rename_i m hm
    obtain ⟨rfl, rfl⟩ := Prod.mk.inj (Option.some.inj h)
    exact List.find?_some hm
  · obtain ⟨x, -, hx⟩ := List.exists_of_findSome?_eq_some h
    obtain ⟨m, hm, he⟩ := Option.map_eq_some_iff.mp hx
    obtain ⟨rfl, rfl⟩ := Prod.mk.inj he
    exact List.find?_some hm

theorem weave?_of_idle {u w sl : Nat} {b : Block} (hb : s.block? u = some b) (h : slotIdle b w sl = true) :
    ∃ x, s.weave? u w = some x ∧ mget x.fibres sl = none := by
  unfold slotIdle at h
  split at h
  · rename_i x hx
    exact ⟨x, by rw [State.weave?, hb]; exact hx, Option.isNone_iff_eq_none.mp h⟩
  · cases h

/-- The children of one parent stand in one batch of one. -/
theorem kidBatches_one (s : State) (u : Nat) (pc : Word) (cw sl : Nat) :
    kidBatches s u pc [(cw, sl)] = s.updWeave u cw fun x => x.addBatch (Batch.start [sl] pc) := by
  unfold kidBatches
  simp [sortNat, insertNat]

/-- A fibre as a `fork` finds it behind the check of its target and the read of its source. -/
structure forkParent (s r : State) (u w sl n : Nat) : Prop where
  slots : (r.block? u).map (childSlot · w) = (s.block? u).map (childSlot · w)
  fibre : ∃ f, r.fibre? u w sl = some f ∧ f.kind = .block ∧ mget f.binds n = none

theorem forkParent_of_device {r : State} {u w sl n : Nat} {f : Fibre} (h : device s r) (hf : s.fibre? u w sl = some f) (hk : f.kind = .block)
    (hn : mget f.binds n = none) (pc : Word) (src : BitVec 7) : forkParent s (r.noteAll pc [.fib u w sl] [plainSrc src false]) u w sl n := by
  have hsame := h.fibre u w sl
  rw [hf, Option.map_some, Option.map_eq_some_iff] at hsame
  obtain ⟨g, hg, hrest⟩ := hsame
  obtain ⟨hkind, hbinds⟩ := Prod.mk.inj hrest
  have hgn : mget g.binds n = none := by simpa [hn] using congrFun hbinds n
  have hgk : g.kind = .block := hkind.trans hk
  refine ⟨?_, g, ?_, hgk, hgn⟩
  · rw [childSlot_noteAll hg (by rw [Fibre.isHelper, hgk]) pc src, h.childSlot]
  · rw [fibre?_noteAll, hg]

/-- With no slot idle the parent's D is all ones. -/
theorem forkOne_full {u w sl : Nat} {r : State} {b : Block} {dst : BitVec 7} (v : Actor → Word) (h : forkParent s r u w sl dst.toNat)
    (hb : s.block? u = some b) (hnone : childSlot b w = none) :
    (forkOne u w dst v { st := r } (.fib u w sl)).kids = []
      ∧ (forkOne u w dst v { st := r } (.fib u w sl)).st.reg? u w sl dst.toNat = some (.live (BitVec.allOnes 64)) := by
  obtain ⟨f, hf, hk, hn⟩ := h.fibre
  obtain ⟨c, hc, hslot⟩ := Option.map_eq_some_iff.mp (h.slots.trans (by rw [hb, Option.map_some, hnone]))
  have hone : forkOne u w dst v { st := r } (.fib u w sl) = { st := r.writeW (.fib u w sl) dst.toNat (BitVec.allOnes 64) } := by
    unfold forkOne
    simp only [hc, State.fib?, hf, hk, hslot]
  rw [hone]
  refine ⟨rfl, ?_⟩
  rw [State.reg?, fibre?_writeW (fun g hg => by rwa [← Option.some.inj (hf.symm.trans hg)]), if_pos ⟨rfl, rfl, rfl⟩, hf]
  simp [Fibre.wrote]

/-- Else it is the child's slot, and the child stands there with w0 the source. -/
theorem forkOne_child {u w sl cw csl : Nat} {r : State} {b : Block} {dst : BitVec 7} (v : Actor → Word) (h : forkParent s r u w sl dst.toNat)
    (hb : s.block? u = some b) (hs : childSlot b w = some (cw, csl)) :
    let x := forkOne u w dst v { st := r } (.fib u w sl)
    x.kids = [(cw, csl)] ∧ x.st.reg? u w sl dst.toNat = some (.live (ofNat64 (32 * cw + csl)))
      ∧ x.st.fibre? u cw csl = some (Fibre.start .block (32 * cw + csl) [(0, .live (v (.fib u w sl)))]) := by
  obtain ⟨f, hf, hk, hn⟩ := h.fibre
  obtain ⟨c, hc, hslot⟩ := Option.map_eq_some_iff.mp (h.slots.trans (by rw [hb, Option.map_some, hs]))
  obtain ⟨y, hy, hidle⟩ := weave?_of_idle hc (slotIdle_of_childSlot hslot)
  have hne : ¬(cw = w ∧ csl = sl) := by
    rintro ⟨rfl, rfl⟩
    rw [State.fibre?, hy] at hf
    exact absurd (hidle.symm.trans hf) (by simp)
  have hone : forkOne u w dst v { st := r } (.fib u w sl)
      = { st := (r.updWeave u cw fun y => { y with fibres := mput y.fibres csl (Fibre.start .block (32 * cw + csl) [(0, .live (v (.fib u w sl)))]) }).writeW
            (.fib u w sl) dst.toNat (ofNat64 (32 * cw + csl)), kids := [(cw, csl)] } := by
    unfold forkOne
    simp only [hc, State.fib?, hf, hk, hslot]
    rfl
  have hparent : (r.updWeave u cw fun y => { y with fibres := mput y.fibres csl (Fibre.start .block (32 * cw + csl) [(0, .live (v (.fib u w sl)))]) }).fibre?
      u w sl = some f := by
    rw [State.fibre?, State.weave?_updWeave]
    split
    · rename_i hsame
      obtain ⟨-, rfl⟩ := hsame
      have hsl : sl ≠ csl := fun e => hne ⟨rfl, e.symm⟩
      rw [State.fibre?, hy] at hf
      simpa [hy, mget_mput_ne _ _ hsl] using hf
    · exact hf
  have hwrite := fibre?_writeW (val := ofNat64 (32 * cw + csl)) (n := dst.toNat) (fun g hg => by rwa [← Option.some.inj (hparent.symm.trans hg)])
  dsimp only
  rw [hone]
  refine ⟨rfl, ?_, ?_⟩
  · rw [State.reg?, hwrite, if_pos ⟨rfl, rfl, rfl⟩, hparent]
    simp [Fibre.wrote]
  · rw [hwrite, if_neg fun e => hne e.2, State.fibre?, State.weave?_updWeave_self, hy]
    simp

end Sys2Proof.Machine
end

section
/-! PROOFS. `fend` ends fibres, weaves and blocks (O37, R171, R198). -/
namespace Sys2Proof.Machine
variable {s t : State} {k : Iss}

/-! ### Fibres that end -/

/-- Stores of a fibre that has ended stay in a buffer without an owner (R198). -/
def SEntry.disown (w sl : Nat) (e : SEntry) : SEntry := if e.who = some (w, sl) then { e with who := none } else e

/-- A block without the fibre of a slot. -/
def Block.without (b : Block) (w sl : Nat) : Block :=
  { b with sbuf := b.sbuf.map (SEntry.disown w sl) }.updWeave w fun x => { x with fibres := mdel x.fibres sl }

/-- The fibre of a slot has nothing outstanding and no iteration pool. -/
def State.idleAt (s : State) (u w sl : Nat) : Prop := ∀ f, s.fibre? u w sl = some f → f.pend = [] ∧ f.pool = none

theorem flush_of_idle {u w sl : Nat} (h : s.idleAt u w sl) : flush s (.fib u w sl) = (s, []) := by
  have hp : s.pendOf (.fib u w sl) = [] := by
    simp only [State.pendOf]
    cases hf : s.fibre? u w sl with
    | none => rfl
    | some f => exact (h f hf).1
  unfold flush landSel
  simp [hp]

theorem bufOf_block {u w sl : Nat} {x : Weave} (hx : s.weave? u w = some x) (hk : x.kind = .block) : s.bufOf (.fib u w sl) = .block u := by
  obtain ⟨b, hb, hw⟩ := Option.bind_eq_some_iff.mp hx
  unfold State.bufOf
  simp [hb, hw, hk]

/-- A fibre of a block's own weave with nothing outstanding ends. -/
theorem endFibre_of_idle {u w sl : Nat} {x : Weave} (hx : s.weave? u w = some x) (hk : x.kind = .block) (h : s.idleAt u w sl) :
    endFibre s (.fib u w sl) = s.updBlock u fun b => b.without w sl := by
  have hpool (r : State) (hr : r.fibre? u w sl = s.fibre? u w sl) : ((r.fibre? u w sl).bind Fibre.pool).isSome = false := by
    rw [hr]
    cases hf : s.fibre? u w sl with
    | none => rfl
    | some f => simp [(h f hf).2]
  obtain ⟨b, hb, hw⟩ := Option.bind_eq_some_iff.mp hx
  unfold endFibre dropFibre
  simp only [flush_of_idle h, bufOf_block hx hk, State.setBuf, State.buf]
  rw [if_neg, State.updWeave, State.updBlock_updBlock, hb]
  · unfold State.updBlock mupd
    rw [State.block?] at hb
    simp only [hb]
    rfl
  · rw [Bool.not_eq_true]
    refine hpool _ ?_
    unfold State.fibre?
    rw [weave?_updBlock (fun _ => by rfl)]

/-- The fibres of a weave without those of some actors. -/
def endedFibres (l : List Actor) (fs : Map Fibre) : Map Fibre := l.foldl (fun m a => mdel m a.slot) fs

/-- A block without the fibres of some actors of a weave. -/
def Block.ended (b : Block) (w : Nat) (l : List Actor) : Block := l.foldl (fun b a => b.without w a.slot) b

theorem weave?_without {u w sl : Nat} {x : Weave} (hx : s.weave? u w = some x) :
    (s.updBlock u fun b => b.without w sl).weave? u w = some { x with fibres := mdel x.fibres sl } := by
  obtain ⟨b, hb, hw⟩ := Option.bind_eq_some_iff.mp hx
  rw [State.weave?, State.block?_updBlock_of_some hb]
  simp [Block.without, Block.updWeave, hw]

theorem mget_mdel_of_some {α : Type} {m : Map α} {n j : Nat} {v : α} (h : mget (mdel m n) j = some v) : mget m j = some v := by
  by_cases hj : j = n
  · subst hj
    simp at h
  · rwa [mget_mdel_ne _ hj] at h

theorem endFibres_updBlock {u w : Nat} {l : List Actor} {g : Block → Block} {x : Weave} (hl : ∀ a ∈ l, ∃ sl, a = .fib u w sl)
    (hx : (s.updBlock u g).weave? u w = some x) (hk : x.kind = .block) (h : ∀ a ∈ l, (s.updBlock u g).idleAt u w a.slot) :
    l.foldl endFibre (s.updBlock u g) = s.updBlock u fun b => (g b).ended w l := by
  induction l generalizing g x with
  | nil => rfl
  | cons a r ih =>
    obtain ⟨sl, rfl⟩ := hl a (List.mem_cons_self ..)
    have hstep := weave?_without (sl := sl) hx
    have hidle : (s.updBlock u g).idleAt u w sl := h (.fib u w sl) (List.mem_cons_self ..)
    rw [List.foldl_cons, endFibre_of_idle hx hk hidle, State.updBlock_updBlock]
    rw [State.updBlock_updBlock] at hstep
    refine ih (fun b hb => hl b (List.mem_cons_of_mem _ hb)) hstep hk fun b hb f hf => h b (List.mem_cons_of_mem _ hb) f ?_
    rw [State.fibre?, hstep] at hf
    rw [State.fibre?, hx]
    exact mget_mdel_of_some hf

/-- Some fibres of a block's own weave end, one after another. -/
theorem endFibres_of_idle {u w : Nat} {l : List Actor} {x : Weave} (hne : l ≠ []) (hl : ∀ a ∈ l, ∃ sl, a = .fib u w sl) (hx : s.weave? u w = some x)
    (hk : x.kind = .block) (h : ∀ a ∈ l, s.idleAt u w a.slot) : l.foldl endFibre s = s.updBlock u fun b => b.ended w l := by
  obtain ⟨a, r, rfl⟩ := List.exists_cons_of_ne_nil hne
  obtain ⟨sl, rfl⟩ := hl a (List.mem_cons_self ..)
  have hidle : s.idleAt u w sl := h (.fib u w sl) (List.mem_cons_self ..)
  have hstep := weave?_without (sl := sl) hx
  rw [List.foldl_cons, endFibre_of_idle hx hk hidle]
  refine endFibres_updBlock (fun b hb => hl b (List.mem_cons_of_mem _ hb)) hstep hk fun b hb f hf => h b (List.mem_cons_of_mem _ hb) f ?_
  rw [State.fibre?, hstep] at hf
  rw [State.fibre?, hx]
  exact mget_mdel_of_some hf

/-! ### What is left of the block -/

theorem mget_ended (b : Block) (w v : Nat) (l : List Actor) :
    mget (b.ended w l).weaves v = if v = w then (mget b.weaves w).map fun x => { x with fibres := endedFibres l x.fibres } else mget b.weaves v := by
  induction l generalizing b with
  | nil =>
    show mget b.weaves v = _
    split
    · subst_vars
      cases mget b.weaves v <;> rfl
    · rfl
  | cons a r ih =>
    show mget ((b.without w a.slot).ended w r).weaves v = _
    rw [ih]
    unfold Block.without Block.updWeave
    simp only [mget_mupd, if_true, Option.map_map]
    split
    · rfl
    · rfl

theorem mget_endedFibres_self {l : List Actor} {a : Actor} (ha : a ∈ l) (fs : Map Fibre) : mget (endedFibres l fs) a.slot = none := by
  refine foldl_reaches (P := fun _ => True) (Q := fun m : Map Fibre => mget m a.slot = none) (fun _ _ _ _ => trivial) (fun m b _ hm => ?_) ha
    (fun m _ => mget_mdel_self ..) trivial
  by_contra hne
  obtain ⟨f, hf⟩ := Option.ne_none_iff_exists'.mp hne
  rw [mget_mdel_of_some hf] at hm
  cases hm

theorem mget_endedFibres_other {l : List Actor} {sl : Nat} (h : ∀ a ∈ l, a.slot ≠ sl) (fs : Map Fibre) :
    mget (endedFibres l fs) sl = mget fs sl :=
  foldl_same (p := fun m : Map Fibre => mget m sl) (fun _ a ha => mget_mdel_ne _ (h a ha).symm) fs

theorem mem_mdel {α : Type} {m : Map α} {n : Nat} {e : Nat × α} (h : e ∈ mdel m n) : e ∈ m ∧ e.1 ≠ n := by
  induction m with
  | nil => cases h
  | cons i r ih =>
    obtain ⟨j, v⟩ := i
    unfold mdel at h
    split at h
    · obtain ⟨hr, hn⟩ := ih h
      exact ⟨List.mem_cons_of_mem _ hr, hn⟩
    · rename_i hj
      rcases List.mem_cons.mp h with rfl | hr
      · exact ⟨List.mem_cons_self .., hj⟩
      · exact ⟨List.mem_cons_of_mem _ (ih hr).1, (ih hr).2⟩

/-- With every fibre's actor among those that end none is left. -/
theorem endedFibres_eq_nil {l : List Actor} {fs : Map Fibre} (h : ∀ e ∈ fs, ∃ a ∈ l, a.slot = e.1) : endedFibres l fs = [] := by
  rw [List.eq_nil_iff_forall_not_mem]
  have hsub : ∀ (l : List Actor) (fs : Map Fibre), ∀ e ∈ endedFibres l fs, e ∈ fs ∧ ∀ a ∈ l, a.slot ≠ e.1 := by
    intro l
    induction l with
    | nil => exact fun fs e he => ⟨he, fun _ ha => absurd ha (List.not_mem_nil)⟩
    | cons a r ih =>
      intro fs e he
      obtain ⟨hm, hr⟩ := ih (mdel fs a.slot) e he
      obtain ⟨hin, hne⟩ := mem_mdel hm
      refine ⟨hin, fun b hb => ?_⟩
      rcases List.mem_cons.mp hb with rfl | hb
      · exact hne.symm
      · exact hr b hb
  intro e he
  obtain ⟨hin, hout⟩ := hsub l fs e he
  obtain ⟨a, ha, hs⟩ := h e hin
  exact hout a ha hs

/-! ### The end of the instruction -/

/-- The weave behind a `fend` of fibres of its current batch, i: what is left of the batch goes on, else the weave chooses another. -/
def Weave.afterFend (x : Weave) (k : Iss) (i : Nat) (b : Batch) (now : Nat) : Weave :=
  let rest := b.members.filter fun m => !(k.acts.map Actor.slot).contains m
  let y := if rest.isEmpty then (x.splice i []).choose (some b.low) else { x.splice i [b.at rest (k.fall false) b.wd] with cur := some i }
  Weave.settle { y.settle (some b.low) with lastIssue := now } (some b.low)

theorem finish_gone {x : Weave} {i : Nat} {b : Batch} {d : State} (hx : s.weave? k.uid k.w = some x) (hi : x.cur = some i) (hb : x.curBatch = some b)
    (hss : x.ss = false) (hne : k.acts ≠ []) :
    finish s k k.w { st := d, gone := k.acts.map Actor.slot }
      = tryEnd (dropIdle (s.updWeave k.uid k.w fun _ => x.afterFend k i b s.clock) k.uid k.w) k.uid := by
  have hgone : (k.acts.map Actor.slot).isEmpty = false := by simpa using hne
  have hparts : trapParts s k b { st := d, gone := k.acts.map Actor.slot } = [] := rfl
  have hall (l : List Nat) : (l.filter fun m => !([] : List Trp).any fun t => t.who.slot = m) = l := by simp
  unfold finish Weave.afterFend
  simp only [hx, hi, hb, hparts, hss, hgone, hall]
  generalize hrest : (b.members.filter fun m => !(k.acts.map Actor.slot).contains m) = rest
  cases he : rest.isEmpty with
  | true =>
    obtain rfl := List.isEmpty_iff.mp he
    simp [causesOf, sortNat, State.updWeave_updWeave, targets]
  | false =>
    have hfall := targets_fall k { st := d, gone := k.acts.map Actor.slot } rfl (List.isEmpty_eq_false_iff.mp he)
    simp [hfall, causesOf, sortNat, State.updWeave_updWeave]

end Sys2Proof.Machine
end

section
/-! PROOFS. What a `fork` and a `fend` leave (O37). -/
namespace Sys2Proof.Machine
variable {s t : State} {k : Iss}

theorem unsched_afterFend (x : Weave) (k : Iss) (i : Nat) (b : Batch) (now : Nat) : (x.afterFend k i b now).unsched = x.unsched := by
  have hlast (y : Weave) : ({ y with lastIssue := now } : Weave).unsched = y.unsched := rfl
  unfold Weave.afterFend
  dsimp only
  rw [unsched_settle, hlast, unsched_settle]
  split
  · rw [unsched_choose]
    rfl
  · rfl

theorem fibres_of_unsched {x y : Weave} (h : y.unsched = x.unsched) : y.fibres = x.fibres := (congrArg Weave.fibres h :)

theorem kind_of_unsched {x y : Weave} (h : y.unsched = x.unsched) : y.kind = x.kind := (congrArg Weave.kind h :)

/-- The fibres of the batch that do not end stand behind the `fend`. -/
theorem standsAt_afterFend {x : Weave} {i : Nat} {b : Batch} (now : Nat) (hb : x.batches[i]? = some b) {sl : Nat} (hm : sl ∈ b.members)
    (hstay : sl ∉ k.acts.map Actor.slot) : (x.afterFend k i b now).standsAt sl (k.fall false).pc := by
  have hrest : sl ∈ b.members.filter fun m => !(k.acts.map Actor.slot).contains m := List.mem_filter.mpr ⟨hm, by simpa using hstay⟩
  have hne : (b.members.filter fun m => !(k.acts.map Actor.slot).contains m).isEmpty = false :=
    List.isEmpty_eq_false_iff.mpr (List.ne_nil_of_mem hrest)
  have hc := curBatch_splice (c := b.at (b.members.filter fun m => !(k.acts.map Actor.slot).contains m) (k.fall false) b.wd) (r := []) hb
  unfold Weave.afterFend
  simp only [hne, Bool.false_eq_true, if_false]
  rw [Weave.settle_of_runnable _ hc rfl, Weave.settle_of_runnable _ (b := b.at _ (k.fall false) b.wd) (by exact hc) rfl]
  exact standsAt_of_mem (b := b) (wd := b.wd) (by simp [Weave.splice]) hrest

/-! ### `fend` -/

/-- The state behind a `fend` before the block may end: its actors' fibres are gone, and their batch is what is left of it. -/
def fendState (k : Iss) (s : State) (x : Weave) (i : Nat) (b : Batch) : State :=
  (s.updBlock k.uid fun y => y.ended k.w k.acts).updWeave k.uid k.w fun _ =>
    { x with fibres := endedFibres k.acts x.fibres }.afterFend k i b s.clock

theorem weave?_fendState {x : Weave} (hx : s.weave? k.uid k.w = some x) (i : Nat) (b : Batch) :
    (fendState k s x i b).weave? k.uid k.w = some ({ x with fibres := endedFibres k.acts x.fibres }.afterFend k i b s.clock) := by
  obtain ⟨y, hy, hw⟩ := Option.bind_eq_some_iff.mp hx
  unfold fendState
  rw [State.weave?_updWeave_self, State.weave?, State.block?_updBlock_of_some hy, Option.bind_some, mget_ended, if_pos rfl, hw]
  rfl

theorem fend_ends {g : Guard} {x : Weave} (h : readyFib (.fend g) s = some k) (hx : s.weave? k.uid k.w = some x) (hk : x.kind = .block)
    (hidle : ∀ a ∈ k.acts, ∀ f, s.fib? a = some f → f.pend = [] ∧ f.pool = none) :
    ∃ i b, x.batches[i]? = some b ∧ k.batch = b.members.map (.fib k.uid k.w) ∧ exec (.fend g) s = .next (tryEnd (fendState k s x i b) k.uid) := by
  obtain ⟨i, b, hcursor, -, hne, hbatch, -⟩ := readyFib_batch h
  obtain ⟨x', hx', hi, hbi, hb, hss⟩ := cursor_weave hcursor
  obtain rfl : x' = x := Option.some.inj (hx'.symm.trans hx)
  have hl := acts_of h
  have hends := endFibres_of_idle hne hl hx hk fun a ha f hf => by
    obtain ⟨sl, rfl⟩ := hl a ha
    exact hidle _ ha f hf
  have hweave : (s.updBlock k.uid fun y => y.ended k.w k.acts).weave? k.uid k.w = some { x' with fibres := endedFibres k.acts x'.fibres } := by
    obtain ⟨y, hy, hw⟩ := Option.bind_eq_some_iff.mp hx
    rw [State.weave?, State.block?_updBlock_of_some hy, Option.bind_some, mget_ended, if_pos rfl, hw]
    rfl
  have hkeep : dropIdle (fendState k s x' i b) k.uid k.w = fendState k s x' i b := by
    unfold dropIdle
    rw [weave?_fendState hx i b]
    dsimp only
    rw [if_neg]
    rw [kind_of_unsched (unsched_afterFend ..)]
    simp [hk]
  refine ⟨i, b, hbi, hbatch, ?_⟩
  have hexec : exec (.fend g) s = execFend g s := rfl
  rw [hexec, execFend, issue_readyFib h]
  dsimp only
  rw [hends, finish_gone (x := { x' with fibres := endedFibres k.acts x'.fibres }) hweave hi hb hss hne]
  exact congrArg (fun t => Host.Outcome.next (tryEnd t k.uid)) hkeep

/-- A block with a fibre left is not over. -/
theorem tryEnd_of_fibre {u w sl : Nat} {x : Weave} {f : Fibre} (hx : s.weave? u w = some x) (hf : mget x.fibres sl = some f) : tryEnd s u = s := by
  obtain ⟨b, hb, hw⟩ := Option.bind_eq_some_iff.mp hx
  have hleft : (b.weaves.all fun w => w.2.fibres.isEmpty) = false := by
    rw [List.all_eq_false]
    refine ⟨_, Tests.mget_mem _ _ _ hw, ?_⟩
    rw [List.isEmpty_iff]
    rintro he
    rw [he] at hf
    cases hf
  unfold tryEnd Block.over
  simp [hb, hleft]

/-! ### The end of a block -/

theorem commitBuf_empty {u : Nat} {b : Block} (hb : s.block? u = some b) (he : b.sbuf = []) :
    commitBuf s (.block u) = (s.setBuf (.block u) []).updBlock u fun b => { b with wopen := false } := by
  have hl : s.buf (.block u) = [] := by rw [State.buf, hb]; exact he
  have hdrain (r : State) (c : Nat) : drain r u c [] = r := by
    unfold drain
    cases r.block? u <;> rfl
  unfold commitBuf
  rw [hl]
  exact congrArg (fun r => State.updBlock r u fun b => { b with wopen := false }) (hdrain ..)

theorem launch?_updLaunch (s : State) (c lid : Nat) {f : Launch → Launch} (hf : ∀ l, (f l).lid = l.lid) :
    (s.updLaunch c lid f).launch? c lid = (s.launch? c lid).map f := by
  unfold State.updLaunch State.launch?
  rw [State.ctx?_updCtx_self]
  cases s.ctx? c with
  | none => rfl
  | some x =>
    simp only [Option.map_some, Option.bind_some, List.find?_map]
    have hsame : ((fun l : Launch => decide (l.lid = lid)) ∘ fun l => if l.lid = lid then f l else l) = fun l => decide (l.lid = lid) := by
      funext l
      by_cases h : l.lid = lid <;> simp [h, hf]
    rw [hsame]
    cases hl : x.launches.find? fun l => decide (l.lid = lid) with
    | none => rfl
    | some l =>
      have := List.find?_some hl
      simp_all

/-- A block without pools and commands under way leaves its core: it is gone, and the launches are as they were. -/
theorem unplace_idle {u : Nat} {b : Block} (hb : s.block? u = some b) (hp : b.openPools = []) (hr : b.running = []) :
    (unplace s u).block? u = none ∧ (unplace s u).ctxs = s.ctxs := by
  unfold unplace
  simp only [hb, hp, hr, List.foldl_nil]
  refine ⟨?_, rfl⟩
  simp [State.block?, tidyCores]

/-- The end of a block that is over, with nothing in its buffer and no refusal under way. -/
theorem tryEnd_over {u : Nat} {b : Block} {l : Launch} (hb : s.block? u = some b) (ho : b.over = true) (he : b.sbuf = []) (hfib : ∀ w ∈ b.weaves, w.2.fibres = [])
    (hin : s.inbox = []) (hl : s.launch? b.ctx b.lid = some l) :
    (tryEnd s u).block? u = none ∧ ((tryEnd s u).launch? b.ctx b.lid).map Launch.ended = some (l.ended + 1) := by
  have hcommit := commitBuf_empty hb he
  have hinbox : (commitBuf s (.block u)).inbox = [] := by rw [hcommit]; exact hin
  have hctxs : (commitBuf s (.block u)).ctxs = s.ctxs := by rw [hcommit]; rfl
  have hblock : (commitBuf s (.block u)).block? u = some { b with sbuf := [], wopen := false } := by
    rw [hcommit, State.block?_updBlock_self, State.setBuf, State.block?_updBlock_of_some hb]
    rfl
  have hrun : b.running = [] := by
    unfold Block.over at ho
    simp only [Bool.and_eq_true, List.isEmpty_iff] at ho
    exact ho.1.2
  have hpools : ({ b with sbuf := [], wopen := false } : Block).openPools = [] := by
    unfold Block.openPools
    simp only [List.flatMap_eq_nil_iff]
    intro w hw
    rw [hfib w hw]
    rfl
  obtain ⟨hgone, hkept⟩ := unplace_idle hblock hpools hrun
  have htry : tryEnd s u = (leaveRoots (unplace (commitBuf s (.block u)) u) u).updLaunch b.ctx b.lid fun l => { l with ended := l.ended + 1 } := by
    unfold tryEnd dropBlock
    simp only [hb, ho, if_true, hinbox, hblock, List.any_nil, Bool.false_eq_true, if_false]
  rw [htry]
  refine ⟨hgone, ?_⟩
  rw [launch?_updLaunch _ _ _ fun _ => by rfl]
  have hsame : (leaveRoots (unplace (commitBuf s (.block u)) u) u).launch? b.ctx b.lid = s.launch? b.ctx b.lid := by
    show ((mget (unplace (commitBuf s (.block u)) u).ctxs b.ctx).bind fun x => x.launches.find? fun l => l.lid = b.lid) = _
    rw [hkept, hctxs]
    rfl
  rw [hsame, hl]
  rfl

theorem mupd_one {α : Type} (n : Nat) (v : α) (f : α → α) : mupd [(n, v)] n f = [(n, f v)] := by
  simp [mupd, mget, mput]

/-- A block of one weave and no buffered stores without some of its fibres. -/
theorem ended_of_one {b : Block} {w : Nat} {x : Weave} (hw : b.weaves = [(w, x)]) (he : b.sbuf = []) (l : List Actor) :
    b.ended w l = { b with weaves := [(w, { x with fibres := endedFibres l x.fibres })] } := by
  induction l generalizing b x with
  | nil =>
    show b = { b with weaves := [(w, x)] }
    rw [← hw]
  | cons a r ih =>
    have hone : b.without w a.slot = { b with weaves := [(w, { x with fibres := mdel x.fibres a.slot })] } := by
      unfold Block.without Block.updWeave
      simp only [hw, he, List.map_nil, mupd_one]
    show (b.without w a.slot).ended w r = _
    rw [hone]
    exact ih (b := { b with weaves := [(w, { x with fibres := mdel x.fibres a.slot })] }) rfl he

/-- The only weave's last fibres end, and with them the block. -/
theorem fendState_over {x : Weave} {b : Block} {i : Nat} {c : Batch} (hb : s.block? k.uid = some b) (hw : b.weaves = [(k.w, x)]) (he : b.sbuf = [])
    (hall : ∀ e ∈ x.fibres, .fib k.uid k.w e.1 ∈ k.acts) : ∃ y : Weave, y.fibres = []
      ∧ (fendState k s x i c).block? k.uid = some { b with weaves := [(k.w, y)] } := by
  have hnil : endedFibres k.acts x.fibres = [] := endedFibres_eq_nil fun e he => ⟨_, hall e he, rfl⟩
  refine ⟨_, (fibres_of_unsched (unsched_afterFend { x with fibres := endedFibres k.acts x.fibres } k i c s.clock)).trans hnil, ?_⟩
  unfold fendState State.updWeave
  rw [State.block?_updBlock_self, State.block?_updBlock_of_some hb, ended_of_one hw he, Option.map_some, Block.updWeave, mupd_one]

/-! ### The whole statement -/

theorem forkEffect_one (src dst : BitVec 7) (pc : Word) {r : State} {a : Actor} (hacts : k.acts = [a]) :
    forkEffect src dst pc k s r
      = kidBatches (forkOne k.uid k.w dst (fun a => s.src a (plainSrc src false)) { st := r.noteAll k.pc [a] [plainSrc src false] } a).st k.uid pc
          (forkOne k.uid k.w dst (fun a => s.src a (plainSrc src false)) { st := r.noteAll k.pc [a] [plainSrc src false] } a).kids := by
  unfold forkEffect forkKids
  rw [hacts]
  rfl

/-- What a lone participant's `fork` leaves with no slot idle. -/
theorem fork_full {src dst : BitVec 7} {pc : Word} {r : State} {sl : Nat} {b : Block} {f : Fibre} (h : device s r) (hacts : k.acts = [.fib k.uid k.w sl])
    (hb : s.block? k.uid = some b) (hf : s.fibre? k.uid k.w sl = some f) (hk : f.kind = .block) (hn : mget f.binds dst.toNat = none)
    (hfull : childSlot b k.w = none) :
    (forkEffect src dst pc k s r).reg? k.uid k.w sl dst.toNat = some (.live (BitVec.allOnes 64)) := by
  obtain ⟨hkids, hreg⟩ := forkOne_full (fun a => s.src a (plainSrc src false)) (forkParent_of_device h hf hk hn k.pc src) hb hfull
  rw [forkEffect_one src dst pc hacts, hkids]
  exact hreg

/-- What it leaves where a slot is idle. -/
theorem fork_child {src dst : BitVec 7} {pc : Word} {r : State} {sl cw csl : Nat} {b : Block} {f : Fibre} (h : device s r)
    (hacts : k.acts = [.fib k.uid k.w sl]) (hb : s.block? k.uid = some b) (hf : s.fibre? k.uid k.w sl = some f) (hk : f.kind = .block)
    (hn : mget f.binds dst.toNat = none) (hs : childSlot b k.w = some (cw, csl)) :
    let d := forkEffect src dst pc k s r
    d.reg? k.uid k.w sl dst.toNat = some (.live (ofNat64 (32 * cw + csl)))
      ∧ d.fibre? k.uid cw csl = some (Fibre.start .block (32 * cw + csl) [(0, .live (s.src (.fib k.uid k.w sl) (plainSrc src false)))])
      ∧ ∃ y, d.weave? k.uid cw = some y ∧ ∃ e ∈ y.batches, e = Batch.start [csl] pc := by
  obtain ⟨hkids, hreg, hchild⟩ := forkOne_child (fun a => s.src a (plainSrc src false)) (forkParent_of_device h hf hk hn k.pc src) hb hs
  dsimp only
  rw [forkEffect_one src dst pc hacts, hkids, kidBatches_one]
  have hkeep (t : State) := fibre?_updWeave_keep (s := t) (u := k.uid) (w := cw) (f := fun x => x.addBatch (Batch.start [csl] pc)) fun _ => rfl
  refine ⟨?_, ?_, ?_⟩
  · rw [State.reg?, hkeep]
    exact hreg
  · rw [hkeep]
    exact hchild
  · obtain ⟨y, hy, -⟩ := Option.bind_eq_some_iff.mp hchild
    exact ⟨_, by rw [State.weave?_updWeave_self, hy]; rfl, _, by simp [Weave.addBatch], rfl⟩

/-- Settles O37: a `fork` leaves its parent's batch current (`fork_completes`), and a `fend` leaves its weave without the fibres that ended
(`fend_ends`); with none left in the block `tryEnd_over` says what becomes of it. -/
theorem forkFend : Obligations.ForkFend := by
  unfold Obligations.ForkFend
  refine ⟨fun g src dst off s k h hcheck hroom => ?_, fun g s k x h hx hk hidle => ⟨?_, ?_⟩⟩
  · have hr := Prod.ext (x := targetCheck s k.uid (s.coreOf (k.acts.headD (.seq 0))) (s.ctxOf k.uid) (k.pc + off.signExtend 64)) (y := (_, none)) rfl hcheck
    refine ⟨_, fork_completes h hroom hr, fun a b f hacts hb hf hkind hn => ?_⟩
    obtain ⟨sl, rfl⟩ := acts_of h a (hacts ▸ List.mem_singleton_self a)
    have hdev := targetCheck_device (uid := k.uid) (c := s.coreOf (k.acts.headD (.seq 0))) (ctx := s.ctxOf k.uid) (pc := k.pc + off.signExtend 64)
      (device.refl (s := s))
    exact ⟨fork_full hdev hacts hb hf hkind hn, fun cw csl hs => fork_child hdev hacts hb hf hkind hn hs⟩
  · rintro ⟨sl, f, hf, hout⟩
    obtain ⟨i, b, hb, hbatch, hexec⟩ := fend_ends h hx hk hidle
    have hweave := weave?_fendState hx i b
    have hfibres := fibres_of_unsched (unsched_afterFend { x with fibres := endedFibres k.acts x.fibres } k i b s.clock)
    have hstay {m : Nat} (hm : .fib k.uid k.w m ∉ k.acts) : ∀ a ∈ k.acts, a.slot ≠ m := by
      rintro a ha rfl
      obtain ⟨j, rfl⟩ := acts_of h a ha
      exact hm ha
    have hleft : mget ({ x with fibres := endedFibres k.acts x.fibres }.afterFend k i b s.clock).fibres sl = some f := by
      rw [hfibres]
      exact (mget_endedFibres_other (hstay hout) _).trans hf
    rw [tryEnd_of_fibre hweave hleft] at hexec
    refine ⟨_, _, hexec, hweave, fun a ha => ?_, fun m hm => ?_, fun a ha hnot => ?_⟩
    · rw [hfibres]
      exact mget_endedFibres_self ha _
    · rw [hfibres]
      exact mget_endedFibres_other (hstay hm) _
    · obtain ⟨m, hm, rfl⟩ := List.mem_map.mp (hbatch ▸ ha)
      refine standsAt_afterFend (x := { x with fibres := endedFibres k.acts x.fibres }) s.clock hb hm ?_
      intro hin
      obtain ⟨a, ha, he⟩ := List.mem_map.mp hin
      exact hstay hnot a ha he
  · intro b l hb hweaves hall hxbuf hbuf hstream hcp hmm hrun hgrun hin hl
    obtain ⟨i, c, -, -, hexec⟩ := fend_ends h hx hk hidle
    obtain ⟨y, hy, hblock⟩ := fendState_over (i := i) (c := c) hb hweaves hbuf hall
    have hover : ({ b with weaves := [(k.w, y)] } : Block).over = true := by simp [Block.over, hy, hstream, hcp, hmm, hrun, hgrun]
    exact ⟨_, hexec, tryEnd_over (b := { b with weaves := [(k.w, y)] }) hblock hover hbuf (by simp [hy]) hin hl⟩

end Sys2Proof.Machine
end

section
/-! SUPPORT. What leaves the message queues of cores alone: the caches, writes of the device, records and late packets (`queues`). -/
namespace Sys2Proof.Machine

/-- Every core has the queue of messages that it had. -/
def queues (s t : State) : Prop := ∀ c, (t.core c).inq = (s.core c).inq

section
variable {s t : State}

theorem queues.refl (s : State) : queues s s := fun _ => rfl

theorem queues.trans {r : State} (h : queues s t) (g : queues t r) : queues s r := fun c => (g c).trans (h c)

theorem queues.still {r : State} (h : queues s t) (g : r.cores = t.cores) : queues s r := h.trans fun c => by rw [State.core, State.core, g]

theorem foldl_queues {α : Type} {f : State → α → State} {l : List α} (hf : ∀ t a, queues s t → queues s (f t a)) (h : queues s t) :
    queues s (l.foldl f t) :=
  List.foldlRecOn (motive := queues s) l f h fun t ht a _ => hf t a ht

theorem updCore_queues {c : Nat} {f : Core → Core} (hf : ∀ x, (f x).inq = x.inq) (h : queues s t) : queues s (t.updCore c f) := by
  refine h.trans fun d => ?_
  by_cases hd : d = c
  · subst hd
    rw [State.core_updCore_self, hf]
  · rw [State.core_updCore_ne _ _ hd]

/-- A change of every core that leaves its queue alone. -/
theorem mmapCores_queues {f : Nat → Core → Core} (hf : ∀ c x, (f c x).inq = x.inq) (h : queues s t) :
    queues s { t with cores := mmap t.cores f } := by
  refine h.trans fun c => ?_
  unfold State.core
  rw [mget_mmap]
  cases mget t.cores c with
  | none => rfl
  | some x => exact hf c x

/-! ### Caches -/

theorem homeTouch_queues {line : Nat} (h : queues s t) : queues s (homeTouch t line) := by
  unfold homeTouch
  dsimp only
  split
  · exact h.still rfl
  · exact mmapCores_queues (fun _ _ => rfl) (h.still rfl)

theorem toHome_queues {line : Nat} (h : queues s t) : queues s (toHome t line) := (homeTouch_queues h).still rfl

theorem probeIf_queues {line : Nat} {p : Nat → Bool} (h : queues s t) : queues s (probeIf t line p) := by
  have hall : queues s (probeAll t line p) := mmapCores_queues (fun c x => by split <;> rfl) h
  unfold probeIf
  split
  · exact toHome_queues hall
  · exact hall

theorem setL1_queues {c : Nat} {f : List (Nat × LineSt) → List (Nat × LineSt)} (h : queues s t) : queues s (setL1 t c f) :=
  foldl_queues (fun _ _ => toHome_queues) (updCore_queues (fun _ => rfl) h)

theorem l1Install_queues {c line : Nat} {st : LineSt} (h : queues s t) : queues s (l1Install t c line st) := setL1_queues h

theorem deliverReply_queues {c line : Nat} (h : queues s t) : queues s (deliverReply t c line) := by
  have hput {r : State} (st : LineSt) (hr : queues s r) : queues s (if (r.core c).l1.any fun e => e.1 = line then r else l1Install r c line st) := by
    split
    · exact hr
    · exact l1Install_queues hr
  unfold deliverReply
  split
  · exact h
  · split
    · exact h
    · dsimp only
      split
      · exact hput _ (updCore_queues (fun _ => rfl) (h.still rfl))
      · exact probeIf_queues (hput _ (updCore_queues (fun _ => rfl) (h.still rfl)))

theorem repliesArrive_queues {line : Nat} (h : queues s t) : queues s (repliesArrive t line) := by
  refine foldl_queues (fun r e hr => ?_) h
  split
  · exact foldl_queues (fun _ _ => deliverReply_queues) hr
  · exact hr

theorem collapseLine_queues {line : Nat} {keep : Option Nat} (h : queues s t) : queues s (collapseLine t line keep) := by
  unfold collapseLine
  dsimp only
  split
  · exact h
  · have hdropped : queues s { t with replicas := t.replicas.filter fun r => r.2 != line, sharers := t.sharers.filter fun r => r.2.1 != line } :=
      h.still rfl
    exact queues.still (probeIf_queues hdropped) rfl

theorem serveOwn_queues {c : Option Nat} {line : Nat} (h : queues s t) : queues s (serveOwn t c line) :=
  probeIf_queues (collapseLine_queues (homeTouch_queues (queues.still (repliesArrive_queues h) rfl)))

theorem ownTouch_queues {c : Option Nat} {pa : Nat} (h : queues s t) : queues s (ownTouch t c pa) := by
  have hown (held : Bool) : queues s (if held then t else serveOwn t c (lineOf pa)) := by
    split
    · exact h
    · exact serveOwn_queues h
  have hkeep {r : State} (hr : queues s r) (c line : Nat) :
      queues s (if boundAny r line then toHome (l1Install r c line .s) line else l1Install r c line .m) := by
    split
    · exact toHome_queues (l1Install_queues hr)
    · exact l1Install_queues hr
  unfold ownTouch
  dsimp only
  split
  · exact h
  · cases c with
    | none => exact toHome_queues (hown _)
    | some c => exact hkeep (hown _) c _

/-! ### Writes of the device -/

theorem rawWrite_queues {pa : Nat} {data : List Byte} (h : queues s t) : queues s (rawWrite t pa data) := by
  unfold rawWrite
  split
  · split
    · exact foldl_queues (fun _ _ ht => ht.still rfl) h
    · exact h
  · split
    · exact h
    · split <;> exact h.still rfl

theorem devWrite_queues {pa : Nat} {data : List Byte} (h : queues s t) : queues s (devWrite t pa data) :=
  queues.still (rawWrite_queues (ownTouch_queues (c := none) (pa := pa) h)) rfl

theorem updCtx_queues {ctx : Nat} {f : Ctx → Ctx} (h : queues s t) : queues s (t.updCtx ctx f) := h.still rfl

theorem sendUz_queues {session ty status : Nat} {req : Word} {body : List Byte} (h : queues s t) : queues s (sendUz t session ty status req body) :=
  h.still rfl

theorem writeRecord_queues {ctx : Nat} {r : Rec} {await : Bool} (h : queues s t) : queues s (writeRecord t ctx r await).1 := by
  unfold writeRecord
  split
  · exact h
  · dsimp only
    have hposts {t : State} {l : List Nat} (ht : queues s t) : queues s (l.foldl (fun s o => s.post (.recordCompletion ctx o)) t) :=
      foldl_queues (fun _ _ hr => hr.still rfl) ht
    split
    · exact sendUz_queues (updCtx_queues (hposts (updCtx_queues (devWrite_queues (devWrite_queues h)))))
    · exact hposts (updCtx_queues (devWrite_queues (devWrite_queues h)))

theorem latePacket_queues {x : Packet} (h : queues s t) : queues s (latePacket t x) := by
  unfold latePacket
  split
  · exact h
  · dsimp only
    split
    · exact writeRecord_queues (h.still rfl)
    · exact h.still rfl

theorem msgServed_queues {m : Msg} (h : queues s t) : queues s (msgServed t m) := by
  unfold msgServed
  split
  · exact latePacket_queues h
  · exact h

theorem msgServed_device {m : Msg} (h : device s t) : device s (msgServed t m) := by
  unfold msgServed
  split
  · exact latePacket_device h
  · exact h

end

end Sys2Proof.Machine
end

section
/-! SUPPORT. What the operations on a resident block leave of every block: where it stands, whose it is, and whether it is stopped or saved (`lives`). -/
namespace Sys2Proof.Machine

/-- Whose a block is, where it stands, and whether it is asked to stop and be saved. -/
def Block.fixed (b : Block) : Nat × Nat × Nat × Nat × Bool × Bool × Option (Nat × Nat) := (b.ctx, b.lid, b.idx, b.core, b.landing, b.stop, b.saving)

/-- Every block, frame and pool of frames is what it was, but for what runs in the blocks and for the bytes of frames. -/
structure lives (s t : State) : Prop where
  blocks : ∀ u, (t.block? u).map Block.fixed = (s.block? u).map Block.fixed
  entries : ∀ e ∈ t.blocks, ∃ b, (e.1, b) ∈ s.blocks ∧ b.fixed = e.2.fixed
  frames : ∀ k, (mget t.frames k).map Frame.holding = (mget s.frames k).map Frame.holding
  areas : ∀ c, (t.ctx? c).map Ctx.area = (s.ctx? c).map Ctx.area

theorem mem_mput {α : Type} {m : Map α} {n : Nat} {v : α} {e : Nat × α} (h : e ∈ mput m n v) : e = (n, v) ∨ e ∈ m := by
  induction m with
  | nil => exact .inl (List.mem_singleton.mp h)
  | cons i r ih =>
    obtain ⟨j, w⟩ := i
    unfold mput at h
    split at h
    · rcases List.mem_cons.mp h with rfl | h
      · exact .inl rfl
      · exact .inr (List.mem_cons_of_mem _ h)
    · split at h
      · rcases List.mem_cons.mp h with rfl | h
        · exact .inl rfl
        · exact .inr h
      · rcases List.mem_cons.mp h with rfl | h
        · exact .inr (List.mem_cons_self ..)
        · exact (ih h).imp id fun h => List.mem_cons_of_mem _ h

theorem lives.refl (s : State) : lives s s := ⟨fun _ => rfl, fun e he => ⟨e.2, he, rfl⟩, fun _ => rfl, fun _ => rfl⟩

theorem lives.trans {s t r : State} (h : lives s t) (g : lives t r) : lives s r where
  blocks u := (g.blocks u).trans (h.blocks u)
  entries e he := by
    obtain ⟨b, hb, hf⟩ := g.entries e he
    obtain ⟨c, hc, hg⟩ := h.entries _ hb
    exact ⟨c, hc, hg.trans hf⟩
  frames k := (g.frames k).trans (h.frames k)
  areas c := (g.areas c).trans (h.areas c)

theorem alike.lives {s t : State} (h : alike s t) : lives s t where
  blocks u := by rw [State.block?, State.block?, h.blocks]
  entries e he := ⟨e.2, by rwa [h.blocks] at he, rfl⟩
  frames := h.frames
  areas := h.areas

/-- A change of every block that leaves all of this alone. -/
theorem mmapBlocks_lives {s t : State} {f : Nat → Block → Block} (hf : ∀ u b, (f u b).fixed = b.fixed) (h : lives s t) :
    lives s { t with blocks := mmap t.blocks f } := by
  refine h.trans ⟨fun u => ?_, fun e he => ?_, fun _ => rfl, fun _ => rfl⟩
  · simp [State.block?, mget_mmap, Function.comp_def, hf]
  · obtain ⟨i, hi, rfl⟩ := List.mem_map.mp he
    exact ⟨i.2, hi, (hf ..).symm⟩

theorem device.lives {s t : State} (h : device s t) : lives s t := by
  induction h with
  | refl => exact .refl s
  | still _ ha ih => exact ih.trans ha.lives
  | push pa n _ ih => exact mmapBlocks_lives (fun _ _ => rfl) ih

section
variable {s t : State}

theorem lives.on {r : State} (h : lives s t) (g : device t r) : lives s r := h.trans g.lives

theorem lives.cached {r : State} (h : lives s t) (g : cacheOnly t r) : lives s r := h.trans g.alike.lives

theorem foldl_lives {α : Type} {f : State → α → State} {l : List α} (hf : ∀ t a, lives s t → lives s (f t a)) (h : lives s t) :
    lives s (l.foldl f t) :=
  List.foldlRecOn (motive := lives s) l f h fun t ht a _ => hf t a ht

theorem updBlock_lives {u : Nat} {f : Block → Block} (hf : ∀ b, t.block? u = some b → (f b).fixed = b.fixed) (h : lives s t) :
    lives s (t.updBlock u f) := by
  refine h.trans ⟨fun v => ?_, fun e he => ?_, fun _ => rfl, fun _ => rfl⟩
  · by_cases hv : v = u
    · subst hv
      rw [State.block?_updBlock_self]
      cases hb : t.block? v with
      | none => rfl
      | some b => exact congrArg some (hf b hb)
    · rw [State.block?_updBlock_ne _ _ hv]
  · unfold State.updBlock mupd at he
    split at he
    · rename_i b hb
      rcases mem_mput he with rfl | he
      · exact ⟨b, Tests.mget_mem _ _ _ hb, (hf b hb).symm⟩
      · exact ⟨e.2, he, rfl⟩
    · exact ⟨e.2, he, rfl⟩

theorem updWeave_lives {u w : Nat} {f : Weave → Weave} (h : lives s t) : lives s (t.updWeave u w f) := updBlock_lives (fun _ _ => rfl) h

theorem updFibre_lives {u w sl : Nat} {f : Fibre → Fibre} (h : lives s t) : lives s (t.updFibre u w sl f) := updWeave_lives h

theorem updStream_lives {u : Nat} {f : Stream → Stream} (h : lives s t) : lives s (t.updStream u f) := updBlock_lives (fun _ _ => rfl) h

theorem updCore_lives {c : Nat} {f : Core → Core} (h : lives s t) : lives s (t.updCore c f) := h.on (updCore_device .refl)

theorem post_lives {i : Instr} (h : lives s t) : lives s (t.post i) := h.on (post_device .refl)

theorem updFib_lives {a : Actor} {f : Fibre → Fibre} (h : lives s t) : lives s (t.updFib a f) := by
  cases a with
  | fib u w sl => exact updFibre_lives h
  | seq u => exact h

theorem updPend_lives {a : Actor} {f : List Pend → List Pend} (h : lives s t) : lives s (t.updPend a f) := by
  cases a with
  | fib u w sl => exact updFibre_lives h
  | seq u => exact updStream_lives h

theorem wakeIf_lives {u : Nat} {p : Wait → Bool} (h : lives s t) : lives s (wakeIf t u p) := updBlock_lives (fun _ _ => rfl) h

/-! ### Store buffers -/

theorem setBuf_lives {q : Buf} {l : List SEntry} (h : lives s t) : lives s (t.setBuf q l) := by
  cases q with
  | block u => exact updBlock_lives (fun _ _ => rfl) h
  | weave u w => exact updWeave_lives h

theorem commitBuf_lives {q : Buf} (h : lives s t) : lives s (commitBuf t q) :=
  updBlock_lives (fun _ _ => rfl) ((setBuf_lives h).on (drain_device .refl))

theorem forcedCommit_lives {q : Buf} (h : lives s t) : lives s (forcedCommit t q) := (commitBuf_lives h).on (updCtx_device (fun _ => rfl) .refl)

theorem bufStore_lives {q : Buf} {pa : Nat} {data : List Byte} {who : Option (Nat × Nat)} {helper : Bool} (h : lives s t) :
    lives s (bufStore t q pa data who helper) := by
  have hforced : lives s (if bufFull t q (lineOf pa) then forcedCommit t q else t) := by
    split
    · exact forcedCommit_lives h
    · exact h
  have hdiscard {r : State} (hr : lives s r) :
      lives s (match who with | some (w, sl) => r.updFibre q.uid w sl fun f => f.discards pa data.length | none => r) := by
    split
    · exact updFibre_lives hr
    · exact hr
  have hcount {r : State} (hr : lives s r) : lives s (r.updBlock q.uid fun b => { b with stseq := b.stseq + 1 }) := updBlock_lives (fun _ _ => rfl) hr
  unfold bufStore
  dsimp only
  generalize (if bufFull t q (lineOf pa) then forcedCommit t q else t) = r at hforced ⊢
  split
  · exact commitBuf_lives (setBuf_lives (hcount (hdiscard hforced)))
  · exact (setBuf_lives (hcount (hdiscard hforced))).cached ((cacheOnly.rfl' _).setL1 _ _)

/-! ### Results -/

theorem writeW_lives {a : Actor} {n : Nat} {v : Word} (h : lives s t) : lives s (t.writeW a n v) := by
  unfold State.writeW
  split
  · split
    · exact h
    · exact updStream_lives h
  · split
    · exact h
    · dsimp only
      split
      · exact commitBuf_lives (bufStore_lives (updFib_lives (updFibre_lives h)))
      · exact updFibre_lives (updFibre_lives h)

theorem writeK_lives {u w n : Nat} {v : Word} (h : lives s t) : lives s (t.writeK u w n v) := by
  unfold State.writeK
  split
  · exact h
  · exact updWeave_lives h

theorem setPreds_lives {a : Actor} {p : BitVec 16} (h : lives s t) : lives s (t.setPreds a p) := by
  cases a with
  | fib u w sl => exact updFibre_lives h
  | seq u => exact updStream_lives h

theorem writeP_lives {a : Actor} {n : Nat} {v : Bool} (h : lives s t) : lives s (t.writeP a n v) := by
  unfold State.writeP
  split
  · exact h
  · cases a with
    | fib u w sl => exact updFibre_lives (setPreds_lives h)
    | seq u => exact updStream_lives (setPreds_lives h)

theorem raise_lives {a : Actor} {fl : FFlags} (h : lives s t) : lives s (t.raise a fl) := by
  cases a with
  | fib u w sl => exact updWeave_lives h
  | seq u => exact h

theorem setMark_lives {u m n : Nat} {w : Option Nat} (h : lives s t) : lives s (t.setMark u w m n) := by
  cases w with
  | none => exact updStream_lives h
  | some w => exact updWeave_lives h

theorem deliverOps_lives {op : Nat} (h : lives s t) : lives s (deliverOps t op) :=
  foldl_lives (fun _ _ hr => foldl_lives (fun _ _ hq => hq.cached ((cacheOnly.rfl' _).deliverThrough _ _)) hr) h

theorem completeOp_lives {u op : Nat} (h : lives s t) : lives s (completeOp t u op) := by
  have hops {r : State} (hr : lives s r) : lives s (r.updBlock u fun b => { b with ops := mdel b.ops op, lreads := mdel b.lreads op }) :=
    updBlock_lives (fun _ _ => rfl) hr
  have hmark {r : State} {w : Option Nat} {m n : Nat} (hr : lives s r) : lives s (if m < 12 then r.setMark u w m n else r) := by
    split
    · exact setMark_lives hr
    · exact hr
  unfold completeOp
  split
  · exact h
  · split
    · exact h
    · dsimp only
      split
      · exact updStream_lives (hmark (hops (deliverOps_lives h)))
      · exact foldl_lives (fun _ _ hr => updPend_lives (raise_lives hr)) (hmark (hops (deliverOps_lives h)))

theorem landPend_lives {a : Actor} {p : Pend} (h : lives s t) : lives s (landPend t a p) := by
  have hdst : lives s (match p.dst, a with
      | .w n, .fib u w sl => if p.own then t.updFibre u w sl fun f => { f with regs := mput f.regs n (.live p.val) } else t.writeW a n p.val
      | .k n, .fib u w _ => t.writeK u w n p.val
      | .s n, .seq _ => t.writeW a n p.val
      | _, _ => t) := by
    split
    · split
      · exact updFibre_lives h
      · exact writeW_lives h
    · exact writeK_lives h
    · exact writeW_lives h
    · exact h
  unfold landPend
  dsimp only
  split
  · exact writeP_lives hdst
  · exact hdst

theorem landSel_lives {a : Actor} {sel : Pend → Bool} (h : lives s t) : lives s (landSel t a sel).1 := by
  refine List.foldlRecOn (motive := fun r : State × List Pend => lives s r.1) _ _ h fun r hr q _ => ?_
  split
  · exact hr
  · dsimp only
    split
    · exact updPend_lives hr
    · exact landPend_lives (updPend_lives hr)

theorem flush_lives {a : Actor} (h : lives s t) : lives s (flush t a).1 := landSel_lives (foldl_lives (fun _ _ => completeOp_lives) h)

theorem saveLand_lives {a : Actor} (h : lives s t) : lives s (saveLand t a) := landSel_lives (foldl_lives (fun _ _ => completeOp_lives) h)

/-! ### Spilled registers -/

theorem fillReg_lives {u w sl n : Nat} (h : lives s t) : lives s (fillReg t u w sl n) := by
  unfold fillReg
  split
  · rename_i b x f hb hx hf
    dsimp only
    split
    · exact updFibre_lives (updCore_lives h)
    · split
      · exact h
      · rename_i va _
        have htr : device t (devTranslate t b.ctx va .load).1 := devTranslate_device .refl
        split <;> rename_i hw <;> rw [hw] at htr
        · exact updFibre_lives (updFibre_lives (h.on htr))
        · exact post_lives (h.on htr)
  · exact h

theorem fillWeave_lives {u w : Nat} (h : lives s t) : lives s (fillWeave t u w) := by
  unfold fillWeave
  split
  · exact h
  · exact foldl_lives (fun _ _ => foldl_lives fun _ _ => fillReg_lives) h

/-! ### Helpers -/

theorem poolFreed_lives {c : Nat} (h : lives s t) : lives s (poolFreed t c) := by
  unfold poolFreed
  dsimp only
  split
  · exact updWeave_lives h
  · exact h

theorem dropFibre_lives {u w sl : Nat} (h : lives s t) : lives s (dropFibre t u w sl) := by
  have hgone : lives s ((State.setBuf (flush t (.fib u w sl)).1 ((flush t (.fib u w sl)).1.bufOf (.fib u w sl))
      (((flush t (.fib u w sl)).1.buf ((flush t (.fib u w sl)).1.bufOf (.fib u w sl))).map fun e => if e.who = some (w, sl) then { e with who := none } else e)).updWeave
        u w fun x => { x with fibres := mdel x.fibres sl }) := updWeave_lives (setBuf_lives (flush_lives h))
  unfold dropFibre
  dsimp only
  split
  · exact poolFreed_lives hgone
  · exact hgone

theorem helperGone_lives {u w sl : Nat} (h : lives s t) : lives s (helperGone t u w sl) := by
  unfold helperGone
  split
  · exact h
  · split
    · dsimp only
      split
      · split
        · exact post_lives (updFibre_lives (dropFibre_lives h))
        · exact updFibre_lives (dropFibre_lives h)
      · exact updFibre_lives (dropFibre_lives h)
    · exact h

theorem dropFar_lives {u w sl : Nat} (h : lives s t) : lives s (dropFar t u w sl) := by
  unfold dropFar
  split
  · split
    · split
      · exact mmapBlocks_lives (fun _ _ => rfl) h
      · exact h
    · exact h
  · exact h

theorem dropIdle_lives {u w : Nat} (h : lives s t) : lives s (dropIdle t u w) := by
  have hidle {r : State} {c : Nat} (hr : lives s r) : lives s (coreIdle r c) := by
    unfold coreIdle
    split
    · exact hr
    · exact updCore_lives hr
  unfold dropIdle
  split
  · split
    · refine hidle (updBlock_lives (fun _ _ => ?_) h)
      rfl
    · exact h
  · exact h

theorem wakeHwork_lives {u : Nat} (h : lives s t) : lives s (wakeHwork t u) := by
  unfold wakeHwork
  split
  · exact h
  · rename_i b hb
    refine updBlock_lives (fun c hc => ?_) h
    obtain rfl := Option.some.inj (hb.symm.trans hc)
    rfl

theorem releaseHelper_lives {u w sl : Nat} (h : lives s t) : lives s (releaseHelper t u w sl) :=
  wakeHwork_lives (dropIdle_lives (helperGone_lives (updWeave_lives (dropFar_lives h))))

theorem askRelease_lives {u w : Nat} (h : lives s t) : lives s ((askRelease t u w).getD t) := by
  unfold askRelease
  split
  · exact h
  · split
    · exact h
    · refine foldl_lives (fun r f hr => ?_) h
      split
      · exact updFibre_lives hr
      · exact releaseHelper_lives (updFibre_lives hr)
      · exact hr

theorem askAll_lives {u : Nat} {b : Block} (h : lives s t) : lives s (askAll t u b) := foldl_lives (fun _ _ => askRelease_lives) h

/-! ### Notices of the trees -/

theorem goAbsent_lives {u : Nat} {b : Block} (h : lives s t) : lives s (goAbsent t u b) := by
  refine foldl_lives (fun r x hr => ?_) h
  split
  · exact post_lives hr
  · exact hr

theorem comeBack_lives {u : Nat} {b : Block} (h : lives s t) : lives s (comeBack t u b) := by
  refine foldl_lives (fun r x hr => ?_) h
  split
  · exact post_lives hr
  · exact hr

/-! ### Bindings after a move -/

theorem rebind_lives {a : Actor} {n : Nat} {y : Binding} (h : lives s t) : lives s (rebind t a n y) := by
  have htr : lives s (translate t a.uid (t.coreOf a) (t.ctxOf a.uid) y.va .rw).1 := h.on (translate_device .refl)
  unfold rebind
  dsimp only
  split
  · rename_i hw
    rw [hw] at htr
    exact updFib_lives htr
  · rename_i hw
    rw [hw] at htr
    split
    · exact updFib_lives htr
    · split
      · exact updFib_lives htr
      · split
        · exact updWeave_lives ((updFib_lives htr).on (bindTouch_device (readBy_device .refl)))
        · exact (updFib_lives htr).on (bindTouch_device (readBy_device .refl))

theorem rebindAll_lives {u : Nat} (h : lives s t) : lives s (rebindAll t u) := by
  unfold rebindAll
  split
  · exact h
  · exact foldl_lives (fun _ _ => rebind_lives) (updBlock_lives (fun _ _ => rfl) h)

end

end Sys2Proof.Machine
end

section
/-! PROOFS. Messages that arrive, start handlers or are dropped, and blocks that arrive by migration (O54). -/
namespace Sys2Proof.Machine
variable {s t : State}

/-! ### Acceptance -/

theorem device.fibre_isSome (h : device s t) (u w sl : Nat) : (t.fibre? u w sl).isSome = (s.fibre? u w sl).isSome := by
  simpa using congrArg Option.isSome (h.fibre u w sl)

theorem fibre?_isSome_updFibre (s : State) (u w sl v y sm : Nat) (f : Fibre → Fibre) :
    ((s.updFibre u w sl f).fibre? v y sm).isSome = (s.fibre? v y sm).isSome := by
  rw [State.fibre?_updFibre]
  split
  · rename_i h
    obtain ⟨rfl, rfl, rfl⟩ := h
    simp
  · rfl

theorem sendOutcome_fibre (s : State) (u w sl : Nat) (pred : Option (BitVec 4)) (v : Bool) :
    ((sendOutcome s u w sl pred v).fibre? u w sl).isSome = (s.fibre? u w sl).isSome := by
  unfold sendOutcome State.writeP
  split
  · split
    · rfl
    · dsimp only [State.setPreds]
      rw [fibre?_isSome_updFibre, fibre?_isSome_updFibre]
  · rfl

theorem sendOutcome_queues (s : State) (u w sl : Nat) (pred : Option (BitVec 4)) (v : Bool) : queues s (sendOutcome s u w sl pred v) := by
  unfold sendOutcome State.writeP
  split
  · split
    · exact .refl s
    · exact (queues.refl s).still rfl
  · exact .refl s

theorem setSending_fibre (s : State) (u w : Nat) (y : Sending) (v x sl : Nat) : (setSending s u w y).fibre? v x sl = s.fibre? v x sl := by
  refine fibre?_updWeave_keep (fun z => ?_) v x sl
  split
  · dsimp only
    split
    · exact fibres_wake ..
    · rfl
  · rfl

/-- The state in which a message has been taken by its target core's queue and counted, and its sender goes on. -/
def accepted (s : State) (u w sl : Nat) (y : Sending) (rest : List (Nat × Nat)) (m : Msg) : State :=
  setSending ((sendOutcome (msgServed (s.updCore m.target fun x => { x with inq := x.inq ++ [m] }) m) u w sl y.pred true).updFibre u w sl fun f =>
    { f with asm := none }) u w { y with todo := rest, retry := none }

/-- A send is due: the first time at once, later 64 cycles behind the refusal (R389). -/
def Sending.due (y : Sending) (s : State) (b : Block) (again : Bool) : Prop :=
  again = false ∧ y.retry = none ∨ again = true ∧ ∃ t0, y.retry = some t0 ∧ cycles 64 ≤ s.ran (coreDie b.core) t0

theorem deliver_accepts {u w sl n : Nat} {b : Block} {x : Weave} {y : Sending} {rest : List (Nat × Nat)} {m : Msg} {again : Bool}
    (hb : s.block? u = some b) (hx : s.weave? u w = some x) (hy : sending x = some y) (htodo : y.todo = (sl, n) :: rest)
    (hm : msgOf s u w sl n (if again then s.time else y.sent) = some m) (hup : coreDown s m.target = false) (hroom : (s.core m.target).inq.length < 64)
    (hfirst : sendsBefore s m.src m.target y.stamp = false) (hdue : y.due s b again) :
    deliver s u w again = some (accepted s u w sl y rest m) := by
  have hoffer : offer s m = .accepted (s.updCore m.target fun x => { x with inq := x.inq ++ [m] }) := by
    unfold offer
    rw [if_neg (by simp [hup]), if_pos hroom]
  unfold deliver
  simp only [hb, hx, Option.bind_some, hy, htodo, hm, hfirst, hoffer, Bool.false_eq_true, if_false]
  obtain ⟨rfl, hr⟩ | ⟨rfl, t0, hr, ht⟩ := hdue
  · rw [hr]
    rfl
  · rw [hr, if_neg (by simp [Nat.not_lt.mpr ht])]
    rfl

/-- The target core's queue has the message at its end. -/
theorem accepted_queue (s : State) (u w sl : Nat) (y : Sending) (rest : List (Nat × Nat)) (m : Msg) :
    ((accepted s u w sl y rest m).core m.target).inq = (s.core m.target).inq ++ [m] := by
  have hserved : queues (s.updCore m.target fun x => { x with inq := x.inq ++ [m] }) (accepted s u w sl y rest m) :=
    queues.still ((msgServed_queues (.refl _)).trans (sendOutcome_queues _ _ _ _ _ _)) rfl
  rw [hserved, State.core_updCore_self]

/-- The sender's assembly buffer is empty. -/
theorem accepted_asm {u w sl : Nat} {f : Fibre} (hf : s.fibre? u w sl = some f) (y : Sending) (rest : List (Nat × Nat)) (m : Msg) :
    ((accepted s u w sl y rest m).fibre? u w sl).map Fibre.asm = some none := by
  have hdev : device s (msgServed (s.updCore m.target fun x => { x with inq := x.inq ++ [m] }) m) := msgServed_device (updCore_device .refl)
  have hsome := (sendOutcome_fibre (msgServed (s.updCore m.target fun x => { x with inq := x.inq ++ [m] }) m) u w sl y.pred true).trans
    (hdev.fibre_isSome u w sl)
  rw [hf] at hsome
  obtain ⟨g, hg⟩ := Option.isSome_iff_exists.mp hsome
  unfold accepted
  rw [setSending_fibre, State.fibre?_updFibre_self, hg]
  rfl

theorem fibre_of_msgOf {u w sl n sent : Nat} {m : Msg} (h : msgOf s u w sl n sent = some m) : ∃ f, s.fibre? u w sl = some f := by
  unfold msgOf at h
  split at h
  · exact ⟨_, ‹_›⟩
  · cases h

/-! ### Handlers -/

theorem handleHead_starts {c u ws : Nat} {m : Msg} {r : List Msg} {b : Block} {wr : List Nat} (hq : (s.core c).inq = m :: r)
    (ht : msgTarget s c m = some (u, b)) (hh : nth b.hdr.handlers (fld (m.words.headD 0) 12 4) ≠ 0) (haway : away s u = false) (hroom : handlersOn s c < 8)
    (hws : freeWslots s c = ws :: wr) (hregs : hasRegs s u c (handlerRegs b.hdr m).length = true) :
    handleHead s c = some (startHandler (msgServed s m) c u b m (fld (m.words.headD 0) 12 4) ws) := by
  unfold handleHead
  simp only [hq, ht, if_neg hh, haway, hws, Bool.false_or, decide_eq_true_eq, if_neg (Nat.not_le.mpr hroom), relieve_hasRegs hregs]

theorem handleHead_drops {c : Nat} {m : Msg} {r : List Msg} (hq : (s.core c).inq = m :: r)
    (h : msgTarget s c m = none ∨ ∃ u b, msgTarget s c m = some (u, b) ∧ nth b.hdr.handlers (fld (m.words.headD 0) 12 4) = 0) :
    handleHead s c = some (countDropped ((msgServed s m).updCore c fun y => { y with inq := y.inq.drop 1 }) m.sender) := by
  unfold handleHead
  obtain ht | ⟨u, b, ht, hh⟩ := h
  · simp only [hq, ht]
  · simp only [hq, ht, hh, if_true]

/-- A handler's fibre stands in the weave that was made for it. -/
theorem startHandler_fibre {c u ws n : Nat} {y : Block} (hb : s.block? u = some y) (b : Block) (m : Msg) :
    ∃ w, (startHandler s c u b m n ws).fibre? u w 0 = some (Fibre.start (.handler n) (2048 + n) (handlerRegs b.hdr m)) := by
  refine ⟨32 + ((upto 32).find? fun i => (mget y.weaves (32 + i)).isNone).getD 0, ?_⟩
  unfold startHandler State.fibre? State.weave?
  dsimp only
  rw [State.block?_updBlock_self, show State.block? (s.updCore c _) u = some y from hb, Option.map_some, Option.bind_some, mget_mput_self]
  rfl

theorem startHandler_queue (s : State) (c u : Nat) (b : Block) (m : Msg) (n ws : Nat) :
    ((startHandler s c u b m n ws).core c).inq = (s.core c).inq.drop 1 := by
  show ((s.updCore c fun y => { y with inq := y.inq.drop 1 }).core c).inq = _
  rw [State.core_updCore_self]

/-! ### Arrival by migration -/

theorem fixed_relaunchNodes (b : Block) : b.relaunchNodes.fixed = b.fixed := by
  have hready (x : Block) (c : Cmd) : (x.ready c).fixed = x.fixed := by
    unfold Block.ready
    dsimp only
    split <;> rfl
  unfold Block.relaunchNodes
  split
  · rfl
  · refine foldl_same (p := Block.fixed) (fun x n _ => ?_) b
    unfold Block.launchNode
    split
    · split
      · rfl
      · exact hready ..
    · rfl

/-- A block that has been seated stands on its core. -/
theorem seatBlock_fixed (s : State) (u c : Nat) (landing : Bool) (b : Block) :
    ((seatBlock s u c landing b).block? u).map Block.fixed = some { b with core := c, landing }.fixed := by
  unfold seatBlock
  dsimp only
  rw [(comeBack_lives (rebindAll_lives (updCore_lives (.refl _)))).blocks, State.block?, mget_mput_self, Option.map_some, fixed_relaunchNodes]
  rfl

theorem arriveMigrated_lands {u c e : Nat} {b : Block} (hb : s.block? u = some b) (hh : b.headed = some c) (hd : releaseDue s (coreDie c) b = false)
    (hl : landingPlace s b c = some e) : ∃ t, arriveMigrated s u = some t ∧ (t.block? u).map (fun b => (b.core, b.landing)) = some (e, true) := by
  unfold arriveMigrated
  simp only [hb, hh, hd, hl, Bool.false_eq_true, if_false]
  refine ⟨_, rfl, ?_⟩
  have hfixed (r : State) (x : Block) : ((endMove (seatBlock r u e true x) u).block? u).map Block.fixed = some { x with core := e, landing := true }.fixed :=
    ((wakeIf_lives (.refl _)).blocks u).trans (seatBlock_fixed r u e true x)
  obtain ⟨y, hy, hf⟩ := Option.map_eq_some_iff.mp (hfixed (unplace (takeMsgs s u b.core).1 u) ((b.headTo e).packed (takeMsgs s u b.core).2))
  have hcore : y.core = e := congrArg (fun p => p.2.2.2.1) hf
  have hland : y.landing = true := congrArg (fun p => p.2.2.2.2.1) hf
  rw [hy, Option.map_some, hcore, hland]

/-- Settles O54: what serves a message leaves the queues of cores and the fibres of blocks (`msgServed_queues`, `msgServed_device`), and what seats a
block leaves it where it has been seated (`seatBlock_fixed`). -/
theorem messagesMove : Obligations.MessagesMove := by
  unfold Obligations.MessagesMove
  refine fun s => ⟨fun u w b x y sl n rest m again hb hx hy htodo hm hup hroom hfirst hdue => ?_, ?_, fun c m r hq h => ?_, fun u b c e hb hh hd hl => ?_⟩
  · obtain ⟨f, hf⟩ := fibre_of_msgOf hm
    have hdel := deliver_accepts hb hx hy htodo hm hup hroom hfirst hdue
    refine ⟨_, ?_, accepted_queue s u w sl y rest m, accepted_asm hf y rest m⟩
    cases again
    · exact congrArg (event _) hdel
    · exact congrArg (event _) hdel
  · intro c m r u b ws wr hq ht hb n hh haway hroom hws hregs
    have hdev : device s (msgServed s m) := msgServed_device .refl
    have hsome := congrArg Option.isSome (hdev.lives.blocks u)
    rw [hb, Option.isSome_map, Option.isSome_map] at hsome
    obtain ⟨z, hz⟩ := Option.isSome_iff_exists.mp hsome
    obtain ⟨w, hw⟩ := startHandler_fibre (c := c) (ws := ws) (n := n) hz b m
    refine ⟨_, w, congrArg (event _) (handleHead_starts hq ht hh haway hroom hws hregs), ?_, hw⟩
    rw [startHandler_queue, msgServed_queues (.refl s), hq]
    rfl
  · exact congrArg (event _) (handleHead_drops hq h)
  · obtain ⟨t, ht, hplace⟩ := arriveMigrated_lands hb hh hd hl
    exact ⟨t, congrArg (event _) ht, hplace⟩

end Sys2Proof.Machine
end

section
/-! PROOFS. Saves, restores and the retirement of cores (O52). -/
namespace Sys2Proof.Machine
variable {s t : State}

/-! ### Tables of macros -/

theorem readMacros_device {ctx table n : Nat} {row : List Nat} (h : device s t) : device s (readMacros t ctx table row n).1 := by
  induction row generalizing t n with
  | nil => exact h
  | cons k r ih =>
    have hbody := readVA_device (ctx := ctx) (n := 8 * k) (va := table + 64 + 256 * n) h
    unfold readMacros
    split <;> rename_i hv <;> rw [hv] at hbody
    · exact hbody
    · have hrest := ih (n := n + 1) hbody
      split <;> rename_i hr <;> rw [hr] at hrest <;> exact hrest

theorem readTable_device {ctx : Nat} {kernel : Word} {h : Hdr} (hd : device s t) : device s (readTable t ctx kernel h).1 := by
  have hrow : device s (if h.macs = 0 then (t, some []) else readVA t ctx 64 (kernel.toNat + 32 * h.macTable)).1 := by
    split
    · exact hd
    · exact readVA_device hd
  unfold readTable
  dsimp only
  split <;> rename_i hr <;> rw [hr] at hrow
  · exact hrow
  · rename_i row
    split
    · exact hrow
    · have hmacs := readMacros_device (ctx := ctx) (table := kernel.toNat + 32 * h.macTable) (n := 0) (row := (row.take h.macs).map BitVec.toNat) hrow
      split <;> rename_i hm <;> rw [hm] at hmacs <;> exact hmacs

theorem loadMacros_device {c ctx : Nat} {kernel : Word} {h : Hdr} {macs : List (List Word)} (hd : device s t) :
    device s (loadMacros t c kernel h ctx macs) := by
  unfold loadMacros
  dsimp only
  split
  · exact hd
  · exact updCore_device (readTable_device hd)

/-! ### A save begins -/

/-- A block that is to be saved is asked to stop. -/
theorem beginSave_stops {u frame why : Nat} {b : Block} (hb : s.block? u = some b) :
    ((beginSave s u frame why).block? u).map (fun b => (b.stop, b.saving)) = some (true, some (frame, why)) := by
  have hsome := congrArg Option.isSome ((askAll_lives (u := u) (b := b) (.refl s)).blocks u)
  rw [hb, Option.isSome_map, Option.isSome_map] at hsome
  obtain ⟨c, hc⟩ := Option.isSome_iff_exists.mp hsome
  have hfixed := (goAbsent_lives (u := u) (b := b) (.refl ((askAll s u b).updBlock u fun b => { b with stop := true, saving := some (frame, why) }))).blocks u
  rw [State.block?_updBlock_of_some hc] at hfixed
  obtain ⟨d, hd, hf⟩ := Option.map_eq_some_iff.mp hfixed
  have hstop : d.stop = true := congrArg (fun p => p.2.2.2.2.2.1) hf
  have hsaving : d.saving = some (frame, why) := congrArg (fun p => p.2.2.2.2.2.2) hf
  unfold beginSave
  simp only [hb]
  rw [hd, Option.map_some, hstop, hsaving]

theorem saveStep_begins {c frame : Nat} (hbusy : (s.die (coreDie c)).dcbusy = some (1, coreIdx c, frame)) (hfree : frameClaimed s frame = false) :
    (saveVictim s c = none → saveStep s c frame = some (dcDone s (coreDie c) 1))
      ∧ ∀ u b x, saveVictim s c = some (u, b) → s.ctx? b.ctx = some x → x.ownsFrame frame = true → saveHeld s b = false →
          saveStep s c frame = some (beginSave s u frame 0) := by
  have hnone : (s.blocks.find? fun b => b.2.core = c && (b.2.saving.map Prod.fst) == some frame) = none := by
    unfold frameClaimed at hfree
    rw [List.any_eq_false] at hfree
    rw [List.find?_eq_none]
    intro e he hsel
    exact hfree e he (Bool.and_eq_true_iff.mp hsel).2
  unfold saveStep State.dcBusy
  simp only [hnone, hbusy, hfree, ne_eq, not_true_eq_false, decide_false, Bool.or_false, Bool.false_eq_true, if_false]
  refine ⟨fun hv => by rw [hv], fun u b x hv hx hown hheld => ?_⟩
  simp only [hv, hx, Option.map_some, Option.getD_some, hown, hheld, Bool.not_true, Bool.false_eq_true, if_false]

/-! ### A save ends -/

/-- What is known of a frame: whether a saved block stands in it, unchanged, and whose it is. -/
def Frame.label (f : Frame) : Bool × Bool × Nat × Nat × Nat × Bool := (f.saved, f.touched, f.ctx, f.uid, f.why, f.block.isSome)

theorem poolFreed_gone {u c : Nat} (h : s.block? u = none) : (poolFreed s c).block? u = none := by
  simpa [h] using (poolFreed_lives (c := c) (.refl s)).blocks u

theorem poolFreed_frames (s : State) (c : Nat) : (poolFreed s c).frames = s.frames := by
  unfold poolFreed
  dsimp only
  split <;> rfl

theorem wakeEngine_gone {u v : Nat} (h : s.block? u = none) : (wakeEngine s v).block? u = none := by
  show (s.updBlock v _).block? u = none
  by_cases hv : u = v
  · subst hv
    rw [State.block?_updBlock_self, h]
    rfl
  · rw [State.block?_updBlock_ne _ _ hv, h]

theorem wakeEngine_labels (s : State) (u k : Nat) : (mget (wakeEngine s u).frames k).map Frame.label = (mget s.frames k).map Frame.label := by
  unfold wakeEngine State.updAnywhere
  rw [mget_mmap, Option.map_map]
  refine congrArg (fun g => Option.map g (mget s.frames k)) (funext fun f => ?_)
  dsimp only [Function.comp]
  split
  · simp [Frame.label]
  · rfl

/-- A block leaves its core, and frames are what they were. -/
theorem unplace_gone (s : State) (u : Nat) : (unplace s u).block? u = none := by
  unfold unplace
  split
  · assumption
  · dsimp only
    refine List.foldlRecOn (motive := fun t => State.block? t u = none) _ _ ?_ fun t ht r _ => ?_
    · refine List.foldlRecOn (motive := fun t => State.block? t u = none) _ _ ?_ fun t ht c _ => poolFreed_gone ht
      simp [State.block?, tidyCores]
    · split
      · exact ht
      · exact wakeEngine_gone ht

theorem unplace_labels (s : State) (u k : Nat) : (mget (unplace s u).frames k).map Frame.label = (mget s.frames k).map Frame.label := by
  unfold unplace
  split
  · rfl
  · dsimp only
    rw [foldl_same (p := fun t : State => (mget t.frames k).map Frame.label) fun t r _ => ?_,
      foldl_same (p := fun t : State => (mget t.frames k).map Frame.label) fun t c _ => by rw [poolFreed_frames]]
    · rfl
    · split
      · rfl
      · exact wakeEngine_labels ..

/-- The registers and stores of a block are settled where it stands. -/
theorem settleBlock_lives (u : Nat) : lives s (settleBlock s u) := by
  unfold settleBlock
  split
  · exact .refl s
  · exact mmapBlocks_lives (fun _ _ => rfl) (forcedCommit_lives (foldl_lives (fun _ _ => saveLand_lives) (foldl_lives (fun _ _ => fillWeave_lives) (.refl s))))

theorem finishSave_saves {u frame why : Nat} {b : Block} (hb : s.block? u = some b) : (finishSave s u frame why).block? u = none
    ∧ (mget (finishSave s u frame why).frames frame).map Frame.label = some (true, false, b.ctx, u, why, true) := by
  obtain ⟨c, hc, hf⟩ := Option.map_eq_some_iff.mp (((settleBlock_lives (s := s) u).blocks u).trans (by rw [hb]; rfl))
  have hctx : c.ctx = b.ctx := congrArg Prod.fst hf
  unfold finishSave
  simp only [hc]
  refine ⟨unplace_gone .., ?_⟩
  rw [unplace_labels, mget_mput_self, Option.map_some, Frame.label, hctx]
  rfl

/-- With no helper held none is unasked. -/
theorem asked_of_ready {u : Nat} {b : Block} (h : saveReady s u b = true) : b.unasked = false := by
  have hheld : b.helpersHeld = 0 := by
    unfold saveReady at h
    simp only [Bool.and_eq_true, decide_eq_true_eq] at h
    exact h.1.1.1.2
  unfold Block.unasked
  rw [List.any_eq_false]
  intro w hw
  have hnone : (w.2.fibres.filter fun f => f.2.isHelper) = [] := by
    have hzero := List.sum_eq_zero_iff.mp hheld _ (List.mem_map_of_mem hw)
    exact List.length_eq_zero_iff.mp hzero
  have hrel : releasable w.2 = [] := by
    unfold releasable
    rw [List.filter_eq_nil_iff] at hnone ⊢
    intro f hf hsel
    exact hnone f hf (Bool.and_eq_true_iff.mp hsel).1
  simp [hrel]

theorem saveStep_ends {c frame u why : Nat} {b : Block}
    (hfind : (s.blocks.find? fun b => b.2.core = c && (b.2.saving.map Prod.fst) == some frame) = some (u, b)) (hs : b.saving = some (frame, why))
    (hr : saveReady s u b = true) :
    saveStep s c frame = some (if why = 0 then dcDone (finishSave s u frame why) (coreDie c) 0 else finishSave s u frame why) := by
  unfold saveStep
  simp only [hfind, asked_of_ready hr, hr, hs, Bool.not_true, Bool.false_eq_true, if_false]
  rfl

/-! ### Restores -/

/-- Seating a block changes no frame but for its bytes. -/
theorem seatBlock_frames (s : State) (u c : Nat) (landing : Bool) (b : Block) (k : Nat) :
    (mget (seatBlock s u c landing b).frames k).map Frame.holding = (mget s.frames k).map Frame.holding := by
  unfold seatBlock
  dsimp only
  rw [(comeBack_lives (rebindAll_lives (updCore_lives (.refl _)))).frames]
  exact (loadMacros_device .refl).lives.frames k

theorem restoreOn_restores (s : State) (frame c : Nat) (f : Frame) (b : Block) :
    ((restoreOn s frame c f b).block? f.uid).map Block.core = some c ∧ (mget (restoreOn s frame c f b).frames frame).map Frame.saved = some false := by
  unfold restoreOn
  constructor
  · obtain ⟨y, hy, hfix⟩ := Option.map_eq_some_iff.mp
      (seatBlock_fixed ({ s with frames := mput s.frames frame { f with saved := false, block := none } }.notePlace b.ctx b.lid c) f.uid c false b)
    have hcore : y.core = c := congrArg (fun p => p.2.2.2.1) hfix
    rw [hy, Option.map_some, hcore]
  · have hhold := seatBlock_frames ({ s with frames := mput s.frames frame { f with saved := false, block := none } }.notePlace b.ctx b.lid c) f.uid c false b frame
    have hput : mget ({ s with frames := mput s.frames frame { f with saved := false, block := none } }.notePlace b.ctx b.lid c).frames frame
        = some { f with saved := false, block := none } := mget_mput_self ..
    rw [hput] at hhold
    obtain ⟨g, hg, hfix⟩ := Option.map_eq_some_iff.mp hhold
    have hsaved : g.saved = false := congrArg Prod.fst hfix
    rw [hg, Option.map_some, hsaved]

theorem dcDone_die (s : State) (d res : Nat) : ((dcDone s d res).die d).dcbusy = none ∧ ((dcDone s d res).die d).dcres = res := by
  unfold dcDone
  rw [State.die_updDie_self]
  exact ⟨rfl, rfl⟩

theorem dcDone_core (s : State) (d res c : Nat) : (dcDone s d res).core c = s.core c := rfl

theorem dcDone_block? (s : State) (d res u : Nat) : (dcDone s d res).block? u = s.block? u := rfl

theorem dcDone_frames (s : State) (d res : Nat) : (dcDone s d res).frames = s.frames := rfl

theorem restoreStep_never {e i frame : Nat} (hbusy : (s.die e).dcbusy = some (2, i, frame)) (hf : mget s.frames frame = none)
    (hown : ∃ x ∈ s.ctxs, x.2.ownsFrame frame = true) : restoreStep s e i frame = some (dcDone s e 1) := by
  unfold restoreStep State.dcBusy restoreFrame
  simp [hbusy, hf, List.any_eq_true.mpr hown, restoreResult]

theorem restoreStep_restores {e i frame : Nat} {f : Frame} {b : Block} {x : Ctx} (hbusy : (s.die e).dcbusy = some (2, i, frame))
    (hf : mget s.frames frame = some f) (hsaved : f.saved = true) (hb : f.block = some b) (hx : s.ctx? f.ctx = some x) (hown : x.ownsFrame frame = true)
    (hdue : releaseDue s e b = false) (htouch : f.touched = false) (hi : i < 320) (hmay : mayRestore s 0 b (320 * e + i) = true) :
    restoreStep s e i frame = some (dcDone (restoreOn s frame (320 * e + i) f b) e 0) := by
  have hany : i ≠ 511 := by omega
  unfold restoreStep State.dcBusy restoreFrame
  simp [hbusy, hf, hsaved, hb, hx, hown, hdue, htouch, hany, hi, hmay, restoreResult]

/-! ### Retirement -/

theorem retireStep_begins {c a : Nat} (hbusy : (s.die (coreDie c)).dcbusy = some (3, coreIdx c, a)) (hret : (s.core c).retired = false) :
    retireStep s c = some ((retireBlocks (s.updDie (coreDie c) fun x => { x with dcres := 0 }) c).updCore c fun x => { x with retired := true }) := by
  unfold retireStep State.dcBusy
  simp [hbusy, hret]

theorem retireStep_ends {c a : Nat} (hbusy : (s.die (coreDie c)).dcbusy = some (3, coreIdx c, a)) (hret : (s.core c).retired = true)
    (hempty : ∀ b ∈ s.blocks, b.2.core ≠ c) (hnone : retiring s (coreDie c) = none) :
    retireStep s c = some (dcDone (setMask s c true) (coreDie c) (s.die (coreDie c)).dcres) := by
  have hhere : (s.blocks.any fun b => b.2.core = c) = false := by
    rw [List.any_eq_false]
    exact fun b hb he => hempty b hb (of_decide_eq_true he)
  have hleft : (s.blocks.any fun b => b.2.core = c && b.2.saving.isNone && !saveHeld s b.2) = false := by
    rw [List.any_eq_false]
    intro b hb he
    simp only [Bool.and_eq_true, decide_eq_true_eq] at he
    exact hempty b hb he.1.1
  unfold retireStep State.dcBusy
  simp [hbusy, hret, hhere, hleft, hnone]

theorem returnStep_of {c a : Nat} (hbusy : (s.die (coreDie c)).dcbusy = some (4, coreIdx c, a)) :
    returnStep s c = some (dcDone ((unbar (setMask s c false) c).updCore c fun x => { x with retired := false }) (coreDie c) 0) := by
  unfold returnStep State.dcBusy
  simp [hbusy]

/-- Settles O52: a block that is stopped, settled or seated keeps what `lives` says, and what leaves a core leaves its frame as it was saved
(`finishSave_saves`). -/
theorem savesAndRestores : Obligations.SavesAndRestores := by
  unfold Obligations.SavesAndRestores
  intro s c frame d
  refine ⟨fun hbusy hfree => ?_, fun u b why hfind hb hs hr => ?_, fun e i hbusy => ⟨fun hf hown => ?_, ?_⟩, fun a hbusy => ⟨fun hret => ?_, ?_⟩,
    fun a hbusy => ?_⟩
  · obtain ⟨hidle, hbegin⟩ := saveStep_begins hbusy hfree
    exact ⟨fun hv => congrArg (event _) (hidle hv), fun u b x hv hb hx hown hheld =>
      ⟨_, congrArg (event _) (hbegin u b x hv hx hown hheld), beginSave_stops hb⟩⟩
  · obtain ⟨hgone, hframe⟩ := finishSave_saves (frame := frame) (why := why) hb
    obtain ⟨f, hf, hlabel⟩ := Option.map_eq_some_iff.mp hframe
    have hstep := saveStep_ends hfind hs hr
    refine ⟨_, f, congrArg (event _) hstep, ?_, ?_, hlabel, fun hw => ?_⟩
    · split
      · exact hgone
      · exact hgone
    · split
      · exact hf
      · exact hf
    · rw [if_pos hw]
      exact dcDone_die ..
  · exact congrArg (event _) (restoreStep_never hbusy hf hown)
  · intro f b x hf hsaved hb hx hown hdue htouch hi hmay
    obtain ⟨hcore, hframe⟩ := restoreOn_restores s frame (320 * e + i) f b
    have hstep := restoreStep_restores hbusy hf hsaved hb hx hown hdue htouch hi hmay
    generalize restoreOn s frame (320 * e + i) f b = r at hcore hframe hstep
    exact ⟨dcDone r e 0, congrArg (event _) hstep, by rw [dcDone_block?, hcore], by rw [dcDone_frames, hframe], dcDone_die r e 0⟩
  · exact ⟨_, congrArg (event _) (retireStep_begins hbusy hret), by rw [State.core_updCore_self]⟩
  · exact fun hret hempty hnone => congrArg (event _) (retireStep_ends hbusy hret hempty hnone)
  · refine ⟨_, congrArg (event _) (returnStep_of hbusy), ?_, (dcDone_die ..).1⟩
    rw [dcDone_core, State.core_updCore_self]

end Sys2Proof.Machine
end

section
/-! SUPPORT. Words that the device writes are read back, and a launch that is over is gone. -/
namespace Sys2Proof.Machine
variable {s t : State}

/-! ### Words in memory -/

theorem length_toBytes (k n : Nat) : (toBytes k n).length = k := by
  induction k generalizing n with
  | zero => rfl
  | succ k ih => simp [toBytes, ih]

theorem ofBytes_toBytes (k n : Nat) : ofBytes (toBytes k n) = n % 256 ^ k := by
  induction k generalizing n with
  | zero => simp [toBytes, ofBytes, Nat.mod_one]
  | succ k ih => rw [toBytes, ofBytes, ih, BitVec.toNat_ofNat, Nat.pow_succ' (m := 256), Nat.mod_mul]

theorem bytes_of_byte {l : List Byte} {pa : Nat} (h : ∀ i (hi : i < l.length), s.byte (pa + i) = l[i]) : s.bytes pa l.length = l := by
  induction l generalizing pa with
  | nil => rfl
  | cons x r ih =>
    have hx : s.byte pa = x := h 0 (Nat.zero_lt_succ _)
    rw [List.length_cons, State.bytes, hx, ih fun i hi => ?_]
    rw [Nat.add_right_comm]
    exact h (i + 1) (Nat.succ_lt_succ hi)

theorem frames_of_plainRange {pa n : Nat} (h : plainRange s pa n) : s.frames = [] := by
  obtain ⟨_, hnone⟩ := h
  cases hf : s.frames with
  | nil => rfl
  | cons e r =>
    have := hnone e.1
    rw [State.frameAt, hf, List.find?_cons_of_pos (by simp [frameSize])] at this
    cases this

/-- Without frames an address on the panel is read from memory. -/
theorem byte_of_noFrames {pa : Nat} (hf : s.frames = []) (h : pa < panelEnd) : s.byte pa = s.mem.read pa := by
  unfold State.byte State.frameAt
  rw [if_neg (Nat.not_le.mpr h), hf]
  rfl

theorem phys_of_writeBytes {m : Memory} {pa : Nat} {v : Word} (hf : s.frames = []) (hend : pa + 8 ≤ panelEnd)
    (hm : s.mem = m.writeBytes pa (toBytes 8 v.toNat)) : s.phys pa 8 = v.toNat := by
  have hbytes := bytes_of_byte (s := s) (l := toBytes 8 v.toNat) (pa := pa) fun i hi => by
    have hlen := length_toBytes 8 v.toNat
    rw [byte_of_noFrames hf (by omega), hm, Memory.read_writeBytes, if_pos (Nat.le_add_right _ _), Nat.add_sub_cancel_left, List.getElem?_eq_getElem hi]
    rfl
  rw [length_toBytes] at hbytes
  rw [State.phys, hbytes, ofBytes_toBytes, Nat.mod_eq_of_lt (by have := v.isLt; omega)]

/-- A write of the device on the panel, where no frame is. -/
theorem devWrite_plain {pa : Nat} {data : List Byte} (hf : s.frames = []) (hpa : pa < panelEnd) :
    (devWrite s pa data).frames = [] ∧ (devWrite s pa data).mem = s.mem.writeBytes pa data := by
  have hown := (cacheOnly.rfl' s).ownTouch none pa
  have hwin : ¬winBase ≤ pa := by
    unfold panelEnd at hpa
    unfold winBase
    omega
  have hframe : (ownTouch s none pa).frameAt pa = none := by
    rw [State.frameAt, hown.frames, hf]
    rfl
  have hraw : rawWrite (ownTouch s none pa) pa data = { ownTouch s none pa with mem := (ownTouch s none pa).mem.writeBytes pa data } := by
    unfold rawWrite
    rw [if_neg hwin, if_neg (Nat.not_le.mpr hpa), hframe]
  unfold devWrite homeWrite
  rw [hraw]
  exact ⟨hown.frames.trans hf, congrArg (fun m : Memory => m.writeBytes pa data) hown.mem⟩

/-! ### A launch is over -/

theorem emptyL1_cacheOnly (s : State) : cacheOnly s (emptyL1 s) :=
  cacheOnly_foldl _ (fun t c => by
    split
    · exact (cacheOnly.rfl' t).setL1 _ _
    · exact .rfl' t) _ _

theorem closeLaunch_gone (s : State) (ctx : Nat) (l : Launch) (v : Word) : (closeLaunch s ctx l v).launch? ctx l.lid = none := by
  unfold closeLaunch
  dsimp only
  rw [State.launch?, State.ctx?, (emptyL1_cacheOnly _).ctxs, ← State.ctx?, State.ctx?_updCtx_self, Option.bind_map]
  refine Option.bind_eq_none_iff.mpr fun x _ => ?_
  rw [Function.comp, List.find?_filter, List.find?_eq_none]
  simp

theorem closeLaunch_silent {ctx : Nat} {l : Launch} {v : Word} (h : l.done = 0) : (closeLaunch s ctx l v).mem = s.mem := by
  unfold closeLaunch writeDone
  rw [emptyL1_mem, State.updCtx_mem, if_pos (by simp [h])]

theorem closeLaunch_writes {ctx pa : Nat} {l : Launch} {v : Word} (h0 : l.done ≠ 0) (h8 : l.done % 8 = 0)
    (ht : devTranslate s ctx l.done .store = (t, .ok pa)) (hp : plainRange t pa 8) : (closeLaunch s ctx l v).phys pa 8 = v.toNat := by
  have hend : pa + 8 ≤ panelEnd := hp.1
  obtain ⟨hframes, hmem⟩ := devWrite_plain (data := toBytes 8 v.toNat) (frames_of_plainRange hp) (pa := pa) (by omega)
  have hdone : ∃ session body, writeDone s ctx l v = sendUz (devWrite t pa (toBytes 8 v.toNat)) session 0x09 0 0 body := by
    unfold writeDone
    rw [if_neg (by simp [h0, h8]), ht]
    exact ⟨_, _, rfl⟩
  obtain ⟨session, body, hdone⟩ := hdone
  unfold closeLaunch
  rw [hdone]
  refine phys_of_writeBytes (m := t.mem) ?_ hend ?_
  · rw [(emptyL1_cacheOnly _).frames]
    exact hframes
  · rw [emptyL1_mem]
    exact hmem

theorem lid_of_launch? {ctx lid : Nat} {l : Launch} (h : s.launch? ctx lid = some l) : l.lid = lid := by
  obtain ⟨x, _, hx⟩ := Option.bind_eq_some_iff.mp h
  simpa using List.find?_some hx

/-- A launch all of whose blocks have ended or been killed leaves, with its done word written. -/
theorem completeLaunch_spec {ctx lid : Nat} {l : Launch} (hl : s.launch? ctx lid = some l) (hr : l.state = .ready) (hn : l.ended + l.killed = l.total) :
    ∃ r, completeLaunch s ctx lid = some r ∧ r.launch? ctx lid = none ∧ (l.done = 0 → r.mem = s.mem)
      ∧ ∀ t pa, l.done ≠ 0 → l.done % 8 = 0 → devTranslate s ctx l.done .store = (t, .ok pa) → plainRange t pa 8 →
        r.phys pa 8 = (doneWord (if l.killed = 0 then 1 else 3) 0 l.killed).toNat := by
  have hgone (v : Word) : (closeLaunch s ctx l v).launch? ctx lid = none := lid_of_launch? hl ▸ closeLaunch_gone s ctx l v
  refine ⟨closeLaunch s ctx l (doneWord (if l.killed = 0 then 1 else 3) 0 l.killed), ?_, hgone _, closeLaunch_silent,
    fun t pa h0 h8 ht hp => closeLaunch_writes h0 h8 ht hp⟩
  unfold completeLaunch
  simp [hl, hr, hn]

/-! ### A launch becomes ready -/

theorem readRecord_queued {ctx : Nat} {l : Launch} (hq : l.state = .queued) :
    (readVA s ctx 256 l.record.toNat = (t, none) → readRecord s ctx l = (t, .error (l, 6)))
      ∧ ∀ d, readVA s ctx 256 l.record.toNat = (t, some d) →
        readRecord s ctx l = (t, if recordOkFields (parseRecord l d) d then .ok (parseRecord l d) else .error (parseRecord l d, 3)) := by
  unfold readRecord
  rw [if_neg (by simp [hq])]
  exact ⟨fun hr => by rw [hr], fun d hr => by rw [hr]⟩

theorem readyLaunch_queued {ctx q : Nat} {l : Launch} (hl : ((s.ctx? ctx).bind fun x => x.head q) = some l) (hq : l.state = .queued) :
    (∀ y e, readRecord s ctx l = (t, .error (y, e)) → readyLaunch s ctx q = some (reject t ctx y e))
      ∧ ∀ y, readRecord s ctx l = (t, .ok y) → y.depcount = 0 → readyLaunch s ctx q = some (makeReady t ctx y) := by
  unfold readyLaunch
  simp only [hl]
  rw [if_neg (by simp [hq])]
  exact ⟨fun y e hr => by rw [hr], fun y hr hd => by rw [hr]; exact if_pos hd⟩

theorem ready_of_readyChecks {ctx : Nat} {l m : Launch} (h : readyChecks s ctx l = (t, .ok m)) : m.state = .ready := by
  have hok {a b : State} {e : Except Nat Launch} (hp : (a, e) = (b, .ok m)) : e = .ok m := (Prod.mk.inj hp).2
  unfold readyChecks at h
  split at h
  · exact nomatch hok h
  · dsimp only at h
    split at h
    · exact nomatch hok h
    · split at h
      · exact nomatch hok h
      · split at h
        · exact nomatch hok h
        · split at h
          · exact nomatch hok h
          · rw [← Except.ok.inj (hok h)]

end Sys2Proof.Machine
end

section
/-! SUPPORT. Blocks that are pre-empted together stop, each into a frame of its own. -/
namespace Sys2Proof.Machine
variable {s t : State}

/-! ### Free frames -/

theorem frameClaimed_false {pa : Nat} : frameClaimed s pa = false ↔ ∀ e ∈ s.blocks, e.2.saving.map Prod.fst ≠ some pa := by
  unfold frameClaimed
  simp

theorem Block.saving_of_fixed {b c : Block} (h : b.fixed = c.fixed) : b.saving = c.saving := congrArg (fun p => p.2.2.2.2.2.2) h

theorem lives.frameClaimed {pa : Nat} (h : lives s t) (hs : frameClaimed s pa = false) : frameClaimed t pa = false := by
  rw [frameClaimed_false] at hs ⊢
  intro e he
  obtain ⟨b, hb, hf⟩ := h.entries e he
  rw [← Block.saving_of_fixed hf]
  exact hs _ hb

/-- No saved block stands in a frame. -/
def unsaved (s : State) (pa : Nat) : Bool := !(match mget s.frames pa with | some f => f.saved && f.block.isSome | none => false)

theorem unsaved_of_holding {pa : Nat} (h : (mget t.frames pa).map Frame.holding = (mget s.frames pa).map Frame.holding) : unsaved t pa = unsaved s pa := by
  have hall (r : State) : unsaved r pa = !((mget r.frames pa).map Frame.holding).any fun x => x.1 && x.2.2.2.2 := by
    unfold unsaved
    cases mget r.frames pa <;> rfl
  rw [hall, hall, h]

theorem frameFree_iff {pa : Nat} : frameFree s pa = true ↔ frameClaimed s pa = false ∧ unsaved s pa = true := by
  show (!Machine.frameClaimed s pa && unsaved s pa) = true ↔ _
  rw [Bool.and_eq_true, Bool.not_eq_true']

theorem lives.frameFree {pa : Nat} (h : lives s t) (hs : frameFree s pa = true) : frameFree t pa = true := by
  rw [frameFree_iff] at hs ⊢
  exact ⟨h.frameClaimed hs.1, (unsaved_of_holding (h.frames pa)).trans hs.2⟩

/-- A block that begins to be saved takes its frame alone. -/
theorem frameFree_updBlock {u f why pa : Nat} (hne : pa ≠ f) (h : frameFree s pa = true) :
    frameFree (s.updBlock u fun b => { b with stop := true, saving := some (f, why) }) pa = true := by
  rw [frameFree_iff] at h ⊢
  refine ⟨?_, h.2⟩
  obtain ⟨hclaim, _⟩ := h
  rw [frameClaimed_false] at hclaim ⊢
  intro e he
  unfold State.updBlock mupd at he
  split at he
  · rcases mem_mput he with rfl | he
    · exact fun hf => hne (Option.some.inj hf).symm
    · exact hclaim e he
  · exact hclaim e he

/-- What a save that begins does: nothing that blocks and frames keep changes, but for the block that is to be saved. -/
theorem beginSave_spec {u : Nat} (f why : Nat) {b : Block} (hb : s.block? u = some b) :
    ∃ t, lives s t ∧ lives (t.updBlock u fun b => { b with stop := true, saving := some (f, why) }) (beginSave s u f why) := by
  refine ⟨askAll s u b, askAll_lives (.refl s), ?_⟩
  unfold beginSave
  simp only [hb]
  exact goAbsent_lives (.refl _)

theorem beginSave_frameFree {u f why pa : Nat} {b : Block} (hb : s.block? u = some b) (hne : pa ≠ f) (h : frameFree s pa = true) :
    frameFree (beginSave s u f why) pa = true := by
  obtain ⟨t, hst, htr⟩ := beginSave_spec f why hb
  exact htr.frameFree (frameFree_updBlock hne (hst.frameFree h))

theorem beginSave_other {u v f why : Nat} {b : Block} (hb : s.block? u = some b) (hne : v ≠ u) :
    ((beginSave s u f why).block? v).map Block.fixed = (s.block? v).map Block.fixed := by
  obtain ⟨t, hst, htr⟩ := beginSave_spec f why hb
  rw [htr.blocks, State.block?_updBlock_ne _ _ hne, hst.blocks]

theorem beginSave_area {u f why : Nat} {b : Block} (hb : s.block? u = some b) (c : Nat) :
    ((beginSave s u f why).ctx? c).map Ctx.area = (s.ctx? c).map Ctx.area := by
  obtain ⟨t, hst, htr⟩ := beginSave_spec f why hb
  rw [htr.areas, ← hst.areas c]
  rfl

/-- The frames of a pool. -/
def pooled (x : Nat × Nat) : List Nat := (upto x.2).map fun i => x.1 + frameSize * i

theorem nodup_pooled (x : Nat × Nat) : (pooled x).Nodup := by
  refine List.nodup_range.map fun i j hij => ?_
  have hsize : 0 < frameSize := by unfold frameSize; omega
  exact Nat.eq_of_mul_eq_mul_left hsize (Nat.add_left_cancel hij)

theorem freeFrames_eq (s : State) (ctx : Nat) :
    freeFrames s ctx = (((s.ctx? ctx).map Ctx.area).elim [] pooled).filter (frameFree s) := by
  unfold freeFrames
  cases s.ctx? ctx <;> rfl

/-- A save that begins takes at most one of the free frames. -/
theorem freeFrames_beginSave {u f why ctx : Nat} {b : Block} (hb : s.block? u = some b) :
    (freeFrames s ctx).length ≤ (freeFrames (beginSave s u f why) ctx).length + 1 := by
  rw [freeFrames_eq s, freeFrames_eq (beginSave s u f why), beginSave_area hb]
  generalize hl : ((s.ctx? ctx).map Ctx.area).elim [] pooled = l
  have hnodup : l.Nodup := by
    rw [← hl]
    cases (s.ctx? ctx).map Ctx.area with
    | none => exact List.nodup_nil
    | some x => exact nodup_pooled x
  have hsub : l.filter (frameFree s) ⊆ f :: l.filter (frameFree (beginSave s u f why)) := by
    intro pa hpa
    obtain ⟨hmem, hfree⟩ := List.mem_filter.mp hpa
    by_cases hne : pa = f
    · exact hne ▸ List.mem_cons_self
    · exact List.mem_cons_of_mem _ (List.mem_filter.mpr ⟨hmem, beginSave_frameFree hb hne hfree⟩)
  exact (List.subperm_of_subset (hnodup.filter _) hsub).length_le

/-! ### Pre-emption of some blocks -/

/-- A block that is being pre-empted: it is asked to stop, to be saved with reason 1. -/
def preempted (s : State) (u : Nat) : Prop := (s.block? u).map (fun b => (b.stop, b.saving.map Prod.snd)) = some (true, some 1)

theorem preempted_of_fixed {u : Nat} (h : (t.block? u).map Block.fixed = (s.block? u).map Block.fixed) (hs : preempted s u) : preempted t u := by
  have hall (r : State) : (r.block? u).map (fun b => (b.stop, b.saving.map Prod.snd))
      = ((r.block? u).map Block.fixed).map fun p => (p.2.2.2.2.2.1, p.2.2.2.2.2.2.map Prod.snd) := by
    cases r.block? u <;> rfl
  unfold preempted at hs ⊢
  rw [hall] at hs ⊢
  rw [h, hs]

theorem preempted_beginSave {u f : Nat} {b : Block} (hb : s.block? u = some b) : preempted (beginSave s u f 1) u := by
  obtain ⟨c, hc, hv⟩ := Option.map_eq_some_iff.mp (beginSave_stops (frame := f) (why := 1) hb)
  obtain ⟨hstop, hsaving⟩ := Prod.mk.inj hv
  unfold preempted
  rw [hc, Option.map_some, hstop, hsaving]
  rfl

theorem preemptAll_cons {u f : Nat} {b : Block} {fs : List Nat} (hf : freeFrames s b.ctx = f :: fs) (r : List (Nat × Block)) :
    preemptAll s ((u, b) :: r) = preemptAll ((beginSave s u f 1).updCore b.core fun x => { x with preemptAt := some s.clock }) r := by
  rw [preemptAll, hf]

/-- With a free frame for each of some resident blocks of a context all of them are pre-empted. -/
theorem preemptAll_stops {ctx : Nat} {l : List (Nat × Block)} (hres : ∀ x ∈ l, (s.block? x.1).isSome) (hctx : ∀ x ∈ l, x.2.ctx = ctx)
    (hroom : l.length ≤ (freeFrames s ctx).length) {u : Nat} (hu : preempted s u ∨ ∃ x ∈ l, x.1 = u) : preempted (preemptAll s l) u := by
  induction l generalizing s with
  | nil => exact hu.elim id fun ⟨_, hx, _⟩ => nomatch hx
  | cons e r ih =>
    obtain ⟨v, b⟩ := e
    have hb : b.ctx = ctx := hctx _ List.mem_cons_self
    obtain ⟨c, hc⟩ := Option.isSome_iff_exists.mp (hres _ List.mem_cons_self)
    cases hfs : freeFrames s ctx with
    | nil =>
      rw [hfs] at hroom
      exact absurd hroom (Nat.not_succ_le_zero _)
    | cons f fs =>
      have hkeep {w : Nat} (hw : w ≠ v) := beginSave_other (f := f) (why := 1) hc hw
      have hv : preempted (beginSave s v f 1) v := preempted_beginSave hc
      rw [preemptAll_cons (hb ▸ hfs)]
      refine ih (fun x hx => ?_) (fun x hx => hctx x (List.mem_cons_of_mem _ hx)) ?_ ?_
      · by_cases hxv : x.1 = v
        · rw [hxv]
          obtain ⟨y, hy, _⟩ := Option.map_eq_some_iff.mp hv
          exact Option.isSome_iff_exists.mpr ⟨y, hy⟩
        · have hsome := congrArg Option.isSome (hkeep hxv)
          rw [Option.isSome_map, Option.isSome_map, hres x (List.mem_cons_of_mem _ hx)] at hsome
          exact hsome
      · have hle := freeFrames_beginSave (f := f) (why := 1) (ctx := ctx) hc
        rw [List.length_cons] at hroom
        exact Nat.le_of_add_le_add_right (hroom.trans hle)
      · by_cases huv : u = v
        · exact .inl (huv ▸ hv)
        · rcases hu with hu | ⟨x, hx, rfl⟩
          · exact .inl (preempted_of_fixed (hkeep huv) hu)
          · rcases List.mem_cons.mp hx with rfl | hx
            · exact absurd rfl huv
            · exact .inr ⟨x, hx, rfl⟩

/-! ### The choice of a victim -/

/-- The worse of a block and the one chosen so far. -/
def worseOf (e : Nat × Block) (r : Option (Nat × Block)) : Option (Nat × Block) :=
  match r with
  | none => some e
  | some k => if worse e.2 k.2 then some e else some k

theorem prio_of_worse {a b : Block} : (worse a b = true → a.prio ≤ b.prio) ∧ (worse a b = false → b.prio ≤ a.prio) := by
  unfold worse
  by_cases h : a.prio = b.prio
  · exact ⟨fun _ => h.le, fun _ => h.ge⟩
  · rw [if_pos h, decide_eq_true_eq, decide_eq_false_iff_not]
    exact ⟨Nat.le_of_lt, Nat.le_of_not_lt⟩

/-- The victim is one of the blocks, and of their lowest class. -/
theorem worst_spec (l : List (Nat × Block)) : l ≠ [] → ∃ v ∈ l, l.foldr worseOf none = some v ∧ ∀ e ∈ l, v.2.prio ≤ e.2.prio := by
  induction l with
  | nil => exact fun h => absurd rfl h
  | cons e r ih =>
    intro _
    by_cases hr : r = []
    · subst hr
      exact ⟨e, List.mem_cons_self, rfl, fun x hx => by rw [List.mem_singleton.mp hx]⟩
    · obtain ⟨k, hk, hfold, hmin⟩ := ih hr
      have hstep : (e :: r).foldr worseOf none = if worse e.2 k.2 then some e else some k := by
        rw [List.foldr_cons, hfold, worseOf]
      cases hw : worse e.2 k.2 with
      | true =>
        have hle := prio_of_worse.1 hw
        refine ⟨e, List.mem_cons_self, by rw [hstep, hw, if_pos rfl], fun x hx => ?_⟩
        rcases List.mem_cons.mp hx with rfl | hx
        · exact Nat.le_refl _
        · exact hle.trans (hmin x hx)
      | false =>
        have hle := prio_of_worse.2 hw
        refine ⟨k, List.mem_cons_of_mem _ hk, by rw [hstep, hw]; rfl, fun x hx => ?_⟩
        rcases List.mem_cons.mp hx with rfl | hx
        · exact hle
        · exact hmin x hx

/-! ### The step -/

/-- The blocks of a die that may be pre-empted for a launch of a class. -/
def victims (s : State) (d prio : Nat) : List (Nat × Block) := s.blocks.filter fun e => coreDie e.2.core = d &&
  ((preemptSet s e.2).all (fun x => mayPreempt s prio x.2) && (preemptSet s e.2).length ≤ (freeFrames s e.2.ctx).length)

theorem mem_victims {d prio : Nat} {e : Nat × Block} : e ∈ victims s d prio ↔ e ∈ s.blocks ∧ coreDie e.2.core = d
    ∧ (∀ x ∈ preemptSet s e.2, mayPreempt s prio x.2 = true) ∧ (preemptSet s e.2).length ≤ (freeFrames s e.2.ctx).length := by
  unfold victims
  simp [List.mem_filter, List.all_eq_true]

theorem preemptStep_of {d ctx : Nat} {l : Launch} (hfind : (readyLaunches s).find? (fun e => mayUse s d e.1 e.2) = some (ctx, l))
    (hdie : diePlaces s d = true) (hnext : placeNextOf s d ctx l = none)
    (hunder : ∀ e ∈ s.blocks, coreDie e.2.core = d → e.2.saving.map Prod.snd ≠ some 1) {v : Nat × Block}
    (hv : (victims s d (l.flags.toNat % 4)).foldr worseOf none = some v) : preemptStep s d = some (preemptAll s (preemptSet s v.2)) := by
  have hnone : (s.blocks.any fun b => coreDie b.2.core = d && b.2.saving.any fun e => e.2 = 1) = false := by
    rw [List.any_eq_false]
    intro e he hsel
    obtain ⟨hd, hs⟩ := Bool.and_eq_true_iff.mp hsel
    obtain ⟨p, hp, hone⟩ := Option.any_eq_true _ _ |>.mp hs
    exact hunder e he (of_decide_eq_true hd) (by rw [hp, Option.map_some, of_decide_eq_true hone])
  unfold preemptStep
  simp only [hfind, hdie, hnone, hnext]
  show (match (victims s d (l.flags.toNat % 4)).foldr worseOf none with
    | none => none
    | some v => some (preemptAll s (preemptSet s v.2))) = _
  rw [hv]

theorem mget_isSome_of_mem {α : Type} {m : Map α} {e : Nat × α} (h : e ∈ m) : (mget m e.1).isSome := by
  induction m with
  | nil => cases h
  | cons i r ih =>
    obtain ⟨j, w⟩ := i
    rw [mget]
    split
    · rfl
    · rename_i hne
      rcases List.mem_cons.mp h with rfl | h
      · exact absurd rfl hne
      · exact ih h

/-- Blocks that are pre-empted together are resident, and of one context. -/
theorem mem_preemptSet {b : Block} {x : Nat × Block} (h : x ∈ preemptSet s b) : (s.block? x.1).isSome ∧ x.2.ctx = b.ctx := by
  obtain ⟨i, _, hx⟩ := List.mem_filterMap.mp h
  have hsel := List.find?_some hx
  simp only [Bool.and_eq_true, decide_eq_true_eq] at hsel
  exact ⟨mget_isSome_of_mem (List.mem_of_find?_eq_some hx), hsel.1.1⟩

/-- A block that is no gang's is pre-empted alone. -/
theorem preemptSet_alone {u : Nat} {b : Block} (hblocks : s.blocks = [(u, b)]) (hi : gangIndices s b = [b.idx]) : preemptSet s b = [(u, b)] := by
  unfold preemptSet blockOf
  rw [hi, hblocks]
  simp

theorem saving_of_mayPreempt {prio : Nat} {b : Block} (h : mayPreempt s prio b = true) : b.saving = none := by
  unfold mayPreempt at h
  simp only [Bool.and_eq_true] at h
  exact Option.isNone_iff_eq_none.mp h.1.1.2

/-- The victim of the lowest class is pre-empted, with its gang. -/
theorem preemptStep_worst {d ctx : Nat} {l : Launch} (hfind : (readyLaunches s).find? (fun e => mayUse s d e.1 e.2) = some (ctx, l))
    (hdie : diePlaces s d = true) (hnext : placeNextOf s d ctx l = none)
    (hunder : ∀ e ∈ s.blocks, coreDie e.2.core = d → e.2.saving.map Prod.snd ≠ some 1) (hne : victims s d (l.flags.toNat % 4) ≠ []) :
    ∃ t v, preemptStep s d = some t ∧ v ∈ victims s d (l.flags.toNat % 4) ∧ (∀ e ∈ victims s d (l.flags.toNat % 4), v.2.prio ≤ e.2.prio)
      ∧ ∀ x ∈ preemptSet s v.2, preempted t x.1 := by
  obtain ⟨v, hv, hfold, hmin⟩ := worst_spec _ hne
  obtain ⟨_, _, _, hroom⟩ := mem_victims.mp hv
  exact ⟨_, v, preemptStep_of hfind hdie hnext hunder hfold, hv, hmin, fun x hx =>
    preemptAll_stops (fun y hy => (mem_preemptSet hy).1) (fun y hy => (mem_preemptSet hy).2) hroom (.inr ⟨x, hx, rfl⟩)⟩

/-- A block that is alone on the panel is pre-empted into the first free frame. -/
theorem preemptStep_alone {d ctx u f : Nat} {l : Launch} {b : Block} {fs : List Nat}
    (hfind : (readyLaunches s).find? (fun e => mayUse s d e.1 e.2) = some (ctx, l)) (hdie : diePlaces s d = true) (hnext : placeNextOf s d ctx l = none)
    (hblocks : s.blocks = [(u, b)]) (hcore : coreDie b.core = d) (hgang : gangIndices s b = [b.idx])
    (hmay : mayPreempt s (l.flags.toNat % 4) b = true) (hfree : freeFrames s b.ctx = f :: fs) :
    ∃ t, preemptStep s d = some t ∧ (t.block? u).map (fun b => (b.stop, b.saving)) = some (true, some (f, 1)) := by
  have hset := preemptSet_alone hblocks hgang
  have hb : s.block? u = some b := by
    rw [State.block?, hblocks, mget, if_pos rfl]
  have hvictim : (u, b) ∈ victims s d (l.flags.toNat % 4) := by
    rw [mem_victims, hset, hfree]
    exact ⟨by simp [hblocks], hcore, fun x hx => by rwa [List.mem_singleton.mp hx], by simp⟩
  obtain ⟨v, hv, hfold, _⟩ := worst_spec _ (List.ne_nil_of_mem hvictim)
  obtain rfl : v = (u, b) := by
    have hmem := (mem_victims.mp hv).1
    rw [hblocks] at hmem
    exact List.mem_singleton.mp hmem
  have hunder : ∀ e ∈ s.blocks, coreDie e.2.core = d → e.2.saving.map Prod.snd ≠ some 1 := by
    intro e he _
    rw [hblocks, List.mem_singleton] at he
    subst he
    rw [saving_of_mayPreempt hmay]
    exact nofun
  have hstep := preemptStep_of hfind hdie hnext hunder hfold
  rw [hset, preemptAll_cons hfree] at hstep
  exact ⟨_, hstep, beginSave_stops hb⟩

end Sys2Proof.Machine
end

section
/-! PROOFS. Launches and their blocks (O50): how a block starts, and the obligation. -/
namespace Sys2Proof.Machine
variable {s t : State}

/-! ### A block starts -/

theorem device.nextUid (h : device s t) : t.nextUid = s.nextUid := by
  induction h with
  | refl => rfl
  | still _ ha ih => exact ha.nextUid.trans ih
  | push pa n _ ih => exact ih

theorem withdraw_blocks (s : State) (d : Nat) (tree : Bool) : (withdraw s d tree).blocks = s.blocks := by
  unfold withdraw
  split
  · cases tree <;> rfl
  · rfl

theorem joinTrees_blocks (s : State) (ctx d : Nat) : (joinTrees s ctx d).blocks = s.blocks := by
  unfold joinTrees
  refine foldl_same (p := State.blocks) (fun t tree _ => ?_) s
  split
  · exact withdraw_blocks t d tree
  · rfl

/-- The block that starts is the next to be numbered. -/
theorem placeOn_block? (s : State) (ctx : Nat) (l : Launch) (h : Hdr) (i relaunches c : Nat) :
    (placeOn s ctx l h i relaunches c).block? s.nextUid = some (newBlock (loadMacros s c l.kernel h ctx l.macs) ctx l h i relaunches c) := by
  have huid : (loadMacros s c l.kernel h ctx l.macs).nextUid = s.nextUid := (loadMacros_device .refl).nextUid
  rw [← huid]
  exact mget_mput_self ..

theorem mget_map_keys {α : Type} {l : List Nat} {g : Nat → α} {n : Nat} (h : n ∈ l) : mget (l.map fun k => (k, g k)) n = some (g n) := by
  induction l with
  | nil => cases h
  | cons k r ih =>
    rw [List.map_cons, mget]
    split
    · subst_vars
      rfl
    · rename_i hne
      exact ih ((List.mem_cons.mp h).resolve_left fun he => hne he.symm)

/-- Every fibre of a kernel is in a weave of the block that starts. -/
theorem startWeaves_fibre (s : State) (c : Nat) (h : Hdr) (pc : Word) (seed : BitVec 32) (idx : Nat) {n : Nat} (hn : n < h.fibres) :
    ∃ x, mget (startWeaves s c h pc seed idx) (n / 32) = some x ∧ mget x.fibres (n % 32) = some (Fibre.start .block n []) := by
  have hw : n / 32 ∈ upto h.weaves := by
    unfold upto Hdr.weaves
    rw [List.mem_range]
    omega
  have hsl : n % 32 ∈ (upto 32).filter fun sl => 32 * (n / 32) + sl < h.fibres := by
    unfold upto
    rw [List.mem_filter, List.mem_range, decide_eq_true_eq]
    omega
  refine ⟨_, mget_map_keys hw, ?_⟩
  have hfib := mget_map_keys (g := fun sl => Fibre.start .block (32 * (n / 32) + sl) []) hsl
  rw [Nat.div_add_mod] at hfib
  exact hfib

theorem placeOne_starts (s : State) {ctx : Nat} {l : Launch} {h : Hdr} {i : Nat} (c : Nat) (hframe : frameOf s ctx l.lid i = none) :
    ∃ b, (placeOne s ctx l h i c).block? s.nextUid = some b ∧ (b.ctx, b.lid, b.idx, b.core, b.hdr) = (ctx, l.lid, i, c, h)
      ∧ ∀ n, n < h.fibres → (placeOne s ctx l h i c).fibre? s.nextUid (n / 32) (n % 32) = some (Fibre.start .block n []) := by
  have hb : (placeOne s ctx l h i c).block? s.nextUid
      = some (newBlock (loadMacros s c l.kernel h ctx l.macs) ctx l h i (l.againOf i).1 c) := by
    unfold placeOne
    rw [hframe]
    dsimp only
    rw [State.block?, joinTrees_blocks]
    exact placeOn_block? ..
  refine ⟨_, hb, rfl, fun n hn => ?_⟩
  obtain ⟨x, hx, hf⟩ := startWeaves_fibre (loadMacros s c l.kernel h ctx l.macs) c h (entryPC l.kernel h.entry) l.seed i hn
  rw [State.fibre?, State.weave?, hb]
  show (mget (startWeaves _ _ _ _ _ _) _).bind _ = _
  rw [hx]
  exact hf

/-! ### The dispatcher's choice -/

theorem frameOf_unsaved {ctx lid : Nat} (h : savedOf s ctx lid = []) (i : Nat) : frameOf s ctx lid i = none := by
  unfold frameOf
  rw [h]
  rfl

/-- A block alone, never saved, goes to the best of the cores that take it. -/
theorem placeNextOf_alone {d ctx i c : Nat} {l : Launch} {h : Hdr} (hl : s.launch? ctx l.lid = some l) (hh : l.hdr = some h)
    (hi : nextBlock s ctx l = some i) (hg : l.gangOf i = none) (hsaved : savedOf s ctx l.lid = [])
    (hc : bestCore s (openCores s ctx l h i (avoided l 6 [i] i) (dieCores d)) = some c) : placeNextOf s d ctx l = some (placeOne s ctx l h i c) := by
  have hframe := frameOf_unsaved hsaved i
  have hgroup : groupOf s ctx l i = ⟨6, [i]⟩ := by
    unfold groupOf
    rw [hg]
  have hcand : candidates s ctx l h ⟨6, [i]⟩ i (dieCores d) = openCores s ctx l h i (avoided l 6 [i] i) (dieCores d) := by
    unfold candidates
    rw [hframe]
    rfl
  have hdraw : drawCore s false (openCores s ctx l h i (avoided l 6 [i] i) (dieCores d)) = (s, some c) := by
    rw [← hc]
    rfl
  unfold placeNextOf
  simp only [hh, hi, hg, hgroup]
  rw [placeAll]
  simp only [hl, hframe, Option.bind_none, hcand, hdraw]
  rfl

theorem placeBlock_first {d ctx : Nat} {l : Launch} {r : List (Nat × Launch)} (hdie : diePlaces s d = true) (hbusy : (s.die d).dcbusy = none)
    (hready : readyLaunches s = (ctx, l) :: r) (hn : placeNextOf s d ctx l = some t) : placeBlock s d = some t := by
  unfold placeBlock placesNow
  rw [hdie, hbusy, hready, placeFirst, hn]
  rfl

/-- Settles O50: each event reduces to what its step does, a block that starts (`placeOne_starts`), blocks that are pre-empted together
(`preemptAll_stops`) and a launch that is over (`closeLaunch_gone`, `closeLaunch_writes`). -/
theorem launchesMove : Obligations.LaunchesMove := by
  unfold Obligations.LaunchesMove
  intro s ctx
  refine ⟨fun q l0 t d hl hq hr => ⟨fun hbad => ?_, fun r m hok hdep hchecks => ⟨?_, ready_of_readyChecks hchecks⟩⟩, fun q l0 t hl hq hr => ?_,
    fun d l r h i c hdie hbusy hready hl hh hi hg hsaved hc => ?_, fun d l r u b f fs hready huse hdie hnext hblocks hcore hgang hmay hfree => ?_,
    fun d l hfind hdie hnext hunder => ?_, fun lid l hl hr hn => ?_⟩
  · have hrec := (readRecord_queued hq).2 d hr
    rw [if_neg (by simp [hbad])] at hrec
    exact congrArg (event _) ((readyLaunch_queued hl hq).1 _ _ hrec)
  · have hrec := (readRecord_queued hq).2 d hr
    rw [if_pos hok] at hrec
    have hstep := (readyLaunch_queued hl hq).2 _ hrec hdep
    unfold makeReady at hstep
    rw [hchecks] at hstep
    exact congrArg (event _) hstep
  · exact congrArg (event _) ((readyLaunch_queued hl hq).1 _ _ ((readRecord_queued hq).1 hr))
  · obtain ⟨b, hb, hfields, hfibres⟩ := placeOne_starts s c (h := h) (frameOf_unsaved hsaved i)
    exact ⟨_, b, congrArg (event _) (placeBlock_first hdie hbusy hready (placeNextOf_alone hl hh hi hg hsaved hc)), hb, hfields, hfibres⟩
  · have hfind : (readyLaunches s).find? (fun e => mayUse s d e.1 e.2) = some (ctx, l) := by
      rw [hready]
      exact List.find?_cons_of_pos huse
    obtain ⟨t, hstep, hstop⟩ := preemptStep_alone hfind hdie hnext hblocks hcore hgang hmay hfree
    exact ⟨t, congrArg (event _) hstep, hstop⟩
  · intro ok hex
    obtain ⟨e, he⟩ := hex
    obtain ⟨t, v, hstep, hv, hmin, hstops⟩ := preemptStep_worst hfind hdie hnext hunder (List.ne_nil_of_mem (mem_victims.mpr he))
    exact ⟨t, v, congrArg (event _) hstep, mem_victims.mp hv, fun e he => hmin e (mem_victims.mpr he), hstops⟩
  · obtain ⟨r, hstep, hgone, hsilent, hwrites⟩ := completeLaunch_spec hl hr hn
    exact ⟨fun h0 => ⟨r, congrArg (event _) hstep, hgone, hsilent h0⟩,
      fun t pa h0 h8 ht hp => ⟨r, congrArg (event _) hstep, hgone, hwrites t pa h0 h8 ht hp⟩⟩

end Sys2Proof.Machine
end

section
/-! PROOFS. `launch` submits a record (O38): what earlier participants of one instruction leave of the registers that a later one reads, and the
submission of a lone one. -/
namespace Sys2Proof.Machine
variable {s t r : State} {k : Iss}

/-! ### Commits of an empty buffer -/

theorem drain_nil (s : State) (u c : Nat) : drain s u c [] = s := by
  unfold drain
  cases s.block? u <;> rfl

theorem commitBuf_of_empty {q : Buf} (h : s.buf q = []) :
    commitBuf s q = (s.setBuf q []).updBlock q.uid fun b => { b with wopen := false } := by
  unfold commitBuf
  rw [h]
  exact congrArg (fun r => State.updBlock r q.uid fun b => { b with wopen := false }) (drain_nil ..)

theorem fibre?_setBuf (s : State) (q : Buf) (l : List SEntry) (v y sl : Nat) : (s.setBuf q l).fibre? v y sl = s.fibre? v y sl := by
  cases q with
  | block u =>
    unfold State.fibre? State.setBuf
    rw [weave?_updBlock fun _ => by rfl]
  | weave u w =>
    refine fibre?_updWeave_keep (fun x => ?_) v y sl
    rfl

theorem stream?_setBuf (s : State) (q : Buf) (l : List SEntry) (v : Nat) : (s.setBuf q l).stream? v = s.stream? v := by
  cases q with
  | block u =>
    refine stream?_updBlock (fun b => ?_) s u v
    rfl
  | weave u w => exact stream?_updWeave ..

section
variable {q : Buf} (h : s.buf q = [])
include h

theorem fibre?_commitBuf_of_empty (v y sl : Nat) : (commitBuf s q).fibre? v y sl = s.fibre? v y sl := by
  rw [commitBuf_of_empty h, ← fibre?_setBuf s q []]
  unfold State.fibre?
  rw [weave?_updBlock fun _ => by rfl]

theorem stream?_commitBuf_of_empty (v : Nat) : (commitBuf s q).stream? v = s.stream? v := by
  rw [commitBuf_of_empty h, stream?_updBlock fun _ => by rfl, stream?_setBuf]

theorem ctxs_commitBuf_of_empty : (commitBuf s q).ctxs = s.ctxs := by
  rw [commitBuf_of_empty h]
  cases q <;> rfl

end

/-! ### Registers that go dead between participants -/

/-- Registers of a fibre may have gone dead; its kind, its pool and the others stand. -/
structure Fibre.fades (f g : Fibre) : Prop where
  kind : g.kind = f.kind
  pool : g.pool = f.pool
  regs : ∀ n, mget g.regs n = mget f.regs n ∨ mget g.regs n = some .dead

/-- What names the store buffer of an agent, and what the buffer holds. -/
def Block.base (b : Block) : Nat × List SEntry := (b.core, b.sbuf)
def Weave.base (x : Weave) : WKind × Nat × List SEntry := (x.kind, x.core, x.sbuf)

/-- From s to t registers of fibres may have gone dead, and nothing else that an agent reads or stores through has changed. -/
structure fades (s t : State) : Prop where
  blocks : ∀ u, (t.block? u).map Block.base = (s.block? u).map Block.base
  weaves : ∀ u w, (t.weave? u w).map Weave.base = (s.weave? u w).map Weave.base
  fibres : ∀ u w sl, Option.Rel Fibre.fades (s.fibre? u w sl) (t.fibre? u w sl)
  uniform : ∀ u w n, t.readK u w n = s.readK u w n
  stream : ∀ u n, t.readS u n = s.readS u n

theorem Fibre.fades.refl (f : Fibre) : f.fades f := ⟨rfl, rfl, fun _ => .inl rfl⟩

theorem Fibre.fades.trans {f g h : Fibre} (a : f.fades g) (b : g.fades h) : f.fades h where
  kind := b.kind.trans a.kind
  pool := b.pool.trans a.pool
  regs n := by
    rcases b.regs n with e | e
    · rw [e]
      exact a.regs n
    · exact .inr e

theorem fades_of_map {o : Option Fibre} {p : Fibre → Fibre} (hp : ∀ f : Fibre, f.fades (p f)) : Option.Rel Fibre.fades o (o.map p) := by
  cases o with
  | none => exact .none
  | some f => exact .some (hp f)

theorem fades_of_eq {o q : Option Fibre} (h : q = o) : Option.Rel Fibre.fades o q := by
  rw [h]
  cases o with
  | none => exact .none
  | some f => exact .some (.refl f)

theorem fades.refl (s : State) : fades s s := ⟨fun _ => rfl, fun _ _ => rfl, fun _ _ _ => fades_of_eq rfl, fun _ _ _ => rfl, fun _ _ => rfl⟩

theorem fades.trans (h : fades s t) (g : fades t r) : fades s r where
  blocks u := (g.blocks u).trans (h.blocks u)
  weaves u w := (g.weaves u w).trans (h.weaves u w)
  fibres u w sl := by
    have a := h.fibres u w sl
    have b := g.fibres u w sl
    generalize s.fibre? u w sl = x, t.fibre? u w sl = y, r.fibre? u w sl = z at a b
    cases a with
    | none => cases b; exact .none
    | some a =>
      cases b with
      | some b => exact .some (a.trans b)
  uniform u w n := (g.uniform u w n).trans (h.uniform u w n)
  stream u n := (g.stream u n).trans (h.stream u n)

/-! ### Reading where registers have gone dead -/

section
variable (h : fades s t)
include h

theorem fades.readW (u w sl n : Nat) : (t.readW u w sl n).1 = (s.readW u w sl n).1 ∨ (t.readW u w sl n).1 = 0 := by
  have hf := h.fibres u w sl
  unfold State.readW
  generalize s.fibre? u w sl = x, t.fibre? u w sl = y at hf ⊢
  cases hf with
  | none => exact .inl rfl
  | @some f g hfg =>
    have hh : g.isHelper = f.isHelper := by rw [Fibre.isHelper, hfg.kind]; rfl
    simp only [hh]
    split
    · unfold State.recruiter?
      rw [hfg.kind]
      cases f.kind with
      | helper rw rs n =>
        have hr := h.fibres u rw rs
        dsimp only
        generalize s.fibre? u rw rs = x, t.fibre? u rw rs = y at hr ⊢
        cases hr with
        | none => exact .inl rfl
        | @some a b hab =>
          simp only [Option.map_some, hab.pool]
          cases a.pool with
          | none => exact .inl rfl
          | some p =>
            dsimp only
            split
            · split <;> exact .inl rfl
            · exact .inl rfl
      | _ => exact .inl rfl
    · rcases hfg.regs n with e | e
      · rw [e]
        left
        split <;> rfl
      · rw [e]
        exact .inr rfl

/-- A source is what it was, or a register that has gone dead. -/
theorem fades.src (a : Actor) (x : Src) : t.src a x = s.src a x ∨ t.src a x = 0 := by
  cases a with
  | seq u => exact .inl (h.stream u x.num.toNat)
  | fib u w sl =>
    unfold State.src State.readSrc
    cases x.uni with
    | true => exact .inl (h.uniform ..)
    | false => exact h.readW ..

theorem fades.bufOf (a : Actor) : t.bufOf a = s.bufOf a := by
  cases a with
  | seq u => rfl
  | fib u w sl =>
    have hb := h.blocks u
    have hw := h.weaves u w
    unfold State.weave? at hw
    cases hs : s.block? u with
    | none =>
      have ht : t.block? u = none := by simpa [hs] using hb
      simp only [State.bufOf, hs, ht]
    | some b =>
      obtain ⟨c, ht, hbase⟩ : ∃ c, t.block? u = some c ∧ c.base = b.base := by simpa [hs] using hb
      rw [hs, ht] at hw
      cases hx : mget b.weaves w with
      | none =>
        have hy : mget c.weaves w = none := by simpa [hx] using hw
        simp only [State.bufOf, hs, ht, hx, hy]
      | some x =>
        obtain ⟨y, hy, hxy⟩ : ∃ y, mget c.weaves w = some y ∧ y.base = x.base := by simpa [hx] using hw
        simp only [Block.base, Weave.base, Prod.mk.injEq] at hbase hxy
        simp only [State.bufOf, hs, ht, hx, hy, hbase, hxy]

theorem fades.buf (q : Buf) : t.buf q = s.buf q := by
  cases q with
  | block u =>
    have hb := congrArg (Option.map Prod.snd) (h.blocks u)
    simp only [Option.map_map] at hb
    exact congrArg (·.getD []) hb
  | weave u w =>
    have hw := congrArg (Option.map fun p : WKind × Nat × List SEntry => p.2.2) (h.weaves u w)
    simp only [Option.map_map] at hw
    exact congrArg (·.getD []) hw

end

/-! ### What lets registers go dead and keeps the rest -/

/-- A part of the block that is not its weaves. -/
theorem keeps.blockPart {α : Type} {u : Nat} (h : keeps u s t) {p : Block → α} (hp : ∀ b : Block, p b.rest = p b) :
    (t.block? u).map p = (s.block? u).map p := by
  have e := congrArg (Option.map p) h.block
  rw [Option.map_map, Option.map_map] at e
  simpa only [Function.comp_def, hp] using e

/-- A part of a weave of it that `Weave.rest` keeps. -/
theorem keeps.weavePart {α : Type} {u : Nat} (h : keeps u s t) {p : Weave → α} (hp : ∀ x : Weave, p x.rest = p x) (w : Nat) :
    (t.weave? u w).map p = (s.weave? u w).map p := by
  have e := congrArg (Option.map p) (h.weaves w)
  rw [Option.map_map, Option.map_map] at e
  simpa only [Function.comp_def, hp] using e

theorem keeps.fades {u : Nat} (h : keeps u s t) (hf : ∀ v w sl, Option.Rel Fibre.fades (s.fibre? v w sl) (t.fibre? v w sl))
    (hk : ∀ v w n, t.readK v w n = s.readK v w n) : fades s t where
  blocks v := by
    by_cases hv : v = u
    · subst hv
      exact h.blockPart fun _ => rfl
    · rw [h.others v hv]
  weaves v w := by
    by_cases hv : v = u
    · subst hv
      exact h.weavePart (fun _ => rfl) w
    · rw [State.weave?, h.others v hv]
      rfl
  fibres := hf
  uniform := hk
  stream v n := by rw [State.readS, h.stream]; rfl

theorem fades_noteDead (s : State) (u : Nat) (pc : Word) (r : Option (Nat × Nat × Nat)) : fades s (s.noteDead u pc r) :=
  (keeps_noteDead s u pc r).fades (fun _ _ _ => fades_of_eq (fibre?_noteDead ..)) (readK_noteDead s u pc r)

theorem Fibre.fades_used (f : Fibre) (x : Src) : f.fades (f.used x) := by
  unfold Fibre.used
  split
  · split
    · exact .refl f
    · refine ⟨rfl, rfl, fun n => ?_⟩
      by_cases hn : n = x.num.toNat
      · subst hn
        exact .inr (mget_mput_self ..)
      · exact .inl (mget_mput_ne _ _ hn)
  · exact .refl f

theorem fades_release (s : State) (a : Actor) (x : Src) : fades s (s.release a x) := by
  refine (keeps_release s a x).fades (fun v w sl => ?_) (readK_release s a x)
  rw [fibre?_release]
  split
  · exact fades_of_map fun f => f.fades_used x
  · exact fades_of_eq rfl

/-- A change of a block apart from its weaves, its store buffer, its core and its stream's registers. -/
theorem fades_updBlock {f : Block → Block} {u : Nat} (hw : ∀ b, (f b).weaves = b.weaves) (hs : ∀ b, (f b).stream.map Stream.s = b.stream.map Stream.s)
    (hb : ∀ b, s.block? u = some b → (f b).base = b.base) : fades s (s.updBlock u f) where
  blocks v := by
    by_cases hv : v = u
    · subst hv
      rw [State.block?_updBlock_self]
      cases h : s.block? v with
      | none => rfl
      | some b => exact congrArg some (hb b h)
    · rw [State.block?_updBlock_ne _ _ hv]
  weaves v w := by rw [weave?_updBlock hw]
  fibres v w sl := fades_of_eq (by rw [State.fibre?, weave?_updBlock hw]; rfl)
  uniform v w n := by rw [State.readK, weave?_updBlock hw]; rfl
  stream v n := by
    have hread (t : State) : t.readS v n = (((t.block? v).bind fun b => b.stream.map Stream.s).bind fun l => mget l n).getD 0 := by
      unfold State.readS State.stream?
      cases t.block? v with
      | none => rfl
      | some b => cases h : b.stream <;> simp [h]
    rw [hread, hread]
    by_cases hv : v = u
    · subst hv
      rw [State.block?_updBlock_self]
      cases s.block? v with
      | none => rfl
      | some b => simp only [Option.map_some, Option.bind_some, hs]
    · rw [State.block?_updBlock_ne _ _ hv]

theorem fades_writeP (s : State) (a : Actor) (n : Nat) (v : Bool) : fades s (s.writeP a n v) := by
  by_cases hn : n = 0
  · subst hn
    exact .refl s
  · cases a with
    | fib u w sl =>
      have hp := predsOnly_writeP s u w sl n v
      refine hp.tokeeps.fades (fun v w sl => ?_) hp.uniform
      rw [writeP_fib hn, State.fibre?_updFibre]
      split
      · rename_i e
        obtain ⟨rfl, rfl, rfl⟩ := e
        exact fades_of_map fun f => ⟨rfl, rfl, fun _ => .inl rfl⟩
      · exact fades_of_eq rfl
    | seq u =>
      rw [writeP_seq hn]
      refine fades_updBlock (fun b => ?_) (fun b => ?_) fun b _ => ?_
      · rfl
      · cases h : b.stream <;> simp [Block.updStream, h]
      · rfl

theorem fades_setBuf_of_empty {q : Buf} (h : s.buf q = []) : fades s (s.setBuf q []) := by
  cases q with
  | block u =>
    refine fades_updBlock (fun b => ?_) (fun b => ?_) fun b hb => ?_
    · rfl
    · rfl
    · have he : b.sbuf = [] := by simpa [State.buf, hb] using h
      simp only [Block.base, he]
  | weave u w =>
    have hbase (v y : Nat) : ((s.setBuf (.weave u w) []).weave? v y).map Weave.base = (s.weave? v y).map Weave.base := by
      rw [State.setBuf, State.weave?_updWeave]
      split
      · rename_i e
        obtain ⟨rfl, rfl⟩ := e
        cases hx : s.weave? v y with
        | none => rfl
        | some x =>
          have he : x.sbuf = [] := by simpa [State.buf, hx] using h
          simp only [Option.map_some, Weave.base, he]
      · rfl
    refine ⟨fun v => ?_, hbase, fun v y sl => fades_of_eq (fibre?_setBuf ..), fun v y n => ?_, fun v n => ?_⟩
    · unfold State.setBuf State.updWeave
      by_cases hv : v = u
      · subst hv
        rw [State.block?_updBlock_self]
        cases s.block? v <;> rfl
      · rw [State.block?_updBlock_ne _ _ hv]
    · refine readK_updWeave (fun x => ?_) v y n
      rfl
    · rw [State.readS, stream?_setBuf]
      rfl

theorem fades_commitBuf_of_empty {q : Buf} (h : s.buf q = []) : fades s (commitBuf s q) := by
  rw [commitBuf_of_empty h]
  refine (fades_setBuf_of_empty h).trans (fades_updBlock (fun b => ?_) (fun b => ?_) fun b _ => ?_) <;> rfl

/-! ### One participant -/

/-- The state that a participant leaves whose record address is a multiple of 64. -/
def launched (k : Iss) (f : AForm) (t : State) (a : Actor) : State :=
  let r := t.releaseAll a [f.a, f.b]
  let x := submitLaunch (commitBuf r (r.bufOf a)) (r.ctxOf k.uid) ((t.src a f.b).toNat % 16) (t.src a f.a)
  (if x.2 then x.1 else r).writeP a f.d.num.toNat x.2

theorem launchOne_aligned {f : AForm} {x : State × List Trp} {a : Actor} (h : (x.1.src a f.a).toNat % 64 = 0) :
    launchOne k f x a = (launched k f x.1 a, x.2) := by
  unfold launchOne
  simp only [h, ne_eq, not_true_eq_false, if_false]
  rfl

/-- A launch submitted changes nothing but a context. -/
theorem submitLaunch_blocks (s : State) (c q : Nat) (v : Word) : (submitLaunch s c q v).1.blocks = s.blocks := by
  unfold submitLaunch
  split
  · rfl
  · split <;> rfl

theorem fades_of_blocks (h : t.blocks = s.blocks) : fades s t := by
  have hb : ∀ u, t.block? u = s.block? u := fun u => congrArg (mget · u) h
  have hw : ∀ u w, t.weave? u w = s.weave? u w := fun u w => by rw [State.weave?, hb]; rfl
  exact ⟨fun u => by rw [hb], fun u w => by rw [hw], fun u w sl => fades_of_eq (by rw [State.fibre?, hw]; rfl),
    fun u w n => by rw [State.readK, hw]; rfl, fun u n => by rw [State.readS, State.stream?, hb]; rfl⟩

theorem fades_releaseAll (s : State) (a : Actor) (l : List Src) : fades s (s.releaseAll a l) :=
  List.foldlRecOn (motive := fades s) l _ (.refl s) fun t ht x _ => ht.trans (fades_release t a x)

theorem fades_noteAll (s : State) (pc : Word) (acts : List Actor) (l : List Src) : fades s (s.noteAll pc acts l) :=
  List.foldlRecOn (motive := fades s) acts _ (.refl s) fun t ht _ _ =>
    ht.trans (List.foldlRecOn (motive := fades t) l _ (.refl t) fun _ hr _ _ => hr.trans (fades_noteDead ..))

theorem fades_launched {f : AForm} {a : Actor} (h : t.buf (t.bufOf a) = []) : fades t (launched k f t a) := by
  have hr := fades_releaseAll t a [f.a, f.b]
  have he : (t.releaseAll a [f.a, f.b]).buf ((t.releaseAll a [f.a, f.b]).bufOf a) = [] := by rw [hr.bufOf, hr.buf, h]
  unfold launched
  dsimp only
  split
  · exact ((hr.trans (fades_commitBuf_of_empty he)).trans (fades_of_blocks (submitLaunch_blocks ..))).trans (fades_writeP ..)
  · exact hr.trans (fades_writeP ..)

theorem launched_seated {f : AForm} {a : Actor} (h : seated s t) : seated s (launched k f t a) := by
  have hr : seated s (t.releaseAll a [f.a, f.b]) := foldl_seated (fun _ _ => release_seated) h
  unfold launched
  dsimp only
  split
  · exact writeP_seated ((commitBuf_seated hr).blocks (submitLaunch_blocks ..))
  · exact writeP_seated hr

/-- The participants submit one after another: none traps where each one's address is aligned and its store buffer empty. -/
theorem foldl_launchOne {f : AForm} {l : List Actor} (haddr : ∀ a ∈ l, (s.src a f.a).toNat % 64 = 0) (hbuf : ∀ a ∈ l, s.buf (s.bufOf a) = [])
    (h : fades s t) : l.foldl (launchOne k f) (t, []) = (l.foldl (launched k f) t, []) := by
  induction l generalizing t with
  | nil => rfl
  | cons a r ih =>
    have ha := List.mem_cons_self (a := a) (l := r)
    have haligned : (t.src a f.a).toNat % 64 = 0 := by
      rcases h.src a f.a with e | e
      · rw [e]
        exact haddr a ha
      · rw [e]
        rfl
    have hempty : t.buf (t.bufOf a) = [] := by rw [h.bufOf, h.buf, hbuf a ha]
    rw [List.foldl_cons, List.foldl_cons, launchOne_aligned (x := (t, [])) haligned]
    exact ih (fun b hb => haddr b (List.mem_cons_of_mem _ hb)) (fun b hb => hbuf b (List.mem_cons_of_mem _ hb))
      (h.trans (fades_launched hempty))

/-! ### A lone participant -/

theorem uid_of_ready {i : Instr} (h : ready i s = some k) : ∀ a ∈ k.acts, a.uid = k.uid := by
  unfold ready at h
  split at h
  · intro a ha
    rw [(streamReady h).acts] at ha
    rw [List.mem_singleton.mp ha]
    rfl
  · exact uid_of_readyFib h

/-- An actor of a ready instruction is there: the stream always, a fibre by hypothesis. -/
theorem preds?_isSome_of_ready {i : Instr} {a : Actor} (h : ready i s = some k) (ha : a ∈ k.acts)
    (hf : ∀ u w sl, a = .fib u w sl → (s.fib? a).isSome = true) : (s.preds? a).isSome := by
  cases a with
  | fib u w sl => exact (Option.isSome_map ..).trans (hf u w sl rfl)
  | seq u =>
    unfold ready at h
    split at h
    · have hr := streamReady h
      rw [hr.acts] at ha
      obtain rfl := Actor.seq.inj (List.mem_singleton.mp ha)
      simpa [State.preds?] using hr.stream
    · obtain ⟨sl, e⟩ := acts_of h _ ha
      cases e

theorem src_noteAll (s : State) (pc : Word) (acts : List Actor) (l : List Src) (a : Actor) (x : Src) : (s.noteAll pc acts l).src a x = s.src a x := by
  have h := fades_noteAll s pc acts l
  cases a with
  | seq u => exact h.stream ..
  | fib u w sl => simp only [State.src, State.readSrc, State.readW, State.recruiter?, fibre?_noteAll, h.uniform]

theorem preds?_commitBuf_of_empty {q : Buf} (h : s.buf q = []) (a : Actor) : (commitBuf s q).preds? a = s.preds? a := by
  cases a with
  | fib u w sl => rw [State.preds?, fibre?_commitBuf_of_empty h]; rfl
  | seq u => rw [State.preds?, stream?_commitBuf_of_empty h]; rfl

theorem preds?_updCtx (s : State) (c : Nat) (f : Ctx → Ctx) (a : Actor) : (s.updCtx c f).preds? a = s.preds? a := by cases a <;> rfl

theorem ctxs_writeP (s : State) (a : Actor) (n : Nat) (v : Bool) : (s.writeP a n v).ctxs = s.ctxs := by
  unfold State.writeP
  split
  · rfl
  · cases a <;> rfl

/-- A context with one launch more. -/
def Ctx.submit (x : Ctx) (q : Nat) (v : Word) : Ctx :=
  { x with launches := x.launches ++ [Launch.queued x.nextLid q v], nextLid := x.nextLid + 1 }

theorem submitLaunch_of_ctx {c : Nat} {x : Ctx} (h : s.ctx? c = some x) (q : Nat) (v : Word) :
    submitLaunch s c q v = if 64 ≤ (x.launches.filter fun l => l.queue = q && l.state != .done).length then (s, false)
      else (s.updCtx c fun x => x.submit q v, true) := by
  unfold submitLaunch
  rw [h]
  rfl

/-- What a lone participant's launch leaves, with r the state in which its sources have been read and released. -/
theorem launched_alone {f : AForm} {a : Actor} {x : Ctx} (hu : a.uid = k.uid) (hacts : k.acts = [a]) (hctx : s.ctx? (s.ctxOf k.uid) = some x)
    (hbuf : s.buf (s.bufOf a) = []) :
    let r := s.consume k.pc k.acts [f.a, f.b]
    let c := commitBuf r (r.bufOf a)
    let q := (s.src a f.b).toNat % 16
    launched k f (s.noteAll k.pc k.acts [f.a, f.b]) a
      = (if 64 ≤ (x.launches.filter fun l => l.queue = q && l.state != .done).length then r.writeP a f.d.num.toNat false
        else (c.updCtx (s.ctxOf k.uid) fun x => x.submit q (s.src a f.a)).writeP a f.d.num.toNat true)
      ∧ r.ctxs = s.ctxs ∧ c.ctxs = s.ctxs ∧ ∀ b, r.preds? b = s.preds? b ∧ c.preds? b = s.preds? b := by
  dsimp only
  have hr : (s.noteAll k.pc k.acts [f.a, f.b]).releaseAll a [f.a, f.b] = s.consume k.pc k.acts [f.a, f.b] := by
    rw [hacts]
    rfl
  have hrel := released_consume k [f.a, f.b] s fun b hb => by
    rw [hacts] at hb
    rw [List.mem_singleton.mp hb, hu]
  have hfades : fades s (s.consume k.pc k.acts [f.a, f.b]) := hr ▸ (fades_noteAll ..).trans (fades_releaseAll ..)
  generalize s.consume k.pc k.acts [f.a, f.b] = r at hr hrel hfades ⊢
  have hempty : r.buf (r.bufOf a) = [] := by rw [hfades.bufOf, hfades.buf, hbuf]
  have hctxs : r.ctxs = s.ctxs := by rw [hrel.rest.panel]
  have hcommit : (commitBuf r (r.bufOf a)).ctxs = s.ctxs := (ctxs_commitBuf_of_empty hempty).trans hctxs
  have hof : r.ctxOf k.uid = s.ctxOf k.uid := congrArg (·.getD 0) (hrel.rest.tokeeps.blockPart (p := Block.ctx) fun _ => rfl)
  have hfind : (commitBuf r (r.bufOf a)).ctx? (s.ctxOf k.uid) = some x := by
    rw [State.ctx?, hcommit]
    exact hctx
  refine ⟨?_, hctxs, hcommit, fun b => ⟨hrel.preds? b, (preds?_commitBuf_of_empty hempty b).trans (hrel.preds? b)⟩⟩
  unfold launched
  simp only [hr, src_noteAll, hof, submitLaunch_of_ctx hfind]
  split <;> rfl

/-- Settles O38: aligned participants submit without a trap (`foldl_launchOne`), since a source that an earlier one released reads as 0, and a lone one's
submission shows in its queue and its predicate (`launched_alone`). -/
theorem launchCompletes : Obligations.LaunchCompletes := by
  unfold Obligations.LaunchCompletes
  intro f s k h haddr hbuf _
  have hfold := foldl_launchOne (k := k) haddr hbuf (fades_noteAll s k.pc k.acts [f.a, f.b])
  refine ⟨k.acts.foldl (launched k f) (s.noteAll k.pc k.acts [f.a, f.b]), ?_, fun a x hacts hctx hd hd16 hthere => ?_⟩
  · have hexec : exec (.launch f) s = execLaunch f s := rfl
    rw [hexec, execLaunch]
    refine completes_seated h ?_ (foldl_seated (fun _ _ => launched_seated) (noteAll_seated (.refl s)))
    simp only [hfold]
  · have ha : a ∈ k.acts := hacts ▸ List.mem_singleton_self a
    obtain ⟨hstate, hr, hc, hpreds⟩ := launched_alone (f := f) (uid_of_ready h a ha) hacts hctx (hbuf a ha)
    have hpresent := preds?_isSome_of_ready h ha hthere
    have hlone : k.acts.foldl (launched k f) (s.noteAll k.pc k.acts [f.a, f.b]) = launched k f (s.noteAll k.pc k.acts [f.a, f.b]) a := by
      rw [hacts]
      rfl
    rw [hlone, hstate]
    refine ⟨fun hopen => ?_, fun hfull => ?_⟩
    · rw [if_neg (Nat.not_le.mpr hopen)]
      refine ⟨?_, ?_⟩
      · rw [pred_writeP (by rw [preds?_updCtx, (hpreds a).2]; exact hpresent) hd16, if_pos ⟨rfl, rfl⟩, Bool.or_true]
      · rw [State.ctx?, ctxs_writeP, ← State.ctx?, State.ctx?_updCtx_self, State.ctx?, hc, ← State.ctx?, hctx]
        rfl
    · rw [if_pos hfull]
      refine ⟨?_, ?_⟩
      · rw [pred_writeP ((hpreds a).1 ▸ hpresent) hd16, if_pos ⟨rfl, rfl⟩]
        simp [hd]
      · rw [State.ctx?, ctxs_writeP, hr]
        exact hctx

end Sys2Proof.Machine
end

section
/-! PROOFS. Block barriers (O39): arrivals leave agents in their places, a completed wait refreshes its participants, and a wait that is not
satisfied suspends its batch. -/
namespace Sys2Proof.Machine
variable {s t r : State} {k : Iss}

/-! ### Arrivals -/

theorem Block.stays_wakeIf (b : Block) (p : Wait → Bool) {w : Nat} {x : Weave} (h : mget b.weaves w = some x) :
    ∃ y, mget (b.wakeIf p).weaves w = some y ∧ x.stays y := by
  unfold Block.wakeIf
  rw [mget_mmap, h]
  refine ⟨_, rfl, Weave.stays_foldl (fun y i => ?_) _ x⟩
  split
  · split
    · split
      · exact y.stays_wake i
      · exact .refl y
    · exact .refl y
  · exact .refl y

theorem wakeIf_seated {u : Nat} {p : Wait → Bool} (h : seated s t) : seated s (wakeIf t u p) := by
  refine h.trans ⟨fun v w x hx => ?_, fun v => ?_⟩
  · by_cases hv : v = u
    · subst hv
      obtain ⟨b, hb, hbx⟩ := Option.bind_eq_some_iff.mp hx
      obtain ⟨y, hy, hstay⟩ := b.stays_wakeIf p hbx
      refine ⟨y, ?_, hstay⟩
      rw [State.weave?, wakeIf, State.block?_updBlock_self, hb]
      exact hy
    · refine ⟨x, ?_, .refl x⟩
      rw [State.weave?, wakeIf, State.block?_updBlock_ne _ _ hv]
      exact hx
  · by_cases hv : v = u
    · subst hv
      rw [State.stream?, wakeIf, State.block?_updBlock_self, State.stream?]
      cases t.block? v with
      | none => rfl
      | some b =>
        show ((b.wakeIf p).stream).map Stream.ss = b.stream.map Stream.ss
        unfold Block.wakeIf
        rw [Option.map_map]
        refine congrArg (Option.map · b.stream) (funext fun x => ?_)
        dsimp only [Function.comp_apply]
        split
        · split <;> rfl
        · rfl
    · rw [State.stream?, wakeIf, State.block?_updBlock_ne _ _ hv]
      rfl

/-- The block stands on its core, and the regions are what they were: what decides whether a completion is held (R428). -/
structure heldAlike (u : Nat) (s t : State) : Prop where
  core : (t.block? u).map Block.core = (s.block? u).map Block.core
  regions : t.regions = s.regions

theorem heldAlike.trans {u : Nat} (h : heldAlike u s t) (g : heldAlike u t r) : heldAlike u s r :=
  ⟨g.core.trans h.core, g.regions.trans h.regions⟩

theorem heldAlike.holdRegion {u : Nat} (h : heldAlike u s t) : holdRegion t u = holdRegion s u := by
  have hr (n : Nat) : t.region n = s.region n := by rw [State.region, h.regions]; rfl
  have hread (t : State) : Machine.holdRegion t u = ((t.block? u).map Block.core).bind fun c =>
      if (t.region (regionOf (coreDie c))).hold then some (regionOf (coreDie c)) else none := by
    unfold Machine.holdRegion
    cases t.block? u <;> rfl
  rw [hread, hread, h.core]
  simp only [hr]

theorem keeps.heldAlike {u : Nat} (h : keeps u s t) : heldAlike u s t where
  core := h.blockPart fun _ => rfl
  regions := by rw [h.panel]

theorem heldAlike_updBlock {u v : Nat} {f : Block → Block} (hf : ∀ b, (f b).core = b.core) : heldAlike u s (s.updBlock v f) where
  core := by
    by_cases hv : u = v
    · subst hv
      rw [State.block?_updBlock_self]
      cases s.block? u <;> simp [hf]
    · rw [State.block?_updBlock_ne _ _ hv]
  regions := rfl

/-- An arrival counts, and may wake batches and the stream. -/
theorem arriveBar_leaves (s : State) (u n : Nat) (count : Option Nat) :
    seated s (arriveBar s u n count).1 ∧ heldAlike u s (arriveBar s u n count).1 := by
  unfold arriveBar
  split
  · exact ⟨.refl s, rfl, rfl⟩
  · rename_i b hb
    dsimp only
    have hseat (y : Barrier) : seated s (s.updBlock u fun b => { b with bars := mput b.bars n y }) := by
      refine seated_updBlock (fun b => ?_) (fun b => ?_) s u <;> rfl
    have hheld (y : Barrier) : heldAlike u s (s.updBlock u fun b => { b with bars := mput b.bars n y }) := heldAlike_updBlock fun _ => by rfl
    split
    · exact ⟨hseat _, hheld _⟩
    · exact ⟨wakeIf_seated (hseat _), (hheld _).trans (heldAlike_updBlock fun _ => rfl)⟩

theorem arriveAll_leaves (n : Nat) (count : Actor → Nat) :
    seated s (arriveAll k s n count).1 ∧ heldAlike k.uid s (arriveAll k s n count).1 :=
  List.foldlRecOn (motive := fun x : State × List (Actor × Nat) => seated s x.1 ∧ heldAlike k.uid s x.1) k.acts _ ⟨.refl s, rfl, rfl⟩ fun x hx a _ =>
    have h := arriveBar_leaves x.1 k.uid n (some (count a))
    ⟨hx.1.trans h.1, hx.2.trans h.2⟩

/-! ### Completed waits -/

theorem refresh_seated {a : Actor} {quiet : Bool} (h : seated s t) : seated s (refresh t a quiet).1 := by
  unfold refresh refreshBut
  split
  · exact h
  · cases a with
    | fib u w sl => exact h.trans (seated_updFibre ..)
    | seq u => exact h

theorem refreshed_seated (h : seated s t) : seated s (refreshed k t) := foldl_seated (fun _ _ => refresh_seated) h

/-- An instruction whose effect leaves agents in their places completes as a wait (R184). -/
theorem completes_wait {i : Instr} (h : readyFib i s = some k) {body : Iss → State → Done} {wd0 : Bool} (hd : body k s = { st := t, wd0 })
    (hs : seated s t) : issue i s body = .next (k.after wd0 t) := by
  obtain ⟨n, b, hcur, hne, hacts⟩ := readyFib_cursor h
  obtain ⟨c, hc, hm⟩ := hs.cursor hcur
  rw [issue_readyFib h, hd, finish_after hc (hm ▸ hne) rfl rfl rfl rfl hacts]
  rfl

theorem barRelease_of_well (hacts : k.acts ≠ []) (hw : refreshAllWell k s) : barRelease k s = { st := refreshed k s, wd0 := true } := by
  unfold barRelease
  rw [refreshAll_of_well false hw, List.isEmpty_eq_false_iff.mpr hacts]
  rfl

/-- Where no region holds completions, a barrier completion is a refresh. -/
theorem barComplete_of_unheld (h : holdRegion s k.uid = none) : barComplete k s = barRelease k s := by
  unfold barComplete
  rw [h]
  split <;> rfl

theorem barWaitFor_of_done {n : Nat} {toks : List (Nat × Nat)}
    (h : ∀ e ∈ toks, tokenDone (((s.block? k.uid).map fun b => (b.bar n).p).getD 0) e.2 = true) : barWaitFor k s n toks = barComplete k s :=
  if_pos (List.all_eq_true.mpr h)

theorem barWaitFor_of_open {n : Nat} {toks : List (Nat × Nat)}
    (h : ∃ e ∈ toks, tokenDone (((s.block? k.uid).map fun b => (b.bar n).p).getD 0) e.2 = false) :
    barWaitFor k s n toks = { st := s, how := .wait (.bar n toks) } := by
  obtain ⟨e, he, hopen⟩ := h
  exact if_neg fun hall => Bool.false_ne_true (hopen.symm.trans (List.all_eq_true.mp hall e he))

/-- A wait that has been satisfied, in a region that holds no completion, refreshes its participants and goes on. -/
theorem barComplete_completes {i : Instr} (h : readyFib i s = some k) {body : Iss → State → Done} (hd : body k s = barComplete k t) (hs : seated s t)
    (hheld : holdRegion t k.uid = none) (hw : refreshAllWell k t) : issue i s body = .next (k.after true (refreshed k t)) := by
  obtain ⟨-, -, -, -, hacts⟩ := readyFib_cursor h
  refine completes_wait h ?_ (refreshed_seated hs)
  rw [hd, barComplete_of_unheld hheld, barRelease_of_well hacts hw]

/-! ### Batches that wait -/

/-- A batch that waits at its instruction. -/
def Batch.waitsFor (b : Batch) (q : Wait) : Batch := { b with skipBkp := false, entry := false, state := .wait q }

/-- An instruction that suspends its batch: the batch waits at it, and the weave settles on another as it does at a `join`. -/
theorem finish_wait {x : Weave} {i : Nat} {b : Batch} {q : Wait} (hx : s.weave? k.uid k.w = some x) (hi : x.cur = some i)
    (hb : x.curBatch = some b) (hss : x.ss = false) (hne : b.members ≠ []) :
    finish s k k.w { st := t, how := .wait q } = s.updWeave k.uid k.w fun _ => x.afterJoin i b [b.waitsFor q] s.clock := by
  have hm : b.members.isEmpty = false := List.isEmpty_eq_false_iff.mpr hne
  have hrest : (b.members.filter fun m => !([] : List Nat).contains m).filter (fun m => !([] : List Trp).any fun t => t.who.slot = m)
      = b.members := by simp
  have hparts : trapParts s k b { st := t, how := .wait q } = [] := rfl
  unfold finish
  simp only [hx, hi, hb, hrest, hparts, hm, hss]
  simp [causesOf, sortNat, State.updWeave_updWeave, Weave.afterJoin, Batch.waitsFor]

/-- A batch that is not parked is still there when the weave has settled: only parked ones merge (R181). -/
theorem mem_batches_settle {x : Weave} {c : Batch} (base : Option Nat) (hc : c ∈ x.batches) (hp : c.parked = false) : c ∈ (x.settle base).batches := by
  have hmerge : c ∈ x.merge.batches := by
    unfold Weave.merge
    split
    · exact hc
    · dsimp only
      split
      · exact hc
      · exact List.mem_append_left _ (List.mem_filter.mpr ⟨hc, by simp [hp]⟩)
  have hchoose (o : Option Nat) : c ∈ (x.choose o).batches := by
    unfold Weave.choose
    split
    · exact hmerge
    · exact hc
  unfold Weave.settle
  split
  · split
    · exact hc
    · split
      · exact hc
      · exact hchoose _
  · exact hchoose _

theorem waits_mem_afterJoin {x : Weave} {i : Nat} {b : Batch} (q : Wait) (now : Nat) : b.waitsFor q ∈ (x.afterJoin i b [b.waitsFor q] now).batches := by
  have hsplice : b.waitsFor q ∈ (x.splice i [b.waitsFor q]).batches := by simp [Weave.splice]
  unfold Weave.afterJoin
  exact mem_batches_settle _ (mem_batches_settle (x := { x.splice i [b.waitsFor q] with cur := some i }) _ hsplice rfl) rfl

/-- An instruction that suspends its batch leaves each of its fibres in a batch that waits at it. -/
theorem suspends {i : Instr} (h : readyFib i s = some k) {body : Iss → State → Done} {q : Wait} (hd : body k s = { st := t, how := .wait q })
    (hc : t.cursor k.uid k.w = s.cursor k.uid k.w) : ∃ y, issue i s body = .next (t.updWeave k.uid k.w fun _ => y)
      ∧ ∀ a ∈ k.batch, ∃ b ∈ y.batches, a.slot ∈ b.members ∧ b.pc = k.pc ∧ b.state = .wait q := by
  obtain ⟨n, b, hcursor, hpc, hne, hbatch, hin⟩ := readyFib_batch h
  obtain ⟨x, hx, hi, hbi, hb, hss⟩ := cursor_weave (hc.trans hcursor)
  have hm : b.members ≠ [] := by
    intro e
    obtain ⟨a, ha⟩ := List.exists_mem_of_ne_nil _ hne
    have := hin a ha
    rw [hbatch, e] at this
    exact absurd this List.not_mem_nil
  refine ⟨x.afterJoin n b [b.waitsFor q] t.clock, ?_, fun a ha => ⟨_, waits_mem_afterJoin q t.clock, ?_, hpc, rfl⟩⟩
  · rw [issue_readyFib h, hd, finish_wait hx hi hb hss hm]
  · obtain ⟨sl, hsl, rfl⟩ := List.mem_map.mp (hbatch ▸ ha)
    exact hsl

/-! ### The whole statement -/

/-- An arrival that names a count: that of the phase is the first one named. -/
theorem arrive_some (x : Barrier) (n : Nat) : x.arrive (some n)
    = (if x.e.getD n = x.arr + 1 then { p := x.p + 1, arr := 0, e := none } else { p := x.p, arr := x.arr + 1, e := some (x.e.getD n) }, x.p) := by
  obtain ⟨p, arr, e⟩ := x
  cases e <;> simp [Barrier.arrive]

theorem arrive_counts (x : Barrier) (n : Nat) :
    (x.arrive (some n)).2 = x.p
      ∧ (x.e.getD n = x.arr + 1 → (x.arrive (some n)).1 = { p := x.p + 1, arr := 0, e := none })
      ∧ (x.e.getD n ≠ x.arr + 1 → (x.arrive (some n)).1 = { p := x.p, arr := x.arr + 1, e := some (x.e.getD n) }) := by
  rw [arrive_some]
  exact ⟨rfl, fun h => if_pos h, fun h => if_neg h⟩

theorem barArrive_completes {f : AForm} {rd : Bool} {n : BitVec 4} (h : ready (.barArrive f rd n) s = some k) :
    let x := arriveAll k (s.consume k.pc k.acts [f.b]) n.toNat fun a => barCount (s.src a f.b)
    let d := if rd then x.2.foldl (fun t e => t.writeD e.1 f.d (ofNat64 e.2)) x.1 else x.1
    exec (.barArrive f rd n) s = .next (k.ends false false d) := by
  have hexec : exec (.barArrive f rd n) s = execBarArrive f rd n s := rfl
  have hseat := (consume_seated (.refl s)).trans
    (arriveAll_leaves (k := k) (s := s.consume k.pc k.acts [f.b]) n.toNat fun a => barCount (s.src a f.b)).1
  dsimp only
  rw [hexec, execBarArrive]
  refine completes_seated h rfl ?_
  split
  · exact foldl_seated (fun _ _ => writeD_seated) hseat
  · exact hseat

/-- A wait that no wake has satisfied yet. -/
theorem barWait_unwoken {f : AForm} {n : BitVec 4} (h : readyFib (.barWait f n) s = some k) (hheld : holdRegion s k.uid = none) :
    let toks := k.acts.map fun a => (a.slot, (s.src a f.a).toNat % 2 ^ 32)
    let p := ((s.block? k.uid).map fun b => (b.bar n.toNat).p).getD 0
    ∃ t, released k [f.a] s t
      ∧ (k.woke = none → (∀ e ∈ toks, tokenDone p e.2 = true) → refreshAllWell k t → exec (.barWait f n) s = .next (k.after true (refreshed k t)))
      ∧ (k.woke = none → (∃ e ∈ toks, tokenDone p e.2 = false) → ∃ y, exec (.barWait f n) s = .next (t.updWeave k.uid k.w fun _ => y)
          ∧ ∀ a ∈ k.batch, ∃ b ∈ y.batches, a.slot ∈ b.members ∧ b.pc = k.pc ∧ b.state = .wait (.bar n.toNat toks)) := by
  dsimp only
  have hexec : exec (.barWait f n) s = execBarWait f n s := rfl
  have hrel := released_consume k [f.a] s (uid_of_readyFib h)
  have hbars : ((s.consume k.pc k.acts [f.a]).block? k.uid).map (fun b => (b.bar n.toNat).p) = (s.block? k.uid).map fun b => (b.bar n.toNat).p :=
    hrel.rest.tokeeps.blockPart fun _ => rfl
  refine ⟨_, hrel, fun hwoke hdone hw => ?_, fun hwoke hopen => ?_⟩
  · rw [hexec, execBarWait]
    refine barComplete_completes h ?_ (consume_seated (.refl s)) (hrel.rest.tokeeps.heldAlike.holdRegion.trans hheld) hw
    rw [← hbars] at hdone
    simp only [hwoke]
    exact barWaitFor_of_done hdone
  · rw [hexec, execBarWait]
    refine suspends h ?_ (cursor_of_sched (hrel.rest.sched ..))
    rw [← hbars] at hopen
    simp only [hwoke]
    exact barWaitFor_of_open hopen

theorem barSync_completes {f : AForm} {n : BitVec 4} (h : readyFib (.barSync f n) s = some k) (hheld : holdRegion s k.uid = none)
    (hwoke : k.woke = none) :
    let x := arriveAll k (s.consume k.pc k.acts [f.b]) n.toNat fun a => barCount (s.src a f.b)
    (∀ e ∈ x.2, tokenDone (((x.1.block? k.uid).map fun b => (b.bar n.toNat).p).getD 0) e.2 = true) → refreshAllWell k x.1 →
      exec (.barSync f n) s = .next (k.after true (refreshed k x.1)) := by
  dsimp only
  intro hdone hw
  have hexec : exec (.barSync f n) s = execBarSync f n s := rfl
  have hrel := released_consume k [f.b] s (uid_of_readyFib h)
  obtain ⟨hseat, halike⟩ := arriveAll_leaves (k := k) (s := s.consume k.pc k.acts [f.b]) n.toNat fun a => barCount (s.src a f.b)
  rw [hexec, execBarSync]
  refine barComplete_completes h ?_ ((consume_seated (.refl s)).trans hseat)
    ((hrel.rest.tokeeps.heldAlike.trans halike).holdRegion.trans hheld) hw
  simp only [hwoke]
  refine barWaitFor_of_done fun e he => ?_
  obtain ⟨y, hy, rfl⟩ := List.mem_map.mp he
  exact hdone y hy

/-- A batch that has been woken goes on as its wait completes. -/
theorem barWoken_completes {f : AForm} {n : BitVec 4} {i : Instr} (hi : i = .barWait f n ∨ i = .barSync f n) (h : readyFib i s = some k)
    (hwoke : k.woke.isSome = true) (hheld : holdRegion s k.uid = none) (hw : refreshAllWell k s) :
    exec i s = .next (k.after true (refreshed k s)) := by
  obtain ⟨q, hq⟩ := Option.isSome_iff_exists.mp hwoke
  obtain rfl | rfl := hi
  · have hexec : exec (.barWait f n) s = execBarWait f n s := rfl
    rw [hexec, execBarWait]
    exact barComplete_completes h (by simp only [hq]) (.refl s) hheld hw
  · have hexec : exec (.barSync f n) s = execBarSync f n s := rfl
    rw [hexec, execBarSync]
    exact barComplete_completes h (by simp only [hq]) (.refl s) hheld hw

/-- Settles O39: an arrival by its count (`arrive_counts`); arrivals may wake others and take no agent from its place (`arriveAll_leaves`), so the
instructions end behind a refresh (`barComplete_completes`) or with their batch waiting (`suspends`). -/
theorem barriersComplete : Obligations.BarriersComplete := by
  unfold Obligations.BarriersComplete
  exact ⟨arrive_counts, fun f n s k => ⟨fun rd h => barArrive_completes h, fun h hheld => barWait_unwoken h hheld,
    fun h hheld hwoke => barSync_completes h hheld hwoke, fun i hi h hwoke hheld hw => barWoken_completes hi h hwoke hheld hw⟩⟩

end Sys2Proof.Machine
end

section
/-! PROOFS. A pop into a uniform register by more than one participant (O40). -/
namespace Sys2Proof.Machine
open Sys2Proof.Tests

/-- Two fibres of one batch, whose block's SQ holds one element. -/
def oneQueued : State := queued [] [5] pair

/-- A pop to k4, which takes one element for the whole batch. -/
def popToUniform : AForm := form .n64 (kd 4) (w 0) (w 0) (w 0)

/-- What the statement has the pop leave before the bindings refresh: SQ empty, and the element with the highest participant alone. -/
def poppedForLast : State := popOpened (.qpop popToUniform false) k2 (queued [] [] pair) popToUniform.d [5]

/-- The destinations of the results that are outstanding for the lower participant. -/
def lowerPends (t : State) : List PDst := (t.pendOf me).map Pend.dst

theorem oneQueued_ready : ready (.qpop popToUniform false) oneQueued = some k2 := by decide +kernel

theorem poppedForLast_refreshes : refreshAllWell k2 poppedForLast := by
  have lower : (refresh poppedForLast me false).2 = none := by decide +kernel
  have upper : (refresh (refresh poppedForLast me false).1 (.fib 1 0 1) false).2 = none := by decide +kernel
  exact ⟨lower, upper, trivial⟩

/-- In the model the lower participant waits for the operation too, though nothing lands in it (R31, R50). -/
theorem oneQueued_pop_lowerPends :
    (stateAfter (exec (.qpop popToUniform false) oneQueued)).map lowerPends = some [.none] := by decide +kernel

theorem poppedForLast_lowerPends : lowerPends (k2.ends false false (serveQueues (refreshed k2 poppedForLast) 1)) = [] := by decide +kernel

/-- Refutes O40: a pop to a uniform register by two fibres leaves an outstanding result with each of them, the lower one's without a destination; the
statement has it leave one with the highest participant alone. -/
theorem not_queuesComplete : ¬ Obligations.QueuesComplete := by
  unfold Obligations.QueuesComplete
  rintro ⟨-, pops⟩
  obtain ⟨b, hb⟩ : ∃ b, oneQueued.block? 1 = some b := ⟨_, rfl⟩
  have hfields : b.hdr.seqEntry ≠ 0 ∧ b.inQueue true = [5] := by
    obtain rfl := Option.some.inj hb
    exact ⟨by decide +kernel, rfl⟩
  obtain ⟨hstream, hqueue⟩ := hfields
  obtain ⟨completes, -⟩ := pops popToUniform false true _ oneQueued k2 b rfl oneQueued_ready hb
  rw [hqueue] at completes
  obtain ⟨d, hexec, rfl, -⟩ := completes nofun hstream (by decide) poppedForLast_refreshes
  have hpends := oneQueued_pop_lowerPends
  rw [show exec (.qpop popToUniform false) oneQueued = .next (k2.ends false false (serveQueues (refreshed k2 poppedForLast) 1)) from hexec,
    stateAfter, Option.map_some, poppedForLast_lowerPends] at hpends
  exact absurd hpends (by decide)

end Sys2Proof.Machine
end

section
/-! PROOFS. A `recruit` in a state whose table of blocks is out of order (O41). -/
namespace Sys2Proof.Machine
open Sys2Proof.Tests

/-- Block 2 stands before block 1 in the table, which `mput` keeps in rising order of keys; beside the recruiter sixteen fibres of block 1 have pools
open. -/
def outOfOrder : State :=
  let s := heads (wv (fun x => { x with
    fibres := x.fibres ++ (upto 16).map fun n => (n + 1, { Fibre.start .block (n + 1) [] with pool := some (aPool 5 0 0) }) }) (two 0 5))
  { s with blocks := s.blocks.map (fun e => (2, { e.2 with weaves := [] })) ++ s.blocks }

/-- Recruits for the 5 iterations of w3 at most one helper, with D in w4. -/
def recruitFive : RecruitForm := ⟨g0, 4, 3, false, 1, 16, 0x40⟩

theorem outOfOrder_ready : readyFib (.recruit recruitFive) outOfOrder = some (k0 16) := by decide +kernel

theorem outOfOrder_pools : poolsOn outOfOrder (outOfOrder.coreOf me) = 16 := by decide +kernel

theorem outOfOrder_target :
    (targetCheck outOfOrder 1 (outOfOrder.coreOf me) (outOfOrder.ctxOf 1) (0x1000 + recruitFive.body.signExtend 64)).2 = none := by decide +kernel

/-- The pool that the fibre in focus has open. -/
def poolAt (t : State) : Option Pool := (t.fib? me).bind Fibre.pool

/-- The commit of the block's empty buffer (R210) enters block 1 a second time, in front of block 2: its sixteen pools count twice, no entry of the
core's 32 is free, and the `recruit` waits without a pool. -/
theorem outOfOrder_waits : poolsOn (commitBuf outOfOrder (.block 1)) (outOfOrder.coreOf me) = 32
    ∧ (stateAfter (exec (.recruit recruitFive) outOfOrder)).map poolAt = some none :=
  ⟨by decide +kernel, by decide +kernel⟩

/-- A batch that goes on behind its instruction changes no fibre. -/
theorem poolAt_after (k : Iss) (wd0 : Bool) (d : State) : poolAt (k.after wd0 d) = poolAt d := by
  refine congrArg (Option.bind · Fibre.pool) (fibre?_updWeave_keep (fun x => ?_) 1 0 0)
  rfl

/-- Refutes O41, in its first clause: the statement counts the pools open on the core before the `recruit`, and the model after the commit of the
buffer, which counts a block twice where an update has entered it twice. Nothing in the statement asks that the table of blocks be in order. -/
theorem not_recruitmentCompletes : ¬ Obligations.RecruitmentCompletes := by
  unfold Obligations.RecruitmentCompletes
  rintro ⟨recruits, -⟩
  obtain ⟨-, opens⟩ := recruits recruitFive outOfOrder (k0 16) outOfOrder_ready
  have room : poolsOn outOfOrder (outOfOrder.coreOf me) < 32 := outOfOrder_pools ▸ (by decide)
  obtain ⟨d, hexec, -, hpool, -⟩ := opens me _ _ rfl rfl rfl rfl rfl rfl rfl rfl room rfl outOfOrder_target (by decide +kernel)
  have hnone : poolAt d = none := by
    obtain ⟨-, hwaits⟩ := outOfOrder_waits
    rw [hexec, stateAfter, Option.map_some, poolAt_after] at hwaits
    exact Option.some.inj hwaits
  rw [show (d.fib? me).bind Fibre.pool = none from hnone] at hpool
  cases hpool

end Sys2Proof.Machine
end

section
/-! PROOFS. What reset leaves (O59). -/
namespace Sys2Proof.Machine

/-- No table lists a die after reset, so each has its reset value. -/
theorem die_reset (d : Nat) : State.reset.die d = Die.reset := rfl

/-- No slice of a die has counted a correctable error (R402; log 1). -/
theorem dieReg_reset_slcerr {d n : Nat} (h : n < 32) : dieReg State.reset d (0x2000 + 8 * n) = 0 := by
  have count (i : Nat) : mcount Die.reset.slcerr i = 0 := rfl
  have upper : 0x2000 + 8 * n < 0x2100 := by omega
  unfold dieReg
  simp only [die_reset, count]
  rw [if_neg (by omega), if_neg (by omega), if_neg (by omega), if_neg (by omega), if_neg (by omega), if_neg (by omega), if_neg (by omega),
    if_neg (by omega), if_neg (by simp only [Bool.and_eq_true, decide_eq_true_eq]; omega), if_pos (by simp [upper])]
  rfl

/-- The registers of a die's controller after reset (R402, R423; SLRET: log 1). -/
theorem dieReg_reset (d : Nat) : dieReg State.reset d 0x20 = 100 ∧ dieReg State.reset d 0x28 = 0 ∧ dieReg State.reset d 0x30 = 1024
    ∧ dieReg State.reset d 0x38 = 0 ∧ dieReg State.reset d 0x4300 = 4096 := by
  simp [dieReg, die_reset, Die.reset, ofNat64, at_, bit]

/-- Settles O59: no table of the state after reset lists anything, so every part of it that is read has its reset value. -/
theorem resetLeaves : Obligations.ResetLeaves := by
  unfold Obligations.ResetLeaves
  refine ⟨fun d => ?_, fun r => ?_, fun z => ?_, fun c => ?_, ?_⟩
  · obtain ⟨drtime, drstat, slthr, slret, chthr⟩ := dieReg_reset d
    exact ⟨drtime, drstat, slthr, slret, fun n => dieReg_reset_slcerr, chthr⟩
  · exact ⟨rfl, rfl, rfl, rfl, rfl, rfl, rfl, rfl, rfl⟩
  · exact ⟨rfl, rfl, rfl, rfl⟩
  · exact ⟨rfl, rfl, rfl, rfl⟩
  · exact ⟨rfl, rfl, rfl, rfl, rfl, rfl, rfl, rfl, rfl, rfl⟩

end Sys2Proof.Machine
end

section
/-! PROOFS. A write of sr.dbg that turns single step on (O42). -/
namespace Sys2Proof.Machine
open Sys2Proof.Tests

/-- Writes sr.dbg, whose bit 0 is SS, from w2. -/
def writeDbg : AForm := form .n64 (wd 0) (w 0) (w 2) (w 0x1C)

/-- The fibre of a block with a trap routine stands outside it, without single step, and holds 1 in w2. -/
def stepOff : State := routine (two 1 0)

/-- Whether the fibre in focus is in its trap routine, and the cause of its trap (R353). -/
def trapAt (t : State) : Option (Bool × BitVec 8) := (t.fib? me).map fun f => (f.tr.inTrap, f.tr.cause)

theorem stepOff_ready : ready (.sysw writeDbg false) stepOff = some (k0 8) := by decide +kernel

/-- The write itself is an instruction that issues with SS = 1 as it ends: it raises trap 0x10 (R356). -/
theorem stepOff_sysw_traps : (stateAfter (exec (.sysw writeDbg false) stepOff)).map trapAt = some (some (true, 0x10)) := by decide +kernel

/-- What the statement has the write leave: SS, and its batch behind it. -/
def steppedPast : State :=
  let t := match sysPut stepOff me .dbg (sysData writeDbg stepOff me) with
    | some t => t.releaseAll me (sysSrcs writeDbg false true)
    | none => stepOff
  (k0 8).ends false false (noteFrom stepOff t (k0 8).pc (k0 8).acts (sysSrcs writeDbg false true))

theorem steppedPast_untrapped : trapAt steppedPast = some (false, 0) := by decide +kernel

/-- Refutes O42: a write of 1 to sr.dbg outside a trap routine takes the single-step trap behind itself, where the statement has its batch go on. -/
theorem not_systemCompletes : ¬ Obligations.SystemCompletes := by
  unfold Obligations.SystemCompletes
  rintro ⟨-, writes, -⟩
  obtain ⟨plain, -, -⟩ := writes writeDbg false .dbg stepOff (k0 8) stepOff_ready rfl
  have goesOn : exec (.sysw writeDbg false) stepOff = .next steppedPast := plain rfl rfl rfl ⟨rfl, trivial⟩
  have traps := stepOff_sysw_traps
  rw [goesOn, stateAfter, Option.map_some, steppedPast_untrapped] at traps
  exact absurd traps (by decide)

end Sys2Proof.Machine
end

section
/-! PROOFS. A `cp.in` behind a pending request whose packets come late (O46). -/
namespace Sys2Proof.Machine
open Sys2Proof.Tests

/-- Behind the running `cp.in` (`engineG`) the core's request for the line that it reads is pending, by a packet whose deadline has passed since; context 1
wants records of late packets (R386), and its doorbell lies on that line. Its ring lies past the panel's memory, so that a record leaves no byte there. -/
def copyLate : State :=
  { (engineG.updCore 0 fun c => { c with
        misses := [⟨0x40002000, 1, readPlace engineG 0 0x40002000, false, false, 0, [], some ⟨1, 0, 0, 0, 32767⟩⟩] }).updCtx 1
      fun x => { x with flags := 2, ring := panelEnd, bell := 0x40002000 } with time := 64 * 40000 }

theorem copyLate_blocks (u : Nat) (b : Block) (h : copyLate.block? u = some b) : b.deadline = none := by
  have none_late : ∀ e ∈ copyLate.blocks, e.2.deadline = none := by decide +kernel
  exact none_late _ (mget_mem _ u b h)

theorem copyLate_maps : tlbMaps copyLate (.seq 1) 0x22000 .load 0x40002000 :=
  ⟨by decide +kernel, _, rfl, by decide +kernel, by decide +kernel, by decide +kernel⟩

theorem copyLate_clean : copyLate.poisoned 0x40002000 (32 : Word).toNat = false := by decide +kernel

/-- The first byte of what a read of the engines answers. -/
def firstByte : Except (BitVec 8) (List Byte) → Option Byte
  | .ok l => l.head?
  | .error _ => none

/-- The byte that the doorbell's ring has changed, and the one that stood there before the copy. -/
theorem copyLate_reads_rung (k : Nat) (c : Cmd) (ha : c.ra = 0x22000) (hb : c.rb = 32) :
    firstByte (cpInData copyLate 1 .bytes k c).2 = some 0x81
      ∧ firstByte (.ok (seenBytes copyLate (.block 1) 0x40002000 32)) = some 0x80 := by
  have reads : cpInData copyLate 1 .bytes k c = readGlobal copyLate 1 32 0x22000 := by
    unfold cpInData
    rw [if_pos rfl, ha, hb]
    rfl
  rw [reads]
  decide +kernel

/-- Refutes O46: before the copy reads its line, the core's earlier request for that line is served (R247); the packets of that request come late, and the
record of it rings the doorbell (R386), whose count is what the copy then reads. That no block has a deadline now says nothing about the packets that
are on their way. -/
theorem not_engineEvents : ¬ Obligations.EngineEvents := by
  unfold Obligations.EngineEvents
  intro h
  obtain ⟨b, hb⟩ : ∃ b, copyLate.block? 1 = some b := ⟨_, rfl⟩
  obtain ⟨r, hr, ha, hlen⟩ : ∃ r, cmdCompletes 1 0 r copyLate ∧ r.cmd.ra = 0x22000 ∧ r.cmd.rb = 32 :=
    ⟨_, ⟨rfl, rfl, rfl⟩, by decide +kernel, by decide +kernel⟩
  obtain ⟨-, completes, -⟩ := h 1 copyLate b hb
  obtain ⟨-, -, reads, -⟩ := completes 0 r hr
  have forwarded := reads 0 0x40002000 (by rw [hlen]; decide) (by rw [ha, hlen]; decide) (ha ▸ copyLate_maps) (hlen ▸ copyLate_clean) copyLate_blocks
  obtain ⟨rung, silent⟩ := copyLate_reads_rung 0 r.cmd ha hlen
  rw [forwarded, hlen] at rung
  exact absurd (silent.symm.trans rung) (by decide)

end Sys2Proof.Machine
end

section
/-! PROOFS. What the caches' operations leave of one core (O49): the lines of its L1 and its miss entries, after probes and after replies. -/
namespace Sys2Proof.Machine

/-! ### Miss entries -/

/-- A change of every entry that leaves its line alone. -/
theorem find?_line_map {g : Miss → Miss} (hg : ∀ m, (g m).line = m.line) (l : List Miss) (line : Nat) :
    (l.map g).find? (fun m => m.line = line) = (l.find? fun m => m.line = line).map g := by
  rw [List.find?_map]
  simp only [Function.comp_def, hg]

theorem Core.miss?_probed (x : Core) (l line : Nat) (b : Bool) :
    (x.probed l b).miss? line = (x.miss? line).map fun m => if m.line = l && m.replied then { m with held := m.held + 1 } else m :=
  find?_line_map (fun m => by split <;> rfl) x.misses line

theorem Core.miss?_line {x : Core} {line : Nat} {m : Miss} (h : x.miss? line = some m) : m.line = line := of_decide_eq_true (List.find?_some h :)

/-- The entries of one line are freed. -/
theorem Core.miss?_freed (x : Core) (l line : Nat) :
    ({ x with misses := x.misses.filter fun m => m.line != l } : Core).miss? line = if l = line then none else x.miss? line := by
  unfold Core.miss?
  rw [List.find?_filter]
  split
  · next e =>
    subst e
    simp
  · next hne =>
    congr 1
    funext m
    by_cases hm : m.line = line <;> simp [hm, Ne.symm hne]

/-- The request for a line is pending: its reply has not left yet (R248). -/
def Core.awaits (x : Core) (line : Nat) : Prop := ∃ m, x.miss? line = some m ∧ m.replied = false

theorem Core.awaits_probed {x : Core} {line : Nat} (l : Nat) (b : Bool) (h : x.awaits line) : (x.probed l b).awaits line := by
  obtain ⟨m, hm, hr⟩ := h
  exact ⟨m, by simp [Core.miss?_probed, hm, hr], hr⟩

theorem Core.awaits_freed {x : Core} {l line : Nat} (hne : l ≠ line) (h : x.awaits line) :
    ({ x with misses := x.misses.filter fun m => m.line != l } : Core).awaits line := by
  obtain ⟨m, hm, hr⟩ := h
  exact ⟨m, by rw [Core.miss?_freed, if_neg hne, hm], hr⟩

/-- The reply to a line leaves: its entry, if there is one, has been answered. -/
theorem Core.miss?_answered {x : Core} {line : Nat} (h : x.awaits line) :
    ((x.updMiss line fun m => { m with replied := true }).miss? line).map Miss.replied = some true := by
  obtain ⟨m, hm, -⟩ := h
  have answered : (x.updMiss line fun m => { m with replied := true }).miss? line
      = (x.miss? line).map fun m => if m.line = line then { m with replied := true } else m :=
    find?_line_map (fun m => by split <;> rfl) x.misses line
  rw [answered, hm, Option.map_some, Option.map_some, if_pos (Core.miss?_line hm)]

/-! ### Lines of the L1 -/

/-- A probe leaves of its own line nothing but a shared copy where a binding is on it. -/
theorem Core.probed_same {x : Core} {l : Nat} {b : Bool} {e : Nat × LineSt} (h : e ∈ (x.probed l b).l1) (hl : e.1 = l) : b = true ∧ e.2 = .s := by
  obtain ⟨y, -, hy⟩ := List.mem_filterMap.mp h
  split at hy
  · next hne =>
    obtain rfl := Option.some.inj hy
    simp [hl] at hne
  · split at hy
    · next hb =>
      obtain rfl := Option.some.inj hy
      simp only [Bool.and_eq_true] at hb
      exact ⟨hb.1, rfl⟩
    · cases hy

/-- It leaves the other lines alone. -/
theorem Core.probed_other {x : Core} {l : Nat} {b : Bool} {e : Nat × LineSt} (h : e ∈ (x.probed l b).l1) (hl : e.1 ≠ l) : e ∈ x.l1 := by
  obtain ⟨y, hmem, hy⟩ := List.mem_filterMap.mp h
  split at hy
  · obtain rfl := Option.some.inj hy
    exact hmem
  · split at hy
    · obtain rfl := Option.some.inj hy
      exact absurd rfl hl
    · cases hy

/-- The L1 holds no copy of a line. -/
def Core.lacks (x : Core) (line : Nat) : Prop := ∀ e ∈ x.l1, e.1 ≠ line

theorem Core.lacks_probed {x : Core} {line : Nat} (l : Nat) (b : Bool) (h : x.lacks line) : (x.probed l b).lacks line := fun e he hl => by
  obtain ⟨y, hmem, hy⟩ := List.mem_filterMap.mp he
  refine h y hmem ?_
  split at hy
  · obtain rfl := Option.some.inj hy
    exact hl
  · next hne =>
    split at hy
    · obtain rfl := Option.some.inj hy
      simp only [bne_iff_ne, ne_eq, Decidable.not_not] at hne
      exact hne.trans hl
    · cases hy

/-! ### One core of the panel -/

/-- A change of every core, under which a core that is not listed stays as it was. -/
theorem core_mapCores (s : State) {f : Nat → Core → Core} {c : Nat} (h : f c Core.reset = Core.reset) :
    State.core { s with cores := mmap s.cores f } c = f c (s.core c) := by
  unfold State.core
  rw [mget_mmap]
  cases mget s.cores c with
  | none => exact h.symm
  | some x => rfl

theorem core_probeAll (s : State) (line : Nat) (p : Nat → Bool) (c : Nat) :
    (probeAll s line p).core c = if p c then (s.core c).probed line (boundOn s c line) else s.core c :=
  core_mapCores s (by split <;> rfl)

/-- A slice that takes a line evicts another one. -/
theorem sliceInstall_evicts {t : Map Nat} {ways d line v : Nat} {l : List (Nat × Nat)} (h : (sliceInstall t ways d line l).2 = some v) : v ≠ line := by
  unfold sliceInstall at h
  dsimp only at h
  split at h
  · cases h
  · split at h
    · next y hy =>
      obtain rfl := Option.some.inj h
      have hmem := List.mem_of_getLast? hy
      simp only [List.mem_filter, bne_iff_ne, ne_eq, Bool.and_eq_true, decide_eq_true_eq] at hmem
      obtain ⟨⟨-, hne⟩, hd, -⟩ := hmem
      rintro rfl
      exact hne (Prod.ext hd rfl)
    · cases h

/-- The home slice that takes a line probes the cores for the line that it evicts, if it does so. -/
theorem core_homeTouch (s : State) (line c : Nat) :
    (homeTouch s line).core c = s.core c ∨ ∃ v, v ≠ line ∧ (homeTouch s line).core c = (s.core c).probed v false := by
  unfold homeTouch
  dsimp only
  split
  · exact .inl rfl
  · next l v hv => exact .inr ⟨v, sliceInstall_evicts (congrArg Prod.snd hv), core_mapCores _ rfl⟩

theorem core_toHome (s : State) (line c : Nat) :
    (toHome s line).core c = s.core c ∨ ∃ v, v ≠ line ∧ (toHome s line).core c = (s.core c).probed v false := core_homeTouch s line c

/-- A core after a probe of some cores, behind which the home slice may evict another line. -/
theorem core_probeIf (s : State) (line : Nat) (p : Nat → Bool) (c : Nat) :
    (probeIf s line p).core c = (probeAll s line p).core c
      ∨ ∃ v, v ≠ line ∧ (probeIf s line p).core c = ((probeAll s line p).core c).probed v false := by
  unfold probeIf
  split
  · exact core_toHome _ line c
  · exact .inl rfl

theorem core_updZone (s : State) (z : Nat) (f : Zone → Zone) (c : Nat) : (s.updZone z f).core c = s.core c := rfl
theorem core_updDie (s : State) (d : Nat) (f : Die → Die) (c : Nat) : (s.updDie d f).core c = s.core c := rfl
theorem core_replInstall (s : State) (d line c : Nat) : (replInstall s d line).core c = s.core c := rfl
theorem core_sharers (s : State) (l : List (Nat × Nat × Nat)) (c : Nat) : State.core { s with sharers := l } c = s.core c := rfl

/-! ### What holds of a core through the caches' operations -/

/-- What no probe takes from a core. -/
def ProbeProof (P : Core → Prop) : Prop := ∀ x l b, P x → P (x.probed l b)

/-- What does not depend on the lines of the L1 either. -/
structure LineProof (P : Core → Prop) : Prop where
  probe : ProbeProof P
  l1 : ∀ (x : Core) l, P x → P { x with l1 := l }

theorem lacks_probeProof (line : Nat) : ProbeProof fun x => x.lacks line := fun _ l b h => Core.lacks_probed l b h

theorem awaits_lineProof (line : Nat) : LineProof fun x => x.awaits line := ⟨fun _ l b h => Core.awaits_probed l b h, fun _ _ h => h⟩

/-- No entry of a line is left. -/
theorem noMiss_lineProof (line : Nat) : LineProof fun x => x.miss? line = none :=
  ⟨fun x l b h => by rw [Core.miss?_probed, h, Option.map_none], fun _ _ h => h⟩

section
variable {P : Core → Prop} {s : State} {c : Nat}

theorem ProbeProof.homeTouch (hp : ProbeProof P) (line : Nat) (h : P (s.core c)) : P ((homeTouch s line).core c) := by
  obtain e | ⟨v, -, e⟩ := core_homeTouch s line c
  · exact e ▸ h
  · exact e ▸ hp _ v false h

theorem ProbeProof.toHome (hp : ProbeProof P) (line : Nat) (h : P (s.core c)) : P ((toHome s line).core c) := hp.homeTouch line h

theorem ProbeProof.probeIf (hp : ProbeProof P) (line : Nat) (p : Nat → Bool) (h : P (s.core c)) : P ((probeIf s line p).core c) := by
  have all : P ((probeAll s line p).core c) := by
    rw [core_probeAll]
    split
    · exact hp _ _ _ h
    · exact h
  obtain e | ⟨v, -, e⟩ := core_probeIf s line p c
  · exact e ▸ all
  · exact e ▸ hp _ v false all

/-- New lines of an L1, behind which the dirty ones that it no longer holds go home. -/
theorem ProbeProof.setL1 (hp : ProbeProof P) {d : Nat} {f : List (Nat × LineSt) → List (Nat × LineSt)}
    (h : P ((s.updCore d fun x => { x with l1 := f (s.core d).l1 }).core c)) : P ((setL1 s d f).core c) :=
  List.foldlRecOn (motive := fun t : State => P (t.core c)) _ _ h fun _ ht a _ => hp.toHome a ht

theorem LineProof.updL1 (hl : LineProof P) {d : Nat} (l : List (Nat × LineSt)) (h : P (s.core c)) :
    P ((s.updCore d fun x => { x with l1 := l }).core c) := by
  by_cases e : c = d
  · subst e
    rw [State.core_updCore_self]
    exact hl.l1 _ l h
  · rw [State.core_updCore_ne _ _ e]
    exact h

theorem LineProof.l1Install (hl : LineProof P) (d line : Nat) (st : LineSt) (h : P (s.core c)) : P ((l1Install s d line st).core c) :=
  hl.probe.setL1 (hl.updL1 _ h)

theorem LineProof.giveUp (hl : LineProof P) (line : Nat) (h : P (s.core c)) : P ((giveUp s line).core c) := by
  have given : P (State.core { s with cores := mmap s.cores fun _ x =>
      { x with l1 := x.l1.map fun l => if l.1 = line && (l.2 = .m || l.2 = .e) then (line, .s) else l } } c) := by
    rw [core_mapCores s rfl]
    exact hl.l1 _ _ h
  unfold Machine.giveUp
  dsimp only
  split
  · exact hl.probe.toHome line given
  · exact given

/-- A read at the home, a replica or a holder changes no core but by what a home slice evicts. -/
theorem ProbeProof.readServe (hp : ProbeProof P) (r line : Nat) (h : P (s.core c)) : P ((readServe s r line).core c) := by
  unfold Machine.readServe
  dsimp only
  split
  · exact hp.homeTouch line h
  · split
    · rw [core_replInstall, core_updZone, core_updDie]
      exact h
    · split
      · rw [core_replInstall]
        refine hp.homeTouch line ?_
        rw [core_updZone, core_updDie]
        exact h
      · split
        · rw [core_replInstall]
          refine hp.homeTouch line ?_
          rw [core_updZone, core_updDie, core_updZone]
          exact h
        · split
          · exact hp.homeTouch line h
          · rw [core_updZone, core_updDie, core_sharers]
            split
            · exact h
            · rw [core_replInstall]
              refine hp.homeTouch line ?_
              rw [core_updZone, core_updDie]
              exact h

theorem LineProof.readMiss (hl : LineProof P) (r line : Nat) (h : P (s.core c)) : P ((readMiss s r line).core c) :=
  hl.giveUp line (hl.probe.readServe r line h)

theorem ProbeProof.collapseLine (hp : ProbeProof P) (line : Nat) (keep : Option Nat) (h : P (s.core c)) : P ((collapseLine s line keep).core c) := by
  unfold Machine.collapseLine
  dsimp only
  split
  · exact h
  · exact hp.probeIf line _ h

/-- A reply that arrives leaves of every core what holds of it once the entry is free. -/
theorem LineProof.deliverReply (hl : LineProof P) {d l : Nat} {m : Miss} (hm : (s.core d).miss? l = some m) (hr : m.replied = true)
    (freed : P ((s.updCore d fun x => { x with misses := x.misses.filter fun m => m.line != l }).core c)) : P ((deliverReply s d l).core c) := by
  have installed {t : State} (st : LineSt) (ht : P (t.core c)) :
      P (State.core (if (t.core d).l1.any fun e => e.1 = l then t else Machine.l1Install t d l st) c) := by
    split
    · exact ht
    · exact hl.l1Install d l st ht
  unfold Machine.deliverReply
  simp only [hm, hr, Bool.not_true, Bool.false_eq_true, if_false]
  split
  · exact installed _ freed
  · exact hl.probe.probeIf l _ (installed _ freed)

/-- Without an answered entry no reply of the line is on its way. -/
theorem deliverReply_of_unanswered {d l : Nat} (h : ∀ m, (s.core d).miss? l = some m → m.replied = false) : deliverReply s d l = s := by
  unfold Machine.deliverReply
  split
  · rfl
  · next m hm =>
    rw [h m hm]
    rfl

end

/-! ### A pending request through the replies and probes of its line -/

section
variable {s : State} {c line : Nat}

/-- A reply that arrives is not the one that a pending request awaits. -/
theorem awaits_deliverReply (d l : Nat) (h : (s.core c).awaits line) : ((deliverReply s d l).core c).awaits line := by
  by_cases answered : ∃ m, (s.core d).miss? l = some m ∧ m.replied = true
  · obtain ⟨m, hm, hr⟩ := answered
    refine (awaits_lineProof line).deliverReply hm hr ?_
    by_cases e : c = d
    · subst e
      rw [State.core_updCore_self]
      refine Core.awaits_freed ?_ h
      rintro rfl
      obtain ⟨n, hn, hnr⟩ := h
      rw [hm] at hn
      obtain rfl := Option.some.inj hn
      exact Bool.false_ne_true (hnr.symm.trans hr)
    · rw [State.core_updCore_ne _ _ e]
      exact h
  · rw [deliverReply_of_unanswered fun m hm => Bool.eq_false_iff.mpr fun hr => answered ⟨m, hm, hr⟩]
    exact h

theorem awaits_repliesArrive (l : Nat) (h : (s.core c).awaits line) : ((repliesArrive s l).core c).awaits line := by
  refine List.foldlRecOn (motive := fun t : State => (t.core c).awaits line) _ _ h fun t ht e _ => ?_
  split
  · exact List.foldlRecOn (motive := fun t : State => (t.core c).awaits line) _ _ ht fun r hr m _ => awaits_deliverReply e.1 m.line hr
  · exact ht

theorem awaits_serveOwn (k : Option Nat) (l : Nat) (h : (s.core c).awaits line) : ((serveOwn s k l).core c).awaits line := by
  have hp := (awaits_lineProof line).probe
  exact hp.probeIf l _ (hp.collapseLine l k (hp.homeTouch (s := (repliesArrive s l).updZone _ _) l (awaits_repliesArrive l h)))

end

end Sys2Proof.Machine
end

section
/-! PROOFS. What a push leaves in the bindings on a line, and what a zone holds behind a change of its degree (O49). -/
namespace Sys2Proof.Machine

/-! ### Pushes -/

/-- A push reaches the binding: its word has a byte among those pushed. -/
def Binding.hit (b : Binding) (pa n : Nat) : Bool := b.pa < pa + n && pa < b.pa + b.size

/-- A fibre none of whose bindings is reached stays as it was. -/
theorem Fibre.pushed_of_unhit {s : State} {buf : List SEntry} {wx sl pa n : Nat} {f : Fibre} (h : ∀ b ∈ f.binds, b.2.hit pa n = false) :
    f.pushed s buf wx sl pa n = f := by
  have same : (mmap f.binds fun _ b => if b.hit pa n && !ownLater buf wx sl b then
      { b with pending := some (b.extend (s.phys b.pa b.size)), poison := s.poisoned b.pa b.size } else b) = f.binds := by
    unfold mmap
    refine (List.map_congr_left fun e he => ?_).trans (List.map_id' _)
    beta_reduce
    rw [h e he, Bool.false_and, if_neg Bool.false_ne_true]
  unfold Fibre.pushed
  exact congrArg (fun m => { f with binds := m }) same

/-- Each fibre of a weave takes a push; a `bwait` that it wakes changes none of them. -/
theorem Weave.mget_fibres_pushed (s : State) (buf : List SEntry) (wx pa n : Nat) (x : Weave) (sl : Nat) :
    mget (x.pushed s buf wx pa n).fibres sl = (mget x.fibres sl).map (Fibre.pushed s buf wx sl pa n) := by
  unfold Weave.pushed
  dsimp only
  split
  · next hnone =>
    cases hf : mget x.fibres sl with
    | none => rfl
    | some f =>
      refine congrArg some (Fibre.pushed_of_unhit fun b hb => ?_).symm
      have untouched := List.flatMap_eq_nil_iff.mp (List.isEmpty_iff.mp hnone) _ (Tests.mget_mem _ _ _ hf)
      have unhit := List.filterMap_eq_nil_iff.mp untouched b hb
      exact Bool.eq_false_iff.mpr fun hit => by
        rw [if_pos (show (decide _ && decide _) = true from hit)] at unhit
        cases unhit
  · rw [foldl_same (p := Weave.fibres) (fun y h _ => fibres_latch ..)]
    exact mget_mmap x.fibres (fun sl f => f.pushed s buf wx sl pa n) sl

/-- The blocks behind a push of a line to the bindings of one core. -/
def pushedTo (s : State) (c line : Nat) : State :=
  { s with blocks := mmap s.blocks fun _ b =>
      { b with weaves := mmap b.weaves fun k w => if w.core = c then w.pushed s b.sbuf k line 256 else w } }

theorem pushCore_of_bound {s : State} {c line : Nat} (h : boundOn s c line = true) : pushCore s c line = some (pushedTo s c line) := by
  unfold pushCore
  rw [h]
  rfl

theorem fibre?_pushedTo {s : State} {c line u w sl : Nat} {x : Weave} {f : Fibre} (hx : s.weave? u w = some x) (hc : x.core = c)
    (hf : (pushedTo s c line).fibre? u w sl = some f) :
    ∃ y g, s.block? u = some y ∧ f = Fibre.pushed s y.sbuf w sl line 256 g := by
  obtain ⟨y, hy, hw⟩ := Option.bind_eq_some_iff.mp hx
  have block : (pushedTo s c line).block? u = some
      { y with weaves := mmap y.weaves fun k w => if w.core = c then w.pushed s y.sbuf k line 256 else w } := by
    unfold pushedTo State.block?
    rw [mget_mmap, show mget s.blocks u = some y from hy, Option.map_some]
  have weave : (pushedTo s c line).weave? u w = some (x.pushed s y.sbuf w line 256) := by
    unfold State.weave?
    rw [block, Option.bind_some, mget_mmap, hw, Option.map_some, if_pos hc]
  unfold State.fibre? at hf
  rw [weave, Option.bind_some, Weave.mget_fibres_pushed] at hf
  obtain ⟨g, -, rfl⟩ := Option.map_eq_some_iff.mp hf
  exact ⟨y, g, hy, rfl⟩

/-- A binding on the line takes the word's value, where no later store of its own is buffered (R261, R264). -/
theorem Fibre.pushed_takes {s : State} {buf : List SEntry} {wx sl pa len n : Nat} {f : Fibre} {b : Binding}
    (hb : mget (f.pushed s buf wx sl pa len).binds n = some b) (hhit : b.hit pa len = true) (hown : ownLater buf wx sl b = false) :
    b.pending = some (b.extend (s.phys b.pa b.size)) ∧ b.poison = s.poisoned b.pa b.size := by
  unfold Fibre.pushed at hb
  rw [mget_mmap] at hb
  obtain ⟨old, -, hb⟩ := Option.map_eq_some_iff.mp hb
  split at hb
  · subst hb
    exact ⟨rfl, rfl⟩
  · next h =>
    subst hb
    refine absurd ?_ h
    rw [hown]
    exact Bool.and_eq_true_iff.mpr ⟨hhit, rfl⟩

/-! ### The degree of a zone -/

/-- A change of the degree leaves the zone with it, and with the bounds that it had (R243). -/
theorem zone_setDegree (s : State) (z deg : Nat) :
    ((setDegree s z deg).zone z).deg = deg ∧ ((setDegree s z deg).zone z).floor = (s.zone z).floor
      ∧ ((setDegree s z deg).zone z).ceil = (s.zone z).ceil := by
  have bounds {t : State} (ht : t.zones = s.zones) : (t.zone z).floor = (s.zone z).floor ∧ (t.zone z).ceil = (s.zone z).ceil := by
    unfold State.zone
    rw [ht]
    cases mget s.zones z <;> exact ⟨rfl, rfl⟩
  unfold setDegree
  dsimp only
  split
  · next h => exact ⟨h, rfl, rfl⟩
  · rw [State.zone_updZone_self]
    exact ⟨rfl, bounds rfl⟩

/-- A write of sr.repl sets the bounds, and brings the degree within them at once (R244). -/
theorem zone_writeRepl (s : State) (z : Nat) (v : Word) :
    ((writeRepl s z v).zone z).floor = fld v 0 3 ∧ ((writeRepl s z v).zone z).ceil = fld v 4 3
      ∧ ((writeRepl s z v).zone z).deg = min (max (s.zone z).deg (fld v 0 3)) (fld v 4 3) := by
  have bounded := State.zone_updZone_self s z fun x => { x with floor := fld v 0 3, ceil := fld v 4 3 }
  unfold writeRepl
  generalize s.updZone z _ = t at bounded ⊢
  obtain ⟨hdeg, hfloor, hceil⟩ := zone_setDegree t z (min (max (t.zone z).deg (fld v 0 3)) (fld v 4 3))
  refine ⟨hfloor.trans ?_, hceil.trans ?_, hdeg.trans ?_⟩ <;> rw [bounded]

theorem cacheOnly.setDegree {s t : State} (h : cacheOnly s t) (z deg : Nat) : cacheOnly s (setDegree t z deg) := by
  unfold Machine.setDegree
  dsimp only
  split
  · exact h
  · exact ((h.copies _ _).updDie _ _).updZone _ _

end Sys2Proof.Machine
end

section
/-! PROOFS. The caches' own events (O49), one by one. -/
namespace Sys2Proof.Machine

section
variable {s : State} {c line : Nat}

/-! ### Misses -/

theorem latePackets_none (s : State) (n : Nat) : latePackets s none n = s := by cases n <;> rfl

/-- A request whose packets carry no deadline is served, and its reply leaves. -/
theorem serveMiss_of_pending {m : Miss} (hm : (s.core c).miss? line = some m) (hr : m.replied = false) (hpkt : m.pkt = none) :
    serveMiss s c line = (if m.own then serveOwn s (some c) line else readMiss s (coreDie c) line).updCore c
      fun x => x.updMiss line fun m => { m with replied := true } := by
  unfold serveMiss
  simp only [hm, hr, hpkt, latePackets_none, Bool.false_eq_true, if_false]

theorem missRequest_answers {own : Bool} {m : Miss} (hm : (s.core c).miss? line = some m) (hr : m.replied = false) (ho : m.own = own)
    (hfirst : ∀ x ∈ missesTo s c line, x.line ≠ line → x.replied = true) (hpkt : m.pkt = none) :
    ∃ t, exec (.missRequest c line own) s = .next t ∧ cacheOnly s t ∧ ((t.core c).miss? line).map Miss.replied = some true := by
  have inOrder : (missesTo s c line).any (fun x => x.line != line && !x.replied) = false := by
    rw [List.any_eq_false]
    intro x hx
    by_cases e : x.line = line
    · simp [e]
    · simp [hfirst x hx e]
  have served : missServe s c line own = some (serveMiss s c line) := by
    unfold missServe
    simp only [hm, hr, ho, inOrder, bne_self_eq_false, Bool.or_self, Bool.false_eq_true, if_false]
  have pending : (s.core c).awaits line := ⟨m, hm, hr⟩
  refine ⟨serveMiss s c line, congrArg (event "MISS_REQUEST") served, ?_, ?_⟩
  · rw [serveMiss_of_pending hm hr hpkt]
    refine cacheOnly.updCore ?_ _ _
    split
    · exact (cacheOnly.rfl' s).serveOwn _ _
    · exact (cacheOnly.rfl' s).readMiss _ _
  · rw [serveMiss_of_pending hm hr hpkt, State.core_updCore_self]
    refine Core.miss?_answered ?_
    split
    · exact awaits_serveOwn _ _ pending
    · exact (awaits_lineProof line).readMiss _ _ pending

theorem dataReply_ends {m : Miss} (hm : (s.core c).miss? line = some m) (hr : m.replied = true) (hone : (missesTo s c line).length = 1) :
    ∃ t, exec (.dataReply c line) s = .next t ∧ cacheOnly s t ∧ (t.core c).miss? line = none := by
  have arrives : missReply s c line = some (deliverReply s c line) := by
    unfold missReply
    simp only [hm, hr, hone, decide_true, Bool.and_self, if_true]
  refine ⟨deliverReply s c line, congrArg (event "DATA_REPLY") arrives, (cacheOnly.rfl' s).deliverReply c line, ?_⟩
  refine (noMiss_lineProof line).deliverReply hm hr ?_
  rw [State.core_updCore_self, Core.miss?_freed, if_pos rfl]

/-! ### Probes, write-backs, collapses -/

/-- A core after a probe of its copy of a line alone: probed for it, and perhaps for another one that a home slice then evicts. -/
theorem core_probeOne (s : State) (c line : Nat) :
    let x := (s.core c).probed line (boundOn s c line)
    let y := (probeIf s line fun d => d = c).core c
    y = x ∨ ∃ v, v ≠ line ∧ y = x.probed v false := by
  have h := core_probeIf s line (fun d => d = c) c
  rwa [core_probeAll, if_pos (decide_eq_true rfl)] at h

/-- What is left of the line. -/
theorem probeOne_copy {e : Nat × LineSt} (he : e ∈ ((probeIf s line fun d => d = c).core c).l1) (hl : e.1 = line) :
    boundOn s c line = true ∧ e.2 = .s := by
  obtain h | ⟨v, hv, h⟩ := core_probeOne s c line
  · exact Core.probed_same (h ▸ he) hl
  · exact Core.probed_same (Core.probed_other (h ▸ he) fun e => hv (e.symm.trans hl)) hl

/-- The reply that is on its way holds one probe more (R249). -/
theorem probeOne_holds {m : Miss} (hm : (s.core c).miss? line = some m) (hr : m.replied = true) :
    (((probeIf s line fun d => d = c).core c).miss? line).map Miss.held = some (m.held + 1) := by
  have hline := Core.miss?_line hm
  have once : ((s.core c).probed line (boundOn s c line)).miss? line = some { m with held := m.held + 1 } := by
    rw [Core.miss?_probed, hm, Option.map_some, if_pos (by simp [hline, hr])]
  obtain h | ⟨v, hv, h⟩ := core_probeOne s c line
  · rw [h, once]
    rfl
  · rw [h, Core.miss?_probed, once, Option.map_some, if_neg (by simp [hline, Ne.symm hv])]
    rfl

theorem probe_takes (h : (∃ e ∈ (s.core c).l1, e.1 = line) ∨ ∃ m, (s.core c).miss? line = some m ∧ m.replied = true) :
    ∃ t, exec (.probe c line) s = .next t ∧ cacheOnly s t ∧ (boundOn s c line = false → ∀ e ∈ (t.core c).l1, e.1 ≠ line)
      ∧ (∀ e ∈ (t.core c).l1, e.1 = line → e.2 = .s)
      ∧ ∀ m, (s.core c).miss? line = some m → m.replied = true → ((t.core c).miss? line).map Miss.held = some (m.held + 1) := by
  have reaches : ((s.core c).l1.any (fun e => e.1 = line) || ((s.core c).miss? line).any Miss.replied) = true := by
    obtain ⟨e, he, hl⟩ | ⟨m, hm, hr⟩ := h
    · rw [List.any_eq_true.mpr ⟨e, he, decide_eq_true hl⟩, Bool.true_or]
    · rw [hm, Option.any_some, hr, Bool.or_true]
  refine ⟨probeIf s line fun d => d = c, congrArg (event "PROBE") (if_pos reaches), (cacheOnly.rfl' s).probeIf _ _, fun hb e he hl => ?_,
    fun e he hl => (probeOne_copy he hl).2, fun m => probeOne_holds⟩
  exact Bool.false_ne_true (hb.symm.trans (probeOne_copy he hl).1)

theorem mem_insertNat (n : Nat) (l : List Nat) : n ∈ insertNat n l := by
  induction l with
  | nil => exact List.mem_singleton_self n
  | cons k r ih =>
    unfold insertNat
    split
    · next e => exact e ▸ List.mem_cons_self
    · split
      · exact List.mem_cons_self
      · exact List.mem_cons_of_mem _ ih

/-- Where the last of some lines goes home, its home slice holds data of it that its channel does not hold yet (R403). -/
theorem mem_homeDirty_foldl {l : List Nat} (hne : l ≠ []) (hall : ∀ x ∈ l, x = line) : line ∈ (l.foldl toHome s).homeDirty := by
  have last : l.getLast hne = line := hall _ (List.getLast_mem hne)
  rw [← List.dropLast_append_getLast hne, List.foldl_append, last]
  exact mem_insertNat line _

theorem writeBack_gives (hm : (line, .m) ∈ (s.core c).l1) (hu : uncommitted s c line = false) :
    ∃ t, exec (.writeBack c line) s = .next t ∧ cacheOnly s t ∧ (∀ e ∈ (t.core c).l1, e.1 ≠ line) ∧ line ∈ t.homeDirty := by
  have leaves : ((s.core c).l1.any (fun e => e.1 = line && e.2 = .m) && !uncommitted s c line) = true := by
    rw [hu, List.any_eq_true.mpr ⟨_, hm, by simp⟩]
    rfl
  refine ⟨_, congrArg (event "WRITE_BACK") (if_pos leaves), (cacheOnly.rfl' s).setL1 _ _, (lacks_probeProof line).setL1 ?_, mem_homeDirty_foldl ?_ ?_⟩
  · rw [State.core_updCore_self]
    exact fun e he => by simpa using List.of_mem_filter he
  · exact List.ne_nil_of_mem (List.mem_map.mpr ⟨_, List.mem_filter.mpr ⟨hm, by simp⟩, rfl⟩)
  · intro x hx
    obtain ⟨e, he, rfl⟩ := List.mem_map.mp hx
    obtain ⟨hmem, hgone⟩ := List.mem_filter.mp he
    by_contra hne
    simp [hmem, hne] at hgone

/-- No line gains a replica as a home slice takes one. -/
theorem mem_replicas_homeTouch {l : Nat} {r : Nat × Nat} (h : r ∈ (homeTouch s l).replicas) : r ∈ s.replicas := by
  unfold homeTouch at h
  dsimp only at h
  split at h
  · exact h
  · exact List.mem_of_mem_filter h

theorem mem_replicas_probeIf {l : Nat} {p : Nat → Bool} {r : Nat × Nat} (h : r ∈ (probeIf s l p).replicas) : r ∈ s.replicas := by
  unfold probeIf at h
  split at h
  · exact mem_replicas_homeTouch (s := probeAll s l p) h
  · exact h

theorem collapse_removes (h : ∃ r ∈ s.replicas, r.2 = line) :
    ∃ t, exec (.collapse line) s = .next t ∧ cacheOnly s t ∧ ∀ r ∈ t.replicas, r.2 ≠ line := by
  obtain ⟨r, hr, hl⟩ := h
  have held : (s.replicas.any fun r => r.2 = line) = true := List.any_eq_true.mpr ⟨r, hr, decide_eq_true hl⟩
  have holders : ((s.replicas.filter fun r => r.2 = line).map Prod.fst).isEmpty = false := by
    rw [List.isEmpty_eq_false_iff]
    exact List.ne_nil_of_mem (List.mem_map_of_mem (List.mem_filter.mpr ⟨hr, decide_eq_true hl⟩))
  refine ⟨collapseLine s line none, congrArg (event "COLLAPSE") (if_pos held), (cacheOnly.rfl' s).collapseLine _ _, fun x hx => ?_⟩
  unfold collapseLine at hx
  simp only [holders, Bool.false_eq_true, if_false] at hx
  have kept : x ∈ s.replicas.filter fun r => r.2 != line := mem_replicas_probeIf hx
  exact bne_iff_ne.mp (List.mem_filter.mp kept).2

/-! ### Pushes, zones, translations -/

theorem push_gives (h : boundOn s c line = true) :
    ∃ t, exec (.push c line) s = .next t ∧ t = { s with blocks := t.blocks } ∧ ∀ u w sl x f n b, s.weave? u w = some x → x.core = c →
      t.fibre? u w sl = some f → mget f.binds n = some b → b.pa < line + 256 → line < b.pa + b.size →
      (∀ y, s.block? u = some y → ownLater y.sbuf w sl b = false) →
      b.pending = some (b.extend (s.phys b.pa b.size)) ∧ b.poison = s.poisoned b.pa b.size := by
  refine ⟨pushedTo s c line, congrArg (event "PUSH") (pushCore_of_bound h), rfl, fun u w sl x f n b hx hc hf hb hlo hhi hown => ?_⟩
  obtain ⟨y, g, hy, rfl⟩ := fibre?_pushedTo hx hc hf
  exact Fibre.pushed_takes hb (Bool.and_eq_true_iff.mpr ⟨decide_eq_true hlo, decide_eq_true hhi⟩) (hown y hy)

theorem zoneReview_reviews {z : Nat} (h : (s.zone z).reviewed < s.window z) :
    ∃ t, exec (.zoneReview z) s = .next t ∧ cacheOnly s t ∧ (t.zone z).deg = reviewDegree (s.zone z)
      ∧ (t.zone z).reads = 0 ∧ (t.zone z).readers = [] ∧ (t.zone z).reviewed = s.window z := by
  obtain ⟨hdeg, -⟩ := zone_setDegree s z (reviewDegree (s.zone z))
  refine ⟨_, congrArg (event "ZONE_REVIEW") (if_neg (Nat.not_le.mpr h)), ((cacheOnly.rfl' s).setDegree _ _).updZone _ _, ?_⟩
  rw [State.zone_updZone_self]
  exact ⟨hdeg, rfl, rfl, rfl⟩

theorem replWrite_takes {z : Nat} {v : Word} (h : replOk v = true) :
    ∃ t, exec (.replWrite z v) s = .next t ∧ cacheOnly s t ∧ (t.zone z).floor = fld v 0 3 ∧ (t.zone z).ceil = fld v 4 3
      ∧ (t.zone z).deg = min (max (s.zone z).deg (fld v 0 3)) (fld v 4 3) := by
  refine ⟨writeRepl s z v, congrArg (event "REPL_WRITE") (if_pos h), ((cacheOnly.rfl' s).updZone _ _).setDegree _ _, ?_⟩
  exact zone_writeRepl s z v

theorem translationWalk_fills {ctx d vpn : Nat} {t : State} {e : Tlb} (hx : (s.ctx? ctx).isSome = true) (hd : d < 128)
    (hva : canonicalVA (vpn * 4096) = true)
    (hwalk : walkFor (walkReads s ctx (vpn * 4096) fun s a => readMiss s d (lineOf a)) ctx (vpn * 4096) .load = (t, .ok e)) :
    ∃ r, exec (.translationWalk ctx d vpn) s = .next r ∧ e ∈ (r.die d).tlb ∧ r = { t with dies := r.dies } := by
  have walks : walkPage s ctx d vpn = some (t.updDie d fun x => { x with tlb := tlbInstall x.tlb e }) := by
    unfold walkPage
    rw [hva, Option.isNone_eq_false_iff.mpr hx, decide_eq_false (Nat.not_le.mpr hd), hwalk]
    rfl
  refine ⟨_, congrArg (event "TRANSLATION_WALK") walks, ?_, rfl⟩
  rw [State.die_updDie_self]
  exact List.mem_cons_self

end

/-- Settles O49, event by event: each touches nothing but caches (`cacheOnly`) or the bindings, and what holds of a core's L1 and of its miss entries
passes through the probes of other lines that an eviction from a home slice brings (`core_homeTouch`). -/
theorem cachesMove : Obligations.CachesMove := by
  unfold Obligations.CachesMove
  exact fun s c line => ⟨fun own m hm hr ho hfirst hpkt => missRequest_answers hm hr ho hfirst hpkt, fun m hm hr hone => dataReply_ends hm hr hone,
    probe_takes, writeBack_gives, collapse_removes, push_gives, fun z => zoneReview_reviews, fun z v => replWrite_takes,
    fun ctx d vpn t e => translationWalk_fills⟩

end Sys2Proof.Machine
end

