-- ==== Sys2Proof/Proofs/Power.lean ====
section
/-! PROOFS. Cores that start (O5), and scrubs, step boundaries, alarms and held completions (O56). -/
namespace Sys2Proof.Machine

variable {s : State}

theorem satTo_eq_min (m n : Nat) : satTo m n = min m n := by
  unfold satTo
  split <;> omega

/-! ### The gate of a core (R424, R425) -/

/-- A region has room where it sets no limit, and while the starts of the step are below the limit. -/
theorem Region.room_iff (x : Region) : x.room = true ↔ x.limit = 0 ∨ x.starts < min x.limit 2560 := by
  unfold Region.room
  rw [Bool.or_eq_true, decide_eq_true_eq, decide_eq_true_eq]

theorem startGate_of_started {c : Nat} (h : (s.core c).started = true) : startGate s c = (s, true) := if_pos h

/-- With room and nobody waiting the core starts and is counted. -/
theorem startGate_of_room {c : Nat} (h : (s.core c).started = false) (hq : (s.region (regionOf (coreDie c))).queue = [])
    (hr : (s.region (regionOf (coreDie c))).room = true) :
    startGate s c = ((s.updRegion (regionOf (coreDie c)) fun x => { x with starts := x.starts + 1 }).updCore c fun y => { y with started := true },
      true) := by
  simp [startGate, h, hq, hr]

/-- Without room the core joins the queue of its region. -/
theorem startGate_of_full {c : Nat} (h : (s.core c).started = false) (hq : (s.region (regionOf (coreDie c))).queue.contains c = false)
    (hr : (s.region (regionOf (coreDie c))).room = false) :
    startGate s c = (s.updRegion (regionOf (coreDie c)) fun x => { x with queue := x.queue ++ [c], defer := satTo 0xFFFFFFFF (x.defer + 1) }, false) := by
  simp only [startGate, h, hq, hr, Bool.and_false, Bool.false_eq_true, if_false]

/-- Settles O5: a core that has started passes the gate, one that finds room starts, and another joins the queue. -/
theorem coreStarts : Obligations.CoreStarts := by
  unfold Obligations.CoreStarts
  intro s c r
  refine ⟨startGate_of_started, fun h hq hroom => ?_, fun h hq hl hfull => ?_⟩
  · rw [startGate_of_room h hq ((Region.room_iff _).mpr hroom), State.core_updCore_self]
    exact ⟨rfl, rfl, congrArg Region.starts (State.region_updRegion_self s r fun x => { x with starts := x.starts + 1 })⟩
  · have hr : (s.region r).room = false := by
      rw [Bool.eq_false_iff, ne_eq, Region.room_iff]
      omega
    rw [startGate_of_full h hq hr]
    refine ⟨rfl, h, ?_, ?_⟩
    · rw [State.region_updRegion_self]
    · rw [State.region_updRegion_self]
      exact satTo_eq_min _ _

/-! ### Scrubs (R419 to R423) -/

theorem logError_chan (d k : Nat) (e : ElogEntry) : (logError s d e).chan k = s.chan k := rfl

theorem mem_insertNat_iff (p n : Nat) (l : List Nat) : p ∈ insertNat n l ↔ p = n ∨ p ∈ l := by
  induction l with
  | nil => simp [insertNat]
  | cons k r ih =>
    unfold insertNat
    split
    · rename_i h
      simp [h]
    · split
      · simp
      · simp only [List.mem_cons, ih]
        tauto

/-- A corrected line is counted, whether or not its channel passes the threshold. -/
theorem countCorrected_counts (line : Nat) :
    (countCorrected s line).mem = s.mem ∧ (countCorrected s line).poison = s.poison
      ∧ ((countCorrected s line).chan (chanOf line)).corr = min 0xFFFFFFFF ((s.chan (chanOf line)).corr + 1) := by
  unfold countCorrected
  simp only []
  split
  · exact ⟨rfl, rfl, by rw [logError_chan]; simp [State.chan, satTo_eq_min]⟩
  · exact ⟨rfl, rfl, by simp [State.chan, satTo_eq_min]⟩

/-- A line that cannot be corrected is counted, and poisoned where no copy of it exists. -/
theorem failLine_counts (line : Nat) :
    (failLine s line).mem = s.mem ∧ (failLine s line).poison = (if copied s line then s.poison else insertNat line s.poison)
      ∧ ((failLine s line).chan (chanOf line)).uncorr = min 0xFFFF ((s.chan (chanOf line)).uncorr + 1) := by
  unfold failLine
  cases copied s line with
  | true =>
    refine ⟨rfl, rfl, ?_⟩
    rw [logError_chan]
    simp [State.chan, satTo_eq_min]
  | false =>
    refine ⟨rfl, rfl, ?_⟩
    rw [logError_chan]
    simp [State.chan, satTo_eq_min, poisonLine]

theorem scrubLine_of_line {line : Nat} (hl : line < panelEnd) (ha : line % 256 = 0) (r : ScrubResult) :
    scrubLine s line r = match r with
      | .clean => some s
      | .corrected => some (countCorrected s line)
      | .uncorrectable => some (failLine s line) := by
  have hn : ¬((decide (panelEnd ≤ line) || decide (line % 256 ≠ 0)) = true) := by
    simp only [Bool.or_eq_true, decide_eq_true_eq]
    omega
  exact if_neg hn

/-! ### Step boundaries (R425) -/

/-- Neither memory nor blocks nor the count of boundaries differ. -/
def stepless (s t : State) : Prop := t.mem = s.mem ∧ t.blocks = s.blocks ∧ t.steps = s.steps

theorem stepless.trans {t r : State} (h : stepless s t) (g : stepless t r) : stepless s r :=
  ⟨g.1.trans h.1, g.2.1.trans h.2.1, g.2.2.trans h.2.2⟩

theorem stepless_foldl {α : Type} {f : State → α → State} (h : ∀ s a, stepless s (f s a)) (l : List α) (s : State) : stepless s (l.foldl f s) := by
  induction l generalizing s with
  | nil => exact ⟨rfl, rfl, rfl⟩
  | cons a r ih => exact (h s a).trans (ih _)

theorem stepless_regionStep (s : State) (r : Nat) : stepless s (regionStep s r) := by
  refine stepless.trans ?_ (stepless_foldl (f := fun s c => s.updCore c fun y => { y with started := true }) (fun _ _ => ⟨rfl, rfl, rfl⟩) _ _)
  exact ⟨rfl, rfl, rfl⟩

theorem oneStep_counts (s : State) : (oneStep s).mem = s.mem ∧ (oneStep s).blocks = s.blocks ∧ (oneStep s).steps = s.steps + 1 := by
  obtain ⟨hm, hb, -⟩ := stepless_foldl stepless_regionStep (upto 16) s
  unfold oneStep
  generalize (upto 16).foldl regionStep s = t at hm hb ⊢
  exact ⟨hm, hb, rfl⟩

/-- n boundaries are counted, and leave memory and blocks. -/
theorem manySteps_counts (n : Nat) (s : State) :
    (manySteps n s).mem = s.mem ∧ (manySteps n s).blocks = s.blocks ∧ (manySteps n s).steps = s.steps + n := by
  induction n generalizing s with
  | zero => exact ⟨rfl, rfl, rfl⟩
  | succ n ih =>
    obtain ⟨hm, hb, hs⟩ := ih (oneStep s)
    obtain ⟨km, kb, ks⟩ := oneStep_counts s
    refine ⟨hm.trans km, hb.trans kb, hs.trans ?_⟩
    rw [ks]
    omega

theorem stepless_readmit (s : State) : stepless s (readmit s) := by
  unfold readmit
  simp only []
  split
  · exact ⟨rfl, rfl, rfl⟩
  · split <;> exact ⟨rfl, rfl, rfl⟩

theorem stepBoundary_passes (h : s.steps < s.time / 120) :
    ∃ t, exec .stepBoundary s = .next t ∧ t.steps = s.time / 120 ∧ t.mem = s.mem ∧ t.blocks = s.blocks := by
  obtain ⟨hm, hb, hs⟩ := manySteps_counts (s.time / 120 - s.steps) s
  obtain ⟨km, kb, ks⟩ := stepless_readmit (manySteps (s.time / 120 - s.steps) s)
  refine ⟨_, congrArg (event "STEP_BOUNDARY") (if_pos (decide_eq_true h)), ?_, km.trans hm, kb.trans hb⟩
  rw [ks, hs]
  omega

/-! ### Droop (R426 to R428) -/

theorem region_foldl_ne {f : Nat → Region → Region} {l : List Nat} {r : Nat} (h : r ∉ l) (s : State) :
    (l.foldl (fun t n => t.updRegion n (f n)) s).region r = s.region r := by
  induction l generalizing s with
  | nil => rfl
  | cons n l ih =>
    obtain ⟨hn, hl⟩ := not_or.mp (mt List.mem_cons.mpr h)
    rw [List.foldl_cons, ih hl, State.region_updRegion_ne s _ hn]

theorem region_foldl_hold {l : List Nat} (n : Nat) (s : State) (h : n ∈ l ∨ (s.region n).hold = true) :
    ((l.foldl (fun t n => t.updRegion n fun x => { x with hold := true }) s).region n).hold = true := by
  induction l generalizing s with
  | nil => exact h.resolve_left List.not_mem_nil
  | cons k l ih =>
    refine ih _ ?_
    by_cases hk : n = k
    · exact .inr (by rw [hk, State.region_updRegion_self])
    · rcases h with h | h
      · exact .inl ((List.mem_cons.mp h).resolve_left hk)
      · exact .inr (by rw [State.region_updRegion_ne s _ hk]; exact h)

/-- No region lies beside itself. -/
theorem not_mem_regionsBeside (r : Nat) : r ∉ regionsBeside r := by
  unfold regionsBeside
  simp only [List.mem_append, not_or]
  refine ⟨⟨⟨?_, ?_⟩, ?_⟩, ?_⟩ <;> split <;> simp only [List.mem_singleton, List.not_mem_nil, not_false_eq_true] <;> omega

theorem droopAlarm_stretches {r : Nat} (h : r < 16) :
    ∃ t, exec (.droopAlarm r) s = .next t ∧ (t.region r).stretch = true ∧ (t.region r).alarms = min 0xFFFFFFFF ((s.region r).alarms + 1)
      ∧ ∀ n ∈ regionsBeside r, (t.region n).hold = true := by
  refine ⟨_, congrArg (event "DROOP_ALARM") (if_neg (Nat.not_le.mpr h)), ?_, ?_, fun n hn => ?_⟩
  · refine (congrArg Region.stretch (region_foldl_ne (not_mem_regionsBeside r) _)).trans ?_
    rw [State.region_updRegion_self]
  · refine (congrArg Region.alarms (region_foldl_ne (not_mem_regionsBeside r) _)).trans ?_
    rw [State.region_updRegion_self]
    exact satTo_eq_min _ _
  · exact region_foldl_hold n _ (.inl hn)

theorem region_foldl_endHold {l : List Nat} {r : Nat} (h : r ∉ l) (s : State) : (l.foldl endHold s).region r = s.region r := by
  induction l generalizing s with
  | nil => rfl
  | cons n l ih =>
    obtain ⟨hn, hl⟩ := not_or.mp (mt List.mem_cons.mpr h)
    rw [List.foldl_cons, ih hl]
    exact State.region_updRegion_ne s _ hn

theorem droopRecovery_ends {r : Nat} (hs : (s.region r).stretch = true) (ht : (s.region r).holdAt + 600 ≤ s.time) :
    ∃ t, exec (.droopRecovery r) s = .next t ∧ (t.region r).stretch = false := by
  have hn : ¬((!(s.region r).stretch || decide (s.time < (s.region r).holdAt + 600)) = true) := by
    simp only [hs, Bool.not_true, Bool.false_or, decide_eq_true_eq]
    omega
  refine ⟨_, congrArg (event "DROOP_RECOVERY") (if_neg hn), ?_⟩
  refine (congrArg Region.stretch (region_foldl_endHold (not_mem_regionsBeside r) _)).trans ?_
  rw [State.region_updRegion_self]

/-- A batch of a resident block that is held past HOLDCAP lets the expiry occur. -/
theorem holdExpiry_releases {r u w since : Nat} {b : Block} {x : Weave} {y : Batch} {srcs : List Nat} (hb : (u, b) ∈ s.blocks)
    (hx : (w, x) ∈ b.weaves) (hy : y ∈ x.batches) (hw : y.state = .wait (.hold r srcs since)) (ht : since + 600 * (s.region r).holdcap ≤ s.time) :
    exec (.holdExpiry r) s = .next (everyBlock s fun b => b.wakeIf (holdPast s r)) := by
  have past : holdPast s r (.hold r srcs since) = true := by
    simp [holdPast, holdOver, ht]
  have waits : b.waitsFor (holdPast s r) = true :=
    List.any_eq_true.mpr ⟨_, hx, List.any_eq_true.mpr ⟨y, hy, by rw [hw]; exact past⟩⟩
  have due : s.blocks.any (fun b => b.2.waitsFor (holdPast s r)) = true := List.any_eq_true.mpr ⟨_, hb, waits⟩
  exact congrArg (event "HOLD_EXPIRY") (if_pos (Bool.or_eq_true_iff.mpr (.inl due)))

/-- Settles O56, event by event. -/
theorem powerMoves : Obligations.PowerMoves := by
  unfold Obligations.PowerMoves
  refine fun s => ⟨fun line hl ha => ⟨?_, ?_, ?_⟩, stepBoundary_passes, fun r => droopAlarm_stretches, fun r => droopRecovery_ends,
    fun r u b w x y srcs since hb hx hy hw ht => holdExpiry_releases hb hx hy hw ht⟩
  · exact congrArg (event "SCRUB") (scrubLine_of_line hl ha .clean)
  · obtain ⟨hm, hp, hc⟩ := countCorrected_counts (s := s) line
    exact ⟨_, congrArg (event "SCRUB") (scrubLine_of_line hl ha .corrected), hm, hp, hc⟩
  · obtain ⟨hm, hp, hc⟩ := failLine_counts (s := s) line
    refine ⟨_, congrArg (event "SCRUB") (scrubLine_of_line hl ha .uncorrectable), hm, fun p hpm => ?_, fun h => ?_, fun h => ?_, hc⟩
    · rw [hp] at hpm
      split at hpm
      · exact .inl hpm
      · exact ((mem_insertNat_iff _ _ _).mp hpm).symm
    · rw [hp, if_pos h]
    · rw [hp, h]
      exact mem_insertNat _ _

end Sys2Proof.Machine
end

