-- ==== Sys2Proof/Proofs/TreeRounds.lean ====
section
/-! PROOFS. Rounds of a tree: reports, notices, completion and release (O55). -/
namespace Sys2Proof.Machine

variable {s : State} {tree : Bool}

/-! ### Roots and segments -/

@[simp] theorem State.root_updRoot (s : State) (tree : Bool) (f : Root → Root) : (s.updRoot tree f).root tree = f (s.root tree) := by
  cases tree <;> rfl

@[simp] theorem State.die_updRoot (s : State) (tree : Bool) (f : Root → Root) (d : Nat) : (s.updRoot tree f).die d = s.die d := by
  cases tree <;> rfl

@[simp] theorem State.root_updSeg (s : State) (d : Nat) (tree : Bool) (f : Seg → Seg) : (s.updSeg d tree f).root tree = s.root tree := by
  cases tree <;> rfl

@[simp] theorem State.seg_updSeg (s : State) (d : Nat) (tree : Bool) (f : Seg → Seg) :
    ((s.updSeg d tree f).die d).seg tree = f ((s.die d).seg tree) := by
  unfold State.updSeg
  rw [State.die_updDie_self]
  cases tree <;> rfl

/-! ### Reports and notices -/

theorem treeReport_reports {d : Nat} (hd : d < 128) (hh : treeHeld s tree = true) (hn : reportedHere s d tree = false)
    (hr : ((s.die d).seg tree).rounds = (s.root tree).rounds) (ha : dieArrived s tree d = true) :
    ∃ t, exec (.treeReport tree d) s = .next t ∧ reportedHere t d tree = true ∧ d ∈ (t.root tree).seen ∧ (t.root tree).rounds = (s.root tree).rounds := by
  have hg : ¬((!treeHeld s tree || decide (128 ≤ d) || reportedHere s d tree
      || decide (((s.die d).seg tree).rounds ≠ (s.root tree).rounds) || !dieArrived s tree d) = true) := by
    simp only [hh, hn, hr, ha, Bool.not_true, Bool.false_or, Bool.or_false, ne_eq, not_true_eq_false, decide_false, decide_eq_true_eq]
    omega
  refine ⟨_, congrArg (event "TREE_REPORT") (if_neg hg), ?_, ?_, ?_⟩
  · simp [reportedHere]
  · simp [mem_insertNat]
  · simp

theorem absenceNotice_notes {u : Nat} {b : Block} (hb : memberBlock s u = some b) (hi : inTree s b tree = true) (ha : away s u = true)
    (hn : (s.root tree).absent.contains u = false) : ∃ t, exec (.absenceNotice tree u) s = .next t ∧ u ∈ (t.root tree).absent := by
  have notes : noteAbsent s tree u = some (s.updRoot tree fun r => { r with absent := insertNat u r.absent }) := by
    unfold noteAbsent
    rw [hb]
    exact if_pos (by rw [hi, ha, hn]; rfl)
  refine ⟨_, congrArg (event "ABSENCE_NOTICE") notes, ?_⟩
  simp [mem_insertNat]

/-- The withdrawal of a report leaves the absent members. -/
theorem withdraw_absent (s : State) (d : Nat) (tree : Bool) : ((withdraw s d tree).root tree).absent = (s.root tree).absent := by
  unfold withdraw
  split <;> simp

theorem presenceNotice_notes {u : Nat} {b : Block} (hb : s.block? u = some b) (ha : away s u = false)
    (hc : (s.root tree).absent.contains u = true) : ∃ t, exec (.presenceNotice tree u) s = .next t ∧ u ∉ (t.root tree).absent := by
  have notes : notePresent s tree u = some (
      let t := s.updRoot tree fun r => { r with absent := r.absent.filter fun v => v != u }
      if b.arrived tree then t else withdraw t (coreDie b.core) tree) := by
    unfold notePresent
    rw [hb]
    exact if_neg (by rw [ha, hc]; decide)
  refine ⟨_, congrArg (event "PRESENCE_NOTICE") notes, ?_⟩
  simp only []
  split
  · simp
  · rw [withdraw_absent]
    simp

theorem roundComplete_completes (hs : (s.root tree).seen.length = 128) (ha : (s.root tree).absent = []) :
    exec (.roundComplete tree) s = .next (s.updRoot tree fun r => { r with rounds := r.rounds + 1, seen := [], doneAt := s.clock }) :=
  congrArg (event "ROUND_COMPLETE") (if_pos (by rw [hs, ha]; rfl))

/-! ### Release -/

/-- A block's arrival in a tree begins afresh. -/
def Block.unarrived (tree : Bool) (b : Block) : Block := if tree then { b with arr1 := false } else { b with arr0 := false }

theorem Block.arrived_unarrived (b : Block) : (b.unarrived tree).arrived tree = false := by cases tree <;> rfl

theorem Block.arrived_wakeIf (b : Block) (p : Wait → Bool) : (b.wakeIf p).arrived tree = b.arrived tree := rfl

/-- What the release of a round does to one block of the die. -/
def releaseBlock (tree : Bool) (s : State) (u : Nat) : State :=
  let t := s.updBlock u (Block.unarrived tree)
  wakeIf t u fun q => match q with | .twait r toks => r == tree && roundsPass (roundsHere t u tree) toks | _ => false

/-- The release leaves the blocks it does not speak of, and no arrival of the one it does. -/
theorem arrived_releaseBlock (s : State) (u v : Nat) :
    ((releaseBlock tree s v).block? u).map (fun b => b.arrived tree) =
      if u = v then (s.block? u).map fun _ => false else (s.block? u).map fun b => b.arrived tree := by
  unfold releaseBlock wakeIf
  simp only []
  split
  · rename_i h
    subst h
    rw [State.block?_updBlock_self, State.block?_updBlock_self]
    cases s.block? u with
    | none => rfl
    | some b => exact congrArg some (Block.arrived_unarrived b)
  · rename_i h
    rw [State.block?_updBlock_ne _ _ h, State.block?_updBlock_ne _ _ h]

theorem arrived_foldl_releaseBlock {u : Nat} (l : List (Nat × Block)) (s : State)
    (h : (∃ e ∈ l, e.1 = u) ∧ (s.block? u).isSome = true ∨ (s.block? u).map (fun b => b.arrived tree) = some false) :
    ((l.foldl (fun s e => releaseBlock tree s e.1) s).block? u).map (fun b => b.arrived tree) = some false := by
  induction l generalizing s with
  | nil =>
    rcases h with ⟨⟨_, he, -⟩, -⟩ | h
    · cases he
    · exact h
  | cons e l ih =>
    refine ih _ ?_
    have step := arrived_releaseBlock (tree := tree) s u e.1
    rcases h with ⟨⟨x, hx, hu⟩, hb⟩ | h
    · obtain ⟨b, hb⟩ := Option.isSome_iff_exists.mp hb
      by_cases he : u = e.1
      · exact .inr (by rw [step, if_pos he, hb]; rfl)
      · rcases List.mem_cons.mp hx with hx | hx
        · exact absurd (hx ▸ hu).symm he
        · refine .inl ⟨⟨x, hx, hu⟩, ?_⟩
          rw [if_neg he, hb] at step
          obtain ⟨c, hc, -⟩ := Option.map_eq_some_iff.mp step
          exact Option.isSome_iff_exists.mpr ⟨c, hc⟩
    · refine .inr (step.trans ?_)
      split
      · obtain ⟨b, hb, -⟩ := Option.map_eq_some_iff.mp h
        rw [hb]
        rfl
      · exact h

theorem die_foldl_releaseBlock (l : List (Nat × Block)) (s : State) (d : Nat) :
    (l.foldl (fun s e => releaseBlock tree s e.1) s).die d = s.die d := by
  induction l generalizing s with
  | nil => rfl
  | cons e l ih => exact (ih _).trans rfl

theorem treeRelease_releases {d : Nat} (hd : d < 128) (hr : ((s.die d).seg tree).rounds < (s.root tree).rounds)
    (hn : releasedNearer s tree d = true) :
    ∃ t, exec (.treeRelease tree d) s = .next t ∧ ((t.die d).seg tree).rounds = ((s.die d).seg tree).rounds + 1 ∧ reportedHere t d tree = false
      ∧ ∀ u b, s.block? u = some b → coreDie b.core = d → inTree s b tree = true → (t.block? u).map (fun y => y.arrived tree) = some false := by
  have hg : ¬((decide (128 ≤ d) || decide ((s.root tree).rounds ≤ roundsSeen s tree d) || !releasedNearer s tree d) = true) := by
    simp only [hn, Bool.not_true, Bool.or_false, Bool.or_eq_true, decide_eq_true_eq]
    unfold roundsSeen
    omega
  refine ⟨_, congrArg (event "TREE_RELEASE") (if_neg hg), ?_, ?_, fun u b hb hc hi => ?_⟩
  · refine (congrArg (fun x : Die => (x.seg tree).rounds) (die_foldl_releaseBlock _ _ d)).trans ?_
    exact congrArg Seg.rounds (State.seg_updSeg s d tree _)
  · refine (congrArg (fun x : Die => (x.seg tree).reported) (die_foldl_releaseBlock _ _ d)).trans ?_
    exact congrArg Seg.reported (State.seg_updSeg s d tree _)
  · refine arrived_foldl_releaseBlock _ _ (.inl ⟨⟨(u, b), ?_, rfl⟩, ?_⟩)
    · have hm : (u, b) ∈ s.blocks := Tests.mget_mem _ _ _ hb
      exact List.mem_filter.mpr ⟨hm, Bool.and_eq_true_iff.mpr ⟨decide_eq_true hc, hi⟩⟩
    · exact Option.isSome_iff_exists.mpr ⟨b, hb⟩

/-- Settles O55, event by event. -/
theorem treesMove : Obligations.TreesMove := by
  unfold Obligations.TreesMove
  exact fun s tree => ⟨fun d => treeReport_reports, fun u b => absenceNotice_notes, fun u b => presenceNotice_notes, roundComplete_completes,
    fun d => treeRelease_releases⟩

end Sys2Proof.Machine
end

