-- ==== Sys2Proof/Proofs/DieControllers.lean ====
section
/-! PROOFS. Die controllers: reset and return, drain deadline, slices, invalidation and registers (O53). -/
namespace Sys2Proof.Machine

variable {s : State} {d : Nat}

/-! ### What leaves the dies alone -/

theorem die_of_dies {t : State} (h : t.dies = s.dies) (d : Nat) : t.die d = s.die d := by
  unfold State.die
  rw [h]

theorem dies_homeTouch (s : State) (line : Nat) : (homeTouch s line).dies = s.dies := by
  unfold homeTouch
  simp only []
  split <;> rfl

theorem dies_foldl {α : Type} {f : State → α → State} (h : ∀ s a, (f s a).dies = s.dies) (l : List α) (s : State) : (l.foldl f s).dies = s.dies := by
  induction l generalizing s with
  | nil => rfl
  | cons a l ih => exact (ih _).trans (h s a)

theorem mem_foldl {α : Type} {f : State → α → State} (h : ∀ s a, (f s a).mem = s.mem) (l : List α) (s : State) : (l.foldl f s).mem = s.mem := by
  induction l generalizing s with
  | nil => rfl
  | cons a l ih => exact (ih _).trans (h s a)

theorem dies_dropQueues (s : State) (d : Nat) : (dropQueues s d).dies = s.dies :=
  dies_foldl (f := fun s (m : Msg) => countDropped s m.sender) (fun _ _ => rfl) _ s

theorem mem_dropQueues (s : State) (d : Nat) : (dropQueues s d).mem = s.mem :=
  mem_foldl (f := fun s (m : Msg) => countDropped s m.sender) (fun _ _ => rfl) _ s

/-! ### Reset and return (R402 to R405) -/

/-- A die whose fence is complete has written its dirty lines back. -/
def writtenBack (s : State) (d : Nat) : State := dropCaches (dropQueues ((dirtyL1 s d).foldl toHome s) d) d

theorem fenceDie_unforced (s : State) (d : Nat) :
    fenceDie s d false = (writtenBack s d).updDie d fun x => { x with drpois := 0, drforced := false, drstate := 2 } := rfl

theorem dies_writtenBack (s : State) (d : Nat) : (writtenBack s d).dies = s.dies :=
  (dies_dropQueues _ d).trans (dies_foldl (f := toHome) (fun s line => dies_homeTouch s line) _ s)

theorem mem_writtenBack (s : State) (d : Nat) : (writtenBack s d).mem = s.mem :=
  (mem_dropQueues _ d).trans (mem_foldl (f := toHome) (fun _ _ => homeTouch_mem) _ s)

/-- No cache of the die is left. -/
theorem l1_dropCaches (s : State) {d c : Nat} (h : coreDie c = d) : ((dropCaches s d).core c).l1 = [] := by
  have keeps : (if coreDie c = d then { Core.reset with l1 := [], utlb := [], icache := [], misses := [] } else Core.reset) = Core.reset := by
    split <;> rfl
  refine (congrArg Core.l1 (core_mapCores s keeps)).trans ?_
  rw [if_pos h]

theorem dieReset_of_command {i a : Nat} (h : (s.die d).dcbusy = some (8, i, a)) (hb : blocksOn s d = []) :
    resetStep s d = if (s.die d).drstate = 2 then some (rehomeDie s d)
      else if (s.die d).drstate ≠ 1 then some (s.updDie d fun x => { x with drstate := 1, drainAt := s.time, drforced := false, drpois := 0 })
      else some (fenceDie s d false) := by
  unfold resetStep State.dcBusy
  simp only [h]
  have hb' : blocksOn (s.updDie d fun x => { x with drstate := 1, drainAt := s.time, drforced := false, drpois := 0 }) d = [] := hb
  simp only [hb, hb', List.foldl_nil, List.all_nil, List.isEmpty_nil, Bool.not_true, Bool.false_eq_true, if_false]

theorem fence_completes (s : State) (d : Nat) :
    ((fenceDie s d false).die d).drstate = 2 ∧ ((fenceDie s d false).die d).drforced = false
      ∧ ((fenceDie s d false).die d).dcbusy = (s.die d).dcbusy ∧ (fenceDie s d false).mem = s.mem
      ∧ ∀ e, coreDie e = d → ((fenceDie s d false).core e).l1 = [] := by
  have same : (writtenBack s d).die d = s.die d := die_of_dies (dies_writtenBack s d) d
  rw [fenceDie_unforced, State.die_updDie_self, same]
  exact ⟨rfl, rfl, rfl, mem_writtenBack s d, fun e he => l1_dropCaches _ he⟩

theorem mem_rehome (s : State) (d : Nat) (e : Nat × Nat) : (rehome s d e).mem = s.mem := by
  unfold rehome
  split <;> rfl

theorem rehome_completes (s : State) (d : Nat) : (rehomeDie s d).mem = s.mem ∧ ∃ x : Die, (rehomeDie s d).die d = resetDie x := by
  refine ⟨?_, _, (die_of_dies (dies_foldl dies_homeTouch _ _) d).trans (State.die_updDie_self _ d resetDie)⟩
  exact (mem_foldl (f := homeTouch) (fun _ _ => homeTouch_mem) _ _).trans (mem_foldl (fun s e => mem_rehome s d e) _ _)

/-- What a die reset does once no block is left on the die (R403). -/
theorem dieReset_moves {i a : Nat} (h : (s.die d).dcbusy = some (8, i, a)) (hb : blocksOn s d = []) :
    ((s.die d).drstate ≠ 1 → (s.die d).drstate ≠ 2 →
      exec (.dieReset d) s = .next (s.updDie d fun x => { x with drstate := 1, drainAt := s.time, drforced := false, drpois := 0 }))
    ∧ ((s.die d).drstate = 1 → ∃ t, exec (.dieReset d) s = .next t ∧ ((t.die d).drstate, (t.die d).drforced, (t.die d).dcbusy) = (2, false, some (8, i, a))
        ∧ t.mem = s.mem ∧ ∀ e, coreDie e = d → (t.core e).l1 = [])
    ∧ ((s.die d).drstate = 2 → ∃ t, exec (.dieReset d) s = .next t ∧ ((t.die d).drstate, (t.die d).dcbusy) = (3, none) ∧ (t.die d).tlb = []
        ∧ t.mem = s.mem) := by
  have step := dieReset_of_command h hb
  refine ⟨fun h1 h2 => ?_, fun h1 => ?_, fun h2 => ?_⟩
  · rw [if_neg h2, if_pos h1] at step
    exact congrArg (event "DIE_RESET") step
  · rw [if_neg (by omega), if_neg (not_not.mpr h1)] at step
    obtain ⟨hs, hf, hc, hm, hl⟩ := fence_completes s d
    exact ⟨_, congrArg (event "DIE_RESET") step, by rw [hs, hf, hc, h], hm, hl⟩
  · rw [if_pos h2] at step
    obtain ⟨hm, x, hx⟩ := rehome_completes s d
    exact ⟨_, congrArg (event "DIE_RESET") step, by rw [hx]; rfl, by rw [hx]; rfl, hm⟩

theorem drainDeadline_fences (h : (s.die d).drstate = 1) (ht : (s.die d).drainAt + 600 * max 1 (s.die d).drtime ≤ s.time) :
    ∃ t, exec (.drainDeadline d) s = .next t ∧ ((t.die d).drstate, (t.die d).drforced) = (2, true) := by
  have hn : ¬((decide ((s.die d).drstate ≠ 1) || decide (s.time < (s.die d).drainAt + (s.die d).drainTicks)) = true) := by
    simp only [h, ne_eq, not_true_eq_false, decide_false, Bool.false_or, decide_eq_true_eq]
    unfold Die.drainTicks
    omega
  refine ⟨_, congrArg (event "DRAIN_DEADLINE") (if_neg hn), ?_⟩
  unfold fenceDie
  rw [State.die_updDie_self]

theorem dieReturn_returns {i a : Nat} (h : (s.die d).dcbusy = some (9, i, a)) (hs : (s.die d).drstate = 3) :
    ∃ t, exec (.dieReturn d) s = .next t ∧ ((t.die d).drstate, (t.die d).dcbusy, (t.die d).dcres) = (4, none, 0) := by
  have returns : returnDie s d = some (dcDone (s.updDie d fun x => { x with drstate := if x.drstate = 3 then 4 else x.drstate }) d 0) := by
    simp only [returnDie, State.dcBusy, h]
  refine ⟨_, congrArg (event "DIE_RETURN") returns, ?_⟩
  unfold dcDone
  rw [State.die_updDie_self, State.die_updDie_self, hs]
  rfl

/-! ### Slice retirement (R407) -/

theorem sliceOf_mput (t : Map Nat) (b c m : Nat) : sliceOf (mput t b m) c = if c = b then m else sliceOf t c := by
  unfold sliceOf
  rw [mget_mput]
  split <;> rfl

theorem sliceOf_mdel (t : Map Nat) (b c : Nat) : sliceOf (mdel t b) c = if c = b then b % 16 else sliceOf t c := by
  unfold sliceOf
  split
  · rename_i h
    rw [h, mget_mdel_self]
    rfl
  · rename_i h
    rw [mget_mdel_ne _ h]

theorem fewest_mem {t : Map Nat} {l : List Nat} (h : l ≠ []) : ∃ m ∈ l, fewest t l = some m := by
  induction l with
  | nil => exact absurd rfl h
  | cons n r ih =>
    unfold fewest
    cases r with
    | nil => exact ⟨n, List.mem_singleton_self n, rfl⟩
    | cons k r =>
      obtain ⟨m, hm, hf⟩ := ih (List.cons_ne_nil _ _)
      rw [hf]
      simp only []
      split
      · exact ⟨n, List.mem_cons_self, rfl⟩
      · exact ⟨m, List.mem_cons_of_mem _ hm, rfl⟩

/-- A bucket passes to a live slice. -/
def moveBucket (live : List Nat) (t : Map Nat) (b : Nat) : Map Nat :=
  match fewest t live with
  | some m => if m = b % 16 then mdel t b else mput t b m
  | none => t

theorem sliceOf_moveBucket {live : List Nat} (h : live ≠ []) (t : Map Nat) (b : Nat) :
    ∃ m ∈ live, ∀ c, sliceOf (moveBucket live t b) c = if c = b then m else sliceOf t c := by
  obtain ⟨m, hm, hf⟩ := fewest_mem (t := t) h
  refine ⟨m, hm, fun c => ?_⟩
  unfold moveBucket
  rw [hf]
  simp only []
  split
  · rename_i hb
    rw [sliceOf_mdel, hb]
  · exact sliceOf_mput t b c m

/-- Buckets that have passed to live slices are of none but those, and so are buckets that another slice held before. -/
theorem sliceOf_foldl_moveBucket {live : List Nat} {n c : Nat} (h : live ≠ []) (hn : n ∉ live) (l : List Nat) (t : Map Nat)
    (hc : c ∈ l ∨ sliceOf t c ≠ n) : sliceOf (l.foldl (moveBucket live) t) c ≠ n := by
  induction l generalizing t with
  | nil => exact hc.resolve_left List.not_mem_nil
  | cons b l ih =>
    refine ih _ ?_
    obtain ⟨m, hm, hs⟩ := sliceOf_moveBucket h t b
    rw [hs]
    by_cases hb : c = b
    · rw [if_pos hb]
      exact .inr fun e => hn (e ▸ hm)
    · rw [if_neg hb]
      exact hc.imp_left fun hc => (List.mem_cons.mp hc).resolve_left hb

theorem sliceOf_moveBuckets {live : List Nat} {n b : Nat} (h : live ≠ []) (hn : n ∉ live) (t : Map Nat) (hb : b < 256) :
    sliceOf (moveBuckets t live n) b ≠ n := by
  refine sliceOf_foldl_moveBucket h hn _ t ?_
  by_cases hs : sliceOf t b = n
  · exact .inl (List.mem_filter.mpr ⟨List.mem_range.mpr hb, decide_eq_true hs⟩)
  · exact .inr hs

/-- The live slices of a kind without one of them. -/
def otherSlices (x : Die) (n : Nat) : List Nat := (liveSlices x (decide (16 ≤ n))).filter fun m => m != n % 16

theorem getLsbD_retired {n : Nat} (h : n < 32) (x : BitVec 32) : (x ||| (1#32 <<< n)).getLsbD n = true := by
  simp [h]

/-- A slice that another live one of its kind outlives is retired: its buckets are those of others. -/
theorem retireSlice_retires {n : Nat} (hr : (s.die d).slret.getLsbD n = false) (hl : otherSlices (s.die d) n ≠ []) :
    ((retireSlice s d n).die d).slret = (s.die d).slret ||| (1#32 <<< n)
      ∧ (16 ≤ n → ((retireSlice s d n).die d).replB = moveBuckets (s.die d).replB (otherSlices (s.die d) n) (n % 16))
      ∧ (n < 16 → ((retireSlice s d n).die d).homeB = moveBuckets (s.die d).homeB (otherSlices (s.die d) n) (n % 16)) := by
  have hg : ¬(((s.die d).slret.getLsbD n || (otherSlices (s.die d) n).isEmpty) = true) := by
    simp [hr, hl]
  unfold retireSlice
  simp only []
  rw [if_neg (by exact hg)]
  by_cases hk : 16 ≤ n
  · rw [if_pos (decide_eq_true hk), State.die_updDie_self]
    exact ⟨rfl, fun _ => rfl, fun h => absurd hk (Nat.not_le.mpr h)⟩
  · rw [if_neg (by simpa using hk), die_of_dies (dies_foldl (f := fun s (e : Nat × Nat) => homeTouch s e.2) (fun s e => dies_homeTouch s e.2) _ _) d, State.die_updDie_self]
    exact ⟨rfl, fun h => absurd h hk, fun _ => rfl⟩

theorem sliceRetire_retires {n a : Nat} (h : (s.die d).dcbusy = some (10, n, a)) (hn : n < 32) (hr : (s.die d).slret.getLsbD n = false)
    (hl : ∃ m ∈ liveSlices (s.die d) (decide (16 ≤ n)), m ≠ n % 16) :
    ∃ t, exec (.sliceRetire d n) s = .next t ∧ (t.die d).slret.getLsbD n = true
      ∧ ∀ b, b < 256 → sliceOf (if 16 ≤ n then (t.die d).replB else (t.die d).homeB) b ≠ n % 16 := by
  have retires : sliceStep s d n = some (dcDone (retireSlice s d n) d 0) := by
    unfold sliceStep State.dcBusy
    simp only [if_neg (Nat.not_le.mpr hn), h, if_true]
  obtain ⟨m, hm, hne⟩ := hl
  have hm' : m ∈ otherSlices (s.die d) n := List.mem_filter.mpr ⟨hm, bne_iff_ne.mpr hne⟩
  have hlive : otherSlices (s.die d) n ≠ [] := List.ne_nil_of_mem hm'
  have hout : n % 16 ∉ otherSlices (s.die d) n := fun hc => bne_iff_ne.mp (List.mem_filter.mp hc).2 rfl
  obtain ⟨hslret, hrepl, hhome⟩ := retireSlice_retires hr hlive
  refine ⟨_, congrArg (event "SLICE_RETIRE") retires, ?_, fun b hb => ?_⟩
  · unfold dcDone
    rw [State.die_updDie_self, hslret]
    exact getLsbD_retired hn _
  · unfold dcDone
    rw [State.die_updDie_self]
    split
    · rename_i hk
      rw [hrepl hk]
      exact sliceOf_moveBuckets hlive hout _ hb
    · rename_i hk
      rw [hhome (Nat.not_le.mp hk)]
      exact sliceOf_moveBuckets hlive hout _ hb

/-! ### Invalidation (R436) -/

theorem not_tlbNamed_of_kept {ctx page : Nat} {all : Bool} {l : List Tlb} {x : Tlb} (h : x ∈ l.filter fun t => !tlbNamed ctx page all t) :
    tlbNamed ctx page all x = false := by
  simpa using (List.mem_filter.mp h).2

theorem invalidation_drops {ctx page : Nat} {all : Bool} (hb : (s.die d).invalBusy = true) (hc : fld (s.die d).inval 48 16 = ctx)
    (hp : fld (s.die d).inval 12 36 = page) (ha : (s.die d).inval.getLsbD 0 = all) :
    ∃ t, exec (.invalidation d ctx page all) s = .next t ∧ (t.die d).invalBusy = false ∧ (∀ x ∈ (t.die d).tlb, tlbNamed ctx page all x = false)
      ∧ ∀ c, coreDie c = d → ∀ x ∈ (t.core c).utlb, tlbNamed ctx page all x = false := by
  have drops : invalidate s d ctx page all = some ((dropPage s d ctx page all).updDie d fun x => { x with invalBusy := false }) :=
    if_neg (by simp only [hb, hc, hp, ha, ne_eq, not_true_eq_false, decide_false, bne_self_eq_false, Bool.not_true, Bool.or_self, Bool.false_eq_true,
      not_false_eq_true])
  have die_dropPage : (dropPage s d ctx page all).die d = { s.die d with tlb := (s.die d).tlb.filter fun t => !tlbNamed ctx page all t } :=
    State.die_updDie_self s d fun x => { x with tlb := x.tlb.filter fun t => !tlbNamed ctx page all t }
  refine ⟨_, congrArg (event "INVALIDATION") drops, ?_, ?_, fun c hcd => ?_⟩
  · rw [State.die_updDie_self]
  · rw [State.die_updDie_self, die_dropPage]
    exact fun x hx => not_tlbNamed_of_kept hx
  · have keeps : (if coreDie c = d then { Core.reset with utlb := Core.reset.utlb.filter fun t => !tlbNamed ctx page all t } else Core.reset) = Core.reset := by
      split <;> rfl
    have hcore : ((dropPage s d ctx page all).core c).utlb = (s.core c).utlb.filter fun t => !tlbNamed ctx page all t := by
      refine (congrArg Core.utlb (core_mapCores (s.updDie d _) keeps)).trans ?_
      rw [if_pos hcd]
      rfl
    intro x hx
    exact not_tlbNamed_of_kept (hcore ▸ hx)

/-! ### Registers (R402) -/

theorem ofNat64_mod_two_pow_32 (v : Word) : ofNat64 (v.toNat % 2 ^ 32) = v &&& 0xFFFFFFFF := by
  apply BitVec.eq_of_toNat_eq
  rw [BitVec.toNat_and, show (0xFFFFFFFF : Word).toNat = 2 ^ 32 - 1 from rfl, Nat.and_two_pow_sub_one_eq_mod, ofNat64, BitVec.toNat_ofNat]
  omega

theorem ofNat64_mod_two_pow_16 (v : Word) : ofNat64 (v.toNat % 65536) = v &&& 0xFFFF := by
  apply BitVec.eq_of_toNat_eq
  rw [BitVec.toNat_and, show (0xFFFF : Word).toNat = 2 ^ 16 - 1 from rfl, Nat.and_two_pow_sub_one_eq_mod, ofNat64, BitVec.toNat_ofNat]
  omega

theorem registerWrite_holds {off : Nat} {v : Word} (hd : d < 128) (ho : off % 8 = 0) (hw : off < winSize) :
    exec (.registerWrite d off v) s = .next (writeReg s d off v)
      ∧ (off = 0x08 → dieReg (writeReg s d off v) d off = v) ∧ (off = 0x20 → dieReg (writeReg s d off v) d off = v &&& 0xFFFFFFFF)
      ∧ (off = 0x30 → dieReg (writeReg s d off v) d off = v &&& 0xFFFF) := by
  have hg : (decide (d < 128) && decide (off % 8 = 0) && decide (off < winSize)) = true := by
    simp [hd, ho, hw]
  refine ⟨congrArg (event "REGISTER_WRITE") (if_pos hg), ?_, ?_, ?_⟩ <;> rintro rfl
  · exact congrArg Die.dcarg (State.die_updDie_self s d fun x => { x with dcarg := v })
  · exact (congrArg (fun x : Die => ofNat64 x.drtime) (State.die_updDie_self s d fun x => { x with drtime := v.toNat % 2 ^ 32 })).trans
      (ofNat64_mod_two_pow_32 v)
  · exact (congrArg (fun x : Die => ofNat64 x.slthr) (State.die_updDie_self s d fun x => { x with slthr := v.toNat % 65536 })).trans
      (ofNat64_mod_two_pow_16 v)

/-- Settles O53, event by event. -/
theorem diesMove : Obligations.DiesMove := by
  unfold Obligations.DiesMove
  exact fun s d => ⟨fun i a => dieReset_moves, drainDeadline_fences, fun i a => dieReturn_returns, fun n a => sliceRetire_retires,
    fun ctx page all => invalidation_drops, fun off v => registerWrite_holds⟩

end Sys2Proof.Machine
end

