-- ==== Sys2Proof/Proofs/RelaunchBlocks.lean ====
section
/-! PROOFS. An imprecise event relaunches a block or kills it (O51): what its record leaves, and what the block's leaving does to its launch. -/
namespace Sys2Proof.Machine

variable {s t : State}

/-! ### What a record leaves -/

/-- What the device does to a block changes its weaves alone. -/
theorem device.rest (h : device s t) (u : Nat) : (t.block? u).map Block.rest = (s.block? u).map Block.rest := by
  induction h with
  | refl => rfl
  | still _ ha ih => rw [State.block?, ha.blocks]; exact ih
  | push pa n _ ih =>
    refine Eq.trans ?_ ih
    unfold Machine.push State.block?
    rw [mget_mmap, Option.map_map]
    rfl

/-- A block of a launch is found where it was. -/
theorem device.blockOf (h : device s t) (ctx lid i : Nat) : (blockOf t ctx lid i).map Prod.fst = (blockOf s ctx lid i).map Prod.fst := by
  induction h with
  | refl => rfl
  | still _ ha ih => unfold Machine.blockOf at ih ⊢; rw [ha.blocks]; exact ih
  | push pa n _ ih =>
    refine Eq.trans ?_ ih
    unfold Machine.blockOf Machine.push mmap
    rw [List.find?_map, Option.map_map]
    rfl

/-- Neither frames nor contexts differ. -/
def records (s t : State) : Prop := t.frames = s.frames ∧ t.ctxs = s.ctxs

theorem records.trans {r : State} (h : records s t) (g : records t r) : records s r := ⟨g.1.trans h.1, g.2.trans h.2⟩

theorem records_foldl {α : Type} {f : State → α → State} (h : ∀ s a, records s (f s a)) (l : List α) (s : State) : records s (l.foldl f s) := by
  induction l generalizing s with
  | nil => exact ⟨rfl, rfl⟩
  | cons a r ih => exact (h s a).trans (ih _)

theorem frameAt_of_no_frames (h : s.frames = []) (pa : Nat) : s.frameAt pa = none := by
  unfold State.frameAt
  rw [h]
  rfl

/-- Where no block is saved, a write of the device leaves frames and contexts. -/
theorem records_devWrite (h : s.frames = []) (pa : Nat) (data : List Byte) : records s (devWrite s pa data) := by
  have touched : records s (ownTouch s none pa) := ⟨((cacheOnly.rfl' s).ownTouch none pa).frames, ((cacheOnly.rfl' s).ownTouch none pa).ctxs⟩
  refine touched.trans (t := ownTouch s none pa) (records.trans (t := rawWrite (ownTouch s none pa) pa data) ?_ ⟨rfl, rfl⟩)
  have hf : (ownTouch s none pa).frames = [] := touched.1.trans h
  generalize ownTouch s none pa = t at hf
  unfold rawWrite
  split
  · split
    · exact records_foldl (f := fun s (e : Nat × Word) => s.post (.registerWrite ((pa - winBase) / winSize) e.1 e.2)) (fun _ _ => ⟨rfl, rfl⟩) _ _
    · exact ⟨rfl, rfl⟩
  · split
    · exact ⟨rfl, rfl⟩
    · rw [frameAt_of_no_frames hf]
      exact ⟨rfl, rfl⟩

/-- A change of a context that leaves its launches. -/
theorem launch?_updCtx {f : Ctx → Ctx} (hf : ∀ x, (f x).launches = x.launches) (s : State) (c ctx lid : Nat) :
    (s.updCtx c f).launch? ctx lid = s.launch? ctx lid := by
  unfold State.launch? State.updCtx State.ctx?
  rw [mget_mupd]
  split
  · rename_i h
    rw [h]
    cases mget s.ctxs c with
    | none => rfl
    | some x => simp [hf]
  · rfl

/-- No frame differs and no launch. -/
def launchless (s t : State) : Prop := t.frames = s.frames ∧ ∀ c lid, t.launch? c lid = s.launch? c lid

theorem records.launchless (h : records s t) : launchless s t :=
  ⟨h.1, fun c lid => by rw [State.launch?, State.ctx?, h.2]; rfl⟩

theorem launchless.trans {r : State} (h : launchless s t) (g : launchless t r) : launchless s r :=
  ⟨g.1.trans h.1, fun c lid => (g.2 c lid).trans (h.2 c lid)⟩

theorem launchless_updCtx {f : Ctx → Ctx} (hf : ∀ x, (f x).launches = x.launches) (s : State) (c : Nat) : launchless s (s.updCtx c f) :=
  ⟨rfl, launch?_updCtx hf s c⟩

/-- A record that nobody is to complete leaves every launch, and no frame where none is in use. -/
theorem writeRecord_launchless (h : s.frames = []) (ctx : Nat) (r : Rec) : launchless s (writeRecord s ctx r false).1 := by
  unfold writeRecord
  split
  · exact ⟨rfl, fun _ _ => rfl⟩
  · rename_i x _
    have ring := records_devWrite h (x.recAddr x.seq) (recordBytes x.seq r)
    have bell := fun data => (ring.trans (records_devWrite (ring.1.trans h) x.bell data)).launchless
    refine launchless.trans (launchless.trans ?_ (launchless_updCtx (f := fun y => { y with seq := nextSeq x.seq }) (fun _ => rfl) _ ctx))
      (records_foldl (f := fun s o => s.post (.recordCompletion ctx o)) (fun _ _ => ⟨rfl, rfl⟩) _ _).launchless
    exact bell _

theorem eventRecord_launchless (h : s.frames = []) (b : Block) (c : Nat) (cause : BitVec 8) (addr aux : Word) (ended again : Bool) :
    launchless s (eventRecord s b c cause addr aux ended again) :=
  have ticked : launchless s s.tick := ⟨rfl, fun _ _ => rfl⟩
  ticked.trans (writeRecord_launchless (s := s.tick) h b.ctx _)

theorem eventRecord_device (s : State) (b : Block) (c : Nat) (cause : BitVec 8) (addr aux : Word) (ended again : Bool) :
    device s (eventRecord s b c cause addr aux ended again) := writeRecord_device (tick_device .refl)

/-! ### A block leaves -/

theorem records_poolFreed (s : State) (c : Nat) : records s (poolFreed s c) := by
  unfold poolFreed
  simp only []
  split <;> exact ⟨rfl, rfl⟩

theorem ctxs_unplace (s : State) (u : Nat) : (unplace s u).ctxs = s.ctxs := by
  unfold unplace
  split
  · rfl
  · rename_i b _
    simp only []
    rw [foldl_same (p := State.ctxs) (fun t r _ => by split <;> rfl), foldl_same (p := State.ctxs) (fun t c _ => (records_poolFreed t c).2)]
    rfl

/-- A block that leaves is counted by its launch. -/
theorem dropBlock_counts {u : Nat} {b : Block} {f : Launch → Launch} (hb : s.block? u = some b) (hf : ∀ l, (f l).lid = l.lid) :
    (dropBlock s u f).block? u = none ∧ (dropBlock s u f).launch? b.ctx b.lid = (s.launch? b.ctx b.lid).map f := by
  unfold dropBlock
  rw [hb]
  refine ⟨unplace_gone s u, (launch?_updLaunch _ _ _ hf).trans ?_⟩
  have same : (leaveRoots (unplace s u) u).ctxs = s.ctxs := ctxs_unplace s u
  rw [State.launch?, State.ctx?, same]
  rfl

theorem frames_wakeEngine (h : s.frames = []) (u : Nat) : (wakeEngine s u).frames = [] := by
  unfold wakeEngine State.updAnywhere
  simp only [h]
  rfl

theorem frames_unplace (h : s.frames = []) (u : Nat) : (unplace s u).frames = [] := by
  unfold unplace
  split
  · exact h
  · refine List.foldlRecOn (motive := fun t => State.frames t = []) _ _ ?_ fun t ht r _ => ?_
    · exact List.foldlRecOn (motive := fun t => State.frames t = []) _ _ h fun t ht c _ => (records_poolFreed t c).1.trans ht
    · split
      · exact ht
      · exact frames_wakeEngine ht _

theorem lid_relaunch (l : Launch) (i n c : Nat) : (l.relaunch i n c).lid = l.lid := rfl

theorem relaunchOne_again {c u : Nat} {b : Block} (hb : s.block? u = some b) :
    (relaunchOne s c u).block? u = none
      ∧ (relaunchOne s c u).launch? b.ctx b.lid = (s.launch? b.ctx b.lid).map fun l => l.relaunch b.idx (b.relaunches + 1) c := by
  obtain ⟨gone, counted⟩ := dropBlock_counts hb (f := fun l => l.relaunch b.idx (b.relaunches + 1) c) (fun l => lid_relaunch l _ _ _)
  unfold relaunchOne
  rw [hb]
  exact ⟨gone, (launch?_updCtx (f := fun x => { x with relaunch := satTo 0xFFFFF (x.relaunch + 1) }) (fun _ => rfl) _ _ _ _).trans counted⟩

theorem killOne_counts {u : Nat} {b : Block} (hb : s.block? u = some b) :
    (killOne s u).block? u = none ∧ (killOne s u).launch? b.ctx b.lid = (s.launch? b.ctx b.lid).map fun l => { l with killed := l.killed + 1 } := by
  obtain ⟨gone, counted⟩ := dropBlock_counts hb (f := fun l => { l with killed := l.killed + 1 }) (fun _ => rfl)
  unfold killOne
  rw [hb]
  exact ⟨gone, (launch?_updCtx (f := fun x => { x with closed := satTo 0xFFFFF (x.closed + 1) }) (fun _ => rfl) _ _ _ _).trans counted⟩

theorem frames_killOne (h : s.frames = []) (u : Nat) : (killOne s u).frames = [] := by
  unfold killOne killBlock dropBlock
  cases s.block? u with
  | none => exact h
  | some b => exact frames_unplace h u

/-! ### The rule -/

theorem killSaved_of_no_frames (h : s.frames = []) (ctx lid : Nat) (is : List Nat) : killSaved s ctx lid is = s := by
  unfold killSaved
  rw [h]
  rfl

/-- The relaunch rule for a block of no gang, while no frame is in use. -/
theorem relaunchRule_alone {u : Nat} {b : Block} (hb : s.block? u = some b) (hg : gangIndices s b = [b.idx])
    (ho : blockOf s b.ctx b.lid b.idx = some (u, b)) (hf : s.frames = []) (c : Nat) (cause : BitVec 8) (addr aux : Word) :
    ∃ r, device s r ∧ (∀ ctx lid, r.launch? ctx lid = s.launch? ctx lid) ∧ relaunchRule s u c cause addr aux =
      if b.wopen && decide (b.relaunches < 3) then relaunchOne (r.updLaunch b.ctx b.lid fun l => l.bar [b.idx] c) c u else killOne r u := by
  unfold relaunchRule
  simp only [hb, hg, ho, List.all_cons, List.all_nil, Bool.and_true]
  generalize (b.wopen && decide (b.relaunches < 3)) = open_
  obtain ⟨frames, launches⟩ := eventRecord_launchless hf b c cause addr aux (!open_) open_
  have dev := eventRecord_device s b c cause addr aux (!open_) open_
  generalize eventRecord s b c cause addr aux (!open_) open_ = r at frames launches dev
  have hr : (blockOf r b.ctx b.lid b.idx).map Prod.fst = some u := by
    rw [dev.blockOf, ho]
    rfl
  refine ⟨r, dev, launches, ?_⟩
  simp only [List.filterMap_cons, hr, List.filterMap_nil]
  cases open_ with
  | true => rfl
  | false => exact killSaved_of_no_frames (frames_killOne (frames.trans hf) u) _ _ _

/-- What the relaunch rule leaves of a block of no gang and of its launch (R363, R364). -/
theorem relaunchRule_leaves {u c : Nat} {b : Block} {l : Launch} (hb : s.block? u = some b) (hl : s.launch? b.ctx b.lid = some l)
    (hg : gangIndices s b = [b.idx]) (ho : blockOf s b.ctx b.lid b.idx = some (u, b)) (hf : s.frames = []) (cause : BitVec 8) (addr aux : Word) :
    let t := relaunchRule s u c cause addr aux
    t.block? u = none
      ∧ (b.wopen = true ∧ b.relaunches < 3 → (t.launch? b.ctx b.lid).map (fun y => (y.again, y.barred, y.killed))
          = some (l.again ++ [(b.idx, b.relaunches + 1, domInst 2 c + 1)], l.barred ++ [(b.idx, c)], l.killed))
      ∧ (¬(b.wopen = true ∧ b.relaunches < 3) → (t.launch? b.ctx b.lid).map (fun y => (y.again, y.killed)) = some (l.again, l.killed + 1)) := by
  obtain ⟨r, dev, launches, hrule⟩ := relaunchRule_alone hb hg ho hf c cause addr aux
  have hrest := dev.rest u
  rw [hb] at hrest
  obtain ⟨y, hy, hyb⟩ := Option.map_eq_some_iff.mp hrest
  have hctx : y.ctx = b.ctx := congrArg Block.ctx (a₁ := y.rest) (a₂ := b.rest) hyb
  have hlid : y.lid = b.lid := congrArg Block.lid (a₁ := y.rest) (a₂ := b.rest) hyb
  have hidx : y.idx = b.idx := congrArg Block.idx (a₁ := y.rest) (a₂ := b.rest) hyb
  have hrel : y.relaunches = b.relaunches := congrArg Block.relaunches (a₁ := y.rest) (a₂ := b.rest) hyb
  have hopen : (b.wopen && decide (b.relaunches < 3)) = true ↔ b.wopen = true ∧ b.relaunches < 3 := by
    rw [Bool.and_eq_true, decide_eq_true_eq]
  intro t
  have ht : t = _ := hrule
  by_cases h : b.wopen = true ∧ b.relaunches < 3
  · have hy' : (r.updLaunch b.ctx b.lid fun l => l.bar [b.idx] c).block? u = some y := hy
    obtain ⟨gone, again⟩ := relaunchOne_again (c := c) hy'
    rw [if_pos (hopen.mpr h)] at ht
    rw [hctx, hlid, hidx, hrel, launch?_updLaunch (f := fun l => l.bar [b.idx] c) _ _ _ (fun _ => rfl), launches, hl] at again
    rw [ht]
    exact ⟨gone, fun _ => by rw [again]; rfl, fun hn => absurd h hn⟩
  · obtain ⟨gone, killed⟩ := killOne_counts hy
    rw [if_neg (mt hopen.mp h)] at ht
    rw [hctx, hlid, launches, hl] at killed
    rw [ht]
    exact ⟨gone, fun hn => absurd hn h, fun _ => by rw [killed]; rfl⟩

theorem relaunchEvent_of_rule {u c : Nat} {b : Block} {cause : BitVec 8} (hb : s.block? u = some b)
    (h : cause = 0x13 ∨ cause = 0x14 ∨ cause = 0x16 ∨ cause = 0x17) (addr aux : Word) :
    relaunchEvent s u c cause addr aux = some (relaunchRule s u c cause addr aux) := by
  unfold relaunchEvent
  rw [hb]
  rcases h with rfl | rfl | rfl | rfl <;> rfl

end Sys2Proof.Machine
namespace Sys2Proof
open Machine

/-- Settles O51: an event's record leaves the block where it was (`eventRecord_device`) and its launch (`eventRecord_launchless`), and the block then leaves
its core (`relaunchOne_again`, `killOne_counts`). -/
theorem relaunchRule : Obligations.RelaunchRule := by
  unfold Obligations.RelaunchRule
  intro s u c b l i hb hl hg ho hf
  refine ⟨fun addr aux => ?_, ?_⟩
  · have record : relaunchEvent s u c 0x15 addr aux = some (eventRecord s b c 0x15 addr aux false false) := by
      unfold relaunchEvent
      rw [hb]
      rfl
    exact congrArg (event "RELAUNCH_EVENT") record
  · rintro (⟨cause, addr, aux, rfl, hc⟩ | ⟨pa, sq, rfl⟩)
    · exact ⟨_, congrArg (event "RELAUNCH_EVENT") (relaunchEvent_of_rule hb hc addr aux), relaunchRule_leaves hb hl hg ho hf cause addr aux⟩
    · exact ⟨_, congrArg (event "REMOTE_REFUSAL") (relaunchEvent_of_rule hb (.inl rfl) _ _), relaunchRule_leaves hb hl hg ho hf _ _ _⟩

end Sys2Proof
end

