-- ==== Sys2Proof/Proofs/SequencerCommands.lean ====
section
/-! PROOFS. Engine commands at their issue, buffer maps and the command graph (O45). -/
namespace Sys2Proof.Machine

variable {s : State} {k : Iss}

/-! ### Blocks of the stream -/

theorem setBlock_eq_updBlock {u : Nat} {b : Block} (hb : s.block? u = some b) (f : Block → Block) : s.setBlock u (f b) = s.updBlock u f := by
  unfold State.setBlock State.updBlock mupd
  rw [show mget s.blocks u = some b from hb]

/-- A change of a block that leaves its weaves and its stream. -/
theorem seated_setBlock {u : Nat} {b c : Block} (hb : s.block? u = some b) (hw : c.weaves = b.weaves) (hs : c.stream = b.stream) :
    seated s (s.setBlock u c) := by
  have hc : { c with weaves := b.weaves, stream := b.stream } = c := by rw [← hw, ← hs]
  have hset := setBlock_eq_updBlock hb fun y => { c with weaves := y.weaves, stream := y.stream }
  rw [hc] at hset
  rw [hset]
  refine seated_updBlock ?_ ?_ s u <;> exact fun _ => rfl

/-- The stream goes on behind an instruction whose effect leaves agents in their places. -/
theorem completes_stream {i : Instr} {body : Iss → State → Done} {t : State} (h : readySeq i s = some k) (hd : body k s = { st := t })
    (hs : seated s t) : issue i s body = .next (k.afterSeq t) := by
  rw [completes_seated (ready_of_readySeq h) hd hs, Iss.ends, (streamReady h).weave]
  rfl

/-! ### Commands (R309, R310, R325) -/

theorem cmdOp_exec {i : Instr} {r : CmdOp} (h : i.cmdOp (s.service.mode = 1) = some r) :
    exec i s = issue i s (command i r.a r.b r.c r.bar r.limit) := by
  unfold Instr.cmdOp at h
  split at h <;> cases h <;> rfl

theorem seated_ready (s : State) (u : Nat) (c : Cmd) : seated s (s.updBlock u fun b => b.ready c) := by
  refine seated_updBlock (fun b => ?_) (fun b => ?_) s u <;> unfold Block.ready <;> simp only [] <;> split <;> rfl

section
variable {i : Instr} {r : CmdOp} {b : Block} {x : Stream}

/-- What a command does that names declared buffers and is within its limits. -/
theorem command_of_ok (hacts : k.acts = [.seq k.uid]) (hb : s.block? k.uid = some b) (hx : s.stream? k.uid = some x) (hok : r.ok i k s b)
    (hbar : (x.capture.isSome && r.bar.isSome) = false) :
    command i r.a r.b r.c r.bar r.limit k s = match x.capture with
      | some (n, cnt, nbar) =>
        { st := (s.updBlock k.uid fun b => { b with graph := mput b.graph n ⟨r.cmd i k s, cnt, 0, nbar, .defined⟩ }).updStream k.uid fun x =>
            { x with capture := none } }
      | none =>
        if 8 ≤ b.queued i.engine then { st := s, how := .wait .engine }
        else { st := s.updBlock k.uid fun b => b.ready (r.cmd i k s) } := by
  obtain ⟨hnames, hlimit⟩ := hok
  have hdeclared : (i.bufNames.any fun n => decide (b.slotsOf n = 0)) = false :=
    List.any_eq_false.mpr fun n hn => by simpa using hnames n hn
  unfold command
  simp only [hacts, hb, hx, hdeclared, hbar, hlimit, Bool.false_eq_true, if_false]
  rfl

theorem command_queues (hr : i.cmdOp (s.service.mode = 1) = some r) (hk : readySeq i s = some k) (hb : s.block? k.uid = some b)
    (hx : s.stream? k.uid = some x) (hok : r.ok i k s b) (hc : x.capture = none) (hroom : b.queued i.engine < 8) :
    exec i s = .next (k.afterSeq (s.updBlock k.uid fun b => b.ready (r.cmd i k s))) := by
  have effect := command_of_ok (streamReady hk).acts hb hx hok (by rw [hc]; rfl)
  simp only [hc, Nat.not_le.mpr hroom, if_false] at effect
  rw [cmdOp_exec hr]
  exact completes_stream hk effect (seated_ready s k.uid _)

theorem command_captured (hr : i.cmdOp (s.service.mode = 1) = some r) (hk : readySeq i s = some k) (hb : s.block? k.uid = some b)
    (hx : s.stream? k.uid = some x) (hok : r.ok i k s b) {n cnt : Nat} {bar : Option (BitVec 4)} (hc : x.capture = some (n, cnt, bar))
    (hbar : r.bar = none) :
    exec i s = .next (k.afterSeq ((s.updBlock k.uid fun b => { b with graph := mput b.graph n ⟨r.cmd i k s, cnt, 0, bar, .defined⟩ }).updStream k.uid
      fun x => { x with capture := none })) := by
  have effect := command_of_ok (streamReady hk).acts hb hx hok (by rw [hbar, Option.isSome_none, Bool.and_false])
  simp only [hc] at effect
  rw [cmdOp_exec hr]
  refine completes_stream hk effect (seated.trans (seated_updBlock ?_ ?_ s k.uid) (seated_updStream ?_ _ k.uid)) <;> exact fun _ => rfl

end

/-! ### Buffer maps (R315) -/

/-- A buffer is declared, and no running command uses its name. -/
def idleName (s : State) (u : Nat) (b : Block) (n : Nat) : Prop := b.slotsOf n ≠ 0 ∧ writing s u n = false ∧ b.reading n = false

section
variable {b : Block}

theorem remap_of_idle {names : List Nat} {f : Block → Option Block} {c : Block} (hb : s.block? k.uid = some b)
    (hn : ∀ n ∈ names, idleName s k.uid b n) (hf : f b = some c) : remap k s names f = { st := s.setBlock k.uid c } := by
  have idle : (names.any fun n => writing s k.uid n || b.reading n) = false := List.any_eq_false.mpr fun n h => by
    obtain ⟨-, hw, hr⟩ := hn n h
    simp [hw, hr]
  unfold remap
  simp only [hb, idle, hf, Bool.false_eq_true, if_false]

theorem lbmapSwap_swaps {g : Guard} {d a : BitVec 4} (hk : readySeq (.lbmapSwap g d a) s = some k) (hb : s.block? k.uid = some b)
    (hd : idleName s k.uid b d.toNat) (ha : idleName s k.uid b a.toNat) (hsize : b.slotsOf d.toNat = b.slotsOf a.toNat) :
    exec (.lbmapSwap g d a) s = .next (k.afterSeq (s.setBlock k.uid
      { b with starts := mput (mput b.starts d.toNat (b.startOf a.toNat)) a.toNat (b.startOf d.toNat) })) := by
  refine completes_stream hk (remap_of_idle hb (fun n hn => ?_) (if_pos hsize)) (seated_setBlock hb rfl rfl)
  rcases List.mem_cons.mp hn with rfl | hn
  · exact hd
  · exact List.mem_singleton.mp hn ▸ ha

theorem lbmapSet_moves {g : Guard} {d : BitVec 4} {r : BitVec 7} (hk : readySeq (.lbmapSet g d r) s = some k) (hb : s.block? k.uid = some b)
    (hd : idleName s k.uid b d.toNat)
    (hplain : ∀ n, n < b.slotsOf d.toNat → b.plain ((s.readS k.uid r.toNat).toNat + n) = true) :
    exec (.lbmapSet g d r) s = .next (k.afterSeq (s.setBlock k.uid { b with starts := mput b.starts d.toNat (s.readS k.uid r.toNat).toNat })) := by
  have onto : (slotRun (s.readS k.uid r.toNat).toNat (b.slotsOf d.toNat)).all b.plain = true := by
    rw [List.all_eq_true]
    rintro _ h
    obtain ⟨n, hn, rfl⟩ := List.mem_map.mp h
    exact hplain n (List.mem_range.mp hn)
  exact completes_stream hk (remap_of_idle hb (fun n hn => List.mem_singleton.mp hn ▸ hd) (if_pos onto)) (seated_setBlock hb rfl rfl)

/-! ### The graph (R325 to R327) -/

theorem gNode_captures {g : Guard} {n cnt : BitVec 6} {bar : Option (BitVec 4)} (hk : readySeq (.gNode g n cnt bar) s = some k)
    (hb : s.block? k.uid = some b) (hrun : b.grun = none) :
    exec (.gNode g n cnt bar) s = .next (k.afterSeq (s.updStream k.uid fun x => { x with capture := some (n.toNat, cnt.toNat, bar) })) := by
  have seat : seated s (s.updStream k.uid fun x => { x with capture := some (n.toNat, cnt.toNat, bar) }) := by
    refine seated_updStream ?_ s k.uid
    exact fun _ => rfl
  refine completes_stream hk ?_ seat
  simp only [hb, hrun, Option.isSome_none, Bool.false_eq_true, if_false]

theorem gEdge_appends {g : Guard} {x y : BitVec 6} (hk : readySeq (.gEdge g x y) s = some k) (hb : s.block? k.uid = some b) (hrun : b.grun = none)
    (hroom : ((mget b.edges x.toNat).getD []).length < 16) :
    exec (.gEdge g x y) s = .next (k.afterSeq (s.updBlock k.uid fun b =>
      { b with edges := mput b.edges x.toNat ((mget b.edges x.toNat).getD [] ++ [y.toNat]) })) := by
  have appends : (s.updBlock k.uid fun c => { c with edges := mput c.edges x.toNat ((mget b.edges x.toNat).getD [] ++ [y.toNat]) })
      = s.updBlock k.uid fun b => { b with edges := mput b.edges x.toNat ((mget b.edges x.toNat).getD [] ++ [y.toNat]) } := by
    rw [← setBlock_eq_updBlock hb, ← setBlock_eq_updBlock hb]
  rw [← appends]
  have seat : seated s (s.updBlock k.uid fun c => { c with edges := mput c.edges x.toNat ((mget b.edges x.toNat).getD [] ++ [y.toNat]) }) := by
    refine seated_updBlock ?_ ?_ s k.uid <;> exact fun _ => rfl
  refine completes_stream hk ?_ seat
  simp only [hb, hrun, decide_eq_false (Nat.not_le.mpr hroom), Option.isSome_none, Bool.or_self, Bool.false_eq_true, if_false]

/-- The arrival of a run that is over leaves agents in their places. -/
theorem seated_endRun (s : State) (u : Nat) : seated s (endRun s u) := by
  unfold endRun arriveOpt
  split
  · split
    · split
      · refine (seated_updBlock (f := fun b => { b with grun := none }) (fun _ => rfl) (fun _ => rfl) s u).trans ?_
        split
        · exact (arriveBar_leaves _ u _ _).1
        · exact .refl _
      · exact .refl s
    · exact .refl s
  · exact .refl s

theorem launchNode_keeps (b : Block) (n : Nat) : (b.launchNode n).weaves = b.weaves ∧ (b.launchNode n).stream = b.stream := by
  unfold Block.launchNode Block.ready
  split
  · split
    · exact ⟨rfl, rfl⟩
    · simp only []
      split <;> exact ⟨rfl, rfl⟩
  · exact ⟨rfl, rfl⟩

theorem launchNodes_keep (l : List Nat) (b : Block) : (l.foldl Block.launchNode b).weaves = b.weaves ∧ (l.foldl Block.launchNode b).stream = b.stream :=
  List.foldlRecOn (motive := fun c => c.weaves = b.weaves ∧ c.stream = b.stream) l _ ⟨rfl, rfl⟩ fun c hc n _ =>
    ⟨(launchNode_keeps c n).1.trans hc.1, (launchNode_keeps c n).2.trans hc.2⟩

theorem gRun_launches {g : Guard} {bar : Option (BitVec 4)} (hk : readySeq (.gRun g bar) s = some k) (hb : s.block? k.uid = some b)
    (hrun : b.grun = none) (hedge : b.badEdge = false) (herr : ∀ n ∈ b.graph, n.2.st ≠ .error) :
    let b1 := { b with grun := some bar, gDone := 0, graph := mmap b.graph fun _ x => { x with cnt := x.init, st := .waiting } }
    exec (.gRun g bar) s = .next (k.afterSeq (endRun (s.setBlock k.uid
      (((b1.graph.filter fun n => n.2.cnt = 0).map Prod.fst).foldl Block.launchNode b1)) k.uid)) := by
  intro b1
  have sound : (b.graph.any fun n => n.2.st == .error) = false := List.any_eq_false.mpr fun n hn => by simpa using herr n hn
  obtain ⟨hw, hs⟩ := launchNodes_keep ((b1.graph.filter fun n => n.2.cnt = 0).map Prod.fst) b1
  refine completes_stream hk ?_ ((seated_setBlock hb hw hs).trans (seated_endRun _ k.uid))
  simp only [hb, hrun, hedge, sound, Option.isSome_none, Bool.or_self, Bool.false_eq_true, if_false]
  rfl

theorem gReset_clears {g : Guard} (hk : readySeq (.gReset g) s = some k) (hb : s.block? k.uid = some b) (hidle : ∀ n ∈ b.graph, n.2.st ≠ .running) :
    exec (.gReset g) s = .next (k.afterSeq (s.updBlock k.uid fun b => { b with graph := [], edges := [], grun := none })) := by
  have idle : (b.graph.any fun n => n.2.st == .running) = false := List.any_eq_false.mpr fun n hn => by simpa using hidle n hn
  have seat : seated s (s.updBlock k.uid fun b => { b with graph := [], edges := [], grun := none }) := by
    refine seated_updBlock ?_ ?_ s k.uid <;> exact fun _ => rfl
  refine completes_stream hk ?_ seat
  simp only [hb, idle, Bool.false_eq_true, if_false]

end

/-- Settles O45: each effect leaves agents in their places, so its stream goes on behind it (`completes_stream`). -/
theorem sequencerCompletes : Obligations.SequencerCompletes := by
  unfold Obligations.SequencerCompletes
  refine ⟨fun i r s k b x hr hk hb hx hok => ⟨fun hc hroom => command_queues hr hk hb hx hok hc hroom,
    fun n cnt bar hc hbar => command_captured hr hk hb hx hok hc hbar⟩, fun s k b hb => ⟨?_, ?_, ?_, ?_, ?_, ?_⟩⟩
  · exact fun g d a hk hd ha hsize => lbmapSwap_swaps hk hb hd ha hsize
  · exact fun g d r hk hd hplain => lbmapSet_moves hk hb hd hplain
  · exact fun g n cnt bar hk hrun => gNode_captures hk hb hrun
  · exact fun g x y hk hrun hroom => gEdge_appends hk hb hrun hroom
  · exact fun g bar hk hrun hedge herr => gRun_launches hk hb hrun hedge herr
  · exact fun g hk hidle => gReset_clears hk hb hidle

end Sys2Proof.Machine
end

