-- ==== Sys2Proof/Proofs/TrapReturnCalls.lean ====
section
/-! PROOFS. A return from traps that interrupted calls of different operations at one step (O24). -/
namespace Sys2Proof.Machine
open Sys2Proof.Tests

/-- A fibre in its trap routine that a trap interrupted at the first step of a call with one operation. -/
def inCall (op : Word) (f : Fibre) : Fibre :=
  { f with tr := { f.tr with inTrap := true, xpc := 0x1004, stepv := true }, smac := some ⟨[op], 0, [0, 1]⟩ }

/-- Two fibres of one batch return to one address, into calls whose operations differ. -/
def twoCalls : State := fib (inCall 8) ((pair).updFibre 1 0 1 (inCall 16))

def returnIss : Iss := { k2 with inside := [0, 1] }

theorem twoCalls_ready : readyFib (.tret g0) twoCalls = some returnIss := by decide +kernel

/-- The operations of the calls that batches of the weave execute which hold the second fibre. -/
def secondCalls (t : State) : Option (List (Option (List Word))) :=
  (t.weave? 1 0).map fun y => (y.batches.filter fun b => b.members.contains 1).map fun b => b.mac.map MacRun.ops

theorem twoCalls_return : (stateAfter (exec (.tret g0) twoCalls)).map secondCalls = some (some [some [8]]) := by decide +kernel

theorem twoCalls_returnable : ∀ a ∈ returnIss.acts, ∃ f, twoCalls.fib? a = some f ∧ f.tr.inTrap = true ∧ f.pend = [] ∧ f.tr.xpc.toNat % 4 = 0 := by
  intro a ha
  rcases List.mem_cons.mp ha with rfl | ha
  · exact ⟨_, rfl, rfl, rfl, by decide⟩
  · obtain rfl := List.mem_singleton.mp ha
    exact ⟨_, rfl, rfl, rfl, by decide⟩

/-- Refutes O24: two fibres that return to one address, step and marks form one batch, whose call has the operations of the lower fibre's (log 80); the
statement has the batch of each fibre in a call with the operations of its own. -/
theorem not_trapReturns : ¬ Obligations.TrapReturns := by
  unfold Obligations.TrapReturns
  intro h
  obtain ⟨fibres, -⟩ := h g0 twoCalls returnIss
  obtain ⟨t, y, ht, hy, returned, -⟩ := fibres twoCalls_ready (by decide) twoCalls_returnable
  obtain ⟨-, b, hb, hslot, -, -, -, -, hcall, -⟩ := returned (.fib 1 0 1) (List.mem_cons_of_mem _ (List.mem_singleton_self _)) _ rfl
  have hops : b.mac.map MacRun.ops = some [16] := by
    have own := congrArg (Option.map Prod.fst) hcall
    rw [Option.map_map] at own
    exact own
  have hreturn := twoCalls_return
  rw [ht, stateAfter, Option.map_some, secondCalls, show t.weave? 1 0 = some y from hy, Option.map_some] at hreturn
  have hlists := Option.some.inj (Option.some.inj hreturn)
  have hmem : b.mac.map MacRun.ops ∈ (y.batches.filter fun b => b.members.contains 1).map fun b => b.mac.map MacRun.ops :=
    List.mem_map.mpr ⟨b, List.mem_filter.mpr ⟨hb, List.contains_iff_mem.mpr hslot⟩, rfl⟩
  rw [hlists, hops] at hmem
  exact absurd hmem (by decide)

end Sys2Proof.Machine
end

