-- ==== Sys2Proof/Proofs/TreeMigrate.lean ====
section
/-! PROOFS. Arrivals and waits at a chive tree, and `migrate` (O44). -/
namespace Sys2Proof.Machine

variable {s t : State} {k : Iss}

/-! ### `tarr` (R396) -/

theorem treeTraps_of_inTree {b : Block} {tree : Bool} (hb : s.block? k.uid = some b) (ht : inTree s b tree = true) : treeTraps k s tree = [] := by
  unfold treeTraps
  simp only [hb, ht, if_true]

theorem markArrived_seated (s : State) (u : Nat) (tree : Bool) : seated s (markArrived s u tree) := by
  refine seated_updBlock ?_ ?_ s u <;> intro b <;> split <;> rfl

theorem arrived_markArrived {u : Nat} (tree : Bool) (h : (s.block? u).isSome = true) :
    ((markArrived s u tree).block? u).map (fun b => b.arrived tree) = some true := by
  obtain ⟨b, hb⟩ := Option.isSome_iff_exists.mp h
  rw [markArrived, State.block?_updBlock_self, hb]
  cases tree <;> rfl

theorem block?_commitBuf_isSome (q : Buf) (u : Nat) : ((commitBuf s q).block? u).isSome = (s.block? u).isSome := by
  simpa using congrArg Option.isSome ((commitBuf_lives (q := q) (lives.refl s)).blocks u)

theorem tarr_completes {f : AForm} {rd tree : Bool} {b : Block} (h : readyFib (.tarr f rd tree) s = some k) (hb : s.block? k.uid = some b)
    (ht : inTree s b tree = true) :
    let d := markArrived (commitBuf s (.block k.uid)) k.uid tree
    exec (.tarr f rd tree) s = .next (k.after false
      (if rd then k.acts.foldl (fun r a => r.writeD a f.d (ofNat64 (roundsHere d k.uid tree))) d else d)) := by
  obtain ⟨-, -, -, -, hacts⟩ := readyFib_cursor h
  have hseat := (commitBuf_seated (q := .block k.uid) (.refl s)).trans (markArrived_seated _ k.uid tree)
  dsimp only
  refine completes_wait h ?_ ?_
  · simp only [treeTraps_of_inTree hb ht, List.isEmpty_eq_false_iff.mpr hacts, Bool.false_eq_true, if_false]
  · split
    · exact foldl_seated (fun _ _ => writeD_seated) hseat
    · exact hseat

/-! ### `twait` (R398, R399) -/

theorem keeps.roundsHere {u : Nat} (h : keeps u s t) (tree : Bool) {b : Block} (hb : s.block? u = some b) :
    roundsHere t u tree = roundsAt s b.ctx (coreDie b.core) tree := by
  have hpart := h.blockPart (p := fun c => (c.ctx, c.core)) fun _ => rfl
  rw [hb] at hpart
  obtain ⟨c, hc, hcb⟩ := Option.map_eq_some_iff.mp hpart
  obtain ⟨hctx, hcore⟩ := Prod.mk.inj hcb
  unfold Machine.roundsHere
  rw [hc]
  dsimp only
  rw [hctx, hcore, h.panel]
  rfl

theorem twait_satisfied {f : AForm} {tree : Bool} {b : Block} (h : readyFib (.twait f tree) s = some k) (hb : s.block? k.uid = some b)
    (ht : inTree s b tree = true) (hheld : holdRegion s k.uid = none) (hwoke : k.woke = none) :
    let t := s.consume k.pc k.acts [f.a]
    (∀ a ∈ k.acts, tokenDone (BitVec.ofNat 32 (roundsAt s b.ctx (coreDie b.core) tree)) ((s.src a f.a).toNat % 2 ^ 32) = true) →
      refreshAllWell k t → exec (.twait f tree) s = .next (k.after true (refreshed k t)) := by
  intro t hdone hw
  have hkeeps : keeps k.uid s t := keeps_consume s k.pc (uid_of_readyFib h) [f.a]
  have hexec : exec (.twait f tree) s = execTwait f tree s := rfl
  have hpass : roundsPass (roundsHere t k.uid tree) (k.acts.map fun a => (a.slot, (s.src a f.a).toNat % 2 ^ 32)) = true := by
    unfold roundsPass
    rw [hkeeps.roundsHere tree hb, List.all_map, List.all_eq_true]
    exact hdone
  rw [hexec, execTwait]
  refine barComplete_completes h ?_ (consume_seated (.refl s)) (hkeeps.heldAlike.holdRegion.trans hheld) hw
  simp only [hwoke, treeTraps_of_inTree hb ht]
  exact if_pos hpass

theorem twait_woken {f : AForm} {tree : Bool} (h : readyFib (.twait f tree) s = some k) (hheld : holdRegion s k.uid = none)
    (hwoke : k.woke.isSome = true) (hw : refreshAllWell k s) : exec (.twait f tree) s = .next (k.after true (refreshed k s)) := by
  obtain ⟨q, hq⟩ := Option.isSome_iff_exists.mp hwoke
  have hexec : exec (.twait f tree) s = execTwait f tree s := rfl
  rw [hexec, execTwait]
  exact barComplete_completes h (by simp only [hq]) (.refl s) hheld hw

/-! ### `migrate` (R394, R395) -/

theorem outcomes_seated (p : Nat) (v : Bool) (h : seated s t) : seated s (outcomes k t p v) := foldl_seated (fun _ _ => writeP_seated) h

theorem releaseAll_seated {a : Actor} {srcs : List Src} (h : seated s t) : seated s (t.releaseAll a srcs) :=
  foldl_seated (fun _ _ => release_seated) h

/-- The batch of a block that has moved goes on. -/
theorem migrate_woken {f : AForm} {c : Nat} {b : Block} (h : readyFib (.migrate f) s = some k) (hwoke : k.woke = some (.migrate c))
    (hb : s.block? k.uid = some b) :
    exec (.migrate f) s = .next (k.after false (if b.core = c then k.acts.foldl (fun t a => (refresh t a true).1) (outcomes k s f.d.num.toNat true)
      else outcomes k s f.d.num.toNat false)) := by
  refine completes_wait h ?_ ?_
  · simp only [hwoke, moved, hb, Option.any_some, decide_eq_true_eq]
    split <;> rfl
  · split
    · exact foldl_seated (fun _ _ => refresh_seated) (outcomes_seated _ true (.refl s))
    · exact outcomes_seated _ false (.refl s)

/-- The check of one participant's address. -/
def moveAddr (k : Iss) (f : AForm) (x : State × List Trp × List (Word × Nat)) (a : Actor) : State × List Trp × List (Word × Nat) :=
  let va := x.1.src a f.a
  match translate x.1 k.uid (x.1.coreOf a) (x.1.ctxOf k.uid) va .load with
  | (s, .trap c) => (s, x.2.1 ++ [k.trapHere a c va 0], x.2.2)
  | (s, .ok pa) => (s, x.2.1, x.2.2 ++ [(va, pa)])

theorem moveAddrs_eq_foldl (k : Iss) (s : State) (f : AForm) : moveAddrs k s f = k.acts.foldl (moveAddr k f) (s, [], []) := rfl

/-- A check leaves agents in their places and gives its participant a trap or an address. -/
theorem moveAddr_checks {f : AForm} (a : Actor) {x : State × List Trp × List (Word × Nat)} (h : seated s x.1) :
    seated s (moveAddr k f x a).1 ∧ (moveAddr k f x a).2.1.length + (moveAddr k f x a).2.2.length = x.2.1.length + x.2.2.length + 1 := by
  have htr := h.trans (translate_device (uid := k.uid) (c := x.1.coreOf a) (ctx := x.1.ctxOf k.uid) (addr := x.1.src a f.a) (k := .load)
    (device.refl (s := x.1))).seated
  unfold moveAddr
  dsimp only
  split <;> rename_i hw <;> rw [hw] at htr <;> refine ⟨htr, ?_⟩ <;> simp only [List.length_append, List.length_cons, List.length_nil] <;> omega

theorem moveAddrs_checks {f : AForm} (h : seated s t) :
    seated s (moveAddrs k t f).1 ∧ (moveAddrs k t f).2.1.length + (moveAddrs k t f).2.2.length = k.acts.length := by
  suffices hgen : ∀ (l : List Actor) (x : State × List Trp × List (Word × Nat)), seated s x.1 → seated s (l.foldl (moveAddr k f) x).1
      ∧ (l.foldl (moveAddr k f) x).2.1.length + (l.foldl (moveAddr k f) x).2.2.length = x.2.1.length + x.2.2.length + l.length by
    obtain ⟨hseat, hlen⟩ := hgen k.acts (t, [], []) h
    exact ⟨hseat, hlen.trans (Nat.zero_add _)⟩
  intro l
  induction l with
  | nil => exact fun x hx => ⟨hx, rfl⟩
  | cons a r ih =>
    intro x hx
    obtain ⟨hone, hsum⟩ := moveAddr_checks a hx
    obtain ⟨hseat, hlen⟩ := ih _ hone
    exact ⟨hseat, by rw [List.foldl_cons, hlen, hsum, List.length_cons]; omega⟩

/-- A `migrate` that does not wait ends behind its decision. -/
theorem migrate_decided {f : AForm} {m : State × List Trp × List (Word × Nat)} (h : readyFib (.migrate f) s = some k)
    (hwoke : ∀ c, k.woke ≠ some (.migrate c)) (hm : moveAddrs k (s.noteAll k.pc k.acts [f.a]) f = m) (htraps : m.2.1 = [])
    (hd : migrateBody k m.1 f m.2.2 = { st := t }) (hs : seated s t) :
    exec (.migrate f) s = .next (k.after false (k.acts.foldl (fun t a => t.releaseAll a [f.a]) t)) := by
  have hexec : exec (.migrate f) s = execMigrate f s := rfl
  rw [hexec, execMigrate]
  refine completes_wait h ?_ (foldl_seated (fun _ _ => releaseAll_seated) hs)
  split
  · rename_i c hc
    exact absurd hc (hwoke c)
  · simp only [hm, htraps, List.isEmpty_nil, if_true, hd]

theorem migrateBody_of_stuck {f : AForm} {b : Block} {addrs : List (Word × Nat)} (hb : s.block? k.uid = some b) (ha : addrs ≠ [])
    (hmove : mayMove k s b = false) : migrateBody k s f addrs = { st := outcomes k s f.d.num.toNat false } := by
  obtain ⟨⟨va, pa⟩, r, rfl⟩ := List.exists_cons_of_ne_nil ha
  unfold migrateBody
  simp only [hb, hmove, Bool.not_false, Bool.true_or, if_true]
  rfl

theorem migrateBody_of_home {f : AForm} {b : Block} {va : Word} {pa : Nat} {r : List (Word × Nat)} (hb : s.block? k.uid = some b)
    (hmove : mayMove k s b = true) (hsame : ∀ e ∈ r, e.1 = va) (hhome : homeFor s pa (b.hdr.fibres * b.hdr.regs) = some (coreDie b.core))
    (hw : refreshAllWell k (outcomes k s f.d.num.toNat true)) :
    migrateBody k s f ((va, pa) :: r) = { st := refreshed k (outcomes k s f.d.num.toNat true) } := by
  have hr : (r.any fun e => e.1 != va) = false := List.any_eq_false.mpr fun e he => by simp [hsame e he]
  have hall : refreshAll k (outcome k s f true) false = (refreshed k (outcomes k s f.d.num.toNat true), []) := refreshAll_of_well false hw
  unfold migrateBody
  simp only [hb, hmove, hr, hhome, hall, Bool.not_true, Bool.or_self, Bool.false_eq_true, if_false, if_true]

theorem migrate_stays {f : AForm} {b : Block} (h : readyFib (.migrate f) s = some k) (hwoke : ∀ c, k.woke ≠ some (.migrate c)) :
    let m := moveAddrs k (s.noteAll k.pc k.acts [f.a]) f
    let last (t : State) : State := k.acts.foldl (fun t a => t.releaseAll a [f.a]) t
    m.2.1 = [] → m.1.block? k.uid = some b →
      (mayMove k m.1 b = false → exec (.migrate f) s = .next (k.after false (last (outcomes k m.1 f.d.num.toNat false))))
      ∧ ∀ va pa r, m.2.2 = (va, pa) :: r → mayMove k m.1 b = true → (∀ e ∈ r, e.1 = va) →
          homeFor m.1 pa (b.hdr.fibres * b.hdr.regs) = some (coreDie b.core) → refreshAllWell k (outcomes k m.1 f.d.num.toNat true) →
          exec (.migrate f) s = .next (k.after false (last (refreshed k (outcomes k m.1 f.d.num.toNat true)))) := by
  intro m last htraps hb
  obtain ⟨-, -, -, -, hacts⟩ := readyFib_cursor h
  obtain ⟨hseat, hlen⟩ := moveAddrs_checks (k := k) (f := f) (noteAll_seated (.refl s))
  have haddrs : m.2.2 ≠ [] := fun he => by
    have hlen : m.2.1.length + m.2.2.length = k.acts.length := hlen
    rw [htraps, he] at hlen
    exact hacts (List.length_eq_zero_iff.mp hlen.symm)
  refine ⟨fun hmove => ?_, fun va pa r hm hmove hsame hhome hw => ?_⟩
  · exact migrate_decided h hwoke rfl htraps (migrateBody_of_stuck hb haddrs hmove) (outcomes_seated _ false hseat)
  · refine migrate_decided h hwoke rfl htraps ?_ (refreshed_seated (outcomes_seated _ true hseat))
    exact (congrArg (migrateBody k m.1 f) hm).trans (migrateBody_of_home hb hmove hsame hhome hw)

/-- Settles O44: a commit and an arrival leave agents in their places, a wait that is satisfied ends as a barrier does (`barComplete_completes`), and a
`migrate` that does not wait ends behind its decision (`migrate_decided`). -/
theorem treeMigrateComplete : Obligations.TreeMigrateComplete := by
  unfold Obligations.TreeMigrateComplete
  refine ⟨fun f tree s k b hb ht => ⟨fun rd h => ⟨tarr_completes h hb ht, arrived_markArrived tree ?_⟩, fun h hheld hwoke => twait_satisfied h hb ht hheld hwoke,
    fun h hheld hwoke hw => twait_woken h hheld hwoke hw⟩, fun f s k b h => ⟨fun c hwoke hb => migrate_woken h hwoke hb, fun hwoke => migrate_stays h hwoke⟩⟩
  rw [block?_commitBuf_isSome, hb]
  rfl

end Sys2Proof.Machine
end

