-- ==== Sys2Proof/Proofs/CommitsLeave.lean ====
section
/-! PROOFS. What pushes and commits leave of weaves, blocks and buffers. -/
namespace Sys2Proof.Machine

variable {s t : State}

/-! ### What a push leaves of a weave -/

/-- A weave without what pushes change: its bindings, and its batches that wait at a `bwait`. -/
def Weave.still (x : Weave) : Weave := { x with fibres := [], batches := [], cur := none }

theorem Weave.still_wake (x : Weave) (i : Nat) : (x.wake i).still = x.still := by
  unfold Weave.wake
  split
  · split <;> rfl
  · rfl

theorem Weave.still_latch (x : Weave) (slot n : Nat) (v : Word) : (x.latch slot n v).still = x.still := by
  refine foldl_same (p := Weave.still) (fun y i _ => ?_) x
  split
  · split
    · split
      · split
        · dsimp only
          split
          · exact Weave.still_wake ..
          · rfl
        · rfl
      · rfl
    · rfl
  · rfl

theorem Weave.still_pushed (s : State) (buf : List SEntry) (wx pa n : Nat) (x : Weave) : (x.pushed s buf wx pa n).still = x.still := by
  unfold Weave.pushed
  dsimp only
  split
  · rfl
  · exact (foldl_same (p := Weave.still) (fun y h _ => y.still_latch ..) _).trans rfl

theorem weave?_push (pa n u w : Nat) : (push s pa n).weave? u w
    = (s.block? u).bind fun b => (mget b.weaves w).map fun x => x.pushed s b.sbuf w pa n := by
  unfold push State.weave? State.block?
  simp only [mget_mmap]
  cases mget s.blocks u with
  | none => rfl
  | some b => simp only [Option.map_some, Option.bind_some, mget_mmap]

theorem device.weaveStill (h : device s t) (u w : Nat) : (t.weave? u w).map Weave.still = (s.weave? u w).map Weave.still := by
  induction h with
  | refl => rfl
  | still _ ha ih => rw [State.weave?, State.block?, ha.blocks]; exact ih
  | @push r pa n _ ih =>
    refine Eq.trans ?_ ih
    rw [weave?_push, State.weave?]
    cases r.block? u with
    | none => rfl
    | some b => simp only [Option.bind_some, Option.map_map, Function.comp_def, Weave.still_pushed]

theorem device.blockPart {α : Type} {p : Block → α} (h : device s t) (hp : ∀ b : Block, p b.rest = p b) (u : Nat) :
    (t.block? u).map p = (s.block? u).map p := by
  simpa only [Option.map_map, Function.comp_def, hp] using congrArg (Option.map p) (h.rest u)

theorem device.weavePart {α : Type} {p : Weave → α} (h : device s t) (hp : ∀ x : Weave, p x.still = p x) (u w : Nat) :
    (t.weave? u w).map p = (s.weave? u w).map p := by
  simpa only [Option.map_map, Function.comp_def, hp] using congrArg (Option.map p) (h.weaveStill u w)

theorem device.buf (h : device s t) (q : Buf) : t.buf q = s.buf q := by
  cases q with
  | block u => exact congrArg (Option.getD · []) (h.blockPart (fun _ => rfl) u)
  | weave u w => exact congrArg (Option.getD · []) (h.weavePart (fun _ => rfl) u w)

/-! ### What a commit leaves -/

theorem buf_updBlock {q : Buf} {u : Nat} {f : Block → Block} (hw : ∀ b, (f b).weaves = b.weaves) (hs : ∀ b, (f b).sbuf = b.sbuf) :
    (s.updBlock u f).buf q = s.buf q := by
  cases q with
  | block v =>
    unfold State.buf
    by_cases hv : v = u
    · subst hv
      simp [Function.comp_def, hs]
    · simp [hv]
  | weave v w => simp only [State.buf, weave?_updBlock hw]

/-- A commit leaves its buffer empty. -/
theorem buf_commitBuf (q : Buf) : (commitBuf s q).buf q = [] := by
  have hset : (s.setBuf q []).buf q = [] := by
    cases q with
    | block u => cases hb : s.block? u <;> simp [State.buf, State.setBuf, hb]
    | weave u w => cases hx : s.weave? u w <;> simp [State.buf, State.setBuf, hx]
  unfold commitBuf
  rw [buf_updBlock (by exact fun _ => rfl) (by exact fun _ => rfl), device.buf (drain_device .refl), hset]

/-- What a commit leaves of a block: all but its weaves, the buffer and the relaunch window. -/
theorem commitBuf_blockPart {α : Type} {p : Block → α} (hrest : ∀ b : Block, p b.rest = p b) (hbuf : ∀ (b : Block) l, p { b with sbuf := l } = p b)
    (hwin : ∀ b : Block, p { b with wopen := false } = p b) (q : Buf) (u : Nat) : ((commitBuf s q).block? u).map p = (s.block? u).map p := by
  have upd (r : State) (v : Nat) (f : Block → Block) (hf : ∀ b, p (f b) = p b) : ((r.updBlock v f).block? u).map p = (r.block? u).map p := by
    by_cases hv : u = v
    · subst hv
      simp [Function.comp_def, hf]
    · simp [hv]
  have hweaves (b : Block) (l : Map Weave) : p { b with weaves := l } = p b := (hrest _).symm.trans (hrest b)
  have hset : ((s.setBuf q []).block? u).map p = (s.block? u).map p := by
    cases q with
    | block v => exact upd _ _ _ fun b => hbuf b []
    | weave v w => exact upd _ _ _ fun b => hweaves b _
  exact (upd _ _ _ hwin).trans ((device.blockPart (drain_device .refl) hrest u).trans hset)

/-- A commit of a weave's buffer leaves the blocks' alone. -/
theorem buf_commitBuf_weave (u w v : Nat) : (commitBuf s (.weave u w)).buf (.block v) = s.buf (.block v) := by
  unfold commitBuf
  rw [buf_updBlock (by exact fun _ => rfl) (by exact fun _ => rfl), device.buf (drain_device .refl)]
  unfold State.buf State.setBuf State.updWeave
  by_cases hv : v = u
  · subst hv
    cases hb : s.block? v <;> simp [hb, Block.updWeave]
  · simp [hv]

/-- Every buffer of a block commits: the block's own is empty. -/
theorem buf_commitAll {u : Nat} (h : (s.block? u).isSome = true) : (commitAll s u).buf (.block u) = [] := by
  obtain ⟨b, hb⟩ := Option.isSome_iff_exists.mp h
  unfold commitAll
  rw [hb]
  refine List.foldlRecOn (motive := fun r : State => r.buf (.block u) = []) _ _ (buf_commitBuf _) fun r hr w _ => ?_
  split
  · exact hr
  · exact (buf_commitBuf_weave ..).trans hr

theorem commitAll_blockPart {α : Type} {p : Block → α} (hrest : ∀ b : Block, p b.rest = p b) (hbuf : ∀ (b : Block) l, p { b with sbuf := l } = p b)
    (hwin : ∀ b : Block, p { b with wopen := false } = p b) (u v : Nat) : ((commitAll s u).block? v).map p = (s.block? v).map p := by
  unfold commitAll
  split
  · rfl
  · refine List.foldlRecOn (motive := fun r : State => (r.block? v).map p = (s.block? v).map p) _ _ (commitBuf_blockPart hrest hbuf hwin _ v) fun r hr w _ => ?_
    split
    · exact hr
    · exact (commitBuf_blockPart hrest hbuf hwin _ v).trans hr

end Sys2Proof.Machine
end

