-- ==== Sys2Proof/Proofs/FencesFar.lean ====
section
/-! PROOFS. Fences that commit and refresh, and the requests of `fence.far` (O36). -/
namespace Sys2Proof.Machine

variable {s t : State} {k : Iss}

/-! ### Releases and acquires (R259, R289) -/

theorem fenceCommit_seated {a : Actor} {scope : BitVec 4} (h : seated s t) : seated s (fenceCommit t a scope) := by
  unfold fenceCommit
  split
  · exact commitBuf_seated h
  · exact h

/-- The release part of a fence of some participants. -/
def fenceCommits (k : Iss) (scope : BitVec 4) (s : State) : State := k.acts.foldl (fun t a => fenceCommit t a scope) s

theorem fenceCommits_seated {scope : BitVec 4} (h : seated s t) : seated s (fenceCommits k scope t) := foldl_seated (fun _ _ => fenceCommit_seated) h

theorem fenceBody_full {scope : BitVec 4} (hw : refreshAllWell k s) : fenceBody .full scope k s = { st := fenceCommits k scope (refreshed k s) } := by
  unfold fenceBody
  simp only [refreshAll_of_well false hw]
  rfl

theorem fenceBody_acq {scope : BitVec 4} (hw : refreshAllWell k s) : fenceBody .acq scope k s = { st := refreshed k s } := by
  unfold fenceBody
  simp only [refreshAll_of_well false hw]

theorem fence_ends {g : Guard} {kind : FenceKind} {scope : BitVec 4} (h : ready (.fence g kind scope) s = some k)
    (hd : fenceBody kind scope k s = { st := t }) (hs : seated s t) : exec (.fence g kind scope) s = .next (k.ends false false t) := by
  have hexec : exec (.fence g kind scope) s = issue (.fence g kind scope) s (fenceBody kind scope) := rfl
  rw [hexec]
  exact completes_seated h hd hs

/-! ### What a request leaves of agents and of held batches -/

theorem farPacket_device (s : State) (u v : Nat) : device s (farPacket s u v) := by
  unfold farPacket
  dsimp only
  split
  · exact .refl
  · exact lateDelivery_device .refl

/-- A request reaches a block for the first time: it is noted there. -/
def noteRequest (q : Nat × Nat) (u : Nat) (s : State) : State :=
  if ((s.block? u).map fun y => y.farStop.contains q).getD true then s
  else farPacket (s.updBlock u fun y => { y with farStop := y.farStop ++ [q] }) q.1 u

/-- A block that stands answers a request: it commits and forgets it. -/
def answerRequest (q : Nat × Nat) (u : Nat) (s : State) : State :=
  farPacket ((commitAll s u).updBlock u fun y => { y with farStop := y.farStop.filter fun e => e != q }) q.1 u

theorem farTry_at {q : Nat × Nat} {idx u : Nat} {b : Block} (hb : s.block? q.1 = some b) (hidx : idx ≠ b.idx)
    (ht : farTarget s b idx = some (some u)) :
    farTry q s idx =
      if blockStopped (noteRequest q u s) u && (((noteRequest q u s).block? u).bind fun y => y.farStop.head?) = some q then
        (answerRequest q u (noteRequest q u s), true)
      else (noteRequest q u s, false) := by
  unfold farTry
  simp only [hb, hidx, ht, if_false]
  rfl

/-- What a request to stop does to a state: the target notes it and forgets it, packets are delivered, and buffers commit. -/
structure unasked (P : State → Prop) : Prop where
  notes : ∀ (t : State) (u : Nat) (l : Block → List (Nat × Nat)), P t → P (t.updBlock u fun y => { y with farStop := l y })
  delivers : ∀ t r, device t r → P t → P r
  commits : ∀ t q, P t → P (commitBuf t q)

section
variable {P : State → Prop} (h : unasked P)
include h

theorem unasked.commitAll {u : Nat} (hs : P s) : P (commitAll s u) := by
  unfold Machine.commitAll
  split
  · exact hs
  · refine List.foldlRecOn (motive := P) _ _ (h.commits s _ hs) fun r hr w _ => ?_
    split
    · exact hr
    · exact h.commits r _ hr

theorem unasked.noteRequest {q : Nat × Nat} {u : Nat} (hs : P s) : P (noteRequest q u s) := by
  unfold Machine.noteRequest
  split
  · exact hs
  · exact h.delivers _ _ (farPacket_device ..) (h.notes s u _ hs)

theorem unasked.farTry {q : Nat × Nat} {idx : Nat} (hs : P s) : P (farTry q s idx).1 := by
  cases hb : s.block? q.1 with
  | none => simpa [Machine.farTry, hb] using hs
  | some b =>
    by_cases hidx : idx = b.idx
    · simpa [Machine.farTry, hb, hidx] using hs
    · match ht : farTarget s b idx with
      | none => simpa [Machine.farTry, hb, hidx, ht] using hs
      | some none => simpa [Machine.farTry, hb, hidx, ht] using hs
      | some (some u) =>
        rw [farTry_at hb hidx ht]
        split
        · exact h.delivers _ _ (farPacket_device ..) (h.notes _ u _ (h.commitAll (h.noteRequest hs)))
        · exact h.noteRequest hs

theorem unasked.farTries {q : Nat × Nat} {l : List Nat} (hs : P s) : P (farTries q s l).1 := by
  induction l generalizing s with
  | nil => exact hs
  | cons idx r ih =>
    have hone := h.farTry (q := q) (idx := idx) hs
    unfold Machine.farTries
    split <;> rename_i hw <;> rw [hw] at hone
    · exact ih hone
    · exact hone

end

theorem farTries_seated {q : Nat × Nat} {l : List Nat} (h : seated s t) : seated s (farTries q t l).1 :=
  unasked.farTries ⟨fun r u f hr => hr.trans (by refine seated_updBlock ?_ ?_ r u <;> exact fun _ => rfl), fun _ _ hd hr => hr.trans hd.seated,
    fun _ _ hr => commitBuf_seated hr⟩ h

/-! ### A batch that no push wakes -/

/-- A batch of a weave, and what it is. -/
def batchAt (s : State) (u w i : Nat) (b : Batch) : Prop := ∃ x, s.weave? u w = some x ∧ x.batches[i]? = some b

/-- A batch waits at no `bwait`. -/
def Batch.unlatched (b : Batch) : Prop := ∀ r c ty vs l, b.state ≠ .wait (.bwait r c ty vs l)

theorem Weave.batches_wake_ne (x : Weave) {i j : Nat} (hj : j ≠ i) : (x.wake j).batches[i]? = x.batches[i]? := by
  unfold Weave.wake
  split
  · split
    · exact List.getElem?_set_ne hj
    · rfl
  · rfl

theorem Weave.batches_wake_self {x : Weave} {i : Nat} {b : Batch} {q : Wait} (hb : x.batches[i]? = some b) (hq : b.state = .wait q) :
    (x.wake i).batches[i]? = some { b with state := .woke q } := by
  unfold Weave.wake
  simp only [hb, hq]
  simp [(List.getElem?_eq_some_iff.mp hb).1]

theorem Weave.batches_latch {x : Weave} {i : Nat} {b : Batch} (hb : x.batches[i]? = some b) (hl : b.unlatched) (slot n : Nat) (v : Word) :
    (x.latch slot n v).batches[i]? = some b := by
  unfold Weave.latch
  refine List.foldlRecOn (motive := fun y : Weave => y.batches[i]? = some b) _ _ hb fun y hy j _ => ?_
  split
  · rename_i c hc
    split
    · rename_i r cnd ty vs l hstate
      have hj : j ≠ i := by
        rintro rfl
        exact hl r cnd ty vs l (Option.some.inj (hy.symm.trans hc) ▸ hstate)
      split
      · split
        · dsimp only
          split
          · rw [Weave.batches_wake_ne _ hj]
            exact (List.getElem?_set_ne hj).trans hy
          · exact (List.getElem?_set_ne hj).trans hy
        · exact hy
      · exact hy
    · exact hy
  · exact hy

theorem Weave.batches_pushed {x : Weave} {i : Nat} {b : Batch} (hb : x.batches[i]? = some b) (hl : b.unlatched) (s : State) (buf : List SEntry)
    (wx pa n : Nat) : (x.pushed s buf wx pa n).batches[i]? = some b := by
  unfold Weave.pushed
  dsimp only
  split
  · exact hb
  · exact List.foldlRecOn (motive := fun y : Weave => y.batches[i]? = some b) _ _ hb fun y hy e _ => Weave.batches_latch hy hl ..

section
variable {u w i : Nat} {b : Batch}

theorem batchAt_push (hl : b.unlatched) (pa n : Nat) (h : batchAt s u w i b) : batchAt (push s pa n) u w i b := by
  obtain ⟨x, hx, hb⟩ := h
  obtain ⟨y, hy, hxy⟩ := Option.bind_eq_some_iff.mp hx
  refine ⟨x.pushed s y.sbuf w pa n, ?_, Weave.batches_pushed hb hl ..⟩
  unfold push State.weave? State.block?
  simp only [mget_mmap, show mget s.blocks u = some y from hy, Option.map_some, Option.bind_some, hxy]

theorem batchAt_device (hl : b.unlatched) (hd : device s t) (h : batchAt s u w i b) : batchAt t u w i b := by
  induction hd with
  | refl => exact h
  | still _ ha ih =>
    unfold batchAt State.weave? State.block? at ih ⊢
    rw [ha.blocks]
    exact ih
  | push pa n _ ih => exact batchAt_push hl pa n ih

theorem batchAt_updBlock {v : Nat} {f : Block → Block} (hf : ∀ y, (f y).weaves = y.weaves) (h : batchAt s u w i b) :
    batchAt (s.updBlock v f) u w i b := by
  unfold batchAt at h ⊢
  rw [weave?_updBlock hf]
  exact h

theorem batchAt_setBuf {q : Buf} {l : List SEntry} (h : batchAt s u w i b) : batchAt (s.setBuf q l) u w i b := by
  cases q with
  | block v => exact batchAt_updBlock (by exact fun _ => rfl) h
  | weave v x =>
    obtain ⟨y, hy, hb⟩ := h
    unfold batchAt State.setBuf
    rw [State.weave?_updWeave]
    split
    · rename_i he
      obtain ⟨rfl, rfl⟩ := he
      exact ⟨_, congrArg (Option.map _) hy, hb⟩
    · exact ⟨y, hy, hb⟩

theorem batchAt_commitBuf {q : Buf} (hl : b.unlatched) (h : batchAt s u w i b) : batchAt (commitBuf s q) u w i b :=
  batchAt_updBlock (by exact fun _ => rfl) (batchAt_device hl (drain_device .refl) (batchAt_setBuf h))

theorem batchAt_farTries {q : Nat × Nat} {l : List Nat} (hl : b.unlatched) (h : batchAt s u w i b) : batchAt (farTries q s l).1 u w i b :=
  unasked.farTries (P := fun t => batchAt t u w i b)
    ⟨fun _ _ _ => batchAt_updBlock (by exact fun _ => rfl), fun _ _ => batchAt_device hl, fun _ _ => batchAt_commitBuf hl⟩ h

end

/-! ### `fence.far` (R291, R293) -/

section
variable {g : Guard} {scope : BitVec 4}

theorem farTargets_of_invalid {l : List Actor} (h : ∀ a ∈ l, (fartgtOf s a).getLsbD 32 = false) : farTargets s l = [] := by
  unfold farTargets
  rw [List.filterMap_eq_nil_iff.mpr fun a ha => if_neg (Bool.eq_false_iff.mp (h a ha))]
  rfl

/-- A `fence.far` of which no target is left goes on. -/
theorem fenceFar_completes (h : ready (.fenceFar g scope) s = some k) (hwoke : ∀ q l bad, k.woke ≠ some (.far q l bad)) (hw : refreshAllWell k s)
    {full : State} (hfull : fenceCommits k scope (refreshed k s) = full)
    (hdone : (farTries (k.uid, full.nextOp) full.stamp.1 (farTargets s k.acts)).2 = []) :
    exec (.fenceFar g scope) s = .next (k.ends false false (farTries (k.uid, full.nextOp) full.stamp.1 (farTargets s k.acts)).1) := by
  have hexec : exec (.fenceFar g scope) s = execFenceFar g scope s := rfl
  rw [hexec, execFenceFar]
  refine completes_seated h ?_ (farTries_seated ?_)
  · split
    · rename_i hq
      exact absurd hq (hwoke _ _ _)
    · simp only [fenceBody_full hw, hfull, hdone, List.isEmpty_nil, if_true]
  · subst hfull
    exact (fenceCommits_seated (refreshed_seated (.refl s))).blocks rfl

theorem fenceFar_woken {q : Nat} {l : List Nat} (h : ready (.fenceFar g scope) s = some k) (hwoke : k.woke = some (.far q l [])) :
    exec (.fenceFar g scope) s = .next (k.ends false false s) := by
  have hexec : exec (.fenceFar g scope) s = execFenceFar g scope s := rfl
  rw [hexec, execFenceFar]
  refine completes_seated h ?_ (.refl s)
  simp only [hwoke, List.find?_nil, Option.map_none]
  simp

end

/-- A batch that is held tries again, and wakes with its last target. -/
theorem pollBatch_of_far {u w i q : Nat} {x : Weave} {b : Batch} {l : List Nat} {bad : List (Nat × Word)} (hx : s.weave? u w = some x)
    (hb : x.batches[i]? = some b) (hfar : b.state = .wait (.far q l bad)) :
    ∃ y c, (pollBatch s u w i).weave? u w = some y ∧ y.batches[i]? = some c ∧ c.members = b.members ∧ c.pc = b.pc
      ∧ c.state = (if (farTries (u, q) s l).2 = [] then .woke (.far q [] bad) else .wait (.far q (farTries (u, q) s l).2 bad)) := by
  have hl : b.unlatched := fun _ _ _ _ _ he => by simp [hfar] at he
  obtain ⟨z, hz, hzb⟩ := batchAt_farTries (q := (u, q)) (l := l) hl ⟨x, hx, hb⟩
  have hstate : ((s.weave? u w).bind fun x => x.batches[i]?).map Batch.state = some (.wait (.far q l bad)) := by
    simp [hx, hb, hfar]
  unfold pollBatch
  simp only [hstate, State.weave?_updWeave_self, hz, Option.map_some]
  generalize (farTries (u, q) s l).2 = left
  refine ⟨_, { b with state := if left = [] then .woke (.far q [] bad) else .wait (.far q left bad) }, rfl, ?_, rfl, rfl, rfl⟩
  cases left with
  | nil => exact Weave.batches_wake_self (b := { b with state := .wait (.far q [] bad) }) (by simp [hzb]) rfl
  | cons => simp [hzb]

/-! ### A target that stands (R291) -/

theorem lateDelivery_unmarked {u c n : Nat} (h : packetOf s u c = none) : lateDelivery s u c n = s := by
  unfold lateDelivery
  rw [h, latePackets_none]

theorem farPacket_unmarked {u v : Nat} (h : (s.block? u).map Block.deadline = some none) : farPacket s u v = s := by
  unfold farPacket
  dsimp only
  split
  · rfl
  · refine lateDelivery_unmarked ?_
    unfold packetOf
    obtain ⟨b, hb, hdl⟩ := Option.map_eq_some_iff.mp h
    rw [hb, Option.bind_some, hdl]
    rfl

/-- What a block's being stopped rests on: where its batches and its stream stand. -/
theorem blockStopped_farStop (u v : Nat) (f : Block → List (Nat × Nat)) :
    blockStopped (s.updBlock u fun y => { y with farStop := f y }) v = blockStopped s v := by
  unfold blockStopped
  by_cases hv : v = u
  · subst hv
    cases hb : s.block? v <;> simp [hb]
  · simp [hv]

section
variable {u idx : Nat} {q : Nat × Nat} {b y : Block}

/-- The deadline of every block is kept by what a request does to its target. -/
theorem unasked_deadline (u : Nat) (d : Option (Option Nat)) : unasked fun t => (t.block? u).map Block.deadline = d where
  notes t v l h := by
    by_cases hv : u = v
    · subst hv
      cases hb : t.block? u <;> simpa [hb] using h
    · simpa [hv] using h
  delivers t r hd h := (hd.blockPart (fun _ => rfl) u).trans h
  commits t q h := (commitBuf_blockPart (fun _ => rfl) (fun _ _ => rfl) (fun _ => rfl) q u).trans h

theorem noteRequest_unasked (hy : s.block? u = some y) (hstop : y.farStop = []) (hdl : (s.block? q.1).map Block.deadline = some none) :
    noteRequest q u s = s.updBlock u fun y => { y with farStop := y.farStop ++ [q] } := by
  unfold noteRequest
  simp only [hy, Option.map_some, hstop, List.contains_nil, Option.getD_some, Bool.false_eq_true, if_false]
  exact farPacket_unmarked ((unasked_deadline q.1 (some none)).notes s u _ hdl)

/-- A block that stands answers the only request that has reached it: its buffers commit. -/
theorem farTry_stands (hb : s.block? q.1 = some b) (hdl : b.deadline = none) (hidx : idx ≠ b.idx) (ht : farTarget s b idx = some (some u))
    (hy : s.block? u = some y) (hstopped : blockStopped s u = true) (hstop : y.farStop = []) :
    (farTry q s idx).2 = true ∧ (farTry q s idx).1.buf (.block u) = [] ∧ ((farTry q s idx).1.block? u).map Block.farStop = some [] := by
  have hnone : (s.block? q.1).map Block.deadline = some none := by rw [hb]; exact congrArg some hdl
  have hnote := noteRequest_unasked hy hstop hnone
  have hblock : (noteRequest q u s).block? u = some { y with farStop := [q] } := by simp [hnote, hy, hstop]
  have hserved : (blockStopped (noteRequest q u s) u && (((noteRequest q u s).block? u).bind fun y => y.farStop.head?) = some q) = true := by
    rw [hblock, hnote, blockStopped_farStop, hstopped]
    simp
  have hanswer : answerRequest q u (noteRequest q u s)
      = (commitAll (noteRequest q u s) u).updBlock u fun y => { y with farStop := y.farStop.filter fun e => e != q } :=
    farPacket_unmarked ((unasked_deadline q.1 (some none)).notes _ u _ ((unasked_deadline q.1 (some none)).commitAll ((unasked_deadline q.1 (some none)).noteRequest hnone)))
  rw [farTry_at hb hidx ht, if_pos hserved]
  dsimp only
  rw [hanswer]
  refine ⟨rfl, ?_, ?_⟩
  · rw [buf_updBlock (by exact fun _ => rfl) (by exact fun _ => rfl)]
    exact buf_commitAll (by rw [hblock]; rfl)
  · have hp := commitAll_blockPart (s := noteRequest q u s) (p := fun y => y.farStop.filter fun e => e != q) (fun _ => rfl) (fun _ _ => rfl)
      (fun _ => rfl) u u
    rw [hblock] at hp
    simpa [Function.comp_def] using hp

end

/-- Settles O36: commits and refreshes leave agents in their places (`fence_ends`), requests too (`unasked.farTries`), which leave a batch that is held
where it is (`batchAt_farTries`); and a block that stands answers the first request that has reached it (`farTry_stands`). -/
theorem fencesComplete : Obligations.FencesComplete := by
  unfold Obligations.FencesComplete
  intro g scope s k commit full
  refine ⟨fun h => fence_ends h rfl (fenceCommits_seated (.refl s)), fun h hw => fence_ends h (fenceBody_acq hw) (refreshed_seated (.refl s)),
    fun h hw => fence_ends h (fenceBody_full hw) (fenceCommits_seated (refreshed_seated (.refl s))), fun h hwoke hw => ⟨fun hnone => ?_, fun hdone => ?_⟩,
    fun q l h hwoke => fenceFar_woken h hwoke, fun u w i x b q l bad hx hb hfar => pollBatch_of_far hx hb hfar,
    fun q idx b t y hb hdl hidx ht hy hstopped hstop => farTry_stands hb hdl hidx ht hy hstopped hstop⟩
  · have hempty := farTargets_of_invalid hnone
    have hends := fenceFar_completes h hwoke hw (full := full) rfl (by rw [hempty]; rfl)
    rw [hempty] at hends
    exact hends
  · exact fenceFar_completes h hwoke hw (full := full) rfl hdone

end Sys2Proof.Machine
end

