-- ==== Sys2Proof/Proofs/BoundOperations.lean ====
section
/-! PROOFS. `bind`, `unbind`, `bamo`, `bcas` and `bwait` (O33). -/
namespace Sys2Proof.Machine

variable {s t r : State} {k : Iss}

/-! ### Operations that leave agents in their places -/

/-- What accesses, landings and refreshes do, one after another: what the device does, and changes of blocks that leave batches and streams where they
stand. -/
inductive inPlace (s : State) : State → Prop where
  | refl : inPlace s s
  | device {t r : State} : inPlace s t → device t r → inPlace s r
  | block {t : State} {f : Block → Block} (u : Nat) : inPlace s t → (∀ b, (f b).weaves = b.weaves) → (∀ b, (f b).stream = b.stream) →
      inPlace s (t.updBlock u f)
  | weave {t : State} {f : Weave → Weave} (u w : Nat) : inPlace s t → (∀ x, (f x).ss = x.ss) → (∀ x, (f x).batches = x.batches) →
      (∀ x, (f x).cur = x.cur) → inPlace s (t.updWeave u w f)
  | stream {t : State} {f : Stream → Stream} (u : Nat) : inPlace s t → (∀ x, (f x).ss = x.ss) → inPlace s (t.updStream u f)

theorem inPlace.seated (h : inPlace s t) : seated s t := by
  induction h with
  | refl => exact .refl s
  | device _ hd ih => exact ih.trans hd.seated
  | block u _ hw hs ih => exact ih.trans (seated_updBlock hw hs _ u)
  | weave u w _ hss hb hc ih => exact ih.trans (seated_updWeave (fun x => ⟨hss x, by rw [hb], fun i hi => by rw [hc, hi]⟩) _ u w)
  | stream u _ hss ih => exact ih.trans (seated_updStream hss _ u)

theorem inPlace.trans (h : inPlace s t) (g : inPlace t r) : inPlace s r := by
  induction g with
  | refl => exact h
  | device _ hd ih => exact ih.device hd
  | block u _ hw hs ih => exact ih.block u hw hs
  | weave u w _ hss hb hc ih => exact ih.weave u w hss hb hc
  | stream u _ hss ih => exact ih.stream u hss

theorem inPlace.cached (h : inPlace s t) (g : cacheOnly t r) : inPlace s r := h.device (device.cached .refl g)

theorem foldl_inPlace {α : Type} {f : State → α → State} {l : List α} (hf : ∀ t a, inPlace s t → inPlace s (f t a)) (h : inPlace s t) :
    inPlace s (l.foldl f t) :=
  List.foldlRecOn (motive := inPlace s) l f h fun t ht a _ => hf t a ht

theorem updFibre_inPlace {u w sl : Nat} {f : Fibre → Fibre} (h : inPlace s t) : inPlace s (t.updFibre u w sl f) :=
  h.weave u w (fun _ => rfl) (fun _ => rfl) fun _ => rfl

theorem updFib_inPlace {a : Actor} {f : Fibre → Fibre} (h : inPlace s t) : inPlace s (t.updFib a f) := by
  cases a with
  | fib u w sl => exact updFibre_inPlace h
  | seq u => exact h

theorem updPend_inPlace {a : Actor} {f : List Pend → List Pend} (h : inPlace s t) : inPlace s (t.updPend a f) := by
  cases a with
  | fib u w sl => exact updFibre_inPlace h
  | seq u => exact h.stream u fun _ => rfl

/-! ### Where batches stand -/

theorem map_batches_set {α : Type} {p : Batch → α} {l : List Batch} {i : Nat} {b c : Batch} (h : l[i]? = some b) (hp : p c = p b) :
    (l.set i c).map p = l.map p := by
  refine List.ext_getElem? fun j => ?_
  rw [List.getElem?_map, List.getElem?_map, List.getElem?_set]
  by_cases hj : i = j
  · subst hj
    rw [if_pos rfl, if_pos (List.getElem?_eq_some_iff.mp h).1, h]
    exact congrArg some hp
  · rw [if_neg hj]

/-- The program counters of a weave's batches. -/
def Weave.pcs (x : Weave) : List Word := x.batches.map Batch.pc

theorem Weave.pcs_wake (x : Weave) (i : Nat) : (x.wake i).pcs = x.pcs := by
  unfold Weave.wake
  split
  · rename_i b hb
    split
    · exact map_batches_set hb rfl
    · rfl
  · rfl

theorem Weave.pcs_latch (x : Weave) (slot n : Nat) (v : Word) : (x.latch slot n v).pcs = x.pcs := by
  refine foldl_same (p := Weave.pcs) (fun y i _ => ?_) x
  split
  · rename_i b hb
    split
    · split
      · split
        · dsimp only
          split
          · exact (Weave.pcs_wake ..).trans (map_batches_set hb rfl)
          · exact map_batches_set hb rfl
        · rfl
      · rfl
    · rfl
  · rfl

theorem Weave.pcs_pushed (s : State) (buf : List SEntry) (wx pa n : Nat) (x : Weave) : (x.pushed s buf wx pa n).pcs = x.pcs := by
  unfold Weave.pushed
  dsimp only
  split
  · rfl
  · exact (foldl_same (p := Weave.pcs) (fun y h _ => y.pcs_latch ..) _).trans rfl

theorem device.pcs (h : device s t) (u w : Nat) : (t.weave? u w).map Weave.pcs = (s.weave? u w).map Weave.pcs := by
  induction h with
  | refl => rfl
  | still _ ha ih => rw [State.weave?, State.block?, ha.blocks]; exact ih
  | @push r pa n _ ih =>
    refine Eq.trans ?_ ih
    rw [weave?_push, State.weave?]
    cases r.block? u with
    | none => rfl
    | some b => simp only [Option.bind_some, Option.map_map, Function.comp_def, Weave.pcs_pushed]

theorem inPlace.pcs (h : inPlace s t) (u w : Nat) : (t.weave? u w).map Weave.pcs = (s.weave? u w).map Weave.pcs := by
  induction h with
  | refl => rfl
  | device _ hd ih => exact (hd.pcs u w).trans ih
  | block v _ hw _ ih => rw [weave?_updBlock hw, ih]
  | weave v y _ _ hb _ ih =>
    refine (weave?_map_updWeave (fun x => ?_) ..).trans ih
    exact congrArg (List.map Batch.pc) (hb x)
  | stream v _ _ ih =>
    refine (congrArg (Option.map Weave.pcs) (weave?_updBlock ?_ ..)).trans ih
    exact fun _ => rfl

/-- The batch at a cursor stands where it stood. -/
theorem inPlace.cursor {u w n : Nat} {b : Batch} {ss : Bool} (h : inPlace s t) (hc : s.cursor u w = some (n, b, ss)) :
    ∃ c, t.cursor u w = some (n, c, ss) ∧ c.members = b.members ∧ c.pc = b.pc := by
  obtain ⟨c, ht, hm⟩ := h.seated.cursor hc
  refine ⟨c, ht, hm, ?_⟩
  obtain ⟨x, hx, -, hb, -⟩ := cursor_weave hc
  obtain ⟨y, hy, -, hyc, -⟩ := cursor_weave ht
  have hpcs := h.pcs u w
  rw [hx, hy] at hpcs
  have hn := congrArg (·[n]?) (Option.some.inj hpcs)
  simpa only [Weave.pcs, List.getElem?_map, hb, hyc, Option.map_some, Option.some.injEq] using hn

/-! ### Buffers and registers -/

theorem setBuf_inPlace {q : Buf} {l : List SEntry} (h : inPlace s t) : inPlace s (t.setBuf q l) := by
  cases q with
  | block u => exact h.block u (fun _ => rfl) fun _ => rfl
  | weave u w => exact h.weave u w (fun _ => rfl) (fun _ => rfl) fun _ => rfl

theorem commitBuf_inPlace {q : Buf} (h : inPlace s t) : inPlace s (commitBuf t q) :=
  .block _ (.device (setBuf_inPlace h) (drain_device .refl)) (fun _ => rfl) fun _ => rfl

theorem forcedCommit_inPlace {q : Buf} (h : inPlace s t) : inPlace s (forcedCommit t q) :=
  .device (commitBuf_inPlace h) (updCtx_device (fun _ => rfl) .refl)

theorem bufStore_inPlace {q : Buf} {pa : Nat} {data : List Byte} {who : Option (Nat × Nat)} {helper : Bool} (h : inPlace s t) :
    inPlace s (bufStore t q pa data who helper) := by
  have hforced : inPlace s (if bufFull t q (lineOf pa) then forcedCommit t q else t) := by
    split
    · exact forcedCommit_inPlace h
    · exact h
  have hcount {r : State} (hr : inPlace s r) : inPlace s (r.updBlock q.uid fun b => { b with stseq := b.stseq + 1 }) :=
    hr.block q.uid (fun _ => rfl) fun _ => rfl
  have hdiscard {r : State} (hr : inPlace s r) :
      inPlace s (match who with | some (w, sl) => r.updFibre q.uid w sl fun f => f.discards pa data.length | none => r) := by
    split
    · exact updFibre_inPlace hr
    · exact hr
  unfold bufStore
  dsimp only
  generalize (if bufFull t q (lineOf pa) then forcedCommit t q else t) = r at hforced ⊢
  split
  · exact commitBuf_inPlace (setBuf_inPlace (hcount (hdiscard hforced)))
  · exact .cached (setBuf_inPlace (hcount (hdiscard hforced))) ((cacheOnly.rfl' _).setL1 _ _)

theorem boundStore_inPlace {a : Actor} {b : Binding} {n : Nat} {v : Word} (h : inPlace s t) : inPlace s (boundStore t a b n v) :=
  commitBuf_inPlace (bufStore_inPlace (updFib_inPlace h))

theorem writeW_inPlace {a : Actor} {n : Nat} {v : Word} (h : inPlace s t) : inPlace s (t.writeW a n v) := by
  unfold State.writeW
  split
  · split
    · exact h
    · exact h.stream _ fun _ => rfl
  · split
    · exact h
    · dsimp only
      split
      · exact boundStore_inPlace (updFibre_inPlace h)
      · exact updFibre_inPlace (updFibre_inPlace h)

theorem writeK_inPlace {u w n : Nat} {v : Word} (h : inPlace s t) : inPlace s (t.writeK u w n v) := by
  unfold State.writeK
  split
  · exact h
  · exact h.weave u w (fun _ => rfl) (fun _ => rfl) fun _ => rfl

theorem writeP_inPlace {a : Actor} {n : Nat} {v : Bool} (h : inPlace s t) : inPlace s (t.writeP a n v) := by
  by_cases hn : n = 0
  · subst hn
    exact h
  · cases a with
    | fib u w sl =>
      rw [writeP_fib hn]
      exact updFibre_inPlace h
    | seq u =>
      rw [writeP_seq hn]
      exact h.stream u fun _ => rfl

theorem raise_inPlace {a : Actor} {fl : FFlags} (h : inPlace s t) : inPlace s (t.raise a fl) := by
  cases a with
  | fib u w sl => exact h.weave u _ (fun _ => rfl) (fun _ => rfl) fun _ => rfl
  | seq u => exact h

theorem noteDead_inPlace {u : Nat} {pc : Word} {x : Option (Nat × Nat × Nat)} (h : inPlace s t) : inPlace s (t.noteDead u pc x) := by
  unfold State.noteDead
  split
  · exact h
  · refine h.weave u _ (fun _ => ?_) (fun _ => ?_) fun _ => ?_ <;> split <;> rfl

theorem noteAll_inPlace {pc : Word} {acts : List Actor} {srcs : List Src} (h : inPlace s t) : inPlace s (t.noteAll pc acts srcs) :=
  foldl_inPlace (fun _ _ => foldl_inPlace fun _ _ => noteDead_inPlace) h

theorem release_inPlace {a : Actor} {x : Src} (h : inPlace s t) : inPlace s (t.release a x) := by
  unfold State.release
  split
  · exact h
  · split
    · exact updFibre_inPlace h
    · exact h

theorem releaseAll_inPlace {a : Actor} {srcs : List Src} (h : inPlace s t) : inPlace s (t.releaseAll a srcs) :=
  foldl_inPlace (fun _ _ => release_inPlace) h

theorem refresh_inPlace {a : Actor} {quiet : Bool} (h : inPlace s t) : inPlace s (refresh t a quiet).1 := by
  unfold refresh refreshBut
  split
  · exact h
  · exact updFib_inPlace h

theorem refreshed_inPlace (h : inPlace s t) : inPlace s (refreshed k t) := foldl_inPlace (fun _ _ => refresh_inPlace) h

/-! ### Outstanding results -/

theorem setMark_inPlace {u m n : Nat} {w : Option Nat} (h : inPlace s t) : inPlace s (t.setMark u w m n) := by
  cases w with
  | some w => exact h.weave u w (fun _ => rfl) (fun _ => rfl) fun _ => rfl
  | none => exact h.stream u fun _ => rfl

theorem openOp_inPlace {u m : Nat} {w : Option Nat} (h : inPlace s t) : inPlace s (t.openOp u w m).1 := by
  have hmark : inPlace s (if m < 12 then t.setMark u w m (t.markCount u w m + 1) else t) := by
    split
    · exact setMark_inPlace h
    · exact h
  have hopen := hmark.block (f := fun b => { b with ops := mput b.ops t.nextOp (w, m) }) u (fun _ => rfl) fun _ => rfl
  exact .device hopen (.still .refl ⟨rfl, rfl, fun _ => rfl, fun _ => rfl⟩)

theorem addPend_inPlace {a : Actor} {p : Pend} (h : inPlace s t) : inPlace s (t.addPend a p) := by
  unfold State.addPend
  refine updPend_inPlace ?_
  split
  · refine updPend_inPlace ?_
    split
    · exact h.weave _ _ (fun _ => rfl) (fun _ => rfl) fun _ => rfl
    · exact h
    · exact updPend_inPlace h
  · split
    · exact h.weave _ _ (fun _ => rfl) (fun _ => rfl) fun _ => rfl
    · exact h
    · exact updPend_inPlace h

theorem deliverOps_inPlace {op : Nat} (h : inPlace s t) : inPlace s (deliverOps t op) :=
  foldl_inPlace (fun _ _ => foldl_inPlace fun _ _ ht => ht.cached ((cacheOnly.rfl' _).deliverThrough _ _)) h

theorem completeOp_inPlace {u op : Nat} (h : inPlace s t) : inPlace s (completeOp t u op) := by
  unfold completeOp
  split
  · exact h
  · split
    · exact h
    · rename_i w m _
      have hclosed := (deliverOps_inPlace (op := op) h).block (f := fun b => { b with ops := mdel b.ops op, lreads := mdel b.lreads op }) u
        (fun _ => rfl) fun _ => rfl
      generalize (deliverOps t op).updBlock u _ = r at hclosed
      have hmark : inPlace s (if m < 12 then r.setMark u w m (r.markCount u w m - 1) else r) := by
        split
        · exact setMark_inPlace hclosed
        · exact hclosed
      dsimp only
      split
      · exact hmark.stream u fun _ => rfl
      · exact foldl_inPlace (fun _ _ ht => updPend_inPlace (raise_inPlace ht)) hmark

theorem landPend_inPlace {a : Actor} {p : Pend} (h : inPlace s t) : inPlace s (landPend t a p) := by
  have hdst : inPlace s (match p.dst, a with
      | .w n, .fib u w sl => if p.own then t.updFibre u w sl fun f => { f with regs := mput f.regs n (.live p.val) } else t.writeW a n p.val
      | .k n, .fib u w _ => t.writeK u w n p.val
      | .s n, .seq _ => t.writeW a n p.val
      | _, _ => t) := by
    split
    · split
      · exact updFibre_inPlace h
      · exact writeW_inPlace h
    · exact writeK_inPlace h
    · exact writeW_inPlace h
    · exact h
  unfold landPend
  dsimp only
  split
  · exact writeP_inPlace hdst
  · exact hdst

theorem landSel_inPlace {a : Actor} {sel : Pend → Bool} (h : inPlace s t) : inPlace s (landSel t a sel).1 := by
  unfold landSel
  refine List.foldlRecOn (motive := fun x : State × List Pend => inPlace s x.1) _ _ h fun x hx q _ => ?_
  split
  · exact hx
  · dsimp only
    split
    · exact updPend_inPlace hx
    · exact landPend_inPlace (updPend_inPlace hx)

theorem landReg_inPlace {a : Actor} {n : Nat} (h : inPlace s t) : inPlace s (landReg t a n).1 :=
  landSel_inPlace (foldl_inPlace (fun _ _ => completeOp_inPlace) h)

/-! ### Accesses -/

theorem checkAccess_device (s : State) (a : Actor) (va : Word) (n : Nat) (acc : Acc) : device s (checkAccess s a va n acc).1 := by
  unfold checkAccess
  split
  · exact .refl
  · exact translate_device .refl

theorem loadTouch_device (s : State) (u c pa op : Nat) : device s (loadTouch s u c pa op) := by
  unfold loadTouch
  dsimp only
  split
  · exact device.cached .refl ((cacheOnly.rfl' _).readTouch _ _)
  · refine updCore_device (foldl_device (fun _ _ => serveMiss_device) ?_)
    split
    · exact .refl
    · exact .still .refl ⟨rfl, rfl, fun _ => rfl, fun _ => rfl⟩

theorem blockWrite_device (s : State) (u c : Nat) (l1 : Option Nat) (pa seq : Nat) (data : List Byte) :
    device s (blockWrite s u c l1 pa seq data) := by
  unfold blockWrite
  split
  · exact .refl
  · dsimp only
    split
    · exact homeWrite_device (lateDelivery_device (storeAhead_device .refl))
    · exact refuseWrite_device (lateDelivery_device (storeAhead_device .refl))

theorem homeRead_device (s : State) (u c pa : Nat) : device s (homeRead s u c pa) := by
  unfold homeRead
  split
  · exact .refl
  · exact (lateDelivery_device (ahead_device .refl)).cached (((cacheOnly.rfl' _).homeTouch _).giveUp _)

theorem atomicRead_device (s : State) (a : Actor) (pa : Nat) : device s (atomicRead s a pa) := by
  unfold atomicRead
  split
  · exact homeRead_device ..
  · exact refuseWrite_device .refl

/-! ### Completion -/

theorem MAcc.close_inPlace {x : MAcc} {mark : Nat} {sw : Bool} (h : inPlace s x.st) : inPlace s (x.close k mark sw).st := by
  unfold MAcc.close
  split
  · exact foldl_inPlace (fun _ _ => addPend_inPlace) (openOp_inPlace h)
  · exact h

theorem MAcc.close_eq {x : MAcc} {mark : Nat} {sw : Bool} (h : x.traps = []) : x.close k mark sw = { st := (x.close k mark sw).st, sw } := by
  unfold MAcc.close
  split <;> simp only [h]

/-- An instruction at a switch point that leaves agents in their places completes. -/
theorem completes_switch {i : Instr} {body : Iss → State → Done} {wd0 : Bool} (h : readyFib i s = some k) (hd : body k s = { st := t, sw := true, wd0 })
    (hs : seated s t) : issue i s body = .next (k.afterSwitch wd0 t) := by
  obtain ⟨n, b, hcur, hne, hacts⟩ := readyFib_cursor h
  obtain ⟨c, hc, hm⟩ := hs.cursor hcur
  rw [issue_readyFib h, hd, finish_after hc (hm ▸ hne) rfl rfl rfl rfl hacts]
  rfl

/-- Participants that act one after another, none of which traps. -/
theorem passes_acts {one : MAcc → Actor → MAcc} {ok : MAcc → Actor → Prop}
    (hone : ∀ x a, inPlace s x.st → x.traps = [] → ok x a → inPlace s (one x a).st ∧ (one x a).traps = []) {l : List Actor} {x : MAcc}
    (hs : inPlace s x.st) (ht : x.traps = []) (h : passes one ok l x) : inPlace s (l.foldl one x).st ∧ (l.foldl one x).traps = [] := by
  induction l generalizing x with
  | nil => exact ⟨hs, ht⟩
  | cons a r ih =>
    obtain ⟨hok, hrest⟩ := h
    obtain ⟨hs, ht⟩ := hone x a hs ht hok
    exact ih hs ht hrest

/-! ### `bind` and `unbind` (R257, R258, R270) -/

theorem bindOne_acts {m : MForm} {sz : MSize} {mark : Nat} {x : MAcc} {a : Actor} (hs : inPlace s x.st) (ht : x.traps = [])
    (hok : bindOk k m sz x a) : inPlace s (bindOne k m sz mark x a).st ∧ (bindOne k m sz mark x a).traps = [] := by
  obtain ⟨b, f, pa, hb, hf, hmis, hpa, hpanel, hwell⟩ := hok
  have hcheck := hs.device (checkAccess_device x.st a (effAddr x.st a m false) sz.bytes .rw)
  unfold bindOne
  simp only [hb, hf, hmis]
  split
  · rename_i hw
    rw [hw] at hpa
    cases hpa
  · rename_i r pa' hw
    rw [hw] at hpa hwell hcheck
    obtain rfl : pa' = pa := by simpa using hpa
    have hre := refresh_inPlace (a := a) (quiet := false) hcheck
    rw [if_neg (Nat.not_le.mpr hpanel)]
    split
    · rename_i hv
      rw [refreshesWell, hv] at hwell
      cases hwell
    · rename_i hv
      rw [hv] at hre
      refine ⟨?_, ht⟩
      have hregister {r : State} {share : Option Bool} {g f : Fibre → Fibre} {n : Nat} (hr : inPlace s r) :
          inPlace s (match share with | some _ => (r.updFib a g).writeP a n true | none => (r.writeP a n false).updFib a f) := by
        split
        · exact writeP_inPlace (updFib_inPlace hr)
        · exact updFib_inPlace (writeP_inPlace hr)
      unfold MAcc.row
      dsimp only
      split
      · exact .cached (.device (hregister (releaseAll_inPlace hre)) (loadTouch_device ..)) ((cacheOnly.rfl' _).bindTouch _)
      · exact .device (hregister (releaseAll_inPlace hre)) (loadTouch_device ..)

theorem bind_completes {m : MForm} {sz : MSize} (h : readyFib (.bind m sz) s = some k) :
    let one := bindOne k m sz (k.markOf (.bind m sz))
    let x : MAcc := { st := s.noteAll k.pc k.acts (m.srcs false false) }
    passes one (bindOk k m sz) k.acts x → (∀ a ∈ k.acts, missesOver (k.acts.foldl one x).st (s.coreOf a) = false) →
      exec (.bind m sz) s = .next (k.afterSwitch false ((k.acts.foldl one x).close k (k.markOf (.bind m sz)) true).st) := by
  intro one x hpass hroom
  obtain ⟨hs, ht⟩ := passes_acts (s := s) (fun _ _ => bindOne_acts) (noteAll_inPlace .refl) rfl hpass
  have hfree : (k.acts.any fun a => missesOver (k.acts.foldl one x).st (s.coreOf a)) = false := List.any_eq_false.mpr fun a ha => by simp [hroom a ha]
  have hexec : exec (.bind m sz) s = execBind m sz s := rfl
  rw [hexec, execBind]
  refine completes_switch h ?_ (MAcc.close_inPlace hs).seated
  exact (if_neg (Bool.eq_false_iff.mp hfree)).trans (MAcc.close_eq ht)

theorem unbindOne_acts {d : Nat} {x : MAcc} {a : Actor} (hs : inPlace s x.st) (ht : x.traps = []) (hok : unbindOk d x a) :
    inPlace s (unbindOne k d x a).st ∧ (unbindOne k d x a).traps = [] := by
  obtain ⟨hbound, hwell, hland⟩ := hok
  obtain ⟨b, hb⟩ := Option.isSome_iff_exists.mp hbound
  have hdone := landReg_inPlace (a := a) (n := d) (refresh_inPlace (a := a) (quiet := false) hs)
  have hrefresh : refresh x.st a false = ((refresh x.st a false).1, none) := Prod.ext rfl hwell
  have hlanded : landReg (refresh x.st a false).1 a d = ((landReg (refresh x.st a false).1 a d).1, none) := Prod.ext rfl hland
  unfold unbindOne
  rw [hb, hrefresh]
  dsimp only
  rw [hlanded]
  exact ⟨updFib_inPlace hdone, ht⟩

theorem unbind_completes {g : Guard} {d : BitVec 7} (h : readyFib (.unbind g d) s = some k)
    (hpass : passes (unbindOne k d.toNat) (unbindOk d.toNat) k.acts { st := s }) :
    exec (.unbind g d) s = .next (k.afterSwitch false (k.acts.foldl (unbindOne k d.toNat) { st := s }).st) := by
  obtain ⟨hs, ht⟩ := passes_acts (one := unbindOne k d.toNat) (fun _ _ => unbindOne_acts) .refl rfl hpass
  have hexec : exec (.unbind g d) s = execUnbind g d s := rfl
  rw [hexec, execUnbind]
  refine completes_switch h ?_ hs.seated
  dsimp only
  rw [ht]

/-! ### `bamo` and `bcas` (R265 to R267) -/

theorem boundAtomic_acts {f : AForm} {mark : Nat} {srcs : List Src} {new : Nat → Option Nat} {ps : Option (BitVec 4)} {x : MAcc} {a : Actor}
    (hs : inPlace s x.st) (ht : x.traps = []) (hok : boundOk f x a) :
    inPlace s (boundAtomic k f mark srcs new ps x a).st ∧ (boundAtomic k f mark srcs new ps x a).traps = [] := by
  obtain ⟨hbound, hwell⟩ := hok
  obtain ⟨b, hb⟩ := Option.isSome_iff_exists.mp hbound
  have hrefresh : refresh x.st a false = ((refresh x.st a false).1, none) := Prod.ext rfl hwell
  have hcommit (q : Buf) : inPlace s (commitBuf ((refresh x.st a false).1.releaseAll a srcs) q) :=
    commitBuf_inPlace (releaseAll_inPlace (refresh_inPlace hs))
  unfold boundAtomic
  dsimp only
  rw [hb, hrefresh]
  refine ⟨?_, ht⟩
  unfold MAcc.row
  dsimp only
  split
  · exact .device (hcommit _) (blockWrite_device ..)
  · exact .device (hcommit _) (atomicRead_device ..)

theorem bamo_completes {f : AForm} {op : BamoOp} (h : readyFib (.bamo f op) s = some k) :
    let srcs := if immB f then [] else [f.b]
    let one (x : MAcc) (a : Actor) : MAcc := boundAtomic k f (k.markOf (.bamo f op)) srcs
      (fun old => some (bamoNew op f.ty old ((boundOperand f s a).toNat % 2 ^ (f.ty.shape false).2))) none x a
    let x : MAcc := { st := s.noteAll k.pc k.acts srcs }
    passes one (boundOk f) k.acts x → exec (.bamo f op) s = .next (k.afterSwitch false ((k.acts.foldl one x).close k (k.markOf (.bamo f op)) true).st) := by
  intro srcs one x hpass
  obtain ⟨hs, ht⟩ := passes_acts (s := s) (fun _ _ => boundAtomic_acts) (noteAll_inPlace .refl) rfl hpass
  have hexec : exec (.bamo f op) s = execBamo f op s := rfl
  rw [hexec, execBamo]
  exact completes_switch h (MAcc.close_eq ht) (MAcc.close_inPlace hs).seated

theorem bcas_completes {f : AForm} (h : readyFib (.bcas f) s = some k) :
    let w := (f.ty.shape false).2
    let one (x : MAcc) (a : Actor) : MAcc := boundAtomic k f (k.markOf (.bcas f)) [f.b, f.c]
      (fun old => if old = (s.src a f.b).toNat % 2 ^ w then some ((s.src a f.c).toNat % 2 ^ w) else none) (some (f.a.num.setWidth 4)) x a
    let x : MAcc := { st := s.noteAll k.pc k.acts [f.b, f.c] }
    passes one (boundOk f) k.acts x → exec (.bcas f) s = .next (k.afterSwitch false ((k.acts.foldl one x).close k (k.markOf (.bcas f)) true).st) := by
  intro w one x hpass
  obtain ⟨hs, ht⟩ := passes_acts (s := s) (fun _ _ => boundAtomic_acts) (noteAll_inPlace .refl) rfl hpass
  have hexec : exec (.bcas f) s = execBcas f s := rfl
  rw [hexec, execBcas]
  exact completes_switch h (MAcc.close_eq ht) (MAcc.close_inPlace hs).seated

/-! ### `bwait` (R268) -/

theorem bwaitLand_acts {f : AForm} {x : MAcc} {a : Actor} (hs : inPlace s x.st) (ht : x.traps = []) (hok : bwaitOk f x a) :
    inPlace s (bwaitLand k f x a).st ∧ (bwaitLand k f x a).traps = [] := by
  obtain ⟨hbound, hland⟩ := hok
  obtain ⟨b, hb⟩ := Option.isSome_iff_exists.mp hbound
  have hlanded : landReg x.st a f.d.num.toNat = ((landReg x.st a f.d.num.toNat).1, none) := Prod.ext rfl hland
  unfold bwaitLand
  rw [hb]
  dsimp only
  rw [hlanded]
  exact ⟨landReg_inPlace hs, ht⟩

theorem bwaitRefresh_acts {x : MAcc} {a : Actor} (hs : inPlace s x.st) (ht : x.traps = []) (hok : refreshesWell x.st a) :
    inPlace s (bwaitRefresh k x a).st ∧ (bwaitRefresh k x a).traps = [] := by
  have hrefresh : refresh x.st a false = ((refresh x.st a false).1, none) := Prod.ext rfl hok
  unfold bwaitRefresh
  rw [hrefresh]
  exact ⟨refresh_inPlace hs, ht⟩

/-- An instruction that suspends its batch, and has left it in its place, leaves each of its fibres in a batch that waits at it. -/
theorem suspends_inPlace {i : Instr} {body : Iss → State → Done} {q : Wait} (h : readyFib i s = some k)
    (hd : body k s = { st := t, how := .wait q }) (hs : inPlace s t) : ∃ y, issue i s body = .next (t.updWeave k.uid k.w fun _ => y)
      ∧ ∀ a ∈ k.batch, ∃ b ∈ y.batches, a.slot ∈ b.members ∧ b.pc = k.pc ∧ b.state = .wait q := by
  obtain ⟨n, b, hcursor, hpc, hne, hbatch, hin⟩ := readyFib_batch h
  obtain ⟨c, hc, hmembers, hstands⟩ := hs.cursor hcursor
  obtain ⟨x, hx, hi, hbi, hb, hss⟩ := cursor_weave hc
  have hm : c.members ≠ [] := fun e => by
    obtain ⟨a, ha⟩ := List.exists_mem_of_ne_nil _ hne
    have := hin a ha
    rw [hbatch, ← hmembers, e] at this
    exact absurd this List.not_mem_nil
  refine ⟨x.afterJoin n c [c.waitsFor q] t.clock, ?_, fun a ha => ⟨_, waits_mem_afterJoin q t.clock, ?_, hstands.trans hpc, rfl⟩⟩
  · rw [issue_readyFib h, hd, finish_wait hx hi hb hss hm]
  · obtain ⟨sl, hsl, rfl⟩ := List.mem_map.mp (hbatch ▸ ha)
    exact hmembers ▸ hsl

theorem untrapped_of_none {x : MAcc} (h : x.traps = []) (l : List Actor) : x.untrapped l = l := by
  unfold MAcc.untrapped
  rw [h]
  exact List.filter_true l

theorem completeWait_of_well {sw : Bool} (hacts : k.acts ≠ []) (hw : refreshAllWell k s) :
    completeWait k s sw = { st := refreshed k s, wd0 := true, sw } := by
  unfold completeWait
  rw [refreshAll_of_well false hw, List.isEmpty_eq_false_iff.mpr hacts]
  rfl

theorem bwait_woken {f : AForm} {cond : BwaitCond} {n : Nat} {c : BwaitCond} {ty : Ty} {vs : List (Nat × Word)} {l : List Nat}
    (h : readyFib (.bwait f cond) s = some k) (hwoke : k.woke = some (.bwait n c ty vs l)) (hw : refreshAllWell k s) :
    exec (.bwait f cond) s = .next (k.after true (refreshed k s)) := by
  obtain ⟨-, -, -, -, hacts⟩ := readyFib_cursor h
  have hexec : exec (.bwait f cond) s = execBwait f cond s := rfl
  rw [hexec, execBwait]
  refine completes_wait h ?_ (refreshed_seated (.refl s))
  simp only [hwoke]
  exact completeWait_of_well hacts hw

/-- What a `bwait` does whose participants have landed. -/
def bwaitTries (k : Iss) (f : AForm) (cond : BwaitCond) (srcs : List Src) (v : Actor → Word) (x : MAcc) : Done :=
  let x := (x.untrapped k.acts).foldl (bwaitRefresh k) x
  let kept := x.untrapped k.acts
  let latched := bwaitTest f cond v x.st kept
  let t := kept.foldl (fun s a => s.releaseAll a srcs) x.st
  if kept.all fun a => latched.contains a.slot then
    let d := completeWait { k with acts := kept } t true
    { d with traps := x.traps ++ d.traps }
  else { st := t, traps := x.traps, how := .wait (.bwait f.d.num.toNat cond f.ty (kept.map fun a => (a.slot, v a)) latched) }

theorem exec_bwait (f : AForm) (cond : BwaitCond) (s : State) : exec (.bwait f cond) s = issue (.bwait f cond) s fun k s =>
    match k.woke with
    | some (.bwait ..) => completeWait k s false
    | _ =>
      let srcs := if immB f then [] else [f.b]
      bwaitTries k f cond srcs (boundOperand f s) (k.acts.foldl (bwaitLand k f) { st := s.noteAll k.pc k.acts srcs }) := rfl

theorem bwaitTries_of_well {f : AForm} {cond : BwaitCond} {srcs : List Src} {v : Actor → Word} {x y : MAcc} (hx : x.traps = [])
    (hy : k.acts.foldl (bwaitRefresh k) x = y) (hyt : y.traps = []) :
    bwaitTries k f cond srcs v x =
      if k.acts.all fun a => (bwaitTest f cond v y.st k.acts).contains a.slot then
        completeWait k (k.acts.foldl (fun t a => t.releaseAll a srcs) y.st) true
      else { st := k.acts.foldl (fun t a => t.releaseAll a srcs) y.st,
             how := .wait (.bwait f.d.num.toNat cond f.ty (k.acts.map fun a => (a.slot, v a)) (bwaitTest f cond v y.st k.acts)) } := by
  unfold bwaitTries
  simp only [untrapped_of_none hx, hy, untrapped_of_none hyt, hyt, List.nil_append]

/-- A `bwait` whose participants have landed and refreshed: it goes on where each passes its test, else its batch waits. -/
theorem bwait_unwoken {f : AForm} {cond : BwaitCond} (h : readyFib (.bwait f cond) s = some k) (hwoke : k.woke = none) :
    let srcs := if immB f then [] else [f.b]
    let x : MAcc := { st := s.noteAll k.pc k.acts srcs }
    let y := k.acts.foldl (bwaitLand k f) x
    let z := (k.acts.foldl (bwaitRefresh k) y).st
    let l := bwaitTest f cond (boundOperand f s) z k.acts
    let t := k.acts.foldl (fun t a => t.releaseAll a srcs) z
    passes (bwaitLand k f) (bwaitOk f) k.acts x → passes (bwaitRefresh k) (fun x a => refreshesWell x.st a) k.acts y →
      ((∀ a ∈ k.acts, a.slot ∈ l) → refreshAllWell k t → exec (.bwait f cond) s = .next (k.afterSwitch true (refreshed k t)))
      ∧ ((∃ a ∈ k.acts, a.slot ∉ l) → ∃ y, exec (.bwait f cond) s = .next (t.updWeave k.uid k.w fun _ => y)
          ∧ ∀ a ∈ k.batch, ∃ b ∈ y.batches, a.slot ∈ b.members ∧ b.pc = k.pc
              ∧ b.state = .wait (.bwait f.d.num.toNat cond f.ty (k.acts.map fun a => (a.slot, boundOperand f s a)) l)) := by
  intro srcs x y z l t hland hrefresh
  obtain ⟨-, -, -, -, hacts⟩ := readyFib_cursor h
  obtain ⟨hys, hyt⟩ := passes_acts (one := bwaitLand k f) (fun _ _ => bwaitLand_acts) (noteAll_inPlace .refl) rfl hland
  obtain ⟨hzs, hzt⟩ := passes_acts (one := bwaitRefresh k) (fun _ _ => bwaitRefresh_acts) hys hyt hrefresh
  have hts : inPlace s t := foldl_inPlace (fun _ _ => releaseAll_inPlace) hzs
  have effect := bwaitTries_of_well (f := f) (cond := cond) (srcs := srcs) (v := boundOperand f s) hyt rfl hzt
  rw [exec_bwait]
  refine ⟨fun hall hw => ?_, fun hfails => ?_⟩
  · refine completes_switch h ?_ (refreshed_seated hts.seated)
    have hpass : (k.acts.all fun a => l.contains a.slot) = true := List.all_eq_true.mpr fun a ha => List.contains_iff_mem.mpr (hall a ha)
    simp only [hwoke]
    exact effect.trans ((if_pos hpass).trans (completeWait_of_well hacts hw))
  · refine suspends_inPlace h ?_ hts
    have hpass : (k.acts.all fun a => l.contains a.slot) = false := by
      obtain ⟨a, ha, hl⟩ := hfails
      exact List.all_eq_false.mpr ⟨a, ha, fun hc => hl (List.contains_iff_mem.mp hc)⟩
    simp only [hwoke]
    exact effect.trans (if_neg (Bool.eq_false_iff.mp hpass))

/-- Settles O33: the operations leave agents in their places and trap nobody where each participant passes its checks (`passes_acts`), so the
instructions end at a switch point (`completes_switch`), and a `bwait` that has to wait suspends its batch (`suspends_inPlace`). -/
theorem boundCompletes : Obligations.BoundCompletes := by
  unfold Obligations.BoundCompletes
  exact fun s k => ⟨fun m sz h => bind_completes h, fun g d h hpass => unbind_completes h hpass, fun f op h => bamo_completes h,
    fun f h => bcas_completes h, fun f cond h hwoke => bwait_unwoken h hwoke, fun f cond n c ty vs l h hwoke hw => bwait_woken h hwoke hw⟩

end Sys2Proof.Machine
end

