-- ==== Sys2Proof/Proofs/LatePackets.lean ====
section
/-! PROOFS. Stores of a core that a pending request to their line delays: the late packets of that request are recorded in memory (O13, O30). -/
namespace Sys2Proof.Machine
open Sys2Proof.Tests

/-! ### A commit behind a late request -/

/-- The core of `latePending` holds one buffered store to the line that its late request asks for. -/
def lateCommit : State := latePending.updBlock 1 fun b => { b with sbuf := [⟨1, 0x40002000, [1], none, false⟩] }

theorem lateCommit_inTime : missesInTime lateCommit := noneLate _ (by decide +kernel)

theorem lateCommit_buffer : ∀ e ∈ lateCommit.buf (.block 1), e.pa + e.data.length ≤ panelEnd ∧ tagOk lateCommit 1 e.pa = true := by decide +kernel

theorem lateCommit_seen : seenByte lateCommit (.block 1) 0x20000 = 0 := by decide +kernel

theorem lateCommit_rings : (commitBuf lateCommit (.block 1)).byte 0x20000 = 1 := by decide +kernel

/-- Refutes O30: the commit asks for the line behind the core's pending request for it (R247), whose packets come late; the record of it rings the
doorbell at 0x20000, where the buffer holds no store (R386). That no block has a deadline now says nothing about the packets that are on their way. -/
theorem not_commitMakesVisible : ¬ Obligations.CommitMakesVisible := by
  unfold Obligations.CommitMakesVisible
  intro h
  obtain ⟨b, hb, hctx, hdl⟩ : ∃ b, lateCommit.block? 1 = some b ∧ b.ctx = 1 ∧ b.deadline = none := ⟨_, rfl, rfl, rfl⟩
  obtain ⟨visible, -⟩ := h lateCommit (.block 1) b hb hdl lateCommit_inTime (fun _ => rfl) (hctx ▸ lateCommit_buffer)
  have rings := visible 0x20000 (by decide)
  rw [lateCommit_rings, lateCommit_seen] at rings
  exact absurd rings (by decide)

/-! ### A store to a bound register behind a late request -/

/-- The fibre of `latePending` has w5 bound to the word on the line that its core's late request asks for. -/
def lateBound : State := fib (fun f => { f with binds := [(5, ⟨0x40002000, 0x2000, false, true, none, false, 0, true, []⟩)] }) latePending

/-- w5 := w2. -/
def toBound : AForm := form .n64 (wd 5) (w 2) .zero .zero

theorem lateBound_ready : readyFib (.mov toBound) lateBound = some (k0 8) := by decide +kernel

theorem lateBound_rings : (stateAfter (exec (.mov toBound) lateBound)).map (fun t => t.byte 0x20000) = some 1 := by decide +kernel

theorem lateBound_bell_silent : lateBound.byte 0x20000 = 0 := by decide +kernel

/-- Refutes O13: the store to the bound register asks for the line behind the core's pending request for it (R247), whose packets come late; the record
of it rings the doorbell, outside the binding's word (R386). -/
theorem not_boundStores : ¬ Obligations.BoundStores := by
  unfold Obligations.BoundStores
  rintro ⟨-, h, -⟩
  obtain ⟨r, f, b, y, hr, huni, hf, hb, hy, hdl⟩ : ∃ r f b y, (Instr.mov toBound).regOp = some r ∧ r.d.uni = false ∧ lateBound.fib? me = some f
      ∧ mget f.binds r.d.num.toNat = some b ∧ lateBound.block? 1 = some y ∧ y.deadline = none := ⟨_, _, _, _, rfl, rfl, rfl, rfl, rfl, rfl⟩
  obtain ⟨hpa, hpanel, htag⟩ : b.pa + b.size ≤ 0x40002004 ∧ 0x20000 < b.pa ∧ tagOk lateBound y.ctx b.pa = true := by
    obtain rfl := Option.some.inj hf
    obtain rfl := Option.some.inj hr
    obtain rfl := Option.some.inj hb
    obtain rfl := Option.some.inj hy
    decide +kernel
  obtain ⟨d, hd, bytes⟩ := h (.mov toBound) r lateBound (k0 8) me f b y hr lateBound_ready huni rfl hf hb hy hdl (noneLate _ (by decide +kernel))
    (by decide +kernel) (fun _ => rfl) (Nat.le_trans hpa (by decide)) htag
  have rings := lateBound_rings
  rw [hd, stateAfter, Option.map_some, byte_after _ _ _ _ (by decide), bytes _ (by decide), if_neg fun hin => absurd hin.1 (Nat.not_le.mpr hpanel),
    lateBound_bell_silent] at rings
  exact absurd rings (by decide)

end Sys2Proof.Machine
end

