-- ==== Sys2Proof/Proofs/FaultReplies.lean ====
section
/-! PROOFS. The answer of a client to a record that awaits completion: the record completes with it (O58). -/
namespace Sys2Proof.Machine
open Sys2Proof.Tests

/-- A context word, at the start of a body. -/
theorem fieldAt_ctxWord {ctx : Nat} (h : ctx < 65536) (b : List Byte) : fieldAt (toBytes 8 ctx ++ b) 0 8 = ctx := by
  simp only [fieldAt, toBytes, List.cons_append, List.nil_append, List.drop_zero, List.take_succ_cons, List.take_zero, ofBytes, BitVec.toNat_ofNat]
  omega

theorem resultBody_of {ctx : Nat} (h : ctx < 65536) (fail : Bool) (more : List Byte) :
    resultBody (toBytes 8 ctx ++ (toBytes 4 (bit fail) ++ more)) = some (ctx, fail) := by
  have hresult : fieldAt (toBytes 8 ctx ++ (toBytes 4 (bit fail) ++ more)) 8 4 = bit fail := by
    cases fail <;> simp [fieldAt, toBytes, ofBytes, bit]
  have hlength : 12 ≤ (toBytes 8 ctx ++ (toBytes 4 (bit fail) ++ more)).length := by simp [toBytes]
  unfold resultBody
  simp only [fieldAt_ctxWord h, hresult]
  rw [if_neg]
  · cases fail <;> rfl
  · have hbit : bit fail < 2 := by cases fail <;> decide
    simp only [Bool.or_eq_true, decide_eq_true_eq, not_or]
    omega

/-- A reply to a FAULT that arrives as R441 asks completes the record that its REQ names. -/
theorem faultReply_completes {s : State} {src : Source} {h : UzHdr} {fields rest more : List Byte} {ctx : Nat} {c : Ctx} {fail : Bool}
    (hr : requestIn s src ⟨{ h with status := 0 }, fields ++ rest⟩ ctx c (toBytes 4 (bit fail) ++ more)) :
    exec (.faultReply src h fields rest) s = .next (completeFault s h.session.toNat ctx h.req.toNat fail) := by
  obtain ⟨⟨hheard, hkind, ⟨x, hx, hmgmt, hfits⟩, hbody⟩, hword, -, -⟩ := hr
  have hsession : sessionOf s src h 0x0B = some x := by
    unfold sessionOf
    simp only [show mget s.service.sessions h.session.toNat = some x from hx, hkind, hmgmt]
    rfl
  have hresult : (content ⟨h, fields ++ rest⟩).bind resultBody = some (ctx, fail) := by
    have hcontent : content ⟨h, fields ++ rest⟩ = content ⟨{ h with status := 0 }, fields ++ rest⟩ := rfl
    rw [hcontent, hbody, Option.bind_some]
    exact resultBody_of hword fail more
  have hreply : replyFault s src ⟨h, fields ++ rest⟩ = completeFault s h.session.toNat ctx h.req.toNat fail := by
    unfold replyFault
    simp only [hheard, Bool.not_true, Bool.false_eq_true, if_false, hsession, hresult, hmgmt]
    exact if_pos hfits
  have hexec : exec (.faultReply src h fields rest) s = outside_ "FAULT_REPLY" (replyFault s src ⟨h, fields ++ rest⟩) := rfl
  rw [hexec, hreply]
  rfl

/-- The body of the answer with which the client of `faulted` has its record completed as a failure. -/
def refusal : UzMsg := about (toBytes 4 (bit true) ++ [])

theorem faulted_answered : requestIn faulted (.port 1) ⟨{ refusal.h with status := 0 }, refusal.body ++ []⟩ 1 (ctx1 faulted) (toBytes 4 (bit true) ++ []) :=
  ⟨client_says faulted rfl rfl (toBytes 8 1 ++ (toBytes 4 (bit true) ++ [])) (by decide), by decide, rfl, rfl⟩

theorem faulted_posts_nothing : (completeFault faulted refusal.h.session.toNat 1 refusal.h.req.toNat true).inbox = [] := by decide +kernel

/-- Refutes O58: an answer to a FAULT completes its record in the same step (`faultReply_completes`), and posts no completion of it to come, as the
statement has it. -/
theorem not_contextRequests : ¬ Obligations.ContextRequests := by
  unfold Obligations.ContextRequests
  intro h
  obtain ⟨-, -, -, -, -, -, -, -, replies, -⟩ := h faulted 1 (ctx1 faulted) []
  obtain ⟨t, ht, -, posted⟩ := replies (.port 1) refusal.h refusal.body [] true faulted_answered (by decide +kernel) (by decide +kernel)
    (by decide +kernel) ⟨by decide +kernel, fun _ => rfl⟩
  rw [faultReply_completes faulted_answered] at ht
  obtain rfl := Host.Outcome.next.inj ht
  rw [faulted_posts_nothing] at posted
  exact absurd posted List.not_mem_nil

end Sys2Proof.Machine
end

