-- ==== Sys2Proof/Proofs/ServiceRequests.lean ====
section
/-! PROOFS. What the service, ROM and the harts of the port dies do (O57). -/
namespace Sys2Proof.Machine

variable {s t : State}

/-! ### Fields of bodies (R440) -/

/-- A field that a body holds behind some bytes. -/
theorem fieldAt_append {l r : List Byte} {off n v : Nat} (hl : l.length = off) (hv : v < 256 ^ n) : fieldAt (l ++ (toBytes n v ++ r)) off n = v := by
  subst hl
  rw [fieldAt, List.drop_left, List.take_left' (length_toBytes n v), ofBytes_toBytes, Nat.mod_eq_of_lt hv]

theorem fieldAt_start {r : List Byte} {n v : Nat} (hv : v < 256 ^ n) : fieldAt (toBytes n v ++ r) 0 n = v := fieldAt_append (l := []) rfl hv

/-! ### Sessions (R438, R441) -/

/-- The pairs of versions of a SESSION_OPEN body. -/
def pairBytes (pairs : List (Nat × Nat)) : List Byte := pairs.flatMap fun p => toBytes 1 p.1 ++ toBytes 1 p.2

theorem length_pairBytes (pairs : List (Nat × Nat)) : (pairBytes pairs).length = 2 * pairs.length := by
  induction pairs with
  | nil => rfl
  | cons p r ih =>
    rw [pairBytes, List.flatMap_cons, List.length_append, ← pairBytes, ih]
    simp only [List.length_append, length_toBytes, List.length_cons]
    omega

theorem drop_pairBytes {pairs : List (Nat × Nat)} {i : Nat} (hi : i < pairs.length) (more : List Byte) :
    ∃ rest, (pairBytes pairs ++ more).drop (2 * i) = toBytes 1 pairs[i].1 ++ (toBytes 1 pairs[i].2 ++ rest) := by
  induction pairs generalizing i with
  | nil => exact absurd hi (Nat.not_lt_zero i)
  | cons p r ih =>
    cases i with
    | zero => exact ⟨pairBytes r ++ more, by simp [pairBytes]⟩
    | succ i =>
      obtain ⟨rest, hrest⟩ := ih (i := i) (Nat.lt_of_succ_lt_succ hi)
      exact ⟨rest, by simpa [pairBytes, toBytes, Nat.mul_succ] using hrest⟩

theorem fieldAt_drop (l : List Byte) (off k n : Nat) : fieldAt l (off + k) n = fieldAt (l.drop off) k n := by
  rw [fieldAt, fieldAt, List.drop_drop]

/-- The versions that a body holds behind its first eight bytes. -/
theorem pairs_of_body {head more : List Byte} {pairs : List (Nat × Nat)} (hhead : head.length = 8) (hp : ∀ p ∈ pairs, p.1 < 256 ∧ p.2 < 256) :
    (upto pairs.length).map (fun i => (fieldAt (head ++ (pairBytes pairs ++ more)) (8 + 2 * i) 1, fieldAt (head ++ (pairBytes pairs ++ more)) (9 + 2 * i) 1))
      = pairs := by
  refine List.ext_getElem (by simp [upto]) fun i h hi => ?_
  obtain ⟨hmajor, hminor⟩ := hp _ (List.getElem_mem hi)
  obtain ⟨rest, hrest⟩ := drop_pairBytes hi more
  have hdrop : (head ++ (pairBytes pairs ++ more)).drop (8 + 2 * i) = toBytes 1 pairs[i].1 ++ (toBytes 1 pairs[i].2 ++ rest) := by
    rw [← hrest, ← List.drop_drop, List.drop_left' hhead]
  have hi' : (upto pairs.length)[i]'(by simpa using h) = i := by simp [upto]
  rw [List.getElem_map, hi', ← Nat.add_zero (8 + 2 * i), show 9 + 2 * i = 8 + 2 * i + 1 by omega, fieldAt_drop, fieldAt_drop, hdrop,
    fieldAt_start hmajor, fieldAt_append (length_toBytes ..) hminor]

theorem pairsOf_body {pairs : List (Nat × Nat)} {more : List Byte} (hne : pairs ≠ []) (hlen : pairs.length ≤ 8)
    (hp : ∀ p ∈ pairs, p.1 < 256 ∧ p.2 < 256) :
    pairsOf (toBytes 1 pairs.length ++ toBytes 7 0 ++ pairs.flatMap (fun p => toBytes 1 p.1 ++ toBytes 1 p.2) ++ more) = some pairs := by
  have hpos := List.length_pos_iff.mpr hne
  have hbody : toBytes 1 pairs.length ++ toBytes 7 0 ++ pairs.flatMap (fun p => toBytes 1 p.1 ++ toBytes 1 p.2) ++ more
      = toBytes 1 pairs.length ++ (toBytes 7 0 ++ (pairBytes pairs ++ more)) := by
    simp only [pairBytes, List.append_assoc]
  have hcount : fieldAt (toBytes 1 pairs.length ++ (toBytes 7 0 ++ (pairBytes pairs ++ more))) 0 1 = pairs.length := fieldAt_start (by omega)
  have hzero : fieldAt (toBytes 1 pairs.length ++ (toBytes 7 0 ++ (pairBytes pairs ++ more))) 1 7 = 0 := fieldAt_append (length_toBytes ..) (by decide)
  have hlength : 8 + 2 * pairs.length ≤ (toBytes 1 pairs.length ++ (toBytes 7 0 ++ (pairBytes pairs ++ more))).length := by
    simp only [List.length_append, length_toBytes, length_pairBytes]
    omega
  rw [hbody, pairsOf, hcount, hzero]
  rw [if_neg (by simp only [Bool.or_eq_true, decide_eq_true_eq]; omega), ← List.append_assoc]
  exact congrArg some (pairs_of_body (by simp [length_toBytes]) hp)

theorem sessionOpen_opens {src : Source} {m : UzMsg} {pairs : List (Nat × Nat)} {n : Nat} {more : List Byte} (hheard : heard s src = true)
    (hfits : hdrFits m.h 0 0 (src == .mgmt) = true) (hsession : m.h.session = 0) (hne : pairs ≠ []) (hlen : pairs.length ≤ 8)
    (hp : ∀ p ∈ pairs, p.1 < 256 ∧ p.2 < 256)
    (hbody : content m = some (toBytes 1 pairs.length ++ toBytes 7 0 ++ pairs.flatMap (fun p => toBytes 1 p.1 ++ toBytes 1 p.2) ++ more))
    (hcommon : commonMinor pairs = some n) :
    exec (.sessionOpen src m) s = .next (sendUz (s.updService fun v => v.openSession ⟨src == .mgmt, 1, n⟩)
      s.service.nextSession 0x8001 0 m.h.req (toBytes 1 1 ++ toBytes 1 n ++ toBytes 2 0 ++ toBytes 4 (maxBody (src == .mgmt)))) := by
  have hexec : exec (.sessionOpen src m) s = .next (openSession s src m) := rfl
  have hrefused : (!hdrFits m.h 0 0 (src == .mgmt) || decide (m.h.session ≠ 0)) = false := by rw [hfits, hsession]; rfl
  rw [hexec, openSession, hbody, Option.bind_some, pairsOf_body hne hlen hp]
  dsimp only
  rw [hheard, hrefused, hcommon]
  rfl

theorem sessionClose_closes (session : Nat) : ∃ t, exec (.sessionClose session) s = .next t ∧ mget t.service.sessions session = none := by
  refine ⟨closeSession s session, rfl, ?_⟩
  unfold closeSession
  refine List.foldlRecOn (motive := fun r : State => mget r.service.sessions session = none) _ _ (mget_mdel_self ..) fun r hr c _ => ?_
  split
  · exact List.foldlRecOn (motive := fun r : State => mget r.service.sessions session = none) _ _ hr fun _ h _ _ => h
  · exact hr

theorem maxBody_holds (mgmt : Bool) : legalBody mgmt ≤ maxBody mgmt ∧ maxBody mgmt < 2 ^ 32 := by
  have hopen : Config.maxBody % 2 ^ 26 < 2 ^ 26 := Nat.mod_lt _ (by decide)
  unfold maxBody legalBody
  cases mgmt <;> simp only [Bool.false_eq_true, if_false, if_true] <;> omega

/-! ### Requests on a session (R431, R441) -/

theorem reservedType_refused {r : UzIn} {ty : BitVec 16} {b : List Byte} (h : requestOk s r.src r.m false b) (hty : ty.toNat < 0x8000) :
    exec (.reservedTypeRequest r ty) s = .next (replied s r.m.h (0x8000 + ty.toNat) 4 []) := by
  obtain ⟨x, -, hr⟩ := receive_of h ty.toNat nofun
  have hexec : exec (.reservedTypeRequest r ty) s
      = .next (if 0x8000 ≤ ty.toNat then s else receive s ty.toNat r.src r.m fun _ _ => denied s 4) := rfl
  rw [hexec, if_neg (Nat.not_le.mpr hty), hr]
  rfl

theorem quote_signs {src : Source} {m : UzMsg} {mgmt : Bool} {nonce more : List Byte} (h : requestOk s src m mgmt (nonce ++ more))
    (hn : nonce.length = 64) :
    exec (.quote src m) s = .next (replied s m.h 0x800A 0 (quoteBody s nonce ++ fixLen 4627 (Config.mldsaSign (digest (quoteBody s nonce))))) := by
  obtain ⟨x, -, hr⟩ := receive_of h 0x0A fun _ => rfl
  have hexec : exec (.quote src m) s = .next (receive s 0x0A src m fun _ b => quoteReply s b) := rfl
  have hshort : ¬(nonce ++ more).length < 64 := by rw [List.length_append, hn]; omega
  rw [hexec, hr, quoteReply, if_neg hshort, List.take_left' hn]
  rfl

theorem fwBody_of {session target version : Nat} {image sig more : List Byte} (ht : target ≤ 2) (hv : version < 2 ^ 32) (hi : image.length ≤ 67108864)
    (hs : sig.length = 4627) : fwBody session (fwBytes target version image ++ sig ++ more) = some ⟨session, target, version, image, sig⟩ := by
  generalize hbody : fwBytes target version image ++ sig ++ more = b
  have hfields : b = toBytes 1 target ++ (toBytes 3 0 ++ (toBytes 4 version ++ (toBytes 8 image.length ++ (image ++ (sig ++ more))))) := by
    rw [← hbody]
    simp only [fwBytes, List.append_assoc]
  have htarget : fieldAt b 0 1 = target := hfields ▸ fieldAt_start (by omega)
  have hzero : fieldAt b 1 3 = 0 := hfields ▸ fieldAt_append (length_toBytes ..) (by decide)
  have hversion : fieldAt b 4 4 = version := by
    rw [hfields, ← List.append_assoc]
    exact fieldAt_append (by simp only [List.length_append, length_toBytes]) (by omega)
  have hsize : fieldAt b 8 8 = image.length := by
    rw [hfields, ← List.append_assoc, ← List.append_assoc]
    exact fieldAt_append (by simp only [List.length_append, length_toBytes]) (by omega)
  have himage : b.drop 0x10 = image ++ (sig ++ more) := by
    rw [hfields, ← List.append_assoc, ← List.append_assoc, ← List.append_assoc]
    exact List.drop_left' (by simp only [List.length_append, length_toBytes])
  have hsig : b.drop (0x10 + image.length) = sig ++ more := by
    rw [← List.drop_drop, himage, List.drop_left]
  have hlength : 0x10 + image.length + 4627 ≤ b.length := by
    rw [hfields]
    simp only [List.length_append, length_toBytes, hs]
    omega
  unfold fwBody
  simp only [htarget, hzero, hversion, hsize, himage, hsig, List.take_left, List.take_left' hs]
  exact if_neg (by simp only [Bool.or_eq_true, decide_eq_true_eq]; omega)

theorem fwUpdate_staged {r : UzIn} {target version : Nat} {image sig more : List Byte} (ht : target ≤ 2) (hv : version < 2 ^ 32)
    (hi : image.length ≤ 67108864) (hs : sig.length = 4627) (hroll : s.service.rollback ≤ version)
    (h : requestOk s r.src r.m true (fwBytes target version image ++ sig ++ more)) : exec (.fwUpdate r) s = .next
      (if fusedVerifies (digest (fwBytes target version image)) sig
        then replied (s.updService fun v => { v with staged := mput v.staged target (version, image, sig) }) r.m.h 0x800C 0 []
        else replied s r.m.h 0x800C 3 []) := by
  obtain ⟨x, hx, hr⟩ := receive_of h 0x0C fun _ => rfl
  have hexec : exec (.fwUpdate r) s = .next (receive s 0x0C r.src r.m fun x b =>
    if x.mgmt then withBody s (fwBody r.m.h.session.toNat b) (stageFw s) else denied s 6) := rfl
  rw [hexec, hr, hx, if_pos rfl, fwBody_of ht hv hi hs, withBody, stageFw]
  dsimp only
  cases fusedVerifies (digest (fwBytes target version image)) sig with
  | false => rfl
  | true =>
    simp only [Bool.not_true, Bool.false_eq_true, if_false, if_true, Nat.not_lt.mpr hroll]
    rfl

/-! ### Sandboxes (R432, R433) -/

/-- The lines of a cache that it holds dirty, those of some pages left out. -/
def cleanOf (pages : List Nat) (x : Core) : Prop := ∀ e ∈ x.l1, e.2 = .m → pages.contains (e.1 / 4096 * 4096) = false

theorem cleanOf_probeProof (pages : List Nat) : ProbeProof (cleanOf pages) := by
  intro x line bound h e he hm
  obtain ⟨d, hd, hde⟩ := List.mem_filterMap.mp he
  split at hde
  · obtain rfl := Option.some.inj hde
    exact h d hd hm
  · split at hde
    · obtain rfl := Option.some.inj hde
      cases hm
    · cases hde

theorem core_zeroRange {s : State} (lo n c : Nat) :
    ((zeroRange s lo n).core c).l1 = (s.core c).l1.filter fun l => l.1 < lo || lo + n ≤ l.1 := by
  have hcores : (zeroRange s lo n).core c
      = State.core { s with cores := mmap s.cores fun _ x => { x with l1 := x.l1.filter fun l => l.1 < lo || lo + n ≤ l.1 } } c := rfl
  rw [hcores, core_mapCores s rfl]

/-- The panel with the dirty lines of a sandbox written back as clean data. -/
def sandboxCleaned (s : State) (x : Sandbox) : State :=
  setL1 s (portCache x.port) fun l => l.map fun e => if e.2 = .m && x.pages.contains (e.1 / 4096 * 4096) then (e.1, .e) else e

theorem endSandbox_of {id : Nat} {x : Sandbox} (hx : mget s.service.sandboxes id = some x) : endSandbox s id
    = some ((zeroRange (sandboxCleaned s x) x.root 0x4000).updService fun v => { v with sandboxes := mdel v.sandboxes id }) := by
  unfold endSandbox
  rw [hx]
  rfl

theorem cleanOf_sandboxCleaned (x : Sandbox) : cleanOf x.pages ((sandboxCleaned s x).core (portCache x.port)) := by
  refine (cleanOf_probeProof x.pages).setL1 ?_
  rw [State.core_updCore_self]
  intro e he hm
  obtain ⟨d, -, rfl⟩ := List.mem_map.mp he
  split at hm
  · cases hm
  · rename_i hkept
    rw [if_neg hkept]
    simpa [hm] using hkept

theorem sandboxEnd_cleans {id : Nat} {x : Sandbox} (hx : mget s.service.sandboxes id = some x) :
    ∃ t, exec (.sandboxEnd id) s = .next t ∧ mget t.service.sandboxes id = none
      ∧ ∀ e ∈ (t.core (portCache x.port)).l1, e.2 = .m → x.pages.contains (e.1 / 4096 * 4096) = false := by
  refine ⟨_, congrArg (event "SANDBOX_END") (endSandbox_of hx), mget_mdel_self .., fun e he => cleanOf_sandboxCleaned (s := s) x e ?_⟩
  have hl1 : e ∈ ((zeroRange (sandboxCleaned s x) x.root 0x4000).core (portCache x.port)).l1 := he
  rw [core_zeroRange] at hl1
  exact List.mem_of_mem_filter hl1

/-! ### Boot and the regions (R442) -/

theorem boot_fresh (h : s.service.booted = false) :
    exec .boot s = .next (if bootable s then s.updService fun v => { v with booted := true } else s) := by
  have hexec : exec .boot s = .next (bootRom (if s.service.booted then panelReset s else s)) := rfl
  rw [hexec, h]
  rfl

theorem boot_resets (h : s.service.booted = true) : ∃ t, exec .boot s = .next t ∧ t.blocks = [] ∧ t.ctxs = [] ∧ t.mem = [] ∧ t.service.sessions = []
    ∧ t.service.mode = 0 ∧ t.service.booted = bootable (panelReset s) := by
  have hexec : exec .boot s = .next (bootRom (panelReset s)) := congrArg (fun t => Host.Outcome.next (bootRom t)) (if_pos h)
  refine ⟨_, hexec, ?_⟩
  unfold bootRom
  split
  · rename_i hb
    exact ⟨rfl, rfl, rfl, rfl, rfl, hb.symm⟩
  · rename_i hb
    exact ⟨rfl, rfl, rfl, rfl, rfl, (Bool.eq_false_iff.mpr hb).symm⟩

/-- What memory that the service gives out leaves of the panel: its regions, and how many of them are up. -/
def powers (s : State) : Map Region × Nat × Nat := (s.regions, s.service.regionsUp, s.service.mode)

theorem powers_giveRange {ctx d n align a : Nat} (h : giveRange s ctx d n align = some (t, a)) : powers t = powers s := by
  have hzones (r : State) (pa size : Nat) : powers (tagZones r ctx pa size) = powers r :=
    List.foldlRecOn (motive := fun q : State => powers q = powers r) _ _ rfl fun _ hq _ _ => hq
  unfold giveRange at h
  dsimp only at h
  split at h
  · cases h
  · cases h
    rw [hzones]
    rfl

theorem powers_startSandbox (p g : Nat) : powers (startSandbox s p g) = powers s := by
  unfold startSandbox
  dsimp only
  split
  · rfl
  · split
    · rfl
    · rename_i hgive
      obtain ⟨d, -, hd⟩ := List.exists_of_findSome?_eq_some hgive
      exact (powers_giveRange hd :)

theorem powers_startSandboxes (r : Nat) : powers (startSandboxes s r) = powers s :=
  List.foldlRecOn (motive := fun t : State => powers t = powers s) _ _ rfl fun _ ht _ _ => (powers_startSandbox ..).trans ht

theorem regionBringUp_powers {r : Nat} (hb : s.service.booted = true) (hup : s.service.regionsUp = r) (hr : r < 16) :
    ∃ t, exec (.regionBringUp r) s = .next t ∧ (t.region r).up = true ∧ t.service.regionsUp = r + 1
      ∧ t.service.mode = if r = 0 then 1 else s.service.mode := by
  have hbring : bringUp s r = some _ := if_pos (by simp [hb, hup, hr])
  refine ⟨_, congrArg (event "REGION_BRING_UP") hbring, ?_⟩
  have hexcused : ((diesOf r).foldl excuseCores s).service = s.service :=
    List.foldlRecOn (motive := fun t : State => t.service = s.service) _ _ rfl fun _ ht _ _ => ht
  obtain ⟨hregions, hservice⟩ := Prod.mk.inj (powers_startSandboxes (s := (((diesOf r).foldl excuseCores s).updRegion r fun x =>
    { x with up := true }).updService fun v => { v with regionsUp := r + 1, mode := if r = 0 then 1 else v.mode }) r)
  obtain ⟨hcount, hmode⟩ := Prod.mk.inj hservice
  refine ⟨?_, hcount, hmode.trans ?_⟩
  · rw [State.region, hregions]
    exact congrArg Region.up (State.region_updRegion_self ((diesOf r).foldl excuseCores s) r fun x => { x with up := true })
  · show (if r = 0 then 1 else ((diesOf r).foldl excuseCores s).service.mode) = _
    rw [hexcused]

theorem fullService_begins (hm : s.service.mode = 1) (hup : s.service.regionsUp = 16) (hd : boundaryDue s = true) :
    ∃ t, exec .fullService s = .next t ∧ t.service.mode = 2 :=
  ⟨_, congrArg (event "FULL_SERVICE") (if_pos (by simp [hm, hup, hd])), rfl⟩

/-! ### Harts (R429, R432) -/

theorem portInstall_cacheOnly (s : State) (p line : Nat) (st : LineSt) : cacheOnly s (portInstall s p line st) := (cacheOnly.rfl' s).setL1 _ _

theorem portRead_cacheOnly (s : State) (p line : Nat) : cacheOnly s (portRead s p line) := by
  unfold portRead
  split
  · exact .rfl' s
  · split
    · exact portInstall_cacheOnly ..
    · exact (((cacheOnly.rfl' s).readMiss _ _).giveUp _).trans (portInstall_cacheOnly ..)

theorem portOwn_cacheOnly (s : State) (p line : Nat) : cacheOnly s (portOwn s p line) := by
  unfold portOwn
  split
  · exact .rfl' s
  · have howns : cacheOnly s (if ownsLine s (portCache p) line then s else serveOwn s (some (portCache p)) line) := by
      split
      · exact .rfl' s
      · exact (cacheOnly.rfl' s).serveOwn _ _
    dsimp only
    generalize (if ownsLine s (portCache p) line then s else serveOwn s (some (portCache p)) line) = r at howns ⊢
    split
    · exact (howns.trans (portInstall_cacheOnly ..)).toHome _
    · exact howns.trans (portInstall_cacheOnly ..)

theorem foldl_cacheOnly {α : Type} {f : State → α → State} (hf : ∀ t a, cacheOnly t (f t a)) (l : List α) (s : State) : cacheOnly s (l.foldl f s) :=
  List.foldlRecOn (motive := cacheOnly s) l f (.rfl' s) fun t ht a _ => ht.trans (hf t a)

/-! #### Words in memory -/

theorem rawWrite_plain {pa : Nat} {data : List Byte} (hf : s.frames = []) (hpa : pa < panelEnd) :
    rawWrite s pa data = { s with mem := s.mem.writeBytes pa data } := by
  have hwin : ¬winBase ≤ pa := by
    unfold panelEnd at hpa
    unfold winBase
    omega
  have hframe : s.frameAt pa = none := by
    rw [State.frameAt, hf]
    rfl
  unfold rawWrite
  rw [if_neg hwin, if_neg (Nat.not_le.mpr hpa), hframe]

theorem phys_of_written {m : Memory} {pa k v : Nat} (hf : t.frames = []) (hend : pa + k ≤ panelEnd) (hm : t.mem = m.writeBytes pa (toBytes k v)) :
    t.phys pa k = v % 2 ^ (8 * k) := by
  have hlen := length_toBytes k v
  have hbytes := bytes_of_byte (s := t) (l := toBytes k v) (pa := pa) fun i hi => by
    rw [byte_of_noFrames hf (by omega), hm, Memory.read_writeBytes, if_pos (Nat.le_add_right _ _), Nat.add_sub_cancel_left, List.getElem?_eq_getElem hi]
    rfl
  rw [hlen] at hbytes
  rw [State.phys, hbytes, ofBytes_toBytes, Nat.pow_mul]

theorem devWrite_out {pa : Nat} {data : List Byte} (hf : s.frames = []) (hpa : pa < panelEnd) : (devWrite s pa data).out = s.out := by
  have hown := (cacheOnly.rfl' s).ownTouch none pa
  unfold devWrite homeWrite
  rw [rawWrite_plain (hown.frames.trans hf) hpa]
  exact hown.out

/-! #### Accesses -/

/-- A hart accesses memory as itself, or as the guest that runs on it. -/
theorem hartRuns_of {hart : Nat} {op done : HartOp} (hh : hart < 256) (hup : portUp s (hart / 8) = true)
    (hop : hart < 8 ∧ done = op ∨ ∃ x, ¬hart < 8 ∧ sandboxAt s hart = some x ∧ guestOp s x.2 op = some done) :
    exec (.hartAccess hart op) s = .next (hartDoes s hart done) := by
  have hexec : exec (.hartAccess hart op) s = event "HART_ACCESS" (hartRuns s hart op) := rfl
  have hruns : ¬(decide (256 ≤ hart) || !portUp s (hart / 8)) = true := by simp [hup, hh]
  rw [hexec, hartRuns, if_neg hruns]
  obtain ⟨hself, rfl⟩ | ⟨x, hguest, hx, hdone⟩ := hop
  · rw [if_pos hself]
    rfl
  · rw [if_neg hguest, hx]
    simp only [hdone]
    rfl

theorem hartAt_cases {hart a n pa : Nat} {w : Bool} (h : hartAt s hart w a n = some pa) :
    hart < 8 ∧ pa = a ∨ ∃ x, ¬hart < 8 ∧ sandboxAt s hart = some x ∧ guestRange s x.2 w a n = some pa := by
  unfold hartAt at h
  split at h
  · exact .inl ⟨‹_›, (Option.some.inj h).symm⟩
  · obtain ⟨x, hx, hpa⟩ := Option.bind_eq_some_iff.mp h
    exact .inr ⟨x, ‹_›, hx, hpa⟩

section
variable {hart a n pa : Nat}

/-- A plain range is decoded memory below every window. -/
theorem hartReaches_of (hn : n = 1 ∨ n = 2 ∨ n = 4 ∨ n = 8) (hp : plainRange s pa n) :
    hartReaches pa n = true ∧ ¬portBase ≤ pa + n - 1 ∧ ¬winBase ≤ pa ∧ pa < panelEnd := by
  have hend := hp.1
  have hsizes : (decide (n = 1) || decide (n = 2) || decide (n = 4) || decide (n = 8)) = true := by
    simpa only [Bool.or_eq_true, decide_eq_true_eq, or_assoc] using hn
  have hlast : pa + n - 1 < panelEnd := by omega
  have hfirst : pa < panelEnd := by omega
  refine ⟨?_, ?_, ?_, hfirst⟩
  · unfold hartReaches decodedPA
    rw [decide_eq_true hfirst, decide_eq_true hlast]
    exact hsizes
  · unfold panelEnd at hlast
    unfold portBase
    omega
  · unfold panelEnd at hfirst
    unfold winBase
    omega

theorem hart_fences (hh : hart < 256) (hup : portUp s (hart / 8) = true) (hon : hart < 8 ∨ (sandboxAt s hart).isSome = true) :
    exec (.hartAccess hart .fence) s = .next (s.send (.hartReply hart (some 0))) := by
  refine hartRuns_of (done := .fence) hh hup ?_
  by_cases hself : hart < 8
  · exact .inl ⟨hself, rfl⟩
  · obtain ⟨x, hx⟩ := Option.isSome_iff_exists.mp (hon.resolve_left hself)
    exact .inr ⟨x, hself, hx, rfl⟩

theorem hart_loads (hh : hart < 256) (hup : portUp s (hart / 8) = true) (hn : n = 1 ∨ n = 2 ∨ n = 4 ∨ n = 8) (hp : plainRange s pa n)
    (hat : hartAt s hart false a n = some pa) (hsound : s.poisoned pa n = false) : ∃ t, exec (.hartAccess hart (.load a n)) s = .next t ∧ t.mem = s.mem
      ∧ t.out = s.out ++ [.hartReply hart (some (ofNat64 (s.phys pa n)))] := by
  obtain ⟨hreach, hport, -, -⟩ := hartReaches_of hn hp
  have hcache := foldl_cacheOnly (fun t l => portRead_cacheOnly t (hart / 8) l) (linesOf pa n) s
  have hdoes : hartDoes s hart (.load pa n)
      = ((linesOf pa n).foldl (fun s l => portRead s (hart / 8) l) s).send (.hartReply hart (some (ofNat64 (s.phys pa n)))) := by
    unfold hartDoes
    simp only [hreach, hport, hsound, Bool.not_true, Bool.false_eq_true, if_false]
  refine ⟨_, hartRuns_of (done := .load pa n) hh hup ?_, ?_, ?_⟩
  · exact (hartAt_cases hat).imp (fun ⟨h, e⟩ => ⟨h, e ▸ rfl⟩) fun ⟨x, h, hx, hr⟩ => ⟨x, h, hx, congrArg (Option.map _) hr⟩
  · rw [hdoes]
    exact hcache.mem
  · rw [hdoes, State.send_out, hcache.out]

theorem hart_stores (hh : hart < 256) (hup : portUp s (hart / 8) = true) (hn : n = 1 ∨ n = 2 ∨ n = 4 ∨ n = 8) (hp : plainRange s pa n) (v : Word)
    (hat : hartAt s hart true a n = some pa) : ∃ t, exec (.hartAccess hart (.store a n v)) s = .next t ∧ t.phys pa n = v.toNat % 2 ^ (8 * n) := by
  obtain ⟨hreach, hport, -, hpanel⟩ := hartReaches_of hn hp
  have hcache := foldl_cacheOnly (fun t l => portOwn_cacheOnly t (hart / 8) l) (linesOf pa (toBytes n v.toNat).length) s
  have hframes := hcache.frames.trans (frames_of_plainRange hp)
  have hdoes : hartDoes s hart (.store pa n v) = (portStore s (hart / 8) pa (toBytes n v.toNat)).send (.hartReply hart (some 0)) := by
    unfold hartDoes
    simp only [hreach, hport, Bool.not_true, Bool.false_eq_true, if_false]
  refine ⟨_, hartRuns_of (done := .store pa n v) hh hup ?_, ?_⟩
  · exact (hartAt_cases hat).imp (fun ⟨h, e⟩ => ⟨h, e ▸ rfl⟩) fun ⟨x, h, hx, hr⟩ => ⟨x, h, hx, congrArg (Option.map _) hr⟩
  · rw [hdoes, portStore, rawWrite_plain hframes hpanel]
    exact phys_of_written (m := (List.foldl _ s _).mem) hframes hp.1 rfl

theorem hart_amos (hh : hart < 256) (hup : portUp s (hart / 8) = true) (hn : n = 1 ∨ n = 2 ∨ n = 4 ∨ n = 8) (hp : plainRange s pa n) (op : AmoOp)
    (v : Word) (hat : hartAt s hart true a n = some pa) (hwide : 4 ≤ n) (halign : pa % n = 0) (hsound : s.poisoned pa n = false) :
    ∃ t, exec (.hartAccess hart (.amo op a n v)) s = .next t
      ∧ t.phys pa n = amoNew op (8 * n) (s.phys pa n) (v.toNat % 2 ^ (8 * n)) % 2 ^ (8 * n)
      ∧ t.out = s.out ++ [.hartReply hart (some (ofNat64 (s.phys pa n)))] := by
  obtain ⟨hreach, -, hwin, hpanel⟩ := hartReaches_of hn hp
  have hframes := frames_of_plainRange hp
  have hplain : (!hartReaches pa n || decide (n < 4) || decide (pa % n ≠ 0) || decide (winBase ≤ pa)) = false := by
    simp [hreach, halign, Nat.not_lt.mpr hwide, Nat.not_le.mp hwin]
  have hdoes : hartDoes s hart (.amo op pa n v) = (devWrite s pa (toBytes n (amoNew op (8 * n) (s.phys pa n) (v.toNat % 2 ^ (8 * n))))).send
      (.hartReply hart (some (ofNat64 (s.phys pa n)))) := by
    unfold hartDoes
    simp only [hplain, hsound, Bool.false_eq_true, if_false]
  refine ⟨_, hartRuns_of (done := .amo op pa n v) hh hup ?_, ?_, ?_⟩
  · exact (hartAt_cases hat).imp (fun ⟨h, e⟩ => ⟨h, e ▸ rfl⟩) fun ⟨x, h, hx, hr⟩ => ⟨x, h, hx, congrArg (Option.map _) hr⟩
  · obtain ⟨hkept, hmem⟩ := devWrite_plain (data := toBytes n (amoNew op (8 * n) (s.phys pa n) (v.toNat % 2 ^ (8 * n)))) hframes hpanel
    rw [hdoes]
    exact phys_of_written (m := s.mem) hkept hp.1 hmem
  · rw [hdoes, State.send_out, devWrite_out hframes hpanel]

end

/-- Settles O57: each request's body is read as its rule lays it out (`pairsOf_body`, `fwBody_of`); what gives out memory leaves regions and service
mode alone (`powers_startSandboxes`); and the accesses of harts change caches and the bytes of their range (`hart_stores`, `hart_amos`). -/
theorem serviceAnswers : Obligations.ServiceAnswers := by
  unfold Obligations.ServiceAnswers
  refine fun s => ⟨fun src m pairs n more hheard hfits hsession hne hlen hp hbody hcommon =>
      sessionOpen_opens hheard hfits hsession hne hlen hp hbody hcommon, fun session ty status req body x hx => ?_, maxBody_holds, sessionClose_closes,
    fun r ty b h hty => reservedType_refused h hty, fun port => rfl, fun src m mgmt nonce more h hn => quote_signs h hn,
    fun r target version image sig more ht hv hi hs hroll h => fwUpdate_staged ht hv hi hs hroll h, fun id x hx => sandboxEnd_cleans hx,
    boot_fresh, boot_resets, fun r hb hup hr => regionBringUp_powers hb hup hr, fullService_begins,
    fun hart hh hup => ⟨hart_fences hh hup, fun a pa n hn hp => ⟨hart_loads hh hup hn hp, hart_stores hh hup hn hp, fun op v => hart_amos hh hup hn hp op v⟩⟩⟩
  unfold sendUz
  rw [hx]
  rfl

end Sys2Proof.Machine
end
